-- ==== Sys2Proof/Word.lean ====
section
/-! DEFINITION. The plain words of the Q16 model: bytes, lines, the fixed sets of names of the manual (Tables 0.5, 0.6,
1.3, 8.2) and the canonical sparse table that every indexed piece of state is held in. -/

namespace Sys2Proof

/-- One byte (R3). -/
abbrev Byte := BitVec 8

/-- One register word (R4). -/
abbrev Word := BitVec 32

/-- One line of pool memory, 128 bytes, byte 0 at the lowest address (Table 0.3). -/
abbrev Line := Vector Byte 128

/-- The two memory tiers (Table 10.1). -/
inductive Tier where
  | near
  | bulk
  deriving DecidableEq, Repr, Inhabited

/-- The tier bit used in map entries, line numbers and records: 0 near, 1 bulk (Tables 9.1, 9.5). -/
def Tier.bit : Tier → Nat
  | .near => 0
  | .bulk => 1

/-- The tier a tier bit names. -/
def Tier.ofBit (b : Bool) : Tier := if b then .bulk else .near

/-- The five control processors (Table 1.3), in the order of CRS_SLIP_CLR. -/
inductive Proc where
  | bcp
  | fmp
  | mrp
  | sep
  | mnp
  deriving DecidableEq, Repr, Inhabited

/-- The index of a processor in CRS_SLIP_CLR and FLT_WD_k. -/
def Proc.idx : Proc → Nat
  | .bcp => 0
  | .fmp => 1
  | .mrp => 2
  | .sep => 3
  | .mnp => 4

/-- All processors in index order. -/
def Proc.all : List Proc := [.bcp, .fmp, .mrp, .sep, .mnp]

/-- The node states of Table 0.5. -/
inductive NodeState where
  | off
  | boot
  | selftest
  | training
  | ready
  | degraded
  | fatal
  deriving DecidableEq, Repr, Inhabited

/-- NID_STATE.STATE (Table 1.8). -/
def NodeState.code : NodeState → Nat
  | .off => 0
  | .boot => 1
  | .selftest => 2
  | .training => 3
  | .ready => 4
  | .degraded => 5
  | .fatal => 6

/-- READY and DEGRADED both serve traffic (R106). -/
def NodeState.serving : NodeState → Bool
  | .ready => true
  | .degraded => true
  | _ => false

/-- The port states of Table 0.6. -/
inductive PortState where
  | idle
  | detect
  | train
  | up
  | retrain
  | failed
  | disabled
  deriving DecidableEq, Repr, Inhabited

/-- LNK_STATUS.STATE (Table 6.9). -/
def PortState.code : PortState → Nat
  | .idle => 0
  | .detect => 1
  | .train => 2
  | .up => 3
  | .retrain => 4
  | .failed => 5
  | .disabled => 6

/-- The tenant states of R55. -/
inductive TenantState where
  | free
  | creating
  | live
  | destroying
  deriving DecidableEq, Repr, Inhabited

/-- PTT_TENANT.STATE (Table 3.6). -/
def TenantState.code : TenantState → Nat
  | .free => 0
  | .creating => 1
  | .live => 2
  | .destroying => 3

/-- The four mesh planes (Table 8.2). -/
inductive Plane where
  | req
  | snp
  | rsp
  | dat
  deriving DecidableEq, Repr, Inhabited

/-- A plane's index, in the order of MSH_DEFLECT_REQ, _SNP, _RSP, _DAT. -/
def Plane.idx : Plane → Nat
  | .req => 0
  | .snp => 1
  | .rsp => 2
  | .dat => 3

/-- The payload bytes a plane moves at once (Table 8.2). -/
def Plane.bytes : Plane → Nat
  | .req | .snp | .rsp => 16
  | .dat => 64

/-- The four mesh directions (R183, R189). -/
inductive Dir where
  | xPlus
  | xMinus
  | yPlus
  | yMinus
  deriving DecidableEq, Repr, Inhabited

/-- The four message classes, one virtual channel each (R157). -/
inductive MsgClass where
  | req
  | snp
  | rsp
  | dat
  deriving DecidableEq, Repr, Inhabited

/-- The virtual channel of a class (R157). -/
def MsgClass.vc : MsgClass → Nat
  | .req => 0
  | .snp => 1
  | .rsp => 2
  | .dat => 3

/-- The completion status codes of Table 0.4 (R10). -/
inductive Status where
  | ok
  | alreadyDone
  | aborted
  | badLength
  | outOfBounds
  | noGrant
  | poison
  | linkLost
  | timeout
  | unsupported
  | partitionReset
  | tableStale
  | bufferShort
  | busy
  deriving DecidableEq, Repr, Inhabited

/-- The code of a status (Table 0.4). -/
def Status.code : Status → Nat
  | .ok => 0x00
  | .alreadyDone => 0x01
  | .aborted => 0x02
  | .badLength => 0x03
  | .outOfBounds => 0x04
  | .noGrant => 0x05
  | .poison => 0x06
  | .linkLost => 0x07
  | .timeout => 0x08
  | .unsupported => 0x09
  | .partitionReset => 0x0A
  | .tableStale => 0x0B
  | .bufferShort => 0x0C
  | .busy => 0x0D

/-- A sparse table: pairs of a key and a value, keys strictly rising, no value equal to the table's default. -/
abbrev Tbl (α : Type) := List (Nat × α)

/-- What a table holds at a key; the default where nothing is listed. -/
def Tbl.get {α : Type} (d : α) : Tbl α → Nat → α
  | [], _ => d
  | (k, v) :: r, i => if i = k then v else Tbl.get d r i

/-- Set a listed value at a key: put in before the first higher key, or in place of the value there. -/
def Tbl.ins {α : Type} : Tbl α → Nat → α → Tbl α
  | [], i, x => [(i, x)]
  | (k, v) :: r, i, x =>
    if i < k then (i, x) :: (k, v) :: r
    else if i = k then (i, x) :: r
    else (k, v) :: Tbl.ins r i x

/-- Write a value at a key, keeping the canonical form: the default removes the key. -/
def Tbl.put {α : Type} [DecidableEq α] (d : α) (t : Tbl α) (i : Nat) (x : α) : Tbl α :=
  if x = d then t.filter (fun e => decide (e.1 ≠ i)) else Tbl.ins t i x

/-- The canonical form: keys strictly rising from a bound, no entry equal to the default. -/
def Tbl.wfFrom {α : Type} [DecidableEq α] (d : α) : Nat → Tbl α → Bool
  | _, [] => true
  | lo, (k, v) :: r => decide (lo ≤ k) && decide (v ≠ d) && Tbl.wfFrom d (k + 1) r

/-- The canonical form of a whole table. -/
def Tbl.wf {α : Type} [DecidableEq α] (d : α) (t : Tbl α) : Bool := Tbl.wfFrom d 0 t

/-- The keys a table lists, rising. -/
def Tbl.keys {α : Type} (t : Tbl α) : List Nat := t.map Prod.fst

/-- Byte `i` of a natural number, little-endian (R3). -/
def byteOf (n i : Nat) : Byte := BitVec.ofNat 8 (n / 256 ^ i)

/-- The `n` low bytes of a number, little-endian (R3). -/
def leBytes (n v : Nat) : List Byte := (List.range n).map (byteOf v)

/-- The number a little-endian byte list spells (R3). -/
def ofLeBytes : List Byte → Nat
  | [] => 0
  | b :: r => b.toNat + 256 * ofLeBytes r

/-- Bits [hi:lo] of a word as a number (R3). -/
def bits (w : Word) (hi lo : Nat) : Nat := w.toNat / 2 ^ lo % 2 ^ (hi - lo + 1)

/-- One bit of a word. -/
def bit (w : Word) (i : Nat) : Bool := w.getLsbD i

/-- A field value placed at bit `lo` of a word. -/
def field (lo v : Nat) : Word := BitVec.ofNat 32 (v * 2 ^ lo)

/-- A one-bit field. -/
def flag (i : Nat) (b : Bool) : Word := if b then BitVec.ofNat 32 (2 ^ i) else 0

/-- Set bit `i` of a word (hardware setting a status bit). -/
def setBit (w : Word) (i : Nat) : Word := w ||| BitVec.ofNat 32 (2 ^ i)

/-- A saturating 32-bit count (R50, R178 and the like). -/
def sat32 (w : Word) (n : Nat) : Word := BitVec.ofNat 32 (min (w.toNat + n) 0xFFFFFFFF)

/-- A saturating 16-bit count. -/
def sat16 (w : BitVec 16) : BitVec 16 := if w = 0xFFFF#16 then w else w + 1

end Sys2Proof
end

