-- ==== Sys2Proof/Syntax.lean ====
section
/-! DEFINITION. The commands of the Q16 node: one constructor of Instr for each row of spec/opcode_table.json, and the
operands those rows carry. A command is one indivisible step of the part (spec/95_what_each_step_holds.md): a write or read at a
host port, a message or frame from a link, an event on a pin, or an event inside the node whose moment the sender names. -/

namespace Sys2Proof

/-- A PCIe function: the physical function of a host port (vf = 0) or virtual function 1 to 32 of it (R366). -/
structure Fn where
  port : Fin 4
  vf   : Nat := 0
  deriving DecidableEq, Repr

/-- A register write as it reaches BAR0: byte offset, size in bytes, value (R4). -/
structure RegWr where
  off  : Nat
  size : Nat := 4
  val  : Word
  deriving DecidableEq, Repr

/-- A register write with the W1C bits of its register that the hardware sets in the cycle of the write (R9). -/
structure RegWrSet extends RegWr where
  sets : Word := 0
  deriving DecidableEq, Repr

/-- An SMBus transfer addressed to the node's first target, or to the second of Table 4.6. -/
structure OnBus (α : Type) where
  bus2 : Bool := false
  val  : α
  deriving DecidableEq, Repr

/-- The expiry of a port's replay timer, and whether an acknowledgement that frees a frame is recorded in the same cycle (R148). -/
structure ReplayExpiry where
  port  : Fin 32
  acked : Bool := false
  deriving DecidableEq, Repr

/-- A write that clears a channel's SUSPECT bit, and whether the hardware sets the bit in the cycle of the write (R9). -/
structure SuspectWr where
  ch  : Nat
  set : Bool := false
  deriving DecidableEq, Repr

/-- The header of a mailbox command: TAG and LENGTH of Table 17.4. -/
structure MbxHdr where
  tag    : Word
  length : Word
  deriving DecidableEq, Repr

/-- A queue: one of a tenant's eight, or one of the administrator's eight (R269). -/
inductive QId where
  | tenant (t : Fin 128) (q : Fin 8)
  | admin (q : Fin 8)
  deriving DecidableEq, Repr, Inhabited

/-- A fabric message: the fields of Tables 7.1 and 7.2. `aux` is byte 1 (FLAGS, STATUS or GROUP), `len` bytes 12 to 15
(LEN or COUNT). Fields a class does not carry are zero. -/
structure Msg where
  opcode   : BitVec 8
  aux      : BitVec 8 := 0
  dst      : BitVec 12 := 0
  src      : BitVec 12 := 0
  tenant   : BitVec 7 := 0
  group    : BitVec 8 := 0
  stream   : BitVec 12 := 0
  rseq     : BitVec 16 := 0
  len      : Word := 0
  addr     : BitVec 48 := 0
  opargs   : List Byte := []
  data     : List Byte := []
  poisoned : Bool := false
  deriving DecidableEq, Repr, Inhabited

/-- The header fields of a frame (Table 6.5). -/
structure FrameHdr where
  ftype    : BitVec 4
  seq      : BitVec 12 := 0
  ack      : BitVec 12 := 0
  ackValid : Bool := false
  vc       : BitVec 3 := 0
  len      : BitVec 5 := 1
  crdVc    : BitVec 3 := 0
  crdCount : BitVec 8 := 0
  /-- Bits [15:0], ignored. -/
  low      : BitVec 16 := 0
  deriving DecidableEq, Repr, Inhabited

/-- A frame on the wire: header, 256 payload bytes and 64-bit trailer (R138). Log: DESIGN CHOICE 37. -/
structure Frame where
  hdr     : FrameHdr
  payload : List Byte := []
  trailer : BitVec 64 := 0
  deriving DecidableEq, Repr, Inhabited

/-- PARAMS (Table 6.4). -/
structure Params where
  modeReq : BitVec 8
  window  : BitVec 16
  epoch   : BitVec 16
  rxNext  : BitVec 12
  isSealed  : BitVec 8
  deriving DecidableEq, Repr, Inhabited

/-- A coordinator claim (Table 7.5). -/
structure Claim where
  prio   : BitVec 8
  nonce  : Word
  serial : BitVec 64
  deriving DecidableEq, Repr, Inhabited

/-- The strap levels (Table 4.5). Log: DESIGN CHOICE 9. -/
structure Straps where
  monitorEn     : Bool := false
  bootSlotSel   : Bool := false
  smbAddr       : BitVec 2 := 0
  coordEligible : Bool := false
  deriving DecidableEq, Repr, Inhabited

/-- A factory calibration value with its bounds (R123). -/
structure CalFactory where
  id    : Nat
  index : Nat
  value : Int
  lo    : Int
  hi    : Int
  deriving DecidableEq, Repr, Inhabited

/-- What OTP holds (R104, R118, R123, R362), and the stations fused off (R188). -/
structure Otp where
  serial    : BitVec 64
  /-- The fuse key of the settings (R118) and the private identity key (R104); no register or command shows either. -/
  fuseKey   : BitVec 256 := 0
  idKey     : Nat := 0
  idHash    : List Byte
  fwKeyHash : List Byte
  certChain : List Byte := []
  fused     : List (Fin 192) := []
  cal       : List CalFactory := []
  deriving DecidableEq, Repr, Inhabited

/-- The body of a settings slot, as far as the manual names its content (R119, R237, R245, R359). -/
structure SetBody where
  userCal    : Bool := false
  hbmExclude : Tbl Word := []
  ddrExclude : Word := 0
  maxRate    : Nat := 4
  pins       : Tbl (List Byte) := []
  /-- Learned training results by channel, near channels first (R233, R234). -/
  learned    : Tbl (BitVec 128) := []
  deriving DecidableEq, Repr, Inhabited

/-- What a settings header whose MAGIC, FORMAT and CRC are correct says (Table 5.9); `aad` are its bytes 0x00 to 0x13. -/
structure SetSlot where
  version  : BitVec 16
  sequence : Word
  length   : Nat
  aad      : List Byte
  nonce    : List Byte
  tag      : List Byte
  deriving DecidableEq, Repr, Inhabited

/-- The SPI flash on the board as flash discovery finds it (R89): what SFDP advertises, its density, its contents. Log: DESIGN CHOICE 15. -/
structure FlashDev where
  sfdp    : Bool := true
  q144    : Bool := true
  q114    : Bool := true
  log2    : Nat := 24
  erase   : Nat := 4096
  cells   : List Host.Cell := []
  /-- Ranges whose contents are undefined: start, length and the number of the draw (R378). -/
  spoilt  : List (Nat × Nat × Nat) := []
  deriving DecidableEq, Repr

/-- An ECC checker, a pattern of Table 5.10 injected at it, and what it answers (R121). -/
inductive EccUnit where
  | hbm (ch : Fin 256)
  | ddr (ch : Fin 16)
  | sram (k : Nat)
  deriving DecidableEq, Repr, Inhabited

inductive EccPattern where
  | clean
  | singleWalk (pos : Nat)
  | double (middle : Bool)
  | checkOnly
  deriving DecidableEq, Repr, Inhabited

inductive EccResult where
  | noError
  | corrected (pos : Nat)
  | uncorrectable (changed : Bool)
  deriving DecidableEq, Repr, Inhabited

structure EccReply where
  unit    : EccUnit
  pattern : EccPattern
  result  : EccResult
  deriving DecidableEq, Repr, Inhabited

/-- One DIMM as its SPD describes it (R222). -/
structure Dimm where
  mrdimm : Bool := false
  gib    : Nat
  ranks  : Nat
  x4     : Bool := true
  devGb  : Nat := 16
  deriving DecidableEq, Repr, Inhabited

/-- How a Host Notify attempt ended (R93 to R96). -/
inductive HnResult where
  | acked
  | noAck
  | arbLost
  | sclTimeout
  deriving DecidableEq, Repr

/-- What a read of host memory returned. -/
inductive HostRead where
  | data (b : List Byte)
  | error
  deriving DecidableEq, Repr

/-- The cause of a loss of the course clock (R30, R85). -/
inductive ClockLoss where
  | station (s : Fin 192)
  | sysclk
  deriving DecidableEq, Repr

/-- A rail pair that came up out of order (R82). -/
inductive RailOrder where
  | sramBeforeCore
  | ioBeforeSram
  deriving DecidableEq, Repr

/-- Symbols in error in a codeword as read (R238, R239): per half-line in the near tier, `sym0` alone in the bulk tier; the
on-die ECC reports seen; and, for an error beyond what the code detects, what the decoder yields (R241).
 Log: DESIGN CHOICE 53, DESIGN CHOICE 96. -/
structure EccErr where
  sym0    : Nat := 0
  sym1    : Nat := 0
  odecc   : Nat := 0
  garbled : Option Line := none
  /-- The decoder took the garbled line for a correction, so it is counted and written back as one. -/
  miscorrected : Bool := false
  deriving DecidableEq, Repr

/-- A unit attached to a station (Table 8.1). -/
inductive MeshUnit where
  | efpPort (n : Nat)
  | slice (k : Nat)
  | hbm (ch : Nat)
  | ddr (ch : Nat)
  | column (k : Nat)
  | courseGen
  | bcp
  | sep
  | mnp
  | fmp
  | mrp
  | hostPort (k : Nat)
  | moveEng (k : Nat)
  | scrubBulk
  | scrubNear
  | voxelEng (k : Nat)
  deriving DecidableEq, Repr

/-- A mesh packet's header and payload (R182). -/
structure MeshPkt where
  dest     : Fin 192
  src      : Fin 192
  waypoint : Option (Fin 192) := none
  age      : BitVec 16 := 0
  pseq     : BitVec 16 := 0
  multi    : Bool := false
  course   : Bool := false
  payload  : List Byte := []
  poisoned : Bool := false
  deriving DecidableEq, Repr

/-- What the header code found (R182). -/
inductive HdrCheck where
  | clean
  | corrected
  | uncorrectable
  deriving DecidableEq, Repr

/-- A packet arriving at a station in one cycle: its input port (lower number wins last, R184), what its codes found, and whether
the unit's receive queue is full (R186). Log: DESIGN CHOICE 96. -/
structure MeshIn where
  pkt      : MeshPkt
  inPort   : Nat
  hdr      : HdrCheck := .clean
  payBad   : Bool := false
  unitFull : Bool := false
  deriving DecidableEq, Repr

/-- On-chip structures with an uncorrectable error (Table 18.2). Log: DESIGN CHOICE 96. -/
inductive SramFault where
  | store (t : Fin 128) (tile : Nat)
  | admission (t : Fin 128) (e : Fin 64)
  | streamEntry (s : BitVec 12)
  | streamRecord (s : BitVec 12)
  | queueCtx (t : Fin 128) (q : Fin 8)
  | route (d : BitVec 12)
  | binding (d : BitVec 12)
  | multicast (g : BitVec 8)
  | dirEntry (slice : Fin 32) (set : Nat) (way : Fin 16)
  | bogRecord (idx : Nat)
  | replaySlot (p : Fin 32)
  | procMem (p : Proc)
  deriving DecidableEq, Repr

/-- Why a training attempt ended at once (R132, R136). -/
inductive AttemptErr where
  | prbs
  | paramsValue
  deriving DecidableEq, Repr

/-- Which source drives a configuration stream: a host load of a queue's command, or a memory unit's frame writer (R332, R336). -/
inductive LoaderId where
  | host (q : QId) (idx : BitVec 16)
  /-- The SEDGE_DESIGN record of the image (R335). -/
  | design
  | self (col : Fin 64) (mu : Fin 4) (stream : Fin 4)
  deriving DecidableEq, Repr, Inhabited

/-- The two parts of a memory-unit access (R314, R315). -/
inductive AccessPhase where
  | issue
  | complete
  deriving DecidableEq, Repr

/-- The health test that failed (R351). -/
inductive TrngTest where
  | repetition
  | proportion
  | startup
  deriving DecidableEq, Repr

/-- The tamper sensors of R353. -/
inductive TamperSensor where
  | voltage
  | sysclk
  | cold
  | otp
  deriving DecidableEq, Repr

/-- A link-handshake HELLO (Table 16.4). -/
structure Hello where
  version  : BitVec 8
  chainLen : BitVec 16
  random   : List Byte
  pubKey   : List Byte
  deriving DecidableEq, Repr, Inhabited

/-- One consumer's demand and full-rate need for a course, in mW (R384): engines 0 to 7 as Table 12.9 numbers them, array columns from 24 on,
the DRAM schedulers from 1,000 on by tier × 256 + channel. Log: DEDUCED 87. -/
structure Demand where
  consumer : Nat
  demand   : Nat
  fullRate : Nat
  deriving DecidableEq, Repr

/-- What the MNP measures for one telemetry snapshot (Table 17.8). -/
structure TelSample where
  power    : BitVec 16
  hot0     : BitVec 16
  hot1     : BitVec 16
  nearRd   : Word := 0
  nearWr   : Word := 0
  bulkRd   : Word := 0
  bulkWr   : Word := 0
  fabRx    : Word := 0
  fabTx    : Word := 0
  deriving DecidableEq, Repr

/-- Why a coherent tile leaves a map (Table 11.6). -/
inductive RecallCause where
  | unmap
  | revoke
  | migration
  | destroyed
  deriving DecidableEq, Repr, Inhabited

/-- The commands of the node: one constructor for each row of spec/opcode_table.json, in the table's order. -/
inductive Instr where
  /-- REGISTER_WRITE (R8): a write to a register that has no row of its own. -/
  | registerWrite (fn : Fn) (w : RegWrSet)
  /-- REGISTER_PAIR_WRITE (R5): a write to either word of a 64-bit pair. -/
  | registerPairWrite (fn : Fn) (w : RegWr)
  /-- REGISTER_PAIR_LOW_READ (R5). -/
  | registerPairLowRead (fn : Fn) (off size : Nat)
  /-- SHADOW_WRITE (R37): a write to an RWG entry of a generation-managed table. -/
  | shadowWrite (fn : Fn) (w : RegWr)
  /-- GENCTL_COMMIT (R44): a write to a GENCTL word. -/
  | genctlCommit (fn : Fn) (w : RegWr)
  /-- COURSE_PACKET_SEND (R192). -/
  | coursePacketSend
  /-- COURSE_CLOCK_LOSS (R30, R85). -/
  | courseClockLoss (c : ClockLoss)
  /-- COURSE_BOUNDARY (R31). -/
  | courseBoundary
  /-- GEN_RELEASE (R41). -/
  | genRelease (i : Fin 261)
  /-- GEN_RELEASE_BY_AGE (R42). -/
  | genReleaseByAge (i : Fin 261)
  /-- GEN_FLIP (R38). -/
  | genFlip (i : Fin 261)
  /-- GEN_STALE_POST (R42). -/
  | genStalePost
  /-- COURSE_SLIP (R35). -/
  | courseSlip (p : Proc)
  /-- SLIP_CLR (R49): the value written to CRS_SLIP_CLR, and the processors that slip in the same cycle. -/
  | slipClr (fn : Fn) (w : RegWr) (slips : List Proc)
  /-- TENANT_CREATE (R56). -/
  | tenantCreate (fn : Fn) (m : MbxHdr) (part vf : Byte)
  /-- TENANT_KEY_READY (R56). -/
  | tenantKeyReady (t : Fin 128)
  /-- TENANT_DESTROY (R59). -/
  | tenantDestroy (fn : Fn) (m : MbxHdr) (tenant : Byte)
  /-- TENANT_WITHDRAW (R59). -/
  | tenantWithdraw (t : Fin 128)
  /-- TENANT_KEY_ZEROISE (R207). -/
  | tenantKeyZeroise (t : Fin 128)
  /-- TENANT_FREE (R59). -/
  | tenantFree (t : Fin 128)
  /-- TENANT_QUERY (R74). -/
  | tenantQuery (fn : Fn) (m : MbxHdr) (tenant : Byte)
  /-- STREAM_OPEN (R61). -/
  | streamOpen (fn : Fn) (m : MbxHdr) (tenant : Byte) (endpoint window timeout : BitVec 16)
  /-- STREAM_MODIFY (R65). -/
  | streamModify (fn : Fn) (m : MbxHdr) (stream window timeout : BitVec 16)
  /-- STREAM_CLOSE (R66). -/
  | streamClose (fn : Fn) (m : MbxHdr) (stream : BitVec 16)
  /-- STREAM_ID_FREE (R66). -/
  | streamIdFree (s : BitVec 12)
  /-- STREAM_WINDOW_RAMP (R62). -/
  | streamWindowRamp (s : BitVec 12)
  /-- STREAM_TIMEOUT (R64). -/
  | streamTimeout (s : BitVec 12) (rseq : BitVec 16)
  /-- PART_RESET (R67). -/
  | partReset (fn : Fn) (m : MbxHdr) (part : Byte)
  /-- PARTITION_RESET_WITHDRAW (R68). -/
  | partitionResetWithdraw (p : Fin 16)
  /-- PARTITION_RESET_COMPLETE (R68). -/
  | partitionResetComplete (p : Fin 16)
  /-- PART_QUERY (R75). -/
  | partQuery (fn : Fn) (m : MbxHdr) (part : Byte)
  /-- VF_FLR (R70). -/
  | vfFlr (hp : Fin 4) (vf : Nat)
  /-- POR_N_RISE (R88). -/
  | porNRise (straps : Straps)
  /-- POR_N_FALL (R83). -/
  | porNFall
  /-- PWRGOOD_FALL (R83). -/
  | pwrgoodFall
  /-- RAIL_ORDER_FAULT (R82). -/
  | railOrderFault (r : RailOrder)
  /-- VDD_AUX_REMOVAL (R82). -/
  | vddAuxRemoval
  /-- PERST_N_ASSERT (R67). -/
  | perstNAssert (hp : Fin 4)
  /-- PERST_N_DEASSERT (R126). -/
  | perstNDeassert (hp : Fin 4)
  /-- THERMTRIP (R87): a sensor of a die reads `t`, s16 in 0.25 degrees. -/
  | thermtrip (die : Fin 2) (t : BitVec 16)
  /-- PROCHOT_ASSERT (R87). -/
  | prochotAssert (die : Fin 2) (t : BitVec 16)
  /-- PROCHOT_RELEASE (R87): the hottest sensors of the two dies. -/
  | prochotRelease (t0 t1 : BitVec 16)
  /-- REFCLK_LOST (R85). -/
  | refclkLost (g : Fin 4)
  /-- REFCLK_RETURN (R85). -/
  | refclkReturn (g : Fin 4)
  /-- HOST_NOTIFY_SEND (R93). -/
  | hostNotifySend (r : HnResult)
  /-- HOST_NOTIFY_RETRY (R94). -/
  | hostNotifyRetry (r : HnResult)
  /-- SMB_ALERT_RESPONSE (R93), to either target: the first is up whenever the second is, and both answer alike (Table 4.6). -/
  | smbAlertResponse
  /-- SMB_SCL_TIMEOUT (R96). -/
  | smbSclTimeout
  /-- PIN_GUARD_END (R99). -/
  | pinGuardEnd (n : Fin 16)
  /-- TACH_WINDOW (R97). -/
  | tachWindow (n : Fin 16)
  /-- LED_PERIOD (R97). -/
  | ledPeriod (n : Fin 16)
  /-- CLOCK_LOCK (R28). -/
  | clockLock
  /-- OTP_READ (R105): what OTP holds, or a failure to read it. -/
  | otpRead (o : Option Otp)
  /-- FLASH_DISCOVERY (R89): the flash as another agent left it, or as the node last knew it. -/
  | flashDiscovery (d : Option FlashDev)
  /-- SLOT_CHOICE (R114). -/
  | slotChoice
  /-- PROCESSOR_START (R104). -/
  | processorStart
  /-- SETTINGS_READ (R118). -/
  | settingsRead
  /-- ECC_SELFTEST (R121): what the checkers answer to the patterns; an answer not listed is the expected one. -/
  | eccSelftest (hbm : List (Fin 256 × EccPattern × EccResult)) (ddr : List (Fin 16 × EccPattern × EccResult))
    (sram : List (Nat × EccPattern × EccResult))
  /-- MESH_SELFTEST (R188): the routers that failed, and whether a multicast repeater failed. -/
  | meshSelftest (failed : List (Fin 192)) (repeater : Bool)
  /-- CALIBRATION_APPLY (R123). -/
  | calibrationApply
  /-- PARTITION_LOAD (R52). -/
  | partitionLoad
  /-- TABLES_LOAD (R112). -/
  | tablesLoad
  /-- HBM_TRAINING (R234): channels with no working setting, and their failed pseudo-channels. -/
  | hbmTraining (fails : List (Fin 256 × BitVec 2))
  /-- DDR_TRAINING (R235): the DIMMs of each channel, and the channels with no working setting. -/
  | ddrTraining (dimms : List (List Dimm)) (fails : List (Fin 16))
  /-- PORTS_OPEN (R124), with the milliseconds since POR_N rose. -/
  | portsOpen (ms : Nat)
  /-- SEDGE_DESIGN_LOAD (R335). -/
  | sedgeDesignLoad
  /-- ENTER_SERVICE (R106), with the milliseconds since POR_N rose. -/
  | enterService (ms : Nat)
  /-- HEALTH_CHECK_PASS (R115). -/
  | healthCheckPass
  /-- SETTINGS_WRITE (R119). -/
  | settingsWrite
  /-- CONFIG_RETRY_END (R126). -/
  | configRetryEnd (hp : Fin 4)
  /-- TRAINING_ADMIT (R124). -/
  | trainingAdmit
  /-- ATTEMPT_SUCCESS (R132). -/
  | attemptSuccess (p : Fin 32)
  /-- ATTEMPT_FAIL (R132). -/
  | attemptFail (p : Fin 32) (e : AttemptErr)
  /-- ATTEMPT_TIMEOUT (R132): the lanes locked locally and at the partner. -/
  | attemptTimeout (p : Fin 32) (lockLocal lockPartner : Byte)
  /-- FAILED_RETRY (R135). -/
  | failedRetry (p : Fin 32)
  /-- LNK_RETRAIN (R155). -/
  | lnkRetrain (fn : Fn) (p : Fin 32)
  /-- LNK_ENABLE (R155). -/
  | lnkEnable (fn : Fn) (p : Fin 32)
  /-- LNK_DISABLE (R155). -/
  | lnkDisable (fn : Fn) (p : Fin 32)
  /-- PARAMS (R136). -/
  | params (p : Fin 32) (q : Params)
  /-- PARAMS_ACK (R136). -/
  | paramsAck (p : Fin 32)
  /-- PARAMS_RESEND (R136). -/
  | paramsResend (p : Fin 32)
  /-- RETRAIN_REQ (R141): the frame as it arrived, whether a block on it had a parity error, and the cause it carries. -/
  | retrainReq (p : Fin 32) (f : Frame) (parity : Bool) (cause : Byte)
  /-- DATA (R142): a sequenced frame received in Sure mode, and whether its block bits alternate, which a receiver in Sure mode ignores
  (R139). -/
  | data (p : Fin 32) (f : Frame) (alternates : Bool)
  /-- LEAN_FRAME_RECEIVE (R151). -/
  | leanFrameReceive (p : Fin 32) (f : Frame) (lockLost parity : Bool)
  /-- IDLE (R142). -/
  | idle (p : Fin 32) (f : Frame)
  /-- REPLAY_REQ (R146). -/
  | replayReq (p : Fin 32) (f : Frame)
  /-- FRAME_SEND (R146). -/
  | frameSend (p : Fin 32) (vc : Fin 5)
  /-- IDLE_SEND (R145), with the channel whose credit total it carries. -/
  | idleSend (p : Fin 32) (crdVc : Fin 5)
  /-- REPLAY_TIMER (R146, R148). -/
  | replayTimer (x : ReplayExpiry)
  /-- REPLAY_RESEND (R407), with the channel whose credit total it carries. -/
  | replayResend (p : Fin 32) (crdVc : Fin 5)
  /-- LANE_LOCK_LOSS (R151). -/
  | laneLockLoss (p : Fin 32)
  /-- RD_SHARED (R257). -/
  | rdShared (p : Fin 32) (m : Msg)
  /-- RD_UNIQUE (R257). -/
  | rdUnique (p : Fin 32) (m : Msg)
  /-- RD_ONCE (R257). -/
  | rdOnce (p : Fin 32) (m : Msg)
  /-- WR_FULL (R257). -/
  | wrFull (p : Fin 32) (m : Msg)
  /-- WR_STASH (R259). -/
  | wrStash (p : Fin 32) (m : Msg)
  /-- WB_DIRTY (R258). -/
  | wbDirty (p : Fin 32) (m : Msg)
  /-- EVICT_CLEAN (R257). -/
  | evictClean (p : Fin 32) (m : Msg)
  /-- AT_OP (R254). -/
  | atOp (p : Fin 32) (m : Msg)
  /-- MCAST_READ (R169). -/
  | mcastRead (p : Fin 32) (m : Msg)
  /-- MCAST_READ_COMPLETE (R169). -/
  | mcastReadComplete (s : BitVec 12) (rseq : BitVec 16)
  /-- REQ_RESERVED (R158). -/
  | reqReserved (p : Fin 32) (m : Msg)
  /-- FORWARD (R162). -/
  | forward (p : Fin 32) (cls : MsgClass) (m : Msg)
  /-- DAT_WRITE (R158). -/
  | datWrite (p : Fin 32) (m : Msg)
  /-- MCAST_DATA (R170). -/
  | mcastData (p : Fin 32) (m : Msg)
  /-- SNP_ACK_INV (R253). -/
  | snpAckInv (p : Fin 32) (m : Msg)
  /-- SNP_ACK_SHARED (R253). -/
  | snpAckShared (p : Fin 32) (m : Msg)
  /-- STASH_ACCEPT (R259). -/
  | stashAccept (p : Fin 32) (m : Msg)
  /-- STASH_DECLINE (R259). -/
  | stashDecline (p : Fin 32) (m : Msg)
  /-- COMP_ACK (R257). -/
  | compAck (p : Fin 32) (m : Msg)
  /-- DAT_SNP_S (R257). -/
  | datSnpS (p : Fin 32) (m : Msg)
  /-- DAT_SNP_I (R258). -/
  | datSnpI (p : Fin 32) (m : Msg)
  /-- CLAIM (R174). -/
  | claim (p : Fin 32) (c : Claim)
  /-- ANNOUNCE (R176). -/
  | announce (p : Fin 32) (c : Claim)
  /-- JOIN (R177). -/
  | join (p : Fin 32) (kind : Byte) (serial : BitVec 64)
  /-- ASSIGN (R177). -/
  | assign (p : Fin 32) (endpoint : BitVec 12) (serial : BitVec 64)
  /-- ROUTE_PUB (R164). -/
  | routePub (p : Fin 32) (dst : BitVec 12) (port alt : BitVec 5) (altValid withdraw last : Bool) (serial : BitVec 64)
  /-- CLAIM_WINDOW_EXPIRE (R175). -/
  | claimWindowExpire
  /-- MESH_PACKET_ARRIVE (R184): the packets arriving at one station on one plane in one cycle. -/
  | meshPacketArrive (st : Fin 192) (pl : Plane) (ps : List MeshIn)
  /-- MESH_INJECT (R185): the ports left free, and the packet to inject. -/
  | meshInject (st : Fin 192) (pl : Plane) (free : List Dir) (pkt : MeshPkt)
  /-- MESH_MULTICAST (R191): a row or a column multicast with its station mask. -/
  | meshMulticast (row : Bool) (line : Fin 16) (mask : BitVec 16) (pkt : MeshPkt)
  /-- TILE_MAP (R202). -/
  | tileMap (fn : Fn) (m : MbxHdr) (tenant : Byte) (tile : Word) (count : BitVec 16) (tier flags : Byte)
  /-- TILE_UNMAP (R203). -/
  | tileUnmap (fn : Fn) (m : MbxHdr) (tenant : Byte) (tile : Word) (count : BitVec 16)
  /-- TILE_PROTECT (R206). -/
  | tileProtect (fn : Fn) (m : MbxHdr) (tenant : Byte) (tile : Word) (count : BitVec 16) (ro : Byte)
  /-- TILE_GRANT (R204). -/
  | tileGrant (fn : Fn) (m : MbxHdr) (owner : Byte) (tile : Word) (count : BitVec 16) (grantee : Byte) (gtile : Word) (mode : Byte)
  /-- TILE_REVOKE (R206). -/
  | tileRevoke (fn : Fn) (m : MbxHdr) (grantee : Byte) (gtile : Word) (count : BitVec 16)
  /-- TILE_MIGRATE (R211). -/
  | tileMigrate (fn : Fn) (m : MbxHdr) (tenant : Byte) (tile : Word) (tier : Byte)
  /-- TILE_RETURN (R203). -/
  | tileReturn (tier : Tier) (phys : BitVec 22)
  /-- MIGRATION_PASS_DONE (R212). -/
  | migrationPassDone (k : Fin 16)
  /-- MIGRATION_FINAL_PASS (R212). -/
  | migrationFinalPass (k : Fin 16)
  /-- MIGRATION_BLOCK_COPIED (R212). -/
  | migrationBlockCopied (k : Fin 16) (block : Fin 512)
  /-- MIGRATION_RELEASE (R212). -/
  | migrationRelease (k : Fin 16)
  /-- DRAM_READ_COMPLETE (R240): the line read at the controller and its errors. -/
  | dramReadComplete (tier : Tier) (line : BitVec 36) (e : EccErr)
  /-- DRAM_WRITE_COMPLETE (R209): the line written, and, for a read-modify-write, the errors its read met (R240). -/
  | dramWriteComplete (tier : Tier) (line : BitVec 36) (e : EccErr)
  /-- REFRESH_DUE (R230). -/
  | refreshDue (tier : Tier) (ch : Nat) (bank : Nat)
  /-- REFRESH_DEBT_EXPIRE (R230). -/
  | refreshDebtExpire (tier : Tier) (ch : Nat) (bank : Nat)
  /-- RANK_POWER_DOWN (R231). -/
  | rankPowerDown (tier : Tier) (ch : Nat) (rank : Nat)
  /-- RANK_WAKE (R231). -/
  | rankWake (tier : Tier) (ch : Nat) (rank : Nat)
  /-- TIER_SLEEP (R232). -/
  | tierSleep (fn : Fn) (tier : Tier)
  /-- TIER_WAKE (R232): the WAKE command, or demand (no function). -/
  | tierWake (fn : Option Fn) (tier : Tier)
  /-- TIER_WAKE_DONE (R232). -/
  | tierWakeDone (tier : Tier)
  /-- RATE_APPLY (R233). -/
  | rateApply (fn : Fn)
  /-- RATE_APPLY_DONE (R233). -/
  | rateApplyDone (ok : Bool)
  /-- CE_WINDOW_START (R237). -/
  | ceWindowStart
  /-- CH_SUSPECT_CLEAR (R237). -/
  | chSuspectClear (fn : Fn) (tier : Tier) (w : SuspectWr)
  /-- AGENT_RELEASE (R249). -/
  | agentRelease (fn : Fn) (m : MbxHdr) (endpoint : BitVec 16)
  /-- AGENT_SWEEP_DONE (R249). -/
  | agentSweepDone (k : Fin 1024)
  /-- SNOOP_TIMEOUT (R262): the tracker's slot. -/
  | snoopTimeout (slot : Nat)
  /-- TILE_RECALL (R264). -/
  | tileRecall (tier : Tier) (phys : BitVec 22) (c : RecallCause)
  /-- DIR_LK_ENTRY_READ (R266). -/
  | dirLkEntryRead (fn : Fn)
  /-- QUEUE_CREATE (R289). -/
  | queueCreate (fn : Fn) (m : MbxHdr) (tenant queue cls n place inst : Byte) (vector : BitVec 16) (sqBase cqBase : BitVec 64)
  /-- QUEUE_DESTROY (R289). -/
  | queueDestroy (fn : Fn) (m : MbxHdr) (tenant queue : Byte)
  /-- QUEUE_QUERY (R289). -/
  | queueQuery (fn : Fn) (m : MbxHdr) (tenant queue : Byte)
  /-- SQ_DOORBELL (R272). -/
  | sqDoorbell (fn : Fn) (q : QId) (val : Word)
  /-- CQ_HEAD_WRITE (R273). -/
  | cqHeadWrite (fn : Fn) (q : QId) (val : Word)
  /-- Q_ABORT (R285). -/
  | qAbort (fn : Fn) (q : QId) (val : Word)
  /-- DESCRIPTOR_FETCH (R273): what host memory returns, used where the ring lies there. -/
  | descriptorFetch (q : QId) (h : HostRead)
  /-- COPY (R280). -/
  | copy (q : QId) (idx : BitVec 16)
  /-- FILL (R280). -/
  | fill (q : QId) (idx : BitVec 16)
  /-- GATHER (R280). -/
  | gather (q : QId) (idx : BitVec 16)
  /-- SCATTER (R280). -/
  | scatter (q : QId) (idx : BitVec 16)
  /-- MCAST_PUSH (R280). -/
  | mcastPush (q : QId) (idx : BitVec 16)
  /-- MIGRATE (R280). -/
  | migrate (q : QId) (idx : BitVec 16)
  /-- SCRUB (R242): the errors the pass meets, as pairs of a line of the pass, counted from its first, and its errors. -/
  | scrub (q : QId) (idx : BitVec 16) (errs : List (Nat × EccErr))
  /-- VOXEL_SAMPLE (R293). -/
  | voxelSample (q : QId) (idx : BitVec 16)
  /-- RULEBOOK_BUILD (R294). -/
  | rulebookBuild (q : QId) (idx : BitVec 16)
  /-- SITE_LOOKUP (R297). -/
  | siteLookup (q : QId) (idx : BitVec 16)
  /-- LAUNCH (R316). -/
  | launch (q : QId) (idx : BitVec 16)
  /-- LOAD_FRAMES (R332). -/
  | loadFrames (q : QId) (idx : BitVec 16)
  /-- READBACK (R334). -/
  | readback (q : QId) (idx : BitVec 16)
  /-- STOP (R319). -/
  | stop (q : QId) (idx : BitVec 16)
  /-- COMMAND_FINISH (R283). -/
  | commandFinish (q : QId) (idx : BitVec 16)
  /-- COMPLETION_COMMIT (R283): whether the host memory write succeeded, used where the ring lies there. -/
  | completionCommit (q : QId) (hostOk : Bool)
  /-- QUEUE_STOPPED (R288). -/
  | queueStopped (q : QId)
  /-- LAUNCH_START (R316). -/
  | launchStart (q : QId) (idx : BitVec 16)
  /-- COMPUTE_UNIT_FIRE (R311). -/
  | computeUnitFire (col : Fin 64) (cu : Fin 8)
  /-- STEERING_UNIT_FIRE (R312). -/
  | steeringUnitFire (col : Fin 64) (su : Fin 3)
  /-- SCALAR_UNIT_FIRE (R313). -/
  | scalarUnitFire (col : Fin 64)
  /-- MEMORY_UNIT_ACCESS (R314). -/
  | memoryUnitAccess (col : Fin 64) (mu : Fin 4) (stream : Fin 4) (ph : AccessPhase)
  /-- LAUNCH_DONE (R317). -/
  | launchDone (col : Fin 64) (word : Word)
  /-- LAUNCH_COMMIT (R317). -/
  | launchCommit (q : QId) (idx : BitVec 16)
  /-- LAUNCH_TIMEOUT (R316). -/
  | launchTimeout (q : QId) (idx : BitVec 16)
  /-- ARRAY_STALL (R320). -/
  | arrayStall (q : QId) (idx : BitVec 16)
  /-- ARRAY_QUERY (R324). -/
  | arrayQuery (fn : Fn) (m : MbxHdr) (part : Byte)
  /-- LOAD_START (R332). -/
  | loadStart (q : QId) (idx : BitVec 16)
  /-- SELECT (R328). -/
  | select (l : LoaderId)
  /-- CLAIM_DIRECTIVE (R336). -/
  | claimDirective (l : LoaderId)
  /-- FRAMES (R329). -/
  | frames (l : LoaderId)
  /-- MAPS (R329). -/
  | maps (l : LoaderId)
  /-- CLEAR (R327). -/
  | clear (l : LoaderId)
  /-- PAD (R327). -/
  | pad (l : LoaderId)
  /-- END (R330). -/
  | endStream (l : LoaderId)
  /-- READBACK_CHECK (R343): the bits of the frame at the present slot, and of its check word, that have been upset. -/
  | readbackCheck (upsets : List (Fin 2048)) (chk : BitVec 14)
  /-- READBACK_ENABLE (R346). -/
  | readbackEnable (fn : Fn) (w : RegWr)
  /-- TRNG_TEST_FAIL (R351): the test, and whether fewer than 4,096 samples passed since the last failure. -/
  | trngTestFail (t : TrngTest) (again : Bool)
  /-- DRBG_RESEED (R351). -/
  | drbgReseed
  /-- TAMPER (R353). -/
  | tamper (s : TamperSensor)
  /-- GET_VERSION (R354). -/
  | getVersion (hp : Fin 4)
  /-- GET_CAPABILITIES (R354). -/
  | getCapabilities (hp : Fin 4)
  /-- NEGOTIATE_ALGORITHMS (R354). -/
  | negotiateAlgorithms (hp : Fin 4)
  /-- GET_DIGESTS (R354). -/
  | getDigests (hp : Fin 4)
  /-- GET_CERTIFICATE (R354). -/
  | getCertificate (hp : Fin 4) (slot : Byte) (offset length : BitVec 16)
  /-- CHALLENGE (R354). -/
  | challenge (hp : Fin 4) (slot summary : Byte) (nonce : List Byte)
  /-- GET_MEASUREMENTS (R355): the index asked for (0xFF all), and whether a signature is asked for. -/
  | getMeasurements (hp : Fin 4) (index : Byte) (signed : Bool) (nonce : List Byte)
  /-- SPDM_UNSUPPORTED_REQUEST (R354). -/
  | spdmUnsupportedRequest (hp : Fin 4) (code : Byte)
  /-- HELLO (R357). -/
  | hello (p : Fin 32) (h : Hello)
  /-- HS_CERT (R357): offset and the chain bytes. -/
  | hsCert (p : Fin 32) (offset : BitVec 16) (bytes : List Byte)
  /-- VERIFY (R358). -/
  | verify (p : Fin 32) (sig : List Byte)
  /-- FINISH (R357). -/
  | finish (p : Fin 32) (mac : List Byte)
  /-- HS_ABORT (R360). -/
  | hsAbort (p : Fin 32) (cause : Byte)
  /-- ATTEST_REQ (R361). -/
  | attestReq (p : Fin 32) (kind : Byte) (offset : BitVec 16) (nonce : List Byte)
  /-- HS_SIGNATURE_DONE (R357). -/
  | hsSignatureDone (p : Fin 32)
  /-- HS_RESEND (R357). -/
  | hsResend (p : Fin 32)
  /-- HS_TIMEOUT (R360). -/
  | hsTimeout (p : Fin 32)
  /-- LINK_PIN (R359). -/
  | linkPin (fn : Fn) (m : MbxHdr) (port action : Byte) (hash : List Byte)
  /-- MBX_UNKNOWN_OPCODE (R375). -/
  | mbxUnknownOpcode (fn : Fn) (m : MbxHdr) (opcode : BitVec 16)
  /-- IMAGE_WRITE (R378): its fields, and what host memory returns. -/
  | imageWrite (fn : Fn) (m : MbxHdr) (slot : Byte) (offset length : Word) (addr : BitVec 64) (h : HostRead)
  /-- TELEMETRY_READ (R386). -/
  | telemetryRead (fn : Fn) (m : MbxHdr)
  /-- FAULT_LOG_READ (R403). -/
  | faultLogRead (fn : Fn) (m : MbxHdr) (seq : Word) (count : Byte)
  /-- EV_RING_ENABLE (R379). -/
  | evRingEnable (fn : Fn) (w : RegWr)
  /-- EV_RING_DISABLE (R379). -/
  | evRingDisable (fn : Fn) (w : RegWr)
  /-- EV_HEAD_WRITE (R379). -/
  | evHeadWrite (fn : Fn) (w : RegWr)
  /-- PF_FLR (R369). -/
  | pfFlr (hp : Fin 4)
  /-- VF_ENABLE_CLEAR (R369). -/
  | vfEnableClear (hp : Fin 4)
  /-- PWR_CAP_WRITE (R383). -/
  | pwrCapWrite (fn : Fn) (w : RegWr)
  /-- POWER_TOKEN_ALLOCATION (R384): the power of the consumers that take no tokens, in mW, and the demands. -/
  | powerTokenAllocation (fixed : Nat) (ds : List Demand)
  /-- THERMAL_STEP (R385): the hottest sensors of the two dies. -/
  | thermalStep (t0 t1 : BitVec 16)
  /-- TELEMETRY_REFRESH (R386). -/
  | telemetryRefresh (x : TelSample)
  /-- SMB_STATE (R387); `wr` marks an attempt to write the read-only code. -/
  | smbState (wr : OnBus Bool)
  /-- SMB_TEMP (R387). -/
  | smbTemp (wr : OnBus Bool)
  /-- SMB_POWER (R387). -/
  | smbPower (wr : OnBus Bool)
  /-- SMB_BMC_CAP_READ (R387). -/
  | smbBmcCapRead
  /-- SMB_BMC_CAP_WRITE (R387): the value, and the PEC byte if one came with it. -/
  | smbBmcCapWrite (watts : OnBus (BitVec 16)) (pec : Option Byte)
  /-- SMB_EVENT (R388). -/
  | smbEvent (wr : OnBus Bool)
  /-- SMB_SERIAL (R387). -/
  | smbSerial (wr : OnBus Bool)
  /-- SMB_FW_VERSION (R387). -/
  | smbFwVersion (wr : OnBus Bool)
  /-- SMB_UNKNOWN_CODE (R387). -/
  | smbUnknownCode (code : OnBus Byte)
  /-- MONITOR_VER (R389). -/
  | monitorVer
  /-- MONITOR_STATE (R389). -/
  | monitorState
  /-- MONITOR_RD (R390). -/
  | monitorRd (off n : Nat)
  /-- MONITOR_LOG (R389). -/
  | monitorLog (n : Nat)
  /-- MONITOR_TEL (R389). -/
  | monitorTel
  /-- MONITOR_LINKS (R389). -/
  | monitorLinks
  /-- MONITOR_HELP (R389). -/
  | monitorHelp
  /-- MONITOR_BAD_LINE (R389): the characters in the line. -/
  | monitorBadLine (chars : Nat)
  /-- SRAM_UNCORRECTABLE (R393). -/
  | sramUncorrectable (f : SramFault)
  /-- WATCHDOG_EXPIRE (R397): the processor, and whether its firmware copy's hash matched. -/
  | watchdogExpire (p : Proc) (hashOk : Bool)
  /-- PROCESSOR_RESTART_DONE (R397). -/
  | processorRestartDone (p : Proc)
  /-- TACH_EDGE (R97): a rising edge, and whether it was longer than 1 microsecond. -/
  | tachEdge (n : Fin 16) (long : Bool)
  /-- SYMBOL_LOCK (R131): the lanes that gained lock. -/
  | symbolLock (p : Fin 32) (lanes : Byte)
  /-- RESERVED_OPCODE_DISCARD (R158). -/
  | reservedOpcodeDiscard (p : Fin 32) (cls : MsgClass) (m : Msg)
  /-- IMAGE_WRITE_DONE (R378): whether every flash operation ended within its maximum time. -/
  | imageWriteDone (ok : Bool)
  /-- DOE_DISCOVERY (R354): the index asked for. -/
  | doeDiscovery (hp : Fin 4) (index : Byte)
  deriving DecidableEq, Repr

end Sys2Proof
end

