-- ==== Sys2Proof/Decode.lean ====
section
/-! DEFINITION. The command a word spells by the bits of the opcode table. The table gives no row any bits, so no word spells a
command: commands come with the operands their sender gives them. -/

namespace Sys2Proof

/-- The command a word of `nbits` bits spells: none, as no row of spec/opcode_table.json has bits. Log: DESIGN CHOICE 3. -/
def decodeTableWord (_nbits _w : Nat) : Option Instr := none

end Sys2Proof
end

