-- ==== Sys2Proof/Machine/Float.lean ====
section
/-! DEFINITION. Binary floating point, exactly: a value is decoded, computed on as a fraction, and rounded once to nearest even (R292,
R311). Subnormal values are kept. -/

namespace Sys2Proof.Machine

/-- A format: exponent bits and mantissa bits. -/
structure FpFmt where
  eb : Nat
  mb : Nat
  deriving DecidableEq, Repr

def fp32 : FpFmt := { eb := 8, mb := 23 }
def bf16 : FpFmt := { eb := 8, mb := 7 }
def fp16 : FpFmt := { eb := 5, mb := 10 }

/-- The exponent bias. -/
def FpFmt.bias (f : FpFmt) : Int := 2 ^ (f.eb - 1) - 1

/-- The exponent of the last bit of a subnormal number. -/
def FpFmt.qmin (f : FpFmt) : Int := 1 - f.bias - f.mb

/-- The pattern of positive infinity. -/
def FpFmt.infBits (f : FpFmt) : Nat := (2 ^ f.eb - 1) * 2 ^ f.mb

/-- The sign bit's weight. -/
def FpFmt.signBit (f : FpFmt) : Nat := 2 ^ (f.eb + f.mb)

/-- What a pattern stands for: m × 2^e with a sign, an infinity, or a NaN. -/
inductive FpVal where
  | nan
  | inf (neg : Bool)
  | fin (neg : Bool) (m : Nat) (e : Int)
  deriving DecidableEq, Repr

/-- Decode a pattern. -/
def fpVal (f : FpFmt) (b : Nat) : FpVal :=
  let neg := decide (b / f.signBit % 2 = 1)
  let x := b / 2 ^ f.mb % 2 ^ f.eb
  let m := b % 2 ^ f.mb
  if x = 2 ^ f.eb - 1 then (if m = 0 then .inf neg else .nan)
  else if x = 0 then .fin neg m f.qmin
  else .fin neg (2 ^ f.mb + m) (f.qmin + (x - 1 : Int))

/-- Put a sign on a pattern. -/
def fpSign (f : FpFmt) (neg : Bool) (b : Nat) : Nat := if neg then f.signBit + b else b

/-- The floor of the base-2 logarithm of the fraction n / d. -/
def fracLog (n d : Nat) : Int :=
  let k : Int := (Nat.log2 n : Int) - Nat.log2 d
  let below := if 0 ≤ k then decide (n < d * 2 ^ k.toNat) else decide (n * 2 ^ (-k).toNat < d)
  if below then k - 1 else k

/-- Round n / d × 2^e to nearest even; a magnitude past the largest finite number becomes infinity. -/
def fpRound (f : FpFmt) (neg : Bool) (n d : Nat) (e : Int) : Nat :=
  if n = 0 then fpSign f neg 0
  else
    let q := max (fracLog n d + e - f.mb) f.qmin
    let a := n * 2 ^ (e - q).toNat
    let b := d * 2 ^ (q - e).toNat
    let m := a / b
    let r := a % b
    let m := if b < 2 * r ∨ (2 * r = b ∧ m % 2 = 1) then m + 1 else m
    fpSign f neg (min f.infBits ((q - f.qmin).toNat * 2 ^ f.mb + m))

/-- The exact sum of two signed dyadic numbers: sign, magnitude, exponent. A zero is negative only when both terms are. -/
def dyAdd (an : Bool) (am : Nat) (ae : Int) (bn : Bool) (bm : Nat) (be : Int) : Bool × Nat × Int :=
  let e := min ae be
  let x : Int := (am * 2 ^ (ae - e).toNat : Nat)
  let y : Int := (bm * 2 ^ (be - e).toNat : Nat)
  let v := (if an then -x else x) + (if bn then -y else y)
  (if v = 0 then an && bn else decide (v < 0), v.natAbs, e)

/-- a + b, rounded once; none is NaN. -/
def fpAdd (f : FpFmt) (a b : Nat) : Option Nat :=
  match fpVal f a, fpVal f b with
  | .nan, _ => none
  | _, .nan => none
  | .inf x, .inf y => if x = y then some (fpSign f x f.infBits) else none
  | .inf x, _ => some (fpSign f x f.infBits)
  | _, .inf y => some (fpSign f y f.infBits)
  | .fin an am ae, .fin bn bm be =>
    let (n, m, e) := dyAdd an am ae bn bm be
    some (fpRound f n m 1 e)

/-- The pattern with its sign inverted. -/
def fpNeg (f : FpFmt) (b : Nat) : Nat := if b / f.signBit % 2 = 1 then b - f.signBit else b + f.signBit

/-- a − b, rounded once. -/
def fpSub (f : FpFmt) (a b : Nat) : Option Nat := fpAdd f a (fpNeg f b)

/-- a × b + c, rounded once; without c, a × b. -/
def fpFma (f : FpFmt) (a b : Nat) (c : Option Nat) : Option Nat :=
  match fpVal f a, fpVal f b, c.map (fpVal f) with
  | .nan, _, _ => none
  | _, .nan, _ => none
  | _, _, some .nan => none
  | .fin an am ae, .fin bn bm be, none => some (fpRound f (an != bn) (am * bm) 1 (ae + be))
  | .fin an am ae, .fin bn bm be, some (.fin cn cm ce) =>
    let (n, m, e) := dyAdd (an != bn) (am * bm) (ae + be) cn cm ce
    some (fpRound f n m 1 e)
  | .fin _ _ _, .fin _ _ _, some (.inf y) => some (fpSign f y f.infBits)
  | .inf x, .fin bn bm _, c => if bm = 0 then none else infPlus f (x != bn) c
  | .fin an am _, .inf y, c => if am = 0 then none else infPlus f (an != y) c
  | .inf x, .inf y, c => infPlus f (x != y) c
where
  /-- An infinite product plus the third term. -/
  infPlus (f : FpFmt) (neg : Bool) : Option FpVal → Option Nat
    | some (.inf y) => if y = neg then some (fpSign f neg f.infBits) else none
    | _ => some (fpSign f neg f.infBits)

/-- a / b for a finite nonzero b, rounded once. -/
def fpDiv (f : FpFmt) (a b : Nat) : Option Nat :=
  match fpVal f a, fpVal f b with
  | .fin an am ae, .fin bn bm be => if bm = 0 then none else some (fpRound f (an != bn) am bm (ae - be))
  | .inf x, .fin bn _ _ => some (fpSign f (x != bn) f.infBits)
  | _, _ => none

/-- The floor of a finite value; none for an infinity or a NaN. -/
def fpFloor (f : FpFmt) (a : Nat) : Option Int :=
  match fpVal f a with
  | .fin n m e =>
    let v : Int := if n then -(m : Int) else m
    some (if 0 ≤ e then v * 2 ^ e.toNat else v.fdiv (2 ^ (-e).toNat))
  | _ => none

/-- The value is positive and finite. -/
def fpPositive (f : FpFmt) (a : Nat) : Bool :=
  match fpVal f a with
  | .fin false m _ => decide (m ≠ 0)
  | _ => false

/-- a < b; none where one is NaN. Zeros of both signs are equal. -/
def fpLt (f : FpFmt) (a b : Nat) : Option Bool :=
  match fpVal f a, fpVal f b with
  | .nan, _ => none
  | _, .nan => none
  | .inf x, .inf y => some (x && !y)
  | .inf x, _ => some x
  | _, .inf y => some (!y)
  | .fin an am ae, .fin bn bm be =>
    let (n, m, _) := dyAdd an am ae (!bn) bm be
    some (n && decide (m ≠ 0))

/-- A value of one format in another, rounded to nearest even; past the range it saturates at the largest finite number (R311). -/
def fpConvert (f g : FpFmt) (a : Nat) : Option Nat :=
  match fpVal f a with
  | .nan => none
  | .inf x => some (fpSign g x (g.infBits - 1))
  | .fin n m e =>
    let r := fpRound g n m 1 e
    some (if r % g.signBit = g.infBits then fpSign g n (g.infBits - 1) else r)

end Sys2Proof.Machine
end

