-- ==== Sys2Proof/Machine/Crypto.lean ====
section
/-! DEFINITION. The cryptographic functions the manual names by their standards: AES-256 (FIPS 197) with XTS (R208) and GCM (R154), SHA-384
(FIPS 180-4), HMAC and HKDF (R358), and P-384 with ECDSA and ECDH (R355 to R358). Every one is written so that Lean evaluates it. -/

namespace Sys2Proof.Machine

/-! ## AES-256 -/

/-- One column of the cipher's state: four bytes. -/
structure AesCol where
  a : Byte
  b : Byte
  c : Byte
  d : Byte
  deriving DecidableEq, Repr

/-- The cipher's state: sixteen bytes in four columns. -/
structure AesBlk where
  w : AesCol
  x : AesCol
  y : AesCol
  z : AesCol
  deriving DecidableEq, Repr

/-- The substitution table, entry 0 in the low byte, and its inverse. -/
def sboxTable : BitVec 2048 := 0x16bb54b00f2d99416842e6bf0d89a18cdf2855cee9871e9b948ed9691198f8e19e1dc186b95735610ef6034866b53e708a8bbd4b1f74dde8c6b4a61c2e2578ba08ae7a65eaf4566ca94ed58d6d37c8e779e4959162acd3c25c2406490a3a32e0db0b5ede14b8ee4688902a22dc4f816073195d643d7ea7c41744975fec130ccdd2f3ff1021dab6bcf5389d928f40a351a89f3c507f02f94585334d43fbaaefd0cf584c4a39becb6a5bb1fc20ed00d153842fe329b3d63b52a05a6e1b1a2c830975b227ebe28012079a059618c323c7041531d871f1e5a534ccf73f362693fdb7c072a49cafa2d4adf04759fa7dc982ca76abd7fe2b670130c56f6bf27b777c63#2048
def invSboxTable : BitVec 2048 := 0x7d0c2155631469e126d677ba7e042b17619953833cbbebc8b0f52aae4d3be0a0ef9cc9939f7ae52d0d4ab519a97f51605fec8027591012b131c7078833a8dd1ff45acd78fec0db9a2079d2c64b3e56fc1bbe18aa0e62b76f89c5291d711af1476edf751ce837f9e28535ade72274ac9673e6b4f0cecff297eadc674f4111913a6b8a130103bdafc1020f3fca8f1e2cd00645b3b80558e4f70ad3bc8c00abd890849d8da75746155edab9edfd5048706c92b6655dcc5ca4d41698688664f6f87225d18b6d49a25b76b224d92866a12e084ec3fa420b954cee3d23c2a632947b54cbe9dec444438e3487ff2f9b8239e37cfbd7f3819ea340bf38a53630d56a0952#2048

def sbox (x : Byte) : Byte := (sboxTable >>> (8 * x.toNat)).setWidth 8
def invSbox (x : Byte) : Byte := (invSboxTable >>> (8 * x.toNat)).setWidth 8

def AesCol.map (f : Byte → Byte) (k : AesCol) : AesCol := ⟨f k.a, f k.b, f k.c, f k.d⟩
def AesCol.xor (k m : AesCol) : AesCol := ⟨k.a ^^^ m.a, k.b ^^^ m.b, k.c ^^^ m.c, k.d ^^^ m.d⟩
def AesBlk.map (f : AesCol → AesCol) (s : AesBlk) : AesBlk := ⟨f s.w, f s.x, f s.y, f s.z⟩
def AesBlk.xor (s t : AesBlk) : AesBlk := ⟨s.w.xor t.w, s.x.xor t.x, s.y.xor t.y, s.z.xor t.z⟩

/-- Multiplication by x in GF(2^8). -/
def xtime (a : Byte) : Byte := (a <<< 1) ^^^ (if a.msb then 0x1B else 0)

/-- MixColumns on one column, and its inverse. -/
def mixCol (k : AesCol) : AesCol :=
  let m (p q r s : Byte) : Byte := xtime p ^^^ (xtime q ^^^ q) ^^^ r ^^^ s
  ⟨m k.a k.b k.c k.d, m k.b k.c k.d k.a, m k.c k.d k.a k.b, m k.d k.a k.b k.c⟩

def unmixCol (k : AesCol) : AesCol :=
  let m (p q r s : Byte) : Byte :=
    (xtime (xtime (xtime (p ^^^ q ^^^ r ^^^ s)))) ^^^ (xtime (xtime (p ^^^ r))) ^^^ (xtime (p ^^^ q)) ^^^ q ^^^ r ^^^ s
  ⟨m k.a k.b k.c k.d, m k.b k.c k.d k.a, m k.c k.d k.a k.b, m k.d k.a k.b k.c⟩

/-- ShiftRows: row r moves r columns to the left, and back. -/
def shiftRows (s : AesBlk) : AesBlk :=
  ⟨⟨s.w.a, s.x.b, s.y.c, s.z.d⟩, ⟨s.x.a, s.y.b, s.z.c, s.w.d⟩, ⟨s.y.a, s.z.b, s.w.c, s.x.d⟩, ⟨s.z.a, s.w.b, s.x.c, s.y.d⟩⟩
def unshiftRows (s : AesBlk) : AesBlk :=
  ⟨⟨s.w.a, s.z.b, s.y.c, s.x.d⟩, ⟨s.x.a, s.w.b, s.z.c, s.y.d⟩, ⟨s.y.a, s.x.b, s.w.c, s.z.d⟩, ⟨s.z.a, s.y.b, s.x.c, s.w.d⟩⟩

theorem xor_cancel (a b : Byte) : a ^^^ (a ^^^ b) = b := by rw [← BitVec.xor_assoc, BitVec.xor_self, BitVec.zero_xor]

theorem xor_left (a b c : Byte) : a ^^^ (b ^^^ c) = b ^^^ (a ^^^ c) := by rw [← BitVec.xor_assoc, BitVec.xor_comm a b, BitVec.xor_assoc]

theorem xtime_xor (a b : Byte) : xtime (a ^^^ b) = xtime a ^^^ xtime b := by
  unfold xtime
  rw [BitVec.shiftLeft_xor_distrib, BitVec.msb_xor]
  cases a.msb <;> cases b.msb <;> simp [BitVec.xor_assoc, BitVec.xor_comm, xor_left]

set_option linter.unusedSimpArgs false

/-- Under a linear map the coefficients of MixColumns and of its inverse cancel. -/
theorem mix_cancel (f : Byte → Byte) (hf : ∀ a b, f (a ^^^ b) = f a ^^^ f b) (a b c d A B C D : Byte)
    (hA : A = f a ^^^ (f b ^^^ b) ^^^ c ^^^ d) (hB : B = f b ^^^ (f c ^^^ c) ^^^ d ^^^ a) (hC : C = f c ^^^ (f d ^^^ d) ^^^ a ^^^ b)
    (hD : D = f d ^^^ (f a ^^^ a) ^^^ b ^^^ c) :
    f (f (f (A ^^^ B ^^^ C ^^^ D))) ^^^ f (f (A ^^^ C)) ^^^ f (A ^^^ B) ^^^ B ^^^ C ^^^ D = a := by
  have h1 : A ^^^ C = f (a ^^^ c) ^^^ (f (b ^^^ d) ^^^ (a ^^^ c)) := by
    subst hA hC; simp only [hf, BitVec.xor_assoc, BitVec.xor_comm, xor_left, xor_cancel]
  have h2 : A ^^^ B = f (a ^^^ c) ^^^ (a ^^^ b) := by
    subst hA hB; simp only [hf, BitVec.xor_assoc, BitVec.xor_comm, xor_left, xor_cancel]
  have h3 : B ^^^ C ^^^ D = f a ^^^ (f b ^^^ a) := by
    subst hB hC hD; simp only [hf, BitVec.xor_assoc, BitVec.xor_comm, xor_left, xor_cancel, BitVec.xor_self, BitVec.xor_zero]
  have h4 : A ^^^ B ^^^ C ^^^ D = a ^^^ (b ^^^ (c ^^^ d)) := by
    have : A ^^^ (B ^^^ C ^^^ D) = a ^^^ (b ^^^ (c ^^^ d)) := by
      rw [h3]; subst hA; simp only [BitVec.xor_assoc, BitVec.xor_comm, xor_left, xor_cancel, BitVec.xor_self, BitVec.xor_zero]
    simpa only [BitVec.xor_assoc] using this
  have h5 : ∀ x y : Byte, x ^^^ y ^^^ B ^^^ C ^^^ D = x ^^^ (y ^^^ (B ^^^ C ^^^ D)) := fun x y => by simp only [BitVec.xor_assoc]
  rw [h4, h1, h2, h5, h3]
  simp only [hf, BitVec.xor_assoc, BitVec.xor_comm, xor_left, xor_cancel, BitVec.xor_self, BitVec.xor_zero]

theorem unmix_cancel (f : Byte → Byte) (hf : ∀ a b, f (a ^^^ b) = f a ^^^ f b) (a b c d A B C D : Byte)
    (hA : A = f (f (f (a ^^^ b ^^^ c ^^^ d))) ^^^ f (f (a ^^^ c)) ^^^ f (a ^^^ b) ^^^ b ^^^ c ^^^ d)
    (hB : B = f (f (f (b ^^^ c ^^^ d ^^^ a))) ^^^ f (f (b ^^^ d)) ^^^ f (b ^^^ c) ^^^ c ^^^ d ^^^ a)
    (hC : C = f (f (f (c ^^^ d ^^^ a ^^^ b))) ^^^ f (f (c ^^^ a)) ^^^ f (c ^^^ d) ^^^ d ^^^ a ^^^ b)
    (hD : D = f (f (f (d ^^^ a ^^^ b ^^^ c))) ^^^ f (f (d ^^^ b)) ^^^ f (d ^^^ a) ^^^ a ^^^ b ^^^ c) :
    f A ^^^ (f B ^^^ B) ^^^ C ^^^ D = a := by
  have h0 : ∀ p q r s : Byte, p ^^^ q ^^^ r ^^^ s = q ^^^ r ^^^ s ^^^ p := fun p q r s => by
    simp only [BitVec.xor_assoc, BitVec.xor_comm, xor_left]
  rw [h0 d a b c] at hD
  rw [← h0 b c d a] at hC
  rw [← h0 a b c d] at hB
  rw [← h0 a b c d] at hC
  generalize hS : f (f (f (a ^^^ b ^^^ c ^^^ d))) = S at hA hB hC hD
  have h1 : A ^^^ B = f (f (a ^^^ c ^^^ b ^^^ d)) ^^^ (f (a ^^^ c) ^^^ (a ^^^ b)) := by
    subst hA hB; simp only [hf, BitVec.xor_assoc, BitVec.xor_comm, xor_left, xor_cancel]
  have h2 : B ^^^ (C ^^^ D) = S ^^^ (f (f (a ^^^ c)) ^^^ (f (a ^^^ b) ^^^ a)) := by
    have : C ^^^ D = f (f (a ^^^ c ^^^ b ^^^ d)) ^^^ (f (a ^^^ c) ^^^ (c ^^^ d)) := by
      subst hC hD; simp only [hf, BitVec.xor_assoc, BitVec.xor_comm, xor_left, xor_cancel]
    rw [this]; subst hB; simp only [hf, BitVec.xor_assoc, BitVec.xor_comm, xor_left, xor_cancel, BitVec.xor_self, BitVec.xor_zero]
  have h3 : f A ^^^ (f B ^^^ B) ^^^ C ^^^ D = f (A ^^^ B) ^^^ (B ^^^ (C ^^^ D)) := by simp only [hf, BitVec.xor_assoc]
  rw [h3, h1, h2, ← hS]
  simp only [hf, BitVec.xor_assoc, BitVec.xor_comm, xor_left, xor_cancel, BitVec.xor_self, BitVec.xor_zero]

theorem unmix_mix (k : AesCol) : unmixCol (mixCol k) = k := by
  obtain ⟨a, b, c, d⟩ := k
  simp only [unmixCol, mixCol, AesCol.mk.injEq]
  exact ⟨mix_cancel _ xtime_xor a b c d _ _ _ _ rfl rfl rfl rfl, mix_cancel _ xtime_xor b c d a _ _ _ _ rfl rfl rfl rfl,
    mix_cancel _ xtime_xor c d a b _ _ _ _ rfl rfl rfl rfl, mix_cancel _ xtime_xor d a b c _ _ _ _ rfl rfl rfl rfl⟩

theorem mix_unmix (k : AesCol) : mixCol (unmixCol k) = k := by
  obtain ⟨a, b, c, d⟩ := k
  simp only [unmixCol, mixCol, AesCol.mk.injEq]
  exact ⟨unmix_cancel _ xtime_xor a b c d _ _ _ _ rfl rfl rfl rfl, unmix_cancel _ xtime_xor b c d a _ _ _ _ rfl rfl rfl rfl,
    unmix_cancel _ xtime_xor c d a b _ _ _ _ rfl rfl rfl rfl, unmix_cancel _ xtime_xor d a b c _ _ _ _ rfl rfl rfl rfl⟩

theorem sbox_inv_nat : ∀ n : Fin 256, invSbox (sbox (BitVec.ofFin n)) = BitVec.ofFin n ∧ sbox (invSbox (BitVec.ofFin n)) = BitVec.ofFin n := by
  decide +kernel

theorem invSbox_sbox (x : Byte) : invSbox (sbox x) = x := (sbox_inv_nat x.toFin).1
theorem sbox_invSbox (x : Byte) : sbox (invSbox x) = x := (sbox_inv_nat x.toFin).2

/-- The four steps of a round, each with its inverse. -/
def subE : AesBlk ≃ AesBlk where
  toFun s := s.map (AesCol.map sbox)
  invFun s := s.map (AesCol.map invSbox)
  left_inv s := by simp [AesBlk.map, AesCol.map, invSbox_sbox]
  right_inv s := by simp [AesBlk.map, AesCol.map, sbox_invSbox]

def shiftE : AesBlk ≃ AesBlk := ⟨shiftRows, unshiftRows, fun _ => rfl, fun _ => rfl⟩

def mixE : AesBlk ≃ AesBlk where
  toFun s := s.map mixCol
  invFun s := s.map unmixCol
  left_inv s := by simp [AesBlk.map, unmix_mix]
  right_inv s := by simp [AesBlk.map, mix_unmix]

theorem AesBlk.xor_xor (s k : AesBlk) : (s.xor k).xor k = s := by
  simp [AesBlk.xor, AesCol.xor]

def keyE (k : AesBlk) : AesBlk ≃ AesBlk := ⟨fun s => s.xor k, fun s => s.xor k, fun s => s.xor_xor k, fun s => s.xor_xor k⟩

/-- The rounds under their keys; the last one mixes no columns. -/
def aesRounds : List AesBlk → (AesBlk ≃ AesBlk)
  | [] => Equiv.refl _
  | [k] => subE.trans (shiftE.trans (keyE k))
  | k :: r => (subE.trans (shiftE.trans (mixE.trans (keyE k)))).trans (aesRounds r)

/-- The round constant of step j of the key expansion. -/
def rcon : Nat → Byte
  | 0 => 1
  | n + 1 => xtime (rcon n)

/-- One word of the key expansion, before those it follows, newest first. -/
def keyStep (acc : List AesCol) (i : Nat) : List AesCol :=
  let t := acc.headD ⟨0, 0, 0, 0⟩
  let t := if i % 8 = 0 then (AesCol.map sbox ⟨t.b, t.c, t.d, t.a⟩).xor ⟨rcon (i / 8 - 1), 0, 0, 0⟩
    else if i % 8 = 4 then t.map sbox else t
  (acc.getD 7 ⟨0, 0, 0, 0⟩).xor t :: acc

/-- A list of words by fours. -/
def toBlks : List AesCol → List AesBlk
  | w :: x :: y :: z :: r => ⟨w, x, y, z⟩ :: toBlks r
  | _ => []

/-- Byte i of a 256-bit key, the low byte first. Log: PRESUMED 11. -/
def keyByte (k : BitVec 256) (i : Nat) : Byte := (k >>> (8 * i)).setWidth 8

/-- The 15 round keys of AES-256. -/
def roundKeys (k : BitVec 256) : List AesBlk :=
  let w := (List.range 8).map fun i => (⟨keyByte k (4 * i), keyByte k (4 * i + 1), keyByte k (4 * i + 2), keyByte k (4 * i + 3)⟩ : AesCol)
  toBlks (((List.range 52).map (· + 8)).foldl keyStep w.reverse).reverse

/-- AES-256 under a key's expansion, with its inverse. -/
def aesWith : List AesBlk → (AesBlk ≃ AesBlk)
  | [] => Equiv.refl _
  | k :: r => (keyE k).trans (aesRounds r)

/-! ## XTS over one line (R208) -/

/-- Byte i of a block. -/
def AesBlk.byte (s : AesBlk) (i : Nat) : Byte :=
  let k := match i / 4 with | 0 => s.w | 1 => s.x | 2 => s.y | _ => s.z
  match i % 4 with | 0 => k.a | 1 => k.b | 2 => k.c | _ => k.d

/-- The block that a function of the index spells. -/
def mkBlk (f : Nat → Byte) : AesBlk :=
  ⟨⟨f 0, f 1, f 2, f 3⟩, ⟨f 4, f 5, f 6, f 7⟩, ⟨f 8, f 9, f 10, f 11⟩, ⟨f 12, f 13, f 14, f 15⟩⟩

theorem byte_mkBlk (f : Nat → Byte) (i : Nat) (h : i < 16) : (mkBlk f).byte i = f i := by interval_cases i <;> rfl

theorem mkBlk_byte (s : AesBlk) : mkBlk s.byte = s := rfl

/-- A line as its eight blocks. -/
def lineBlks : Line ≃ Vector AesBlk 8 where
  toFun l := Vector.ofFn fun j => mkBlk fun i => l.toList.getD (16 * j.val + i) 0
  invFun v := Vector.ofFn fun i => v[i.val / 16].byte (i.val % 16)
  left_inv l := by
    ext i hi
    have h : 16 * (i / 16) + i % 16 = i := Nat.div_add_mod i 16
    simp [byte_mkBlk _ _ (Nat.mod_lt i (by decide : 0 < 16)), h, List.getD, hi]
  right_inv v := by
    ext j hj
    have e : ∀ i < 16, (16 * j + i) / 16 = j ∧ (16 * j + i) % 16 = i ∧ 16 * j + i < 128 := by omega
    have k : (fun i => (Vector.ofFn fun i : Fin 128 => v[i.val / 16].byte (i.val % 16)).toList.getD (16 * j + i) 0) = fun i =>
        if i < 16 then v[j].byte i else (Vector.ofFn fun i : Fin 128 => v[i.val / 16].byte (i.val % 16)).toList.getD (16 * j + i) 0 := by
      funext i
      split
      · next h => obtain ⟨h1, h2, h3⟩ := e i h; simp [List.getD, h1, h2, h3]
      · rfl
    simp only [Vector.getElem_ofFn, k]
    exact mkBlk_byte _

/-- A block as a little-endian number, and back. -/
def AesBlk.num (s : AesBlk) : BitVec 128 := BitVec.ofNat 128 (ofLeBytes ((List.range 16).map s.byte))
def blkOfNum (x : BitVec 128) : AesBlk := mkBlk fun i => (x >>> (8 * i)).setWidth 8

/-- Multiplication of an XTS tweak by its primitive element, j times. -/
def xtsMul : Nat → BitVec 128 → BitVec 128
  | 0, t => t
  | n + 1, t => xtsMul n ((t <<< 1) ^^^ (if t.msb then 0x87 else 0))

/-- The cipher of block j of a line: the data key's AES between two additions of the tweak of the block. -/
def xtsBlk (dataKeys : List AesBlk) (t : BitVec 128) (j : Nat) : AesBlk ≃ AesBlk :=
  let m := blkOfNum (xtsMul j t)
  (keyE m).trans ((aesWith dataKeys).trans (keyE m))

/-- A permutation for each element of a vector. -/
def vecE {n : Nat} (e : Fin n → (AesBlk ≃ AesBlk)) : Vector AesBlk n ≃ Vector AesBlk n where
  toFun v := Vector.ofFn fun j => e j v[j]
  invFun v := Vector.ofFn fun j => (e j).symm v[j]
  left_inv v := by ext j hj; simp
  right_inv v := by ext j hj; simp

/-- AES-256-XTS over a line (R208): the low half of the memory key is the data key, the high half the tweak key. Log: PRESUMED 11. -/
def xts (key : BitVec 512) (tw : BitVec 128) : Line ≃ Line :=
  let ks := roundKeys (key.setWidth 256)
  let t := (aesWith (roundKeys ((key >>> 256).setWidth 256)) (blkOfNum tw)).num
  lineBlks.trans ((vecE fun j => xtsBlk ks t j.val).trans lineBlks.symm)

/-! ## GCM (R154) -/

/-- A number in big-endian bytes. -/
def beBytes (n v : Nat) : List Byte := (leBytes n v).reverse
def ofBeBytes (b : List Byte) : Nat := ofLeBytes b.reverse

/-- Multiplication in the field of GHASH: bit 127 is the coefficient of 1. -/
def ghashMul : Nat → BitVec 128 → BitVec 128 → BitVec 128 → BitVec 128
  | 0, _, _, z => z
  | n + 1, x, v, z =>
    ghashMul n (x <<< 1) ((v >>> 1) ^^^ (if v.getLsbD 0 then 0xE1000000000000000000000000000000 else 0)) (if x.msb then z ^^^ v else z)

/-- The numbers of a byte list's blocks, big-endian, the last one padded with zeros. -/
def gcmBlks : Nat → List Byte → List (BitVec 128)
  | 0, _ => []
  | n + 1, b => BitVec.ofNat 128 (ofBeBytes ((b ++ List.replicate 16 0).take 16)) :: gcmBlks n (b.drop 16)

def ghash (h : BitVec 128) (bs : List (BitVec 128)) : BitVec 128 := bs.foldl (fun y x => ghashMul 128 (y ^^^ x) h 0) 0

/-- AES of a block given as a big-endian number. -/
def aesBe (ks : List AesBlk) (x : BitVec 128) : BitVec 128 :=
  let b := beBytes 16 x.toNat
  BitVec.ofNat 128 (ofBeBytes ((List.range 16).map (aesWith ks (mkBlk fun i => b.getD i 0)).byte))

/-- The key stream of a 96-bit nonce over n blocks: counter values from 2. -/
def gcmStream (ks : List AesBlk) (nonce n : Nat) : List Byte :=
  (List.range n).flatMap fun i => beBytes 16 (aesBe ks (BitVec.ofNat 128 (nonce * 2 ^ 32 + i + 2))).toNat

/-- Whole flits of a payload. -/
def padFlits (bs : List Byte) : List Byte := bs ++ List.replicate ((bs.length + 15) / 16 * 16 - bs.length) 0

/-- The tag over additional data and ciphertext. -/
def gcmTagWith (ks : List AesBlk) (nonce : Nat) (aad ct : List Byte) : List Byte :=
  let y := ghash (aesBe ks 0) (gcmBlks ((aad.length + 15) / 16) aad ++ gcmBlks ((ct.length + 15) / 16) ct
    ++ [BitVec.ofNat 128 (aad.length * 8 * 2 ^ 64 + ct.length * 8)])
  beBytes 16 (y ^^^ aesBe ks (BitVec.ofNat 128 (nonce * 2 ^ 32 + 1))).toNat

/-- The tag over ciphertext flits, without additional data. -/
def gcmTag (ks : List AesBlk) (nonce : Nat) (ct : List Byte) : List Byte := gcmTagWith ks nonce [] ct

/-- The nonce: the session number, then the count of sequenced frames. Log: DESIGN CHOICE 38. -/
def gcmNonce (session : Word) (count : Nat) : Nat := ofBeBytes (leBytes 4 session.toNat ++ leBytes 8 count)

/-- Encryption and decryption are one exclusive-or with the key stream. -/
def gcmXor (ks : List AesBlk) (nonce : Nat) (bs : List Byte) : List Byte :=
  List.zipWith (· ^^^ ·) bs (gcmStream ks nonce ((bs.length + 15) / 16))

/-- The flits of a sealed frame: the payload's flits encrypted, then the tag as the last flit (R154). Log: DESIGN CHOICE 38. -/
def gcmSeal (key : BitVec 256) (session : Word) (count : Nat) (payload : List Byte) : List Byte :=
  let ks := roundKeys key
  let nonce := gcmNonce session count
  let ct := gcmXor ks nonce (padFlits payload)
  ct ++ gcmTag ks nonce ct

/-- The flits of a received sealed frame opened: the payload's flits, if the last flit is their tag (R154). Log: DESIGN CHOICE 38. -/
def gcmOpen (key : BitVec 256) (session : Word) (count : Nat) (flits : List Byte) : Option (List Byte) :=
  let ks := roundKeys key
  let nonce := gcmNonce session count
  let ct := flits.take (flits.length - 16)
  if flits.length < 16 ∨ flits.drop (flits.length - 16) ≠ gcmTag ks nonce ct then none else some (gcmXor ks nonce ct)

/-! ## SHA-384, HMAC, HKDF -/

/-- The 80 round constants and the eight initial words, the first of each in the low 64 bits. -/
def shaRound : BitVec 5120 := 0x6c44198c4a4758175fcb6fab3ad6faec597f299cfc657e2a4cc5d4becb3e42b6431d67c49c100d4c3c9ebe0a15c9bebc32caab7b40c7249328db77f523047d841b710b35131c471b113f9804bef90dae0a637dc5a2c898a606f067aa72176fbaf57d4f7fee6ed178eada7dd6cde0eb1ed186b8c721c0c207ca273eceea26619cc67178f2e372532bbef9a3f7b2c67915a4506cebde82bde990befffa23631e288cc702081a6439ec84c87814a1f0ab7278a5636f43172f60748f82ee5defb2fc682e6ff3d6b2b8a35b9cca4f7763e3734ed8aa4ae3418acb391c0cb3c5c95a6334b0bcb5e19b48a82748774cdf8eeb991e376c085141ab5319a4c116b8d2d0c8106aa07032bbd1b8f40e35855771202ad69906245565a910d192e819d6ef5218c76c51a30654be30c24b8b70d0f89791a81a664bbc423001a2bfe8a14cf1036492722c851482353b81c2c92e47edaee6766a0abb3c77b2a8650a73548baf63de53380d139d95b3df4d2c6dfc5ac42aed2e1b21385c26c92627b70a8546d22ffc142929670a0e6e7006ca6351e003826fd5a79147930aa725c6e00bf33da88fc2bf597fc7beef0ee4b00327c898fb213fa831c66d2db43210983e5152ee66dfab76f988da831153b55cb0a9dcbd41fbd44a7484aa6ea6e4832de92c6f592b0275240ca1cc77ac9c650fc19dc68b8cd5b5efbe4786384f25e3e49b69c19ef14ad2c19bf174cf6926949bdc06a725c7123580deb1fe3b1696b172be5d74f27b896f550c7dc3d5ffb4e2243185be4ee4b28c12835b0145706fbed807aa98a3030242ab1c5ed5da6d8118923f82a4af194f9b59f111f1b605d0193956c25bf348b538e9b5dba58189dbbcb5c0fbcfec4d3b2f7137449123ef65cd428a2f98d728ae22#5120
def shaInit : BitVec 512 := 0x47b5481dbefa4fa4db0c2e0d64f98fa78eb44a876858151167332667ffc00b31152fecd8f70e59399159015a3070dd17629a292a367cd507cbbb9d5dc1059ed8#512

def shaK (i : Nat) : BitVec 64 := (shaRound >>> (64 * i)).setWidth 64

/-- The eight working words. -/
structure ShaSt where
  a : BitVec 64
  b : BitVec 64
  c : BitVec 64
  d : BitVec 64
  e : BitVec 64
  f : BitVec 64
  g : BitVec 64
  h : BitVec 64

def shaStart : ShaSt :=
  let w (i : Nat) : BitVec 64 := (shaInit >>> (64 * i)).setWidth 64
  { a := w 0, b := w 1, c := w 2, d := w 3, e := w 4, f := w 5, g := w 6, h := w 7 }

/-- One round under its schedule word plus constant. -/
def shaStep (s : ShaSt) (k : BitVec 64) : ShaSt :=
  let s1 := s.e.rotateRight 14 ^^^ s.e.rotateRight 18 ^^^ s.e.rotateRight 41
  let t1 := s.h + s1 + ((s.e &&& s.f) ^^^ (~~~s.e &&& s.g)) + k
  let s0 := s.a.rotateRight 28 ^^^ s.a.rotateRight 34 ^^^ s.a.rotateRight 39
  let t2 := s0 + ((s.a &&& s.b) ^^^ (s.a &&& s.c) ^^^ (s.b &&& s.c))
  { a := t1 + t2, b := s.a, c := s.b, d := s.c, e := s.d + t1, f := s.e, g := s.f, h := s.g }

/-- The rounds from i on; the window holds the next sixteen schedule words. -/
def shaRounds : Nat → Nat → List (BitVec 64) → ShaSt → ShaSt
  | 0, _, _, s => s
  | n + 1, i, w, s =>
    let at_ (j : Nat) := w.getD j 0
    let x := at_ 1
    let y := at_ 14
    let next := at_ 0 + (x.rotateRight 1 ^^^ x.rotateRight 8 ^^^ (x >>> 7)) + at_ 9 + (y.rotateRight 19 ^^^ y.rotateRight 61 ^^^ (y >>> 6))
    shaRounds n (i + 1) (w.drop 1 ++ [next]) (shaStep s (at_ 0 + shaK i))

/-- One block of 128 bytes. -/
def shaBlock (s : ShaSt) (b : List Byte) : ShaSt :=
  let w := (List.range 16).map fun i => BitVec.ofNat 64 (ofBeBytes ((b.drop (8 * i)).take 8))
  let t := shaRounds 80 0 w s
  { a := s.a + t.a, b := s.b + t.b, c := s.c + t.c, d := s.d + t.d, e := s.e + t.e, f := s.f + t.f, g := s.g + t.g, h := s.h + t.h }

def shaBlocks : Nat → List Byte → ShaSt → ShaSt
  | 0, _, s => s
  | n + 1, b, s => shaBlocks n (b.drop 128) (shaBlock s (b.take 128))

/-- SHA-384 of a byte string: 48 bytes. -/
def sha384 (b : List Byte) : List Byte :=
  let z := (128 - (b.length + 17) % 128) % 128
  let p := b ++ [0x80] ++ List.replicate z 0 ++ beBytes 16 (b.length * 8)
  let s := shaBlocks (p.length / 128) p shaStart
  [s.a, s.b, s.c, s.d, s.e, s.f].flatMap fun x => beBytes 8 x.toNat

/-- HMAC-SHA-384. -/
def hmac384 (key msg : List Byte) : List Byte :=
  let k := ((if 128 < key.length then sha384 key else key) ++ List.replicate 128 0).take 128
  sha384 (k.map (· ^^^ 0x5C) ++ sha384 (k.map (· ^^^ 0x36) ++ msg))

/-- HKDF-SHA-384: extract with a salt, and expand under a label to n bytes, n at most 48. -/
def hkdfExtract (salt ikm : List Byte) : List Byte := hmac384 salt ikm
def hkdfExpand (prk info : List Byte) (n : Nat) : List Byte := (hmac384 prk (info ++ [1])).take n

/-! ## P-384 -/

def p384 : Nat := 2 ^ 384 - 2 ^ 128 - 2 ^ 96 + 2 ^ 32 - 1
def n384 : Nat := 0xffffffffffffffffffffffffffffffffffffffffffffffffc7634d81f4372ddf581a0db248b0a77aecec196accc52973
def b384 : Nat := 0xb3312fa7e23ee7e4988e056be3f82d19181d9c6efe8141120314088f5013875ac656398d8a2ed19d2a85c8edd3ec2aef

/-- A power modulo m, over the low bits of the exponent. -/
def powMod (m : Nat) : Nat → Nat → Nat → Nat
  | 0, _, _ => 1
  | n + 1, b, e => (if e % 2 = 1 then b else 1) * powMod m n (b * b % m) (e / 2) % m

/-- The inverse modulo a prime of 384 bits. -/
def invMod (m a : Nat) : Nat := powMod m 384 (a % m) (m - 2)

/-- A point of the curve; none is the point at infinity. -/
abbrev Pt := Option (Nat × Nat)

def onCurve (x y : Nat) : Bool :=
  decide (x < p384) && decide (y < p384) && decide (y * y % p384 = (x * x * x + (p384 - 3) * x + b384) % p384)

def ptAdd : Pt → Pt → Pt
  | none, q => q
  | some p, none => some p
  | some (x, y), some (u, v) =>
    if x = u ∧ (y + v) % p384 = 0 then none
    else
      let l := if x = u then (3 * x * x + (p384 - 3)) * invMod p384 (2 * y) % p384
        else (v + p384 - y) * invMod p384 (u + p384 - x) % p384
      let r := (l * l + (p384 - x) + (p384 - u)) % p384
      some (r, (l * (x + p384 - r) + (p384 - y)) % p384)

/-- A multiple of a point, over n bits of the factor. -/
def ptMul : Nat → Nat → Pt → Pt
  | 0, _, _ => none
  | n + 1, k, p => let q := ptMul n (k / 2) (ptAdd p p); if k % 2 = 1 then ptAdd q p else q

def basePt : Pt :=
  some (0xaa87ca22be8b05378eb1c71ef320ad746e1d3b628ba79b9859f741e082542a385502f25dbf55296c3a545e3872760ab7,
    0x3617de4a96262c6f5d9e98bf9292dc29f8f41dbd289a147ce9da3113b5f0b8c00a60b1ce1d7e819d7a431d7c90ea0e5f)

/-- A public key in the uncompressed form of 97 bytes; none where it is no point of the curve. -/
def ptOf (b : List Byte) : Pt :=
  let x := ofBeBytes ((b.drop 1).take 48)
  let y := ofBeBytes ((b.drop 49).take 48)
  if b.length = 97 ∧ b.headD 0 = 4 ∧ onCurve x y then some (x, y) else none

/-- The public key of a private one. -/
def pubOf (d : Nat) : List Byte := match ptMul 384 d basePt with
  | some (x, y) => 4 :: (beBytes 48 x ++ beBytes 48 y)
  | none => List.replicate 97 0

/-- ECDH: the shared secret is the x coordinate. -/
def ecdh (d : Nat) (pub : List Byte) : List Byte := beBytes 48 (((ptMul 384 d (ptOf pub)).map Prod.fst).getD 0)

/-- The candidates for the number of a signature, drawn from the digest itself (RFC 6979, 3.2 h): the first that is neither 0 nor too large. -/
def rfcPick : Nat → List Byte → List Byte → Nat
  | 0, _, _ => 1
  | n + 1, k, v =>
    let v := hmac384 k v
    if 0 < ofBeBytes v ∧ ofBeBytes v < n384 then ofBeBytes v
    else
      let k := hmac384 k (v ++ [0])
      rfcPick n k (hmac384 k v)

/-- The deterministic number of a signature with SHA-384 (RFC 6979, R352). -/
def rfcNonce (d : Nat) (digest : List Byte) : Nat :=
  let seed := beBytes 48 d ++ beBytes 48 (ofBeBytes digest % n384)
  let v := List.replicate 48 (1 : Byte)
  let k := hmac384 (List.replicate 48 0) (v ++ [0] ++ seed)
  let v := hmac384 k v
  let k := hmac384 k (v ++ [1] ++ seed)
  rfcPick 64 k (hmac384 k v)

/-- An ECDSA signature over a digest of 48 bytes under a private key, with its deterministic number: r, then s. -/
def ecdsaSign (d : Nat) (digest : List Byte) : List Byte :=
  let k := rfcNonce d digest
  let r := ((ptMul 384 k basePt).map Prod.fst).getD 0 % n384
  let s := invMod n384 k * (ofBeBytes digest + r * d) % n384
  beBytes 48 r ++ beBytes 48 s

/-- A signature verifies under a public key. -/
def ecdsaOk (pub digest sig : List Byte) : Bool :=
  let r := ofBeBytes (sig.take 48)
  let s := ofBeBytes (sig.drop 48)
  let w := invMod n384 s
  let q := ptAdd (ptMul 384 (ofBeBytes digest * w % n384) basePt) (ptMul 384 (r * w % n384) (ptOf pub))
  decide (sig.length = 96) && decide (0 < r ∧ r < n384 ∧ 0 < s ∧ s < n384) && (ptOf pub).isSome && decide (q.map (fun p => p.1 % n384) = some r)

end Sys2Proof.Machine
end

