-- ==== Sys2Proof/Config.lean ====
section
/-! DEFINITION. What the manual leaves open: every value here is an opaque constant with no body, so that no proof can rest on
what it is. Where a value may differ each time it is drawn, its first argument is the model's own serial number. -/

namespace Sys2Proof

/-! ## What the frames of a column configure (Table 15.1): the fields of Tables 14.2 to 14.4 -/

/-- An element format (R307). -/
inductive Elem where
  | fp32
  | bf16
  | fp16
  | int8
  deriving DecidableEq, Repr, Inhabited

/-- Compute unit operations (Table 14.2). SCALE may take C; MAC emits by COUNT or by K. -/
inductive CuOp where
  | add
  | sub
  | mul
  | fma
  | scale (useC : Bool)
  | max
  | min
  | cvt (dst : Elem)
  | select
  | mac (byK : Bool) (count : Nat)
  | reduce
  deriving DecidableEq, Repr, Inhabited

/-- A compute unit; `init` lists initial entries as input port and value. -/
structure CuCfg where
  op     : Option CuOp := none
  fmt    : Elem := .fp32
  constB : Option (BitVec 1024) := none
  constC : Option (BitVec 1024) := none
  init   : List (Nat × BitVec 1024) := []
  deriving DecidableEq, Repr, Inhabited

/-- A count from the configuration or from an argument word. -/
inductive CountSrc where
  | const (n : Word)
  | arg (w : Fin 64)
  deriving DecidableEq, Repr, Inhabited

/-- Steering operations (Table 14.3). -/
inductive SuOp where
  | split
  | merge
  | gate
  | counter (n : CountSrc)
  deriving DecidableEq, Repr, Inhabited

structure SuCfg where
  op     : Option SuOp := none
  vector : Bool := false
  init   : List (Nat × BitVec 1024) := []
  deriving DecidableEq, Repr, Inhabited

/-- The relations of CMP (R313). -/
inductive CmpRel where
  | eq
  | slt
  | ult
  deriving DecidableEq, Repr, Inhabited

/-- Scalar operations (R313). -/
inductive ScOp where
  | add
  | sub
  | mul
  | and
  | or
  | xor
  | shl
  | shr
  | sra
  | fadd
  | fmul
  | cmp (r : CmpRel)
  | arg (w : Fin 64)
  | const (v : Word)
  deriving DecidableEq, Repr, Inhabited

/-- A scalar unit; `a` and `b` are the ports its operands come from. -/
structure ScCfg where
  op   : Option ScOp := none
  a    : Fin 3 := 0
  b    : Fin 3 := 1
  init : List (Nat × BitVec 1024) := []
  deriving DecidableEq, Repr, Inhabited

/-- Stream kinds (Table 14.4). -/
inductive MuKind where
  | off
  | read
  | write
  | indexedRead
  | indexedWrite
  | frameWriter
  deriving DecidableEq, Repr, Inhabited

/-- One stream of a memory unit (Table 14.4); `second` chooses D1 or W1 for lines. -/
structure MuCfg where
  kind    : MuKind := .off
  word    : Bool := false
  second  : Bool := false
  argPair : Fin 32 := 0
  offset  : BitVec 32 := 0
  n0      : CountSrc := .const 1
  n1      : CountSrc := .const 1
  n2      : CountSrc := .const 1
  d0      : BitVec 32 := 0
  d1      : BitVec 32 := 0
  d2      : BitVec 32 := 0
  hint    : BitVec 2 := 0
  tStart  : Bool := false
  deriving DecidableEq, Repr, Inhabited

/-- A connection: the producer's row and output, the consumer's column, row and input (R307). -/
structure ArrConn where
  row  : Fin 16
  port : Nat
  col  : Fin 64
  drow : Fin 16
  dport : Nat
  deriving DecidableEq, Repr, Inhabited

/-- Column control: sticky inputs as row and port, and the scalar output joined to DONE. -/
structure CtlCfg where
  sticky : List (Fin 16 × Nat) := []
  done   : Option Bool := none
  deriving DecidableEq, Repr, Inhabited

end Sys2Proof

namespace Sys2Proof.Config

/-- A draw of the random source: a memory key (R207, R351). Log: DESIGN CHOICE 12. -/
opaque memoryKey : Nat → BitVec 512

/-- What a DRAM byte that was listed holds after a fall of POR_N (R16): the serial number, the address, the byte before.
 Log: DESIGN CHOICE 10. -/
opaque afterPor : Nat → Nat → Byte → Byte

/-- Whether a line still holds the poison codeword after a fall of POR_N (R16). Log: DESIGN CHOICE 10. -/
opaque poisonAfterPor : Nat → Nat → Bool

/-- Where the search for a free tile starts (R202 leaves the choice open). Log: DESIGN CHOICE 43. -/
opaque tilePick : Nat → Nat

/-- A port's link epoch drawn at reset (R137). Log: DESIGN CHOICE 12. -/
opaque linkEpoch : Nat → BitVec 16

/-- A destination byte of GATHER or SCATTER whose source byte the same command writes (R280): serial number and byte offset.
 Log: DESIGN CHOICE 63. -/
opaque freeByte : Nat → Nat → Byte

/-- A byte of the scratch region after a voxel command, whose contents are undefined: serial number and byte offset.
 Log: DESIGN CHOICE 66. -/
opaque scratchByte : Nat → Nat → Byte

/-- Whether a voxel command's work on its table meets a poisoned line of the scratch region: serial number and line. The layout of the table
is not part of the interface. Log: DESIGN CHOICE 66. -/
opaque scratchMeets : Nat → Nat → Bool

/-- What the frames of a compute unit, a memory unit's streams and initial entries, a steering unit, a scalar unit, the switch and the
column control configure. Table 15.1 names the frames; the manual gives no meaning of single bits (R326). Log: DESIGN CHOICE 68. -/
opaque cuCfg : List Word → CuCfg
/-- Log: DESIGN CHOICE 68. -/
opaque muCfg : List Word → Nat → MuCfg
/-- Log: DESIGN CHOICE 68. -/
opaque muInit : List Word → List (Nat × BitVec 1024)
/-- Log: DESIGN CHOICE 68. -/
opaque suCfg : List Word → SuCfg
/-- Log: DESIGN CHOICE 68. -/
opaque scCfg : List Word → ScCfg
/-- Log: DESIGN CHOICE 68. -/
opaque switchCfg : List Word → List ArrConn
/-- Log: DESIGN CHOICE 68. -/
opaque ctlCfg : List Word → CtlCfg

/-- What an unconnected input that holds no entry reads as: serial number and port. Log: DESIGN CHOICE 71. -/
opaque freeVec : Nat → Nat → BitVec 1024

/-- Free bits of a NaN result, by operation operands. Log: DESIGN CHOICE 70. -/
opaque nanBits : List Nat → Nat

/-- MAX or MIN of floating elements that are not ordered: one is NaN, or they are zeros of both signs. Log: DESIGN CHOICE 70. -/
opaque minMax : Bool → Nat → Nat → Nat

/-- The lane accumulator of MAC on floating elements: format, accumulator, lanes of A and B; the order of the sum is not stated.
 Log: DESIGN CHOICE 70. -/
opaque macFloat : Elem → Word → Word → Word → Word

/-- REDUCE on floating elements; the order of the sum is not stated. Log: DESIGN CHOICE 70. -/
opaque reduceFloat : Elem → BitVec 1024 → Word

/-- Elements of a converted lane that have no source element, and the conversion of a NaN to int8. Log: DESIGN CHOICE 70. -/
opaque cvtFree : Elem → Elem → Word → Nat → Nat

/-- SHL, SHR and SRA by 32 or more. Log: DESIGN CHOICE 70. -/
opaque shiftFree : Nat → Word → Word → Word

/-- The unit named where a launch ends for a cause that names no one unit (Table 14.6). Log: DESIGN CHOICE 72. -/
opaque freeUnit : Nat → BitVec 10

/-- The NONCE of the node's claim, drawn once per power-up (R173). Log: DESIGN CHOICE 12. -/
opaque claimNonce : Nat → Word

/-- The port, and the alternate port if any, that the coordinator publishes to a node for an endpoint: target serial, endpoint (R177).
 Log: DESIGN CHOICE 39. -/
opaque routePort : BitVec 64 → Nat → BitVec 5
/-- Log: DESIGN CHOICE 39. -/
opaque routeAlt : BitVec 64 → Nat → Option (BitVec 5)

/-- The public key that goes with a FIRMWARE record, and the version it signs: where either lies is not stated (R110).
 Log: DESIGN CHOICE 14. -/
opaque fwKey : List Byte → List Byte
/-- Log: DESIGN CHOICE 14. -/
opaque fwVersion : List Byte → Word

/-- The settings versions a firmware version reads, and the one it writes (R118, R119). Log: DESIGN CHOICE 14. -/
opaque settingsReads : Word → BitVec 16 → Bool
/-- Log: DESIGN CHOICE 14. -/
opaque settingsVersion : Word → BitVec 16

/-- The layout of a settings version's body, as a rearrangement of the model's own: one for each length (R118). Log: DESIGN CHOICE 17. -/
opaque settingsLayout : BitVec 16 → (n : Nat) → (Vector Byte n ≃ Vector Byte n)
/-- The nonce of a settings write, drawn from the DRBG (Table 5.9). Log: DESIGN CHOICE 12. -/
opaque settingsNonce : Nat → Vector Byte 12

/-- What the training of a channel learns: serial number and channel (R234). Log: DEDUCED 115. -/
opaque trainResult : Nat → Nat → BitVec 128

/-- The BCP's picks as it writes the source-route tables (R190): disabled stations, station, entry; which destination that needs one comes
next, and which waypoint serves it. Log: DESIGN CHOICE 41. -/
opaque sourceRoute : List Nat → Nat → Nat → Nat × Nat

/-- The tokens that a consumer's power of one course, in mW, stands for: the manual gives no energy of an access, a line or a cycle of firing
(R384). Log: DEDUCED 87. -/
opaque tokensOf : Nat → Nat → Nat

/-- Which of the free ports a deflected packet takes (R184). Log: DESIGN CHOICE 41. -/
opaque deflectPick : Nat → Nat

/-- The level the board gives a pin's land that the node does not drive: course, cycle and pin. Log: DESIGN CHOICE 25. -/
opaque boardLevel : Nat → Nat → Nat → Bool

/-- The status that answers an IMAGE_WRITE whose host memory could not be read (R378 names none). Log: DESIGN CHOICE 85. -/
opaque imageReadStatus : Nat → Status

/-- A byte of an image slot after an erase or program that failed or was broken off (R378): serial number and byte offset.
 Log: DESIGN CHOICE 16. -/
opaque flashByte : Nat → Nat → Byte

/-! ## The draws of the random source (R351), and what a certificate chain names -/

/-- The number that the private key of an ephemeral key pair is drawn by (R351, R357). Log: DESIGN CHOICE 12. -/
opaque ephemeralKey : Nat → Nat

/-- The SubjectPublicKeyInfo of a chain's leaf, where it can be parsed. Log: DESIGN CHOICE 13. -/
opaque leafKey : List Byte → Option (List Byte)

/-- The RANDOM of a handshake, the nonce of an SPDM answer, drawn from the DRBG. Log: DESIGN CHOICE 12. -/
opaque hsRandom : Nat → Vector Byte 32
/-- Log: DESIGN CHOICE 12. -/
opaque spdmNonce : Nat → Vector Byte 32

/-- The transcript that an SPDM answer signs, as SPDM 1.2 defines it: serial number and the requester's nonce. Log: DESIGN CHOICE 80. -/
opaque spdmTranscript : Nat → List Byte → List Byte

/-- SHA-384 of the BCP boot ROM, and of the root certificate of the Torvanadun CA (Tables 16.2, 16.3). Log: DESIGN CHOICE 13. -/
opaque romHash : Vector Byte 48
/-- Log: DESIGN CHOICE 13. -/
opaque caRootHash : Vector Byte 48

end Sys2Proof.Config
end

