-- ==== Sys2Proof/Machine/State.lean ====
section
/-! DEFINITION. The state of the Q16 node as plain data: every register, table, buffer, queue, counter, mode and sideband signal
the manual gives the node, the queue of waiting commands, and the record of what the node has driven out. A field default is the
field's value at reset; `State.reset` is the node in which POR_N has just risen. -/

namespace Sys2Proof.Machine

/-- Why the node stops. The node's own fatal faults are no stop (FATAL is a state, R395); only these are. -/
inductive Fault where
  /-- Raised by a command with an operand that no sender can form (a port, lane or index the part does not have, data of the
  wrong length): WellFormed refuses it. Safe: the model stops where the hardware is given nothing. -/
  | illFormed
  deriving DecidableEq, Repr

/-- Why the model gives a command no meaning. -/
inductive Refusal where
  /-- Raised by a command of the table that has no meaning yet. Safe. -/
  | notModelled (mnemonic : String)
  deriving DecidableEq, Repr

/-! ## The course and the generations -/

/-- The course clock (R27 to R30). Log: DESIGN CHOICE 4, DESIGN CHOICE 94. -/
structure Clk where
  /-- The core clock is locked and the course counter runs (R28). -/
  locked : Bool := false
  /-- Boundaries since the lock; the 48-bit course counter is this number modulo 2^48 (R28). -/
  now : Nat := 0
  /-- The cycle within the course, 0 to 8,191 (R27). -/
  cycle : Nat := 0
  /-- The course packet of the coming boundary has been sent (R192). -/
  packetSent : Bool := false
  /-- The instances whose flip bits that packet carried (R192). -/
  flipBits : List Nat := []
  /-- Training events admitted in the present course (R124). -/
  admits : Nat := 0
  deriving DecidableEq, Repr, Inhabited

/-- A slip counter (Table 2.6) and whether its next slip is the first after a clear (Table 2.5). -/
structure Slip where
  last  : BitVec 16 := 0
  count : BitVec 16 := 0
  fresh : Bool := true
  deriving DecidableEq, Repr, Inhabited

/-- A GEN_STALE event the BCP owes (R23, R42). -/
structure StaleOwed where
  inst : Nat
  ops  : Nat
  /-- The partition of a tenant's instance when the generation was released. -/
  part : Nat := 0
  deriving DecidableEq, Repr, Inhabited

/-- The CRS_ block (Table 2.3). -/
structure Crs where
  status    : Word := 0
  eventEn   : Word := 3
  slips     : Tbl Slip := []
  /-- Processors that have slipped in the present course (R35: once for each course). -/
  slipped   : List Proc := []
  /-- Processors that slipped in the course before, as step 5 sees them (Table 2.2). -/
  lastSlipped : List Proc := []
  staleOps  : Word := 0
  staleGens : Word := 0
  owed      : List StaleOwed := []
  deriving DecidableEq, Repr, Inhabited

/-- One generation-managed instance: its copies (R37, R38) and its generation words (Table 2.8). Keys are entry numbers, values
the entry's bits. -/
structure Inst where
  shadow  : Tbl (BitVec 64) := []
  active  : Tbl (BitVec 64) := []
  old     : Tbl (BitVec 64) := []
  gen     : BitVec 16 := 0
  age     : Nat := 0
  flipped : Bool := false
  commit  : Bool := false
  retired : Bool := false
  deriving DecidableEq, Repr, Inhabited

/-! ## Node identity, configuration, partitions, tenants, streams -/

/-- The node identity block (Table 1.4). -/
structure Nid where
  fw         : Word := 0
  state      : NodeState := .boot
  partitions : Nat := 0
  serial     : BitVec 64 := 0
  near       : Nat := 0
  bulk       : Nat := 0
  status     : Word := 0
  deriving DecidableEq, Repr, Inhabited

/-- The CONFIG header in force (Table 5.6). Log: DESIGN CHOICE 119. -/
structure Cfg where
  loaded        : Bool := false
  adminPort     : Fin 4 := 0
  coordPrio     : Byte := 0
  minNear       : Nat := 0
  minBulk       : Nat := 0
  leanPorts     : Word := 0
  sealedPorts   : Word := 0
  disabledPorts : Word := 0
  powerCap      : Nat := 0
  deriving DecidableEq, Repr, Inhabited

/-- A mailbox answer owed: the port, the command's own number, its opcode and TAG (R374). -/
structure Owed where
  port   : Fin 4
  id     : Nat
  opcode : BitVec 16
  tag    : Word
  deriving DecidableEq, Repr, Inhabited

/-- A partition reset in progress (R68): its boundary b, whether b's withdrawal is done, and the answers owed. -/
structure PartReset where
  b         : Nat
  withdrawn : Bool := false
  owed      : List Owed := []
  deriving DecidableEq, Repr, Inhabited

/-- A partition: the attributes of Table 3.1, the tile counts of Table 3.5, and a reset in progress. -/
structure Part where
  valid       : Bool := false
  port        : Fin 4 := 0
  tenantQuota : Nat := 0
  colFirst    : Nat := 0
  colCount    : Nat := 0
  streamQuota : Nat := 0
  pagePolicy  : Nat := 1
  nearQuota   : Nat := 0
  bulkQuota   : Nat := 0
  qMove       : Nat := 0
  qScrub      : Nat := 0
  qVoxel      : Nat := 0
  qArray      : Nat := 0
  nearUsed    : Nat := 0
  bulkUsed    : Nat := 0
  reset       : Option PartReset := none
  deriving DecidableEq, Repr, Inhabited

/-- A tenant (R55): its state, its key slot, and a creation or destruction in progress (Table 3.2). -/
structure Tenant where
  state     : TenantState := .free
  part      : Nat := 0
  vf        : Nat := 0
  /-- The 10-bit incarnation of the tenant ID (R263). -/
  incarn    : Nat := 0
  /-- The memory key in key slot t (R207): a pair of AES-256 keys. -/
  key       : Option (BitVec 512) := none
  /-- Boundary b of Table 3.2. -/
  b         : Option Nat := none
  withdrawn : Bool := false
  byReset   : Bool := false
  owed      : List Owed := []
  deriving DecidableEq, Repr, Inhabited

/-- One entry of a stream's repeat record (R166). -/
structure RecEntry where
  rseq    : BitVec 16
  done    : Bool := false
  status  : Status := .ok
  count   : Word := 0
  result  : List Byte := []
  /-- Repeats to answer when the original completes: the port, the repeat, the generations it matched (R40). -/
  repeats : List (Fin 32 × Msg × List (Nat × BitVec 16)) := []
  deriving DecidableEq, Repr, Inhabited

/-- A stream command waiting for its flip (R61, R65, R66). -/
inductive StreamOp where
  | opening
  | modifying
  | closing
  deriving DecidableEq, Repr, Inhabited

/-- A stream's own state beside its table entry (R61 to R66, R166). -/
structure Stream where
  /-- The ID is allocated, and counts against its partition's quota (R61). -/
  alloc     : Bool := false
  part      : Nat := 0
  tenant    : Nat := 0
  windowNow : Nat := 0
  /-- The boundary of the flip from which the ramp counts (R62). -/
  rampBase  : Nat := 0
  /-- The last boundary at which the window took a ramp step (R62). -/
  rampAt    : Nat := 0
  /-- The repeat record, newest first (R166). -/
  record    : List RecEntry := []
  pend      : List (StreamOp × Owed) := []
  /-- The entry has been removed and the ID waits for its last request (R66). -/
  closed    : Bool := false
  deriving DecidableEq, Repr, Inhabited

/-- Where an accepted request stands. -/
inductive ReqPhase where
  /-- Write data is still to come (R158). -/
  | data
  /-- Waits for an earlier write of its stream to overlapping bytes (R165). -/
  | order
  /-- Being served. -/
  | run
  /-- Its response is on its way to the partner; it only holds its window slot (R63). -/
  | answered
  deriving DecidableEq, Repr, Inhabited

/-- An accepted fabric request (R160 to R166). -/
structure OReq where
  id      : Nat
  port    : Fin 32
  msg     : Msg
  phase   : ReqPhase := .run
  /-- The boundary at which its stream timer expires (R64). -/
  expiry  : Option Nat := none
  /-- The generations it matched: instance number and generation number (R39, R40). -/
  tags    : List (Nat × BitVec 16) := []
  keyT    : Nat := 0
  tier    : Tier := .near
  phys    : Nat := 0
  coh     : Bool := false
  /-- Write data received so far, in offset order. -/
  got     : List Byte := []
  /-- Offsets of write data that arrived marked poisoned (R182, R215). -/
  bad     : List Nat := []
  /-- No answer is sent: its link was lost (R151), or it is a local multicast write (R170). -/
  silent  : Bool := false
  /-- It has ended with LINK_LOST for its stream and only finishes its work (R151). -/
  lost    : Bool := false
  /-- Bytes done. -/
  pos     : Nat := 0
  /-- The words of its group's entry as its lookup read them, copies dropped, and copies still to hand over, for MCAST_READ (R38, R169). -/
  group   : List Nat := []
  drops   : Nat := 0
  toHand  : Nat := 0
  /-- The outcome of MCAST_READ once its lines are read, while copies are still to hand over. -/
  endSt   : Option Status := none
  deriving DecidableEq, Repr, Inhabited

/-! ## Links -/

/-- A message queued for a port, or held in its replay buffer, with what hangs on it. -/
structure TxItem where
  vc    : Nat
  bytes : List Byte
  /-- Valid flits of the message. -/
  flits : Nat := 1
  msg   : Msg := { opcode := 0 }
  /-- The local request whose response this belongs to, and whether it is the last message of it (R63). -/
  req   : Option Nat := none
  last  : Bool := false
  /-- The MCAST_READ request or the MCAST_PUSH command whose copy this is (R169, R280). -/
  mcast : Option Nat := none
  push  : Option (QId × BitVec 16) := none
  /-- A forwarded REQ: the port it came in by (R151, R162). -/
  fwd   : Option (Fin 32) := none
  /-- Its source in the round-robin of its egress port: an ingress port, or 32 for the node's local responders (R162). -/
  origin : Nat := 32
  /-- The generations a forwarded message, or the answer of an operation that holds no request any more, still counts against (R40). -/
  tags  : List (Nat × BitVec 16) := []
  /-- It answers an operation that holds no request of the node's. -/
  ans   : Bool := false
  /-- Its status is the operation's one final status: no release changes it (R32). -/
  final : Bool := false
  /-- An LMC message. -/
  lmc   : Bool := false
  deriving DecidableEq, Repr, Inhabited

/-- A sequenced frame held until acknowledged (R144). -/
structure Held where
  frame : Frame
  item  : TxItem
  deriving DecidableEq, Repr, Inhabited

/-- The keys of a Sealed session and its number (Table 16.1, R358): own direction, the partner's. -/
structure Session where
  keyOwn  : BitVec 256
  keyPeer : BitVec 256
  number  : Word
  deriving DecidableEq, Repr, Inhabited

/-- The handshake of a Sealed attempt (R357, R358). -/
structure Hs where
  active     : Bool := false
  random     : List Byte := []
  /-- The number of the ephemeral key pair in the SEP's pool (Table 16.1). -/
  eph        : Option Nat := none
  partner    : Option Hello := none
  chain      : List Byte := []
  /-- The partner's leaf key, once its chain is complete and checked. -/
  leaf       : Option (List Byte) := none
  th         : List Byte := []
  /-- The SEP is making the node's signature. -/
  signing    : Bool := false
  sentVerify : Bool := false
  gotVerify  : Bool := false
  sentFinish : Bool := false
  gotFinish  : Bool := false
  /-- The session and the finish key, derived with the partner's VERIFY. -/
  derived    : Option Session := none
  finKey     : List Byte := []
  /-- The messages sent last, resent until the next one expected arrives. -/
  lastSent   : List (List Byte) := []
  deriving DecidableEq, Repr, Inhabited

/-- Per-VC credit counters of one port (R152). -/
structure Credit where
  /-- Credits held towards the partner. -/
  have_    : Nat := 0
  /-- The partner's last running total seen. -/
  seen     : BitVec 8 := 0
  /-- Our running total of credits returned. -/
  ret      : BitVec 8 := 0
  /-- Frames in our receive buffer. -/
  rx       : Nat := 0
  deriving DecidableEq, Repr, Inhabited

/-- One EFP port (Tables 6.2, 6.7, 6.9). -/
structure Port where
  state       : PortState := .idle
  rate        : BitVec 2 := 0
  width       : BitVec 2 := 0
  lean        : Bool := false
  isSealed      : Bool := false
  /-- LNK_STATUS[5:0]: REFCLK_LOST and the W1C bits. -/
  ev          : Word := 0
  cfg         : Word := 0x0888000A
  /-- LNK_CFG as the last attempt began with it: what is in force (R155). -/
  use         : Word := 0x0888000A
  attempts    : Nat := 0
  rung        : Nat := 0
  /-- The rung the present walk has come to; 0 at its top (R133). -/
  pos         : Nat := 0
  /-- The presets of the last attempt's rung, in steps from the seed: post-cursor and receiver peaking (Table 6.3). -/
  post        : Int := 0
  peak        : Int := 0
  /-- Lanes with symbol lock in DETECT (R131). -/
  sym         : Byte := 0
  retries     : Nat := 0
  lockPartner : Byte := 0
  lockLocal   : Byte := 0
  /-- An attempt is running (R132). -/
  attempting  : Bool := false
  /-- A training event waits for admission, with its age order (R124). -/
  waiting     : Option Nat := none
  retryAt     : Option Nat := none
  txNext      : BitVec 12 := 0
  rxNext      : BitVec 12 := 0
  gap         : Bool := false
  epochOwn    : BitVec 16 := 0
  epochPeer   : BitVec 16 := 0
  /-- The previous session was Sure mode and its state is kept (R137). -/
  kept        : Bool := false
  window      : Nat := 2048
  credits     : Tbl Credit := []
  crcErr      : Word := 0
  replays     : Word := 0
  dups        : Word := 0
  downs       : BitVec 16 := 0
  cause       : Byte := 0
  /-- The replay buffer: frames from TX_OLDEST to TX_NEXT − 1 (R144). -/
  held        : List Held := []
  /-- REPLAY with its pointer; SEND when none (Table 6.7). -/
  replay      : Option (BitVec 12) := none
  replayCount : Nat := 0
  timer       : Bool := false
  /-- Messages queued for the port and not yet sent, oldest first. -/
  txq         : List TxItem := []
  /-- The source served last on each virtual channel (R162). -/
  turn        : Tbl Nat := []
  /-- Forwarded REQs sent and not yet answered (R151). -/
  fwd         : List (Fin 32 × Msg) := []
  /-- Frames of other types sent since the last IDLE frame (R130). -/
  sinceIdle   : Nat := 0
  /-- PARAMS exchange: the partner's PARAMS, our PARAMS_ACK sent, the partner's PARAMS_ACK received (R136). -/
  peer        : Option Params := none
  ackSent     : Bool := false
  ackGot      : Bool := false
  /-- VC0 credits are advertised (R125). -/
  vc0Open     : Bool := false
  /-- Counts of sequenced frames sent and accepted in a Sealed session (R154). -/
  nonceCount  : Nat := 0
  nonceRx     : Nat := 0
  hs          : Hs := {}
  /-- The session of a Sealed link (R154). -/
  sess        : Option Session := none
  deriving DecidableEq, Repr, Inhabited

/-! ## Transport -/

/-- An endpoint ID assigned by the coordinator: the joiner's serial and kind, the ID, the port its JOIN came by (R177). -/
structure Joined where
  serial : BitVec 64
  id     : BitVec 12
  port   : Fin 32
  node   : Bool := true
  deriving DecidableEq, Repr, Inhabited

/-- The coordinator election (R173 to R177). -/
structure Elect where
  /-- XPT_ELECT.STATE (Table 7.7). -/
  state  : Nat := 0
  /-- The boundary at which the claim window expires. -/
  expiry : Option Nat := none
  own    : Option Claim := none
  heard  : List Claim := []
  /-- The coordinator's claim, once announced. -/
  coord  : Option Claim := none
  /-- The port by which its ANNOUNCE came. -/
  coordVia : Option (Fin 32) := none
  /-- Serials left out of the comparison (R174). -/
  excl   : List (BitVec 64) := []
  /-- Endpoint IDs assigned as coordinator. -/
  joined : List Joined := []
  nextId : Nat := 1
  /-- The port on which each serial's JOIN arrived. -/
  via    : List (BitVec 64 × Fin 32) := []
  deriving DecidableEq, Repr, Inhabited

/-- A forwarded REQ that ended with TABLE_STALE: the port it came by, its SRC, STREAM and RSEQ (R42). -/
structure StaleFwd where
  port   : Fin 32
  src    : BitVec 12
  stream : BitVec 12
  rseq   : BitVec 16
  deriving DecidableEq, Repr, Inhabited

/-- The XPT_ block (Table 7.6) but for its tables. -/
structure Xpt where
  status    : Word := 0
  endpoint  : BitVec 12 := 0xFFF
  unrouted  : Word := 0
  noGrant   : Word := 0
  discard   : Word := 0
  repeats   : Word := 0
  mcDrop    : Word := 0
  mcLocal   : Word := 0
  /-- Forwarded REQs whose write data is discarded as it arrives (R42). -/
  staleFwd  : List StaleFwd := []
  elect     : Elect := {}
  deriving DecidableEq, Repr, Inhabited

/-! ## Mesh -/

/-- An early packet in a reorder store (R186). -/
structure Early where
  st  : Nat
  pl  : Plane
  pkt : MeshPkt
  deriving DecidableEq, Repr

/-- The mesh (Table 8.4): registers, disabled stations, source-route tables, pair sequences, reorder stores, throttle.
 Log: DESIGN CHOICE 9. -/
structure Msh where
  status   : Word := 0
  throttle : Word := 0x00602004
  defl     : Tbl Word := []
  hdrCorr  : Word := 0
  payBad   : Word := 0
  disabled : List Nat := []
  srIndex  : Word := 0
  /-- Entry e of station s at key s × 64 + e: destination and waypoint (R190). -/
  sr       : Tbl (Option (Nat × Nat)) := []
  /-- Next expected pair sequence at key (station × 192 + source) × 4 + plane (R186). -/
  expect   : Tbl Nat := []
  /-- Next pair sequence to use at key (source × 192 + destination) × 4 + plane. -/
  nextSeq  : Tbl Nat := []
  early    : List Early := []
  /-- Cycle stamps of recent deflections, at key station × 4 + plane (R185). -/
  stamps   : Tbl (List Nat) := []
  throttled : List Nat := []
  lastInj  : Tbl Nat := []
  /-- Multicasts in flight: on a row or a column, which one, and the cycle at which the last station has it (R191). -/
  flying   : List (Bool × Nat × Nat) := []
  deriving DecidableEq, Repr

/-! ## Pool memory and DRAM -/

/-- What a physical tile that is not in the free pool is used for (R202, R217, R218). -/
inductive TileUse where
  | free
  /-- Mapped, or kept by a generation still held, for the named tenant. -/
  | owned (tenant part : Nat)
  | overflow
  | retired
  deriving DecidableEq, Repr, Inhabited

/-- A bog list record (Table 9.5). -/
structure Bog where
  tier      : Tier
  line      : Nat
  tenant    : Nat
  unmapped  : Bool := false
  inherited : Bool := false
  cleared   : Bool := false
  source    : Nat := 0
  course    : BitVec 48 := 0
  deriving DecidableEq, Repr, Inhabited

/-- Who of a queue's engine makes an access: a command, the fetch of a descriptor, the write of a completion. -/
inductive EngUse where
  | cmd (q : QId) (idx : BitVec 16)
  | fetch (q : QId)
  | commit (q : QId)
  deriving DecidableEq, Repr, Inhabited

/-- A migration tracker (Tables 9.3, 9.6). -/
structure Mig where
  /-- TIL_MIG_k.STATE: 0 free, 1 copying, 2 remap pending, 3 gated, 4 final pass. -/
  state   : Nat := 0
  tenant  : Nat := 0
  tile    : Nat := 0
  srcTier : Tier := .near
  src     : Nat := 0
  dstTier : Tier := .near
  dst     : Nat := 0
  retire  : Bool := false
  /-- The source has been bogged and is to be retired at step 7. -/
  bogged  : Bool := false
  passes  : Nat := 0
  dirty   : List Nat := []
  /-- Blocks already copied by passes, in bytes, for the count of an aborted MIGRATE (R286). -/
  copied  : Nat := 0
  /-- The remap waits for a COMMIT to read 0 (R205). -/
  waiting : Bool := false
  /-- The first pass waits for a tier that wakes or moves to another rate (R232, R233). -/
  parked  : Bool := false
  /-- The final pass has ended; the boundary of step 7. -/
  relAt   : Option Nat := none
  /-- The MIGRATE command it runs for. -/
  cmd     : Option (QId × BitVec 16) := none
  /-- Engine accesses held at its gate (R214). -/
  waiters : List EngUse := []
  deriving DecidableEq, Repr, Inhabited

/-- The TIL_ block (Table 9.6) but for the maps. -/
structure Til where
  status   : Word := 0
  bogs     : List Bog := []
  overflow : List Nat := []
  bogLost  : Word := 0
  retNear  : Word := 0
  retBulk  : Word := 0
  bogIdx   : Word := 0
  migs     : Tbl Mig := []
  /-- Mirrors granted read and write (MODE 1), at key grantee × 2^27 + tile (R204, R206). -/
  rw       : Tbl Bool := []
  /-- Use of each physical tile, at key tier × 2^22 + tile; free where nothing is listed. -/
  uses     : Tbl TileUse := []
  /-- Tile numbers that no copy of their map holds any more: their store entries become free at the coming boundary (R196). -/
  lag      : List (Nat × Nat) := []
  /-- Tiles of each tier that the channels in service hold (R224). -/
  nearAll  : Nat := 0
  bulkAll  : Nat := 0
  deriving DecidableEq, Repr, Inhabited

/-- What follows a read or write at a memory controller. -/
inductive MemCont where
  /-- The next line of a fabric request. -/
  | req (id : Nat)
  /-- A line written on behalf of snoop data or a write-back already taken. -/
  | none_
  deriving DecidableEq, Repr, Inhabited

/-- A request queued at a memory controller (R226). -/
structure MemOp where
  write  : Bool
  tier   : Tier
  line   : Nat
  keyT   : Nat
  /-- Bytes written: offset in the line and data; a whole line for 128 bytes at offset 0. -/
  off    : Nat := 0
  data   : List Byte := []
  bad    : Bool := false
  /-- Atomic operation: code and length (R254). -/
  atomic : Option (Nat × Nat) := none
  cont   : MemCont := .none_
  /-- The DRAM page policy after the access: 1 keep open, 2 close, 3 close unless a queued request hits (Table 10.4). -/
  policy : Nat := 1
  /-- Held at a migration gate, by tracker (Table 9.3, step 5). -/
  gate   : Option Nat := none
  /-- Held while RATE_APPLY runs (R233). -/
  held   : Bool := false
  /-- The cycle in which it was queued (R226). -/
  at_    : Nat := 0
  deriving DecidableEq, Repr, Inhabited

/-- What a channel's training starts from (R123, R234): nothing, applied calibration parameters, or a learned result. Log: DEDUCED 115. -/
inductive TrainSeed where
  | none_
  | calibration (vs : List Int)
  | learned (r : BitVec 128)
  deriving DecidableEq, Repr, Inhabited

/-- A DRAM channel (Table 10.7); near channels at keys 0 to 255, bulk channels at 256 to 271. -/
structure Chan where
  state    : Nat := 0
  suspect  : Bool := false
  failedPc : Nat := 0
  checker  : Bool := false
  ce       : Word := 0
  ue       : Word := 0
  odecc    : Word := 0
  devcorr  : Word := 0
  /-- A batch of writes is being drained (R227). -/
  draining : Bool := false
  /-- Corrected errors of the window in progress (R237). -/
  window   : Nat := 0
  cap      : Nat := 0
  ranks    : Nat := 0
  dimms    : Nat := 0
  dimmType : Nat := 0
  /-- The seed of its last training, and what that learned (R234). -/
  seed     : TrainSeed := .none_
  learned  : Option (BitVec 128) := none
  deriving DecidableEq, Repr, Inhabited

/-- A bank: its open row (R228) and its postponed refreshes (R230). -/
structure Bank where
  row  : Option Nat := none
  /-- The row closes after OPEN_TMO without a hit (Table 10.4), and the cycle of its last access. -/
  keep : Bool := false
  at_  : Nat := 0
  /-- The boundaries at which the postponed refreshes fell due, oldest first. -/
  owed : List Nat := []
  deriving DecidableEq, Repr, Inhabited

/-- A rank or stack ID: the course of its last request and its power state (R231). -/
structure Rank where
  lastReq : Nat := 0
  down    : Bool := false
  deriving DecidableEq, Repr, Inhabited

/-- A tier's registers and modes (Table 10.7). -/
structure TierSt where
  /-- W1C bits of the status register. -/
  status   : Word := 0
  cfg      : Word := 0x04200804
  thresh   : Word := 64
  forced   : Word := 0
  exclude  : Tbl Word := []
  /-- The list of channels in service (R223). -/
  order    : List Nat := []
  /-- Capacity per channel in tiles (R224). -/
  perCh    : Nat := 0
  mapOut   : Bool := false
  asleep   : Bool := false
  waking   : Bool := false
  rate     : Nat := 0
  /-- RATE_APPLY is running, and the rate it moves to (R233). -/
  moving   : Option Nat := none
  capMax   : Nat := 0
  capUsed  : Nat := 0
  /-- Answers of commands that wait for the tier to wake, with their answer fields (R232). -/
  owed     : List (Owed × List Byte) := []
  deriving DecidableEq, Repr, Inhabited

/-- The DRAM of both tiers and its controllers. -/
structure Dram where
  /-- Ciphertext bytes: tier × 2^43 + line × 128 + offset. Unlisted bytes read 0. -/
  mem    : List Host.Cell := []
  /-- Lines that hold the poison codeword: tier × 2^36 + line. -/
  poison : Tbl Bool := []
  /-- Wrong data that passed as a valid codeword at an engine's read, by line (R241). -/
  passed : List (Nat × Line) := []
  /-- Requests at the controllers, oldest first. -/
  queue  : List MemOp := []
  near   : TierSt := {}
  bulk   : TierSt := {}
  chans  : Tbl Chan := []
  banks  : Tbl Bank := []
  ranks  : Tbl Rank := []
  /-- Accesses of each channel's scheduler in the present course (R384). -/
  spent  : Tbl Nat := []
  /-- The boundary at which the windows of corrected errors last started (R237). -/
  ceAt   : Option Nat := none
  deriving DecidableEq, Repr

/-! ## Directory -/

/-- The stable states of a line in the directory (Table 11.1). -/
inductive DirSt where
  | i
  | s
  | e
  | m
  deriving DecidableEq, Repr, Inhabited

/-- A directory entry (Table 11.1), with its last use for the replacement order (R260). -/
structure DirEnt where
  st     : DirSt := .i
  tier   : Tier := .near
  line   : Nat := 0
  coarse : Bool := false
  ptrs   : List Nat := []
  vec    : BitVec 64 := 0
  keyT   : Nat := 0
  incarn : Nat := 0
  used   : Nat := 0
  deriving DecidableEq, Repr, Inhabited

/-- Transient states (Table 11.4). -/
inductive TrkSt where
  | sd
  | ga
  | so
  | rc
  deriving DecidableEq, Repr, Inhabited

/-- A snoop, offer or grant awaiting its answer: the agent and the boundary of expiry (R262). -/
structure Await where
  agent  : Nat
  expiry : Nat
  deriving DecidableEq, Repr, Inhabited

/-- A tracker (R255, R256). -/
structure Trk where
  /-- The way's slot number: (slice × 49,152 + set) × 16 + way; none where the line has no entry. -/
  slot   : Option Nat
  st     : TrkSt
  tier   : Tier
  line   : Nat
  waits  : List Await := []
  /-- The request or the engine access served. -/
  req    : Option Nat := none
  /-- The agent granted, or the stash target. -/
  agent  : Option Nat := none
  /-- An access of the node's own engines: whether it writes. -/
  engine : Option Bool := none
  /-- Data returned is discarded: the entry is dead, or its tile was unmapped (R263, R264). -/
  drop   : Bool := false
  /-- A departed agent is removed without poison (R264). -/
  calm   : Bool := false
  /-- The owner kept a clean copy. -/
  kept   : Bool := false
  /-- The key tenant and its incarnation for the line. -/
  keyT   : Nat := 0
  incarn : Nat := 0
  /-- A recall's tracker: the request whose way it frees (R260). -/
  for_   : Option Nat := none
  deriving DecidableEq, Repr, Inhabited

/-- What waits at a slice: a fabric request for its present line, or an engine's access (R255). -/
inductive PendItem where
  | req (id : Nat)
  | eng (u : EngUse) (tier : Tier) (line : Nat)
  deriving DecidableEq, Repr, Inhabited

/-- The recall of a cached line of a tile that left a map, still to begin (R264). -/
structure LineRecall where
  slot   : Nat
  tier   : Tier
  line   : Nat
  keyT   : Nat
  incarn : Nat
  drop   : Bool
  deriving DecidableEq, Repr, Inhabited

/-- A sweep for AGENT_RELEASE in progress (R249). -/
structure Sweep where
  agent : Nat
  owed  : List Owed
  deriving DecidableEq, Repr, Inhabited

/-- The DIR_ block and the directory (Table 11.7). -/
structure Dirs where
  status  : Word := 0
  cfg     : Word := 16
  recalls : Word := 0
  staleWb : Word := 0
  stray   : Word := 0
  tmo     : Word := 0
  depart  : Word := 0
  declined : Word := 0
  ents    : Tbl DirEnt := []
  /-- Agent table: endpoint of each registered agent (R248). -/
  agents  : Tbl (Option (BitVec 12)) := []
  trks    : List Trk := []
  /-- Waiting at the slices, oldest first: each slice's pending queue, then its mesh receive queue (R255). -/
  pend    : List PendItem := []
  /-- Recalls of tiles that left a map, still to begin (R264). -/
  recallQ : List LineRecall := []
  sweeps  : List Sweep := []
  lkLo    : Word := 0
  lkHi    : Word := 0
  /-- The entry snapshot taken at the last read of DIR_LK_ENTRY_0, per host port: four words. -/
  snap    : Tbl (List Word) := []
  clock   : Nat := 0
  deriving DecidableEq, Repr, Inhabited

/-! ## Engines -/

/-- A descriptor (Table 12.2). -/
structure Desc where
  opcode : Nat := 0
  flags  : Word := 0
  tag    : BitVec 16 := 0
  len    : Nat := 0
  src    : Nat := 0
  dst    : Nat := 0
  ops    : List Byte := []
  stash  : BitVec 12 := 0
  deriving DecidableEq, Repr, Inhabited

/-- Where a fetched command stands (R283, R285). -/
inductive CmdPhase where
  | fetched
  | running
  | finished
  deriving DecidableEq, Repr, Inhabited

/-- The counts of a scrub pass (Table 10.6). -/
structure ScrubSt where
  scanned   : Nat := 0
  corrected : Nat := 0
  uncorr    : Nat := 0
  poisoned  : Nat := 0
  skipped   : Nat := 0
  firstUc   : Option Nat := none
  devcorr   : Nat := 0
  odecc     : Nat := 0
  /-- Boundaries counted at acceptance. -/
  start     : Nat := 0
  next      : Nat := 0
  /-- The pass has been accepted. -/
  begun     : Bool := false
  /-- How the pass ended, while its summary is written; its COURSES, and the bytes of the summary written. -/
  fin       : Option Status := none
  courses   : Nat := 0
  sum       : Nat := 0
  deriving DecidableEq, Repr, Inhabited

/-- How far a voxel command has come: bytes of its scratch region cleared, and what it has read of SRC and QUERY. -/
structure VoxSt where
  cleared : Nat := 0
  got     : List Byte := []
  qry     : List Byte := []
  deriving DecidableEq, Repr, Inhabited

/-- A fetched command not yet committed. -/
structure Cmd where
  idx     : BitVec 16
  desc    : Desc
  phase   : CmdPhase := .fetched
  /-- All of its work is done, or it has met what stops it; COMMAND_FINISH may take it. -/
  ended   : Bool := false
  status  : Status := .ok
  count   : Nat := 0
  aux     : Word := 0
  /-- Bytes done so far. -/
  pos     : Nat := 0
  elems   : Nat := 0
  aborted : Bool := false
  /-- The tile-map generations it holds while it waits in a tile: its source's, then its destination's (R40). -/
  tag     : List (Nat × BitVec 16) := []
  /-- The tiles those generations belong to. -/
  tiles   : List Nat := []
  /-- The element list of GATHER or SCATTER: addresses and lengths. -/
  list    : List (Nat × Nat) := []
  scrub   : ScrubSt := {}
  vox     : VoxSt := {}
  /-- MCAST_PUSH: its group's entry as the command found it, and the generation of that lookup (R38, R40). -/
  group   : List Nat := []
  mcTag   : Option (Nat × BitVec 16) := none
  mig     : Option Nat := none
  /-- Launches and loads: passed its checks, with the order in which (R316). -/
  turn    : Option Nat := none
  toHand  : Nat := 0
  drops   : Nat := 0
  /-- It was ended by an event of R287, which also says where its completion may be written. -/
  swept   : Bool := false
  deriving DecidableEq, Repr, Inhabited

/-- A queue (Table 12.10). -/
structure Queue where
  /-- Q_CFG.STATE: 0 DISABLED, 1 ACTIVE, 2 ERROR, 3 STOPPING. -/
  state   : Nat := 0
  cls     : Nat := 0
  host    : Bool := false
  n       : Nat := 0
  inst    : Nat := 0
  vector  : BitVec 16 := 0
  sqBase  : BitVec 64 := 0
  cqBase  : BitVec 64 := 0
  sqTail  : Nat := 0
  sqHead  : Nat := 0
  cqHead  : Nat := 0
  cqTail  : Nat := 0
  phase   : Bool := true
  /-- The outcome of an abort recorded in this course, shown with DONE at the next boundary (R285). -/
  abPend  : Option Byte := none
  result  : Byte := 0
  abIndex : BitVec 16 := 0
  /-- Submitted indices aborted before they were fetched (R285). -/
  abSet   : List (BitVec 16) := []
  cause   : Nat := 0
  illegal : Bool := false
  lost    : Word := 0
  cmds    : List Cmd := []
  /-- How the event that stopped it ends its commands, and where completions may be written (R287). -/
  endSt   : Status := .aborted
  endTiles : Bool := true
  endHost : Bool := true
  owed    : List Owed := []
  deriving DecidableEq, Repr, Inhabited

/-- The ENG_ block (Tables 12.9, 13.6). -/
structure Eng where
  status : Word := 0
  /-- Tenant queues at t × 8 + q, administrator queues at 1024 + q. -/
  queues : Tbl Queue := []
  points : Tbl Word := []
  dropped : Tbl Word := []
  short  : Tbl Word := []
  pairs  : Tbl Word := []
  /-- The queue that each instance served last (R268). -/
  turn   : Tbl Nat := []
  /-- Lines that each move, scrub and voxel engine moved or scanned in the present course (R384). -/
  spent  : Tbl Nat := []
  deriving DecidableEq, Repr, Inhabited

/-! ## The array -/

/-- The column states of Table 14.9. -/
inductive ColSt where
  | unowned
  | unavailable
  | empty
  | loaded
  | loading
  | running
  | halted
  deriving DecidableEq, Repr, Inhabited

/-- An array column (Table 14.8). -/
structure Col where
  state  : ColSt := .unowned
  part   : Nat := 0
  tenant : Nat := 0
  first  : Nat := 0
  count  : Nat := 0
  /-- The last write to the column was CLEAR (R333). -/
  cleared : Bool := false
  loader : Option LoaderId := none
  /-- Cycles of the present course in which a unit of the column fired, and the last of them (R321, R384). -/
  spent  : Nat := 0
  firedAt : Option Nat := none
  deriving DecidableEq, Repr, Inhabited

/-- An access that a stream has issued (R314, R315): where, how many bytes, the generation held there, its page hint, the output it delivers
on, and for a write its data. Log: DESIGN CHOICE 112. -/
structure Flight where
  addr   : Nat
  len    : Nat
  gen    : BitVec 16
  hint   : Nat
  port   : Nat
  writer : Bool := false
  frames : Bool := false
  data   : List Byte := []
  deriving DecidableEq, Repr, Inhabited

/-- The run state of one memory-unit stream (R314, R315). -/
structure MuStream where
  base    : Int := 0
  /-- COUNT0 and COUNT1 as computed at launch, and the number of elements. -/
  c0      : Nat := 1
  c1      : Nat := 1
  total   : Nat := 0
  started : Bool := false
  issued  : Nat := 0
  done    : Nat := 0
  /-- Accesses issued and not completed, oldest first. -/
  flight  : List Flight := []
  /-- The tile of the last access issued and the generation held there (R40). -/
  held    : Option (Nat × BitVec 16) := none
  ended   : Bool := false
  deriving DecidableEq, Repr, Inhabited

/-- A running launch (R316 to R318). -/
structure Launch where
  q       : QId
  idx     : BitVec 16
  tenant  : Nat
  part    : Nat
  first   : Nat
  count   : Nat
  args    : List Word := []
  expiry  : Option Nat := none
  stalls  : Nat := 0
  /-- The units were enabled before the present course began, and one has fired in it (R320). -/
  whole   : Bool := false
  fired   : Bool := false
  bytes   : Nat := 0
  /-- The cause that ended it, the unit named, its status (Table 14.7), and the cycle of that record; and the DONE word. -/
  ended   : Option (Nat × Nat × Status) := none
  endedAt : Nat := 0
  /-- The STOP command that ended it (R319). -/
  stopper : Option (QId × BitVec 16) := none
  done    : Option Word := none
  /-- Scalar words on their way to DONE. -/
  toDone  : List Word := []
  /-- Input queues at key unit × 16 + port: entries, oldest first. -/
  queues  : Tbl (List (BitVec 1024)) := []
  /-- Accumulators (32 words) and firing counts of units. -/
  accs    : Tbl (List Word) := []
  counts  : Tbl Nat := []
  /-- Streams at key memory unit × 4 + stream, the unit by its unit ID. -/
  streams : Tbl MuStream := []
  deriving DecidableEq, Repr, Inhabited

/-- A configuration stream being read (R327 to R340). -/
structure Loader where
  id      : LoaderId
  tenant  : Nat
  /-- Where a host load reads its words, and how many there are. -/
  src     : Option (Nat × Nat) := none
  /-- Words delivered and not yet read, for the self-load port and the image's design; no more will come once closed. -/
  words   : List Word := []
  closed  : Bool := false
  /-- Words read. -/
  read    : Nat := 0
  leader  : Bool := false
  ended   : Option Status := none
  /-- A frame writer's status word has been placed on D2 (R339). -/
  reported : Bool := false
  /-- COLUMN and FRAME of the frame address; a FRAME past 39 or a COLUMN past 63 names no frame. -/
  column  : Nat := 0
  frame   : Nat := 0
  span    : Bool := false
  targets : List Nat := [0]
  /-- The columns a host load may claim. -/
  range   : List Nat := []
  claimed : List Nat := []
  claims  : Bool := false
  blocks  : Nat := 0
  /-- Blocks still to come of the FRAMES (false) or MAPS (true) being read. -/
  blk     : Option (Bool × Nat) := none
  deriving DecidableEq, Repr, Inhabited

/-- The ARR_ and CFG_ blocks and the array (Tables 14.8, 15.7). -/
structure Arr where
  status    : Word := 0
  cfg       : Word := 4
  launches  : Word := 0
  abnormal  : Word := 0
  cols      : Tbl Col := []
  /-- Frames, maps and check words at key column × 40 + frame; a frame not listed is all zeros, a map not listed all ones. -/
  frames    : Tbl (List Word) := []
  maps      : Tbl (List Word) := []
  checks    : Tbl Nat := []
  runs      : List Launch := []
  loaders   : List Loader := []
  cfgStatus : Word := 0
  rbEn      : Bool := true
  rbSlot    : Nat := 0
  rbPasses  : Nat := 0
  /-- The course of the last slot spent: one in each course (R343). -/
  rbAt      : Option Nat := none
  sbuEss    : Word := 0
  sbuNon    : Word := 0
  mbuHalt   : Word := 0
  mbuNon    : Word := 0
  chkUpset  : Word := 0
  loadsHost : Word := 0
  loadsSlp  : Word := 0
  loadFail  : Word := 0
  lastUpset : Word := 0
  deriving DecidableEq, Repr, Inhabited

/-! ## Security -/

/-- A port's security registers and pin (Table 16.8). -/
structure SecPort where
  cause : Byte := 0
  pin   : Option (List Byte) := none
  count : BitVec 16 := 0
  deriving DecidableEq, Repr, Inhabited

/-- The SEC_ block, the random source, SPDM service (Table 16.8). -/
structure Sec where
  status    : Word := 0
  apt       : BitVec 16 := 0
  rct       : BitVec 16 := 0
  spdmErr   : BitVec 16 := 0
  spdmAns   : BitVec 16 := 0
  ports     : Tbl SecPort := []
  /-- Requests to the DRBG since it was last seeded, and the course of that seeding (R351). -/
  drbgReqs  : Nat := 0
  drbgAt    : Nat := 0
  reseeds   : Nat := 0
  /-- Ports in the order in which the SEP took up their handshake signatures (R356). -/
  sigQueue  : List Nat := []
  /-- The measurements of Table 16.3, fixed when the node leaves TRAINING (R355). -/
  measured  : Option (List (List Byte)) := none
  deriving DecidableEq, Repr, Inhabited

/-! ## Hosts, power, faults, board, boot -/

/-- An event as posted (Table 17.6), without PHASE and OVERFLOW. -/
structure Event where
  code   : BitVec 16
  part   : Byte := 0xFF
  tenant : Byte := 0xFF
  object : BitVec 16 := 0
  course : Word := 0
  detail : Word := 0
  deriving DecidableEq, Repr, Inhabited

/-- A host port: its PERST_N, its mailbox and event ring (Table 17.11), its lookup registers, and the low words it holds (R5).
 Log: DESIGN CHOICE 9. -/
structure HostPort where
  perst    : Bool := true
  /-- Configuration requests are answered with Request Retry Status (R126). -/
  retry    : Bool := true
  illegal  : Bool := false
  overflow : Bool := false
  busy     : Bool := false
  done     : Bool := false
  /-- The number of the command in the mailbox, while its answer may still be written. -/
  cur      : Option Nat := none
  cmd      : Tbl Word := []
  ans      : List Byte := []
  evBase   : BitVec 64 := 0
  evCfg    : Word := 0
  evTail   : Nat := 0
  evPhase  : Bool := true
  evHead   : Nat := 0
  evLost   : Word := 0
  backlog  : List Event := []
  evMark   : Bool := false
  lkTenant : Word := 0
  lkTile   : Word := 0
  /-- Held low words and captured high words, at the low word's offset (R5). -/
  hold     : Tbl (Option Word) := []
  capture  : Tbl (Option Word) := []
  deriving DecidableEq, Repr, Inhabited

/-- Power capping and telemetry (R383 to R386). Log: DESIGN CHOICE 9. -/
structure Pwr where
  cap       : Word := 0
  level     : Nat := 0
  capUnmet  : Bool := false
  effective : Nat := 0
  temp      : BitVec 16 := 0
  watts     : BitVec 16 := 0
  bmc       : Nat := 0
  /-- The token allocation in force, and the one computed for the next course, in mW per consumer. -/
  tokens    : List (Nat × Nat) := []
  nextAlloc : Option (List (Nat × Nat)) := none
  telemetry : List Byte := []
  /-- The boundaries of the last change of LEVEL considered and of the last telemetry snapshot (R385, R386). -/
  thermAt  : Option Nat := none
  telAt    : Option Nat := none
  deriving DecidableEq, Repr, Inhabited

/-- A fault log entry (Table 18.3). -/
structure FltEntry where
  seq     : Word
  code    : Nat
  scope   : Nat
  fatal   : Bool := false
  event   : Bool := false
  course  : Nat
  part    : Byte := 0xFF
  tenant  : Byte := 0xFF
  object  : BitVec 16 := 0
  repeats : BitVec 16 := 0
  detail  : BitVec 64 := 0
  deriving DecidableEq, Repr, Inhabited

/-- A processor's watchdog (Table 18.6) and its run state (R397, R398). -/
structure Wd where
  last     : BitVec 16 := 0
  held     : Bool := false
  restarts : BitVec 8 := 0
  /-- Courses of the restarts, newest first. -/
  times    : List Nat := []
  restarting : Bool := false
  started  : Bool := false
  deriving DecidableEq, Repr, Inhabited

/-- The FLT_ block (Table 18.6). -/
structure Flt where
  illegal  : Bool := false
  logWrap  : Bool := false
  fatal    : Bool := false
  /-- The core cycle of the latch, where the core clock runs (R396). -/
  fatalAt  : Option Nat := none
  first    : Nat := 0
  all      : Nat := 0
  course   : Nat := 0
  next     : Word := 0
  lost     : Word := 0
  /-- Entries held, newest first, at most 1,024. -/
  log      : List FltEntry := []
  wd       : Tbl Wd := []
  deriving DecidableEq, Repr, Inhabited

/-- A record of the chosen image slot: where it lies in flash and its length. -/
structure Rec where
  off : Nat := 0
  len : Nat := 0
  deriving DecidableEq, Repr, Inhabited

/-- An IMAGE_WRITE in progress (R378): its answer, the flash address and the data. -/
structure ImageWrite where
  owed : Owed
  addr : Nat
  data : List Byte
  deriving DecidableEq, Repr, Inhabited

/-- Start-up: the boot registers (Table 5.12), OTP, the flash, the chosen slot's records, the settings and calibration in use. -/
structure Boot where
  status   : Word := 0
  cause    : Word := 0
  settings : Word := 2
  cal      : Word := 0
  selftest : Word := 0
  times    : Word := 0
  otp      : Option Otp := none
  flash    : Option FlashDev := none
  firmware : Option Rec := none
  config   : Option Rec := none
  userCal  : Option Rec := none
  tables   : Option Rec := none
  design   : Option Rec := none
  /-- The settings body in use. -/
  body     : SetBody := {}
  /-- The learned results that the settings block holds (R233). -/
  learned  : Tbl (BitVec 128) := []
  /-- A settings write whose slot has been erased: the slot, and the sequence it writes (R119, R120). -/
  setWriting : Option (Fin 2 × Word) := none
  applied  : List CalFactory := []
  meshDone : Bool := false
  eccDone  : Bool := false
  settingsDone : Bool := false
  calDone  : Bool := false
  tablesDone : Bool := false
  designDone : Bool := false
  hbmDone  : Bool := false
  ddrDone  : Bool := false
  portsOpened : Bool := false
  /-- The boundary at which the health window ends, and whether it has been spoilt (R115). -/
  healthAt : Option Nat := none
  healthBad : Bool := false
  /-- The IMAGE_WRITE in progress, and those that wait for it (R376). -/
  writing  : List ImageWrite := []
  /-- A settings write is due (R119, R237, R245). -/
  writeDue : Bool := false
  /-- The settings slot read or written since start-up: the only one written from then on (R119). -/
  ownSlot  : Option (Fin 2) := none
  deriving DecidableEq, Repr

/-- The state of a multi-function pin (Table 4.11, R98 to R101). -/
inductive PinPhase where
  | hiz
  | guard (at_ : Nat)
  | active
  deriving DecidableEq, Repr, Inhabited

/-- One multi-function pin. -/
structure Pin where
  phase   : PinPhase := .hiz
  /-- Edges counted in the window in progress, and the boundary at which the window began (R97). -/
  edges   : Nat := 0
  winAt   : Nat := 0
  /-- The published count of the last full window. -/
  count   : BitVec 16 := 0
  /-- An LED sinks now, and the boundary at which its period began. -/
  ledOn   : Bool := false
  ledAt   : Nat := 0
  deriving DecidableEq, Repr, Inhabited

/-- The SBD_ block, the SMBus and the sideband signals (Tables 4.2, 4.11). -/
structure Sbd where
  status  : Word := 0
  straps  : Straps := {}
  smbCfg  : Word := 2
  arb     : BitVec 16 := 0
  noAcks  : BitVec 16 := 0
  spiInfo : Word := 0
  gpioOut : Word := 0
  pins    : Tbl Pin := []
  /-- Event words pending for the board management controller, oldest first (R388). -/
  fifo    : List (BitVec 16) := []
  drop    : Word := 0
  alert   : Bool := false
  /-- The Host Notify message of the oldest word: its failed attempts, its arbitration losses, and whether the last attempt lost
  arbitration (R94, R95). -/
  hnTries : Nat := 0
  hnArb   : Nat := 0
  hnLost  : Bool := false
  porN    : Bool := true
  orderFault : Bool := false
  nodeFault : Bool := false
  thermtrip : Bool := false
  prochot : Bool := false
  /-- The flash on the board as the node last knew it, while the node has not discovered it. -/
  flash   : Option FlashDev := none
  deriving DecidableEq, Repr

/-- A sideband output of Table 4.2. -/
inductive SideLine where
  | thermtripN
  | prochotN
  | nodeFaultN
  | smbScl
  | smbSda
  | smbAlertN
  | uartTxd
  | spiClk
  | spiCsN
  | spiIo (k : Fin 4)
  | tapTdo
  | dsb (k : Fin 4) (sda : Bool)
  deriving DecidableEq, Repr

/-- What the node does to a land: nothing, a level, or the clock that its own transfers give it. -/
inductive Drive where
  | hiZ
  | low
  | high
  | clocked
  deriving DecidableEq, Repr

/-! ## What the node drives out -/

/-- An item the node has driven out: to a link, a host, the SMBus, the UART, the mesh. Log: DESIGN CHOICE 95. -/
inductive Out where
  | frame (p : Fin 32) (f : Frame)
  | regRead (fn : Fn) (off : Nat) (v : Word)
  | answer (port : Fin 4) (opcode : BitVec 16) (st : Status) (tag : Word) (fields : List Byte)
  | event (port : Fin 4) (addr : Nat) (bytes : List Byte)
  | msix (port : Fin 4) (vf vector : Nat)
  | completion (q : QId) (addr : Nat) (bytes : List Byte)
  | hostWrite (port : Fin 4) (addr : Nat) (bytes : List Byte)
  /-- The bytes of a read, and the PEC byte that follows them for a controller that clocks it. -/
  | smbRead (bytes : List Byte) (pec : Byte)
  | smbNack
  | smbAck
  /-- The four bytes of a Host Notify message (R93). -/
  | hostNotify (bytes : List Byte)
  | monitor (words : List Word)
  | monitorText (t : String)
  | spdm (hp : Fin 4) (code : Byte) (bytes : List Byte)
  | doe (hp : Fin 4) (vendor : BitVec 16) (typ next : Byte)
  | meshLink (st : Fin 192) (pl : Plane) (d : Dir) (pkt : MeshPkt)
  | meshEject (st : Fin 192) (pl : Plane) (units : List MeshUnit) (pkt : MeshPkt)
  | coursePacket (next : BitVec 48) (flips : List Nat)
  | uart2 (e : FltEntry)
  deriving DecidableEq, Repr

/-- The state of the node. -/
structure State where
  /-- The commands that are waiting, first in, first out. -/
  pending : List Instr := []
  clk     : Clk := {}
  crs     : Crs := {}
  /-- The 261 generation-managed instances (R36). -/
  insts   : Tbl Inst := []
  nid     : Nid := {}
  cfg     : Cfg := {}
  parts   : Tbl Part := []
  tenants : Tbl Tenant := []
  pttStatus : Word := 0
  streams : Tbl Stream := []
  reqs    : List OReq := []
  /-- The model's own counter: the next number for a request, a mailbox command or a drawn free value. -/
  serialNo : Nat := 0
  ports   : Tbl Port := []
  xpt     : Xpt := {}
  msh     : Msh := {}
  til     : Til := {}
  dram    : Dram := {}
  dir     : Dirs := {}
  eng     : Eng := {}
  arr     : Arr := {}
  sec     : Sec := {}
  hosts   : Tbl HostPort := []
  pwr     : Pwr := {}
  flt     : Flt := {}
  boot    : Boot := {}
  sbd     : Sbd := {}
  /-- What the node has driven out, newest first. -/
  out     : List Out := []
  deriving DecidableEq, Repr

/-- The node right after reset: POR_N has risen, the node is in BOOT, every register at its reset value, nothing waiting.
 Log: DESIGN CHOICE 8, DESIGN CHOICE 9, DEDUCED 26. -/
def State.reset : State := {}

end Sys2Proof.Machine
end

