-- ==== Sys2Proof/Machine/Ops.lean ====
section
/-! DEFINITION. The named operations every family uses: reading and writing each indexed piece of state, the course, posting an
event, recording a fault, entering FATAL, taking a mailbox command and answering it, the generation copies, and DRAM bytes. -/

namespace Sys2Proof.Machine

/-! ## Tables -/

/-- Change every listed value of a table, keeping the canonical form. -/
def mapTbl {α : Type} [DecidableEq α] (d : α) (f : Nat → α → α) (t : Tbl α) : Tbl α :=
  t.filterMap fun (k, v) => let v' := f k v; if v' = d then none else some (k, v')

/-- The first number of a list that satisfies a test. -/
def firstWhere (p : Nat → Bool) (l : List Nat) : Option Nat := l.find? p

/-! ## Pieces of state -/

def State.inst (s : State) (i : Nat) : Inst := Tbl.get {} s.insts i
def State.setInst (s : State) (i : Nat) (x : Inst) : State := { s with insts := Tbl.put {} s.insts i x }
def State.part (s : State) (p : Nat) : Part := Tbl.get {} s.parts p
def State.setPart (s : State) (p : Nat) (x : Part) : State := { s with parts := Tbl.put {} s.parts p x }
def State.tenant (s : State) (t : Nat) : Tenant := Tbl.get {} s.tenants t
def State.setTenant (s : State) (t : Nat) (x : Tenant) : State := { s with tenants := Tbl.put {} s.tenants t x }
def State.stream (s : State) (k : Nat) : Stream := Tbl.get {} s.streams k
def State.setStream (s : State) (k : Nat) (x : Stream) : State := { s with streams := Tbl.put {} s.streams k x }
def State.port (s : State) (p : Nat) : Port := Tbl.get {} s.ports p
def State.setPort (s : State) (p : Nat) (x : Port) : State := { s with ports := Tbl.put {} s.ports p x }
def State.host (s : State) (p : Nat) : HostPort := Tbl.get {} s.hosts p
def State.setHost (s : State) (p : Nat) (x : HostPort) : State := { s with hosts := Tbl.put {} s.hosts p x }
def State.mig (s : State) (k : Nat) : Mig := Tbl.get {} s.til.migs k
def State.setMig (s : State) (k : Nat) (x : Mig) : State := { s with til := { s.til with migs := Tbl.put {} s.til.migs k x } }
def State.use (s : State) (k : Nat) : TileUse := Tbl.get .free s.til.uses k
def State.setUse (s : State) (k : Nat) (x : TileUse) : State :=
  { s with til := { s.til with uses := Tbl.put .free s.til.uses k x } }
def State.chan (s : State) (k : Nat) : Chan := Tbl.get {} s.dram.chans k
def State.setChan (s : State) (k : Nat) (x : Chan) : State := { s with dram := { s.dram with chans := Tbl.put {} s.dram.chans k x } }
def State.queue (s : State) (k : Nat) : Queue := Tbl.get {} s.eng.queues k
def State.setQueue (s : State) (k : Nat) (x : Queue) : State := { s with eng := { s.eng with queues := Tbl.put {} s.eng.queues k x } }
def State.col (s : State) (k : Nat) : Col := Tbl.get {} s.arr.cols k
def State.setCol (s : State) (k : Nat) (x : Col) : State := { s with arr := { s.arr with cols := Tbl.put {} s.arr.cols k x } }
def State.pin (s : State) (n : Nat) : Pin := Tbl.get {} s.sbd.pins n
def State.setPin (s : State) (n : Nat) (x : Pin) : State := { s with sbd := { s.sbd with pins := Tbl.put {} s.sbd.pins n x } }
def State.slip (s : State) (k : Nat) : Slip := Tbl.get {} s.crs.slips k
def State.setSlip (s : State) (k : Nat) (x : Slip) : State := { s with crs := { s.crs with slips := Tbl.put {} s.crs.slips k x } }
def State.wd (s : State) (k : Nat) : Wd := Tbl.get {} s.flt.wd k
def State.setWd (s : State) (k : Nat) (x : Wd) : State := { s with flt := { s.flt with wd := Tbl.put {} s.flt.wd k x } }
def State.secPort (s : State) (k : Nat) : SecPort := Tbl.get {} s.sec.ports k
def State.setSecPort (s : State) (k : Nat) (x : SecPort) : State := { s with sec := { s.sec with ports := Tbl.put {} s.sec.ports k x } }

/-- The registers of a tier. -/
def State.tier (s : State) : Tier → TierSt
  | .near => s.dram.near
  | .bulk => s.dram.bulk

def State.setTier (s : State) (t : Tier) (x : TierSt) : State :=
  match t with
  | .near => { s with dram := { s.dram with near := x } }
  | .bulk => { s with dram := { s.dram with bulk := x } }

/-- Record something the node drives out. Log: DESIGN CHOICE 95. -/
def State.emit (s : State) (o : Out) : State := { s with out := o :: s.out }

/-- Take the model's next serial number. Log: DESIGN CHOICE 6. -/
def State.fresh (s : State) : Nat × State := (s.serialNo, { s with serialNo := s.serialNo + 1 })

/-- The node is powered, out of POR_N and not FATAL: its units act (R395). Log: DESIGN CHOICE 2. -/
def State.alive (s : State) : Bool := decide (s.nid.state ≠ .off) && decide (s.nid.state ≠ .fatal)

/-- The no-image state (R117). -/
def State.noImage (s : State) : Bool := bit s.boot.status 9

/-- The node takes writes and commands of a host: in FATAL and in the no-image state it discards them (R26, R117). -/
def State.takesHost (s : State) : Bool := s.alive && !s.noImage

/-- The instant as an age for admission (R124). -/
def ageNow (s : State) : Nat := s.clk.now * 8192 + s.clk.cycle

/-- A processor does its functions: neither restarting nor held (R22, R398). -/
def procRuns (s : State) (p : Proc) : Bool := !(s.wd p.idx).restarting && !(s.wd p.idx).held

/-- The processor gets to its periodic work in this course: it runs and has not slipped (R35, Table 2.2). -/
def procWorks (s : State) (p : Proc) : Bool := procRuns s p && !s.crs.slipped.contains p

/-- The consumer has tokens left, having spent so many in this course; before the first allocation nothing is limited (R384).
 Log: DEDUCED 87. -/
def tokenLeft (s : State) (k spent : Nat) : Bool :=
  s.pwr.tokens.isEmpty || decide (spent < Config.tokensOf k (((s.pwr.tokens.find? fun e => decide (e.1 = k)).map Prod.snd).getD 0))

/-- The 48-bit course counter (R28). -/
def State.course (s : State) : BitVec 48 := BitVec.ofNat 48 s.clk.now

/-- Course counter bits [31:0], as events carry them (Table 17.6). -/
def State.course32 (s : State) : Word := BitVec.ofNat 32 s.clk.now

/-- What stands in for a draw of the random source while TRNG_FAIL is set (R352). -/
def State.trngWord (s : State) : Word := s.nid.serial.setWidth 32 ^^^ s.course32

/-- TRNG_FAIL is set (R351). -/
def State.trngFail (s : State) : Bool := bit s.sec.status 2

/-- The number of a queue in the ENG_ block: tenant queues first, then the administrator's (Table 12.9). -/
def qNum : QId → Nat
  | .tenant t q => t.val * 8 + q.val
  | .admin q => 1024 + q.val

/-- The node is in cycle 0 of a course, after the steps of its boundary (R31). Log: DESIGN CHOICE 2, DESIGN CHOICE 4. -/
def atBoundary (s : State) : Bool := s.alive && s.clk.locked && decide (s.clk.cycle = 0)

/-! ## Instances (R36) -/

def tileMapInst (t : Nat) : Nat := t
def admInst (t : Nat) : Nat := 128 + t
def routeInst : Nat := 256
def bindInst : Nat := 257
def mcInst : Nat := 258
def streamInst : Nat := 259
def pinInst : Nat := 260

/-- What a lookup in an instance's active copy finds (R37). -/
def State.lookup (s : State) (i k : Nat) : BitVec 64 := Tbl.get 0 (s.inst i).active k

/-- What the shadow copy holds. -/
def State.shadowAt (s : State) (i k : Nat) : BitVec 64 := Tbl.get 0 (s.inst i).shadow k

/-- Write a shadow entry (R37). -/
def State.putShadow (s : State) (i k : Nat) (v : BitVec 64) : State :=
  let x := s.inst i
  s.setInst i { x with shadow := Tbl.put 0 x.shadow k v }

/-- Write an entry in both copies at once: a withdrawal (R59) or the image's contents (R47). -/
def State.putBoth (s : State) (i k : Nat) (v : BitVec 64) : State :=
  let x := s.inst i
  s.setInst i { x with shadow := Tbl.put 0 x.shadow k v, active := Tbl.put 0 x.active k v }

/-- Set COMMIT; setting it again has no effect (R44). -/
def State.setCommit (s : State) (i : Nat) : State :=
  s.setInst i { s.inst i with commit := true }

/-- The tag of a lookup: the instance and the generation active now (R39). -/
def State.tagOf (s : State) (i : Nat) : Nat × BitVec 16 := (i, (s.inst i).gen)

/-! ## Sideband: the event words for the board management controller (R388) -/

/-- Queue an event word; a full FIFO drops it and counts it. SMB_ALERT_N asserts while a word is pending (R93, R388). Log: DEDUCED 28. -/
def smbPush (code : BitVec 16) (s : State) : State :=
  if s.sbd.fifo.length < 16 then
    { s with sbd := { s.sbd with fifo := s.sbd.fifo ++ [code], alert := true } }
  else { s with sbd := { s.sbd with drop := sat32 s.sbd.drop 1 } }

/-! ## Event rings (R379, R380) -/

/-- Entries in a ring of LOG2 n (R379). -/
def HostPort.evSize (h : HostPort) : Nat := 2 ^ bits h.evCfg 20 16

/-- The ring is enabled (Table 17.11). -/
def HostPort.evOn (h : HostPort) : Bool := bit h.evCfg 31

/-- The ring is enabled and holds fewer than 2^n − 1 unconsumed entries (R379). -/
def HostPort.evRoom (h : HostPort) : Bool :=
  h.evOn && decide ((h.evTail + h.evSize - h.evHead) % h.evSize < h.evSize - 1)

/-- The 16 bytes of an event entry (Table 17.6), little-endian (R3). -/
def eventBytes (e : Event) (phase overflow : Bool) : List Byte :=
  leBytes 2 e.code.toNat ++ [BitVec.ofNat 8 ((if phase then 1 else 0) + (if overflow then 2 else 0)), e.part, e.tenant, 0]
    ++ leBytes 2 e.object.toNat ++ leBytes 4 e.course.toNat ++ leBytes 4 e.detail.toNat

/-- Write one event entry at the tail and signal vector 1 (R379). Log: DEDUCED 91. -/
def writeEvent (hp : Fin 4) (e : Event) (s : State) : State :=
  let h := s.host hp
  let tail := (h.evTail + 1) % h.evSize
  let s := s.setHost hp { h with evTail := tail, evPhase := if tail = 0 then !h.evPhase else h.evPhase, evMark := false }
  (s.emit (.event hp (h.evBase.toNat + h.evTail * 16) (eventBytes e h.evPhase h.evMark))).emit (.msix hp 0 1)

/-- Post an event to one function's ring: written, kept in the backlog of 64, or dropped and counted (R380). -/
def postRing (hp : Fin 4) (e : Event) (s : State) : State :=
  let h := s.host hp
  if h.evRoom && h.backlog.isEmpty then writeEvent hp e s
  else if h.backlog.length < 64 then s.setHost hp { h with backlog := h.backlog ++ [e] }
  else s.setHost hp { h with evLost := sat32 h.evLost 1, evMark := true, overflow := true }

/-- Write backlog entries, oldest first, while the ring has room (R380). -/
def drainRing (hp : Fin 4) : Nat → State → State
  | 0, s => s
  | n + 1, s =>
    let h := s.host hp
    match h.backlog with
    | [] => s
    | e :: r =>
      if h.evRoom then drainRing hp n (writeEvent hp e (s.setHost hp { h with backlog := r })) else s

/-- Post an event to the administrator's ring, and queue it for the board management controller (R388). Log: DEDUCED 91. -/
def postAdmin (e : Event) (s : State) : State := smbPush e.code (postRing s.cfg.adminPort e s)

/-- Post an event to the administrator's ring and to a partition owner's, once where the two are one function (R367).
 Log: DESIGN CHOICE 21, DEDUCED 91. -/
def postBoth (port : Fin 4) (e : Event) (s : State) : State :=
  let s := postAdmin e s
  if port = s.cfg.adminPort then s else postRing port e s

/-- An event of the present course. Log: DEDUCED 91. -/
def State.mkEvent (s : State) (code : BitVec 16) (part tenant : Byte) (object : BitVec 16) (detail : Word) : Event :=
  { code, part, tenant, object, course := s.course32, detail }

/-! ## The fault log (R400 to R402) -/

/-- The pin that drives UART2_TXD: the lower of pins 0 and 8 that has the function, once its guard has ended (R98, R99). -/
def State.uart2On (s : State) : Bool :=
  let has (n : Nat) := decide ((s.lookup pinInst n).toNat % 16 = 4)
  if has 0 then decide ((s.pin 0).phase = .active) else has 8 && decide ((s.pin 8).phase = .active)

/-- Append an entry; with 1,024 held the oldest is replaced (R401). Log: DEDUCED 91. -/
def pushFault (e : FltEntry) (s : State) : State :=
  let full := decide (1024 ≤ s.flt.log.length)
  let s := { s with flt := { s.flt with
      log := e :: s.flt.log.take 1023, next := s.flt.next + 1
      lost := if full then sat32 s.flt.lost 1 else s.flt.lost, logWrap := s.flt.logWrap || full } }
  if s.uart2On then s.emit (.uart2 e) else s

/-- The names of a fault: its code and scope (Table 18.4), where it happened, and its event code if it has one. -/
structure FaultSpec where
  code   : Nat
  scope  : Nat
  event  : Option (BitVec 16) := none
  part   : Byte := 0xFF
  tenant : Byte := 0xFF
  object : BitVec 16 := 0
  detail : BitVec 64 := 0

/-- Record a fault, or merge it with the newest entry, and post its event (R401, R402). CONFLICT's event carries no detail. -/
def recordFault (f : FaultSpec) (s : State) : State :=
  let merge := match s.flt.log with
    | e :: _ => decide (e.code = f.code ∧ e.part = f.part ∧ e.tenant = f.tenant ∧ e.object = f.object ∧ e.course = s.course.toNat)
    | [] => false
  if merge then
    match s.flt.log with
    | e :: r => { s with flt := { s.flt with log := { e with repeats := sat16 e.repeats } :: r } }
    | [] => s
  else
    let s := pushFault { seq := s.flt.next, code := f.code, scope := f.scope, event := f.event.isSome, course := s.course.toNat,
                         part := f.part, tenant := f.tenant, object := f.object, detail := f.detail } s
    match f.event with
    | none => s
    | some c =>
      let e := s.mkEvent c f.part f.tenant f.object (if c = 5 then 0 else f.detail.setWidth 32)
      if f.part = 0xFF then postAdmin e s else postBoth (s.part f.part.toNat).port e s

/-! ## FATAL (R395, R396) -/

/-- Clear every tenant key, session key and ephemeral key, and the handshakes that used them (R349). -/
def zeroiseAll (s : State) : State :=
  { s with
    tenants := mapTbl {} (fun _ t => { t with key := none }) s.tenants
    ports := mapTbl {} (fun _ p => { p with hs := {}, sess := none }) s.ports }

/-- The ports whose physical functions are in service. -/
def hostsUp (s : State) : List (Fin 4) := [0, 1, 2, 3].filter fun p => (s.host p.val).perst && !(s.host p.val).retry

/-- The bits of FLT_FATAL.ALL. -/
def causeBits (causes : List Nat) : Nat := causes.foldl (fun a c => a ||| 2 ^ (c - 1)) 0

/-- The cycle in which the fatal cause was latched is not over: causes recorded in it join those latched (R396). -/
def State.latching (s : State) : Bool := decide (s.nid.state = .fatal) && s.clk.locked && decide (s.flt.fatalAt = some (ageNow s))

/-- A cause recorded in the latching cycle: ALL holds it, and the lowest code is FIRST and the code of the one fatal entry (R396, R401).
 Log: DESIGN CHOICE 7. -/
def joinFatal (causes : List Nat) (object : BitVec 16) (detail : BitVec 64) (s : State) : State :=
  let first := causes.foldl min s.flt.first
  let log := match s.flt.log with
    | e :: r => (if first < s.flt.first then { e with code := first, object, detail } else e) :: r
    | [] => []
  { s with flt := { s.flt with first, all := s.flt.all ||| causeBits causes, log } }

/-- Latch fatal causes, enter FATAL, zeroise, drive the sideband, and record the one fatal entry. Later causes are ignored.
 Log: DESIGN CHOICE 7, DEDUCED 27. -/
def enterFatal (causes : List Nat) (object : BitVec 16) (detail : BitVec 64) (s : State) : State :=
  if s.alive then
    let first := causes.foldl min 6
    let s := zeroiseAll s
    let s := { s with
      nid := { s.nid with state := .fatal }
      flt := { s.flt with fatal := true, fatalAt := if s.clk.locked then some (ageNow s) else none, first := first, all := causeBits causes, course := s.course.toNat }
      sbd := { s.sbd with nodeFault := true, alert := true } }
    let s := pushFault { seq := s.flt.next, code := first, scope := 6, fatal := true, course := s.course.toNat, object, detail } s
    (hostsUp s).foldl (fun s p => s.emit (.msix p 0 1)) s
  else if s.latching then joinFatal causes object detail s
  else s

/-! ## The mailbox (R373 to R376) -/

/-- The bytes of a word list, little-endian. -/
def wordBytes (ws : List Word) : List Byte := ws.flatMap fun w => leBytes 4 w.toNat

/-- The function reaches the node: its port is out of PERST_N and past Request Retry Status (R126). Log: DESIGN CHOICE 2. -/
def hostUp (s : State) (fn : Fn) : Bool :=
  (s.host fn.port).perst && !(s.host fn.port).retry && decide (s.nid.state ≠ .off)

/-- Send to a host: a port whose PERST_N is low holds its transmitters in electrical idle (R79). -/
def State.toHost (hp : Fin 4) (o : Out) (s : State) : State := if (s.host hp).perst then s.emit o else s

/-- The function is the administrator (R367). -/
def State.isAdmin (s : State) (fn : Fn) : Bool := decide (fn.vf = 0) && decide (fn.port = s.cfg.adminPort)

/-- The function owns a partition (R367). -/
def State.owns (s : State) (fn : Fn) (p : Nat) : Bool :=
  decide (fn.vf = 0) && decide (p < 16) && (s.part p).valid && decide ((s.part p).port = fn.port)

/-- Write the answer of a command, unless it has been dropped (R369, R374). -/
def answer (o : Owed) (st : Status) (fields : List Byte) (s : State) : State :=
  let h := s.host o.port
  if s.alive && decide (h.cur = some o.id) then
    let hdr := leBytes 2 o.opcode.toNat ++ [BitVec.ofNat 8 st.code, 0] ++ leBytes 4 o.tag.toNat ++ leBytes 4 fields.length ++ leBytes 4 0
    let s := s.setHost o.port { h with ans := hdr ++ fields, busy := false, done := true, cur := none }
    (s.emit (.answer o.port o.opcode st o.tag fields)).emit (.msix o.port 0 0)
  else s

/-- The command buffer with a command written into it: the header of Table 17.4 and the request fields. Log: DEDUCED 84. -/
def cmdWords (old : Tbl Word) (opcode : Nat) (h : MbxHdr) (fields : List Byte) : Tbl Word :=
  let bytes := leBytes 4 opcode ++ leBytes 4 h.tag.toNat ++ leBytes 4 h.length.toNat ++ leBytes 4 0 ++ fields
  (List.range ((bytes.length + 3) / 4)).foldl
    (fun t i => Tbl.put 0 t i (BitVec.ofNat 32 (ofLeBytes ((bytes.drop (4 * i)).take 4)))) old

/-- The doorbell (R374): BUSY, DONE and the number the answer is owed under. Log: DEDUCED 84. -/
def mbxAccept (fn : Fn) (opcode : Nat) (h : MbxHdr) (fields : List Byte) (s : State) : Owed × State :=
  let hp := s.host fn.port
  let id := s.serialNo
  ({ port := fn.port, id, opcode := BitVec.ofNat 16 opcode, tag := h.tag },
   { s.setHost fn.port { hp with busy := true, done := false, cur := some id, cmd := cmdWords hp.cmd opcode h fields }
     with serialNo := id + 1 })

/-- A mailbox command: written into the buffer and handed over by GO. A command rung while BUSY is 1 is discarded (R374); an exact
LENGTH, the node's state and the issuer's right are checked before the command's own meaning (R375). Log: DEDUCED 84. -/
def mailbox (fn : Fn) (opcode : Nat) (h : MbxHdr) (fields : List Byte) (anyState : Bool) (right : State → Bool)
    (body : Owed → State → State) (s : State) : State :=
  if !hostUp s fn || decide (fn.vf ≠ 0) || !s.takesHost then s
  else if (s.host fn.port).busy then s.setHost fn.port { s.host fn.port with illegal := true }
  else
    let (o, s) := mbxAccept fn opcode h fields s
    if h.length.toNat ≠ fields.length then answer o .badLength [] s
    else if !anyState && !s.nid.state.serving then answer o .busy [] s
    else if !right s then answer o .noGrant [] s
    else body o s

/-! ## Plain memory cells (flash, DRAM): address and byte pairs, addresses rising, no entry equal to what an unlisted address reads as -/

/-- Read a byte of a cell list whose unlisted bytes read `d`. Log: DESIGN CHOICE 10. -/
def cellGet (d : Byte) : List Host.Cell → Nat → Byte
  | [], _ => d
  | (k, v) :: r, a => if a = k then v else cellGet d r a

/-- List a byte at an address: before the first higher address, or in place of the byte there. -/
def cellIns : List Host.Cell → Nat → Byte → List Host.Cell
  | [], a, x => [(a, x)]
  | (k, v) :: r, a, x =>
    if a < k then (a, x) :: (k, v) :: r
    else if a = k then (a, x) :: r
    else (k, v) :: cellIns r a x

/-- Write a byte, keeping the canonical form: what an unlisted address reads as is not listed. -/
def cellPut (d : Byte) (m : List Host.Cell) (a : Nat) (x : Byte) : List Host.Cell :=
  if x = d then m.filter (fun e => decide (e.1 ≠ a)) else cellIns m a x

/-- The canonical form from an address on. -/
def cellWfFrom (d : Byte) : Nat → List Host.Cell → Bool
  | _, [] => true
  | lo, (k, v) :: r => decide (lo ≤ k) && decide (v ≠ d) && cellWfFrom d (k + 1) r

/-- Memory is in its one canonical form: addresses strictly rising, no entry equal to what an unlisted address reads as.
 Log: DESIGN CHOICE 10. -/
def Memory.wf (m : List Host.Cell) : Bool := cellWfFrom 0 0 m

/-- `n` bytes from an address. -/
def cellRead (d : Byte) (m : List Host.Cell) (a n : Nat) : List Byte := (List.range n).map fun i => cellGet d m (a + i)

/-- Write bytes from an address on. -/
def cellWrite (d : Byte) : List Host.Cell → Nat → List Byte → List Host.Cell
  | m, _, [] => m
  | m, a, b :: r => cellWrite d (cellPut d m a b) (a + 1) r

/-! ## The idle clock -/

/-- With nothing commanded the core clock counts one cycle; the boundary itself is a command, so the count stops at 8,191 (R27).
 Log: DESIGN CHOICE 1. -/
def idleTick (s : State) : State :=
  if s.clk.locked && s.alive then { s with clk := { s.clk with cycle := min 8191 (s.clk.cycle + 1) } } else s

end Sys2Proof.Machine
end

