-- ==== Sys2Proof/Machine/Operands.lean ====
section
/-! DEFINITION. Operand forms: pool virtual addresses and tile map entries, physical lines, line handles, the frame header and its
CRC-64, message headers, LMC messages, route, binding and multicast entries, stream entries. -/

namespace Sys2Proof.Machine

/-! ## Addresses (R195, R208) -/

/-- The tile number of a pool virtual address. -/
def tileOf (va : Nat) : Nat := va / 2 ^ 21 % 2 ^ 27

/-- The line index within the tile. -/
def lineIdx (va : Nat) : Nat := va / 128 % 16384

/-- A physical tile's key among both tiers. -/
def tileKey (t : Tier) (phys : Nat) : Nat := t.bit * 2 ^ 22 + phys

/-- A physical line's key among both tiers. -/
def lineKey (t : Tier) (l : Nat) : Nat := t.bit * 2 ^ 36 + l

/-- The tweak of a line (R208). Log: PRESUMED 11. -/
def tweak (t : Tier) (l : Nat) : BitVec 128 := BitVec.ofNat 128 (lineKey t l)

/-- The fields of a tile map entry (Table 9.1). -/
structure TileEnt where
  valid     : Bool := true
  shared    : Bool := false
  readOnly  : Bool := false
  coherent  : Bool := false
  migrating : Bool := false
  tier      : Tier := .near
  keyT      : Nat := 0
  phys      : Nat := 0
  deriving DecidableEq, Repr

/-- Read a tile map entry (Table 9.1). -/
def tileEnt (w : BitVec 64) : TileEnt :=
  { valid := w.getLsbD 63, shared := w.getLsbD 62, readOnly := w.getLsbD 61, coherent := w.getLsbD 60
    migrating := w.getLsbD 59, tier := Tier.ofBit (w.getLsbD 58), keyT := w.toNat / 2 ^ 51 % 128, phys := w.toNat % 2 ^ 22 }

/-- Write a tile map entry (Table 9.1); an entry that is not VALID is stored as all zeros. -/
def tileEntWord (e : TileEnt) : BitVec 64 :=
  if e.valid then
    BitVec.ofNat 64 (2 ^ 63 + (if e.shared then 2 ^ 62 else 0) + (if e.readOnly then 2 ^ 61 else 0)
      + (if e.coherent then 2 ^ 60 else 0) + (if e.migrating then 2 ^ 59 else 0) + e.tier.bit * 2 ^ 58
      + e.keyT % 128 * 2 ^ 51 + e.phys % 2 ^ 22)
  else 0

/-- The active entry of a tenant's tile. -/
def State.tileAt (s : State) (t tile : Nat) : TileEnt := tileEnt (s.lookup (tileMapInst t) tile)

/-- The shadow entry of a tenant's tile. -/
def State.tileShadow (s : State) (t tile : Nat) : TileEnt := tileEnt (s.shadowAt (tileMapInst t) tile)

/-! ## Tables of the transport (Table 7.7) -/

/-- A route table entry. -/
structure RouteEnt where
  valid    : Bool
  lock     : Bool
  altValid : Bool
  alt      : Nat
  port     : Nat
  deriving DecidableEq, Repr

def routeEnt (w : BitVec 64) : RouteEnt :=
  { valid := w.getLsbD 31, lock := w.getLsbD 30, altValid := w.getLsbD 29, alt := w.toNat / 256 % 32, port := w.toNat % 32 }

/-- The active route to an endpoint. -/
def State.routeTo (s : State) (d : Nat) : RouteEnt := routeEnt (s.lookup routeInst d)

/-- The endpoint is bound to the port: its entry is VALID and the port's mask bit is set (check 1 of Table 7.4). -/
def State.bound (s : State) (d p : Nat) : Bool :=
  (s.lookup bindInst (2 * d + 1)).getLsbD 31 && (s.lookup bindInst (2 * d)).getLsbD p

/-- The endpoint is valid in the tenant's active admission list (R58). -/
def State.admitted (s : State) (t d : Nat) : Bool :=
  (s.inst (admInst t)).active.any fun (k, w) => decide (k < 64) && w.getLsbD 31 && decide (w.toNat % 4096 = d)

/-- A multicast group's word `i` (Table 7.6). -/
def State.mcWord (s : State) (g i : Nat) : Nat := (s.lookup mcInst (g * 16 + i)).toNat

/-- The group is VALID. -/
def State.mcValid (s : State) (g : Nat) : Bool := (s.mcWord g 1).testBit 31

/-- The sixteen words of a group's entry. -/
def State.mcEntry (s : State) (g : Nat) : List Nat := (List.range 16).map (s.mcWord g)

/-- A port of an entry's mask. -/
def mcHas (w : List Nat) (p : Nat) : Bool := (w.getD 0 0).testBit p

/-- The downstream group ID of port p in an entry. -/
def mcDown (w : List Nat) (p : Nat) : Nat := w.getD (8 + p / 4) 0 / 256 ^ (p % 4) % 256

/-- A stream's configuration word: VALID, TENANT, ENDPOINT. -/
def State.strCfg (s : State) (k : Nat) : BitVec 64 := s.lookup streamInst (2 * k)

/-- A stream's configured window and timeout. -/
def State.strWindow (s : State) (k : Nat) : Nat := (s.lookup streamInst (2 * k + 1)).toNat / 2 ^ 16 % 512
def State.strTimeout (s : State) (k : Nat) : Nat := (s.lookup streamInst (2 * k + 1)).toNat % 4096

/-- A stream table entry's two words. -/
def strCfgWord (tenant endpoint : Nat) : BitVec 64 := BitVec.ofNat 64 (2 ^ 31 + tenant * 2 ^ 24 + endpoint)
def strLimWord (window timeout : Nat) : BitVec 64 := BitVec.ofNat 64 (window * 2 ^ 16 + timeout)

/-! ## The frame (R138) -/

/-- One step of CRC-64/ECMA-182, not reflected. -/
def crc64Bit (c : BitVec 64) : BitVec 64 := if c.getLsbD 63 then (c <<< 1) ^^^ 0x42F0E1EBA9EA3693#64 else c <<< 1

def crc64Byte (c : BitVec 64) (b : Byte) : BitVec 64 :=
  let x := c ^^^ (b.setWidth 64 <<< 56)
  crc64Bit (crc64Bit (crc64Bit (crc64Bit (crc64Bit (crc64Bit (crc64Bit (crc64Bit x)))))))

/-- The CRC-64 of a frame: initial value all ones, exclusive-ored with all ones at the end (R138). -/
def crc64 (bs : List Byte) : BitVec 64 := (bs.foldl crc64Byte (BitVec.allOnes 64)) ^^^ BitVec.allOnes 64

/-- The header word of a frame (Table 6.5). -/
def hdrWord (h : FrameHdr) : BitVec 64 :=
  BitVec.ofNat 64 (h.ftype.toNat * 2 ^ 60 + h.seq.toNat * 2 ^ 48 + h.ack.toNat * 2 ^ 36 + (if h.ackValid then 2 ^ 35 else 0)
    + h.vc.toNat * 2 ^ 32 + h.len.toNat * 2 ^ 27 + h.crdVc.toNat * 2 ^ 24 + h.crdCount.toNat * 2 ^ 16 + h.low.toNat)

/-- The bytes the CRC covers: header and payload (R138). -/
def frameBytes (f : Frame) : List Byte := leBytes 8 (hdrWord f.hdr).toNat ++ f.payload

/-- The frame passes its CRC (R143). -/
def crcOk (f : Frame) : Bool := decide (f.payload.length = 256) && decide (f.trailer = crc64 (frameBytes f))

/-- The frame with its CRC-64 computed (R138). -/
def sealFrame (f : Frame) : Frame := { f with trailer := crc64 (frameBytes f) }

/-- A payload of 256 bytes: flits beyond the message are zero (R138). -/
def padPayload (bs : List Byte) : List Byte := (bs ++ List.replicate 256 0).take 256

/-- The frame is malformed (R139). -/
def malformed (h : FrameHdr) : Bool :=
  decide (3 < h.ftype.toNat) || decide (4 < h.vc.toNat) || decide (4 < h.crdVc.toNat)
    || decide (h.len.toNat = 0 ∨ 16 < h.len.toNat)
    || (if h.ftype = 0 then decide (3 < h.vc.toNat) else decide (h.vc.toNat ≠ 4))

/-! ## Messages (R157, R158) -/

/-- The class an opcode belongs to; none where it is reserved for every class (Table 7.3). -/
def opClass (op : Nat) : Option MsgClass :=
  if op = 0 then none
  else if op < 0x20 then some .req
  else if op < 0x40 then some .snp
  else if op < 0x60 then some .rsp
  else if op < 0x80 then some .dat
  else none

/-- The opcode is defined for its class (Tables 7.3, 11.2). -/
def opDefined (op : Nat) : Bool :=
  decide (1 ≤ op ∧ op ≤ 9) || decide (0x20 ≤ op ∧ op ≤ 0x22) || decide (0x40 ≤ op ∧ op ≤ 0x45)
    || decide (0x60 ≤ op ∧ op ≤ 0x68)

/-- A message of a class other than REQ is reserved when its opcode is reserved or outside its class (R158). -/
def opReserved (c : MsgClass) (op : Nat) : Bool := !(decide (opClass op = some c) && opDefined op)

/-- The bytes of a message of a class: a REQ has the header of Table 7.1 whatever its opcode, every other class that of Table 7.2, with
at most 8 data flits after it (R157). -/
def msgBytes (c : MsgClass) (m : Msg) : List Byte :=
  if c = .req then
    [m.opcode, m.aux] ++ leBytes 2 m.dst.toNat ++ leBytes 2 m.src.toNat ++ [m.tenant.setWidth 8, m.group]
      ++ leBytes 2 m.stream.toNat ++ leBytes 2 m.rseq.toNat ++ leBytes 4 m.len.toNat ++ leBytes 6 m.addr.toNat
      ++ (m.opargs ++ List.replicate 10 0).take 10
  else
    [m.opcode, m.aux] ++ leBytes 2 m.dst.toNat ++ leBytes 2 m.src.toNat ++ [m.tenant.setWidth 8, 0]
      ++ leBytes 2 m.stream.toNat ++ leBytes 2 m.rseq.toNat ++ leBytes 4 m.len.toNat ++ m.data.take 128

/-- The valid flits of so many bytes. -/
def flitsOf (n : Nat) : Nat := (n + 15) / 16

/-- A message of a class as it is queued for a port, on that class's virtual channel (R157). -/
def msgItemAs (c : MsgClass) (m : Msg) : TxItem :=
  { vc := c.vc, bytes := msgBytes c m, flits := flitsOf (msgBytes c m).length, msg := m }

/-- A message of the node's own, of the class its opcode belongs to. -/
def msgItem (m : Msg) : TxItem := msgItemAs ((opClass m.opcode.toNat).getD .rsp) m

/-- A DAT message holds at most 8 data flits (R157). -/
def trimMsg (m : Msg) : Msg := { m with data := m.data.take 128 }

/-- A REQ's UNIQUE flag (Table 7.1). -/
def msgUnique (m : Msg) : Bool := m.aux.getLsbD 0

/-- A REQ's page hint (R228). -/
def msgHint (m : Msg) : BitVec 2 := BitVec.ofNat 2 (m.aux.toNat / 2)

/-- The request is non-idempotent (Table 7.3). -/
def msgNonIdem (m : Msg) : Bool :=
  decide (m.opcode = 8) || ((decide (m.opcode = 4) || decide (m.opcode = 5)) && msgUnique m)

/-- The request is of the write class (R199). -/
def msgWriteClass (m : Msg) : Bool :=
  decide (m.opcode = 2 ∨ m.opcode = 4 ∨ m.opcode = 5 ∨ m.opcode = 6 ∨ m.opcode = 8)

/-- Bytes of write data that follow the REQ (R158, R254): AT_OP carries its operands, WB_DIRTY and the writes their line data. -/
def msgDataLen (m : Msg) : Nat :=
  if m.opcode = 4 then m.len.toNat
  else if m.opcode = 5 ∨ m.opcode = 6 then 128
  else if m.opcode = 8 then (if m.len.toNat = 16 then 32 else 16)
  else 0

/-- LEN is in the range Table 7.3 allows for the opcode, and the address is aligned as the opcode needs (R158, R254). -/
def msgLenOk (m : Msg) : Bool :=
  let n := m.len.toNat
  let a := m.addr.toNat
  if m.opcode = 3 ∨ m.opcode = 9 then decide (1 ≤ n ∧ n ≤ 4096)
  else if m.opcode = 4 then decide (128 ≤ n ∧ n ≤ 4096 ∧ n % 128 = 0 ∧ a % 128 = 0)
  else if m.opcode = 8 then decide ((n = 4 ∨ n = 8 ∨ n = 16) ∧ a % n = 0)
  else decide (n = 128 ∧ a % 128 = 0)

/-- The range crosses the end of its tile (R158). -/
def msgCrosses (m : Msg) : Bool := decide (2 ^ 21 < m.addr.toNat % 2 ^ 21 + m.len.toNat)

/-! ## Line handles (R246, R252) -/

def slices : Nat := 32
def setsPerSlice : Nat := 49152

/-- The slice of a physical line (R246). -/
def sliceOf (l : Nat) : Nat := (l % 32) ^^^ (l / 32 % 32)

/-- The set of a physical line within its slice (R246). -/
def setOf (l : Nat) : Nat := l / 32 % setsPerSlice

/-- The number of a line's set over all slices. -/
def setKey (l : Nat) : Nat := sliceOf l * setsPerSlice + setOf l

/-- The handle of a way's slot number (R252). -/
def handleOf (slot : Nat) : Nat :=
  slot / (setsPerSlice * 16) * 2 ^ 20 + slot / 16 % setsPerSlice * 16 + slot % 16

/-- The slot number a handle names; none where it names no way. -/
def slotOfHandle (h : Nat) : Option Nat :=
  let set := h / 16 % 65536
  if h < 2 ^ 25 ∧ set < setsPerSlice then some ((h / 2 ^ 20 * setsPerSlice + set) * 16 + h % 16) else none

/-! ## LMC messages (R140, Table 7.5) -/

/-- The first flit of a CLAIM or ANNOUNCE. -/
def claimBytes (typ : Byte) (c : Claim) : List Byte := [typ, c.prio, 0, 0] ++ leBytes 4 c.nonce.toNat ++ leBytes 8 c.serial.toNat

/-- The first flit of JOIN. -/
def joinBytes (kind : Byte) (serial : BitVec 64) : List Byte := [0x12, kind, 0, 0, 0, 0, 0, 0] ++ leBytes 8 serial.toNat

/-- The first flit of ASSIGN. -/
def assignBytes (ep : Nat) (serial : BitVec 64) : List Byte := [0x13, 0] ++ leBytes 2 ep ++ [0, 0, 0, 0] ++ leBytes 8 serial.toNat

/-- The first flit of ROUTE_PUB. -/
def routePubBytes (dst port alt : Nat) (altValid withdraw last : Bool) (serial : BitVec 64) : List Byte :=
  [0x14, 0] ++ leBytes 2 dst ++ [BitVec.ofNat 8 port, BitVec.ofNat 8 alt,
    BitVec.ofNat 8 ((if altValid then 1 else 0) + (if withdraw then 2 else 0) + (if last then 4 else 0)), 0] ++ leBytes 8 serial.toNat

/-- The first flit of PARAMS (Table 6.4). -/
def paramsBytes (q : Params) : List Byte :=
  [0x01, q.modeReq] ++ leBytes 2 q.window.toNat ++ leBytes 2 q.epoch.toNat ++ leBytes 2 q.rxNext.toNat ++ [q.isSealed] ++ List.replicate 7 0

/-- An LMC message queued for VC4. -/
def lmcItem (bs : List Byte) : TxItem := { vc := 4, bytes := bs, flits := flitsOf bs.length, lmc := true }

end Sys2Proof.Machine
end

