-- ==== Sys2Proof/Machine/Memory.lean ====
section
/-! DEFINITION. Pool memory below translation: where a line lies, the line cipher, poison and the bog list, the free pool, the
controllers' queues, and the migration trackers. -/

namespace Sys2Proof.Machine

/-! ## Where a line lies (R223 to R225) -/

/-- The full order of a tier's channels (R223). -/
def fullOrder : Tier → List Nat
  | .near => (List.range 256).map fun p => p % 8 * 32 + p / 8
  | .bulk => (List.range 16).map fun p => p % 2 * 8 + p / 2

/-- The granule of the interleave in lines (R224). -/
def granule : Tier → Nat
  | .near => 8
  | .bulk => 4

/-- A channel's key among both tiers. -/
def chanKey (t : Tier) (ch : Nat) : Nat := t.bit * 256 + ch

/-- The channel of a physical line and its local line number (R224). -/
def placeLine (s : State) (t : Tier) (l : Nat) : Nat × Nat :=
  let o := (s.tier t).order
  let g := l / granule t
  (o.getD (g % o.length) 0, g / o.length * granule t + l % granule t)

/-- The ranks of a channel, or the stack IDs of an HBM4 channel (Table 10.3). -/
def ranksOf (s : State) (t : Tier) (ch : Nat) : Nat :=
  match t with
  | .near => 4
  | .bulk => max 1 (s.chan (chanKey .bulk ch)).ranks

/-- A line's rank key, bank key and row (Table 10.3). -/
def locate (s : State) (t : Tier) (l : Nat) : Nat × Nat × Nat :=
  let (ch, n) := placeLine s t l
  let c := chanKey t ch
  match t with
  | .near => (c * 8 + n / 256 % 4, (c * 8 + n / 256 % 4) * 32 + n / 16 % 16, n / 1024)
  | .bulk =>
    let r := ranksOf s t ch
    (c * 8 + n / 4096 % r, (c * 8 + n / 4096 % r) * 32 + n / 128 % 32, n / (4096 * r))

def State.bank (s : State) (k : Nat) : Bank := Tbl.get {} s.dram.banks k
def State.setBank (s : State) (k : Nat) (x : Bank) : State := { s with dram := { s.dram with banks := Tbl.put {} s.dram.banks k x } }
def State.rank (s : State) (k : Nat) : Rank := Tbl.get {} s.dram.ranks k
def State.setRank (s : State) (k : Nat) (x : Rank) : State := { s with dram := { s.dram with ranks := Tbl.put {} s.dram.ranks k x } }

/-- The channel of a line of a tier. -/
def lineChan (s : State) (t : Tier) (l : Nat) : Nat := chanKey t (placeLine s t l).1

/-- The scheduler of a line's channel has a token left (R384). -/
def dramToken (s : State) (t : Tier) (l : Nat) : Bool := tokenLeft s (1000 + lineChan s t l) (Tbl.get 0 s.dram.spent (lineChan s t l))

/-- The scheduler admits one access. -/
def dramSpend (t : Tier) (l : Nat) (s : State) : State :=
  { s with dram := { s.dram with spent := Tbl.put 0 s.dram.spent (lineChan s t l) (Tbl.get 0 s.dram.spent (lineChan s t l) + 1) } }

/-- What an access leaves of its bank's row (Table 10.4), the time its rank was last asked (R231), and its token spent (R384). `q` are the
requests still queued. -/
def touch (t : Tier) (l policy : Nat) (q : List MemOp) (s : State) : State :=
  let (rk, bk, row) := locate s t l
  let hit := q.any fun o => decide (o.tier = t) && decide (locate s t o.line = (rk, bk, row))
  let open' := if policy = 2 then none else if policy = 3 && !hit then none else some row
  dramSpend t l ((s.setBank bk { s.bank bk with row := open', keep := decide (policy = 1), at_ := ageNow s }).setRank rk
    { s.rank rk with lastReq := s.clk.now, down := false })

/-- The row that a bank holds open: one that hint 0b01 keeps is closed after OPEN_TMO without a hit (Table 10.4). -/
def openRow (s : State) (t : Tier) (bk : Nat) : Option Nat :=
  let b := s.bank bk
  if b.keep && decide (b.at_ + 64 * bits (s.tier t).cfg 23 16 ≤ ageNow s) then none else b.row

/-- The page policy of a hint: 0b00 takes the PAGE_POLICY of the requester's partition (Table 10.4). -/
def policyOf (s : State) (hint part : Nat) : Nat := if hint = 0 then (s.part part).pagePolicy else hint

/-! ## The line cipher and stored bytes (R208) -/

/-- The stored codeword's data bytes of a line: ciphertext. Log: DESIGN CHOICE 10. -/
def State.stored (s : State) (t : Tier) (l : Nat) : Line := Vector.ofFn fun i => cellGet 0 s.dram.mem (lineKey t l * 128 + i.val)

/-- Replace the stored bytes of a line. -/
def State.putStored (s : State) (t : Tier) (l : Nat) (x : Line) : State :=
  { s with dram := { s.dram with mem := cellWrite 0 s.dram.mem (lineKey t l * 128) x.toList } }

/-- The key in a tenant's key slot; a zeroised slot holds zeros (R207). -/
def State.keyOf (s : State) (t : Nat) : BitVec 512 := (s.tenant t).key.getD 0

/-- The plaintext of a stored line under a tenant's key (R208). -/
def State.plain (s : State) (kt : Nat) (t : Tier) (l : Nat) : Line := (xts (s.keyOf kt) (tweak t l)).symm (s.stored t l)

/-- The line holds the poison codeword (R215). -/
def State.poisoned (s : State) (t : Tier) (l : Nat) : Bool := Tbl.get false s.dram.poison (lineKey t l)

def State.setPoison (s : State) (t : Tier) (l : Nat) (b : Bool) : State :=
  { s with dram := { s.dram with poison := Tbl.put false s.dram.poison (lineKey t l) b } }

/-- Merge bytes into a line at an offset. -/
def mergeLine (x : Line) (off : Nat) (d : List Byte) : Line :=
  Vector.ofFn fun i => if off ≤ i.val ∧ i.val < off + d.length then d.getD (i.val - off) 0 else x[i]

/-- A line from a byte list. -/
def lineOf (d : List Byte) : Line := Vector.ofFn fun i => d.getD i.val 0

/-! ## The free pool (R202) -/

/-- Tiles of a tier that its channels hold (R224); a tile number has 22 bits (Table 9.1). Log: DESIGN CHOICE 43. -/
def tierTiles (s : State) : Tier → Nat
  | .near => min s.til.nearAll (2 ^ 22)
  | .bulk => min s.til.bulkAll (2 ^ 22)

/-- The physical tile is in the free pool. -/
def isFree (s : State) (t : Tier) (p : Nat) : Bool := decide (p < tierTiles s t) && decide (s.use (tileKey t p) = .free)

/-- Tiles in a tier's free pool. -/
def freeCount (s : State) (t : Tier) : Nat :=
  tierTiles s t - (s.til.uses.filter fun (k, _) => decide (k / 2 ^ 22 = t.bit)).length

/-- Look for a free tile among `n` tiles from the start on, cyclically. Log: DESIGN CHOICE 43. -/
def seekFree (s : State) (t : Tier) (start : Nat) : Nat → Option Nat
  | 0 => none
  | n + 1 =>
    let p := (start + n) % tierTiles s t
    if isFree s t p then some p else seekFree s t start n

/-- A free tile of a tier; which one is open (R202). Log: DESIGN CHOICE 43. -/
def pickFree (s : State) (t : Tier) : Option Nat := seekFree s t (Config.tilePick s.serialNo) (tierTiles s t)

/-- The tier count of NID_NEAR_TILES or NID_BULK_TILES falls by 1 (R217, R218). -/
def dropTile (t : Tier) (s : State) : State :=
  match t with
  | .near => { s with nid := { s.nid with near := s.nid.near - 1 } }
  | .bulk => { s with nid := { s.nid with bulk := s.nid.bulk - 1 } }

/-- Count a partition's mapped tiles of a tier up or down (R202, R203). -/
def addUsed (p : Nat) (t : Tier) (up : Bool) (s : State) : State :=
  let x := s.part p
  s.setPart p (match t with
    | .near => { x with nearUsed := if up then x.nearUsed + 1 else x.nearUsed - 1 }
    | .bulk => { x with bulkUsed := if up then x.bulkUsed + 1 else x.bulkUsed - 1 })

/-- An event that needs a tile of a sleeping tier wakes the tier (R232). Log: DEDUCED 50. -/
def wakeTier (t : Tier) (s : State) : State :=
  if (s.tier t).asleep then s.setTier t { s.tier t with waking := true } else s

/-- A command that caused a wake is answered after it (R232). -/
def answerAwake (ts : List Tier) (o : Owed) (fields : List Byte) (s : State) : State :=
  match ts.find? fun t => (s.tier t).waking with
  | some t => s.setTier t { s.tier t with owed := (s.tier t).owed ++ [(o, fields)] }
  | none => answer o .ok fields s

/-- A tile enters use for a tenant: the partition's count follows, and a sleeping tier wakes. -/
def takeTile (t : Tier) (p tenant part : Nat) (s : State) : State :=
  wakeTier t (addUsed part t true ({ s with serialNo := s.serialNo + 1 }.setUse (tileKey t p) (.owned tenant part)))

/-- A tile leaves use: back to the free pool, or retired (R203, R218). -/
def dropUse (t : Tier) (p : Nat) (retire : Bool) (s : State) : State :=
  let s := match s.use (tileKey t p) with
    | .owned _ part => addUsed part t false s
    | _ => s
  if retire then
    let s := dropTile t (s.setUse (tileKey t p) .retired)
    match t with
    | .near => { s with til := { s.til with retNear := sat32 s.til.retNear 1 } }
    | .bulk => { s with til := { s.til with retBulk := sat32 s.til.retBulk 1 } }
  else s.setUse (tileKey t p) .free

/-- An entry names a physical tile. -/
def entNames (t : Tier) (p : Nat) (w : BitVec 64) : Bool :=
  let e := tileEnt w
  e.valid && decide (e.tier = t) && decide (e.phys = p)

/-- An active or retired generation of some tile map names the tile (R203). -/
def namedActive (s : State) (t : Tier) (p : Nat) : Bool :=
  s.insts.any fun (i, x) => decide (i < 128) &&
    (x.active.any (fun e => entNames t p e.2) || (x.retired && x.old.any (fun e => entNames t p e.2)))

/-- A shadow of some tile map names the tile. -/
def namedShadow (s : State) (t : Tier) (p : Nat) : Bool :=
  s.insts.any fun (i, x) => decide (i < 128) && x.shadow.any (fun e => entNames t p e.2)

/-- A live tracker has the tile as source or destination. -/
def inMigration (s : State) (t : Tier) (p : Nat) : Bool :=
  s.til.migs.any fun (_, m) => decide (m.state ≠ 0) &&
    ((decide (m.srcTier = t) && decide (m.src = p)) || (decide (m.dstTier = t) && decide (m.dst = p)))

/-- The owner of a physical tile and its tile number, by one copy of the maps. -/
def ownerIn (t : Tier) (p : Nat) (copy : Inst → Tbl (BitVec 64)) (s : State) : Option (Nat × Nat) :=
  s.insts.findSome? fun (i, x) =>
    if i < 128 then
      ((copy x).find? fun e => entNames t p e.2 && !(tileEnt e.2).shared).map fun e => (i, e.1)
    else none

/-- The owner of a mapped physical tile: by the active copies, or by a shadow that has not flipped yet (R218). -/
def findOwner (s : State) (t : Tier) (p : Nat) : Option (Nat × Nat) := (ownerIn t p Inst.active s).or (ownerIn t p Inst.shadow s)

/-! ## Migration trackers (R198, R211 to R213) -/

/-- Change every entry of every tile map, in the active and shadow copies at once, that names a physical tile (R198). -/
def mapBoth (t : Tier) (p : Nat) (f : TileEnt → TileEnt) (s : State) : State :=
  let g := fun (_ : Nat) (w : BitVec 64) => if entNames t p w then tileEntWord (f (tileEnt w)) else w
  { s with insts := mapTbl {} (fun i x => if i < 128 then { x with active := mapTbl 0 g x.active, shadow := mapTbl 0 g x.shadow } else x) s.insts }

/-- Mark a write accepted at a tracked source tile (R213). Log: DESIGN CHOICE 45. -/
def markDirty (t : Tier) (l : Nat) (s : State) : State :=
  let f := fun (_ : Nat) (m : Mig) =>
    if m.state ≠ 0 ∧ m.srcTier = t ∧ m.src = l / 16384 ∧ l % 16384 / 32 ∉ m.dirty then { m with dirty := m.dirty ++ [l % 16384 / 32] } else m
  { s with til := { s.til with migs := mapTbl {} f s.til.migs } }

/-- The tracker that holds accesses to a line at its gate: the line's block of the destination is still dirty (Table 9.3, step 5). -/
def gateOf (s : State) (t : Tier) (l : Nat) : Option Nat :=
  (s.til.migs.find? fun (_, m) => decide (2 ≤ m.state) && decide (m.dstTier = t) && decide (m.dst = l / 16384)
    && decide (l % 16384 / 32 ∈ m.dirty)).map Prod.fst

/-! ## The bog list (R215 to R218) -/

/-- The tile is one of the bog list's overflow tiles. -/
def isOverflow (s : State) (t : Tier) (p : Nat) : Bool := decide (t = .near) && s.til.overflow.contains p

/-- Records of a tile that are neither INHERITED nor CLEARED (R218). -/
def liveBogs (s : State) (t : Tier) (p : Nat) : Nat :=
  (s.til.bogs.filter fun b => decide (b.tier = t) && decide (b.line / 16384 = p) && !b.inherited && !b.cleared).length

/-- Records are lost, counted and logged (R217, R393). Log: DEDUCED 46. -/
def bogLost (n : Nat) (s : State) : State :=
  if n = 0 then s
  else recordFault { code := 0x61, scope := 1, event := some 0x161, detail := BitVec.ofNat 64 n }
    { s with til := { s.til with bogLost := sat32 s.til.bogLost n } }

/-- A record that finds no room is lost and sets BOG_LOST (R217). Log: DEDUCED 46. -/
def bogNoRoom (s : State) : State := bogLost 1 { s with til := { s.til with status := setBit s.til.status 2 } }

/-- Append a record; for a full list the MRP takes an overflow tile, at most 4; a record that finds no room then is lost (R22, R217).
Log: DEDUCED 46. -/
def pushBog (b : Bog) (s : State) : State :=
  if s.til.bogs.length < 4096 + s.til.overflow.length * 131072 then { s with til := { s.til with bogs := s.til.bogs ++ [b] } }
  else if 4 ≤ s.til.overflow.length || !procWorks s .mrp then bogNoRoom s
  else
    match pickFree s .near with
    | none => bogNoRoom s
    | some p =>
      let s := wakeTier .near (dropTile .near ({ s with serialNo := s.serialNo + 1 }.setUse (tileKey .near p) .overflow))
      { s with til := { s.til with bogs := s.til.bogs ++ [b], overflow := s.til.overflow ++ [p], status := setBit s.til.status 1 } }

/-- The record of a line poisoned now: the tenant whose key encrypts the tile, or the unmapped mark (Table 9.5). -/
def bogRec (s : State) (t : Tier) (l source : Nat) (inherited : Bool) : Bog :=
  match s.use (tileKey t (l / 16384)) with
  | .owned k _ => { tier := t, line := l, tenant := k, inherited, source, course := s.course }
  | _ => { tier := t, line := l, tenant := 0, unmapped := true, inherited, source, course := s.course }

/-- The records that a line of an overflow tile holds are lost with it (R217). Log: DEDUCED 46. -/
def loseBogsIn (t : Tier) (l : Nat) (s : State) : State :=
  match s.til.overflow.findIdx? (· = l / 16384) with
  | none => s
  | some j =>
    if t = .near then
      let lo := 4096 + j * 131072 + l % 16384 * 8
      let keep := s.til.bogs.take lo ++ s.til.bogs.drop (lo + 8)
      bogLost (s.til.bogs.length - keep.length) { s with til := { s.til with bogs := keep } }
    else s

/-- The line is read or written anew: what an engine's last read of it met is past. -/
def forgetPassed (t : Tier) (l : Nat) (s : State) : State :=
  { s with dram := { s.dram with passed := s.dram.passed.filter fun e => decide (e.1 ≠ lineKey t l) } }

/-- Write a line in full under a tenant's key: poison is cleared, and its records' CLEARED bits set (R208, R216). Log: DEDUCED 47. -/
def writeLine (kt : Nat) (t : Tier) (l : Nat) (x : Line) (s : State) : State :=
  let s := markDirty t l (forgetPassed t l ((s.putStored t l (xts (s.keyOf kt) (tweak t l) x)).setPoison t l false))
  { s with til := { s.til with bogs := s.til.bogs.map fun b => if b.tier = t ∧ b.line = l then { b with cleared := true } else b } }

/-- The poison codeword is written into a line without a record (R218, R262). Log: DEDUCED 47. -/
def poisonLine (t : Tier) (l : Nat) (s : State) : State := loseBogsIn t l (markDirty t l (s.setPoison t l true))

/-- A free migration tracker (R211). -/
def freeMig (s : State) : Option Nat := (List.range 16).find? fun k => decide ((s.mig k).state = 0)

/-- Copy one line from source to destination: plaintext moves under the new tweak, and a poisoned line is poisoned at the destination with
an INHERITED record (R218). Both accesses are the MRP's, with hint 0b11 (R228, R231). Log: DEDUCED 47. -/
def copyLine (m : Mig) (i : Nat) (s : State) : State :=
  let a := m.src * 16384 + i
  let b := m.dst * 16384 + i
  let s := touch m.dstTier b 3 s.dram.queue (touch m.srcTier a 3 s.dram.queue s)
  if s.poisoned m.srcTier a then pushBog (bogRec s m.dstTier b 0 true) (poisonLine m.dstTier b s)
  else writeLine m.tenant m.dstTier b (s.plain m.tenant m.srcTier a) s

/-- Log: DESIGN CHOICE 45. -/
def copyBlock (m : Mig) (blk : Nat) (s : State) : State := (List.range 32).foldl (fun s i => copyLine m (blk * 32 + i) s) s

/-- Run a copy pass over blocks, clearing each block's dirty bit first (Table 9.3, steps 2 and 3). Log: DESIGN CHOICE 45. -/
def copyPass (k : Nat) (blks : List Nat) (s : State) : State :=
  let m := s.mig k
  blks.foldl (fun s b => copyBlock m b s) (s.setMig k { m with dirty := m.dirty.filter (fun b => !blks.contains b), copied := m.copied + blks.length * 4096 })

/-- A tier's controllers serve accesses: it is awake and not moving to another rate (R232, R233). -/
def tierRuns (s : State) (t : Tier) : Bool :=
  !(s.tier t).asleep && !(s.tier t).waking && (s.tier t).moving.isNone

/-- The controllers of a migration's two tiers serve it. -/
def migRuns (s : State) (m : Mig) : Bool := tierRuns s m.srcTier && tierRuns s m.dstTier

/-- The first pass, or its wait for a tier or for the MRP (Table 9.3, step 2; R22, R232). -/
def firstPass (k : Nat) (s : State) : State :=
  let m := s.mig k
  if migRuns s m && procWorks s .mrp then copyPass k (List.range 512) (s.setMig k { m with parked := false }) else s.setMig k { m with parked := true }

/-- First passes that waited for a tier begin. -/
def startParked (s : State) : State :=
  (List.range 16).foldl (fun s k => if (s.mig k).state = 1 ∧ (s.mig k).parked then firstPass k s else s) s

/-- Accept a migration: destination taken, MIGRATING set, tracker armed, first pass begun (Table 9.3, steps 1 and 2). -/
def startMig (k tenant tile : Nat) (srcTier : Tier) (src : Nat) (dstTier : Tier) (dst : Nat) (retire : Bool)
    (cmd : Option (QId × BitVec 16)) (s : State) : State :=
  let s := takeTile dstTier dst tenant (s.tenant tenant).part s
  let s := mapBoth srcTier src (fun e => { e with migrating := true }) s
  firstPass k (s.setMig k { state := 1, tenant, tile, srcTier, src, dstTier, dst, retire, bogged := retire, cmd })

/-- A tile with 16 live records: migrated within its tier, else to the other, retired at once when not mapped, or left for a later
try when no tile or tracker is free or the MRP pauses (R22, R218). Log: DEDUCED 47. -/
def bogTile (t : Tier) (p : Nat) (s : State) : State :=
  if isOverflow s t p || decide (s.use (tileKey t p) = .retired) || decide (liveBogs s t p < 16) then s
  else
    let f := fun (_ : Nat) (m : Mig) => if m.state ≠ 0 ∧ m.srcTier = t ∧ m.src = p then { m with bogged := true } else m
    let s := { s with til := { s.til with migs := mapTbl {} f s.til.migs } }
    if inMigration s t p then s
    else
      match s.use (tileKey t p), findOwner s t p with
      | .free, _ =>
        recordFault { code := 0x60, scope := 1, event := some 0x160, detail := BitVec.ofNat 64 (tileKey t p) } (dropUse t p true s)
      | _, none => s
      | _, some (ten, tile) =>
        let other := match t with | .near => Tier.bulk | .bulk => Tier.near
        if !procWorks s .mrp then s
        else match freeMig s, pickFree s t, pickFree s other with
        | some k, some q, _ => startMig k ten tile t p t q true none s
        | some k, none, some q => startMig k ten tile t p other q true none s
        | _, _, _ => s

/-- TILE_BOGGED is logged when the tile's sixteenth live record is made. -/
def logBogged (t : Tier) (p : Nat) (s : State) : State :=
  match s.use (tileKey t p) with
  | .owned k part =>
    recordFault { code := 0x60, scope := 1, event := some 0x160, part := BitVec.ofNat 8 part, tenant := BitVec.ofNat 8 k
                  detail := BitVec.ofNat 64 (tileKey t p) } s
  | _ => s

/-- Try again every bogged tile that is still mapped and not moving (R218). -/
def retryBogs (s : State) : State :=
  (s.til.bogs.map fun b => (b.tier, b.line / 16384)).eraseDups.foldl (fun s tp =>
    match s.use (tileKey tp.1 tp.2) with
    | .owned _ _ => bogTile tp.1 tp.2 s
    | _ => s) s

/-- Add a record and act on the tile it fills. Log: DEDUCED 47. -/
def addBog (t : Tier) (l source : Nat) (s : State) : State :=
  let before := liveBogs s t (l / 16384)
  let s := pushBog (bogRec s t l source false) s
  if before < 16 ∧ 16 ≤ liveBogs s t (l / 16384) then bogTile t (l / 16384) (logBogged t (l / 16384) s) else s

/-- A line is newly poisoned under R215: poison codeword, bog record, LINE_POISON. Log: DEDUCED 47. -/
def newPoison (t : Tier) (l source : Nat) (s : State) : State :=
  let (ch, _) := placeLine s t l
  let s := addBog t l source (poisonLine t l s)
  let f : FaultSpec := { code := 0x70, scope := 0, event := some 0x170, object := BitVec.ofNat 16 ch, detail := BitVec.ofNat 64 (lineKey t l) }
  match s.use (tileKey t (l / 16384)) with
  | .owned k part => recordFault { f with part := BitVec.ofNat 8 part, tenant := BitVec.ofNat 8 k } s
  | _ => recordFault f s

/-- Write data arrives marked poisoned: the line is newly poisoned, unless it was poisoned before (R215). Log: DEDUCED 47. -/
def poisonWrite (t : Tier) (l : Nat) (s : State) : State := if s.poisoned t l then markDirty t l s else newPoison t l 2 s

/-! ## Reading a codeword (R238 to R241) -/

/-- The outcome of a line read (Table 10.5). -/
inductive ReadOut where
  | clean
  | corrected (dev : Bool)
  | poison
  | uncorrectable
  | garbled (x : Line) (fix : Bool)
  deriving DecidableEq, Repr

/-- Decode a line with the errors its read met. Log: DESIGN CHOICE 53. -/
def decodeRead (t : Tier) (poisoned : Bool) (e : EccErr) : ReadOut :=
  let fail (detect : Bool) : ReadOut :=
    match e.garbled with
    | some x => if detect then .uncorrectable else .garbled x e.miscorrected
    | none => .uncorrectable
  match t with
  | .near =>
    if poisoned then (if e.sym0 ≤ 1 ∧ e.sym1 ≤ 1 then .poison else fail false)
    else if (2 ≤ e.sym0 ∧ e.sym0 ≤ 3) ∨ (2 ≤ e.sym1 ∧ e.sym1 ≤ 3) then fail true
    else if 3 < e.sym0 ∨ 3 < e.sym1 then fail false
    else if e.sym0 = 0 ∧ e.sym1 = 0 then .clean
    else .corrected false
  | .bulk =>
    if poisoned then (if e.sym0 ≤ 4 then .poison else fail false)
    else if 4 < e.sym0 ∧ e.sym0 ≤ 12 then fail true
    else if 12 < e.sym0 then fail false
    else if e.sym0 = 0 then .clean
    else .corrected (decide (2 ≤ e.sym0))

/-- When the count of a channel's window has reached CE_THRESH while its SUSPECT bit is 0, the channel is reported (R237).
 Log: DEDUCED 52. -/
def suspectCheck (t : Tier) (ch : Nat) (s : State) : State :=
  let c := s.chan (chanKey t ch)
  let th := (s.tier t).thresh.toNat % 65536
  if th ≠ 0 ∧ th ≤ c.window ∧ !c.suspect then
    let s := s.setChan (chanKey t ch) { c with suspect := true }
    let s := s.setTier t { s.tier t with status := setBit (s.tier t).status 2 }
    recordFault { code := 0x31, scope := 5, event := some 7, object := BitVec.ofNat 16 ch, detail := BitVec.ofNat 64 (t.bit + th * 2) } s
  else s

/-- A corrected error is counted, in its window too (R237). Log: DEDUCED 52. -/
def countCe (t : Tier) (ch : Nat) (dev : Bool) (s : State) : State :=
  let c := s.chan (chanKey t ch)
  suspectCheck t ch (s.setChan (chanKey t ch) { c with
    ce := sat32 c.ce 1, devcorr := if dev && decide (t = .bulk) then sat32 c.devcorr 1 else c.devcorr, window := c.window + 1 })

/-- A write to the line is queued: a corrected codeword is not written back (R240). -/
def writeWaits (s : State) (t : Tier) (l : Nat) : Bool := s.dram.queue.any fun o => o.write && decide (o.tier = t) && decide (o.line = l)

/-- Read one codeword at the controller: the counters, the write-back, the poisoning (Table 10.5). Answers what is delivered.
 Log: DEDUCED 47, DESIGN CHOICE 53. -/
def readCodeword (t : Tier) (l source : Nat) (e : EccErr) (s : State) : ReadOut × State :=
  let (ch, _) := placeLine s t l
  let k := chanKey t ch
  let s := if t = .near ∧ e.odecc ≠ 0 then s.setChan k { s.chan k with odecc := sat32 (s.chan k).odecc e.odecc } else s
  let o := decodeRead t (s.poisoned t l) e
  match o with
  | .clean => (o, s)
  | .poison => (o, s)
  | .corrected d => (o, countCe t ch d s)
  | .uncorrectable => (o, newPoison t l source (s.setChan k { s.chan k with ue := sat32 (s.chan k).ue 1 }))
  | .garbled x fix =>
    let back := fun (s : State) => if writeWaits s t l then s else (s.putStored t l x).setPoison t l false
    (o, if fix then countCe t ch false (back s) else s)

/-- What a read delivers: the plaintext, or nothing where it is poison. -/
def delivered (kt : Nat) (t : Tier) (l : Nat) (o : ReadOut) (s : State) : Option Line :=
  match o with
  | .poison => none
  | .uncorrectable => none
  | .garbled x _ => some ((xts (s.keyOf kt) (tweak t l)).symm x)
  | _ => some (s.plain kt t l)

/-! ## Access by the node's own engines and processors: the codeword as it stands -/

/-- A line as an engine reads it now: none where it is poisoned; wrong data where its codeword passed as valid (R241).
 Log: DESIGN CHOICE 97. -/
def readNow (kt : Nat) (t : Tier) (l : Nat) (s : State) : Option Line :=
  match s.dram.passed.find? fun e => decide (e.1 = lineKey t l) with
  | some e => some ((xts (s.keyOf kt) (tweak t l)).symm e.2)
  | none => if s.poisoned t l then none else some (s.plain kt t l)

/-- Write bytes of one line now: a full line always, a partial line only where the line is not poisoned (R209, R216). -/
def writeNow (kt : Nat) (t : Tier) (l off : Nat) (d : List Byte) (s : State) : Option State :=
  if off = 0 ∧ d.length = 128 then some (writeLine kt t l (lineOf d) s)
  else if s.poisoned t l then none
  else some (writeLine kt t l (mergeLine (s.plain kt t l) off d) s)

/-! ## Controller queues (R226, R227) -/

/-- The channel of a request. A near-tier line has a half in each pseudo-channel of its channel, so their queues are alike. -/
def chanOf (s : State) (o : MemOp) : Nat := lineChan s o.tier o.line

/-- The depth of a queue: reads and writes (R226). -/
def qDepth (c : Nat) (write : Bool) : Nat := if c < 256 then (if write then 32 else 64) else (if write then 64 else 128)

/-- The request is not held at a gate or by RATE_APPLY: what is held takes no place in a queue. Log: DESIGN CHOICE 107. -/
def unheld (o : MemOp) : Bool := o.gate.isNone && !o.held

/-- A channel's read or write queue: the oldest requests up to its depth; what does not fit waits for a place. Log: DESIGN CHOICE 107. -/
def lane (s : State) (c : Nat) (write : Bool) : List MemOp :=
  (s.dram.queue.filter fun o => unheld o && decide (o.write = write) && decide (chanOf s o = c)).take (qDepth c write)

/-- A batch of writes starts: the write queue is three quarters full, or no read is queued (R227). -/
def batchDue (s : State) (c : Nat) : Bool :=
  let w := (lane s c true).length
  decide (w ≠ 0) && (decide (3 * qDepth c true ≤ 4 * w) || (lane s c false).isEmpty)

/-- Writes are being drained. -/
def inBatch (s : State) (c : Nat) : Bool := (s.chan c).draining || batchDue s c

/-- A batch that is due starts. -/
def batchStart (c : Nat) (s : State) : State := if batchDue s c then s.setChan c { s.chan c with draining := true } else s

/-- After a write has been served the batch ends when the queue is one quarter full or empty (R227). Log: DESIGN CHOICE 107. -/
def batchServed (c : Nat) (s : State) : State :=
  let w := (lane s c true).length
  batchStart c (if w = 0 ∨ 4 * w = qDepth c true then s.setChan c { s.chan c with draining := false } else s)

/-- Queue a request at the controller of its line; it may be held at a gate (R212) or by RATE_APPLY (R233). -/
def queueOp (o : MemOp) (s : State) : State :=
  let o := { o with gate := gateOf s o.tier o.line, held := decide (o.tier = .bulk) && s.dram.bulk.moving.isSome, at_ := ageNow s }
  batchStart (chanOf s o) { s with dram := { s.dram with queue := s.dram.queue ++ [o] } }

/-- A request can be served: in its queue, its tier awake and its rank powered (R231 to R233). -/
def servable (s : State) (o : MemOp) : Bool :=
  (lane s (chanOf s o) o.write).contains o && !(s.tier o.tier).asleep && !(s.tier o.tier).waking && !(s.rank (locate s o.tier o.line).1).down

/-- Two requests for one line. -/
def sameLine (a b : MemOp) : Bool := decide (a.tier = b.tier) && decide (a.line = b.line)

/-- A write that waits for an earlier request of its line. A read never waits: it returns the data of the writes ahead (R227). -/
def behind (s : State) (o : MemOp) : Bool := o.write && (s.dram.queue.takeWhile fun x => decide (x ≠ o)).any (sameLine o)

/-- The direction of the moment lets the request through: a write in a batch, a read outside one or where a write of its line waits for
it. Log: DESIGN CHOICE 107. -/
def turnOf (s : State) (o : MemOp) : Bool :=
  if o.write then inBatch s (chanOf s o)
  else !inBatch s (chanOf s o) || (s.dram.queue.dropWhile fun x => decide (x ≠ o)).any fun x => x.write && sameLine o x

/-- The request that the bank of another serves next: one that has waited 1,024 cycles, else a hit of the open row, else the oldest
(R226). Log: DESIGN CHOICE 107. -/
def bankNext (s : State) (o : MemOp) : Option MemOp :=
  let k := (locate s o.tier o.line).2.1
  let mine := s.dram.queue.filter fun x => decide (x.tier = o.tier) && decide ((locate s x.tier x.line).2.1 = k) && servable s x && !behind s x
  let now := mine.filter fun x => turnOf s x
  (mine.find? fun x => decide (x.at_ + 1024 ≤ ageNow s)).or
    ((now.find? fun x => decide (openRow s x.tier k = some (locate s x.tier x.line).2.2)).or now.head?)

/-- The controller serves the request now: it is next, and the scheduler has a token for it. -/
def mayServe (s : State) (o : MemOp) : Bool := decide (bankNext s o = some o) && dramToken s o.tier o.line

/-- A request leaves its queue: its row and rank are used (R228, R231), and a batch may end or start. -/
def serveOp (o : MemOp) (s : State) : State :=
  let q := s.dram.queue.erase o
  let s := touch o.tier o.line o.policy q { s with dram := { s.dram with queue := q } }
  if o.write then batchServed (chanOf s o) s else batchStart (chanOf s o) s

/-- An access to the line is queued. -/
def lineBusy (s : State) (t : Tier) (l : Nat) : Bool := s.dram.queue.any fun o => decide (o.tier = t) && decide (o.line = l)

end Sys2Proof.Machine
end

