-- ==== Sys2Proof/Machine/Requests.lean ====
section
/-! DEFINITION. Accepted fabric requests and the messages that answer them: queueing a message for a port, the repeat record,
finishing a request, ending one by force, the stream window. -/

namespace Sys2Proof.Machine

/-! ## Queueing messages -/

/-- Append a message to a port's queue. -/
def enqueue (p : Nat) (it : TxItem) (s : State) : State := s.setPort p { s.port p with txq := (s.port p).txq ++ [it] }

/-- A port that can still carry a message: UP, or on its way back (R162). -/
def portUsable (s : State) (p : Nat) : Bool := decide ((s.port p).state = .up) || decide ((s.port p).state = .retrain)

/-- An RSP_STATUS for a request (Table 7.2). Log: DEDUCED 33. -/
def rspMsg (s : State) (m : Msg) (st : Status) (count : Nat) : Msg :=
  { opcode := 0x40, aux := BitVec.ofNat 8 st.code, dst := m.src, src := s.xpt.endpoint, tenant := m.tenant, stream := m.stream
    rseq := m.rseq, len := BitVec.ofNat 32 count }

/-- A DAT message answering a request (Table 7.2). Log: DEDUCED 33. -/
def datMsg (s : State) (m : Msg) (op : BitVec 8) (count : Nat) (d : List Byte) : Msg :=
  { opcode := op, dst := m.src, src := s.xpt.endpoint, tenant := m.tenant, stream := m.stream, rseq := m.rseq
    len := BitVec.ofNat 32 count, data := d }

/-- Answer a message that is no accepted request: a failed check, an unroutable REQ (R160, R162). -/
def rawAnswer (p : Nat) (m : Msg) (st : Status) (count : Nat) (s : State) : State :=
  if portUsable s p then enqueue p { msgItem (rspMsg s m st count) with ans := true } s else s

/-- The same, counting against the generations it matched until it is handed over (R40). -/
def taggedAnswer (p : Nat) (m : Msg) (st : Status) (tags : List (Nat × BitVec 16)) (s : State) : State :=
  if portUsable s p then enqueue p { msgItem (rspMsg s m st 0) with ans := true, tags } s else s

/-- The same for an operation ended by force: no later release changes its status (R32). Log: DEDUCED 24. -/
def forcedAnswer (p : Nat) (m : Msg) (st : Status) (count : Nat) (tags : List (Nat × BitVec 16)) (s : State) : State :=
  if portUsable s p then enqueue p { msgItem (rspMsg s m st count) with ans := true, final := true, tags } s else s

/-! ## Requests by number -/

def State.req (s : State) (id : Nat) : Option OReq := s.reqs.find? fun r => decide (r.id = id)

def State.setReq (s : State) (r : OReq) : State := { s with reqs := s.reqs.map fun x => if x.id = r.id then r else x }

def State.dropReq (s : State) (id : Nat) : State := { s with reqs := s.reqs.filter fun r => decide (r.id ≠ id) }

/-- A request's line at its present position: tier and physical line number. -/
def reqLine (r : OReq) : Tier × Nat := (r.tier, r.phys * 16384 + lineIdx (r.msg.addr.toNat + r.pos))

/-- Requests of a stream that count against its window (R63). Log: DEDUCED 34. -/
def outstanding (s : State) (k : Nat) : Nat := (s.reqs.filter fun r => decide (r.msg.stream.toNat = k) && !r.silent).length

/-! ## The repeat record (R166) -/

/-- The original's answer sent to a repeat, by the repeat's route; it counts against the generations the repeat matched (R40, R166). -/
def answerRepeat (p : Fin 32) (rm : Msg) (st : Status) (count : Nat) (result : List Byte) (tags : List (Nat × BitVec 16)) (s : State) : State :=
  let m := if st = .ok ∧ result ≠ [] then datMsg s rm 0x60 0 result else rspMsg s rm st count
  if portUsable s p.val then enqueue p.val { msgItem m with ans := true, tags } s else s

/-- Store a request's outcome in its stream's record, and answer the repeats that wait for it. -/
def recDone (m : Msg) (st : Status) (count : Nat) (result : List Byte) (s : State) : State :=
  if msgNonIdem m then
    let k := m.stream.toNat
    let x := s.stream k
    match x.record.find? fun e => decide (e.rseq = m.rseq) && !e.done with
    | none => s
    | some e =>
      let e' : RecEntry := { e with done := true, status := st, count := BitVec.ofNat 32 count, result, repeats := [] }
      let s := s.setStream k { x with record := x.record.map fun y => if y = e then e' else y }
      e.repeats.foldl (fun s (p, rm, tags) => answerRepeat p rm st count result tags s) s
  else s

/-! ## Finishing -/

/-- Queue a response message of a request; the last one moves it to the answered phase, or ends it where its port cannot carry it.
 Log: DEDUCED 33. -/
def respond (id : Nat) (m : Msg) (last : Bool) (s : State) : State :=
  match s.req id with
  | none => s
  | some r =>
    if r.silent || !portUsable s r.port.val then (if last then s.dropReq id else s)
    else
      let s := enqueue r.port.val { msgItem m with req := some id, last } s
      if last then s.setReq { r with phase := .answered, expiry := none } else s

/-- A request has been executed: its outcome is recorded and its final status sent (R32). Log: DEDUCED 33. -/
def finishReq (id : Nat) (st : Status) (count : Nat) (s : State) : State :=
  match s.req id with
  | none => s
  | some r => respond id (rspMsg s r.msg st count) true (recDone r.msg st count [] s)

/-- A request has been executed and its last message carries data (DAT_READ, a grant, an atomic's old value). -/
def finishData (id : Nat) (op : BitVec 8) (count : Nat) (d result : List Byte) (s : State) : State :=
  match s.req id with
  | none => s
  | some r => respond id (datMsg s r.msg op count d) true (recDone r.msg .ok r.msg.len.toNat result s)

/-- Forget a request everywhere it waits: controllers finish what they hold for no one, the directory serves no one, and a tracker
that only waited for the request's own memory access is freed. -/
def detach (id : Nat) (s : State) : State :=
  let f := fun (t : Trk) =>
    if t.req = some id then (if t.waits = [] then none else some { t with req := none }) else some t
  { s with
    dram := { s.dram with queue := s.dram.queue.map fun o => if o.cont = .req id then { o with cont := .none_ } else o }
    dir := { s.dir with trks := s.dir.trks.filterMap f, pend := s.dir.pend.filter fun x => decide (x ≠ .req id) } }

/-- Drop a request's response messages that have not been sent. Log: DEDUCED 34. -/
def unqueue (id : Nat) (s : State) : State :=
  { s with ports := mapTbl {} (fun _ p => { p with txq := p.txq.filter fun it => decide (it.req ≠ some id) }) s.ports }

/-- A message of the request still waits in its port's queue. Log: DEDUCED 34. -/
def unsent (s : State) (id : Nat) : Bool := s.ports.any fun (_, p) => p.txq.any fun it => decide (it.req = some id)

/-- The request still counts against the generations it matched: its completion has not been handed over (R40). Log: DEDUCED 24. -/
def holdsTags (s : State) (r : OReq) : Bool := decide (r.phase ≠ .answered) || unsent s r.id

/-- End a request by force: a timer, a withdrawal, a release by age (R42, R59, R64, R68). Its status goes out at once and its slot is
free; what it wrote stands. The answer keeps the request's place in the in-flight counts until it is handed over (R40), but a release
by age ends the operation in every count (R41). A request that has been answered is ended only where its answer is still queued.
 Log: DEDUCED 24, DEDUCED 34. -/
def endReq (id : Nat) (st : Status) (count : Nat) (s : State) : State :=
  match s.req id with
  | none => s
  | some r =>
    let tags := if st = .tableStale ∨ holdsTags s r = false then [] else r.tags
    let s := detach id (unqueue id s)
    let s := recDone r.msg st count [] s
    let s := s.dropReq id
    if r.silent then s else forcedAnswer r.port.val r.msg st count tags s

/-! ## Multicast copies (R169) -/

/-- A copy has been handed to a replay buffer, or dropped. Log: DEDUCED 24. -/
def copyGone (it : TxItem) (dropped : Bool) (s : State) : State :=
  let s := if dropped then { s with xpt := { s.xpt with mcDrop := sat32 s.xpt.mcDrop 1 } } else s
  match it.mcast, it.push with
  | some id, _ =>
    match s.req id with
    | none => s
    | some r => s.setReq { r with toHand := r.toHand - 1, drops := if dropped then r.drops + 1 else r.drops }
  | none, some (q, idx) =>
    let x := s.queue (qNum q)
    s.setQueue (qNum q) { x with cmds := x.cmds.map fun c =>
      if c.idx = idx then { c with toHand := c.toHand - 1, drops := if dropped then c.drops + 1 else c.drops } else c }
  | none, none => s

/-- Queue one MCAST_DATA copy for a port of the mask; a port that is not UP or in RETRAIN drops it at once. -/
def sendCopy (it : TxItem) (p : Nat) (s : State) : State :=
  if portUsable s p then enqueue p it s else copyGone it true s

/-- Send a copy of multicast data to every port of a group's entry but one, each with its downstream group ID. -/
def mcastOut (w : List Nat) (except : Option Nat) (m : Msg) (mk : TxItem → TxItem) (s : State) : State :=
  (List.range 32).foldl (fun s p =>
    if mcHas w p && decide (some p ≠ except) then
      sendCopy (mk (msgItem { m with aux := BitVec.ofNat 8 (mcDown w p) })) p s
    else s) s

/-- Ports of an entry's mask. -/
def mcPorts (w : List Nat) (except : Option Nat) : Nat :=
  ((List.range 32).filter fun p => mcHas w p && decide (some p ≠ except)).length

end Sys2Proof.Machine
end

