-- ==== Sys2Proof/Machine/Links.lean ====
section
/-! DEFINITION. The EFP link layer (spec/06_evhial_links.md): frames out and in, acknowledgement, replay, credits, the training
ladder, leaving UP and fresh starts. -/

namespace Sys2Proof.Machine

/-! ## Headers and unsequenced frames -/

def Port.credit (p : Port) (vc : Nat) : Credit := Tbl.get {} p.credits vc
def Port.setCredit (p : Port) (vc : Nat) (c : Credit) : Port := { p with credits := Tbl.put {} p.credits vc c }

/-- TX_OLDEST: the oldest frame held, or TX_NEXT (R144). -/
def Port.txOldest (p : Port) : BitVec 12 := p.txNext - BitVec.ofNat 12 p.held.length

/-- The header of a frame sent now: ACK of e − 1 in Sure mode, and one channel's running credit total (Table 6.5). -/
def Port.header (p : Port) (ftype : Nat) (vc len crdVc : Nat) : FrameHdr :=
  { ftype := BitVec.ofNat 4 ftype, seq := p.txNext, ack := p.rxNext - 1, ackValid := !p.lean, vc := BitVec.ofNat 3 vc
    len := BitVec.ofNat 5 len, crdVc := BitVec.ofNat 3 crdVc, crdCount := (p.credit crdVc).ret }

/-- Close a frame: the CRC-64, or in Lean mode a zero trailer (R138). -/
def Port.close (p : Port) (f : Frame) : Frame := if p.lean then { f with trailer := 0 } else sealFrame f

/-- A frame leaves on the wire; while the reference clock is missing the transmitters are in electrical idle (R85). The frames between
two IDLE frames are counted (R130). Log: DEDUCED 101. -/
def wire (n : Fin 32) (f : Frame) (s : State) : State :=
  let p := s.port n
  if bit p.ev 5 then s
  else (s.setPort n { p with sinceIdle := if f.hdr.ftype = 2 then 0 else p.sinceIdle + 1 }).emit (.frame n f)

/-- An IDLE or REPLAY_REQ frame (Table 6.6). Log: DESIGN CHOICE 103. -/
def idleFrame (p : Port) (ftype crdVc : Nat) : Frame := p.close { hdr := p.header ftype 4 1 crdVc, payload := padPayload [] }

/-- Before a frame that is no IDLE frame, one IDLE frame goes out where 1,023 others have gone since the last (R130).
 Log: DESIGN CHOICE 102. -/
def spaceIdle (n : Fin 32) (s : State) : State :=
  if 1023 ≤ (s.port n).sinceIdle then wire n (idleFrame (s.port n) 2 0) s else s

/-- Send an IDLE frame. Log: DESIGN CHOICE 102, DESIGN CHOICE 103. -/
def sendIdle (n : Fin 32) (crdVc : Nat) (s : State) : State := wire n (idleFrame (s.port n) 2 crdVc) s

/-- Send a REPLAY_REQ frame carrying e - 1 (R147). Log: DESIGN CHOICE 102, DESIGN CHOICE 103. -/
def sendReplayReq (n : Fin 32) (s : State) : State :=
  let s := spaceIdle n s
  wire n (idleFrame (s.port n) 3 0) s

/-- Send an unsequenced LMC frame (R140): before UP it always carries the CRC-64. Log: DESIGN CHOICE 102. -/
def sendLmc (n : Fin 32) (bs : List Byte) (s : State) : State :=
  let s := spaceIdle n s
  let p := s.port n
  let f : Frame := { hdr := p.header 1 4 (flitsOf bs.length) 0, payload := padPayload bs }
  wire n (if p.state = .up then p.close f else sealFrame f) s

/-- Set a W1C or RO event bit of LNK_STATUS (Table 6.9). -/
def portEv (n i : Nat) (s : State) : State := s.setPort n { s.port n with ev := setBit (s.port n).ev i }

/-! ## The training ladder (R132 to R135) -/

/-- A rung of the ladder: rate and width codes, post-cursor and receiver peaking in steps from the seed. -/
structure Rung where
  rate  : Nat := 0
  width : Nat := 0
  post  : Int := 0
  peak  : Int := 0

/-- The 12 rungs (Table 6.3). Log: DEDUCED 106. -/
def rungs : List Rung :=
  [⟨2, 2, 0, 0⟩, ⟨2, 2, 2, 0⟩, ⟨2, 2, -2, 1⟩, ⟨2, 1, 0, 0⟩, ⟨2, 1, 2, 0⟩, ⟨2, 0, 0, 0⟩]
    ++ ([(1, 2), (1, 1), (1, 0), (0, 2), (0, 1), (0, 0)].map fun x => ⟨x.1, x.2, 0, 0⟩)

/-- A rung by its number, from 1. Log: DEDUCED 106. -/
def rungAt (r : Nat) : Rung := if r = 0 then {} else (rungs[r - 1]?).getD {}

/-- A rung that LNK_CFG allows (R133). -/
def rungOk (cfg : Word) (r : Nat) : Bool :=
  decide (1 ≤ r ∧ r ≤ 12) && decide ((rungAt r).rate ≤ bits cfg 3 2) && decide ((rungAt r).width ≤ bits cfg 1 0)

/-- The next rung after `r` that LNK_CFG allows. -/
def nextRung (cfg : Word) (r : Nat) : Option Nat := ((List.range 12).map (· + 1)).find? fun k => decide (r < k) && rungOk cfg k

/-- The lane masks of the groups of a width, lowest first (R128). -/
def laneGroups : Nat → List Byte
  | 2 => [0xFF]
  | 1 => [0x0F, 0xF0]
  | _ => [0x03, 0x0C, 0x30, 0xC0]

/-- The lanes a rung uses: the lowest group whose lanes all locked at both ends in the previous attempt, else the lowest (R134).
 Log: DESIGN CHOICE 37. -/
def rungLanes (p : Port) (r : Nat) : Byte :=
  let w := (rungAt r).width
  let ok := p.lockLocal &&& p.lockPartner
  if p.attempts ≤ 1 then (laneGroups w).headD 0
  else ((laneGroups w).find? fun g => decide (g &&& ok = g)).getD ((laneGroups w).headD 0)

/-- Begin a walk from the top of the ladder: a training event waits for admission. -/
def beginWalk (n : Nat) (st : PortState) (s : State) : State :=
  s.setPort n { s.port n with state := st, attempts := 0, pos := 0, attempting := false, waiting := some (ageNow s)
                              peer := none, ackSent := false, ackGot := false, hs := {} }

/-- Go to DETECT: wait for a partner's signal. LNK_TRAIN goes on showing the last walk (Table 6.9). -/
def toDetect (n : Nat) (s : State) : State :=
  s.setPort n { s.port n with state := .detect, waiting := none, attempting := false, retryAt := none, sym := 0, pos := 0 }

/-! ## Losing link state (R137, R150, R151) -/

/-- A message that stays queued over a fresh start: REQ, SNP, MCAST_DATA and LMC (R151). Log: DEDUCED 32. -/
def keepsQueued (it : TxItem) : Bool := it.lmc || decide (it.vc ≤ 1) || decide (it.msg.opcode = 0x62)

/-- An unfinished local request whose port lost its link: ended with LINK_LOST for its stream; one still waiting for data never
runs, the others finish in silence so that their record holds the outcome. Log: DEDUCED 32. -/
def loseReq (r : OReq) (s : State) : State :=
  if r.phase = .answered then s.dropReq r.id
  else if r.phase = .data then (recDone r.msg .linkLost 0 [] s).dropReq r.id
  else s.setReq { r with silent := true, lost := true, tags := [], expiry := none }

/-- Everything outstanding on a port ends with LINK_LOST; answers how many operations did (R151). -/
def loseOps (n : Nat) (s : State) : State :=
  let p := s.port n
  let mine := s.reqs.filter fun r => decide (r.port.val = n) && !r.silent
  let cnt := p.fwd.length + (mine.filter fun r => decide (r.phase ≠ .answered)).length
  let s := s.setPort n { p with fwd := [], txq := p.txq.filter keepsQueued }
  let s := p.fwd.foldl (fun s (q, m) => rawAnswer q.val m .linkLost 0 s) s
  let s := mine.foldl (fun s r => loseReq r s) s
  if cnt = 0 then s
  else recordFault { code := 0x21, scope := 4, event := some 0x121, object := BitVec.ofNat 16 n, detail := BitVec.ofNat 64 cnt } (portEv n 2 s)

/-- The receive buffer of a channel in frames (R153). -/
def rxBuffer : Nat → Nat
  | 0 => 64
  | 1 => 32
  | 2 => 64
  | 3 => 128
  | _ => 8

/-- The credits of a fresh start: totals at 0, then the first returns advertise each buffer, VC0's only once the node serves
(R125, R153). -/
def freshCredits (serving : Bool) : Tbl Credit :=
  [0, 1, 2, 3, 4].foldl (fun t vc => Tbl.put {} t vc { ret := if vc = 0 ∧ !serving then 0 else BitVec.ofNat 8 (rxBuffer vc) }) []

/-- Sequence numbers and credit counters restart at 0, the replay buffer is emptied (R137). Log: DEDUCED 32. -/
def freshPort (serving : Bool) (p : Port) : Port :=
  { p with txNext := 0, rxNext := 0, gap := false, held := [], replay := none, replayCount := 0, timer := false, nonceCount := 0, nonceRx := 0
           credits := freshCredits serving, vc0Open := serving }

/-- Discard link state outside a PARAMS exchange: the epoch advances (R137). Log: DEDUCED 32. -/
def discardLink (n : Nat) (s : State) : State :=
  let s := loseOps n s
  let p := s.port n
  s.setPort n { freshPort s.nid.state.serving p with kept := false, epochOwn := p.epochOwn + 1, isSealed := false, sess := none }

/-- Copies of multicast data queued for a port that can carry them no more are dropped (R169). -/
def dropCopies (n : Nat) (s : State) : State :=
  let p := s.port n
  let cs := p.txq.filter fun it => decide (it.msg.opcode = 0x62)
  cs.foldl (fun s it => copyGone it true s) (s.setPort n { p with txq := p.txq.filter fun it => decide (it.msg.opcode ≠ 0x62) })

/-- Whether a cause keeps the link state of a Sure session (R150). -/
def causeKeeps (cause : Nat) : Bool := decide (3 ≤ cause ∧ cause ≤ 8)

/-- Leave UP: RETRAIN_REQ first unless the partner sent one, the departure counted, state kept or discarded (R141, R150, R151).
 Log: DEDUCED 31. -/
def leaveUp (n : Fin 32) (cause : Nat) (st : PortState) (s : State) : State :=
  let p := s.port n
  let s := if cause = 7 then s else sendLmc n ([0x03, BitVec.ofNat 8 cause] ++ List.replicate 14 0) s
  let s := s.setPort n { s.port n with downs := sat16 p.downs, cause := BitVec.ofNat 8 cause, timer := false, replay := none }
  let keep := !p.lean && causeKeeps cause && decide (st = .retrain)
  let s := if keep then s.setPort n { s.port n with kept := true } else discardLink n s
  if st = .retrain then portEv n 1 (beginWalk n .retrain s)
  else dropCopies n (s.setPort n { s.port n with state := st, waiting := none, attempting := false })

/-- Enter FAILED: transmitters idle, the retry timer armed, link state discarded (R135, R137). -/
def enterFailed (n : Nat) (s : State) : State :=
  let s := discardLink n s
  let p := s.port n
  let s := s.setPort n { p with state := .failed, attempting := false, waiting := none, hs := {}
                                retryAt := if p.retries < 4 then some (s.clk.now + 244141) else none }
  let s := dropCopies n (portEv n 3 s)
  recordFault { code := 0x20, scope := 4, event := some 0x120, object := BitVec.ofNat 16 n, detail := BitVec.ofNat 64 p.rung } s

/-- An attempt has ended without success: the next rung waits for admission, or the port enters FAILED (R132, R133). -/
def attemptEnds (n : Nat) (s : State) : State :=
  let p := s.port n
  match nextRung p.cfg p.pos with
  | some _ => s.setPort n { p with attempting := false, waiting := some (ageNow s), peer := none, ackSent := false, ackGot := false, hs := {} }
  | none => enterFailed n s

/-- Start the attempt at the next rung of the walk, under LNK_CFG as it now stands (R132, R155). Log: DEDUCED 106. -/
def startAttempt (n : Nat) (s : State) : State :=
  let p := s.port n
  let p := if p.state = .detect then { p with state := .train, attempts := 0, pos := 0 } else p
  match nextRung p.cfg p.pos with
  | some r => s.setPort n { p with attempting := true, waiting := none, attempts := p.attempts + 1, rung := r, pos := r, use := p.cfg
                                   post := (rungAt r).post, peak := (rungAt r).peak, peer := none, ackSent := false, ackGot := false, hs := {} }
  | none => enterFailed n (s.setPort n { p with waiting := none })

/-! ## Reaching UP (R136, R137) -/

/-- Both ends request Lean. -/
def leanNow (p : Port) (q : Params) : Bool := bit p.use 5 && decide (q.modeReq = 1)

/-- The link resumes with its state kept (R137). -/
def resumes (p : Port) (q : Params) : Bool :=
  !leanNow p q && p.kept && decide (q.epoch = p.epochPeer) && decide ((q.rxNext - p.txOldest).toNat ≤ p.held.length)

/-- The best claim the node holds, relayed on every port that reaches UP (R172 to R174). -/
def claimBetter (a b : Claim) : Bool :=
  decide (b.prio.toNat < a.prio.toNat) || (decide (a.prio = b.prio) && decide (a.serial.toNat < b.serial.toNat))

/-- The best of a list of claims, those of excluded serials left out (R174). -/
def bestOf (excl : List (BitVec 64)) (cs : List Claim) : Option Claim :=
  (cs.filter fun c => !excl.contains c.serial).foldl (fun b c => match b with
    | none => some c
    | some x => if claimBetter c x then some c else some x) none

/-- The best claim held: the node's own and those heard. -/
def Elect.best (e : Elect) : Option Claim := bestOf e.excl (e.own.toList ++ e.heard)

/-- What a port that reaches UP is sent of the election: the coordinator's ANNOUNCE when the node coordinates, else the best claim. -/
def electOnUp (n : Nat) (s : State) : State :=
  if s.xpt.elect.state = 2 then
    match s.xpt.elect.own with
    | some c => enqueue n (lmcItem (claimBytes 0x11 c)) s
    | none => s
  else
    match s.xpt.elect.best with
    | some c => enqueue n (lmcItem (claimBytes 0x10 c)) s
    | none => s

/-- Free the window slots of requests whose last message leaves the held frames (R63). Log: DEDUCED 34. -/
def freeHeld (hs : List Held) (s : State) : State :=
  hs.foldl (fun s h => if h.item.last then match h.item.req with | some id => s.dropReq id | none => s else s) s

/-- The port enters UP at its rung, resuming or after a fresh start. Log: DEDUCED 31. -/
def reachUp (n : Nat) (q : Params) (s : State) : State :=
  let p := s.port n
  let lean := leanNow p q
  let wasKept := p.kept
  let lanes := rungLanes p p.rung
  let g := rungAt p.rung
  let resume := resumes p q
  let s :=
    if resume then
      let k := (q.rxNext - p.txOldest).toNat
      let s := freeHeld (p.held.take k) s
      let held := p.held.drop k
      s.setPort n { p with held, replay := if held = [] then none else some q.rxNext, timer := !held.isEmpty, replayCount := 0
                           replays := if held = [] then p.replays else sat32 p.replays 1 }
    else
      let s := loseOps n s
      let s := s.setPort n (freshPort s.nid.state.serving (s.port n))
      if wasKept then s.setPort n { s.port n with cause := 0x0A } else s
  let p := s.port n
  let s := s.setPort n { p with
    state := .up, rate := BitVec.ofNat 2 g.rate, width := BitVec.ofNat 2 g.width, lean, kept := false, retries := 0, retryAt := none
    epochPeer := q.epoch, window := min (bits p.use 19 8) q.window.toNat, attempting := false, waiting := none
    lockLocal := lanes, lockPartner := lanes, isSealed := if resume then p.isSealed else bit p.use 6 && decide (q.isSealed = 1)
    sess := if resume then p.sess else p.hs.derived, hs := {}
    ev := if (bit p.use 5) != decide (q.modeReq = 1) then setBit p.ev 4 else p.ev }
  electOnUp n s

/-! ## Acknowledgement and credits (R142, R144, R152) -/

/-- Apply an acknowledgement; none where it is a protocol error (R144). -/
def applyAck (n : Nat) (a : BitVec 12) (s : State) : Option State :=
  let p := s.port n
  let k := (a - p.txOldest).toNat
  if k < p.held.length then
    let gone := p.held.take (k + 1)
    let held := p.held.drop (k + 1)
    let replay := match p.replay with
      | none => none
      | some ptr => if held = [] then none
          else if (p.txNext - ptr).toNat ≤ held.length then (if ptr = p.txNext then none else some ptr) else some (a + 1)
    some (freeHeld gone (s.setPort n { p with held, replay, replayCount := 0, timer := !held.isEmpty }))
  else if a = p.txOldest - 1 then some s
  else none

/-- Take the running credit total of a header (R152). -/
def applyCredit (n : Nat) (h : FrameHdr) (s : State) : State :=
  let p := s.port n
  let c := p.credit h.crdVc.toNat
  s.setPort n (p.setCredit h.crdVc.toNat { c with have_ := c.have_ + (h.crdCount - c.seen).toNat, seen := h.crdCount })

/-- The header fields every good frame contributes; an invalid ACK takes the port to RETRAIN with cause 0x04 (R142, R144). -/
def contribute (n : Fin 32) (h : FrameHdr) (s : State) : State :=
  if h.ackValid then
    match applyAck n h.ack s with
    | some s => applyCredit n h s
    | none => leaveUp n 4 .retrain s
  else applyCredit n h s

/-- A frame that failed its CRC or was malformed (R143, R147). -/
def badFrame (n : Fin 32) (s : State) : State :=
  let p := s.port n
  let s := s.setPort n { p with crcErr := sat32 p.crcErr 1 }
  if p.gap then s else (fun s => s.setPort n { s.port n with gap := true }) (sendReplayReq n s)

/-- Start a replay at a pointer (Table 6.7). -/
def startReplay (n : Nat) (ptr : BitVec 12) (s : State) : State :=
  let p := s.port n
  if ptr = p.txNext then s.setPort n { p with replay := none }
  else s.setPort n { p with replay := some ptr, replays := sat32 p.replays 1 }

/-- A frame of virtual channel vc takes a slot of the receive buffer. -/
def rxTake (n vc : Nat) (s : State) : State :=
  let p := s.port n
  let c := p.credit vc
  s.setPort n (p.setCredit vc { c with rx := c.rx + 1 })

/-- A slot of the receive buffer is freed, and a credit returned (R152). Log: DEDUCED 36. -/
def rxFree (n vc : Nat) (s : State) : State :=
  let p := s.port n
  let c := p.credit vc
  if c.rx = 0 then s else s.setPort n (p.setCredit vc { c with rx := c.rx - 1, ret := c.ret + 1 })

/-! ## Commands of the administrator -/

/-- A write to a register that only the administrator sees (R368): from another physical function it sets that function's
ILLEGAL_WRITE; in FATAL and before the port answers it is discarded (R26, R126). -/
def adminWrite (fn : Fn) (f : State → State) (s : State) : State :=
  if !hostUp s fn || !s.takesHost then s
  else if s.isAdmin fn then f s
  else if fn.vf = 0 then s.setHost fn.port { s.host fn.port with illegal := true }
  else s

/-- Act only while the node lives. Log: DESIGN CHOICE 2. -/
def whileAlive (f : State → State) (s : State) : State := if s.alive then f s else s

/-- The station of an EFP port (Table 8.1). -/
def portStation (n : Nat) : Nat := if n < 16 then n else 11 * 16 + (n - 16)

/-- A station is disabled (R188). -/
def stationDown (s : State) (st : Nat) : Bool := s.msh.disabled.contains st

/-! ## Training rows -/

/-- SYMBOL_LOCK: in DETECT, lock on at least 2 lanes asks for admission; without its reference clock a port gains no lock (R85, R131).
 Log: DESIGN CHOICE 37, DEDUCED 101. -/
def symbolLock (n : Fin 32) (lanes : Byte) (s : State) : State :=
  let p := s.port n
  if p.state = .detect ∧ !bit p.ev 5 then
    let l := p.sym ||| lanes
    let two := decide (2 ≤ ((List.range 8).filter fun i => l.getLsbD i).length)
    s.setPort n { p with sym := l, waiting := if two && p.waiting.isNone then some (ageNow s) else p.waiting }
  else s

/-- A training event that may be admitted. Log: DEDUCED 101. -/
def mayAdmit (s : State) (n : Nat) : Bool :=
  let p := s.port n
  p.waiting.isSome && !bit p.ev 5 && (decide (p.state = .detect) || decide (p.state = .train) || decide (p.state = .retrain))

/-- The waiting event to admit next: the oldest, then the lower port number (R124). -/
def nextAdmit (s : State) : Option Nat :=
  ((List.range 32).filter (mayAdmit s)).foldl (fun b n => match b with
    | none => some n
    | some m => if (s.port n).waiting.getD 0 < (s.port m).waiting.getD 0 then some n else some m) none

/-- Admit events while this course's 8 are not used up (R124). -/
def admitSome : Nat → State → State
  | 0, s => s
  | k + 1, s =>
    if s.clk.admits < 8 then
      match nextAdmit s with
      | none => s
      | some n => admitSome k (startAttempt n { s with clk := { s.clk with admits := s.clk.admits + 1 } })
    else s

/-- TRAINING_ADMIT: the FMP admits waiting events, at most 8 in a course (R124); it pauses while it restarts (R23). -/
def execTrainingAdmit (s : State) : Host.Outcome State Fault Refusal :=
  .next (whileAlive (fun s => if procWorks s .fmp then admitSome 8 s else s) s)

/-- SYMBOL_LOCK. -/
def execSymbolLock (p : Fin 32) (lanes : Byte) (s : State) : Host.Outcome State Fault Refusal :=
  .next (whileAlive (symbolLock p lanes) s)

/-- The PARAMS exchange of the running attempt is complete (R132). -/
def paramsDone (p : Port) : Option Params := if p.attempting && p.ackSent && p.ackGot then p.peer else none

/-- The attempt needs a handshake before UP: both ends Sealed and no resumption (R154). -/
def needsHandshake (p : Port) (q : Params) : Bool := bit p.use 6 && decide (q.isSealed = 1) && !resumes p q

/-- An attempt of the port goes on: it is running, and its reference clock is there (R85). Log: DEDUCED 101. -/
def tries (p : Port) : Bool := p.attempting && !bit p.ev 5

/-- ATTEMPT_SUCCESS: lanes locked and checked, PARAMS exchanged, and on a Sealed link the handshake done: the port enters UP (R132,
R137). -/
def attemptSuccess (n : Fin 32) (s : State) : State :=
  let p := s.port n
  match paramsDone p with
  | none => s
  | some q => if bit p.ev 5 || (needsHandshake p q && !(p.hs.sentFinish && p.hs.gotFinish)) then s else reachUp n q s

def execAttemptSuccess (p : Fin 32) (s : State) : Host.Outcome State Fault Refusal := .next (whileAlive (attemptSuccess p) s)

/-- From phase 3 on the lanes of the rung have locked at both ends (R132). -/
def lockedRung (p : Port) : Port := { p with lockLocal := rungLanes p p.rung, lockPartner := rungLanes p p.rung }

/-- ATTEMPT_FAIL: a PRBS error or a bad PARAMS value ends the running attempt at once (R132). -/
def attemptFail (n : Fin 32) (_e : AttemptErr) (s : State) : State :=
  if tries (s.port n) then attemptEnds n (s.setPort n (lockedRung (s.port n))) else s

def execAttemptFail (p : Fin 32) (e : AttemptErr) (s : State) : Host.Outcome State Fault Refusal := .next (whileAlive (attemptFail p e) s)

/-- ATTEMPT_TIMEOUT: the 20 ms limit of the running attempt, and the lanes that had locked (R132, R134); a handshake has a limit of its
own (R360). -/
def attemptTimeout (n : Fin 32) (a b : Byte) (s : State) : State :=
  if tries (s.port n) && !(s.port n).hs.active then attemptEnds n (s.setPort n { s.port n with lockLocal := a, lockPartner := b }) else s

def execAttemptTimeout (p : Fin 32) (lockLocal lockPartner : Byte) (s : State) : Host.Outcome State Fault Refusal :=
  .next (whileAlive (attemptTimeout p lockLocal lockPartner) s)

/-- FAILED_RETRY: the automatic retry timer, at most 4 times since the port was last UP (R135). -/
def failedRetry (n : Fin 32) (s : State) : State :=
  let p := s.port n
  match p.retryAt with
  | some t => if p.state = .failed ∧ p.retries < 4 ∧ t ≤ s.clk.now ∧ procRuns s .fmp then
      toDetect n (s.setPort n { p with retries := p.retries + 1 }) else s
  | none => s

def execFailedRetry (p : Fin 32) (s : State) : Host.Outcome State Fault Refusal := .next (whileAlive (failedRetry p) s)

/-- LNK_CTL.RETRAIN (Table 6.9). -/
def lnkRetrain (n : Fin 32) (s : State) : State :=
  let p := s.port n
  if p.state = .up then leaveUp n 8 .retrain s
  else if p.state = .failed then toDetect n (s.setPort n { p with retries := 0 })
  else s

def execLnkRetrain (fn : Fn) (p : Fin 32) (s : State) : Host.Outcome State Fault Refusal := .next (adminWrite fn (lnkRetrain p) s)

/-- LNK_CTL.ENABLE: DISABLED to DETECT, but not on a disabled station (R131, R188). -/
def lnkEnable (n : Fin 32) (s : State) : State :=
  if (s.port n).state = .disabled ∧ !stationDown s (portStation n) then toDetect n s else s

def execLnkEnable (fn : Fn) (p : Fin 32) (s : State) : Host.Outcome State Fault Refusal := .next (adminWrite fn (lnkEnable p) s)

/-- LNK_CTL.DISABLE: any state but DISABLED to DISABLED; outstanding operations end with LINK_LOST (R131, R141). Link state kept in RETRAIN
is discarded, which advances the epoch (R137). -/
def lnkDisable (n : Fin 32) (s : State) : State :=
  let p := s.port n
  if p.state = .disabled then s
  else if p.state = .up then leaveUp n 8 .disabled s
  else
    let s := if p.kept then discardLink n s else loseOps n s
    let p := s.port n
    dropCopies n (s.setPort n { freshPort s.nid.state.serving p with
      state := .disabled, waiting := none, attempting := false, retryAt := none, kept := false, isSealed := false, hs := {}, sess := none })

def execLnkDisable (fn : Fn) (p : Fin 32) (s : State) : Host.Outcome State Fault Refusal := .next (adminWrite fn (lnkDisable p) s)

/-- The PARAMS a port sends (Table 6.4). -/
def ownParams (p : Port) : Params :=
  { modeReq := if bit p.use 5 then 1 else 0, window := BitVec.ofNat 16 (bits p.use 19 8), epoch := p.epochOwn, rxNext := p.rxNext
    isSealed := if bit p.use 6 then 1 else 0 }

/-! ## The start of a handshake, and its faults (R357, R360) -/

/-- Handshake messages go out as unsequenced LMC frames and are kept to be resent (R357). -/
def hsSend (n : Fin 32) (ms : List (List Byte)) (s : State) : State :=
  let s := ms.foldl (fun s m => sendLmc n (padFlits m) s) s
  s.setPort n { s.port n with hs := { (s.port n).hs with lastSent := ms } }

/-- A handshake ends with a fault of Table 16.5: HS_ABORT goes out, its keys are cleared, the fault is recorded; causes 0x01, 0x02 and
0x0B fail the attempt, every other ends the walk (R360). Log: DEDUCED 82. -/
def hsFail (n : Fin 32) (cause : Nat) (s : State) : State :=
  let s := sendLmc n (padFlits [0x24, BitVec.ofNat 8 cause]) s
  let s := s.setPort n { lockedRung (s.port n) with hs := {} }
  let s := s.setSecPort n { s.secPort n with cause := BitVec.ofNat 8 cause }
  let s := recordFault { code := 0x22, scope := 4, event := some 0x122, object := BitVec.ofNat 16 n.val, detail := BitVec.ofNat 64 cause } s
  if cause = 1 ∨ cause = 2 ∨ cause = 0x0B then attemptEnds n s else enterFailed n s

/-- The node's certificate chain (R104). -/
def State.chain (s : State) : List Byte := match s.boot.otp with | some o => o.certChain | none => []

/-- The bytes of HELLO (Table 16.4). -/
def helloBytes (h : Hello) : List Byte := [0x20, h.version] ++ leBytes 2 h.chainLen.toNat ++ h.random ++ h.pubKey

/-- The private key of an ephemeral pair: a number of the curve's order. -/
def ephKey (n : Nat) : Nat := Config.ephemeralKey n % (n384 - 1) + 1

/-- The node's own HELLO. -/
def ownHello (s : State) (h : Hs) : Hello :=
  { version := 1, chainLen := BitVec.ofNat 16 s.chain.length, random := h.random, pubKey := pubOf (ephKey (h.eph.getD 0)) }

/-- Once PARAMS has been exchanged, a Sealed attempt that leads to a fresh start goes on with HELLO; with TRNG_FAIL set it fails (R352,
R357). Log: DEDUCED 82. -/
def startHandshake (n : Fin 32) (s : State) : State :=
  let p := s.port n
  match paramsDone p with
  | none => s
  | some q =>
    if !needsHandshake p q || p.hs.active then s
    else if s.trngFail then hsFail n 0x0B s
    else
      let h : Hs := { active := true, random := (Config.hsRandom s.serialNo).toList, eph := some s.serialNo }
      hsSend n [helloBytes (ownHello s h)]
        { s.setPort n { p with hs := h } with serialNo := s.serialNo + 1, sec := { s.sec with drbgReqs := s.sec.drbgReqs + 1 } }

/-- PARAMS received: bad values fail the attempt at its rung; differing SEALED settings end the walk with cause 0x0B; otherwise it is
recorded and acknowledged (R136). -/
def params (n : Fin 32) (q : Params) (s : State) : State :=
  let p := s.port n
  if !tries p then s
  else if 1 < q.modeReq.toNat ∨ q.window = 0 ∨ 2048 < q.window.toNat ∨ 1 < q.isSealed.toNat then attemptEnds n (s.setPort n (lockedRung p))
  else if (bit p.use 6) != decide (q.isSealed = 1) then enterFailed n (s.setPort n { lockedRung p with cause := 0x0B })
  else startHandshake n (sendLmc n ([0x02] ++ List.replicate 15 0) (s.setPort n { p with peer := some q, ackSent := true }))

def execParams (p : Fin 32) (q : Params) (s : State) : Host.Outcome State Fault Refusal := .next (whileAlive (params p q) s)

/-- PARAMS_ACK received (R136). -/
def paramsAck (n : Fin 32) (s : State) : State :=
  if tries (s.port n) then startHandshake n (s.setPort n { s.port n with ackGot := true }) else s

def execParamsAck (p : Fin 32) (s : State) : Host.Outcome State Fault Refusal := .next (whileAlive (paramsAck p) s)

/-- PARAMS_RESEND: PARAMS goes out each 1 µs until the partner's has come and is acknowledged (R136). -/
def paramsResend (n : Fin 32) (s : State) : State :=
  let p := s.port n
  if tries p && !(p.peer.isSome && p.ackSent) then sendLmc n (paramsBytes (ownParams p)) s else s

def execParamsResend (p : Fin 32) (s : State) : Host.Outcome State Fault Refusal := .next (whileAlive (paramsResend p) s)

/-! ## Frames received -/

/-- A frame arrives while UP in Sure mode. -/
def sureUp (s : State) (n : Nat) : Bool := decide ((s.port n).state = .up) && !(s.port n).lean

/-- The frame is sequenced (Table 6.6). -/
def sequenced (h : FrameHdr) : Bool := decide (h.ftype.toNat ≤ 1)

/-- The frame count of a received sequenced frame at distance d: those accepted, and those it lies ahead or behind (R154).
 Log: DESIGN CHOICE 104. -/
def countAt (p : Port) (d : Nat) : Nat := if d < 2048 then p.nonceRx + d else p.nonceRx + d - 4096

/-- The payload flits of a sequenced frame; on a Sealed link none where its last flit is not their tag (R154).
 Log: DESIGN CHOICE 38, DESIGN CHOICE 104. -/
def openPayload (p : Port) (d : Nat) (f : Frame) : Option (List Byte) :=
  let flits := f.payload.take (f.hdr.len.toNat * 16)
  match p.sess with
  | some k => if p.isSealed then gcmOpen k.keyPeer k.number (countAt p d) flits else some flits
  | none => some flits

/-- The frame is an LMC frame of a TYPE that nothing in the node takes while the port is UP: it is discarded after its link-layer checks
(R140). The node takes the election's messages and ATTEST_REQ; it asks for no attestation. -/
def lmcDiscarded (f : Frame) (payload : List Byte) : Bool :=
  let ty := (payload.headD 0).toNat
  decide (f.hdr.ftype = 1) && !(decide (0x10 ≤ ty ∧ ty ≤ 0x14) || decide (ty = 0x25))

/-- A sequenced frame in order: e and the count advance, and its message waits in the receive buffer; a discarded LMC message frees its
slot at once (R140, R142). -/
def rxAccept (n : Fin 32) (f : Frame) (payload : List Byte) (s : State) : State :=
  let p := s.port n
  let s := rxTake n f.hdr.vc.toNat (s.setPort n { p with rxNext := p.rxNext + 1, gap := false, nonceRx := p.nonceRx + 1 })
  if lmcDiscarded f payload then rxFree n f.hdr.vc.toNat s else s

/-- DATA: a sequenced frame in Sure mode by its CRC (R143), its distance (R142) and, on a Sealed link, its tag (R154).
 Log: DEDUCED 36, DESIGN CHOICE 96, DESIGN CHOICE 104. -/
def rxData (n : Fin 32) (f : Frame) (s : State) : State :=
  let p := s.port n
  if !sureUp s n then s
  else if !crcOk f || malformed f.hdr || !sequenced f.hdr then badFrame n s
  else
    let d := (f.hdr.seq - p.rxNext).toNat
    if p.window ≤ d ∧ d ≤ 2047 then leaveUp n 3 .retrain s
    else
      match openPayload p d f with
      | none => leaveUp n 9 .retrain s
      | some payload =>
        let s := contribute n f.hdr s
        if (s.port n).state ≠ .up then s
        else if d = 0 then rxAccept n f payload s
        else if d < p.window then
          if p.gap then s else (fun s => s.setPort n { s.port n with gap := true }) (sendReplayReq n s)
        else sendIdle n 0 (s.setPort n { s.port n with dups := sat32 (s.port n).dups 1 })

/-- The block bits of a frame are ignored in Sure mode (R139). -/
def execData (p : Fin 32) (f : Frame) (_alternates : Bool) (s : State) : Host.Outcome State Fault Refusal := .next (whileAlive (rxData p f) s)

/-- LEAN_FRAME_RECEIVE: any error takes the link down, the first of the order of R151 being the cause, then a failed tag (R154). -/
def rxLean (n : Fin 32) (f : Frame) (lockLost parity : Bool) (s : State) : State :=
  let p := s.port n
  if !(decide (p.state = .up) && p.lean) then s
  else if lockLost then leaveUp n 6 .retrain s
  else if parity then leaveUp n 2 .retrain s
  else if malformed f.hdr || decide (f.trailer ≠ 0) then leaveUp n 1 .retrain s
  else if sequenced f.hdr && decide (f.hdr.seq ≠ p.rxNext) then leaveUp n 3 .retrain s
  else if sequenced f.hdr then
    match openPayload p 0 f with
    | none => leaveUp n 9 .retrain s
    | some payload => rxAccept n f payload (applyCredit n f.hdr s)
  else applyCredit n f.hdr s

def execLeanFrameReceive (p : Fin 32) (f : Frame) (lockLost parity : Bool) (s : State) : Host.Outcome State Fault Refusal :=
  .next (whileAlive (rxLean p f lockLost parity) s)

/-- IDLE: its acknowledgement and credit fields are used (R142). -/
def rxIdle (n : Fin 32) (f : Frame) (s : State) : State :=
  if !sureUp s n then s
  else if !crcOk f || malformed f.hdr then badFrame n s
  else contribute n f.hdr s

def execIdle (p : Fin 32) (f : Frame) (s : State) : Host.Outcome State Fault Refusal := .next (whileAlive (rxIdle p f) s)

/-- REPLAY_REQ: its acknowledgement a is applied, and the replay starts at a + 1 (Table 6.7). -/
def rxReplayReq (n : Fin 32) (f : Frame) (s : State) : State :=
  if !sureUp s n then s
  else if !crcOk f || malformed f.hdr then badFrame n s
  else
    let s := contribute n f.hdr s
    if (s.port n).state = .up ∧ f.hdr.ackValid then startReplay n (f.hdr.ack + 1) s else s

def execReplayReq (p : Fin 32) (f : Frame) (s : State) : Host.Outcome State Fault Refusal := .next (whileAlive (rxReplayReq p f) s)

/-- RETRAIN_REQ: checked as every frame of the mode in force; while UP it takes the port out with cause 0x07 (R141). -/
def rxRetrainReq (n : Fin 32) (f : Frame) (parity : Bool) (s : State) : State :=
  let p := s.port n
  if p.state ≠ .up then s
  else if p.lean then
    if parity then leaveUp n 2 .retrain s
    else if malformed f.hdr || decide (f.trailer ≠ 0) then leaveUp n 1 .retrain s
    else leaveUp n 7 .retrain (applyCredit n f.hdr s)
  else if !crcOk f || malformed f.hdr then badFrame n s
  else
    let s := contribute n f.hdr s
    if (s.port n).state = .up then leaveUp n 7 .retrain s else s

def execRetrainReq (p : Fin 32) (f : Frame) (parity : Bool) (_cause : Byte) (s : State) : Host.Outcome State Fault Refusal :=
  .next (whileAlive (rxRetrainReq p f parity) s)

/-- LANE_LOCK_LOSS: cause 0x06 while UP (R151). Log: DESIGN CHOICE 37. -/
def laneLockLoss (n : Fin 32) (s : State) : State := if (s.port n).state = .up then leaveUp n 6 .retrain s else s

def execLaneLockLoss (p : Fin 32) (s : State) : Host.Outcome State Fault Refusal := .next (whileAlive (laneLockLoss p) s)

/-! ## Frames sent -/

/-- The next message of a channel: its sources are served round-robin after the one served last, each in order; and the queue without the
message (R162, R163). One frame carries one message. Log: DEDUCED 36. -/
def takeMsg (vc last : Nat) (q : List TxItem) : Option (TxItem × List TxItem) :=
  let next := (List.range 33).findSome? fun k => q.find? fun it => decide (it.vc = vc ∧ it.origin = (last + 1 + k) % 33)
  next.map fun it => (it, q.erase it)

/-- The payload of a frame: on a Sealed link encrypted, with its tag as the last flit (R154). Log: DESIGN CHOICE 38. -/
def framePayload (p : Port) (it : TxItem) : List Byte × Nat :=
  match p.sess with
  | some k => (padPayload (gcmSeal k.keyOwn k.number p.nonceCount it.bytes), it.flits + 1)
  | none => (padPayload it.bytes, it.flits)

/-- A message has been handed to the wire in Lean mode, or to the replay buffer in Sure mode: what hung on it follows (R40, R63,
R151, R169). Log: DEDUCED 36. -/
def handed (n : Nat) (it : TxItem) (s : State) : State :=
  let s := if it.mcast.isSome || it.push.isSome then copyGone it false s else s
  let s := match it.fwd with
    | some q => s.setPort n { s.port n with fwd := (s.port n).fwd ++ [(q, it.msg)] }
    | none => s
  if (s.port n).lean && it.last then
    match it.req with | some id => s.dropReq id | none => s
  else s

/-- FRAME_SEND: with fewer than W frames held and a credit for the channel, the next message goes out at TX_NEXT (Table 6.7, R152).
 Log: DESIGN CHOICE 102. -/
def frameSend (n : Fin 32) (vc : Fin 5) (s : State) : State :=
  let p := s.port n
  if p.state ≠ .up ∨ bit p.ev 5 ∨ p.replay.isSome ∨ (!p.lean ∧ p.window ≤ p.held.length) ∨ (p.credit vc.val).have_ = 0 then s
  else
    match takeMsg vc.val (Tbl.get 32 p.turn vc.val) p.txq with
    | none => s
    | some (it, q) =>
      let s := spaceIdle n s
      let p := s.port n
      let (payload, len) := framePayload p it
      let f := p.close { hdr := p.header (if it.lmc then 1 else 0) vc.val len 0, payload }
      let c := p.credit vc.val
      let p' := { p.setCredit vc.val { c with have_ := c.have_ - 1 } with
        txq := q, turn := Tbl.put 32 p.turn vc.val it.origin, txNext := p.txNext + 1, nonceCount := p.nonceCount + 1
        held := if p.lean then [] else p.held ++ [{ frame := f, item := it }], timer := !p.lean }
      handed n it (wire n f (s.setPort n p'))

def execFrameSend (p : Fin 32) (vc : Fin 5) (s : State) : Host.Outcome State Fault Refusal := .next (whileAlive (frameSend p vc) s)

/-- IDLE_SEND: an IDLE frame with the acknowledgement and one credit total (R130, R145). -/
def idleSend (n : Fin 32) (crdVc : Fin 5) (s : State) : State :=
  if (s.port n).state = .up then sendIdle n crdVc.val s else s

def execIdleSend (p : Fin 32) (crdVc : Fin 5) (s : State) : Host.Outcome State Fault Refusal := .next (whileAlive (idleSend p crdVc) s)

/-- REPLAY_TIMER: the running timer expires: REPLAY_COUNT + 1, and a replay from TX_OLDEST, or RETRAIN with cause 0x05 at
REPLAY_LIMIT (Table 6.7). An acknowledgement of the same cycle that frees a frame is in time: nothing expires (R148). Log: DEDUCED 105. -/
def replayTimer (n : Fin 32) (acked : Bool) (s : State) : State :=
  let p := s.port n
  if acked || !sureUp s n || !p.timer || p.held.isEmpty then s
  else if p.replayCount + 1 = bits p.use 23 20 then leaveUp n 5 .retrain (s.setPort n { p with replayCount := p.replayCount + 1 })
  else startReplay n p.txOldest (s.setPort n { p with replayCount := p.replayCount + 1 })

def execReplayTimer (x : ReplayExpiry) (s : State) : Host.Outcome State Fault Refusal := .next (whileAlive (replayTimer x.port x.acked) s)

/-- REPLAY_RESEND: the frame at the pointer goes out again with fresh ACK and credit fields and CRC (R407). -/
def replayResend (n : Fin 32) (crdVc : Fin 5) (s : State) : State :=
  let p := s.port n
  match p.replay with
  | none => s
  | some ptr =>
    match p.held[(ptr - p.txOldest).toNat]? with
    | none => s
    | some h =>
      if p.state ≠ .up ∨ bit p.ev 5 then s
      else
        let s := spaceIdle n s
        let p := s.port n
        let f := p.close { h.frame with hdr := { p.header 0 0 1 crdVc.val with
          ftype := h.frame.hdr.ftype, seq := h.frame.hdr.seq, vc := h.frame.hdr.vc, len := h.frame.hdr.len } }
        wire n f (s.setPort n { p with replay := if ptr + 1 = p.txNext then none else some (ptr + 1) })

def execReplayResend (p : Fin 32) (crdVc : Fin 5) (s : State) : Host.Outcome State Fault Refusal := .next (whileAlive (replayResend p crdVc) s)

/-! ## Reference clocks (R85) -/

/-- The eight ports that EFP_REFCLKg serves (R84). -/
def groupPorts (g : Nat) : List Nat := (List.range 8).map fun i => g * 8 + i

/-- A port whose reference clock is missing: symbol lock is gone, and an attempt that ran waits again for admission, which comes only when
the clock is back (R85). Log: DEDUCED 101. -/
def loseRefclk (n : Nat) (s : State) : State :=
  let p := s.port n
  let p := { p with ev := setBit p.ev 5, sym := 0 }
  s.setPort n (if p.state = .detect then { p with waiting := none }
    else if p.attempting then { p with attempting := false, pos := p.pos - 1, waiting := some (ageNow s), peer := none, ackSent := false
                                       ackGot := false, hs := {} }
    else p)

/-- REFCLK_LOST: on each of the group's ports. Log: DEDUCED 31. -/
def execRefclkLost (g : Fin 4) (s : State) : Host.Outcome State Fault Refusal :=
  .next (whileAlive (fun s => (groupPorts g.val).foldl (fun s n => if bit (s.port n).ev 5 then s else loseRefclk n s) s) s)

/-- REFCLK_RETURN: REFCLK_LOST clears and the ports go on detecting. -/
def execRefclkReturn (g : Fin 4) (s : State) : Host.Outcome State Fault Refusal :=
  .next (whileAlive (fun s => (groupPorts g.val).foldl (fun s n => s.setPort n { s.port n with ev := (s.port n).ev &&& ~~~(32#32) }) s) s)

end Sys2Proof.Machine
end

