-- ==== Sys2Proof/Machine/Directory.lean ====
section
/-! DEFINITION. The mortar directory (spec/11_mortar_directory.md) and the completion of memory accesses: trackers, snoops, grants,
evictions, and what a request does when the controller has served its line. -/

namespace Sys2Proof.Machine

/-! ## Entries, agents, trackers -/

def State.ent (s : State) (slot : Nat) : DirEnt := Tbl.get {} s.dir.ents slot
def State.setEnt (s : State) (slot : Nat) (e : DirEnt) : State := { s with dir := { s.dir with ents := Tbl.put {} s.dir.ents slot e } }

/-- The slots of a line's set. Log: DEDUCED 54. -/
def setSlots (l : Nat) : List Nat := (List.range 16).map fun w => setKey l * 16 + w

/-- The slot whose entry names a line (R246). -/
def findEnt (s : State) (t : Tier) (l : Nat) : Option Nat :=
  (setSlots l).find? fun k => let e := s.ent k; decide (e.st ≠ .i) && decide (e.tier = t) && decide (e.line = l)

/-- The agent index of an endpoint (R248). -/
def agentOf (s : State) (ep : BitVec 12) : Option Nat := (s.dir.agents.find? fun a => decide (a.2 = some ep)).map Prod.fst

/-- Register an endpoint under the lowest free index; none when all 1,024 are in use (R248). Log: DEDUCED 56. -/
def registerAgent (ep : BitVec 12) (s : State) : Option (Nat × State) :=
  match agentOf s ep with
  | some a => some (a, s)
  | none =>
    match (List.range 1024).find? fun a => decide (Tbl.get none s.dir.agents a = none) with
    | none => none
    | some a => some (a, { s with dir := { s.dir with agents := Tbl.put none s.dir.agents a (some ep) } })

/-- The tracker of a line. -/
def trkAt (s : State) (t : Tier) (l : Nat) : Option Trk := s.dir.trks.find? fun k => decide (k.tier = t) && decide (k.line = l)

def setTrk (k : Trk) (s : State) : State :=
  { s with dir := { s.dir with trks := s.dir.trks.map fun x => if x.tier = k.tier ∧ x.line = k.line then k else x } }

def addTrk (k : Trk) (s : State) : State := { s with dir := { s.dir with trks := s.dir.trks ++ [k] } }

def dropTrk (t : Tier) (l : Nat) (s : State) : State :=
  { s with dir := { s.dir with trks := s.dir.trks.filter fun x => !(decide (x.tier = t) && decide (x.line = l)) } }

/-- The slice has one of its 512 trackers free (R247). -/
def trkFree (s : State) (l : Nat) : Bool :=
  decide ((s.dir.trks.filter fun k => decide (sliceOf k.line = sliceOf l)).length < 512)

/-- The tenant that holds an entry's key is LIVE in the entry's incarnation; otherwise the entry is dead (R263). Log: DEDUCED 56. -/
def entLive (s : State) (e : DirEnt) : Bool :=
  decide ((s.tenant e.keyT).state = .live) && decide ((s.tenant e.keyT).incarn = e.incarn)

/-- The agents an entry names: its pointers, or every registered agent of its coarse groups (R250, R257). -/
def holders (s : State) (e : DirEnt) : List Nat :=
  if e.coarse then (s.dir.agents.map Prod.fst).filter fun a => e.vec.getLsbD (a / 16) else e.ptrs

/-- Add a sharer: up to four pointers, then the coarse vector (R250). -/
def addSharer (e : DirEnt) (a : Nat) : DirEnt :=
  if e.coarse then { e with vec := e.vec ||| BitVec.ofNat 64 (2 ^ (a / 16)) }
  else if e.ptrs.contains a then e
  else if e.ptrs.length < 4 then { e with ptrs := e.ptrs ++ [a] }
  else { e with coarse := true, ptrs := [], vec := (e.ptrs ++ [a]).foldl (fun v b => v ||| BitVec.ofNat 64 (2 ^ (b / 16))) 0 }

/-- Remove a pointer; a precise entry with none left becomes I (R257). -/
def dropPtr (e : DirEnt) (a : Nat) : DirEnt :=
  if e.coarse then e
  else
    let p := e.ptrs.filter (· ≠ a)
    if p = [] then {} else { e with ptrs := p }

/-! ## Messages of the directory -/

/-- The egress port towards an endpoint: PORT, else ALT_PORT, UP or in RETRAIN (R162). -/
def egressTo (s : State) (d : Nat) : Option Nat :=
  let r := s.routeTo d
  if !r.valid then none
  else if portUsable s r.port then some r.port
  else if r.altValid && portUsable s r.alt then some r.alt
  else none

/-- Send a snoop or an offer to an agent by its route; one that cannot be routed is discarded and counted (R162, R253). -/
def toAgent (a : Nat) (op : BitVec 8) (handle : Nat) (d : List Byte) (bad : Bool) (s : State) : State :=
  match Tbl.get none s.dir.agents a with
  | none => s
  | some ep =>
    match egressTo s ep.toNat with
    | none => { s with xpt := { s.xpt with unrouted := sat32 s.xpt.unrouted 1 } }
    | some p => enqueue p (msgItem { opcode := op, dst := ep, src := s.xpt.endpoint, len := BitVec.ofNat 32 handle, data := d, poisoned := bad }) s

/-- An awaited answer, with its timer (R262, R33). -/
def awaiting (s : State) (a : Nat) : Await := { agent := a, expiry := s.clk.now + bits s.dir.cfg 7 0 }

/-- Recall an entry: RC, SNP_RECALL to its holders. With no holder the way is free at once (R260, R263, R264). Log: DEDUCED 55. -/
def recallEnt (slot : Nat) (drop calm : Bool) (for_ : Option Nat) (s : State) : State :=
  let e := s.ent slot
  let hs := holders s e
  if hs = [] then s.setEnt slot {}
  else
    let s := addTrk { slot := some slot, st := .rc, tier := e.tier, line := e.line, waits := hs.map (awaiting s), drop, calm
                      keyT := e.keyT, incarn := e.incarn, for_ } s
    hs.foldl (fun s a => toAgent a 0x22 (handleOf slot) [] false s) s

/-- A way for a new entry: a free one, else the least recently used that holds no tracker is recalled, once for each request (R260). -/
inductive WayRes where
  | way (slot : Nat) (s : State)
  | wait (s : State)

/-- Log: DEDUCED 54. -/
def takeWay (l : Nat) (for_ : Option Nat) (s : State) : WayRes :=
  let held := fun k => s.dir.trks.any fun x => decide (x.slot = some k)
  match (setSlots l).find? fun k => decide ((s.ent k).st = .i) && !held k with
  | some k => .way k s
  | none =>
    if s.dir.trks.any fun x => decide (x.st = .rc) && for_.isSome && decide (x.for_ = for_) then .wait s
    else
      let v := (setSlots l).foldl (fun b k => if held k then b else match b with
        | none => some k
        | some j => if (s.ent k).used < (s.ent j).used then some k else some j) (none : Option Nat)
      match v with
      | none => .wait s
      | some k =>
        let s := { s with dir := { s.dir with recalls := sat32 s.dir.recalls 1 } }
        let dead := !entLive s (s.ent k)
        let s := recallEnt k dead dead for_ s
        if (s.ent k).st = .i then .way k s else .wait s

/-- The entry is used now, for the replacement order. Log: DEDUCED 54. -/
def useEnt (slot : Nat) (s : State) : State :=
  let s := { s with dir := { s.dir with clock := s.dir.clock + 1 } }
  s.setEnt slot { s.ent slot with used := s.dir.clock }

/-! ## Serving a request's line -/

/-- What a request asks of the directory (Table 11.5). -/
inductive DirKind where
  | shared
  | unique
  | once
  | write
  | stash
  deriving DecidableEq, Repr

/-- The row of Table 11.5 that a request takes. -/
def kindOf (m : Msg) : DirKind :=
  if m.opcode = 1 then .shared else if m.opcode = 2 then .unique
  else if m.opcode = 3 ∨ m.opcode = 9 then .once else if m.opcode = 5 then .stash else .write

/-- The snoops of Table 11.5: the opcode and the agents snooped. -/
def snoopsFor (s : State) (k : DirKind) (e : DirEnt) (a : Option Nat) : BitVec 8 × List Nat :=
  match e.st with
  | .i => (0x21, [])
  | .s =>
    match k with
    | .shared => (0x21, [])
    | .once => (0x21, [])
    | .unique => (0x21, (holders s e).filter fun x => decide (some x ≠ a))
    | _ => (0x21, holders s e)
  | _ =>
    match k with
    | .once => (0x20, e.ptrs)
    | .shared => (0x20, e.ptrs.filter fun x => decide (some x ≠ a))
    | .unique => (0x21, e.ptrs.filter fun x => decide (some x ≠ a))
    | _ => (0x21, e.ptrs)

/-- What a lookup leads to: wait in the pending queue, snoops sent, or access to memory now. -/
inductive DirRes where
  | wait (s : State)
  | snoop (s : State)
  | go (s : State)

/-- One lookup of a line under a free tracker. `needWay` when the request makes an entry where there is none. Log: DEDUCED 54. -/
def dirLookup (k : DirKind) (a : Option Nat) (needWay : Bool) (base : Trk) (s : State) : DirRes :=
  let t := base.tier
  let l := base.line
  match findEnt s t l with
  | some slot =>
    let s := useEnt slot s
    let e := s.ent slot
    let (op, xs) := snoopsFor s k e a
    if xs = [] then .go (addTrk { base with slot := some slot } (if k = .write ∨ k = .stash then s.setEnt slot {} else s))
    else
      let s := addTrk { base with slot := some slot, waits := xs.map (awaiting s) } s
      .snoop (xs.foldl (fun s x => toAgent x op (handleOf slot) [] false s) s)
  | none =>
    if needWay then
      match takeWay l base.req s with
      | .way slot s => .go (addTrk { base with slot := some slot } s)
      | .wait s => .wait s
    else .go (addTrk base s)

/-- Recall a dead entry before its line is served; answers whether the line is free of one now (R263). Log: DEDUCED 56. -/
def clearDead (t : Tier) (l : Nat) (s : State) : Bool × State :=
  match findEnt s t l with
  | none => (true, s)
  | some slot =>
    if entLive s (s.ent slot) then (true, s)
    else
      let s := recallEnt slot true true none s
      (decide ((s.ent slot).st = .i), s)

/-- The next bytes of a request: offset in the line and length. -/
def reqChunk (r : OReq) : Nat × Nat :=
  let off := (r.msg.addr.toNat + r.pos) % 128
  (off, min (128 - off) (r.msg.len.toNat - r.pos))

/-- The page policy of a request (R228). -/
def reqPolicy (s : State) (r : OReq) : Nat := policyOf s (msgHint r.msg).toNat (s.tenant r.msg.tenant.toNat).part

/-- Queue the memory access of a request's present line. -/
def queueReq (id : Nat) (s : State) : State :=
  match s.req id with
  | none => s
  | some r =>
    let (t, l) := reqLine r
    let (off, n) := reqChunk r
    let o : MemOp := { write := false, tier := t, line := l, keyT := r.keyT, policy := reqPolicy s r, cont := .req id }
    let bad := r.bad.any fun b => decide (r.pos / 128 = b / 128)
    if r.msg.opcode = 8 then queueOp { o with write := true, off, data := r.got, atomic := some ((r.msg.opargs.headD 0).toNat, r.msg.len.toNat), bad } s
    else if r.msg.opcode = 4 then queueOp { o with write := true, off, data := (r.got.drop r.pos).take n, bad } s
    else if r.msg.opcode = 5 ∨ r.msg.opcode = 6 then queueOp { o with write := true, data := r.got.take 128, bad } s
    else queueOp o s

/-- The stash target may be offered the line: a registered agent, valid in the tenant's active admission list (R259). -/
def stashTarget (s : State) (m : Msg) : Option Nat :=
  let ep := BitVec.ofNat 12 (ofLeBytes (m.opargs.take 2))
  if s.admitted m.tenant.toNat ep.toNat then agentOf s ep else none

/-! ## Waiting at a slice (R255, R265) -/

/-- The line that a waiting item wants. -/
def pendLine (s : State) : PendItem → Option (Tier × Nat)
  | .req id => (s.req id).map reqLine
  | .eng _ t l => some (t, l)

/-- The access of an engine is still wanted: its command runs, or its queue still fetches or commits. Log: DESIGN CHOICE 108. -/
def useLive (s : State) : EngUse → Bool
  | .cmd q idx => (s.queue (qNum q)).cmds.any fun c => decide (c.idx = idx) && decide (c.phase = .running) && !c.ended
  | .fetch q => decide ((s.queue (qNum q)).state = 1) && decide ((s.queue (qNum q)).sqTail ≠ (s.queue (qNum q)).sqHead)
  | .commit q => (s.queue (qNum q)).cmds.any fun c => decide (c.phase = .finished)

/-- The item still waits: its request stands, or its engine still wants the line. -/
def pendLive (s : State) : PendItem → Bool
  | .req id => (s.req id).isSome
  | .eng u _ _ => useLive s u

/-- The items ahead of one. -/
def pendAhead (s : State) (x : PendItem) : List PendItem := (s.dir.pend.takeWhile fun y => decide (y ≠ x)).filter (pendLive s)

/-- The slice of an item. -/
def pendSlice (s : State) (x : PendItem) : Option Nat := (pendLine s x).map fun e => sliceOf e.2

/-- Requests in a slice's pending queue (R247). -/
def pendDepth : Nat := 1024

/-- The item lies in its slice's pending queue, or finds a place there; otherwise it stays in the mesh receive queue (R255). -/
def inPend (s : State) (x : PendItem) : Bool :=
  decide (((pendAhead s x).filter fun y => decide (pendSlice s y = pendSlice s x)).length < pendDepth)

/-- Wait at the slice, in order of arrival. -/
def pendItem (x : PendItem) (s : State) : State :=
  if s.dir.pend.contains x then s else { s with dir := { s.dir with pend := s.dir.pend ++ [x] } }

/-- The item waits no longer. -/
def unpend (x : PendItem) (s : State) : State := { s with dir := { s.dir with pend := s.dir.pend.filter fun y => decide (y ≠ x) } }

/-- A recall of the line is still to begin (R264). -/
def recallOwed (s : State) (t : Tier) (l : Nat) : Bool := s.dir.recallQ.any fun r => decide (r.tier = t) && decide (r.line = l)

/-- A lookup of the line must wait: a tracker on it, a recall to come, an earlier item for it, no tracker free, or no place in the pending
queue to look it up from (R255, R265). -/
def lineWaits (s : State) (t : Tier) (l : Nat) (x : PendItem) : Bool :=
  (trkAt s t l).isSome || recallOwed s t l || !trkFree s l || !inPend s x
    || (pendAhead s x).any fun y => decide (pendLine s y = some (t, l))

/-- Serve a request's present line at its slice (R255, R257). -/
def dirServe (id : Nat) (s : State) : State :=
  match s.req id with
  | none => unpend (.req id) s
  | some r =>
    let (t, l) := reqLine r
    if lineWaits s t l (.req id) then pendItem (.req id) s
    else
      match clearDead t l s with
      | (false, s) => pendItem (.req id) s
      | (true, s) =>
        let k := kindOf r.msg
        let a := agentOf s r.msg.src
        let target := if k = .stash ∧ r.bad = [] then stashTarget s r.msg else none
        let needWay := match k with
          | .shared => true
          | .unique => true
          | .stash => target.isSome
          | _ => false
        let base : Trk := { slot := none, st := .sd, tier := t, line := l, req := some id, agent := if k = .stash then target else a
                            keyT := r.keyT, incarn := (s.tenant r.keyT).incarn }
        match dirLookup k a needWay base s with
        | .wait s => pendItem (.req id) s
        | .snoop s => unpend (.req id) s
        | .go s => queueReq id (unpend (.req id) s)

/-- Serve a request's present line: at the directory when its tile is coherent, else straight at the controller (R200). -/
def serveLine (id : Nat) (s : State) : State :=
  match s.req id with
  | none => s
  | some r => if r.coh then dirServe id s else queueReq id s

/-! ## Answers to a tracker -/

/-- All answers to a tracker are in: the entry takes the state the answers leave, and the request goes on to memory (R257). -/
def answersIn (k : Trk) (s : State) : State :=
  match k.st, k.slot with
  | .rc, some slot => dropTrk k.tier k.line (s.setEnt slot {})
  | .sd, some slot =>
    let e := s.ent slot
    let kind := match k.engine, k.req with
      | some w, _ => if w then DirKind.write else DirKind.once
      | none, some id => match s.req id with | some r => kindOf r.msg | none => .once
      | none, none => .once
    let e' : DirEnt := match kind with
      | .once => if k.kept then { e with st := .s } else {}
      | .shared => if k.kept then { e with st := .s } else {}
      | .unique => match k.agent with
        | some a => if e.st = .s ∧ (holders s e).contains a then { e with ptrs := [a], coarse := false, vec := 0 } else {}
        | none => {}
      | _ => {}
    let s := s.setEnt slot (if e'.st = .i then {} else e')
    match k.engine, k.req with
    | none, some id => queueReq id (setTrk { k with waits := [] } s)
    | _, _ => dropTrk k.tier k.line s
  | _, _ => dropTrk k.tier k.line s

/-- What an agent answered. -/
inductive AgentAns where
  | inv
  | kept
  | data (d : List Byte) (bad kept : Bool)

/-- Snoop data is written to memory, unless the entry is dead or its tile left the map (R257, R263, R264). -/
def snoopData (k : Trk) (d : List Byte) (bad : Bool) (s : State) : State :=
  if k.drop then s
  else queueOp { write := true, tier := k.tier, line := k.line, keyT := k.keyT, data := (d ++ List.replicate 128 0).take 128, bad, policy := 3 } s

/-- Count an agent's answer towards its tracker. -/
def agentAnswer (k : Trk) (a : Nat) (ans : AgentAns) (s : State) : State :=
  let s := match ans with
    | .data d bad _ => snoopData k d bad s
    | _ => s
  let kept := match ans with
    | .inv => k.kept
    | .kept => true
    | .data _ _ b => k.kept || b
  let k := { k with waits := k.waits.filter (fun w => decide (w.agent ≠ a)), kept }
  let s := setTrk k s
  if k.waits = [] then answersIn k s else s

/-! ## Write-backs and evictions, served without a tracker (R255, R257, R258) -/

/-- The tracker of a line that awaits a snoop answer from an agent. Log: DEDUCED 55. -/
def awaitedOn (s : State) (t : Tier) (l a : Nat) : Option Trk :=
  match trkAt s t l with
  | some k => if (k.st = .sd ∨ k.st = .rc) ∧ k.waits.any (fun w => decide (w.agent = a)) then some k else none
  | none => none

/-- WB_DIRTY on a coherent line: the awaited answer, the owner's write-back, or stale. -/
def writeBack (id : Nat) (s : State) : State :=
  match s.req id with
  | none => s
  | some r =>
    let (t, l) := reqLine r
    let stale := fun (s : State) => finishReq id .ok 128 { s with dir := { s.dir with staleWb := sat32 s.dir.staleWb 1 } }
    match agentOf s r.msg.src with
    | none => stale s
    | some a =>
      match awaitedOn s t l a with
      | some k => finishReq id .ok 128 (agentAnswer k a (.data (r.got.take 128) (decide (r.bad ≠ [])) false) s)
      | none =>
        match findEnt s t l with
        | none => stale s
        | some slot =>
          let e := s.ent slot
          if entLive s e ∧ (e.st = .e ∨ e.st = .m) ∧ e.ptrs = [a] then queueReq id (s.setEnt slot {}) else stale s

/-- EVICT_CLEAN on a coherent line (R257, R258). -/
def evictLine (id : Nat) (s : State) : State :=
  match s.req id with
  | none => s
  | some r =>
    let (t, l) := reqLine r
    match agentOf s r.msg.src with
    | none => finishReq id .ok 0 s
    | some a =>
      match awaitedOn s t l a with
      | some k => finishReq id .ok 0 (agentAnswer k a .inv s)
      | none =>
        match findEnt s t l with
        | none => finishReq id .ok 0 s
        | some slot =>
          let e := s.ent slot
          finishReq id .ok 0 (if e.ptrs.contains a then s.setEnt slot (dropPtr e a) else s)

/-! ## The order of a stream (R165) -/

/-- The request writes memory. -/
def isWrite (m : Msg) : Bool := decide (m.opcode = 4 ∨ m.opcode = 5 ∨ m.opcode = 6 ∨ m.opcode = 8)

/-- Two requests name a common byte. -/
def sameBytes (a b : Msg) : Bool :=
  decide (a.addr.toNat < b.addr.toNat + b.len.toNat) && decide (b.addr.toNat < a.addr.toNat + a.len.toNat)

/-- A request may not start yet: an earlier one of its stream has not started, or an earlier write of the stream to overlapping bytes has
not taken effect (R165). A local multicast write belongs to no stream. Log: DEDUCED 35. -/
def orderBlocked (s : State) (r : OReq) : Bool :=
  !r.silent && (s.reqs.takeWhile fun x => decide (x.id ≠ r.id)).any fun x =>
    !x.silent && decide (x.msg.stream = r.msg.stream) &&
      (decide (x.phase = .data ∨ x.phase = .order) ||
        (isWrite x.msg && isWrite r.msg && decide (x.phase ≠ .answered) && sameBytes x.msg r.msg))

/-- Begin a request whose data is complete: a write-back and an eviction of a coherent line on arrival, else its first line. -/
def beginReq (id : Nat) (s : State) : State :=
  match s.req id with
  | none => s
  | some r =>
    if r.msg.opcode = 6 ∧ r.coh then writeBack id s
    else if r.msg.opcode = 7 then (if r.coh then evictLine id s else finishReq id .ok 0 s)
    else serveLine id s

/-- Start a request whose data is complete, or leave it waiting for those ahead of it in its stream (R165). Log: DEDUCED 35. -/
def startReq (id : Nat) (s : State) : State :=
  match s.req id with
  | none => s
  | some r =>
    if orderBlocked s r then s.setReq { r with phase := .order }
    else beginReq id (s.setReq { r with phase := .run })

/-! ## What goes on when something has ended -/

/-- Begin the recalls that waited for their line, before any later request of it (R264). Log: DEDUCED 109. -/
def startRecalls (s : State) : State :=
  s.dir.recallQ.foldl (fun s r =>
    let e := s.ent r.slot
    let gone := fun (s : State) => { s with dir := { s.dir with recallQ := s.dir.recallQ.filter fun x => decide (x ≠ r) } }
    if !(decide (e.st ≠ .i) && decide (e.tier = r.tier) && decide (e.line = r.line) && decide (e.keyT = r.keyT) && decide (e.incarn = r.incarn)) then gone s
    else if (trkAt s r.tier r.line).isSome || !trkFree s r.line then s
    else recallEnt r.slot r.drop true none (gone s)) s

/-- Look a waiting item up again; an engine's is taken up by its engine's next row, and forgotten where that will not come.
 Log: DESIGN CHOICE 108. -/
def pendStep (s : State) (x : PendItem) : State :=
  match x with
  | .req id => dirServe id s
  | .eng u _ _ => if useLive s u then s else unpend x s

/-- One round: recalls, the slices' queues in order, then the requests that waited for their stream. -/
def settleOnce (s : State) : State :=
  let s := startRecalls s
  let s := s.dir.pend.foldl pendStep s
  (s.reqs.filter fun r => decide (r.phase = .order)).foldl (fun s r => startReq r.id s) s

/-- Rounds until nothing more can go on. -/
def settleN : Nat → State → State
  | 0, s => s
  | n + 1, s => settleN n (settleOnce s)

/-- Serve what may go on: a round, and one more for each request that still waited for its stream. Log: DEDUCED 35. -/
def settle (s : State) : State := settleN (1 + (s.reqs.filter fun r => decide (r.phase = .order)).length) s

/-! ## A line has been served by the controller -/

/-- Free the tracker of a request's line. -/
def freeLine (r : OReq) (s : State) : State :=
  if r.coh then
    let (t, l) := reqLine r
    match trkAt s t l with
    | some k => if k.req = some r.id then dropTrk t l s else s
    | none => s
  else s

/-- Grant a coherent line to the requester (Table 11.5): the entry takes its next stable state and the tracker waits in GA. -/
def grantLine (r : OReq) (d : List Byte) (s : State) : State :=
  let (t, l) := reqLine r
  match trkAt s t l with
  | none => finishReq r.id .busy 0 s
  | some k =>
    match k.slot, k.agent with
    | some slot, some a =>
      let e := s.ent slot
      let fresh : DirEnt := { st := .e, tier := t, line := l, ptrs := [a], keyT := k.keyT, incarn := k.incarn }
      let (op, e') : BitVec 8 × DirEnt :=
        if r.msg.opcode = 2 then (0x65, { fresh with st := .m })
        else if e.st = .s then (0x63, addSharer e a)
        else (0x64, fresh)
      let s := useEnt slot (s.setEnt slot e')
      let s := setTrk { k with st := .ga, req := none, waits := [awaiting s a] } s
      finishData r.id op (handleOf slot) d [] s
    | _, _ => finishReq r.id .busy 0 (dropTrk t l s)

/-- Offer a stashed line to its target (R259). -/
def offerLine (r : OReq) (s : State) : State :=
  let (t, l) := reqLine r
  match trkAt s t l with
  | some k =>
    match k.slot, k.agent with
    | some slot, some a =>
      let s := setTrk { k with st := .so, req := none, waits := [awaiting s a] } s
      toAgent a 0x68 (handleOf slot) (r.got.take 128) false s
    | _, _ => dropTrk t l { s with dir := { s.dir with declined := sat32 s.dir.declined 1 } }
  | none => { s with dir := { s.dir with declined := sat32 s.dir.declined 1 } }

/-- Go on to the request's next line, its tracker freed. -/
def nextLine (r : OReq) (n : Nat) (s : State) : State := serveLine r.id ((freeLine r s).setReq { r with pos := r.pos + n })

/-- The controller has served a request's line: `none` where it met poison, else the line read or the old bytes of an atomic.
 Log: DESIGN CHOICE 111. -/
def memDone (id : Nat) (res : Option (List Byte)) (s : State) : State :=
  match s.req id with
  | none => s
  | some r =>
    let (off, n) := reqChunk r
    let op := r.msg.opcode.toNat
    match res with
    | none =>
      if op = 9 then (freeLine r s).setReq { r with endSt := some .poison }
      else finishReq id .poison (if op = 3 then r.pos else 0) (freeLine r s)
    | some d =>
      if op = 1 ∨ op = 2 then (if r.coh then grantLine r d s else finishData id 0x60 0 d [] s)
      else if op = 3 then
        let chunk := (d.drop off).take n
        if r.pos + n = r.msg.len.toNat then finishData id 0x60 r.pos chunk [] (freeLine r s)
        else nextLine r n (respond id (datMsg s r.msg 0x60 r.pos chunk) false s)
      else if op = 9 then
        let s := s.setReq { r with toHand := r.toHand + mcPorts r.group none }
        let m := { datMsg s r.msg 0x62 r.pos ((d.drop off).take n) with dst := 0, src := r.msg.src }
        let s := mcastOut r.group none m (fun it => { it with mcast := some id }) s
        match s.req id with
        | none => s
        | some r =>
          if r.pos + n = r.msg.len.toNat then (freeLine r s).setReq { r with endSt := some .ok, pos := r.pos + n } else nextLine r n s
      else if op = 4 then
        if r.pos + n = r.msg.len.toNat then finishReq id .ok r.msg.len.toNat (freeLine r s) else nextLine r n s
      else if op = 8 then finishData id 0x60 0 d d (freeLine r s)
      else if op = 5 then
        let s := finishReq id .ok 128 s
        if r.coh then offerLine r s else s
      else finishReq id .ok 128 (freeLine r s)

/-- What follows a served request of a controller. -/
def opDone (o : MemOp) (res : Option (List Byte)) (s : State) : State :=
  match o.cont with
  | .req id => memDone id res s
  | .none_ => s

/-- An atomic operation: the new value (Table 11.3), little-endian integers, ADD wraps. -/
def atomicNew (code len : Nat) (old a b : Nat) : Nat :=
  let w := 256 ^ len
  let sg := fun (x : Nat) => if w / 2 ≤ x then (x : Int) - w else (x : Int)
  match code with
  | 1 => (old + a) % w
  | 2 => Nat.land old a
  | 3 => Nat.lor old a
  | 4 => Nat.xor old a
  | 5 => if sg old < sg a then a else old
  | 6 => if sg a < sg old then a else old
  | 7 => max old a
  | 8 => min old a
  | 9 => a
  | _ => if old = a then b else old

/-- The code and length of an atomic are supported (R254). -/
def atomicOk (code len : Nat) : Bool := decide (1 ≤ code ∧ code ≤ 10) && !(decide (len = 16) && decide (code ≤ 8))

/-- The bytes a write puts into a line whose plaintext is `x`. -/
def opBytes (o : MemOp) (x : Line) : List Byte :=
  match o.atomic with
  | none => o.data
  | some (code, len) =>
    let old := ofLeBytes ((x.toList.drop o.off).take len)
    leBytes len (atomicNew code len old (ofLeBytes (o.data.take len)) (ofLeBytes ((o.data.drop len).take len)))

/-- A write that replaces the whole line. -/
def fullWrite (o : MemOp) : Bool := o.atomic.isNone && decide (o.off = 0) && decide (o.data.length = 128)

/-- A line that an engine or the MRP may be reading: the tier answers, no gate stands, and the tile is a tenant's or the bog list's.
 Log: DESIGN CHOICE 97. -/
def engineReads (s : State) (t : Tier) (l : Nat) : Bool :=
  (gateOf s t l).isNone && !(s.tier t).asleep && !(s.tier t).waking && !(decide (t = .bulk) && s.dram.bulk.moving.isSome) &&
    (match s.use (tileKey t (l / 16384)) with
    | .owned _ _ => true
    | .overflow => true
    | _ => false)

/-- What a queued write makes of a line: none where it leaves or meets poison. -/
def applyWrite (x : Option Line) (o : MemOp) : Option Line :=
  if fullWrite o then (if o.bad then none else some (lineOf o.data))
  else if o.bad then none
  else x.map fun x => mergeLine x o.off (opBytes o x)

/-- An engine's read of a line, its codeword decoded as the row says; the engine's own row then finds the line as that leaves it, or the
wrong data that passed as valid (R240, R241). Log: DESIGN CHOICE 97. -/
def engineMeets (t : Tier) (l : Nat) (e : EccErr) (s : State) : State :=
  let (o, s) := readCodeword t l 0 e (forgetPassed t l s)
  match o with
  | .garbled x false => { s with dram := { s.dram with passed := s.dram.passed ++ [(lineKey t l, x)] } }
  | _ => s

/-- Serve a queued read of a line: from the writes of the line ahead of it, and from DRAM where none of them replaces the whole line (R227,
R240). Where no access to the line is queued the read is an engine's. Log: DESIGN CHOICE 97. -/
def dramRead (t : Tier) (l : Nat) (e : EccErr) (s : State) : State :=
  let mine := s.dram.queue.filter fun o => decide (o.tier = t) && decide (o.line = l)
  let ahead := mine.takeWhile fun o => o.write
  match mine.find? fun o => !o.write with
  | none => if mine.isEmpty && engineReads s t l then settle (engineMeets t l e s) else s
  | some o =>
    if !mayServe s o then s
    else
      let s := serveOp o s
      let (x, s) := if ahead.any fullWrite then (none, s)
        else
          let (out, s) := readCodeword t l 0 e s
          (delivered o.keyT t l out s, s)
      settle (opDone o ((ahead.foldl applyWrite x).map Vector.toList) s)

/-- Serve the oldest write of a line: a full line, or a read-modify-write (R209, R215, R216). -/
def dramWrite (t : Tier) (l : Nat) (e : EccErr) (s : State) : State :=
  match s.dram.queue.find? fun o => o.write && decide (o.tier = t) && decide (o.line = l) with
  | none => s
  | some o =>
    if !mayServe s o then s
    else
      let s := serveOp o s
      if fullWrite o then
        settle (opDone o (some []) (if o.bad then poisonWrite t l s else writeLine o.keyT t l (lineOf o.data) s))
      else
        let (out, s) := readCodeword t l 0 e s
        match delivered o.keyT t l out s with
        | none => settle (opDone o none s)
        | some x =>
          let old := match o.atomic with
            | some (_, len) => (x.toList.drop o.off).take len
            | none => []
          settle (opDone o (some old) (if o.bad then poisonWrite t l s else writeLine o.keyT t l (mergeLine x o.off (opBytes o x)) s))

/-- DRAM_READ_COMPLETE. -/
def execDramReadComplete (tier : Tier) (line : BitVec 36) (e : EccErr) (s : State) : Host.Outcome State Fault Refusal :=
  .next (whileAlive (dramRead tier line.toNat e) s)

/-- DRAM_WRITE_COMPLETE. -/
def execDramWriteComplete (tier : Tier) (line : BitVec 36) (e : EccErr) (s : State) : Host.Outcome State Fault Refusal :=
  .next (whileAlive (dramWrite tier line.toNat e) s)

/-! ## Answers to snoops, grants and offers -/

/-- The tracker that awaits an answer from an agent under a handle, in one of some states (R253). Log: DEDUCED 55. -/
def awaited (s : State) (handle : Nat) (a : Nat) (sts : List TrkSt) : Option Trk :=
  match slotOfHandle handle with
  | none => none
  | some slot => s.dir.trks.find? fun k => decide (k.slot = some slot) && sts.contains k.st && k.waits.any fun w => decide (w.agent = a)

/-- An answer that no tracker awaits (R253). Log: DEDUCED 55. -/
def strayAns (s : State) : State := { s with dir := { s.dir with stray := sat32 s.dir.stray 1 } }

/-- A snoop answer from an endpoint. -/
def snoopAnswer (m : Msg) (ans : AgentAns) (s : State) : State :=
  match agentOf s m.src with
  | none => strayAns s
  | some a =>
    match awaited s m.len.toNat a [.sd, .rc] with
    | none => strayAns s
    | some k => settle (agentAnswer k a ans s)

/-- STASH_ACCEPT or STASH_DECLINE (R259). -/
def stashAnswer (m : Msg) (accept : Bool) (s : State) : State :=
  match agentOf s m.src with
  | none => strayAns s
  | some a =>
    match awaited s m.len.toNat a [.so] with
    | none => strayAns s
    | some k =>
      let s := match accept, k.slot with
        | true, some slot => useEnt slot (s.setEnt slot { st := .e, tier := k.tier, line := k.line, ptrs := [a], keyT := k.keyT, incarn := k.incarn })
        | _, _ => { s with dir := { s.dir with declined := sat32 s.dir.declined 1 } }
      settle (dropTrk k.tier k.line s)

/-- COMP_ACK ends GA (Table 11.4). Log: DEDUCED 55. -/
def compAckAnswer (m : Msg) (s : State) : State :=
  match agentOf s m.src with
  | none => strayAns s
  | some a =>
    match awaited s m.len.toNat a [.ga] with
    | none => strayAns s
    | some k => settle (dropTrk k.tier k.line s)

/-! ## Accesses of the node's own engines -/

/-- An engine may touch a coherent line now: its turn at the slice has come, and no copy is left that its row of Table 11.5 must snoop.
Otherwise it waits there in order of arrival, the snoops go out, and the engine comes back. Log: DESIGN CHOICE 108. -/
def engineLine (u : EngUse) (wr : Bool) (t : Tier) (l keyT : Nat) (s : State) : Bool × State :=
  let x := PendItem.eng u t l
  if lineWaits s t l x then (false, pendItem x s)
  else
    match clearDead t l s with
    | (false, s) => (false, pendItem x s)
    | (true, s) =>
      let k := if wr then DirKind.write else .once
      match findEnt s t l with
      | none => (true, unpend x s)
      | some slot =>
        let (op, xs) := snoopsFor s k (s.ent slot) none
        if xs = [] then (true, unpend x (if wr then s.setEnt slot {} else useEnt slot s))
        else
          let s := addTrk { slot := some slot, st := .sd, tier := t, line := l, waits := xs.map (awaiting s), engine := some wr, keyT
                            incarn := (s.tenant keyT).incarn } s
          (false, pendItem x (xs.foldl (fun s x => toAgent x op (handleOf slot) [] false s) s))

/-! ## Timers, recalls, agents -/

/-- The expiry is logged and posted to the administrator and to the owner of the line (R262, R402). -/
def logSnoopTmo (k : Trk) (a : Nat) (s : State) : State :=
  let s := { s with dir := { s.dir with tmo := sat32 s.dir.tmo 1, status := setBit s.dir.status 2 } }
  let f : FaultSpec := { code := 0x51, scope := 2, event := some 6, object := BitVec.ofNat 16 (sliceOf k.line), detail := BitVec.ofNat 64 a }
  match s.use (tileKey k.tier (k.line / 16384)) with
  | .owned ten part => recordFault { f with part := BitVec.ofNat 8 part, tenant := BitVec.ofNat 8 ten } s
  | _ => recordFault f s

/-- An owner departs: its line is poisoned without a record, unless the recall removes agents calmly (R262, R264). -/
def departOwner (calm : Bool) (slot : Nat) (s : State) : State :=
  let e := s.ent slot
  if calm then s
  else
    let s := poisonLine e.tier e.line s
    { s with dir := { s.dir with depart := sat32 s.dir.depart 1, status := setBit s.dir.status 3 } }

/-- One awaited answer of a tracker has timed out (R262). Log: DEDUCED 55. -/
def expireAwait (k : Trk) (a : Nat) (s : State) : State :=
  let s := logSnoopTmo k a s
  match k.st, k.slot with
  | .ga, _ => dropTrk k.tier k.line s
  | .so, _ => dropTrk k.tier k.line { s with dir := { s.dir with declined := sat32 s.dir.declined 1 } }
  | _, some slot =>
    let e := s.ent slot
    let s := if e.st = .e ∨ e.st = .m then departOwner k.calm slot s else s
    agentAnswer k a .inv s
  | _, none => agentAnswer k a .inv s

/-- SNOOP_TIMEOUT: every answer of the tracker whose timer is due. -/
def snoopTimeoutAt (slot : Nat) (s : State) : State :=
  match s.dir.trks.find? fun k => decide (k.slot = some slot) with
  | none => s
  | some k =>
    let due := k.waits.filter fun w => decide (w.expiry ≤ s.clk.now)
    settle (due.foldl (fun s w =>
      match s.dir.trks.find? fun x => decide (x.slot = some slot) && decide (x.line = k.line) && x.waits.any (fun y => decide (y.agent = w.agent)) with
      | none => s
      | some x => expireAwait x w.agent s) s)

def execSnoopTimeout (slot : Nat) (s : State) : Host.Outcome State Fault Refusal := .next (whileAlive (snoopTimeoutAt slot) s)

/-- The recalls of a tile's cached lines: at a destruction of the dead entries, else of all (R264). Log: DEDUCED 109. -/
def tileRecalls (s : State) (t : Tier) (p : Nat) (c : RecallCause) : List LineRecall :=
  (s.dir.ents.filter fun (_, e) => decide (e.st ≠ .i) && decide (e.tier = t) && decide (e.line / 16384 = p)
    && (decide (c ≠ .destroyed) || !entLive s e)).map fun (slot, e) =>
    { slot, tier := e.tier, line := e.line, keyT := e.keyT, incarn := e.incarn, drop := decide (c = .unmap ∨ c = .destroyed) }

/-- Recall every cached line of a physical tile: at once, or as soon as its line and a tracker are free (R264). Log: DEDUCED 109. -/
def recallTile (t : Tier) (p : Nat) (c : RecallCause) (s : State) : State :=
  startRecalls { s with dir := { s.dir with recallQ := s.dir.recallQ ++ (tileRecalls s t p c).filter fun r => !s.dir.recallQ.contains r } }

/-- The recall of a tile begins now (Table 11.6): for an unmap or a revoke at the boundary that releases the last generation naming the entry,
for a migration once no generation names the source, at a destruction from boundary b on. Log: DEDUCED 109. -/
def recallStarts (s : State) (t : Tier) (p : Nat) : RecallCause → Bool
  | .unmap => atBoundary s && !namedActive s t p
  | .revoke => atBoundary s
  | .migration => (s.til.migs.any fun e => decide (e.2.state = 3 ∧ e.2.srcTier = t ∧ e.2.src = p)) && !namedActive s t p
  | .destroyed => s.dir.ents.any fun e => decide (e.2.st ≠ .i) && decide (e.2.tier = t) && decide (e.2.line / 16384 = p) && !entLive s e.2

/-- TILE_RECALL: data is discarded when the tile was unmapped or its owner is gone, and written back otherwise (Table 11.6). -/
def execTileRecall (tier : Tier) (phys : BitVec 22) (c : RecallCause) (s : State) : Host.Outcome State Fault Refusal :=
  .next (whileAlive (fun s => if recallStarts s tier phys.toNat c then settle (recallTile tier phys.toNat c s) else s) s)

/-- Remove an agent from every entry: owners depart, precise pointers go, coarse bits stay (R249). Log: DEDUCED 56. -/
def sweepAgent (a : Nat) (s : State) : State :=
  s.dir.ents.foldl (fun s (slot, e) =>
    if !e.ptrs.contains a then s
    else if e.st = .e ∨ e.st = .m then (departOwner false slot s).setEnt slot {}
    else s.setEnt slot (dropPtr e a)) s

/-- AGENT_RELEASE (R249). -/
def execAgentRelease (fn : Fn) (m : MbxHdr) (endpoint : BitVec 16) (s : State) : Host.Outcome State Fault Refusal :=
  .next (mailbox fn 0x0301 m (leBytes 2 endpoint.toNat) false (fun s => s.isAdmin fn) (fun o s =>
    if 0xFFF < endpoint.toNat then answer o .noGrant [] s
    else if (s.lookup bindInst (2 * endpoint.toNat + 1)).getLsbD 31 then answer o .busy [] s
    else
      match agentOf s (endpoint.setWidth 12) with
      | none => answer o .noGrant [] s
      | some a =>
        if s.dir.sweeps.any fun w => decide (w.agent = a) then
          { s with dir := { s.dir with sweeps := s.dir.sweeps.map fun w => if w.agent = a then { w with owed := w.owed ++ [o] } else w } }
        else
          let s := sweepAgent a s
          { s with dir := { s.dir with sweeps := s.dir.sweeps ++ [{ agent := a, owed := [o] }] } }) s)

/-- AGENT_SWEEP_DONE: the index becomes free and the mailbox answers OK (R249). Log: DEDUCED 56. -/
def agentSwept (a : Nat) (s : State) : State :=
  match s.dir.sweeps.find? fun w => decide (w.agent = a) with
  | none => s
  | some w =>
    let s := sweepAgent a s
    let s := { s with dir := { s.dir with sweeps := s.dir.sweeps.filter (fun x => decide (x.agent ≠ a)), agents := Tbl.put none s.dir.agents a none } }
    w.owed.foldl (fun s o => answer o .ok [] s) s

def execAgentSweepDone (k : Fin 1024) (s : State) : Host.Outcome State Fault Refusal := .next (whileAlive (agentSwept k.val) s)

end Sys2Proof.Machine
end

