-- ==== Sys2Proof/Machine/Fabric.lean ====
section
/-! DEFINITION. Messages from the links (spec/07_fabric_transport.md): ingress checks, forwarding, write data, the repeat record,
multicast, snoop answers. -/

namespace Sys2Proof.Machine

/-- A port that delivers messages: UP, or just gone to RETRAIN with frames still in its receive buffer. -/
def delivers (s : State) (p : Nat) : Bool := portUsable s p

/-- XPT_NOGRANT, XPT_DISCARD, XPT_UNROUTED (Table 7.6). -/
def cntNoGrant (s : State) : State := { s with xpt := { s.xpt with noGrant := sat32 s.xpt.noGrant 1 } }
def cntDiscard (s : State) : State := { s with xpt := { s.xpt with discard := sat32 s.xpt.discard 1 } }
def cntUnrouted (s : State) : State := { s with xpt := { s.xpt with unrouted := sat32 s.xpt.unrouted 1 } }

/-- The answer to a forwarded REQ passes back by the port the REQ left by: the REQ is outstanding there no more (R151). -/
def fwdAnswered (p : Nat) (cls : MsgClass) (m : Msg) (s : State) : State :=
  let done := fun (r : Msg) => decide (r.src = m.dst) && decide (r.stream = m.stream) && decide (r.rseq = m.rseq) &&
    (decide (cls = .rsp) || (decide (cls = .dat) && decide (m.opcode ≠ 0x61) &&
      (decide (m.opcode ≠ 0x60) || decide (r.len.toNat ≤ m.len.toNat + m.data.length))))
  s.setPort p { s.port p with fwd := (s.port p).fwd.filter fun x => !done x.2 }

/-- The operation that a message belongs to, by its port, SRC, STREAM and RSEQ. -/
def fwdKey (p : Fin 32) (m : Msg) : StaleFwd := { port := p, src := m.src, stream := m.stream, rseq := m.rseq }

/-- The message is write data of a forwarded REQ that ended with TABLE_STALE (R42). Log: DEDUCED 24. -/
def forStale (s : State) (p : Fin 32) (cls : MsgClass) (m : Msg) : Bool :=
  decide (cls = .dat ∧ m.opcode = 0x61) &&
    s.xpt.staleFwd.contains (fwdKey p m)

/-- A REQ begins a new operation under its SRC, STREAM and RSEQ. -/
def newFwd (p : Fin 32) (m : Msg) (s : State) : State :=
  { s with xpt := { s.xpt with staleFwd := s.xpt.staleFwd.filter fun x => decide (x ≠ fwdKey p m) } }

/-- Forward a message that has passed check 1 (R162): a REQ that cannot go is answered, any other message is discarded and counted. -/
def routeMsg (p : Fin 32) (cls : MsgClass) (m : Msg) (s : State) : State :=
  let d := m.dst.toNat
  let tags := [s.tagOf bindInst, s.tagOf routeInst]
  if d = 0xFFF ∧ cls = .req then taggedAnswer p.val m .noGrant [s.tagOf bindInst] s
  else if !(s.routeTo d).valid then
    if cls = .req then taggedAnswer p.val m .noGrant tags (cntUnrouted s) else cntUnrouted s
  else
    match egressTo s d with
    | none => if cls = .req then taggedAnswer p.val m .linkLost tags s else cntUnrouted s
    | some q =>
      let s := if cls = .rsp ∨ cls = .dat then fwdAnswered p.val cls m s else s
      let s := if cls = .req then newFwd p m s else s
      if forStale s p cls m then s
      else enqueue q { msgItemAs cls m with fwd := if cls = .req then some p else none, origin := p.val, tags } s

/-- Check 1, then the route (R161). -/
def forwardMsg (p : Fin 32) (cls : MsgClass) (m : Msg) (s : State) : State :=
  if !s.bound m.src.toNat p.val then
    if cls = .req then taggedAnswer p.val m .noGrant [s.tagOf bindInst] s else cntNoGrant s
  else routeMsg p cls m s

/-- The message is addressed to the node (R13, R161); 0xFFF is no node's ID. -/
def isLocal (s : State) (m : Msg) : Bool := decide (m.dst = s.xpt.endpoint) && decide (m.dst ≠ 0xFFF)

/-! ## The repeat check (R166) -/

/-- What check 6 decides. -/
inductive RepeatRes where
  | fresh
  | answered (s : State)

def cntRepeat (s : State) : State := { s with xpt := { s.xpt with repeats := sat32 s.xpt.repeats 1 } }

/-- The window of new RSEQ values after the newest recorded. -/
def newRseq (record : List RecEntry) (rseq : BitVec 16) : Bool :=
  match record with
  | [] => true
  | e :: _ => decide (1 ≤ (rseq - e.rseq).toNat ∧ (rseq - e.rseq).toNat ≤ 32767)

/-- Check 6 for one REQ that has passed checks 1 to 5. -/
def repeatCheck (p : Fin 32) (m : Msg) (tags : List (Nat × BitVec 16)) (s : State) : RepeatRes :=
  if !msgNonIdem m then .fresh
  else
    let k := m.stream.toNat
    let x := s.stream k
    match x.record.find? fun e => decide (e.rseq = m.rseq) with
    | some e =>
      let s := cntRepeat s
      if !e.done then
        .answered (s.setStream k { x with record := x.record.map fun y => if y = e then { y with repeats := y.repeats ++ [(p, m, tags)] } else y })
      else if e.status = .ok ∧ e.result ≠ [] then
        .answered (if portUsable s p.val then enqueue p.val { msgItem (datMsg s m 0x60 0 e.result) with ans := true, tags } s else s)
      else .answered (if portUsable s p.val then enqueue p.val { msgItem (rspMsg s m e.status e.count.toNat) with ans := true, tags } s else s)
    | none =>
      if newRseq x.record m.rseq then .fresh else .answered (taggedAnswer p.val m .alreadyDone tags (cntRepeat s))

/-- A new non-idempotent request enters the record, in place of the oldest of 64 (R166). -/
def enterRecord (m : Msg) (s : State) : State :=
  if msgNonIdem m then
    let k := m.stream.toNat
    let x := s.stream k
    s.setStream k { x with record := ({ rseq := m.rseq } : RecEntry) :: x.record.take 63 }
  else s

/-! ## Ingress (R160) -/

/-- Check 4: the stream's entry is VALID and names the message's tenant and source. -/
def streamOk (s : State) (m : Msg) : Bool :=
  let c := s.strCfg m.stream.toNat
  c.getLsbD 31 && decide (c.toNat / 2 ^ 24 % 128 = m.tenant.toNat) && decide (c.toNat % 4096 = m.src.toNat)

/-- Checks 2, 3, 4 and 5 of Table 7.4 in order: the status of the first that fails. -/
def checks2to5 (s : State) (m : Msg) : Option Status :=
  if !(decide (1 ≤ m.opcode.toNat ∧ m.opcode.toNat ≤ 9)) then some .unsupported
  else if (s.tenant m.tenant.toNat).state ≠ .live ∨ !s.admitted m.tenant.toNat m.src.toNat then some .noGrant
  else if !streamOk s m then some .noGrant
  else if (s.stream m.stream.toNat).windowNow ≤ outstanding s m.stream.toNat then some .busy
  else none

/-- Check 7: LEN, alignment, the tile bound, and an atomic's code (R158, R254). -/
def check7 (m : Msg) : Option Status :=
  if !msgLenOk m then some .badLength
  else if m.opcode = 8 ∧ !atomicOk (m.opargs.headD 0).toNat m.len.toNat then some .unsupported
  else if msgCrosses m then some .outOfBounds
  else none

/-- Check 8: the translation checks of Table 9.2. -/
def translate (s : State) (t va : Nat) (wr : Bool) : Except Status TileEnt :=
  let e := s.tileAt t (tileOf va)
  if !e.valid then .error .outOfBounds
  else if wr && e.readOnly then .error .noGrant
  else if e.shared ∧ (s.tenant e.keyT).state ≠ .live then .error .noGrant
  else .ok e

/-- Accept a request that has passed check 6: it takes its window slot, its record entry and its timer; checks 7 and 8 decide whether
it runs (R63, R64, R160). -/
def acceptReq (p : Fin 32) (m : Msg) (s : State) : State :=
  let id := s.serialNo
  let n := s.strTimeout m.stream.toNat
  let tags := [s.tagOf bindInst, s.tagOf (admInst m.tenant.toNat), s.tagOf streamInst, s.tagOf (tileMapInst m.tenant.toNat)]
  let tags := if m.opcode = 9 then s.tagOf mcInst :: tags else tags
  let r : OReq := { id, port := p, msg := m, tags, group := if m.opcode = 9 then s.mcEntry m.group.toNat else [], expiry := if n = 0 then none else some (s.clk.now + n) }
  let s := enterRecord m { s with serialNo := id + 1, reqs := s.reqs ++ [r] }
  if m.opcode = 9 ∧ !s.mcValid m.group.toNat then finishReq id .noGrant 0 s
  else
    match check7 m with
    | some st => finishReq id st 0 s
    | none =>
      match translate s m.tenant.toNat m.addr.toNat (msgWriteClass m) with
      | .error st => finishReq id st 0 s
      | .ok e =>
        let r := { r with tier := e.tier, phys := e.phys, keyT := e.keyT, coh := e.coherent }
        let s := s.setReq r
        if e.coherent ∧ (m.opcode = 1 ∨ m.opcode = 2) then
          match registerAgent m.src s with
          | none => finishReq id .busy 0 { s with dir := { s.dir with status := setBit s.dir.status 1 } }
          | some (_, s) => startReq id s
        else if msgDataLen m = 0 then startReq id s
        else s.setReq { r with phase := .data }

/-- A REQ arrives: it leaves its receive buffer slot, and is forwarded, answered by the first check that fails, or accepted. -/
def ingress (p : Fin 32) (m : Msg) (s : State) : State :=
  if !delivers s p.val then s
  else
    let s := rxFree p.val 0 s
    if !isLocal s m then forwardMsg p .req m s
    else if !s.bound m.src.toNat p.val then taggedAnswer p.val m .noGrant [s.tagOf bindInst] s
    else
      let tags := [s.tagOf bindInst, s.tagOf (admInst m.tenant.toNat), s.tagOf streamInst]
      match checks2to5 s m with
      | some st => taggedAnswer p.val m st (if st = .unsupported then [s.tagOf bindInst] else tags) s
      | none =>
        match repeatCheck p m tags s with
        | .answered s => s
        | .fresh => settle (acceptReq p m s)

def execRdShared (p : Fin 32) (m : Msg) (s : State) : Host.Outcome State Fault Refusal := .next (whileAlive (ingress p { m with opcode := 1 }) s)
def execRdUnique (p : Fin 32) (m : Msg) (s : State) : Host.Outcome State Fault Refusal := .next (whileAlive (ingress p { m with opcode := 2 }) s)
def execRdOnce (p : Fin 32) (m : Msg) (s : State) : Host.Outcome State Fault Refusal := .next (whileAlive (ingress p { m with opcode := 3 }) s)
def execWrFull (p : Fin 32) (m : Msg) (s : State) : Host.Outcome State Fault Refusal := .next (whileAlive (ingress p { m with opcode := 4 }) s)
def execWrStash (p : Fin 32) (m : Msg) (s : State) : Host.Outcome State Fault Refusal := .next (whileAlive (ingress p { m with opcode := 5 }) s)
def execWbDirty (p : Fin 32) (m : Msg) (s : State) : Host.Outcome State Fault Refusal := .next (whileAlive (ingress p { m with opcode := 6 }) s)
def execEvictClean (p : Fin 32) (m : Msg) (s : State) : Host.Outcome State Fault Refusal := .next (whileAlive (ingress p { m with opcode := 7 }) s)
def execAtOp (p : Fin 32) (m : Msg) (s : State) : Host.Outcome State Fault Refusal := .next (whileAlive (ingress p { m with opcode := 8 }) s)
def execMcastRead (p : Fin 32) (m : Msg) (s : State) : Host.Outcome State Fault Refusal := .next (whileAlive (ingress p { m with opcode := 9 }) s)

/-- REQ_RESERVED: a REQ whose opcode is reserved fails check 2 (R158, R160). -/
def execReqReserved (p : Fin 32) (m : Msg) (s : State) : Host.Outcome State Fault Refusal := .next (whileAlive (ingress p m) s)

/-! ## The other classes -/

/-- A message of class SNP, RSP or DAT arrives: its buffer slot is freed whatever VC0 does (R159); check 1; then forwarded, discarded
as reserved, or handled (R158, R161). -/
def arrive (p : Fin 32) (cls : MsgClass) (m : Msg) (local_ : State → State) (s : State) : State :=
  if !delivers s p.val then s
  else
    let s := rxFree p.val cls.vc s
    let m := trimMsg m
    if !s.bound m.src.toNat p.val then cntNoGrant s
    else if opReserved cls m.opcode.toNat then cntDiscard s
    else if isLocal s m then local_ s
    else routeMsg p cls m s

/-- FORWARD: a message of any class for another endpoint (R161 to R163). -/
def execForward (p : Fin 32) (cls : MsgClass) (m : Msg) (s : State) : Host.Outcome State Fault Refusal :=
  .next (whileAlive (fun s =>
    if cls = .req then ingress p m s
    else arrive p cls m cntDiscard s) s)

/-- RESERVED_OPCODE_DISCARD (R158). -/
def execReservedOpcodeDiscard (p : Fin 32) (cls : MsgClass) (m : Msg) (s : State) : Host.Outcome State Fault Refusal :=
  .next (whileAlive (fun s => if cls = .req ∨ !opReserved cls m.opcode.toNat then s else arrive p cls m id s) s)

/-- Write data joins its request; with the last of it the request starts (R158). Data that no request awaits is dropped. Log: DEDUCED 34. -/
def writeData (m : Msg) (s : State) : State :=
  match s.reqs.find? fun r => decide (r.phase = .data) && decide (r.msg.src = m.src) && decide (r.msg.stream = m.stream) && decide (r.msg.rseq = m.rseq) with
  | none => s
  | some r =>
    let r := { r with got := r.got ++ m.data, bad := if m.poisoned then r.bad ++ [r.got.length] else r.bad }
    let s := s.setReq r
    if r.got.length < msgDataLen r.msg then s
    else settle (startReq r.id s)

/-- DAT_WRITE. -/
def execDatWrite (p : Fin 32) (m : Msg) (s : State) : Host.Outcome State Fault Refusal :=
  .next (whileAlive (arrive p .dat { m with opcode := 0x61 } (writeData (trimMsg { m with opcode := 0x61 }))) s)

/-- One line of a local multicast write: as WR_FULL under the local tenant's map, with no answer (R170). -/
def mcLocalLine (g : Nat) (va : Nat) (d : List Byte) (bad : Bool) (p : Fin 32) (s : State) : State :=
  let t := s.mcWord g 1 % 128
  let err := fun (s : State) => { s with xpt := { s.xpt with mcLocal := sat32 s.xpt.mcLocal 1 } }
  if (s.tenant t).state ≠ .live then err s
  else
    match translate s t va true with
    | .error _ => err s
    | .ok e =>
      let id := s.serialNo
      let m : Msg := { opcode := 4, tenant := BitVec.ofNat 7 t, len := BitVec.ofNat 32 d.length, addr := BitVec.ofNat 48 va, src := 0xFFF }
      let r : OReq := { id, port := p, msg := m, tags := [s.tagOf (tileMapInst t)], tier := e.tier, phys := e.phys, keyT := e.keyT
                        coh := e.coherent, got := d, bad := if bad then [0] else [], silent := true }
      serveLine id { s with serialNo := id + 1, reqs := s.reqs ++ [r] }

/-- The local write of MCAST_DATA, line by line (R170). -/
def mcLocal (g : Nat) (m : Msg) (p : Fin 32) (s : State) : State :=
  let base := (s.mcWord g 3 % 65536) * 2 ^ 32 + s.mcWord g 2 / 128 * 128
  let va := (base + m.len.toNat) % 2 ^ 48
  let n := min m.data.length (128 - va % 128)
  let s := mcLocalLine g va (m.data.take n) m.poisoned p s
  if n < m.data.length then mcLocalLine g ((va + n) % 2 ^ 48) (m.data.drop n) m.poisoned p s else s

/-- MCAST_DATA: replicated to the group's ports but the arrival port, and written locally when LOCAL is set (R170). -/
def mcastIn (p : Fin 32) (m : Msg) (s : State) : State :=
  let g := m.aux.toNat
  if !s.mcValid g then cntUnrouted s
  else
    let tags := [s.tagOf mcInst]
    let s := mcastOut (s.mcEntry g) (some p.val) m (fun it => { it with origin := p.val, tags }) s
    if (s.mcWord g 1).testBit 30 ∧ m.data ≠ [] then settle (mcLocal g m p s) else s

def execMcastData (p : Fin 32) (m : Msg) (s : State) : Host.Outcome State Fault Refusal :=
  .next (whileAlive (fun s =>
    let m := trimMsg { m with opcode := 0x62 }
    if !delivers s p.val then s
    else
      let s := rxFree p.val 3 s
      if !s.bound m.src.toNat p.val then cntNoGrant s else mcastIn p m s) s)

/-- MCAST_READ_COMPLETE: every copy handed over or dropped, the requester's RSP_STATUS goes out (R169). -/
def mcastComplete (k : BitVec 12) (rseq : BitVec 16) (s : State) : State :=
  match s.reqs.find? fun r => decide (r.msg.stream = k) && decide (r.msg.rseq = rseq) && r.endSt.isSome && decide (r.toHand = 0) && decide (r.phase = .run) with
  | none => s
  | some r =>
    let st := if r.endSt ≠ some .ok then r.endSt.getD .ok else if r.drops = 0 then .ok else .linkLost
    finishReq r.id st r.pos s

def execMcastReadComplete (sid : BitVec 12) (rseq : BitVec 16) (s : State) : Host.Outcome State Fault Refusal :=
  .next (whileAlive (mcastComplete sid rseq) s)

def execSnpAckInv (p : Fin 32) (m : Msg) (s : State) : Host.Outcome State Fault Refusal :=
  .next (whileAlive (arrive p .rsp { m with opcode := 0x41 } (snoopAnswer m .inv)) s)
def execSnpAckShared (p : Fin 32) (m : Msg) (s : State) : Host.Outcome State Fault Refusal :=
  .next (whileAlive (arrive p .rsp { m with opcode := 0x42 } (snoopAnswer m .kept)) s)
def execStashAccept (p : Fin 32) (m : Msg) (s : State) : Host.Outcome State Fault Refusal :=
  .next (whileAlive (arrive p .rsp { m with opcode := 0x43 } (stashAnswer m true)) s)
def execStashDecline (p : Fin 32) (m : Msg) (s : State) : Host.Outcome State Fault Refusal :=
  .next (whileAlive (arrive p .rsp { m with opcode := 0x44 } (stashAnswer m false)) s)
def execCompAck (p : Fin 32) (m : Msg) (s : State) : Host.Outcome State Fault Refusal :=
  .next (whileAlive (arrive p .rsp { m with opcode := 0x45 } (compAckAnswer m)) s)
def execDatSnpS (p : Fin 32) (m : Msg) (s : State) : Host.Outcome State Fault Refusal :=
  .next (whileAlive (arrive p .dat { m with opcode := 0x66 } (snoopAnswer m (.data (trimMsg m).data m.poisoned true))) s)
def execDatSnpI (p : Fin 32) (m : Msg) (s : State) : Host.Outcome State Fault Refusal :=
  .next (whileAlive (arrive p .dat { m with opcode := 0x67 } (snoopAnswer m (.data (trimMsg m).data m.poisoned false))) s)

end Sys2Proof.Machine
end

