-- ==== Sys2Proof/Machine/Region.lean ====
section
/-! DEFINITION. The regions of the Sedge array (spec/14_sedge_array.md): frames and what they configure, the running launches, how one
ends, and how a configuration stream gives up the columns it claimed. -/

namespace Sys2Proof.Machine

/-! ## Frames (R325, R326, R342) -/

/-- A frame's key. -/
def frameKey (col f : Nat) : Nat := col * 40 + f

/-- The 64 words of a frame; a frame not listed is all zeros. -/
def frameAt (s : State) (col f : Nat) : List Word :=
  let w := Tbl.get [] s.arr.frames (frameKey col f)
  if w = [] then List.replicate 64 0 else w

/-- The 64 words of a frame's essential-bits map; a map not listed is all ones. -/
def mapAt (s : State) (col f : Nat) : List Word :=
  let w := Tbl.get [] s.arr.maps (frameKey col f)
  if w = [] then List.replicate 64 0xFFFFFFFF else w

/-- Store a frame; all zeros is the table's default. -/
def putFrame (col f : Nat) (w : List Word) (s : State) : State :=
  { s with arr := { s.arr with frames := Tbl.put [] s.arr.frames (frameKey col f) (if w = List.replicate 64 0 then [] else w) } }

/-- Store a map; all ones is the table's default. -/
def putMap (col f : Nat) (w : List Word) (s : State) : State :=
  { s with arr := { s.arr with maps := Tbl.put [] s.arr.maps (frameKey col f) (if w = List.replicate 64 0xFFFFFFFF then [] else w) } }

/-- The bits of a frame that are 1 (R325). -/
def frameOnes (w : List Word) : List Nat := (List.range 2048).filter fun b => (w.getD (b / 32) 0).getLsbD (b % 32)

/-- SYN of a frame: [11:0] the exclusive-or of b + 1 over its ones, [12] its parity (R342). -/
def frameSyn (w : List Word) : Nat :=
  let ones := frameOnes w
  ones.foldl (fun a b => a ^^^ (b + 1)) 0 % 4096 + ones.length % 2 * 4096

/-- The parity of a number's low bits. -/
def parity (n w : Nat) : Nat := ((List.range w).filter fun i => n.testBit i).length % 2

/-- The 14-bit check word of a frame (R342). -/
def checkWord (w : List Word) : Nat := frameSyn w + parity (frameSyn w) 13 * 8192

/-- A frame write: every map bit becomes 1 and the check word is computed (R329). -/
def writeFrame (col f : Nat) (w : List Word) (s : State) : State :=
  let s := putMap col f (List.replicate 64 0xFFFFFFFF) (putFrame col f w s)
  { s with arr := { s.arr with checks := Tbl.put 0 s.arr.checks (frameKey col f) (checkWord w) } }

/-- Write zeros into all 40 frames of a column, and ones into their maps (Table 15.3). -/
def clearColumn (col : Nat) (s : State) : State :=
  (List.range 40).foldl (fun s f => writeFrame col f (List.replicate 64 0) s) s

/-! ## What the frames configure (Table 15.1): a frame of all zeros configures nothing (R326) -/

def zeroWords (w : List Word) : Bool := w.all fun x => decide (x = 0)

/-- Log: DESIGN CHOICE 68. -/
def cuOf (s : State) (col k : Nat) : CuCfg :=
  let w := (List.range 3).flatMap fun i => frameAt s col (3 * k + i)
  if zeroWords w then {} else Config.cuCfg w

def muWords (s : State) (col k : Nat) : List Word := frameAt s col (24 + 2 * k) ++ frameAt s col (25 + 2 * k)

/-- Log: DESIGN CHOICE 68. -/
def muOf (s : State) (col k st : Nat) : MuCfg :=
  let w := muWords s col k
  if zeroWords w then {} else Config.muCfg w st

/-- Log: DESIGN CHOICE 68. -/
def suOf (s : State) (col k : Nat) : SuCfg :=
  let w := frameAt s col (32 + k)
  if zeroWords w then {} else Config.suCfg w

/-- Log: DESIGN CHOICE 68. -/
def scOf (s : State) (col : Nat) : ScCfg :=
  let w := frameAt s col 35
  if zeroWords w then {} else Config.scCfg w

/-- The network of an output of a unit: 0 vector, 1 scalar, 2 control; none where Table 14.1 has no such output. -/
def outNet (s : State) (col row port : Nat) : Option Nat :=
  if row < 8 then [0, 1, 2][port]?
  else if row < 12 then [0, 0, 1, 2, 2, 2, 2][port]?
  else if row < 15 then (let w := if (suOf s col (row - 12)).vector then 0 else 1; [w, w, 2][port]?)
  else [1, 1, 2][port]?

/-- The network of an input of a unit (Table 14.1). -/
def inNet (s : State) (col row port : Nat) : Option Nat :=
  if row < 8 then [0, 0, 0, 1, 2][port]?
  else if row < 12 then [0, 0, 1, 1, 2][port]?
  else if row < 15 then (let w := if (suOf s col (row - 12)).vector then 0 else 1; [w, w, 2][port]?)
  else [1, 1, 1, 2][port]?

/-- What the switch frames of a column name, as far as a connection joins an output and an input of one network, at most 4 columns apart, and
an output joins at most 4 inputs (R307). Log: DESIGN CHOICE 68. -/
def rawConns (s : State) (col : Nat) : List ArrConn :=
  let w := (List.range 3).flatMap fun i => frameAt s col (36 + i)
  let l := if zeroWords w then [] else Config.switchCfg w
  let l := l.filter fun k => (outNet s col k.row.val k.port).isSome
    && decide (outNet s col k.row.val k.port = inNet s k.col.val k.drow.val k.dport ∧ col ≤ k.col.val + 4 ∧ k.col.val ≤ col + 4)
  l.zipIdx.filterMap fun (k, i) =>
    if ((l.take i).filter fun x => decide (x.row = k.row ∧ x.port = k.port)).length < 4 then some k else none

/-- The tracks of a network across one column boundary in one direction (R307). -/
def trackCount (net : Nat) : Nat := if net = 0 then 8 else if net = 1 then 16 else 32

/-- A connection from a column crosses the boundary between columns b and b + 1, to the right or to the left. -/
def crosses (col b : Nat) (right : Bool) (k : ArrConn) : Bool :=
  if right then decide (col ≤ b ∧ b < k.col.val) else decide (k.col.val ≤ b ∧ b < col)

/-- A boundary's tracks of one network and direction carry the connections of the lowest columns, in the order of their frames.
Log: DESIGN CHOICE 68. -/
def tracked (s : State) (col b : Nat) (right : Bool) (k : ArrConn) : Bool :=
  let net := outNet s col k.row.val k.port
  let users := ((List.range 8).map fun i => b + i - 3).dedup.flatMap fun c =>
    ((rawConns s c).filter fun x => crosses c b right x && decide (outNet s c x.row.val x.port = net)).map fun x => (c, x)
  (users.take (trackCount (net.getD 0))).contains (col, k)

/-- The connections whose producer lies in a column: each has its tracks across every boundary on its way (R307). Log: DESIGN CHOICE 68. -/
def connsOf (s : State) (col : Nat) : List ArrConn :=
  (rawConns s col).filter fun k =>
    let (lo, hi) := (min col k.col.val, max col k.col.val)
    (List.range (hi - lo)).all fun i => tracked s col (lo + i) (decide (col < k.col.val)) k

/-- Log: DESIGN CHOICE 68. -/
def ctlOf (s : State) (col : Nat) : CtlCfg :=
  let w := frameAt s col 39
  if zeroWords w then {} else Config.ctlCfg w

/-- A unit's ID (R306). -/
def unitId (col row : Nat) : Nat := col * 16 + row

/-- The key of an input queue. -/
def inKey (unit port : Nat) : Nat := unit * 16 + port

/-- The initial entries of the units of a column, by row (R310). -/
def initsOf (s : State) (col row : Nat) : List (Nat × BitVec 1024) :=
  if row < 8 then (cuOf s col row).init
  else if row < 12 then (let w := muWords s col (row - 8); if zeroWords w then [] else Config.muInit w)
  else if row < 15 then (suOf s col (row - 12)).init
  else (scOf s col).init

/-! ## Running launches -/

/-- A column lies in a launch's region. -/
def inRegion (r : Launch) (col : Nat) : Bool := decide (r.first ≤ col ∧ col < r.first + r.count)

/-- The columns of a region. -/
def regionCols (r : Launch) : List Nat := (List.range r.count).map fun i => r.first + i

/-- The launch whose region holds a column. -/
def launchOn (s : State) (col : Nat) : Option Launch := s.arr.runs.find? fun r => inRegion r col

/-- The launch of a command. -/
def launchOf (s : State) (q : QId) (idx : BitVec 16) : Option Launch := s.arr.runs.find? fun r => decide (r.q = q ∧ r.idx = idx)

/-- Change a running launch. -/
def putLaunch (r : Launch) (s : State) : State :=
  { s with arr := { s.arr with runs := s.arr.runs.map fun x => if x.q = r.q ∧ x.idx = r.idx then r else x } }

/-- Units of the region fire: no end has been recorded (R317, R318). -/
def firing (r : Launch) : Bool := r.ended.isNone && r.done.isNone

/-- A connection crosses a link that is cut for the run, or the boundary between the dies (R308, R316). Log: DESIGN CHOICE 72. -/
def cutConn (r : Launch) (col : Nat) (k : ArrConn) : Bool :=
  !inRegion r k.col.val || decide (col / 32 ≠ k.col.val / 32)

/-- Place the initial entries of a column (R310). -/
def placeInits (col : Nat) (r : Launch) (s : State) : Launch :=
  { r with queues := (List.range 16).foldl (fun t row =>
      (initsOf s col row).foldl (fun t e =>
        let k := inKey (unitId col row) e.1
        let l := Tbl.get [] t k
        if e.1 < 16 ∧ l.length < 4 then Tbl.put [] t k (l ++ [e.2]) else t) t) r.queues }

/-- Empty the input queues of a column (R337). Log: DESIGN CHOICE 112. -/
def dropQueues (col : Nat) (r : Launch) : Launch :=
  { r with queues := r.queues.filter fun e => decide (e.1 / 256 ≠ col) }

/-! ## Configuration streams -/

def loaderOf (s : State) (l : LoaderId) : Option Loader := s.arr.loaders.find? fun x => decide (x.id = l)

def putLoader (x : Loader) (s : State) : State :=
  { s with arr := { s.arr with loaders := s.arr.loaders.map fun y => if y.id = x.id then x else y } }

def dropLoader (l : LoaderId) (s : State) : State :=
  { s with arr := { s.arr with loaders := s.arr.loaders.filter fun y => decide (y.id ≠ l) } }

/-- A column's state after a load: EMPTY where its last write was CLEAR, else LOADED (R333, R339). -/
def settleColumn (col : Nat) (s : State) : State :=
  let c := s.col col
  s.setCol col { c with state := if c.cleared then .empty else .loaded, loader := none }

/-- Clear a column and set it EMPTY (R333). -/
def wipeColumn (col : Nat) (s : State) : State :=
  let s := clearColumn col s
  s.setCol col { s.col col with state := .empty, loader := none, cleared := true }

/-- The connections of a column that cross a cut link, by their producers. Log: DESIGN CHOICE 72. -/
def cutUnits (s : State) (r : Launch) (col : Nat) : List Nat :=
  ((connsOf s col).filter fun k => cutConn r col k).map fun k => unitId col k.row.val

/-- The order of causes recorded in one cycle, after DONE: a memory failure by unit, a halted column, STOP or Q_ABORT (R318). -/
def causeRank (cause unit : Nat) : Nat := if cause = 7 then unit else if cause = 3 then 1024 else if cause = 4 ∨ cause = 5 then 1025 else 1026

/-- The recorded end gives way to a cause of the same cycle that stands before it. The steps of a boundary stand in their own order
(R318). -/
def yields (r : Launch) (cause unit : Nat) (s : State) : Bool :=
  match r.ended with
  | none => r.done.isNone || decide (cause = 7 ∧ r.endedAt ≠ ageNow s)
  | some (c, u, _) => decide (r.endedAt = ageNow s ∧ causeRank c u < 1026 ∧ causeRank cause unit < causeRank c u)

/-- Record the end of a launch: the first cause stands, DONE before others, but a failed access still decides (R318).
 Log: DESIGN CHOICE 72. -/
def recordEnd (r : Launch) (cause unit : Nat) (st : Status) (s : State) : State :=
  if !yields r cause unit s then s
  else
    let s := putLaunch { r with ended := some (cause, unit, st), endedAt := ageNow s } s
    let b := if cause = 2 then setBit s.arr.status 2 else if cause = 6 then setBit s.arr.status 1 else s.arr.status
    { s with arr := { s.arr with status := b } }

/-- Resume a column swapped in place (R337). Log: DEDUCED 74, DESIGN CHOICE 112. -/
def resumeColumn (r : Launch) (col : Nat) (s : State) : State :=
  match cutUnits s r col with
  | u :: _ => recordEnd r 6 u .unsupported s
  | [] =>
    let s := putLaunch (placeInits col r s) s
    s.setCol col { s.col col with state := .running, loader := none }

/-- A frame writer's stream ends: its claimed columns outside the region are settled, those of the region resumed while the launch still
runs (R337, R339, R340). -/
def endSelfLoad (x : Loader) (st : Status) (s : State) : State :=
  if x.ended.isSome then s
  else
    let s := putLoader { x with ended := some st, words := [], blk := none } s
    match x.id with
    | .self col _ _ =>
      x.claimed.foldl (fun s k =>
        match launchOn s col.val with
        | some r =>
          if inRegion r k then (if firing r then resumeColumn r k s else s) else settleColumn k s
        | none => settleColumn k s) s
    | _ => s

/-- Every stream of a launch's frame writers ends at once with the launch (R340). -/
def endRegionLoads (r : Launch) (s : State) : State :=
  s.arr.loaders.foldl (fun s x =>
    match x.id with
    | .self col _ _ => if inRegion r col.val then endSelfLoad x .aborted s else s
    | _ => s) s

/-- A launch ends for a cause of Table 14.7. Log: DESIGN CHOICE 72. -/
def launchEnd (q : QId) (idx : BitVec 16) (cause unit : Nat) (st : Status) (s : State) : State :=
  match launchOf s q idx with
  | none => s
  | some r => endRegionLoads r (recordEnd r cause unit st s)

/-- A host load is stopped: its range is cleared and set EMPTY (R333). -/
def stopHostLoad (q : QId) (idx : BitVec 16) (s : State) : State :=
  match loaderOf s (.host q idx) with
  | none => s
  | some x => dropLoader x.id (x.range.foldl (fun s c => wipeColumn c s) s)

/-- A column's ARR_COL word (Table 14.8). -/
def colWord (s : State) (k : Nat) : Word :=
  let c := s.col k
  let st := match c.state with
    | .unowned => 0 | .unavailable => 1 | .empty => 2 | .loaded => 3 | .loading => 4 | .running => 5 | .halted => 6
  field 29 st ||| (if st = 0 then 0 else field 24 c.part)
    ||| (if c.state = .running then field 16 c.tenant ||| field 8 c.first ||| BitVec.ofNat 32 c.count else 0)

end Sys2Proof.Machine
end

