-- ==== Sys2Proof/Machine/Course.lean ====
section
/-! DEFINITION. The course and the generations (spec/02_the_course.md): the traffic that counts against a generation, release, release by
age, the stale events owed, course slips, the course packet and the loss of the course clock. -/

namespace Sys2Proof.Machine

/-! ## Traffic that counts against a generation (R40) -/

/-- Accepted requests tagged with a generation. -/
def reqHits (s : State) (g : Nat × BitVec 16) : List OReq := s.reqs.filter fun r => holdsTags s r && r.tags.contains g

/-- Queued messages tagged with it, with their ports. -/
def itemHits (s : State) (g : Nat × BitVec 16) : List (Nat × TxItem) :=
  s.ports.flatMap fun (n, p) => (p.txq.filter fun it => it.tags.contains g).map fun it => (n, it)

/-- Engine commands that work in a tile under it, with their queues. -/
def cmdHits (s : State) (g : Nat × BitVec 16) : List (Nat × Cmd) :=
  s.eng.queues.flatMap fun (k, x) => (x.cmds.filter fun c => (decide (c.phase = .running) && c.tag.contains g) || decide (c.mcTag = some g)).map fun c => (k, c)

/-- Memory-unit streams that work in a tile under it, with their launches (R40, R315). -/
def streamHits (s : State) (g : Nat × BitVec 16) : List (Launch × Nat) :=
  s.arr.runs.flatMap fun r => (r.streams.filter fun e => decide (g.1 = r.tenant)
    && ((firing r && decide (e.2.held.map Prod.snd = some g.2)) || e.2.flight.any fun f => decide (f.gen = g.2))).map fun e => (r, e.1)

/-- Repeats that wait for their original (R166): the stream, the original's RSEQ, the repeat. -/
def repeatHits (s : State) (g : Nat × BitVec 16) : List (Fin 32 × Msg) :=
  s.streams.flatMap fun (_, x) => x.record.flatMap fun e => (e.repeats.filter fun r => r.2.2.contains g).map fun r => (r.1, r.2.1)

/-- The retired generation of an instance. Log: DEDUCED 24. -/
def retiredGen (s : State) (i : Nat) : Nat × BitVec 16 := (i, (s.inst i).gen - 1)

/-- The in-flight count of an instance's retired generation; the pin-function table holds no traffic (R40, R46). Log: DEDUCED 24. -/
def inflight (s : State) (i : Nat) : Nat :=
  let g := retiredGen s i
  if (s.inst i).retired then (reqHits s g).length + (itemHits s g).length + (repeatHits s g).length + (cmdHits s g).length + (streamHits s g).length else 0

/-! ## Release (R41, R42) -/

/-- Change one fetched command of a queue. -/
def setCmd (k : Nat) (c : Cmd) (s : State) : State :=
  let x := s.queue k
  s.setQueue k { x with cmds := x.cmds.map fun y => if y.idx = c.idx then c else y }

/-- Write data of a forwarded REQ that has ended is discarded when it comes (R42). -/
def forgetFwd (q : Fin 32) (m : Msg) (s : State) : State :=
  if msgDataLen m = 0 then s
  else { s with xpt := { s.xpt with staleFwd := { port := q, src := m.src, stream := m.stream, rseq := m.rseq } :: s.xpt.staleFwd } }

/-- One queued message under a generation released by age: a forwarded REQ is answered TABLE_STALE, an answer becomes TABLE_STALE unless
its status is final, and any other message is discarded (R32, R42). Log: DEDUCED 24. -/
def staleItem (g : Nat × BitVec 16) (n : Nat) (it : TxItem) (s : State) : State :=
  let p := s.port n
  let drop := s.setPort n { p with txq := p.txq.erase it }
  let put := fun (x : TxItem) => s.setPort n { p with txq := p.txq.map fun y => if y = it then x else y }
  match it.fwd with
  | some q => rawAnswer q.val it.msg .tableStale 0 (forgetFwd q it.msg drop)
  | none =>
    if it.final then put { it with tags := it.tags.filter (· ≠ g) }
    else if it.ans then
      put { msgItem { it.msg with opcode := 0x40, aux := BitVec.ofNat 8 Status.tableStale.code, len := 0, data := [] } with ans := true, final := true }
    else drop

/-- Repeats that wait under a generation released by age are answered TABLE_STALE. Log: DEDUCED 24. -/
def staleRepeats (g : Nat × BitVec 16) (s : State) : State :=
  (repeatHits s g).foldl (fun s r => rawAnswer r.1.val r.2 .tableStale 0 s)
    { s with streams := mapTbl {} (fun _ x => { x with record := x.record.map fun e =>
        { e with repeats := e.repeats.filter fun r => !r.2.2.contains g } }) s.streams }

/-- Whole elements among the first bytes of a list. -/
def elemsDone : List (Nat × Nat) → Nat → Nat
  | [], _ => 0
  | (_, n) :: r, p => if n ≤ p then elemsDone r (p - n) + 1 else 0

/-- AUX of a command that is ended early: the elements done of a GATHER or SCATTER, the frames that a READBACK has read (Table 12.6, R334). -/
def auxNow (c : Cmd) : Word :=
  if c.desc.opcode = 3 ∨ c.desc.opcode = 4 then BitVec.ofNat 32 (elemsDone c.list c.pos)
  else if c.desc.opcode = 0x32 then BitVec.ofNat 32 (c.pos / 10400 * 40 + min 40 (c.pos % 10400 / 256))
  else 0

/-- An engine command completes with TABLE_STALE; a host load leaves its columns EMPTY (R42, R333). Log: DEDUCED 24. -/
def staleCmd (k : Nat) (c : Cmd) (s : State) : State :=
  let stop (count : Nat) (aux : Word) (s : State) :=
    setCmd k { c with phase := .finished, ended := true, status := .tableStale, count, aux, tag := [], mcTag := none } s
  match s.arr.loaders.find? fun x => (match x.id with | .host q i => decide (qNum q = k ∧ i = c.idx) | _ => false) with
  | some x =>
    let s := dropLoader x.id (x.range.foldl (fun s c => wipeColumn c s) s)
    stop (4 * x.read) (BitVec.ofNat 32 x.blocks) { s with arr := { s.arr with loadFail := sat32 s.arr.loadFail 1 } }
  | none => stop c.pos (auxNow c) s

/-- A memory unit's access completes with TABLE_STALE, which ends its launch (R42, R318). Log: DEDUCED 24. -/
def staleStream (g : BitVec 16) (r : Launch) (k : Nat) (s : State) : State :=
  match launchOf s r.q r.idx with
  | none => s
  | some r =>
    let m := Tbl.get {} r.streams k
    let s := putLaunch { r with streams := Tbl.put {} r.streams k { m with flight := m.flight.filter fun f => decide (f.gen ≠ g), held := none, ended := true } } s
    launchEnd r.q r.idx 7 (k / 4) .tableStale s

/-- A queued message stands for an operation that has not ended: a forwarded REQ, or an answer whose status is not final. -/
def standsForOp (it : TxItem) : Bool := it.fwd.isSome || (it.ans && !it.final)

/-- Everything still tagged with a generation completes with TABLE_STALE; answers how many operations did (R42, R50). Log: DEDUCED 24. -/
def staleAll (g : Nat × BitVec 16) (s : State) : Nat × State :=
  let reps := (repeatHits s g).length
  let s0 := staleRepeats g s
  let rs := reqHits s0 g
  let s1 := rs.foldl (fun s r => endReq r.id .tableStale r.pos s) s0
  let its := itemHits s1 g
  let s2 := its.foldl (fun s x => staleItem g x.1 x.2 s) s1
  let cs := cmdHits s2 g
  let s3 := cs.foldl (fun s x => staleCmd x.1 x.2 s) s2
  let ms := streamHits s3 g
  let s4 := ms.foldl (fun s x => staleStream g.2 x.1 x.2 s) s3
  (reps + rs.length + (its.filter fun x => standsForOp x.2).length + cs.length + (ms.map fun x => (x.1.q, x.1.idx)).dedup.length, settle s4)

/-- The retired generation is released. -/
def dropRetired (i : Nat) (s : State) : State := s.setInst i { s.inst i with retired := false, old := [] }

/-- GEN_RELEASE: a retired generation with nothing in flight is released in step 3 (R41, R46). -/
def genRelease (i : Nat) (s : State) : State :=
  if (s.inst i).retired && decide (inflight s i = 0) then dropRetired i s else s

/-- A retired generation reaches age 256 with traffic still tagged with it (R42). -/
def heldAtAge (s : State) (i : Nat) : Bool := (s.inst i).retired && decide (256 ≤ (s.inst i).age) && decide (inflight s i ≠ 0)

/-- GEN_RELEASE_BY_AGE: the rest of its traffic completes with TABLE_STALE, and the generation is released (R42). Log: DESIGN CHOICE 21. -/
def genReleaseByAge (i : Nat) (s : State) : State :=
  if (s.inst i).retired && decide (256 ≤ (s.inst i).age) then
    let part := if i < 256 then (s.tenant (i % 128)).part else 0
    let (n, s) := staleAll (retiredGen s i) s
    let s := dropRetired i s
    let c := s.crs
    { s with crs := { c with status := setBit c.status 2, staleOps := sat32 c.staleOps n, staleGens := sat32 c.staleGens 1
                             owed := if bit c.eventEn 1 then c.owed ++ [{ inst := i, ops := n, part }] else c.owed } }
  else s

/-- The event of one release by age: to the administrator, and to the owner of a tenant's instance (Tables 2.5, 17.7).
 Log: DESIGN CHOICE 21. -/
def postStale (o : StaleOwed) (s : State) : State :=
  let d := BitVec.ofNat 32 o.ops
  if o.inst < 256 then
    postBoth (s.part o.part).port (s.mkEvent 1 (BitVec.ofNat 8 o.part) (BitVec.ofNat 8 (o.inst % 128)) (BitVec.ofNat 16 o.inst) d) s
  else postAdmin (s.mkEvent 1 0xFF 0xFF (BitVec.ofNat 16 o.inst) d) s

/-- GEN_STALE_POST: the BCP posts every GEN_STALE event it owes, oldest first; while it restarts or is held, and in a course in which it
has slipped, they wait (R23, R42, Table 2.2).
 Log: DESIGN CHOICE 21. -/
def genStalePost (s : State) : State :=
  if procWorks s .bcp then s.crs.owed.foldl (fun s o => postStale o s) { s with crs := { s.crs with owed := [] } } else s

def execGenStalePost (s : State) : Host.Outcome State Fault Refusal := .next (whileAlive genStalePost s)

/-! ## Course slip (R35, R49) -/

/-- Count one slip of a processor, and post COURSE_SLIP for the first after reset or a clear (Table 2.5). -/
def countSlip (p : Proc) (s : State) : State :=
  let x := s.slip p.idx
  let n := sat16 x.count
  let s := s.setSlip p.idx { last := BitVec.ofNat 16 s.clk.now, count := n, fresh := false }
  let s := { s with crs := { s.crs with status := setBit s.crs.status 1, slipped := p :: s.crs.slipped } }
  if x.fresh && bit s.crs.eventEn 0 then postAdmin (s.mkEvent 2 0xFF 0xFF (BitVec.ofNat 16 p.idx) (n.setWidth 32)) s else s

/-- COURSE_SLIP: once for each course; a held processor does not slip (R35, R398). -/
def courseSlip (p : Proc) (s : State) : State :=
  if s.crs.slipped.contains p || (s.wd p.idx).held then s else countSlip p s

def execCourseSlip (p : Proc) (s : State) : Host.Outcome State Fault Refusal := .next (whileAlive (courseSlip p) s)

/-- A write of CRS_SLIP_CLR clears the chosen counters; a slip counted in the same cycle is the first after the clear (R49).
 Log: DESIGN CHOICE 7, DEDUCED 22. -/
def slipClear (v : Word) (slips : List Proc) (s : State) : State :=
  let s := Proc.all.foldl (fun s p => if bit v p.idx then s.setSlip p.idx { s.slip p.idx with count := 0, fresh := true } else s) s
  slips.foldl (fun s p => courseSlip p s) s

/-! ## The course packet and the course clock (R29, R30, R192) -/

/-- The instances that flip at the coming boundary as they stand: COMMIT set and no retired generation that stays held (R43, R192).
 Log: DEDUCED 23. -/
def flipsDue (s : State) : List Nat := (List.range 261).filter fun i =>
  (s.inst i).commit && (!(s.inst i).retired || decide (inflight s i = 0) || decide (255 ≤ (s.inst i).age))

/-- COURSE_PACKET_SEND: in cycle 8,064 the packet leaves with the next counter value and the flip bits (R192). Log: DEDUCED 23. -/
def coursePacketSend (s : State) : State :=
  if s.clk.locked && !s.clk.packetSent then
    let f := flipsDue s
    let s := { s with clk := { s.clk with cycle := max 8064 s.clk.cycle, packetSent := true, flipBits := f } }
    s.emit (.coursePacket (BitVec.ofNat 48 (s.clk.now + 1)) f)
  else s

def execCoursePacketSend (s : State) : Host.Outcome State Fault Refusal := .next (whileAlive coursePacketSend s)

/-- COURSE_CLOCK_LOSS: the node enters FATAL with COURSE_LOSS; the object is the station, or 0 for SYSCLK (R30, R85, Table 18.4). -/
def execCourseClockLoss (c : ClockLoss) (s : State) : Host.Outcome State Fault Refusal :=
  .next (enterFatal [1] (match c with
    | .station k => BitVec.ofNat 16 k.val
    | .sysclk => 0) 0 s)

end Sys2Proof.Machine
end

