-- ==== Sys2Proof/Machine/Queues.lean ====
section
/-! DEFINITION. Engine queues (spec/12_engine_queues.md): rings, doorbells, the fetch of a descriptor, the checks shared by every
command, an engine's access to pool memory, the commit of a completion, and the ERROR state. -/

namespace Sys2Proof.Machine

/-! ## Queues -/

/-- Entries in each ring of a queue (R270). -/
def qSize (x : Queue) : Nat := 2 ^ x.n

/-- The tenant of a tenant queue. -/
def qTenant : QId → Option Nat
  | .tenant t _ => some t.val
  | .admin _ => none

/-- The queue's number within its owner, as faults name it (Table 18.4). -/
def qIndex : QId → Nat
  | .tenant _ q => q.val
  | .admin q => q.val

/-- The host port that a queue's rings and messages use, and the function there (R270). -/
def qHost (s : State) : QId → Fin 4 × Nat
  | .tenant t _ => ((s.part (s.tenant t).part).port, (s.tenant t).vf)
  | .admin _ => (s.cfg.adminPort, 0)

/-- The queue with a number. -/
def qOfNum (k : Nat) : QId := if k < 1024 then .tenant (Fin.ofNat 128 (k / 8)) (Fin.ofNat 8 k) else .admin (Fin.ofNat 8 (k - 1024))

/-- A fetched command by its ring index. -/
def findCmd (s : State) (q : QId) (idx : BitVec 16) : Option Cmd := (s.queue (qNum q)).cmds.find? fun c => decide (c.idx = idx)

/-- Change a command of a queue. -/
def putCmd (q : QId) (c : Cmd) (s : State) : State := setCmd (qNum q) c s

/-- A command has done its work, or met what stops it: COMMAND_FINISH may take it. Log: DEDUCED 57. -/
def stopCmd (q : QId) (c : Cmd) (st : Status) (count : Nat) (aux : Word) (s : State) : State :=
  putCmd q { c with ended := true, status := st, count, aux, tag := [] } s

/-- A command is finished: only its completion remains. -/
def finishCmd (q : QId) (c : Cmd) (st : Status) (count : Nat) (aux : Word) (s : State) : State :=
  putCmd q { c with phase := .finished, ended := true, status := st, count, aux, tag := [] } s

/-- A queue enters ERROR with a cause; the event is posted (R271). A queue that is already stopping stays so. Log: DEDUCED 57. -/
def queueError (q : QId) (cause : Nat) (s : State) : State :=
  let x := s.queue (qNum q)
  if x.state ≠ 1 then s
  else
    let s := s.setQueue (qNum q) { x with state := 2, cause }
    let f : FaultSpec := { code := 0x50, scope := 2, event := some 3, object := BitVec.ofNat 16 (qIndex q), detail := BitVec.ofNat 64 cause }
    match qTenant q with
    | some t => recordFault { f with part := BitVec.ofNat 8 (s.tenant t).part, tenant := BitVec.ofNat 8 t } s
    | none => recordFault f s

/-! ## An engine's access to pool memory (R279, R280) -/

/-- What an access by an engine or an array unit comes to. -/
inductive Acc (α : Type) where
  | ok (x : α) (s : State)
  /-- The line cannot be touched yet: a queued access, a gate, a sleeping tier, or snoops on their way. -/
  | hold (s : State)
  | fail (st : Status) (s : State)

/-- A tenant's entry for a tile in the generation a lookup holds (R37, R40). -/
def tileInGen (s : State) (t tile : Nat) (g : BitVec 16) : TileEnt :=
  let x := s.inst (tileMapInst t)
  if x.retired && decide (g = x.gen - 1) then tileEnt (Tbl.get 0 x.old tile) else s.tileAt t tile

/-- The checks of Table 9.2 under a generation. -/
def translateGen (s : State) (t va : Nat) (wr : Bool) (g : BitVec 16) : Except Status TileEnt :=
  let e := tileInGen s t (tileOf va) g
  if !e.valid then .error .outOfBounds
  else if wr && e.readOnly then .error .noGrant
  else if e.shared ∧ (s.tenant e.keyT).state ≠ .live then .error .noGrant
  else .ok e

/-- An engine's access is held at a migration's gate, which remembers it (R214). -/
def atGate (u : EngUse) (k : Nat) (s : State) : State :=
  let m := s.mig k
  s.setMig k { m with waiters := u :: m.waiters.filter fun x => decide (x ≠ u) }

/-- The line may be touched now by an engine. -/
def engReady (u : EngUse) (wr : Bool) (e : TileEnt) (l : Nat) (s : State) : Bool × State :=
  if let some k := gateOf s e.tier l then (false, atGate u k s)
  else if lineBusy s e.tier l || (s.tier e.tier).asleep || (s.tier e.tier).waking
      || (decide (e.tier = .bulk) && s.dram.bulk.moving.isSome) || !dramToken s e.tier l then (false, s)
  else if e.coherent then engineLine u wr e.tier l e.keyT s
  else (true, s)

/-- Read `n` bytes within one line as RD_ONCE (R280). Log: DESIGN CHOICE 97. -/
def engRead (u : EngUse) (t : Nat) (g : BitVec 16) (hint va n : Nat) (s : State) : Acc (List Byte) :=
  match translateGen s t va false g with
  | .error st => .fail st s
  | .ok e =>
    let l := e.phys * 16384 + lineIdx va
    match engReady u false e l s with
    | (false, s) => .hold s
    | (true, s) =>
      let s := touch e.tier l (policyOf s hint (s.tenant t).part) s.dram.queue s
      match readNow e.keyT e.tier l s with
      | none => .fail .poison s
      | some x => .ok ((x.toList.drop (va % 128)).take n) s

/-- Write bytes within one line as WR_FULL, or as a read-modify-write (R209, R280). Log: DESIGN CHOICE 97. -/
def engWrite (u : EngUse) (t : Nat) (g : BitVec 16) (hint va : Nat) (d : List Byte) (s : State) : Acc Unit :=
  match translateGen s t va true g with
  | .error st => .fail st s
  | .ok e =>
    let l := e.phys * 16384 + lineIdx va
    match engReady u true e l s with
    | (false, s) => .hold s
    | (true, s) =>
      let s := touch e.tier l (policyOf s hint (s.tenant t).part) s.dram.queue s
      match writeNow e.keyT e.tier l (va % 128) d s with
      | none => .fail .poison s
      | some s => .ok () s

/-- The active generation of a tenant's map. -/
def genNow (s : State) (t : Nat) : BitVec 16 := (s.inst (tileMapInst t)).gen

/-- Read a range of a tenant's memory line by line under the active map. -/
def engReadAll (u : EngUse) (t hint : Nat) : Nat → Nat → Nat → State → Acc (List Byte)
  | 0, _, _, s => .ok [] s
  | f + 1, va, n, s =>
    if n = 0 then .ok [] s
    else
      let m := min n (128 - va % 128)
      match engRead u t (genNow s t) hint va m s with
      | .ok x s =>
        match engReadAll u t hint f (va + m) (n - m) s with
        | .ok y s => .ok (x ++ y) s
        | .hold s => .hold s
        | .fail st s => .fail st s
      | .hold s => .hold s
      | .fail st s => .fail st s

/-! ## Ranges and the checks before the first byte (R278) -/

/-- The tiles that a range touches. -/
def rangeTiles (a n : Nat) : List Nat := (List.range ((a + n - 1) / 2 ^ 21 - a / 2 ^ 21 + 1)).map fun i => a / 2 ^ 21 + i

/-- Check 3: the range ends at or below 2^48 and every tile it touches is VALID. -/
def rangeOk (s : State) (t a n : Nat) : Bool :=
  decide (a + n ≤ 2 ^ 48) && (decide (n = 0) || (rangeTiles a n).all fun k => (s.tileAt t k).valid)

/-- Check 4: the owner of each mirror is LIVE and, for a written range, no tile is READ_ONLY. -/
def rangeGrant (s : State) (t a n : Nat) (wr : Bool) : Bool :=
  decide (n = 0) || (rangeTiles a n).all fun k =>
    let e := s.tileAt t k
    !(wr && e.readOnly) && (!e.shared || decide ((s.tenant e.keyT).state = .live))

/-- Two ranges share a byte; an empty one shares none. -/
def overlaps (a n b m : Nat) : Bool := decide (max a b < min (a + n) (b + m))

/-! ## Descriptors (Tables 12.2, 12.3) -/

/-- Read a descriptor's 64 bytes. -/
def decodeDesc (b : List Byte) : Desc :=
  let u (o n : Nat) := ofLeBytes ((b.drop o).take n)
  { opcode := u 0 1, flags := BitVec.ofNat 32 (u 1 1), tag := BitVec.ofNat 16 (u 2 2), len := u 4 4, src := u 8 8, dst := u 16 8
    ops := (b.drop 0x18).take 36, stash := BitVec.ofNat 12 (u 0x3C 2) }

/-- A little-endian operand at an offset of the descriptor from 0x18 on. -/
def descOp (d : Desc) (off n : Nat) : Nat := ofLeBytes ((d.ops.drop (off - 0x18)).take n)

def descFence (d : Desc) : Bool := bit d.flags 0
def descIrq (d : Desc) : Bool := bit d.flags 1
def descStash (d : Desc) : Bool := bit d.flags 2
def descHint (d : Desc) : Nat := bits d.flags 4 3

/-- SCRUB's KIND names a physical pass, and its tier (Table 12.5). -/
def scrubPhysical (d : Desc) : Bool := (descOp d 0x20 1).testBit 0
def scrubTier (d : Desc) : Tier := Tier.ofBit ((descOp d 0x20 1).testBit 1)

/-- Check 1: the opcode is valid for the queue (R269, R276). -/
def opForQueue (q : QId) (x : Queue) (d : Desc) : Bool :=
  match q, x.cls with
  | .tenant _ _, 0 => decide (1 ≤ d.opcode ∧ d.opcode ≤ 5)
  | .tenant _ _, 1 => decide (d.opcode = 0x10) && !scrubPhysical d
  | .tenant _ _, 2 => decide (0x20 ≤ d.opcode ∧ d.opcode ≤ 0x22)
  | .tenant _ _, 3 => decide (0x30 ≤ d.opcode ∧ d.opcode ≤ 0x33)
  | .admin _, 0 => decide (d.opcode = 6)
  | .admin _, 1 => decide (d.opcode = 0x10) && scrubPhysical d
  | _, _ => false

/-! ## Starting a command (R283, Table 12.1) -/

/-- Commands of a queue that are running. Log: DEDUCED 57. -/
def runningIn (x : Queue) : List Cmd := x.cmds.filter fun c => decide (c.phase = .running)

/-- Running commands of every queue that satisfies a test. Log: DEDUCED 57. -/
def runningWhere (s : State) (p : Nat → Queue → Cmd → Bool) : Nat :=
  (s.eng.queues.map fun (k, x) => ((runningIn x).filter (p k x)).length).sum

/-- The partition of a queue's tenant. -/
def qPart (s : State) (k : Nat) : Nat := (s.tenant (k / 8)).part

/-- The queue and its instance have room for one more command in flight (Table 12.1, R316). -/
def roomFor (s : State) (q : QId) (d : Desc) : Bool :=
  let x := s.queue (qNum q)
  match x.cls with
  | 0 => decide ((runningIn x).length < 16) && decide (runningWhere s (fun _ y _ => decide (y.cls = 0) && decide (y.inst = x.inst)) < 64)
  | 1 => decide (runningWhere s (fun _ y c => decide (y.cls = 1) && decide (scrubTier c.desc = scrubTier d)) < 1)
  | 2 => decide ((runningIn x).length < 4) && decide (runningWhere s (fun _ y _ => decide (y.cls = 2) && decide (y.inst = x.inst)) < 8)
  | _ => decide ((runningIn x).length < 4) &&
      decide (runningWhere s (fun k y _ => decide (y.cls = 3) && decide (qPart s k = qPart s (qNum q))) < 16)

/-- A fetched command is ready to start: its queue is ACTIVE, every earlier command has started, a FENCE finds none outstanding, and there
is room in flight (R283, R288). Log: DEDUCED 57. -/
def cmdReady (s : State) (q : QId) (c : Cmd) : Bool :=
  let x := s.queue (qNum q)
  let before := x.cmds.takeWhile fun y => decide (y.idx ≠ c.idx)
  decide (x.state = 1) && decide (c.phase = .fetched) && before.all (fun y => decide (y.phase ≠ .fetched))
    && (!descFence c.desc || before.isEmpty) && roomFor s q c.desc

/-- The engine instance that a command of a queue goes to, as Table 12.9 numbers them; 8 plus the partition for the array (R267). -/
def instOf (s : State) (k : Nat) (d : Desc) : Nat :=
  let x := s.queue k
  match x.cls with
  | 0 => x.inst
  | 1 => if scrubTier d = .near then 5 else 4
  | 2 => 6 + x.inst
  | _ => 8 + qPart s k

/-- The engine of a command has a token for one more line (R384). -/
def engToken (s : State) (q : QId) (d : Desc) : Bool := tokenLeft s (instOf s (qNum q) d) (Tbl.get 0 s.eng.spent (instOf s (qNum q) d))

/-- The engine moves or scans one line. -/
def engSpend (q : QId) (d : Desc) (s : State) : State :=
  { s with eng := { s.eng with spent := Tbl.put 0 s.eng.spent (instOf s (qNum q) d) (Tbl.get 0 s.eng.spent (instOf s (qNum q) d) + 1) } }

/-- The queues with work ready for an instance. -/
def readyQueues (s : State) (i : Nat) : List Nat :=
  (s.eng.queues.filter fun (k, x) => x.cmds.any fun c => decide (instOf s k c.desc = i) && cmdReady s (qOfNum k) c).map Prod.fst

/-- The queue whose turn it is: the next with work ready after the one served last (R268). Log: DEDUCED 110. -/
def turnNext (s : State) (i : Nat) : Option Nat :=
  let ks := readyQueues s i
  let last := Tbl.get 0 s.eng.turn i
  (ks.find? fun k => decide (last < k + 1)).or ks.head?

/-- A command may start: it is ready, and its instance's turn has come to its queue (R268). Log: DEDUCED 57. -/
def mayStart (s : State) (q : QId) (c : Cmd) : Bool :=
  cmdReady s q c && decide (turnNext s (instOf s (qNum q) c.desc) = some (qNum q))

/-- The instance starts a command of a queue; its turn passes on. Log: DEDUCED 73. -/
def takeTurn (q : QId) (c : Cmd) (s : State) : State :=
  { s with eng := { s.eng with turn := Tbl.put 0 s.eng.turn (instOf s (qNum q) c.desc) (qNum q + 1) } }

/-- Run a command of one opcode: start it through its checks, or take it up where it waited. Log: DESIGN CHOICE 62. -/
def runCmd (q : QId) (idx : BitVec 16) (op : Nat) (check : Cmd → State → Option Status) (work : Cmd → State → State) (s : State) : State :=
  match findCmd s q idx with
  | none => s
  | some c =>
    if c.desc.opcode ≠ op then s
    else if c.phase = .running then (if c.ended then s else work c s)
    else if mayStart s q c then
      let s := takeTurn q c s
      let c := { c with phase := .running }
      let s := putCmd q c s
      if !opForQueue q (s.queue (qNum q)) c.desc then stopCmd q c .unsupported 0 0 s
      else
        match check c s with
        | some st => stopCmd q c st 0 0 s
        | none => work c s
    else s

/-- COMMAND_FINISH: a command that has ended is finished; one whose opcode its queue does not take ends with UNSUPPORTED (R276, R283). -/
def commandFinish (q : QId) (idx : BitVec 16) (s : State) : State :=
  match findCmd s q idx with
  | none => s
  | some c =>
    if c.phase = .running ∧ c.ended then putCmd q { c with phase := .finished, tag := [] } s
    else if mayStart s q c && !opForQueue q (s.queue (qNum q)) c.desc then finishCmd q c .unsupported 0 0 (takeTurn q c s)
    else s

def execCommandFinish (q : QId) (idx : BitVec 16) (s : State) : Host.Outcome State Fault Refusal := .next (whileAlive (commandFinish q idx) s)

/-! ## Doorbells (R272, R273) -/

/-- Set Q_STATUS.ILLEGAL_WRITE. Log: DEDUCED 61. -/
def qIllegal (q : QId) (s : State) : State := s.setQueue (qNum q) { s.queue (qNum q) with illegal := true }

/-- The queue's tenant accepts doorbells; an administrator queue always does (R55). -/
def qLive (s : State) (q : QId) : Bool :=
  match qTenant q with
  | some t => decide ((s.tenant t).state = .live)
  | none => true

/-- A write of Q_SQ_TAIL (R272); one for a tenant that is not LIVE is discarded (R55). Log: DEDUCED 61. -/
def writeSqTail (q : QId) (v : Word) (s : State) : State :=
  let x := s.queue (qNum q)
  let t := v.toNat % 65536
  let n := qSize x
  if x.state ≠ 1 then qIllegal q s
  else if !qLive s q then s
  else if n ≤ t ∨ (t + n - x.sqHead) % n < (x.sqTail + n - x.sqHead) % n then qIllegal q s
  else s.setQueue (qNum q) { x with sqTail := t }

/-- A write of Q_CQ_HEAD: below 2^n and not past Q_CQ_TAIL (R273). -/
def writeCqHead (q : QId) (v : Word) (s : State) : State :=
  let x := s.queue (qNum q)
  let h := v.toNat % 65536
  let n := qSize x
  if n ≤ h ∨ (x.cqTail + n - x.cqHead) % n < (h + n - x.cqHead) % n then qIllegal q s
  else s.setQueue (qNum q) { x with cqHead := h }

/-! ## The fetch of a descriptor (R273) -/

/-- A descriptor is submitted and there is completion room for it. -/
def mayFetch (x : Queue) : Bool :=
  let n := qSize x
  decide (x.state = 1) && decide (x.sqTail ≠ x.sqHead) && decide (x.cmds.length + (x.cqTail + n - x.cqHead) % n < n - 1)

/-- Take a fetched descriptor into the queue; one aborted while it was only submitted is finished at once (R285). -/
def takeDesc (q : QId) (b : List Byte) (s : State) : State :=
  let x := s.queue (qNum q)
  let idx := BitVec.ofNat 16 x.sqHead
  let c : Cmd := { idx, desc := decodeDesc b }
  let c : Cmd := if x.abSet.contains idx then { c with phase := .finished, ended := true, status := .aborted, aborted := true } else c
  s.setQueue (qNum q) { x with sqHead := (x.sqHead + 1) % qSize x, cmds := x.cmds ++ [c], abSet := x.abSet.filter (· ≠ idx) }

/-- DESCRIPTOR_FETCH: through the tenant's map, or from host memory; a failure puts the queue in ERROR (R271, R273). Log: DEDUCED 57. -/
def descriptorFetch (q : QId) (h : HostRead) (s : State) : State :=
  let x := s.queue (qNum q)
  if !mayFetch x then s
  else
    match x.host, qTenant q with
    | false, some t =>
      match engRead (.fetch q) t (genNow s t) 3 (x.sqBase.toNat + 64 * x.sqHead) 64 s with
      | .ok b s => takeDesc q b s
      | .hold s => s
      | .fail _ s => queueError q 1 s
    | _, _ =>
      match h with
      | .error => queueError q 3 s
      | .data b => takeDesc q b s

def execDescriptorFetch (q : QId) (h : HostRead) (s : State) : Host.Outcome State Fault Refusal := .next (whileAlive (descriptorFetch q h) s)

/-! ## The commit of a completion (R277, R283, R287) -/

/-- A completion's 16 bytes (Table 12.6). -/
def complBytes (x : Queue) (c : Cmd) : List Byte :=
  leBytes 2 c.desc.tag.toNat ++ [BitVec.ofNat 8 c.status.code, if x.phase then 1 else 0] ++ leBytes 2 c.idx.toNat ++ [0, 0]
    ++ leBytes 4 c.count ++ leBytes 4 c.aux.toNat

/-- Where the next completion goes. -/
def complAddr (x : Queue) : Nat := x.cqBase.toNat + 16 * x.cqTail

/-- The oldest command leaves the queue, and the completion ring moves on by one entry where `adv` says so. Log: DEDUCED 58. -/
def dropHead (q : QId) (adv : Bool) (s : State) : State :=
  let x := s.queue (qNum q)
  let t := (x.cqTail + 1) % qSize x
  let x := { x with cmds := x.cmds.tail }
  s.setQueue (qNum q) (if adv then { x with cqTail := t, phase := if t = 0 then !x.phase else x.phase } else x)

/-- A completion that is not written is counted in Q_LOST. Log: DEDUCED 58. -/
def complLost (q : QId) (s : State) : State :=
  s.setQueue (qNum q) { s.queue (qNum q) with lost := sat32 (s.queue (qNum q)).lost 1 }

/-- The completion is in the ring: the command is committed, and IRQ sends its message (Table 12.3). A vector beyond the function's table
sends none (R367). Log: DEDUCED 58. -/
def complWritten (q : QId) (c : Cmd) (s : State) : State :=
  let x := s.queue (qNum q)
  let (hp, vf) := qHost s q
  let s := dropHead q true (s.emit (.completion q (complAddr x) (complBytes x c)))
  if descIrq c.desc && decide (x.vector.toNat < if vf = 0 then 256 else 16) then s.toHost hp (.msix hp vf x.vector.toNat) else s

/-- COMPLETION_COMMIT: the oldest fetched command, once finished (R283); host memory cannot be written while PERST_N is low (R79).
 Log: DEDUCED 58. -/
def completionCommit (q : QId) (hostOk : Bool) (s : State) : State :=
  let x := s.queue (qNum q)
  match x.cmds with
  | [] => s
  | c :: _ =>
    if c.phase ≠ .finished then s
    else if c.swept && !(if x.host then x.endHost else x.endTiles) then dropHead q false (complLost q s)
    else
      match x.host, qTenant q with
      | false, some t =>
        match engWrite (.commit q) t (genNow s t) 3 (complAddr x) (complBytes x c) s with
        | .ok _ s => complWritten q c s
        | .hold s => s
        | .fail _ s => queueError q 2 (dropHead q true (complLost q s))
      | _, _ =>
        if hostOk && (s.host (qHost s q).1).perst then complWritten q c s else queueError q 4 (dropHead q true (complLost q s))

def execCompletionCommit (q : QId) (hostOk : Bool) (s : State) : Host.Outcome State Fault Refusal :=
  .next (whileAlive (completionCommit q hostOk) s)

end Sys2Proof.Machine
end

