-- ==== Sys2Proof/Machine/Tiles.lean ====
section
/-! DEFINITION. Tile maps and migrations (spec/09_pool_memory.md): the commands of Table 9.4, the return of tiles, and the steps of
Table 9.3. -/

namespace Sys2Proof.Machine

/-! ## Rights over a tenant (R71, R75) -/

/-- The function sees a tenant: it owns the tenant's partition or, where the command allows, is the administrator. -/
def seesTenant (s : State) (fn : Fn) (t : Nat) (admin : Bool) : Bool := s.owns fn (s.tenant t).part || (admin && s.isAdmin fn)

/-- The checks of a command that names a tenant, in the order of R75 and R71. -/
def tenantCheck (s : State) (fn : Fn) (t : Nat) (admin : Bool) : Option Status :=
  if 127 < t then some .badLength
  else if (s.tenant t).state = .free || !seesTenant s fn t admin then some .noGrant
  else if (s.tenant t).state ≠ .live then some .busy
  else none

/-- The first status of a list of checks that fails. Log: DEDUCED 44. -/
def firstFail (l : List (Bool × Status)) : Option Status := (l.find? fun x => x.1).map Prod.snd

/-- Answer with a failure, or run the command. -/
def orFail (o : Owed) (st : Option Status) (f : State → State) (s : State) : State :=
  match st with
  | some st => answer o st [] s
  | none => f s

/-- Tile numbers from a first one on. -/
def tilesFrom (tile n : Nat) : List Nat := (List.range n).map fun i => tile + i

/-! ## The translation store (R196) -/

/-- Some copy of the tenant's map holds the tile number VALID. -/
def mapHolds (s : State) (t tile : Nat) : Bool :=
  let x := s.inst (tileMapInst t)
  decide (Tbl.get 0 x.shadow tile ≠ 0) || decide (Tbl.get 0 x.active tile ≠ 0) || (x.retired && decide (Tbl.get 0 x.old tile ≠ 0))

/-- The tile number has an entry of the store: a copy of the map holds it, or held it in this course. -/
def storeHolds (s : State) (t tile : Nat) : Bool := mapHolds s t tile || s.til.lag.contains (t, tile)

/-- TIL_STORE.USED. -/
def storeUsed (s : State) : Nat :=
  (s.insts.map fun (i, x) =>
    if i < 128 then ((Tbl.keys x.shadow ++ Tbl.keys x.active ++ (if x.retired then Tbl.keys x.old else [])).dedup).length else 0).sum
    + (s.til.lag.dedup.filter fun e => !mapHolds s e.1 e.2).length

/-- Entries of the store (R196). -/
def storeSize : Nat := 5242880

/-- The command needs more free store entries than there are. -/
def storeFull (s : State) (t : Nat) (tiles : List Nat) : Bool :=
  decide (storeSize < storeUsed s + (tiles.filter fun k => !storeHolds s t k).length)

/-- Answer BUSY for want of store entries, with STORE_FULL (Table 9.6). -/
def storeBusy (o : Owed) (s : State) : State := answer o .busy [] { s with til := { s.til with status := setBit s.til.status 3 } }

/-! ## Mirrors (R203, R204) -/

/-- A tenant's COMMIT is set (R205). -/
def mapCommit (s : State) (t : Nat) : Bool := (s.inst (tileMapInst t)).commit

/-- The mirrors of a physical tile in the shadows of the maps: grantee and tile number. -/
def mirrorsOf (s : State) (t : Tier) (p : Nat) : List (Nat × Nat) :=
  s.insts.flatMap fun (i, x) =>
    if i < 128 then (x.shadow.filter fun e => entNames t p e.2 && (tileEnt e.2).shared).map fun e => (i, e.1) else []

/-- The mirrors of the tiles that a tenant's shadow names. -/
def mirrorsOfTiles (s : State) (t : Nat) (tiles : List Nat) : List (Nat × Nat) :=
  tiles.flatMap fun k => mirrorsOf s (s.tileShadow t k).tier (s.tileShadow t k).phys

/-- Write a shadow entry of a tenant's map; the store entry of a number taken out of it is kept to the boundary (R196). -/
def putTile (t tile : Nat) (e : TileEnt) (s : State) : State :=
  let s := if e.valid then s else { s with til := { s.til with lag := (t, tile) :: s.til.lag } }
  s.putShadow (tileMapInst t) tile (tileEntWord e)

/-- Store entries that no copy of a map holds any more are free from the boundary on (R196). -/
def dropLag (s : State) : State := { s with til := { s.til with lag := [] } }

/-- Remove a mirror from its grantee's shadow, with the grantee's COMMIT. -/
def dropMirror (g : Nat × Nat) (s : State) : State :=
  let s := (putTile g.1 g.2 { valid := false } s).setCommit (tileMapInst g.1)
  { s with til := { s.til with rw := Tbl.put false s.til.rw (g.1 * 2 ^ 27 + g.2) false } }

/-! ## TILE_MAP (R202) -/

/-- How many of `n` tiles come from the near tier and from the bulk tier. -/
def splitTiers (s : State) (part n tier : Nat) : Nat × Nat :=
  if tier = 0 then (n, 0)
  else if tier = 1 then (0, n)
  else
    let k := min n (min (freeCount s .near) ((s.part part).nearQuota - (s.part part).nearUsed))
    (k, n - k)

/-- Take free tiles of a tier for a run of tile numbers, one by one. -/
def mapTiles (tier : Tier) (t : Nat) (coherent ro : Bool) : List Nat → State → State
  | [], s => s
  | k :: r, s =>
    match pickFree s tier with
    | none => s
    | some p => mapTiles tier t coherent ro r
        (putTile t k { coherent, readOnly := ro, tier, keyT := t, phys := p } (takeTile tier p t (s.tenant t).part s))

/-- The body of TILE_MAP, after its fields and its tenant have been checked. Log: DEDUCED 44. -/
def tileMapBody (o : Owed) (t tile n tier : Nat) (coherent ro : Bool) (s : State) : State :=
  let part := (s.tenant t).part
  let x := s.part part
  let (a, b) := splitTiers s part n tier
  let tiles := tilesFrom tile n
  orFail o (firstFail [
    (decide (2 ^ 27 < tile + n), .outOfBounds),
    ((decide (a ≠ 0) && decide (x.nearQuota < x.nearUsed + a)) || (decide (b ≠ 0) && decide (x.bulkQuota < x.bulkUsed + b)), .outOfBounds),
    (mapCommit s t, .busy),
    (tiles.any fun k => (s.tileShadow t k).valid, .busy),
    (decide (freeCount s .near < a) || decide (freeCount s .bulk < b), .busy)]) (fun s =>
    if storeFull s t tiles then storeBusy o s
    else
      let s := mapTiles .near t coherent ro (tiles.take a) s
      let s := mapTiles .bulk t coherent ro (tiles.drop a) s
      answerAwake ((if b = 0 then [] else [Tier.bulk]) ++ (if a = 0 then [] else [Tier.near])) o (leBytes 2 a ++ leBytes 2 b) s) s

/-- COUNT is 0 or above 4,096 (R219). -/
def badCount (n : BitVec 16) : Bool := decide (n = 0) || decide (4096 < n.toNat)

def execTileMap (fn : Fn) (m : MbxHdr) (tenant : Byte) (tile : Word) (count : BitVec 16) (tier flags : Byte) (s : State) :
    Host.Outcome State Fault Refusal :=
  .next (mailbox fn 0x0201 m ([tenant] ++ leBytes 4 tile.toNat ++ leBytes 2 count.toNat ++ [tier, flags]) false (fun _ => true) (fun o s =>
    if badCount count || decide (2 < tier.toNat) then answer o .badLength [] s
    else orFail o (tenantCheck s fn tenant.toNat false)
      (tileMapBody o tenant.toNat tile.toNat count.toNat tier.toNat (flags.getLsbD 0) (flags.getLsbD 1)) s) s)

/-! ## TILE_UNMAP and TILE_PROTECT (R203, R205, R206) -/

/-- The numbers of a run are not all VALID and owned in the tenant's shadow, or run past the last tile. -/
def notOwned (s : State) (t tile n : Nat) : Bool :=
  decide (2 ^ 27 < tile + n) || (tilesFrom tile n).any fun k => !(s.tileShadow t k).valid || (s.tileShadow t k).shared

/-- A tile of the run is MIGRATING. -/
def anyMigrating (s : State) (t tile n : Nat) : Bool := (tilesFrom tile n).any fun k => (s.tileShadow t k).migrating

/-- Log: DEDUCED 44. -/
def tileUnmapBody (o : Owed) (t tile n : Nat) (s : State) : State :=
  let tiles := tilesFrom tile n
  let ms := mirrorsOfTiles s t tiles
  orFail o (firstFail [
    (notOwned s t tile n, .outOfBounds),
    (anyMigrating s t tile n, .busy),
    (mapCommit s t || ms.any (fun g => mapCommit s g.1), .busy)]) (fun s =>
    let s := ms.foldl (fun s g => dropMirror g s) s
    answer o .ok [] (tiles.foldl (fun s k => putTile t k { valid := false } s) s)) s

def execTileUnmap (fn : Fn) (m : MbxHdr) (tenant : Byte) (tile : Word) (count : BitVec 16) (s : State) : Host.Outcome State Fault Refusal :=
  .next (mailbox fn 0x0202 m ([tenant] ++ leBytes 4 tile.toNat ++ leBytes 2 count.toNat) false (fun _ => true) (fun o s =>
    if badCount count then answer o .badLength [] s
    else orFail o (tenantCheck s fn tenant.toNat false) (tileUnmapBody o tenant.toNat tile.toNat count.toNat) s) s)

/-- Set READ_ONLY of one mirror after its owner's tile has it set or cleared (R204, R206). -/
def protectMirror (ro : Bool) (g : Nat × Nat) (s : State) : State :=
  let rw := Tbl.get false s.til.rw (g.1 * 2 ^ 27 + g.2)
  (putTile g.1 g.2 { s.tileShadow g.1 g.2 with readOnly := ro || !rw } s).setCommit (tileMapInst g.1)

/-- Log: DEDUCED 44. -/
def tileProtectBody (o : Owed) (t tile n : Nat) (ro : Bool) (s : State) : State :=
  let tiles := tilesFrom tile n
  let ms := mirrorsOfTiles s t tiles
  orFail o (firstFail [
    (notOwned s t tile n, .outOfBounds),
    (anyMigrating s t tile n, .busy),
    (mapCommit s t || ms.any (fun g => mapCommit s g.1), .busy)]) (fun s =>
    let s := ms.foldl (fun s g => protectMirror ro g s) s
    answer o .ok [] (tiles.foldl (fun s k => putTile t k { s.tileShadow t k with readOnly := ro } s) s)) s

def execTileProtect (fn : Fn) (m : MbxHdr) (tenant : Byte) (tile : Word) (count : BitVec 16) (ro : Byte) (s : State) :
    Host.Outcome State Fault Refusal :=
  .next (mailbox fn 0x0203 m ([tenant] ++ leBytes 4 tile.toNat ++ leBytes 2 count.toNat ++ [ro]) false (fun _ => true) (fun o s =>
    if badCount count || decide (1 < ro.toNat) then answer o .badLength [] s
    else orFail o (tenantCheck s fn tenant.toNat false) (tileProtectBody o tenant.toNat tile.toNat count.toNat (decide (ro = 1))) s) s)

/-! ## TILE_GRANT and TILE_REVOKE (R204, R206) -/

/-- The function may grant between two tenants: within one partition its owner, between partitions the administrator. -/
def mayGrant (s : State) (fn : Fn) (a b : Nat) : Bool :=
  if (s.tenant a).part = (s.tenant b).part then s.owns fn (s.tenant a).part else s.isAdmin fn

/-- The states of the two tenants of a grant, in the order of R71. -/
def grantCheck (s : State) (fn : Fn) (a b : Nat) : Option Status :=
  if 127 < a ∨ 127 < b then some .badLength
  else if (s.tenant a).state = .free ∨ (s.tenant b).state = .free ∨ !mayGrant s fn a b then some .noGrant
  else if (s.tenant a).state ≠ .live ∨ (s.tenant b).state ≠ .live then some .busy
  else none

/-- Write one mirror into the grantee's shadow. -/
def putMirror (owner tile g gtile : Nat) (rw : Bool) (s : State) : State :=
  let e := s.tileShadow owner tile
  let s := putTile g gtile { e with shared := true, readOnly := e.readOnly || !rw, keyT := owner } s
  { s with til := { s.til with rw := Tbl.put false s.til.rw (g * 2 ^ 27 + gtile) rw } }

/-- Log: DEDUCED 44. -/
def tileGrantBody (o : Owed) (owner tile n g gtile : Nat) (rw : Bool) (s : State) : State :=
  orFail o (firstFail [
    (decide (2 ^ 27 < tile + n) || decide (2 ^ 27 < gtile + n), .outOfBounds),
    (notOwned s owner tile n, .outOfBounds),
    ((tilesFrom tile n).any fun k => decide (16 ≤ (mirrorsOf s (s.tileShadow owner k).tier (s.tileShadow owner k).phys).length), .outOfBounds),
    (mapCommit s g, .busy),
    ((tilesFrom gtile n).any fun k => (s.tileShadow g k).valid, .busy)]) (fun s =>
    if storeFull s g (tilesFrom gtile n) then storeBusy o s
    else if anyMigrating s owner tile n then answer o .busy [] s
    else
      let s := (List.range n).foldl (fun s i => putMirror owner (tile + i) g (gtile + i) rw s) s
      answer o .ok [] (s.setCommit (tileMapInst g))) s

def execTileGrant (fn : Fn) (m : MbxHdr) (owner : Byte) (tile : Word) (count : BitVec 16) (grantee : Byte) (gtile : Word) (mode : Byte)
    (s : State) : Host.Outcome State Fault Refusal :=
  .next (mailbox fn 0x0204 m ([owner] ++ leBytes 4 tile.toNat ++ leBytes 2 count.toNat ++ [grantee] ++ leBytes 4 gtile.toNat ++ [mode]) false
    (fun _ => true) (fun o s =>
    if badCount count || decide (1 < mode.toNat) then answer o .badLength [] s
    else orFail o (grantCheck s fn owner.toNat grantee.toNat)
      (tileGrantBody o owner.toNat tile.toNat count.toNat grantee.toNat gtile.toNat (decide (mode = 1))) s) s)

/-- Log: DEDUCED 44. -/
def tileRevokeBody (fn : Fn) (o : Owed) (g gtile n : Nat) (s : State) : State :=
  let tiles := tilesFrom gtile n
  orFail o (firstFail [
    (decide (2 ^ 27 < gtile + n) || tiles.any (fun k => !(s.tileShadow g k).valid || !(s.tileShadow g k).shared), .outOfBounds),
    (tiles.any fun k => !mayGrant s fn (s.tileShadow g k).keyT g, .noGrant),
    (anyMigrating s g gtile n, .busy),
    (mapCommit s g, .busy)]) (fun s => answer o .ok [] (tiles.foldl (fun s k => dropMirror (g, k) s) s)) s

def execTileRevoke (fn : Fn) (m : MbxHdr) (grantee : Byte) (gtile : Word) (count : BitVec 16) (s : State) : Host.Outcome State Fault Refusal :=
  .next (mailbox fn 0x0205 m ([grantee] ++ leBytes 4 gtile.toNat ++ leBytes 2 count.toNat) false (fun _ => true) (fun o s =>
    if badCount count then answer o .badLength [] s
    else orFail o (tenantCheck s fn grantee.toNat true) (tileRevokeBody fn o grantee.toNat gtile.toNat count.toNat) s) s)

/-! ## Accepting a migration (R211) -/

/-- Start a migration of a tenant's tile to the other tier, or the status that stops it. -/
def migrateTile (t tile : Nat) (dst : Tier) (cmd : Option (QId × BitVec 16)) (s : State) : Except Status (Nat × State) :=
  let a := s.tileAt t tile
  let e := s.tileShadow t tile
  let part := s.part (s.tenant t).part
  if 2 ^ 27 ≤ tile || !a.valid || a.shared || !e.valid || e.shared || decide (a.tier ≠ e.tier) || decide (a.phys ≠ e.phys) then
    .error .outOfBounds
  else if e.migrating then .error .busy
  else
    match freeMig s with
    | none => .error .busy
    | some k =>
      if dst = e.tier then .error .unsupported
      else if (match dst with
        | .near => decide (part.nearQuota < part.nearUsed + 1)
        | .bulk => decide (part.bulkQuota < part.bulkUsed + 1)) then .error .outOfBounds
      else
        match pickFree s dst with
        | none => .error .busy
        | some d => .ok (k, startMig k t tile e.tier e.phys dst d false cmd s)

def execTileMigrate (fn : Fn) (m : MbxHdr) (tenant : Byte) (tile : Word) (tier : Byte) (s : State) : Host.Outcome State Fault Refusal :=
  .next (mailbox fn 0x0206 m ([tenant] ++ leBytes 4 tile.toNat ++ [tier]) false (fun _ => true) (fun o s =>
    if 1 < tier.toNat then answer o .badLength [] s
    else orFail o (tenantCheck s fn tenant.toNat false) (fun s =>
      match migrateTile tenant.toNat tile.toNat (Tier.ofBit (decide (tier = 1))) none s with
      | .error st => answer o st [] s
      | .ok (k, s) => answerAwake [(s.mig k).dstTier] o [BitVec.ofNat 8 k] s) s) s)

/-! ## The steps of Table 9.3 -/

/-- The tenants whose shadow names a physical tile. -/
def mapsNaming (s : State) (t : Tier) (p : Nat) : List Nat :=
  (s.insts.filter fun (i, x) => decide (i < 128) && x.shadow.any fun e => entNames t p e.2).map Prod.fst

/-- Step 4: the destination goes into the shadow of every map that names the source, with COMMIT on each; while a COMMIT is set on one
of them the MRP waits (R205). Where no shadow names the source any more, no flip is due and the migration is gated at once. -/
def remap (k : Nat) (s : State) : State :=
  let m := s.mig k
  let maps := mapsNaming s m.srcTier m.src
  if maps.any fun t => mapCommit s t then s.setMig k { m with waiting := true }
  else
    let g := fun (_ : Nat) (w : BitVec 64) =>
      if entNames m.srcTier m.src w then tileEntWord { tileEnt w with tier := m.dstTier, phys := m.dst } else w
    let s := maps.foldl (fun s t =>
      let x := s.inst (tileMapInst t)
      s.setInst (tileMapInst t) { x with shadow := mapTbl 0 g x.shadow, commit := true }) s
    s.setMig k { m with state := if maps = [] then 3 else 2, waiting := false }

/-- The MRP takes a migration step: it runs, has not slipped in this course, and the tiers serve it (R22, Table 2.2, R232, R233). -/
def migStep (k : Nat) (s : State) : Bool := procWorks s .mrp && migRuns s (s.mig k)

/-- MIGRATION_PASS_DONE (step 3): another pass while more than 8 blocks are dirty and fewer than 8 passes have run, else the remap.
 Log: DESIGN CHOICE 45. -/
def migrationPassDone (k : Nat) (s : State) : State :=
  let m := s.mig k
  if m.state ≠ 1 ∨ m.waiting ∨ m.parked ∨ !migStep k s then s
  else
    let s := s.setMig k { m with passes := m.passes + 1 }
    if 8 < m.dirty.length ∧ m.passes + 1 < 8 then copyPass k m.dirty s else remap k s

def execMigrationPassDone (k : Fin 16) (s : State) : Host.Outcome State Fault Refusal := .next (whileAlive (migrationPassDone k.val) s)

/-- After the flip of a tenant's map: a migration whose destination it now names is gated. -/
def migFlip (t : Nat) (s : State) : State :=
  (List.range 16).foldl (fun s k =>
    let m := s.mig k
    if m.state = 2 ∧ (s.inst (tileMapInst t)).active.any (fun e => entNames m.dstTier m.dst e.2) then s.setMig k { m with state := 3 } else s) s

/-- Remaps that waited for a COMMIT to read 0 (R205). -/
def retryRemaps (s : State) : State :=
  (List.range 16).foldl (fun s k => if (s.mig k).state = 1 ∧ (s.mig k).waiting then remap k s else s) s

/-- What the MRP finds to do of its own: remaps that waited, first passes that waited for a tier, bogged tiles still mapped (R22, R205,
R218, R232). While it restarts, is held or slips, all of it waits. Log: DEDUCED 47. -/
def mrpWork (s : State) : State := if procWorks s .mrp then retryBogs (startParked (retryRemaps s)) else s

/-- Lines of a tile that the directory still holds, a tracker works on, or a controller has queued. -/
def cached (s : State) (t : Tier) (p : Nat) : Bool :=
  (s.dir.ents.any fun (_, e) => decide (e.st ≠ .i) && decide (e.tier = t) && decide (e.line / 16384 = p))
    || (s.dir.trks.any fun k => decide (k.tier = t) && decide (k.line / 16384 = p))
    || s.dram.queue.any fun o => decide (o.tier = t) && decide (o.line / 16384 = p)

/-- Held requests of a tracker whose block is no longer dirty proceed (steps 5 and 6). -/
def openGate (s : State) : State :=
  { s with dram := { s.dram with queue := s.dram.queue.map fun o => if o.gate.isSome then { o with gate := gateOf s o.tier o.line } else o } }

/-- MIGRATION_FINAL_PASS (step 6): begins when no active or retired generation names the source. Cached source lines are recalled first,
and the pass waits for them and for what is queued to the source (Table 11.6, R213). -/
def migrationFinalPass (k : Nat) (s : State) : State :=
  let m := s.mig k
  if m.state ≠ 3 ∨ namedActive s m.srcTier m.src ∨ !migStep k s then s
  else if cached s m.srcTier m.src then settle (recallTile m.srcTier m.src .migration s)
  else s.setMig k { m with state := 4, relAt := if m.dirty = [] then some (s.clk.now + 1) else none }

def execMigrationFinalPass (k : Fin 16) (s : State) : Host.Outcome State Fault Refusal := .next (whileAlive (migrationFinalPass k.val) s)

/-- MIGRATION_BLOCK_COPIED: one dirty block of the final pass is copied, and the requests held on it proceed (step 6).
 Log: DESIGN CHOICE 45. -/
def migrationBlockCopied (k b : Nat) (s : State) : State :=
  let m := s.mig k
  if m.state = 4 ∧ b ∈ m.dirty ∧ migStep k s then
    let s := copyPass k [b] s
    let m := s.mig k
    openGate (s.setMig k { m with relAt := if m.dirty = [] then some (s.clk.now + 1) else none })
  else s

def execMigrationBlockCopied (k : Fin 16) (block : Fin 512) (s : State) : Host.Outcome State Fault Refusal :=
  .next (whileAlive (migrationBlockCopied k.val block.val) s)

/-- Post an event to the ring of one function, which is the administrator's where the two are one. -/
def postOwner (port : Fin 4) (e : Event) (s : State) : State := if port = s.cfg.adminPort then postAdmin e s else postRing port e s

/-- A tile leaves use: retired where it is bogged, else back to its pool, after which bogged tiles try again (R203, R218). -/
def returnTile (t : Tier) (p : Nat) (retire : Bool) (s : State) : State := mrpWork (dropUse t p (retire || decide (16 ≤ liveBogs s t p)) s)

/-- MIGRATION_RELEASE (step 7), at the boundary after the final pass has ended: the source returns to its pool, or is retired; the tracker is
freed, MIGRATING cleared, MIGRATE_DONE posted to the owner, and the MIGRATE command that waited completes. -/
def migrationRelease (k : Nat) (s : State) : State :=
  let m := s.mig k
  match m.relAt with
  | none => s
  | some b =>
    if m.state ≠ 4 ∨ m.dirty ≠ [] ∨ s.clk.now < b ∨ !procWorks s .mrp then s
    else
      let s := s.setMig k {}
      let s := mapBoth m.dstTier m.dst (fun e => { e with migrating := false }) s
      let s := returnTile m.srcTier m.src (m.bogged || m.retire) s
      let p := (s.tenant m.tenant).part
      let s := postOwner (s.part p).port
        (s.mkEvent 4 (BitVec.ofNat 8 p) (BitVec.ofNat 8 m.tenant) (BitVec.ofNat 16 k) (BitVec.ofNat 32 m.dstTier.bit)) s
      match m.cmd with
      | none => s
      | some (q, idx) =>
        match findCmd s q idx with
        | none => s
        | some c => stopCmd q c .ok 0x200000 (BitVec.ofNat 32 k) s

def execMigrationRelease (k : Fin 16) (s : State) : Host.Outcome State Fault Refusal :=
  .next (if atBoundary s then migrationRelease k.val s else s)

/-- A migration is given up before step 4: the destination returns, MIGRATING is cleared (R286). -/
def abortMig (k : Nat) (s : State) : State :=
  let m := s.mig k
  let s := s.setMig k {}
  let s := mapBoth m.srcTier m.src (fun e => { e with migrating := false }) s
  returnTile m.dstTier m.dst false s

/-- TILE_RETURN: a tile that no copy of any map names leaves use, and bogged tiles try again (R203, R218). -/
def tileReturn (t : Tier) (p : Nat) (s : State) : State :=
  match s.use (tileKey t p) with
  | .owned _ _ => if namedActive s t p || namedShadow s t p || inMigration s t p then s else returnTile t p false s
  | _ => s

def execTileReturn (tier : Tier) (phys : BitVec 22) (s : State) : Host.Outcome State Fault Refusal :=
  .next (if atBoundary s then tileReturn tier phys.toNat s else s)

/-! ## MIGRATE (R280) -/

/-- Checks 2 to 5 of MIGRATE (Table 12.7, R211). Log: DEDUCED 44. -/
def migrateCheck (c : Cmd) (s : State) : Option Status :=
  let t := descOp c.desc 0x18 1
  if c.desc.len ≠ 0x200000 ∨ 1 < descOp c.desc 0x19 1 ∨ 127 < t then some .badLength
  else if (s.tenant t).state ≠ .live then some .noGrant
  else
    match migrateTile t (descOp c.desc 0x1C 4) (Tier.ofBit (decide (descOp c.desc 0x19 1 = 1))) none s with
    | .error st => some st
    | .ok _ => none

/-- The command takes its tracker and waits for step 7. -/
def migrateWork (q : QId) (c : Cmd) (s : State) : State :=
  if c.mig.isSome then s
  else
    match migrateTile (descOp c.desc 0x18 1) (descOp c.desc 0x1C 4) (Tier.ofBit (decide (descOp c.desc 0x19 1 = 1))) (some (q, c.idx)) s with
    | .error st => stopCmd q c st 0 0 s
    | .ok (k, s) => putCmd q { c with mig := some k } s

def execMigrate (q : QId) (idx : BitVec 16) (s : State) : Host.Outcome State Fault Refusal :=
  .next (whileAlive (runCmd q idx 6 migrateCheck (migrateWork q)) s)

end Sys2Proof.Machine
end

