-- ==== Sys2Proof/Machine/Move.lean ====
section
/-! DEFINITION. The move and scrub commands (spec/12_engine_queues.md, spec/10_dram_channels.md): COPY, FILL, GATHER, SCATTER, MCAST_PUSH
and SCRUB. A row runs its command as far as it can; where a line cannot be touched yet the command waits, and the row takes it up again. -/

namespace Sys2Proof.Machine

/-! ## Running a command in steps -/

/-- One step of a command's work. -/
inductive Run where
  | more (c : Cmd) (s : State)
  | hold (c : Cmd) (s : State)
  | stop (st : Status) (c : Cmd) (s : State)

/-- Repeat a step until the command waits or ends. Log: DESIGN CHOICE 62. -/
def runLoop (q : QId) (step : Cmd → State → Run) : Nat → Cmd → State → State
  | 0, c, s => putCmd q c s
  | n + 1, c, s =>
    match step c s with
    | .more c s => runLoop q step n c s
    | .hold c s => putCmd q c s
    | .stop st c s => stopCmd q c st c.pos (BitVec.ofNat 32 c.elems) s

/-! ## Where the bytes of a move lie -/

/-- One side of a move: a run of bytes, or a list of elements. -/
inductive Side where
  | none_
  | run (a n : Nat)
  | list (l : List (Nat × Nat))

/-- The address of a byte of a list and the bytes left in its element. -/
def listAt : List (Nat × Nat) → Nat → Nat × Nat
  | [], _ => (0, 0)
  | (a, n) :: r, p => if p < n then (a + p, n - p) else listAt r (p - n)

/-- The address of a byte of a side and the bytes left in its run. -/
def sideAt : Side → Nat → Nat × Nat
  | .none_, _ => (0, 0)
  | .run a n, p => (a + p, n - p)
  | .list l, p => listAt l p

/-- The side has the address. -/
def sideHas : Side → Nat → Bool
  | .none_, _ => false
  | .run a n, x => decide (a ≤ x ∧ x < a + n)
  | .list l, x => l.any fun e => decide (e.1 ≤ x ∧ x < e.1 + e.2)

/-- The two sides of a move command (R280). -/
def moveSides (c : Cmd) : Side × Side :=
  if c.desc.opcode = 1 then (.run c.desc.src c.desc.len, .run c.desc.dst c.desc.len)
  else if c.desc.opcode = 2 then (.none_, .run c.desc.dst c.desc.len)
  else if c.desc.opcode = 3 then (.list c.list, .run c.desc.dst c.desc.len)
  else (.run c.desc.src c.desc.len, .list c.list)

/-! ## The generation of a side's present tile (R40) -/

/-- The generation under which a side works at an address: the one it holds while it stays in its tile, else the active one. -/
def sideGen (s : State) (t : Nat) (c : Cmd) (i va : Nat) : BitVec 16 :=
  if c.tiles[i]? = some (tileOf va) then (c.tag.getD i (tileMapInst t, genNow s t)).2 else genNow s t

/-- Hold the generation of the tile that an address lies in. -/
def holdTile (t : Nat) (i va : Nat) (g : BitVec 16) (c : Cmd) : Cmd :=
  let fit {α : Type} (d : α) (l : List α) (x : α) : List α := (List.range 3).map fun j => if j = i then x else l.getD j d
  { c with tag := fit (tileMapInst t, g) c.tag (tileMapInst t, g), tiles := fit (tileOf va) c.tiles (tileOf va) }

/-- Read up to `n` bytes of a side from a position on, piece by piece; a failure keeps what came before it. -/
def readSide (u : EngUse) (t hint : Nat) (sd : Side) : Nat → Nat → Nat → Cmd → List (Nat × Byte) → State →
    Cmd × List (Nat × Byte) × Option (Option Status) × State
  | 0, _, _, c, acc, s => (c, acc, none, s)
  | f + 1, p, n, c, acc, s =>
    if n = 0 then (c, acc, none, s)
    else
      let (a, k) := sideAt sd p
      let m := min n (min k (128 - a % 128))
      let g := sideGen s t c 0 a
      let c := holdTile t 0 a g c
      match engRead u t g hint a m s with
      | .ok x s => readSide u t hint sd f (p + m) (n - m) c (acc ++ x.mapIdx fun i b => (a + i, b)) s
      | .hold s => (c, acc, some none, s)
      | .fail st s => (c, acc, some (some st), s)

/-- The line is written as WR_STASH to this agent: the flag is set, the line whole, and the target may be offered it (R259, R281). -/
def stashAgent (s : State) (t : Nat) (c : Cmd) (a n : Nat) : Option Nat :=
  if descStash c.desc && decide (c.desc.opcode = 1 ∨ c.desc.opcode = 2 ∨ c.desc.opcode = 4) && decide (a % 128 = 0 ∧ n = 128)
      && s.admitted t c.desc.stash.toNat then agentOf s c.desc.stash else none

/-- The command asks for a stash of a whole line. Log: DEDUCED 65. -/
def wantsStash (c : Cmd) (a n : Nat) : Bool :=
  descStash c.desc && decide (c.desc.opcode = 1 ∨ c.desc.opcode = 2 ∨ c.desc.opcode = 4) && decide (a % 128 = 0 ∧ n = 128)

/-- Offer a line just written to a stash target under a way taken for it (R259). Log: DEDUCED 65. -/
def engOffer (e : TileEnt) (l slot a : Nat) (d : List Byte) (s : State) : State :=
  let s := addTrk { slot := some slot, st := .so, tier := e.tier, line := l, waits := [awaiting s a], agent := some a, keyT := e.keyT
                    incarn := (s.tenant e.keyT).incarn } s
  toAgent a 0x68 (handleOf slot) d false s

/-- The line's set has no free way and a recall for one is under way: a stash waits for it and starts no other (R255, R260).
 Log: DEDUCED 65. -/
def recallRuns (l : Nat) (s : State) : Bool :=
  let held := fun k => s.dir.trks.any fun x => decide (x.slot = some k)
  !((setSlots l).any fun k => decide ((s.ent k).st = .i) && !held k)
    && s.dir.trks.any fun x => decide (x.st = .rc) && (setSlots l).any fun k => decide (x.slot = some k)

/-- Write a chunk of a move, as WR_STASH where the command asks and the line is coherent (R200, R281). Log: DESIGN CHOICE 63, DEDUCED 65. -/
def writeSide (u : EngUse) (t : Nat) (g : BitVec 16) (c : Cmd) (va : Nat) (d : List Byte) (s : State) : Acc Unit :=
  let write := engWrite u t g (descHint c.desc) va d
  if wantsStash c va d.length then
    match translateGen s t va true g with
    | .error st => .fail st s
    | .ok e =>
      let l := e.phys * 16384 + lineIdx va
      if !e.coherent then write s
      else
        match stashAgent s t c va d.length with
        | none =>
          match write s with
          | .ok x s => .ok x { s with dir := { s.dir with declined := sat32 s.dir.declined 1 } }
          | r => r
        | some a =>
          match engReady u true e l s with
          | (false, s) => .hold s
          | (true, s) =>
            if recallRuns l s then .hold s
            else
              match takeWay l none s with
              | .wait s => .hold s
              | .way slot s =>
                match write s with
                | .ok x s => .ok x (engOffer e l slot a d s)
                | r => r
  else write s

/-- The bytes a chunk writes: a FILL's pattern, or the bytes read; a byte that the same GATHER or SCATTER also writes is a free value
(R280). -/
def chunkBytes (c : Cmd) (dst : Side) (got : List (Nat × Byte)) (n : Nat) (s : State) : List Byte :=
  if c.desc.opcode = 2 then (List.range n).map fun i => byteOf (descOp c.desc 0x18 8) ((c.pos + i) % 8)
  else if c.desc.opcode = 1 then got.map Prod.snd
  else got.mapIdx fun i (a, b) => if sideHas dst a then Config.freeByte s.serialNo (c.pos + i) else b

/-- The command with its elements counted. -/
def countElems (c : Cmd) : Cmd := { c with elems := elemsDone c.list c.pos }

/-- Read what a chunk writes: nothing for a FILL. -/
def readChunk (q : QId) (t n : Nat) (c : Cmd) (s : State) : Cmd × List (Nat × Byte) × Option (Option Status) × State :=
  if c.desc.opcode = 2 then (c, [], none, s) else readSide (.cmd q c.idx) t (descHint c.desc) (moveSides c).1 n c.pos n c [] s

/-- Write the bytes of a chunk at an address, then go on, or stop as its reading did. -/
def writeChunk (q : QId) (t a : Nat) (c : Cmd) (d : List Byte) (bad : Option (Option Status)) (s : State) : Run :=
  let g := sideGen s t c 1 a
  let c := holdTile t 1 a g c
  match writeSide (.cmd q c.idx) t g c a d s with
  | .hold s => .hold c s
  | .fail st s => .stop st (countElems c) s
  | .ok _ s =>
    let c := { c with pos := c.pos + d.length }
    match bad with
    | some (some st) => .stop st (countElems c) (engSpend q c.desc s)
    | _ => .more c (engSpend q c.desc s)

/-- One chunk of a move: the bytes of one destination line, within one element. Log: DESIGN CHOICE 62. -/
def moveStep (q : QId) (t : Nat) (c : Cmd) (s : State) : Run :=
  let dst := (moveSides c).2
  if c.desc.len ≤ c.pos then .stop .ok (countElems c) { s with serialNo := s.serialNo + 1 }
  else if !engToken s q c.desc then .hold c s
  else
    let (b, k) := sideAt dst c.pos
    let n := min (c.desc.len - c.pos) (min k (128 - b % 128))
    match readChunk q t n c s with
    | (c, _, some none, s) => .hold c s
    | (c, got, bad, s) =>
      let d := chunkBytes c dst got n s
      if d = [] then .stop ((bad.bind id).getD .ok) (countElems c) s else writeChunk q t b c d bad s

/-- Run a move of a tenant queue. Log: DESIGN CHOICE 62. -/
def moveWork (q : QId) (c : Cmd) (s : State) : State :=
  match qTenant q with
  | none => s
  | some t => runLoop q (moveStep q t) (c.desc.len + 1) c s

/-! ## The checks of a move (Table 12.7) -/

/-- The status of a check list, first failure first. -/
def checks (l : List (Bool × Status)) : Option Status := firstFail l

def qTen (q : QId) : Nat := (qTenant q).getD 0

def copyCheck (q : QId) (c : Cmd) (s : State) : Option Status :=
  let d := c.desc
  let t := qTen q
  checks [
    (decide (d.len = 0) || overlaps d.src d.len d.dst d.len, .badLength),
    (!rangeOk s t d.src d.len || !rangeOk s t d.dst d.len, .outOfBounds),
    (!rangeGrant s t d.src d.len false || !rangeGrant s t d.dst d.len true, .noGrant)]

def fillCheck (q : QId) (c : Cmd) (s : State) : Option Status :=
  let d := c.desc
  checks [
    (decide (d.len = 0), .badLength),
    (!rangeOk s (qTen q) d.dst d.len, .outOfBounds),
    (!rangeGrant s (qTen q) d.dst d.len true, .noGrant)]

/-- The entries of an element list: 16 bytes each, ADDR and LEN. -/
def parseList : Nat → List Byte → List (Nat × Nat)
  | 0, _ => []
  | n + 1, b => (ofLeBytes (b.take 8), ofLeBytes ((b.drop 8).take 4)) :: parseList n (b.drop 16)

/-- Checks 2 to 4 of GATHER and SCATTER, once the list has been read: `wr` where the elements are written. -/
def listCheck (q : QId) (c : Cmd) (wr : Bool) (s : State) : Option Status :=
  let d := c.desc
  let t := qTen q
  let n := descOp d 0x20 4
  let a := descOp d 0x18 8
  let other := if wr then d.src else d.dst
  checks [
    (decide (d.len = 0) || c.list.any (fun e => decide (e.2 = 0)) || decide ((c.list.map Prod.snd).sum ≠ d.len), .badLength),
    (!rangeOk s t a (16 * n) || !rangeOk s t other d.len || c.list.any (fun e => !rangeOk s t e.1 e.2), .outOfBounds),
    (!rangeGrant s t a (16 * n) false || !rangeGrant s t other d.len (!wr) || c.list.any (fun e => !rangeGrant s t e.1 e.2 wr), .noGrant)]

/-- Read the list of a GATHER or SCATTER; one that ends past 2^48 cannot be read (R278). -/
def readList (q : QId) (c : Cmd) (s : State) : Acc (List Byte) :=
  let n := 16 * descOp c.desc 0x20 4
  if 2 ^ 48 < descOp c.desc 0x18 8 + n then .fail .outOfBounds s
  else engReadAll (.cmd q c.idx) (qTen q) (descHint c.desc) n (descOp c.desc 0x18 8) n s

/-- GATHER or SCATTER: the list is read before check 2, then the bytes move (R278). Log: DESIGN CHOICE 63. -/
def listWork (q : QId) (wr : Bool) (c : Cmd) (s : State) : State :=
  if c.list ≠ [] then moveWork q c s
  else
    match readList q c s with
    | .hold s => s
    | .fail st s => stopCmd q c st 0 0 s
    | .ok b s =>
      let c := { c with list := parseList (descOp c.desc 0x20 4) b }
      match listCheck q c wr s with
      | some st => stopCmd q c st 0 0 s
      | none => moveWork q c (putCmd q c s)

/-- ELEMENTS is in range, and LENGTH is not 0, which no list sums to: this decides whether there is a list to read. -/
def elementsCheck (c : Cmd) (_s : State) : Option Status :=
  let n := descOp c.desc 0x20 4
  if n = 0 ∨ 65536 < n ∨ c.desc.len = 0 then some .badLength else none

def execCopy (q : QId) (idx : BitVec 16) (s : State) : Host.Outcome State Fault Refusal :=
  .next (whileAlive (runCmd q idx 1 (copyCheck q) (moveWork q)) s)
def execFill (q : QId) (idx : BitVec 16) (s : State) : Host.Outcome State Fault Refusal :=
  .next (whileAlive (runCmd q idx 2 (fillCheck q) (moveWork q)) s)
def execGather (q : QId) (idx : BitVec 16) (s : State) : Host.Outcome State Fault Refusal :=
  .next (whileAlive (runCmd q idx 3 elementsCheck (listWork q false)) s)
def execScatter (q : QId) (idx : BitVec 16) (s : State) : Host.Outcome State Fault Refusal :=
  .next (whileAlive (runCmd q idx 4 elementsCheck (listWork q true)) s)

/-! ## MCAST_PUSH (R169, R280) -/

def pushCheck (q : QId) (c : Cmd) (s : State) : Option Status :=
  let d := c.desc
  checks [
    (decide (d.len = 0 ∨ 0x1000000 < d.len), .badLength),
    (!rangeOk s (qTen q) d.src d.len, .outOfBounds),
    (!rangeGrant s (qTen q) d.src d.len false || !s.mcValid (descOp d 0x18 1), .noGrant)]

/-- One line of a push: read once, and a copy for each port of the group as the command found it (R38). Log: DESIGN CHOICE 111. -/
def pushStep (q : QId) (c : Cmd) (s : State) : Run :=
  let t := qTen q
  if c.desc.len ≤ c.pos then
    if c.toHand = 0 then .stop (if c.drops = 0 then .ok else .linkLost) c s else .hold { c with tag := [], tiles := [] } s
  else if !engToken s q c.desc then .hold c s
  else
    let a := c.desc.src + c.pos
    let n := min (c.desc.len - c.pos) (128 - a % 128)
    let gen := sideGen s t c 0 a
    let c := holdTile t 0 a gen c
    match engRead (.cmd q c.idx) t gen (descHint c.desc) a n s with
    | .hold s => .hold c s
    | .fail st s => .stop st c s
    | .ok d s =>
      let s := engSpend q c.desc s
      let c := { c with toHand := c.toHand + mcPorts c.group none }
      let m : Msg := { opcode := 0x62, src := s.xpt.endpoint, tenant := BitVec.ofNat 7 t, len := BitVec.ofNat 32 c.pos, data := d }
      let s := mcastOut c.group none m (fun it => { it with push := some (q, c.idx), tags := c.mcTag.toList }) (putCmd q c s)
      match findCmd s q c.idx with
      | none => .hold c s
      | some c => .more { c with pos := c.pos + n } s

/-- The command looks its group up once, and counts against that generation until its completion is written (R39, R40). -/
def pushWork (q : QId) (c : Cmd) (s : State) : State :=
  let c := if c.mcTag.isSome then c else { c with group := s.mcEntry (descOp c.desc 0x18 1), mcTag := some (s.tagOf mcInst) }
  runLoop q (pushStep q) (c.desc.len + 1) c s

def execMcastPush (q : QId) (idx : BitVec 16) (s : State) : Host.Outcome State Fault Refusal :=
  .next (whileAlive (runCmd q idx 5 (pushCheck q) (pushWork q)) s)

/-! ## SCRUB (R242, R243) -/

/-- The checks of a pass: start, length and KIND, the range, the entries and the summary buffer, then a sleeping tier (R232, R242, R278).
Log: DEDUCED 64. -/
def scrubCheck (q : QId) (c : Cmd) (s : State) : Option Status :=
  let d := c.desc
  let t := qTen q
  let sum := descOp d 0x18 8
  let bad := decide (d.len = 0 ∨ d.len % 128 ≠ 0 ∨ d.src % 128 ≠ 0 ∨ 4 ≤ descOp d 0x20 1)
  let sleeps := (s.tier (scrubTier d)).asleep || (s.tier (scrubTier d)).waking
  if scrubPhysical d then
    checks [(bad, .badLength), (decide (tierTiles s (scrubTier d) * 2 ^ 21 < d.src + d.len), .outOfBounds), (sleeps, .busy)]
  else
    checks [
      (bad, .badLength),
      (!rangeOk s t d.src d.len || !rangeOk s t sum 64, .outOfBounds),
      ((rangeTiles d.src d.len).any (fun k => (s.tileAt t k).shared) || !rangeGrant s t sum 64 true, .noGrant),
      (sleeps, .busy)]

/-- An address as the summary gives it (R243). -/
def scrubAddr (d : Desc) (pos : Nat) : Nat :=
  if scrubPhysical d then lineKey (scrubTier d) ((d.src + pos) / 128) else d.src + pos

/-- The physical line of the pass at a position: none where it is skipped. Log: DEDUCED 64. -/
def scrubLine (s : State) (t : Nat) (c : Cmd) (g : BitVec 16) : Option (Tier × Nat) :=
  let a := c.desc.src + c.pos
  if scrubPhysical c.desc then
    if s.use (tileKey (scrubTier c.desc) (a / 2 ^ 21)) = .retired then none else some (scrubTier c.desc, a / 128)
  else
    let e := tileInGen s t (tileOf a) g
    if e.valid && decide (e.tier = scrubTier c.desc) then some (e.tier, e.phys * 16384 + lineIdx a) else none

/-- Count one line's outcome (Table 10.6). Log: DEDUCED 64. -/
def scrubCount (c : Cmd) (e : EccErr) (o : ReadOut) : Cmd :=
  let x := c.scrub
  let x := { x with scanned := x.scanned + 1, odecc := x.odecc + (if scrubTier c.desc = .near then e.odecc else 0)
                    next := scrubAddr c.desc (c.pos + 128) }
  let x := match o with
    | .corrected d => { x with corrected := x.corrected + 1, devcorr := if d then x.devcorr + 1 else x.devcorr }
    | .poison => { x with poisoned := x.poisoned + 1 }
    | .uncorrectable => { x with uncorr := x.uncorr + 1, poisoned := x.poisoned + 1
                                 firstUc := some (x.firstUc.getD (scrubAddr c.desc c.pos)) }
    | .garbled _ true => { x with corrected := x.corrected + 1 }
    | _ => x
  { c with scrub := x }

/-- One line of a pass. `errs` names the lines of the pass that meet errors, by their index in the range. Log: DEDUCED 64. -/
def scrubStep (q : QId) (errs : List (Nat × EccErr)) (c : Cmd) (s : State) : Run :=
  let t := qTen q
  if c.desc.len ≤ c.pos then .stop .ok c s
  else
    let va := c.desc.src + c.pos
    let g := sideGen s t c 0 va
    let c := if scrubPhysical c.desc then c else holdTile t 0 va g c
    if !scrubPhysical c.desc && !(tileInGen s t (tileOf va) g).valid then .stop .outOfBounds c s
    else match scrubLine s t c g with
    | none => .more { c with pos := c.pos + 128, scrub := { c.scrub with skipped := c.scrub.skipped + 1, next := scrubAddr c.desc (c.pos + 128) } } s
    | some (tier, l) =>
      if lineBusy s tier l || !tierRuns s tier || !engToken s q c.desc || !dramToken s tier l then .hold c s
      else
        let s := engSpend q c.desc (touch tier l 3 s.dram.queue s)
        let e := (errs.find? fun x => decide (x.1 = c.pos / 128)).map Prod.snd
        let (o, s) := readCodeword tier l 1 (e.getD {}) s
        .more { scrubCount c (e.getD {}) o with pos := c.pos + 128 } s

/-- The 64 bytes of the summary (Table 10.6). Log: DEDUCED 64. -/
def scrubSummary (c : Cmd) (st : Status) : List Byte :=
  let x := c.scrub
  leBytes 8 x.scanned ++ leBytes 4 x.corrected ++ leBytes 4 x.uncorr ++ leBytes 4 x.poisoned ++ leBytes 4 x.skipped
    ++ leBytes 8 (x.firstUc.getD (2 ^ 64 - 1)) ++ leBytes 4 x.courses
    ++ [BitVec.ofNat 8 st.code, BitVec.ofNat 8 (descOp c.desc 0x20 1 % 4)] ++ [0, 0] ++ leBytes 4 x.devcorr ++ leBytes 4 x.odecc
    ++ leBytes 8 (x.start % 2 ^ 48) ++ leBytes 8 x.next

/-- Write what is left of the summary, line by line; a line that cannot be touched yet holds the command, and one that cannot be written
leaves the rest out. Log: DEDUCED 64. -/
def putSummary (q : QId) (t a : Nat) (b : List Byte) : Nat → Cmd → State → State
  | 0, c, s => putCmd q c s
  | f + 1, c, s =>
    let st := c.scrub.fin.getD .ok
    if 64 ≤ c.scrub.sum then stopCmd q c st c.pos 0 s
    else
      let k := c.scrub.sum
      let n := min (64 - k) (128 - (a + k) % 128)
      match engWrite (.cmd q c.idx) t (genNow s t) (descHint c.desc) (a + k) ((b.drop k).take n) s with
      | .ok _ s => putSummary q t a b f { c with scrub := { c.scrub with sum := k + n } } s
      | .hold s => putCmd q c s
      | .fail _ s => stopCmd q c st c.pos 0 s

/-- The pass has ended: its summary goes to the host for a physical pass, else to the tenant's memory (R243). Log: DEDUCED 64. -/
def scrubEnd (q : QId) (c : Cmd) (s : State) : State :=
  let st := c.scrub.fin.getD .ok
  let b := scrubSummary c st
  let a := descOp c.desc 0x18 8
  match qTenant q with
  | none => stopCmd q c st c.pos 0 (s.toHost s.cfg.adminPort (.hostWrite s.cfg.adminPort a b))
  | some t => putSummary q t a b 3 c s

/-- The pass stops with a status; its COURSES are counted (R244). -/
def scrubStop (st : Status) (c : Cmd) (s : State) : Cmd :=
  { c with tag := [], tiles := [], scrub := { c.scrub with fin := some st, courses := s.clk.now - c.scrub.start, sum := 0 } }

/-- The pass line by line, until it waits or ends. -/
def scrubLoop (q : QId) (errs : List (Nat × EccErr)) : Nat → Cmd → State → State
  | 0, c, s => putCmd q c s
  | n + 1, c, s =>
    match scrubStep q errs c s with
    | .more c s => scrubLoop q errs n c s
    | .hold c s => putCmd q c s
    | .stop st c s => scrubEnd q (scrubStop st c s) s

/-- Begin the pass at acceptance, take it up, or take up the writing of its summary (R243, R244). Log: DEDUCED 64. -/
def scrubWork (q : QId) (errs : List (Nat × EccErr)) (c : Cmd) (s : State) : State :=
  if c.scrub.fin.isSome then scrubEnd q c s
  else
    let c := if c.scrub.begun then c else { c with scrub := { start := s.clk.now, next := scrubAddr c.desc 0, begun := true } }
    scrubLoop q errs (c.desc.len / 128 + 1) c s

def execScrub (q : QId) (idx : BitVec 16) (errs : List (Nat × EccErr)) (s : State) : Host.Outcome State Fault Refusal :=
  .next (whileAlive (runCmd q idx 0x10 (scrubCheck q) (scrubWork q errs)) s)

end Sys2Proof.Machine
end

