-- ==== Sys2Proof/Machine/Array.lean ====
section
/-! DEFINITION. The Sedge array as a machine that runs (spec/14_sedge_array.md): how a unit fires, what each operation does, the streams of
the memory units, and how a launch is checked, started and ended. -/

namespace Sys2Proof.Machine

/-! ## Firing (R309, R310) -/

/-- The queues joined to an output of a unit: column, row, input port. -/
def outConns (s : State) (unit port : Nat) : List ArrConn :=
  (connsOf s (unit / 16)).filter fun k => decide (k.row.val = unit % 16 ∧ k.port = port)

/-- The key of the queue a connection feeds. -/
def connKey (k : ArrConn) : Nat := inKey (unitId k.col.val k.drow.val) k.dport

/-- An output has room in every queue joined to it. A connection across a cut link gains no credit, and a column that is being swapped
gives none (R309, R337). -/
def outRoom (s : State) (r : Launch) (unit port : Nat) : Bool :=
  (outConns s unit port).all fun k =>
    !cutConn r (unit / 16) k && decide ((s.col k.col.val).state = .running) && decide ((Tbl.get [] r.queues (connKey k)).length < 4)

/-- Place one entry in each queue joined to an output. Log: DESIGN CHOICE 69. -/
def produce (s : State) (unit port : Nat) (v : BitVec 1024) (r : Launch) : Launch :=
  (outConns s unit port).foldl (fun r k =>
    let l := Tbl.get [] r.queues (connKey k)
    { r with queues := Tbl.put [] r.queues (connKey k) (l ++ [v]) }) r

/-- An input is joined to some output of the region. -/
def inConnected (s : State) (r : Launch) (unit port : Nat) : Bool :=
  (regionCols r).any fun c => (connsOf s c).any fun k => decide (unitId k.col.val k.drow.val = unit ∧ k.dport = port) && !cutConn r c k

/-- An input is sticky: only S of a compute unit, and I0 and I1 of a memory unit, may be (R310). -/
def sticky (s : State) (unit port : Nat) : Bool :=
  let row := unit % 16
  ((row < 8 ∧ port = 3) ∨ (8 ≤ row ∧ row < 12 ∧ (port = 2 ∨ port = 3)))
    && (ctlOf s (unit / 16)).sticky.any fun e => decide (e.1.val = row ∧ e.2 = port)

/-- An input that a firing consumes holds an entry; an unconnected input is never consumed (R309). -/
def inReady (s : State) (r : Launch) (unit port : Nat) : Bool :=
  !inConnected s r unit port || decide (Tbl.get [] r.queues (inKey unit port) ≠ [])

/-- The entry an input shows; a free value where an unconnected input holds none. Log: DESIGN CHOICE 71. -/
def inVal (s : State) (r : Launch) (unit port : Nat) : BitVec 1024 :=
  match Tbl.get [] r.queues (inKey unit port) with
  | x :: _ => x
  | [] => Config.freeVec s.serialNo (inKey unit port)

/-- Remove the first entry of a consumed input. Log: DESIGN CHOICE 69. -/
def consume (s : State) (unit port : Nat) (r : Launch) : Launch :=
  if inConnected s r unit port && !sticky s unit port then
    { r with queues := Tbl.put [] r.queues (inKey unit port) (Tbl.get [] r.queues (inKey unit port)).tail }
  else r

/-- The column has tokens for a cycle of firing, 64 to a token: one already counted, or one more (R321, R384). -/
def colToken (s : State) (col : Nat) : Bool :=
  decide ((s.col col).firedAt = some (ageNow s)) || tokenLeft s (24 + col) ((s.col col).spent / 64)

/-- A unit of the column fires in this cycle. -/
def colSpend (col : Nat) (s : State) : State :=
  let c := s.col col
  if c.firedAt = some (ageNow s) then s else s.setCol col { c with spent := c.spent + 1, firedAt := some (ageNow s) }

/-- One firing: inputs consumed, entries produced, DONE words sent. Log: DESIGN CHOICE 69. -/
def fire (unit : Nat) (ins : List Nat) (outs : List (Nat × BitVec 1024)) (upd : Launch → Launch) (s : State) : State :=
  match launchOn s (unit / 16) with
  | none => s
  | some r =>
    if ins.all (inReady s r unit) && outs.all (fun o => outRoom s r unit o.1) then
      let r := ins.foldl (fun r p => consume s unit p r) r
      let r := outs.foldl (fun r o => produce s unit o.1 o.2 r) r
      colSpend (unit / 16) { putLaunch { upd r with fired := true } s with serialNo := s.serialNo + 1 }
    else s

/-- A unit of a running column of a launch that has not ended may fire, while the column has tokens (R321). Log: DESIGN CHOICE 69. -/
def unitRuns (s : State) (col : Nat) : Option Launch :=
  if (s.col col).state = .running ∧ colToken s col then
    match launchOn s col with
    | some r => if firing r then some r else none
    | none => none
  else none

/-! ## Elements (R307) -/

/-- The width of an element in bits. -/
def elemBits : Elem → Nat
  | .fp32 => 32
  | .bf16 => 16
  | .fp16 => 16
  | .int8 => 8

/-- The floating format of an element. -/
def elemFmt : Elem → FpFmt
  | .bf16 => bf16
  | .fp16 => fp16
  | _ => fp32

/-- The elements of a value, `n` of them of `w` bits. -/
def unpackE (w n v : Nat) : List Nat := (List.range n).map fun i => v / 2 ^ (w * i) % 2 ^ w

/-- Elements packed into a number. -/
def packE (w : Nat) (l : List Nat) : Nat := l.foldr (fun x a => x % 2 ^ w + 2 ^ w * a) 0

/-- A signed number in `w` bits. -/
def signed (w x : Nat) : Int := if x % 2 ^ w < 2 ^ (w - 1) then (x % 2 ^ w : Nat) else (x % 2 ^ w : Nat) - (2 ^ w : Nat)

/-- The low `w` bits of a signed number. -/
def wrap (w : Nat) (x : Int) : Nat := (x % (2 ^ w : Nat)).toNat

/-- A NaN of a format, its sign and payload free. Log: DESIGN CHOICE 70. -/
def nanOf (f : FpFmt) (ops : List Nat) : Nat :=
  let x := Config.nanBits ops
  fpSign f (x.testBit 0) (f.infBits + 1 + x / 2 % (2 ^ f.mb - 1))

/-- A floating result, or a NaN. -/
def orNan (e : Elem) (ops : List Nat) (x : Option Nat) : Nat := x.getD (nanOf (elemFmt e) ops)

def elemAdd (e : Elem) (a b : Nat) : Nat :=
  if e = .int8 then (a + b) % 256 else orNan e [0, a, b] (fpAdd (elemFmt e) a b)
def elemSub (e : Elem) (a b : Nat) : Nat :=
  if e = .int8 then (a + 256 - b % 256) % 256 else orNan e [1, a, b] (fpSub (elemFmt e) a b)
def elemMul (e : Elem) (a b : Nat) : Nat :=
  if e = .int8 then a * b % 256 else orNan e [2, a, b] (fpFma (elemFmt e) a b none)
def elemFma (e : Elem) (a b c : Nat) : Nat :=
  if e = .int8 then (a * b + c) % 256 else orNan e [3, a, b, c] (fpFma (elemFmt e) a b (some c))

/-- MAX (true) or MIN of two elements. Log: DESIGN CHOICE 70. -/
def elemMax (mx : Bool) (e : Elem) (a b : Nat) : Nat :=
  if e = .int8 then (if (signed 8 a < signed 8 b) == mx then b else a)
  else if a = b then a
  else
    match fpLt (elemFmt e) a b, fpLt (elemFmt e) b a with
    | some true, _ => if mx then b else a
    | _, some true => if mx then a else b
    | _, _ => Config.minMax mx a b

/-- The value nearest to a fraction of a power of two, ties to even. -/
def roundInt (n : Bool) (m : Nat) (e : Int) : Int :=
  let v : Nat :=
    if 0 ≤ e then m * 2 ^ e.toNat
    else
      let d := 2 ^ (-e).toNat
      let q := m / d
      let r := m % d
      if d < 2 * r ∨ (2 * r = d ∧ q % 2 = 1) then q + 1 else q
  if n then -(v : Int) else v

/-- A number held to the range of int8. -/
def clamp8 (x : Int) : Nat := wrap 8 (max (-128) (min 127 x))

/-- An element of one format in another; a conversion to a narrower format saturates (R311). -/
def elemCvt (a b : Elem) (lane : Word) (i x : Nat) : Nat :=
  match a, b with
  | .int8, .int8 => x
  | .int8, _ => fpRound (elemFmt b) (decide (signed 8 x < 0)) (signed 8 x).natAbs 1 0
  | _, .int8 =>
    match fpVal (elemFmt a) x with
    | .nan => Config.cvtFree a b lane i
    | .inf n => clamp8 (if n then -128 else 127)
    | .fin n m e => clamp8 (roundInt n m e)
  | _, _ =>
    if a = b then x
    else
      match b, fpVal (elemFmt a) x with
      | .fp32, .inf n => fpSign fp32 n fp32.infBits
      | _, _ => orNan b [4, x] (fpConvert (elemFmt a) (elemFmt b) x)

/-- One lane of CVT: element i of the lane gives element i; elements with no source are free (R311). Log: DESIGN CHOICE 70. -/
def laneCvt (a b : Elem) (lane : Nat) : Nat :=
  let xs := unpackE (elemBits a) (32 / (elemBits a)) lane
  packE (elemBits b) ((List.range (32 / (elemBits b))).map fun i =>
    match xs[i]? with
    | some x => elemCvt a b (BitVec.ofNat 32 lane) i x
    | none => Config.cvtFree a b (BitVec.ofNat 32 lane) i)

/-- An operation on each pair of elements. -/
def zipElems (e : Elem) (f : Nat → Nat → Nat) (a b : BitVec 1024) : BitVec 1024 :=
  let n := 1024 / (elemBits e)
  BitVec.ofNat 1024 (packE (elemBits e) (List.zipWith f (unpackE (elemBits e) n a.toNat) (unpackE (elemBits e) n b.toNat)))

/-- The lane words of a vector. -/
def lanes (v : BitVec 1024) : List Word := (unpackE 32 32 v.toNat).map (BitVec.ofNat 32)

def ofLanes (l : List Word) : BitVec 1024 := BitVec.ofNat 1024 (packE 32 (l.map BitVec.toNat))

/-- A scalar word as an entry. -/
def scalar (w : Word) : BitVec 1024 := w.setWidth 1024

/-! ## Compute units (R311) -/

/-- The inputs an operation consumes: A, B, C, S, K at ports 0 to 4; a constant takes the place of B or C. -/
def cuInputs (c : CuCfg) (op : CuOp) : List Nat :=
  let l := match op with
    | .fma => [0, 1, 2]
    | .scale useC => if useC then [0, 3, 2] else [0, 3]
    | .cvt _ => [0]
    | .select => [0, 1, 3]
    | .mac byK _ => if byK then [0, 1, 4] else [0, 1]
    | .reduce => [0]
    | _ => [0, 1]
  l.filter fun p => !(decide (p = 1) && c.constB.isSome) && !(decide (p = 2) && c.constC.isSome)

/-- The accumulator after a firing of MAC. Log: DESIGN CHOICE 70. -/
def macStep (e : Elem) (acc a b : List Word) : List Word :=
  (List.range 32).map fun i =>
    let (x, y, z) := (acc.getD i 0, a.getD i 0, b.getD i 0)
    if e = .int8 then
      BitVec.ofNat 32 (wrap 32 (x.toNat + ((List.zipWith (fun p q => signed 8 p * signed 8 q) (unpackE 8 4 y.toNat) (unpackE 8 4 z.toNat)).sum)))
    else Config.macFloat e x y z

/-- REDUCE: the sum of the lanes, in int32 for int8. Log: DESIGN CHOICE 70. -/
def reduceLanes (e : Elem) (a : BitVec 1024) : Word :=
  if e = .int8 then BitVec.ofNat 32 (wrap 32 (((unpackE 8 128 a.toNat).map (signed 8)).sum)) else Config.reduceFloat e a

/-- COMPUTE_UNIT_FIRE. Outputs V, R, F at ports 0 to 2; F carries the value 1 at every firing. Log: DESIGN CHOICE 69. -/
def computeFire (col cu : Nat) (s : State) : State :=
  match unitRuns s col with
  | none => s
  | some r =>
    let cfg := cuOf s col cu
    let u := unitId col cu
    match cfg.op with
    | none => s
    | some op =>
      let v := inVal s r u
      let a := v 0
      let b := cfg.constB.getD (v 1)
      let c := cfg.constC.getD (v 2)
      let e := cfg.fmt
      let ins := cuInputs cfg op
      let vec (x : BitVec 1024) := fire u ins [(0, x), (2, 1)] id s
      match op with
      | .add => vec (zipElems e (elemAdd e) a b)
      | .sub => vec (zipElems e (elemSub e) a b)
      | .mul => vec (zipElems e (elemMul e) a b)
      | .fma => vec (ofElems e (List.zipWith (fun f z => f z) (List.zipWith (elemFma e) (elemsOf e a) (elemsOf e b)) (elemsOf e c)))
      | .scale useC =>
        let k := (v 3).toNat % 2 ^ (elemBits e)
        if useC then vec (zipElems e (fun x z => elemFma e x k z) a c) else vec (zipElems e (fun x _ => elemMul e x k) a a)
      | .max => vec (zipElems e (elemMax true e) a b)
      | .min => vec (zipElems e (elemMax false e) a b)
      | .cvt dst => vec (ofLanes ((lanes a).map fun w => BitVec.ofNat 32 (laneCvt e dst w.toNat)))
      | .select =>
        let m := (v 3).toNat
        vec (ofLanes ((List.range 32).map fun i => if m.testBit i then (lanes a).getD i 0 else (lanes b).getD i 0))
      | .reduce => fire u ins [(1, scalar (reduceLanes e a)), (2, 1)] id s
      | .mac byK n =>
        let acc := macStep e (Tbl.get [] r.accs u) (lanes a) (lanes b)
        let k := Tbl.get 0 r.counts u + 1
        if (if byK then (v 4).getLsbD 0 else decide (n ≤ k)) then
          fire u ins [(0, ofLanes acc), (2, 1)] (fun r => { r with accs := Tbl.put [] r.accs u [], counts := Tbl.put 0 r.counts u 0 }) s
        else
          fire u ins [(2, 1)] (fun r => { r with accs := Tbl.put [] r.accs u acc, counts := Tbl.put 0 r.counts u k }) s
where
  elemsOf (e : Elem) (x : BitVec 1024) : List Nat := unpackE (elemBits e) (1024 / (elemBits e)) x.toNat
  ofElems (e : Elem) (l : List Nat) : BitVec 1024 := BitVec.ofNat 1024 (packE (elemBits e) l)

def execComputeUnitFire (col : Fin 64) (cu : Fin 8) (s : State) : Host.Outcome State Fault Refusal :=
  .next (whileAlive (computeFire col.val cu.val) s)

/-! ## Steering units (R312) -/

/-- A count from the configuration or an argument word (R312, Table 14.4). -/
def countOf (args : List Word) : CountSrc → Nat
  | .const n => n.toNat
  | .arg w => (args.getD w.val 0).toNat

/-- STEERING_UNIT_FIRE. Inputs X0, X1, G and outputs Y0, Y1, Q at ports 0 to 2. Log: DESIGN CHOICE 69. -/
def steeringFire (col su : Nat) (s : State) : State :=
  match unitRuns s col with
  | none => s
  | some r =>
    let cfg := suOf s col su
    let u := unitId col (12 + su)
    let g := (inVal s r u 2).getLsbD 0
    match cfg.op with
    | none => s
    | some .split => fire u [0, 2] [(if g then 1 else 0, inVal s r u 0)] id s
    | some .merge => if inReady s r u 2 then fire u [2, if g then 1 else 0] [(0, inVal s r u (if g then 1 else 0))] id s else s
    | some .gate => fire u [0, 2] (if g then [(0, inVal s r u 0)] else []) id s
    | some (.counter n) =>
      let i := Tbl.get 0 r.counts u
      let last := decide (countOf r.args n ≤ i + 1)
      let outs := [(2, if last then 0 else 1)] ++ (if cfg.vector then [] else [(0, scalar (BitVec.ofNat 32 i))])
      fire u [2] outs (fun r => { r with counts := Tbl.put 0 r.counts u (if last then 0 else i + 1) }) s

def execSteeringUnitFire (col : Fin 64) (su : Fin 3) (s : State) : Host.Outcome State Fault Refusal :=
  .next (whileAlive (steeringFire col.val su.val) s)

/-! ## Scalar units (R313) -/

/-- The result of a scalar operation on two words; CMP gives its relation. Log: DESIGN CHOICE 70. -/
def scalarOp (args : List Word) (op : ScOp) (a b : Word) : Word :=
  match op with
  | .add => a + b
  | .sub => a - b
  | .mul => a * b
  | .and => a &&& b
  | .or => a ||| b
  | .xor => a ^^^ b
  | .shl => if b.toNat < 32 then a <<< b.toNat else Config.shiftFree 0 a b
  | .shr => if b.toNat < 32 then a >>> b.toNat else Config.shiftFree 1 a b
  | .sra => if b.toNat < 32 then a.sshiftRight b.toNat else Config.shiftFree 2 a b
  | .fadd => BitVec.ofNat 32 (elemAdd .fp32 a.toNat b.toNat)
  | .fmul => BitVec.ofNat 32 (elemMul .fp32 a.toNat b.toNat)
  | .cmp .eq => if a = b then 1 else 0
  | .cmp .slt => if a.slt b then 1 else 0
  | .cmp .ult => if a.ult b then 1 else 0
  | .arg w => args.getD w.val 0
  | .const v => v

/-- SCALAR_UNIT_FIRE. Inputs P0 to P2 and H, outputs O0, O1, Z. A result leaves on O0 and O1, a comparison on Z; the output joined to DONE
sends its word there (R313, R317). Log: DESIGN CHOICE 69. -/
def scalarFire (col : Nat) (s : State) : State :=
  match unitRuns s col with
  | none => s
  | some r =>
    let cfg := scOf s col
    let u := unitId col 15
    match cfg.op with
    | none => s
    | some op =>
      let w := scalarOp r.args op ((inVal s r u cfg.a.val).setWidth 32) ((inVal s r u cfg.b.val).setWidth 32)
      let ports := match op with
        | .arg _ => [3]
        | .const _ => [3]
        | _ => if cfg.a = cfg.b then [cfg.a.val, 3] else [cfg.a.val, cfg.b.val, 3]
      match op with
      | .cmp _ => fire u ports [(2, scalar w)] id s
      | _ => fire u ports [(0, scalar w), (1, scalar w)]
          (fun r => if (ctlOf s col).done.isSome ∧ col = r.first then { r with toDone := r.toDone ++ [w] } else r) s

def execScalarUnitFire (col : Fin 64) (s : State) : Host.Outcome State Fault Refusal := .next (whileAlive (scalarFire col.val) s)

/-! ## Memory units (R314, R315) -/

/-- The key of a memory unit's stream. -/
def streamKey (col mu st : Nat) : Nat := unitId col (8 + mu) * 4 + st

def isIndexed (k : MuKind) : Bool := decide (k = .indexedRead ∨ k = .indexedWrite)
def isWriter (k : MuKind) : Bool := decide (k = .write ∨ k = .indexedWrite)

/-- The input a write takes its data from: W0, W1 at ports 0 and 1, I1 at 3. -/
def dataIn (c : MuCfg) : Nat := if c.word then 3 else if c.second then 1 else 0

/-- The output a read delivers on: D0, D1, D2 at ports 0 to 2. -/
def dataOut (c : MuCfg) : Nat := if c.word then 2 else if c.second then 1 else 0

/-- The address of the next element. -/
def elemAddr (c : MuCfg) (m : MuStream) (idx : Word) : Int :=
  let n := m.issued
  if isIndexed c.kind then m.base + idx.toInt
  else m.base + (n % m.c0 : Nat) * c.d0.toInt + (n / m.c0 % m.c1 : Nat) * c.d1.toInt + (n / (m.c0 * m.c1) : Nat) * c.d2.toInt

/-- The bytes of a word or line entry. -/
def entryBytes (c : MuCfg) (v : BitVec 1024) : List Byte := leBytes (if c.word then 4 else 128) v.toNat

/-- The loader of a frame writer is made when the stream issues its first access. -/
def openSelf (r : Launch) (id : LoaderId) (s : State) : State :=
  match loaderOf s id with
  | some _ => s
  | none => { s with arr := { s.arr with loaders := s.arr.loaders ++ [{ id, tenant := r.tenant }], loadsSlp := sat32 s.arr.loadsSlp 1 } }

/-- The generation a stream takes as it issues at an address: the one it holds while it stays in its tile (R40, R315). Log: DEDUCED 74. -/
def streamGen (s : State) (t : Nat) (m : MuStream) (va : Nat) : BitVec 16 :=
  match m.held with
  | some (tile, g) => if tile = tileOf va then g else genNow s t
  | none => genNow s t

/-- The issue of one access: the stream starts if it waits for T, takes its offset and its data, and holds the access in flight.
 Log: DEDUCED 74. -/
def accessIssue (col mu st : Nat) (id : LoaderId) (s : State) : State :=
  match unitRuns s col with
  | none => s
  | some r =>
    let c := muOf s col mu st
    let u := unitId col (8 + mu)
    let k := streamKey col mu st
    let m := Tbl.get {} r.streams k
    let tok := !m.started && c.tStart
    let ins := (if tok then [4] else []) ++ (if isIndexed c.kind then [2] else []) ++ (if isWriter c.kind then [dataIn c] else [])
    if c.kind = .off ∨ m.ended ∨ m.total ≤ m.issued ∨ (!isWriter c.kind ∧ 32 ≤ m.flight.length) ∨ !ins.all (inReady s r u)
        ∨ (tok ∧ Tbl.get [] r.queues (inKey u 4) = []) then s
    else
      let a := elemAddr c m ((inVal s r u 2).setWidth 32)
      let d := if isWriter c.kind then entryBytes c (inVal s r u (dataIn c)) else []
      let r := ins.foldl (fun r p => consume s u p r) r
      let s := colSpend col { s with serialNo := s.serialNo + 1 }
      if a < 0 ∨ (2 ^ 48 : Int) ≤ a then launchEnd r.q r.idx 7 u .outOfBounds (putLaunch r s)
      else if a.toNat % (if c.word then 4 else 128) ≠ 0 then launchEnd r.q r.idx 7 u .badLength (putLaunch r s)
      else
        let g := streamGen s r.tenant m a.toNat
        let f : Flight := { addr := a.toNat, len := if c.word then 4 else 128, gen := g, hint := c.hint.toNat, port := dataOut c
                            writer := isWriter c.kind, frames := decide (c.kind = .frameWriter), data := d }
        let m := { m with started := true, issued := m.issued + 1, flight := m.flight ++ [f], held := some (tileOf a.toNat, g) }
        let r := { r with fired := true, streams := Tbl.put {} r.streams k m }
        let s := putLaunch r s
        if c.kind = .frameWriter then openSelf r id s else s

/-- Bytes of a word list. -/
def wordsOf (b : List Byte) : List Word := (List.range (b.length / 4)).map fun i => BitVec.ofNat 32 (ofLeBytes ((b.drop (4 * i)).take 4))

/-- The oldest access of a stream has been done: count it, and send the E token after the last (R314). Log: DEDUCED 74. -/
def accessDone (col mu st : Nat) (f : Flight) (bytes : Nat) (out : Option (BitVec 1024)) (s : State) : State :=
  match launchOn s col with
  | none => s
  | some r =>
    let u := unitId col (8 + mu)
    let k := streamKey col mu st
    let m := Tbl.get {} r.streams k
    let last := decide (m.done + 1 = m.total)
    let fw := f.frames
    let m' := { m with done := m.done + 1, flight := m.flight.tail, held := if last then none else m.held, ended := m.ended || (last && !fw) }
    let r := { r with fired := true, bytes := r.bytes + bytes, streams := Tbl.put {} r.streams k m' }
    let live := firing r
    let r := match out with
      | some v => if live && !fw then produce s u f.port v r else r
      | none => r
    let r := if live && last && !fw then produce s u (3 + st) 1 r else r
    putLaunch r s

/-- A frame writer's line reaches the self-load port (R335). -/
def feedSelf (id : LoaderId) (b : List Byte) (last : Bool) (s : State) : State :=
  match loaderOf s id with
  | none => s
  | some x => if x.ended.isSome then s else putLoader { x with words := x.words ++ wordsOf b, closed := x.closed || last } s

/-- A frame writer whose stream has ended places its status word on D2 and its E token after it, once there is room (R339).
 Log: DEDUCED 75. -/
def selfReport (col mu st : Nat) (id : LoaderId) (s : State) : State :=
  match loaderOf s id, launchOn s col with
  | some x, some r =>
    let u := unitId col (8 + mu)
    match x.ended with
    | some e =>
      if !x.reported && firing r && outRoom s r u 2 && outRoom s r u (3 + st) then
        let w := scalar (BitVec.ofNat 32 (e.code + 256 * min x.blocks 0xFFFFFF))
        let k := streamKey col mu st
        let m := Tbl.get {} r.streams k
        let r := produce s u (3 + st) 1 (produce s u 2 w r)
        putLoader { x with reported := true } (putLaunch { r with streams := Tbl.put {} r.streams k { m with ended := true, held := none } } s)
      else s
    | none => s
  | _, _ => s

/-- The read of a frame writer's stream has failed: its load ends by error, and its launch with it (R339). -/
def selfFailed (id : LoaderId) (s : State) : State :=
  match loaderOf s id with
  | some x => if x.ended.isNone then { s with arr := { s.arr with loadFail := sat32 s.arr.loadFail 1 } } else s
  | none => s

/-- A frame writer has no access in flight and its stream has ended. -/
def reportDue (s : State) (col mu st : Nat) : Bool := decide ((muOf s col mu st).kind = .frameWriter)

/-- The completion of the oldest access of a stream, in stream order. After the launch has ended the access still finishes, and delivers
nothing (R318); while its column is swapped it waits (R337). Log: DEDUCED 74, DESIGN CHOICE 112. -/
def accessComplete (col mu st : Nat) (id : LoaderId) (s : State) : State :=
  match launchOn s col with
  | none => s
  | some r =>
    let u := unitId col (8 + mu)
    let m := Tbl.get {} r.streams (streamKey col mu st)
    let last := decide (m.done + 1 = m.total)
    match m.flight with
    | [] => if reportDue s col mu st then selfReport col mu st id s else s
    | f :: _ =>
      let room := f.frames || ((f.writer || outRoom s r u f.port) && (!last || outRoom s r u (3 + st)))
      let failed (e : Status) (s : State) :=
        launchEnd r.q r.idx 7 u e (accessDone col mu st f 0 none (if f.frames then selfFailed id s else s))
      if firing r && !(room && decide ((s.col col).state = .running)) then s
      else if f.writer then
        match engWrite (.cmd r.q r.idx) r.tenant f.gen f.hint f.addr f.data s with
        | .hold s => s
        | .fail e s => failed e s
        | .ok _ s => accessDone col mu st f f.data.length none s
      else
        match engRead (.cmd r.q r.idx) r.tenant f.gen f.hint f.addr f.len s with
        | .hold s => s
        | .fail e s => failed e s
        | .ok b s =>
          if f.frames then feedSelf id b last (accessDone col mu st f 0 none s)
          else accessDone col mu st f 0 (some (BitVec.ofNat 1024 (ofLeBytes b))) s

def execMemoryUnitAccess (col : Fin 64) (mu : Fin 4) (stream : Fin 4) (ph : AccessPhase) (s : State) : Host.Outcome State Fault Refusal :=
  let id := LoaderId.self col mu stream
  .next (whileAlive (match ph with
    | .issue => accessIssue col.val mu.val stream.val id
    | .complete => accessComplete col.val mu.val stream.val id) s)

/-! ## The checks of array commands (R316, R332) -/

/-- COL_FIRST and COL_COUNT of a descriptor. -/
def colFirst (c : Cmd) : Nat := descOp c.desc 0x18 1
def colCount (c : Cmd) : Nat := descOp c.desc 0x19 1
def cmdCols (c : Cmd) : List Nat := (List.range (colCount c)).map fun i => colFirst c + i

/-- The range lies in the array. -/
def colsOk (c : Cmd) : Bool := decide (1 ≤ colCount c ∧ colCount c ≤ 64 ∧ colFirst c + colCount c ≤ 64)

/-- Every column of the range is the partition's and is available (check 3). -/
def colsOwned (s : State) (q : QId) (c : Cmd) : Bool :=
  (cmdCols c).all fun k =>
    let x := s.col k
    decide (x.state ≠ .unowned ∧ x.state ≠ .unavailable) && decide (x.part = qPart s (qNum q))

/-- Reserved operand bytes from an offset on are zero. -/
def restZero (c : Cmd) (from_ : Nat) : Bool := (c.desc.ops.drop (from_ - 0x18)).all fun b => decide (b = 0)

def launchCheck (q : QId) (c : Cmd) (s : State) : Option Status :=
  let d := c.desc
  let t := qTen q
  checks [
    (!(decide (4 ≤ d.len ∧ d.len ≤ 256 ∧ d.len % 4 = 0) && colsOk c && restZero c 0x1C), .badLength),
    (!rangeOk s t d.src d.len || !colsOwned s q c, .outOfBounds),
    (!rangeGrant s t d.src d.len false, .noGrant),
    ((cmdCols c).any (fun k => decide ((s.col k).state = .empty ∨ (s.col k).state = .halted)), .busy)]

def loadCheck (q : QId) (c : Cmd) (s : State) : Option Status :=
  let d := c.desc
  let t := qTen q
  checks [
    (!(decide (8 ≤ d.len ∧ d.len ≤ 0x400000 ∧ d.len % 4 = 0) && colsOk c && restZero c 0x1A), .badLength),
    (!rangeOk s t d.src d.len || !colsOwned s q c, .outOfBounds),
    (!rangeGrant s t d.src d.len false, .noGrant)]

def readbackCheckCmd (q : QId) (c : Cmd) (s : State) : Option Status :=
  let d := c.desc
  let t := qTen q
  checks [
    (!(decide (1 ≤ d.len) && colsOk c && restZero c 0x1A), .badLength),
    (!rangeOk s t d.dst d.len || !colsOwned s q c, .outOfBounds),
    (!rangeGrant s t d.dst d.len true, .noGrant)]

def stopCheck (q : QId) (c : Cmd) (s : State) : Option Status :=
  checks [
    (!(decide (c.desc.len = 0 ∧ c.desc.src = 0) && colsOk c && restZero c 0x1A), .badLength),
    (!colsOwned s q c, .outOfBounds)]

/-! ## Waiting for columns (R316) -/

/-- The command has passed its checks and takes its place among those that wait for columns. Log: DEDUCED 73. -/
def takePlace (q : QId) (c : Cmd) (s : State) : State :=
  if c.turn.isSome then s else putCmd q { c with turn := some s.serialNo } { s with serialNo := s.serialNo + 1 }

/-- Commands of every queue that wait for columns. Log: DEDUCED 73. -/
def waiting (s : State) : List (QId × Cmd) :=
  s.eng.queues.flatMap fun (k, x) =>
    (x.cmds.filter fun c => decide (c.phase = .running) && !c.ended && c.turn.isSome
      && decide (c.desc.opcode = 0x30 ∨ c.desc.opcode = 0x31)).map fun c => (qOfNum k, c)

/-- A launch or load has begun. Log: DEDUCED 73. -/
def begun (s : State) (q : QId) (idx : BitVec 16) : Bool := (launchOf s q idx).isSome || (loaderOf s (.host q idx)).isSome

/-- The columns of a waiting command are free, and no earlier command waits for one of them. -/
def columnsFree (s : State) (q : QId) (c : Cmd) : Bool :=
  (cmdCols c).all (fun k => decide ((s.col k).state ≠ .running ∧ (s.col k).state ≠ .loading))
    && (waiting s).all fun (p, x) =>
      begun s p x.idx || decide (c.turn.getD 0 ≤ x.turn.getD 0) || (cmdCols x).all fun k => !(cmdCols c).contains k
    && !begun s q c.idx

def execLaunch (q : QId) (idx : BitVec 16) (s : State) : Host.Outcome State Fault Refusal :=
  .next (whileAlive (runCmd q idx 0x30 (launchCheck q) (takePlace q)) s)
def execLoadFrames (q : QId) (idx : BitVec 16) (s : State) : Host.Outcome State Fault Refusal :=
  .next (whileAlive (runCmd q idx 0x31 (loadCheck q) (takePlace q)) s)

/-! ## The start of a launch (R316) -/

/-- The streams of a region with their BASE and counts, and the units whose count is 0 (step 3). -/
def launchStreams (s : State) (r : Launch) : Tbl MuStream × List Nat :=
  (regionCols r).foldl (fun acc col => (List.range 16).foldl (fun acc i =>
    let c := muOf s col (i / 4) (i % 4)
    if c.kind = .off then acc
    else
      let (n0, n1, n2) := (countOf r.args c.n0, countOf r.args c.n1, countOf r.args c.n2)
      let b : Nat := (r.args.getD (2 * c.argPair.val) 0).toNat + 2 ^ 32 * (r.args.getD (2 * c.argPair.val + 1) 0).toNat
      let m : MuStream := { base := (b : Int) + c.offset.toInt, c0 := n0, c1 := n1, total := n0 * n1 * n2, started := !c.tStart }
      (Tbl.put {} acc.1 (streamKey col (i / 4) (i % 4)) m, if m.total = 0 then acc.2 ++ [unitId col (8 + i / 4)] else acc.2)) acc) ([], [])

/-- Steering units of a region whose counter counts to 0 (R312). -/
def zeroCounters (s : State) (r : Launch) : List Nat :=
  (regionCols r).flatMap fun col => ((List.range 3).filter fun k =>
    match (suOf s col k).op with
    | some (.counter n) => decide (countOf r.args n = 0)
    | _ => false).map fun k => unitId col (12 + k)

/-- The lowest of a list of unit IDs. -/
def lowest : List Nat → Option Nat
  | [] => none
  | x :: l => some (l.foldl min x)

/-- Steps 3 to 6: counts, connections, initial entries, and every unit enabled, with the launch timer armed. -/
def enableRegion (r : Launch) (timeout : Nat) (s : State) : State :=
  let (ms, zs) := launchStreams s r
  let r := { r with streams := ms }
  let s := putLaunch r s
  match lowest (zs ++ zeroCounters s r) with
  | some u => launchEnd r.q r.idx 7 u .badLength s
  | none =>
    match lowest ((regionCols r).flatMap (cutUnits s r)) with
    | some u => launchEnd r.q r.idx 6 u .unsupported s
    | none =>
      let r := (regionCols r).foldl (fun r c => placeInits c r s) r
      putLaunch { r with expiry := if timeout = 0 then none else some (s.clk.now + timeout) } s

/-- A launch that begins: its columns are RUNNING under it. -/
def openLaunch (r : Launch) (s : State) : State :=
  let s := { s with arr := { s.arr with runs := s.arr.runs ++ [r], launches := sat32 s.arr.launches 1 } }
  (regionCols r).foldl (fun s k => s.setCol k { s.col k with state := .running, tenant := r.tenant, first := r.first, count := r.count }) s

/-- LAUNCH_START: once its columns are free. A column of the range that has halted meanwhile ends it with cause 0x3 (R322).
 Log: DEDUCED 73. -/
def launchStart (q : QId) (idx : BitVec 16) (s : State) : State :=
  match findCmd s q idx with
  | none => s
  | some c =>
    if c.desc.opcode ≠ 0x30 ∨ c.phase ≠ .running ∨ c.ended ∨ c.turn.isNone ∨ !columnsFree s q c then s
    else if (cmdCols c).any (fun k => decide ((s.col k).state = .halted)) then
      stopCmd q c .aborted 0 (field 24 3 ||| (Config.freeUnit s.serialNo).setWidth 32) { s with serialNo := s.serialNo + 1 }
    else
      let t := qTen q
      let r : Launch := { q, idx, tenant := t, part := qPart s (qNum q), first := colFirst c, count := colCount c }
      match engReadAll (.cmd q idx) t (descHint c.desc) 256 c.desc.src c.desc.len s with
      | .hold s => s
      | .fail st s => launchEnd q idx 7 (Config.freeUnit s.serialNo).toNat st (openLaunch r { s with serialNo := s.serialNo + 1 })
      | .ok b s =>
        let args := wordsOf b
        let r := { r with args := args ++ List.replicate (64 - args.length) 0 }
        enableRegion r (descOp c.desc 0x1A 2) (openLaunch r s)

def execLaunchStart (q : QId) (idx : BitVec 16) (s : State) : Host.Outcome State Fault Refusal := .next (whileAlive (launchStart q idx) s)

/-! ## The end of a launch (R317 to R320) -/

/-- DONE stands before every other cause of its cycle; the steps of a boundary come first (R318). -/
def doneStands (r : Launch) (s : State) : Bool :=
  r.done.isNone && match r.ended with
    | none => true
    | some (c, u, _) => decide (r.endedAt = ageNow s ∧ causeRank c u < 1026)

/-- A STOP whose launch's DONE is recorded in the same cycle completes ALREADY_DONE, as long as its completion is not written (R319). -/
def unstop (r : Launch) (s : State) : State :=
  match r.stopper with
  | none => s
  | some (q, idx) =>
    match findCmd s q idx with
    | some c => if c.desc.opcode = 0x33 then putCmd q { c with status := .alreadyDone } s else s
    | none => s

/-- A Q_ABORT whose launch's DONE is recorded in the same cycle is answered ALREADY_DONE (R286, R318). -/
def unabort (r : Launch) (s : State) : State :=
  let x := s.queue (qNum r.q)
  match r.ended with
  | some (5, _, _) => if x.abPend.isSome then s.setQueue (qNum r.q) { x with abPend := some (BitVec.ofNat 8 Status.alreadyDone.code) } else s
  | _ => s

/-- LAUNCH_DONE: the first scalar word to reach DONE is recorded; a later one is discarded (R317). -/
def launchDone (col : Nat) (w : Word) (s : State) : State :=
  match launchOn s col with
  | none => s
  | some r =>
    if r.first ≠ col ∨ r.toDone.head? ≠ some w then s
    else
      let r' := { r with toDone := r.toDone.tail }
      if doneStands r s then
        let r'' := { r' with done := some w, ended := none, endedAt := ageNow s, stopper := none }
        unabort r (unstop r (endRegionLoads r'' (putLaunch r'' s)))
      else putLaunch r' s

def execLaunchDone (col : Fin 64) (word : Word) (s : State) : Host.Outcome State Fault Refusal := .next (whileAlive (launchDone col.val word) s)

/-- Every access a region has issued has finished. -/
def accessesDone (r : Launch) : Bool := r.streams.all fun e => e.2.flight.isEmpty

/-- The columns of a region return to LOADED; a halted column stays HALTED (R317, R322). -/
def freeRegion (r : Launch) (s : State) : State :=
  (regionCols r).foldl (fun s k =>
    if (s.col k).state = .halted then s else s.setCol k { s.col k with state := .loaded, loader := none }) s

/-- The status and AUX of a launch that has ended (Tables 14.6, 14.7). -/
def launchOutcome (r : Launch) : Status × Word :=
  match r.ended with
  | some (cause, u, st) => (st, field 24 cause ||| (if cause = 3 ∨ cause = 6 ∨ cause = 7 then BitVec.ofNat 32 (u % 1024) else 0))
  | none => (.ok, r.done.getD 0)

/-- LAUNCH_COMMIT: the completion of Table 14.6, the region cleared. Log: DEDUCED 73. -/
def launchCommit (q : QId) (idx : BitVec 16) (s : State) : State :=
  match launchOf s q idx with
  | none => s
  | some r =>
    if firing r || !accessesDone r then s
    else
      let (st, aux) := launchOutcome r
      let s := freeRegion r s
      let s := { s with arr := { s.arr with
          runs := s.arr.runs.filter fun x => !(decide (x.q = q ∧ x.idx = idx))
          loaders := s.arr.loaders.filter fun x => match x.id with | .self col _ _ => !inRegion r col.val | _ => true
          abnormal := if r.ended.isSome then sat32 s.arr.abnormal 1 else s.arr.abnormal } }
      match findCmd s q idx with
      | some c => if c.phase = .running then finishCmd q c st r.bytes aux s else s
      | none => s

def execLaunchCommit (q : QId) (idx : BitVec 16) (s : State) : Host.Outcome State Fault Refusal := .next (whileAlive (launchCommit q idx) s)

/-- LAUNCH_TIMEOUT: the launch timer has expired (R33, R34, R318). Log: DEDUCED 73. -/
def launchTimeout (q : QId) (idx : BitVec 16) (s : State) : State :=
  match launchOf s q idx with
  | none => s
  | some r =>
    match r.expiry with
    | some b => if b ≤ s.clk.now then launchEnd q idx 1 0 .timeout s else s
    | none => s

def execLaunchTimeout (q : QId) (idx : BitVec 16) (s : State) : Host.Outcome State Fault Refusal :=
  .next (if atBoundary s then launchTimeout q idx s else s)

/-- The region received power tokens in the course: no allocation has left its columns without (R320, R384). -/
def hasTokens (s : State) (r : Launch) : Bool :=
  (regionCols r).any fun k => tokenLeft s (24 + k) 0

/-- Step 2 of the boundary: a whole course in which the region did nothing is counted as a stall, and any other restarts the count
(R320). Log: DEDUCED 73. -/
def countStall (r : Launch) (s : State) : State :=
  if !firing r then s
  else
    let stalled := r.whole && !r.fired && accessesDone r && hasTokens s r
    putLaunch { r with fired := false, whole := true, stalls := if stalled then r.stalls + 1 else 0 } s

/-- ARRAY_STALL: after STALL_LIMIT consecutive stalls the launch ends with cause 0x2. Log: DEDUCED 73. -/
def arrayStall (q : QId) (idx : BitVec 16) (s : State) : State :=
  match launchOf s q idx with
  | none => s
  | some r =>
    let n := bits s.arr.cfg 7 0
    if n ≠ 0 ∧ n ≤ r.stalls then launchEnd q idx 2 0 .timeout s else s

def execArrayStall (q : QId) (idx : BitVec 16) (s : State) : Host.Outcome State Fault Refusal :=
  .next (if atBoundary s then arrayStall q idx s else s)

/-! ## STOP and READBACK (R319, R334) -/

/-- STOP: the launch that holds the whole range is ended if it is the tenant's own. Log: DEDUCED 73. -/
def stopWork (q : QId) (c : Cmd) (s : State) : State :=
  match s.arr.runs.find? fun r => (cmdCols c).all (inRegion r) with
  | none => stopCmd q c .alreadyDone 0 0 s
  | some r =>
    if r.tenant ≠ qTen q then stopCmd q c .noGrant 0 0 s
    else if !firing r then stopCmd q c .alreadyDone 0 0 s
    else
      let s := launchEnd r.q r.idx 4 0 .aborted s
      stopCmd q c .ok 0 0 (putLaunch { (launchOf s r.q r.idx).getD r with stopper := some (q, c.idx) } s)

def execStop (q : QId) (idx : BitVec 16) (s : State) : Host.Outcome State Fault Refusal :=
  .next (whileAlive (runCmd q idx 0x33 (stopCheck q) (stopWork q)) s)

/-- Byte p of what READBACK writes: for each column 40 frames, then 40 check words. -/
def readbackByte (s : State) (first p : Nat) : Byte :=
  let col := first + p / 10400
  let o := p % 10400
  if o < 10240 then byteOf ((frameAt s col (o / 256)).getD (o % 256 / 4) 0).toNat (o % 4)
  else byteOf (Tbl.get 0 s.arr.checks (frameKey col ((o - 10240) / 4))) (o % 4)

/-- One chunk of READBACK: the bytes of one destination line. -/
def readbackStep (q : QId) (c : Cmd) (s : State) : Run :=
  let t := qTen q
  let size := 10400 * colCount c
  if size ≤ c.pos then .stop .ok { c with elems := 40 * colCount c } s
  else
    let a := c.desc.dst + c.pos
    let n := min (size - c.pos) (128 - a % 128)
    let g := sideGen s t c 1 a
    let c := holdTile t 1 a g c
    match engWrite (.cmd q c.idx) t g (descHint c.desc) a ((List.range n).map fun i => readbackByte s (colFirst c) (c.pos + i)) s with
    | .hold s => .hold c s
    | .fail st s => .stop st { c with elems := c.pos / 10400 * 40 + min 40 (c.pos % 10400 / 256) } s
    | .ok _ s => .more { c with pos := c.pos + n } s

/-- READBACK: too short a LENGTH writes nothing; a LOADING column holds it back. -/
def readbackWork (q : QId) (c : Cmd) (s : State) : State :=
  if c.desc.len < 10400 * colCount c then stopCmd q c .bufferShort (10400 * colCount c) 0 s
  else if c.pos = 0 ∧ (cmdCols c).any (fun k => decide ((s.col k).state = .loading)) then s
  else runLoop q (readbackStep q) (10400 * colCount c + 1) c s

def execReadback (q : QId) (idx : BitVec 16) (s : State) : Host.Outcome State Fault Refusal :=
  .next (whileAlive (runCmd q idx 0x32 (readbackCheckCmd q) (readbackWork q)) s)

/-! ## ARRAY_QUERY (R324) -/

/-- The columns of a partition, in column order. -/
def partCols (s : State) (p : Nat) : List Nat := (List.range (s.part p).colCount).map fun i => (s.part p).colFirst + i

def execArrayQuery (fn : Fn) (m : MbxHdr) (part : Byte) (s : State) : Host.Outcome State Fault Refusal :=
  .next (mailbox fn 0x0501 m [part] true (fun s => (s.isAdmin fn && (s.part part.toNat).valid && decide (part.toNat < 16)) || s.owns fn part.toNat)
    (fun o s =>
      let cols := partCols s part.toNat
      answer o .ok (BitVec.ofNat 8 cols.length :: cols.flatMap fun k => leBytes 4 (colWord s k).toNat) s) s)

end Sys2Proof.Machine
end

