-- ==== Sys2Proof/Machine/Frames.lean ====
section
/-! DEFINITION. Array configuration (spec/15_array_frames.md): the configuration stream word by word, its two sources, the claims, and the
read-back engine. -/

namespace Sys2Proof.Machine

/-! ## Words of a stream -/

/-- What asking for the next words comes to. -/
inductive Got where
  | words (w : List Word) (x : Loader) (s : State)
  | hold (s : State)
  | fail (st : Status) (x : Loader) (s : State)
  /-- The stream has fewer words left. -/
  | short
  deriving Inhabited

/-- The next `n` words of a stream: a host load reads them through the issuing tenant's map; other streams have been handed theirs.
 Log: DEDUCED 75. -/
def nextWords (x : Loader) (n : Nat) (s : State) : Got :=
  match x.src, x.id with
  | some (a, total), .host q idx =>
    if total < x.read + n then .short
    else
      match findCmd s q idx with
      | none => .hold s
      | some c =>
        let (c, got, bad, s) := readSide (.cmd q idx) x.tenant (descHint c.desc) (.run a (4 * total)) (4 * n + 4) (4 * x.read) (4 * n) c [] s
        let s := putCmd q c s
        match bad with
        | some none => .hold s
        | some (some st) => .fail st { x with read := x.read + got.length / 4 } s
        | none => .words (wordsOf (got.map Prod.snd)) { x with read := x.read + n } s
  | _, _ =>
    if n ≤ x.words.length then .words (x.words.take n) { x with words := x.words.drop n, read := x.read + n } s
    else if x.closed then .short else .hold s

/-! ## The end of a stream (R330, R333, R339) -/

/-- The stream ends with a status: a host load settles or wipes its range and ends its command, a frame writer's is reported. -/
def endLoad (x : Loader) (st : Status) (s : State) : State :=
  let s := if st = .ok ∨ x.id = .design then s else { s with arr := { s.arr with loadFail := sat32 s.arr.loadFail 1 } }
  let range (s : State) := x.range.foldl (fun s c => if st = .ok then settleColumn c s else wipeColumn c s) s
  match x.id with
  | .host q idx =>
    let s := dropLoader x.id (range s)
    match findCmd s q idx with
    | some c => stopCmd q c st (4 * x.read) (BitVec.ofNat 32 x.blocks) s
    | none => s
  | .design => putLoader { x with ended := some st } (range s)
  | .self col mu k =>
    let s := endSelfLoad x st (putLoader x s)
    match launchOn s col.val with
    | some r => if r.ended.isSome then endRegionLoads r s else selfReport col.val mu.val k.val x.id s
    | none => s

/-- The rest of a stream could not be read: a frame writer's launch ends for it (R339). -/
def failLoad (x : Loader) (st : Status) (s : State) : State := endLoad x st s

/-! ## Directives (R327 to R329, R336, R337) -/

/-- The columns of a SPAN mask. -/
def maskCols (lo hi : Word) : List Nat := (List.range 64).filter fun i => if i < 32 then bit lo i else bit hi (i - 32)

/-- What a CLAIM of one column comes to, by the source's bounds; none allows it. Log: DEDUCED 75. -/
def claimCol (x : Loader) (s : State) (k : Nat) : Option Status :=
  if 64 ≤ k then some .outOfBounds
  else
    match x.id with
    | .self col _ _ =>
      match launchOn s col.val with
      | none => some .outOfBounds
      | some r =>
        let c := s.col k
        if x.claimed.contains k then none
        else if c.state = .loading ∧ c.loader ≠ some x.id then some .busy
        else if inRegion r k then (if k = col.val then some .outOfBounds else none)
        else if (c.state = .loaded ∨ c.state = .empty ∨ c.state = .halted) ∧ c.part = r.part then none
        else some .outOfBounds
    | _ => if x.range.contains k then none else some .outOfBounds

/-- A column is claimed by a frame writer: outside its region it becomes LOADING; inside, it is swapped in place (R336, R337). -/
def takeCol (x : Loader) (k : Nat) (s : State) : State :=
  let s := match x.id with
    | .self col _ _ =>
      match launchOn s col.val with
      | some r => if inRegion r k then putLaunch (dropQueues k r) s else s
      | none => s
    | _ => s
  s.setCol k { s.col k with state := .loading, loader := some x.id, cleared := false }

/-- CLAIM: BUSY where a column is loading by another source, else the first column out of bounds decides (R336, R338). Log: DEDUCED 75. -/
def doClaim (x : Loader) (s : State) : State :=
  let rs := x.targets.filterMap (claimCol x s)
  if rs.contains .busy then endLoad x .busy s
  else if rs.contains .outOfBounds then endLoad x .outOfBounds s
  else
    match x.id with
    | .self _ _ _ =>
      let new := x.targets.filter fun k => !x.claimed.contains k
      putLoader { x with claims := true, claimed := x.claimed ++ new } (new.foldl (fun s k => takeCol x k s) s)
    | _ => putLoader { x with claims := true } s

/-- The frame address moves on by one frame (R328). -/
def advance (x : Loader) : Loader :=
  if x.frame + 1 < 40 then { x with frame := x.frame + 1 }
  else if x.span then { x with frame := 0 }
  else { x with frame := 0, column := x.column + 1, targets := [x.column + 1] }

/-- The target set lies in the claimed set. -/
def targetsOk (x : Loader) : Bool := x.targets.all fun k => decide (k < 64) && x.claimed.contains k

/-- Write one block to the addressed frame of every target column. -/
def writeBlock (maps : Bool) (w : List Word) (x : Loader) (s : State) : State :=
  x.targets.foldl (fun s k =>
    let s := if maps then putMap k x.frame w s else writeFrame k x.frame w s
    s.setCol k { s.col k with cleared := false }) s

/-- The blocks of a FRAMES or MAPS, each as it is read. -/
def doBlocks : Nat → Loader → State → State
  | 0, x, s => putLoader x s
  | f + 1, x, s =>
    match x.blk with
    | none => putLoader x s
    | some (_, 0) => putLoader { x with blk := none } s
    | some (maps, n + 1) =>
      match nextWords x 64 s with
      | .hold s => putLoader x s
      | .short => endLoad x .badLength s
      | .fail st x s => failLoad x st s
      | .words w x s =>
        if !targetsOk x || decide (40 ≤ x.frame) then endLoad x .outOfBounds s
        else doBlocks f (advance { x with blocks := x.blocks + 1, blk := some (maps, n) }) (writeBlock maps w x s)

/-- CLEAR of the target set; a frame writer may not clear its own region (R336). -/
def doClear (x : Loader) (s : State) : State :=
  let own := match x.id with
    | .self col _ _ => (match launchOn s col.val with | some r => x.targets.any (inRegion r) | none => false)
    | _ => false
  if !targetsOk x || own then endLoad x .outOfBounds s
  else putLoader x (x.targets.foldl (fun s k => let s := clearColumn k s; s.setCol k { s.col k with cleared := true }) s)

/-- SELECT with its mask words. -/
def doSelect (x : Loader) (arg : Nat) (s : State) : State :=
  let x := { x with column := arg / 64 % 64, frame := arg % 64, span := arg.testBit 12 }
  if !x.span then putLoader { x with targets := [x.column] } s
  else
    match nextWords x 2 s with
    | .hold _ => s
    | .short => endLoad x .badLength s
    | .fail st x s => failLoad x st s
    | .words w x s =>
      let t := maskCols (w.getD 0 0) (w.getD 1 0)
      if t = [] then endLoad x .unsupported s else putLoader { x with targets := t } s

/-- One directive word has been read (Tables 15.2 to 15.5). -/
def doDirective (w : Nat) (x : Loader) (s : State) : State :=
  let dir := w / 2 ^ 22 % 64
  let arg := w % 2 ^ 22
  match dir with
  | 0 => if arg = 0 then putLoader x s else endLoad x .unsupported s
  | 1 => if 2 ^ 13 ≤ arg then endLoad x .unsupported s else doSelect x arg s
  | 2 => if arg = 0 then doClaim x s else endLoad x .unsupported s
  | 5 => if arg = 0 ∧ x.claims then doClear x s else endLoad x .unsupported s
  | 6 => endLoad x (if arg = 0 then .ok else .unsupported) s
  | _ => if arg = 0 ∨ !x.claims then endLoad x .unsupported s else doBlocks (arg + 1) { x with blk := some (decide (dir = 4), arg) } s

/-- The next word of a stream is taken as a directive where it is of the row's kind, or is an error that ends the stream; a stream at the
end of its words ends. -/
def takeDirective (kind : Nat) (x : Loader) (s : State) : State :=
  match nextWords x 1 s with
  | .hold s' => s'
  | .short => endLoad x .ok s
  | .fail st x s => failLoad x st s
  | .words w y s' =>
    let w := (w.getD 0 0).toNat
    if w / 2 ^ 28 ≠ 10 ∨ 6 < w / 2 ^ 22 % 64 then endLoad y .unsupported s'
    else if w / 2 ^ 22 % 64 = kind then doDirective w y s' else s

/-- One directive row of a stream: the leader first, blocks under way next (R327). Log: DEDUCED 75. -/
def streamStep (l : LoaderId) (kind : Nat) (s : State) : State :=
  match loaderOf s l with
  | none => s
  | some x =>
    if x.ended.isSome then s
    else
      match x.blk with
      | some (maps, n) => if kind = (if maps then 4 else 3) then doBlocks (n + 1) x s else s
      | none =>
        if x.leader then takeDirective kind x s
        else
          match nextWords x 1 s with
          | .hold s => s
          | .short => endLoad x .badLength s
          | .fail st x s => failLoad x st s
          | .words w y s' =>
            if w.getD 0 0 ≠ 0x53D70100#32 then endLoad y .unsupported s'
            else takeDirective kind { y with leader := true } (putLoader { y with leader := true } s')

def execPad (l : LoaderId) (s : State) : Host.Outcome State Fault Refusal := .next (whileAlive (streamStep l 0) s)
def execSelect (l : LoaderId) (s : State) : Host.Outcome State Fault Refusal := .next (whileAlive (streamStep l 1) s)
def execClaimDirective (l : LoaderId) (s : State) : Host.Outcome State Fault Refusal := .next (whileAlive (streamStep l 2) s)
def execFrames (l : LoaderId) (s : State) : Host.Outcome State Fault Refusal := .next (whileAlive (streamStep l 3) s)
def execMaps (l : LoaderId) (s : State) : Host.Outcome State Fault Refusal := .next (whileAlive (streamStep l 4) s)
def execClear (l : LoaderId) (s : State) : Host.Outcome State Fault Refusal := .next (whileAlive (streamStep l 5) s)
def execEndStream (l : LoaderId) (s : State) : Host.Outcome State Fault Refusal := .next (whileAlive (streamStep l 6) s)

/-- Read a stream whose words are all there to its end (R335). -/
def runStream (l : LoaderId) : Nat → State → State
  | 0, s => s
  | f + 1, s =>
    match loaderOf s l with
    | none => s
    | some x =>
      if x.ended.isSome then s
      else
        let w := ((if x.leader then x.words.head? else x.words[1]?).getD 0).toNat
        runStream l f (streamStep l (w / 2 ^ 22 % 64) s)

/-! ## The host path (R332) -/

/-- LOAD_START: once its columns are free, the whole range is LOADING and the stream is opened. Log: DEDUCED 75. -/
def loadStart (q : QId) (idx : BitVec 16) (s : State) : State :=
  match findCmd s q idx with
  | none => s
  | some c =>
    if c.desc.opcode ≠ 0x31 ∨ c.phase ≠ .running ∨ c.ended ∨ c.turn.isNone ∨ !columnsFree s q c then s
    else
      let id := LoaderId.host q idx
      let x : Loader := { id, tenant := qTen q, src := some (c.desc.src, c.desc.len / 4), range := cmdCols c, claimed := cmdCols c }
      let s := (cmdCols c).foldl (fun s k => s.setCol k { s.col k with state := .loading, loader := some id, cleared := false }) s
      { s with arr := { s.arr with loaders := s.arr.loaders ++ [x], loadsHost := sat32 s.arr.loadsHost 1 } }

def execLoadStart (q : QId) (idx : BitVec 16) (s : State) : Host.Outcome State Fault Refusal := .next (whileAlive (loadStart q idx) s)

/-! ## Read-back (R342 to R345) -/

/-- Invert one bit of a frame. Log: DEDUCED 75. -/
def flipBit (b : Nat) (w : List Word) : List Word :=
  (List.range 64).map fun i => if i = b / 32 then w.getD i 0 ^^^ BitVec.ofNat 32 (2 ^ (b % 32)) else w.getD i 0

/-- CFG_LAST_UPSET (Table 15.7). Log: DEDUCED 75. -/
def lastUpset (col f : Nat) (b : Option Nat) (s : State) : State :=
  { s with arr := { s.arr with lastUpset := field 12 (col * 64 + f) ||| (match b with | none => field 11 1 | some b => BitVec.ofNat 32 b) } }

/-- A column halts: its launch ends with cause 0x3, the fault is logged and the owner told (R322, R344). -/
def haltColumn (col f : Nat) (s : State) : State :=
  let a := s.arr
  let s := { s with arr := { a with mbuHalt := sat32 a.mbuHalt 1, cfgStatus := setBit a.cfgStatus 2 }, serialNo := s.serialNo + 1 }
  let unit := unitId col ((Config.freeUnit s.serialNo).toNat % 16)
  let s := match launchOn s col with
    | some r => launchEnd r.q r.idx 3 unit .aborted s
    | none => s
  let s := s.setCol col { s.col col with state := .halted, loader := none }
  recordFault { code := 0x41, scope := 3, event := some 8, part := BitVec.ofNat 8 (s.col col).part, object := BitVec.ofNat 16 col
                detail := BitVec.ofNat 64 (col * 64 + f) } s

/-- The outcome of one check (Table 15.6), in order of rows. Log: DEDUCED 75. -/
def checkFrame (col f : Nat) (s : State) : State :=
  let w := frameAt s col f
  let k := frameKey col f
  let stored := Tbl.get 0 s.arr.checks k
  let recompute (s : State) : State := { s with arr := { s.arr with checks := Tbl.put 0 s.arr.checks k (checkWord w) } }
  let d := (stored % 8192) ^^^ frameSyn w
  let a := s.arr
  if parity (stored % 8192) 13 ≠ stored / 8192 % 2 then
    recompute { s with arr := { a with chkUpset := sat32 a.chkUpset 1 } }
  else if d = 0 then s
  else if d / 4096 % 2 = 1 ∧ 1 ≤ d % 4096 ∧ d % 4096 ≤ 2048 then
    let b := d % 4096 - 1
    let s := if ((mapAt s col f).getD (b / 32) 0).getLsbD (b % 32) then
        { s with arr := { a with sbuEss := sat32 a.sbuEss 1, cfgStatus := setBit a.cfgStatus 1 } }
      else { s with arr := { a with sbuNon := sat32 a.sbuNon 1 } }
    lastUpset col f (some b) (putFrame col f (flipBit b w) s)
  else if zeroWords (mapAt s col f) then
    lastUpset col f none (recompute { s with arr := { a with mbuNon := sat32 a.mbuNon 1 } })
  else haltColumn col f (lastUpset col f none s)

/-- READBACK_CHECK: once in a course the engine checks the frame at its slot, unless the column is one it passes over, and moves on (R343).
 Log: DEDUCED 75. -/
def readbackTick (ups : List Nat) (chk : BitVec 14) (s : State) : State :=
  if !s.arr.rbEn || decide (s.arr.rbAt = some s.clk.now) then s
  else
    let slot := s.arr.rbSlot
    let (col, f) := (slot / 40, slot % 40)
    let k := frameKey col f
    let s := if ups = [] then s else putFrame col f (ups.foldl (fun w b => flipBit b w) (frameAt s col f)) s
    let s := { s with arr := { s.arr with
        checks := Tbl.put 0 s.arr.checks k (Tbl.get 0 s.arr.checks k ^^^ chk.toNat)
        rbSlot := (slot + 1) % 2560
        rbAt := some s.clk.now
        rbPasses := if slot + 1 = 2560 then min 0xFFFFF (s.arr.rbPasses + 1) else s.arr.rbPasses } }
    match (s.col col).state with
    | .unowned => s
    | .unavailable => s
    | .empty => s
    | .loading => s
    | _ => checkFrame col f s

def execReadbackCheck (upsets : List (Fin 2048)) (chk : BitVec 14) (s : State) : Host.Outcome State Fault Refusal :=
  .next (whileAlive (readbackTick (upsets.map Fin.val) chk) s)

end Sys2Proof.Machine
end

