-- ==== Sys2Proof/Machine/Ends.lean ====
section
/-! DEFINITION. The ends of engine work (spec/12_engine_queues.md): aborting one command, stopping a queue, the queue commands of the
mailbox, and the function-level reset of a virtual function. -/

namespace Sys2Proof.Machine

/-! ## Ending one command (R285 to R287) -/

/-- A launch is ended by an abort or a sweep; one that still waits for its columns is finished at once (R318, Table 14.7). -/
def endLaunchCmd (q : QId) (c : Cmd) (cause : Nat) (st : Status) (s : State) : State :=
  match launchOf s q c.idx with
  | some _ => launchEnd q c.idx cause 0 st s
  | none => finishCmd q c st 0 (field 24 cause) s

/-- A host load is ended: its columns are EMPTY, and the completion carries what was read (R333). -/
def endLoadCmd (q : QId) (c : Cmd) (st : Status) (s : State) : State :=
  match loaderOf s (.host q c.idx) with
  | some x => finishCmd q c st (4 * x.read) (BitVec.ofNat 32 x.blocks) (stopHostLoad q c.idx s)
  | none => finishCmd q c st 0 0 s

/-- A MIGRATE before step 4 gives up its migration, with the bytes copied; after step 4 it runs on to step 7 (R286). -/
def endMigrateCmd (q : QId) (c : Cmd) (st : Status) (s : State) : State :=
  match c.mig with
  | none => finishCmd q c st 0 0 s
  | some k => if (s.mig k).state = 1 then finishCmd q c st (s.mig k).copied (BitVec.ofNat 32 k) (abortMig k s) else s

/-- A SCRUB ends early with what it has scanned; its summary goes out as that of any pass, and may still wait for its line (R243). -/
def endScrubCmd (q : QId) (c : Cmd) (st : Status) (s : State) : State :=
  let s := scrubEnd q (scrubStop st c s) s
  match findCmd s q c.idx with
  | some c => if c.ended then finishCmd q c c.status c.count c.aux s else s
  | none => s

/-- A MIGRATE past its remap, finished or not, or a launch that has ended, is not to be aborted any more (R286, R318).
 Log: DEDUCED 59. -/
def beyondAbort (s : State) (q : QId) (c : Cmd) : Bool :=
  (match c.mig with
    | some k => if c.phase = .finished ∨ c.ended then decide (c.status = .ok) else decide ((s.mig k).state ≠ 1)
    | none => false)
  || (decide (c.phase = .running) && match launchOf s q c.idx with | some r => !firing r | none => false)

/-- End one outstanding command with a status: one not started has done nothing, a running one stops with what it has done, a finished one
keeps its count. -/
def endCmd (q : QId) (c : Cmd) (cause : Nat) (st : Status) (s : State) : State :=
  match c.phase with
  | .fetched => finishCmd q c st 0 0 s
  | .finished => putCmd q { c with status := st } s
  | .running =>
    if c.ended then finishCmd q c st c.count c.aux s
    else if c.desc.opcode = 6 then endMigrateCmd q c st s
    else if c.desc.opcode = 0x10 then endScrubCmd q c st s
    else if c.desc.opcode = 0x30 then endLaunchCmd q c cause st s
    else if c.desc.opcode = 0x31 then endLoadCmd q c st s
    else finishCmd q c st c.pos (auxNow c) s

/-! ## Q_ABORT (R285) -/

/-- Record the outcome of an abort; DONE and RESULT are shown at the next boundary (R285). Log: DEDUCED 59. -/
def abortResult (q : QId) (st : Status) (s : State) : State :=
  s.setQueue (qNum q) { s.queue (qNum q) with abPend := some (BitVec.ofNat 8 st.code) }

/-- The index has been submitted and not fetched. Log: DEDUCED 59. -/
def submitted (x : Queue) (idx : Nat) : Bool :=
  let n := qSize x
  decide ((idx + n - x.sqHead) % n < (x.sqTail + n - x.sqHead) % n)

/-- An abort with GO (R285, R286); a command that a sweep has already ended keeps the sweep's status (R287). Log: DEDUCED 59. -/
def abortGo (q : QId) (idx : BitVec 16) (s : State) : State :=
  let x := s.queue (qNum q)
  if qSize x ≤ idx.toNat then abortResult q .outOfBounds s
  else
    match x.cmds.find? fun c => decide (c.idx = idx) with
    | some c =>
      if beyondAbort s q c then abortResult q .alreadyDone s
      else if c.swept then abortResult q .aborted s
      else
        let s := endCmd q { c with aborted := true } 5 .aborted s
        abortResult q .aborted s
    | none =>
      if submitted x idx.toNat && decide (x.state ≠ 0) then
        abortResult q .aborted (s.setQueue (qNum q) { x with abSet := idx :: x.abSet.filter (· ≠ idx) })
      else abortResult q .alreadyDone s

/-- A write of Q_ABORT: INDEX, and GO, which is discarded while an abort is pending. Log: DEDUCED 58, DEDUCED 59, DESIGN CHOICE 98. -/
def writeAbort (q : QId) (v : Word) (s : State) : State :=
  let x := s.queue (qNum q)
  if bit v 31 then
    if x.abPend.isSome then qIllegal q s
    else abortGo q (v.setWidth 16) (s.setQueue (qNum q) { x with abIndex := v.setWidth 16 })
  else s.setQueue (qNum q) { x with abIndex := v.setWidth 16 }

/-! ## Stopping a queue (R287, R288) -/

/-- A queue that is ACTIVE or in ERROR becomes STOPPING: it fetches nothing more. Log: DEDUCED 60. -/
def markStopping (q : QId) (st : Status) (tiles host : Bool) (s : State) : State :=
  let x := s.queue (qNum q)
  if x.state = 1 ∨ x.state = 2 then
    s.setQueue (qNum q) { x with state := 3, endSt := st, endTiles := tiles, endHost := host }
  else s

/-- Every outstanding command of a STOPPING queue ends, with the status of the first event recorded against the queue (R287).
 Log: DEDUCED 57. -/
def sweepQueue (q : QId) (s : State) : State :=
  let st := (s.queue (qNum q)).endSt
  let cause := if st = .partitionReset then 9 else 8
  (s.queue (qNum q)).cmds.foldl (fun s c =>
    match findCmd s q c.idx with
    | none => s
    | some c => if c.swept then s else
        let s := if c.aborted then s else endCmd q c cause st s
        match findCmd s q c.idx with
        | some c => putCmd q { c with swept := true } s
        | none => s) s

/-- The queues of a tenant that exist. Log: DEDUCED 60. -/
def tenantQueues (s : State) (t : Nat) : List QId :=
  (s.eng.queues.filter fun (k, x) => decide (k / 8 = t ∧ k < 1024) && decide (x.state ≠ 0)).map fun (k, _) => qOfNum k

/-- QUEUE_STOPPED: the last outstanding command has completed; the queue is DISABLED and a QUEUE_DESTROY is answered (R288, R289).
 Log: DEDUCED 60. -/
def queueStopped (q : QId) (s : State) : State :=
  let x := s.queue (qNum q)
  if x.state = 3 ∧ x.cmds = [] then
    let s := s.setQueue (qNum q) { lost := x.lost }
    x.owed.foldl (fun s o => answer o .ok (leBytes 4 x.lost.toNat) s) s
  else s

def execQueueStopped (q : QId) (s : State) : Host.Outcome State Fault Refusal := .next (whileAlive (queueStopped q) s)

/-! ## The function-level reset of a virtual function (R70) -/

/-- The tenant attached to a virtual function of a port. -/
def tenantOfVf (s : State) (hp : Fin 4) (vf : Nat) : Option Nat :=
  (List.range 128).find? fun t =>
    decide (vf ≠ 0) && decide ((s.tenant t).state ≠ .free) && decide ((s.tenant t).vf = vf) && decide ((s.part (s.tenant t).part).port = hp)

/-- The tenant's queues stop, their commands complete with ABORTED; everything else of the tenant remains. -/
def vfReset (hp : Fin 4) (vf : Nat) (s : State) : State :=
  match tenantOfVf s hp vf with
  | none => s
  | some t => (tenantQueues s t).foldl (fun s q => sweepQueue q (markStopping q .aborted true false s)) s

def execVfFlr (hp : Fin 4) (vf : Nat) (s : State) : Host.Outcome State Fault Refusal :=
  .next (whileAlive (fun s => if hostUp s { port := hp, vf } then vfReset hp vf s else s) s)

/-! ## The queue commands (R289) -/

/-- The queue a command names; 0xFF names the administrator's. Log: DEDUCED 60. -/
def queueNamed (tenant queue : Byte) : QId :=
  if tenant = 0xFF then .admin (Fin.ofNat 8 queue.toNat) else .tenant (Fin.ofNat 128 tenant.toNat) (Fin.ofNat 8 queue.toNat)

/-- The issuer's right over the tenant of a queue command, and the numbers it may name. -/
def queueRight (s : State) (fn : Fn) (tenant queue : Byte) : Option Status :=
  if tenant ≠ 0xFF ∧ 127 < tenant.toNat ∨ 7 < queue.toNat then some .badLength
  else if tenant = 0xFF then (if s.isAdmin fn then none else some .noGrant)
  else if (s.tenant tenant.toNat).state = .free ∨ !seesTenant s fn tenant.toNat true then some .noGrant
  else none

/-- Instances of a class (Table 12.1). -/
def classInstances (cls : Nat) : Nat := if cls = 0 then 4 else if cls = 1 then 2 else if cls = 2 then 2 else 1

/-- Queues bound to an instance of a class. -/
def boundTo (s : State) (cls inst : Nat) : Nat :=
  (s.eng.queues.filter fun (_, x) => decide (x.state ≠ 0) && decide (x.cls = cls) && decide (x.inst = inst)).length

/-- The station of a move or voxel engine instance (Table 8.1). -/
def engStation (cls inst : Nat) : Option Nat :=
  if cls = 0 then [86, 89, 102, 105][inst]? else if cls = 2 then [88, 104][inst]? else none

/-- The instance lies on a disabled station and takes no queue (R188). Log: DEDUCED 60. -/
def instDown (s : State) (cls inst : Nat) : Bool := match engStation cls inst with
  | some st => stationDown s st
  | none => false

/-- The instance in service with the fewest queues, the lowest-numbered on a tie. Log: DEDUCED 60. -/
def leastBound (s : State) (cls : Nat) : Option Nat :=
  ((List.range (classInstances cls)).filter fun i => !instDown s cls i).foldl (fun a i => match a with
    | none => some i
    | some k => if boundTo s cls i < boundTo s cls k then some i else some k) none

/-- Queues of a class in a partition. -/
def classUsed (s : State) (part cls : Nat) : Nat :=
  (s.eng.queues.filter fun (k, x) => decide (k < 1024) && decide (x.state ≠ 0) && decide (x.cls = cls) && decide (qPart s k = part)).length

/-- A partition's quota for a class (Table 3.1). -/
def classQuota (p : Part) (cls : Nat) : Nat := if cls = 0 then p.qMove else if cls = 1 then p.qScrub else if cls = 2 then p.qVoxel else p.qArray

/-- The tiles of both rings. -/
def ringTiles (n sq cq : Nat) : List Nat × List Nat := (rangeTiles sq (64 * 2 ^ n), rangeTiles cq (16 * 2 ^ n))

/-- QUEUE_CREATE's checks, in the order of R289. Log: DEDUCED 60. -/
def createCheck (s : State) (fn : Fn) (tenant queue cls n place inst : Byte) (sq cq : BitVec 64) : Option Status :=
  let adm := decide (tenant = 0xFF)
  let t := tenant.toNat
  let q := queueNamed tenant queue
  let (c, nn) := (cls.toNat, n.toNat)
  let inTiles := decide (place = 0) && !adm
  let (st, ct) := if 4 ≤ nn ∧ nn ≤ 16 then ringTiles nn sq.toNat cq.toNat else ([], [])
  match queueRight s fn tenant queue with
  | some x => some x
  | none => firstFail [
      (inTiles && (st.any (fun k => (s.tileAt t k).shared) || ct.any fun k => (s.tileAt t k).shared || (s.tileAt t k).readOnly), .noGrant),
      (decide (nn < 4 ∨ 16 < nn ∨ 3 < c ∨ 1 < place.toNat ∨ sq.toNat % 4096 ≠ 0 ∨ cq.toNat % 4096 ≠ 0)
        || (if inst = 0xFF then (leastBound s c).isNone else decide (classInstances c ≤ inst.toNat) || instDown s c inst.toNat), .badLength),
      (adm && decide (2 ≤ c ∨ place = 0), .unsupported),
      (inTiles && (decide (2 ^ 48 < sq.toNat + 64 * 2 ^ nn ∨ 2 ^ 48 < cq.toNat + 16 * 2 ^ nn)
        || (st ++ ct).any fun k => !(s.tileAt t k).valid), .outOfBounds),
      (!adm && decide (classQuota (s.part (s.tenant t).part) c ≤ classUsed s (s.tenant t).part c), .outOfBounds),
      (decide ((s.queue (qNum q)).state ≠ 0) || (!adm && decide ((s.tenant t).state ≠ .live)), .busy)]

def execQueueCreate (fn : Fn) (m : MbxHdr) (tenant queue cls n place inst : Byte) (vector : BitVec 16) (sqBase cqBase : BitVec 64) (s : State) :
    Host.Outcome State Fault Refusal :=
  .next (mailbox fn 0x0401 m ([tenant, queue, cls, n, place, inst] ++ leBytes 2 vector.toNat ++ leBytes 8 sqBase.toNat ++ leBytes 8 cqBase.toNat)
    false (fun _ => true) (fun o s =>
    orFail o (createCheck s fn tenant queue cls n place inst sqBase cqBase) (fun s =>
      let i := if inst = 0xFF then (leastBound s cls.toNat).getD 0 else inst.toNat
      let x : Queue := { state := 1, cls := cls.toNat, host := decide (place = 1), n := n.toNat, inst := i, vector, sqBase, cqBase }
      answer o .ok [BitVec.ofNat 8 i] (s.setQueue (qNum (queueNamed tenant queue)) x)) s) s)

/-- QUEUE_DESTROY: BUSY for a tenant that is not LIVE; a queue that is not there is answered at once (R288, R289). -/
def execQueueDestroy (fn : Fn) (m : MbxHdr) (tenant queue : Byte) (s : State) : Host.Outcome State Fault Refusal :=
  .next (mailbox fn 0x0402 m [tenant, queue] false (fun _ => true) (fun o s =>
    let q := queueNamed tenant queue
    orFail o (match queueRight s fn tenant queue with
      | some st => some st
      | none => if tenant ≠ 0xFF ∧ (s.tenant tenant.toNat).state ≠ .live then some .busy else none) (fun s =>
      let x := s.queue (qNum q)
      if x.state = 0 then answer o .ok (leBytes 4 x.lost.toNat) s
      else
        let s := sweepQueue q (markStopping q .aborted true true s)
        s.setQueue (qNum q) { s.queue (qNum q) with owed := (s.queue (qNum q)).owed ++ [o] }) s) s)

/-- The thirteen Q_ registers of a queue (Table 12.10). Log: DESIGN CHOICE 98. -/
def queueWords (x : Queue) : List Word := [
  field 30 x.state ||| field 28 x.cls ||| flag 27 x.host ||| field 22 x.n ||| field 19 x.inst ||| x.vector.setWidth 32,
  x.sqBase.setWidth 32, (x.sqBase >>> 32).setWidth 32, x.cqBase.setWidth 32, (x.cqBase >>> 32).setWidth 32,
  BitVec.ofNat 32 x.sqTail, BitVec.ofNat 32 x.sqHead, BitVec.ofNat 32 x.cqHead, BitVec.ofNat 32 x.cqTail ||| flag 16 x.phase,
  flag 30 x.abPend.isNone ||| field 16 x.result.toNat ||| x.abIndex.setWidth 32,
  field 8 x.cause ||| flag 0 x.illegal, x.lost, BitVec.ofNat 32 x.cmds.length]

def execQueueQuery (fn : Fn) (m : MbxHdr) (tenant queue : Byte) (s : State) : Host.Outcome State Fault Refusal :=
  .next (mailbox fn 0x0403 m [tenant, queue] true (fun _ => true) (fun o s =>
    orFail o (match queueRight s fn tenant queue with
      | some st => some st
      | none => if tenant ≠ 0xFF ∧ ((s.tenant tenant.toNat).state ≠ .live ∧ (s.queue (qNum (queueNamed tenant queue))).state ≠ 3) then some .busy else none)
      (fun s => answer o .ok (wordBytes (queueWords (s.queue (qNum (queueNamed tenant queue))))) s) s) s)

end Sys2Proof.Machine
end

