-- ==== Sys2Proof/Machine/Tenants.lean ====
section
/-! DEFINITION. Partitions, tenants and streams (spec/03_partitions_tenants_streams.md): creation and destruction, the withdrawal of Table 3.2,
streams and their flips, and the partition reset. -/

namespace Sys2Proof.Machine

/-! ## Creation (R56, R57) -/

/-- Tenants of a partition that are not FREE (Table 3.5). -/
def tenantsIn (s : State) (p : Nat) : List Nat := (List.range 128).filter fun t => decide ((s.tenant t).state ≠ .free ∧ (s.tenant t).part = p)

/-- The virtual function is attached to a tenant. Log: DEDUCED 77. -/
def vfTaken (s : State) (hp : Fin 4) (vf : Nat) : Bool := (tenantOfVf s hp vf).isSome

/-- The lowest-numbered FREE tenant. -/
def freeTenant (s : State) : Option Nat := (List.range 128).find? fun t => decide ((s.tenant t).state = .free)

def execTenantCreate (fn : Fn) (m : MbxHdr) (part vf : Byte) (s : State) : Host.Outcome State Fault Refusal :=
  .next (mailbox fn 0x0101 m [part, vf] false (fun _ => true) (fun o s =>
    let p := part.toNat
    orFail o (firstFail [
      (decide (15 < p ∨ 32 < vf.toNat), .badLength),
      (!s.owns fn p, .noGrant),
      ((s.part p).reset.isSome || vfTaken s fn.port vf.toNat || s.trngFail, .busy),
      (decide ((s.part p).tenantQuota ≤ (tenantsIn s p).length), .outOfBounds)]) (fun s =>
      match freeTenant s with
      | none => answer o .outOfBounds [] s
      | some t =>
        let x := s.tenant t
        s.setTenant t { state := .creating, part := p, vf := vf.toNat, incarn := (x.incarn + 1) % 1024, owed := [o] }) s) s)

/-- TENANT_KEY_READY: the SEP has drawn the memory key; the tenant is LIVE with empty tables at generation 0 (R56, R207).
 Log: DEDUCED 77. -/
def tenantKeyReady (t : Nat) (s : State) : State :=
  let x := s.tenant t
  if x.state ≠ .creating || !procWorks s .sep then s
  else
    let s := s.setTenant t { x with state := .live, key := some (Config.memoryKey s.serialNo), owed := [] }
    let s := { s with serialNo := s.serialNo + 1, sec := { s.sec with drbgReqs := s.sec.drbgReqs + 1 } }
    let s := (s.setInst (tileMapInst t) {}).setInst (admInst t) {}
    x.owed.foldl (fun s o => answer o .ok [BitVec.ofNat 8 t] s) s

def execTenantKeyReady (t : Fin 128) (s : State) : Host.Outcome State Fault Refusal := .next (whileAlive (tenantKeyReady t.val) s)

/-! ## Destruction (R59, Table 3.2) -/

/-- The status an operation of a stopped tenant takes: an engine command's, and any other's. -/
def endEngine (byReset : Bool) : Status := if byReset then .partitionReset else .aborted
def endFabric (byReset : Bool) : Status := if byReset then .partitionReset else .noGrant

/-- The tenant is set to DESTROYING for boundary b, and its queues accept nothing more. A reset takes over a destruction (R68). -/
def beginDestroy (t b : Nat) (byReset : Bool) (owed : List Owed) (s : State) : State :=
  let x := s.tenant t
  let s := s.setTenant t { x with state := .destroying, b := some (x.b.getD b), byReset := x.byReset || byReset, owed := x.owed ++ owed }
  (tenantQueues s t).foldl (fun s q => markStopping q (endEngine byReset) false true s) s

def execTenantDestroy (fn : Fn) (m : MbxHdr) (tenant : Byte) (s : State) : Host.Outcome State Fault Refusal :=
  .next (mailbox fn 0x0102 m [tenant] false (fun _ => true) (fun o s =>
    orFail o (tenantCheck s fn tenant.toNat false) (beginDestroy tenant.toNat (s.clk.now + 1) false [o]) s) s)

/-- Every stream command that waits for its flip is answered, and an ID it had allocated is free (R406); the record is discarded (R168). -/
def dropPending (k : Nat) (st : Status) (s : State) : State :=
  let x := s.stream k
  let s := x.pend.foldl (fun s o => answer o.2 st [] s) s
  s.setStream k (if x.pend.any (fun o => decide (o.1 = .opening)) then {} else { x with pend := [], closed := true, record := [] })

/-- The tenant's stream entries go, in both copies. -/
def withdrawStreams (t : Nat) (st : Status) (s : State) : State :=
  s.streams.foldl (fun s (k, x) =>
    if x.alloc && decide (x.tenant = t) then dropPending k st ((s.putBoth streamInst (2 * k) 0).putBoth streamInst (2 * k + 1) 0) else s) s

/-- The mirrors of the tenant's tiles go from every other map, in every copy. Log: DEDUCED 76. -/
def withdrawMirrors (t : Nat) (s : State) : State :=
  let f := fun (_ : Nat) (w : BitVec 64) => if (tileEnt w).shared ∧ (tileEnt w).keyT = t then 0 else w
  { s with insts := mapTbl {} (fun i x =>
      if i < 128 ∧ i ≠ t then { x with shadow := mapTbl 0 f x.shadow, active := mapTbl 0 f x.active, old := mapTbl 0 f x.old } else x) s.insts }

/-- An instance is withdrawn whole: both copies empty, its COMMIT discarded. -/
def withdrawInst (i : Nat) (s : State) : State :=
  s.setInst i { s.inst i with shadow := [], active := [], commit := false }

/-- Requests of the tenant, and requests of others that matched a mirror of its tiles, end; one that has been answered ends too while its
answer is not handed over (R40, R48, R59, R214). -/
def withdrawReqs (t : Nat) (byReset : Bool) (s : State) : State :=
  s.reqs.foldl (fun s r =>
    let own := decide (r.msg.tenant.toNat = t)
    if holdsTags s r && (own || decide (r.keyT = t)) then
      let same := own || decide ((s.tenant r.msg.tenant.toNat).part = (s.tenant t).part)
      let s := { s with dram := { s.dram with queue := s.dram.queue.filter fun o => !(o.gate.isSome && decide (o.cont = .req r.id)) } }
      endReq r.id (endFabric (byReset && same)) r.pos s
    else s) s

/-- Answers to the tenant's repeats that are still queued take the status too (R40, R48). -/
def withdrawAnswers (t : Nat) (st : Status) (s : State) : State :=
  let f := fun (it : TxItem) =>
    if it.ans && !it.final && it.tags.any fun g => decide (g.1 = tileMapInst t ∨ g.1 = admInst t) then
      { msgItem { it.msg with opcode := 0x40, aux := BitVec.ofNat 8 st.code, len := 0, data := [] } with
        ans := true, final := true, tags := it.tags, origin := it.origin }
    else it
  { s with ports := mapTbl {} (fun _ p => { p with txq := p.txq.map f }) s.ports }

/-- An engine command that is held at a gate of a migration that stops ends, with the status of its own partition (R214). -/
def endWaiter (byReset : Bool) (part : Nat) (u : EngUse) (s : State) : State :=
  match u with
  | .cmd q idx =>
    match findCmd s q idx with
    | some c =>
      let reset := byReset && decide (qPart s (qNum q) = part)
      if c.phase = .running && !c.ended then endCmd q c (if reset then 9 else 8) (endEngine reset) s else s
    | none => s
  | _ => s

/-- The tenant's migrations stop: what is held at their gates ends and never proceeds, and the administrator's MIGRATE that asked for one
ends (R214). Log: DEDUCED 76. -/
def withdrawMigs (t : Nat) (byReset : Bool) (s : State) : State :=
  (List.range 16).foldl (fun s k =>
    let m := s.mig k
    if m.state ≠ 0 ∧ m.tenant = t then
      let s := m.waiters.foldl (fun s u => endWaiter byReset (s.tenant t).part u s) (s.setMig k {})
      let s := { s with dram := { s.dram with queue := s.dram.queue.filter fun o => decide (o.gate ≠ some k) } }
      match m.cmd with
      | none => s
      | some (q, idx) =>
        match findCmd s q idx with
        | some c => if c.phase = .running then finishCmd q c (endEngine byReset) m.copied (BitVec.ofNat 32 k) s else s
        | none => s
    else s) s

/-- Step 1 of the boundary for one tenant: everything of Table 3.2 at boundary b, cycle 0. -/
def withdrawTenant (t : Nat) (s : State) : State :=
  let x := s.tenant t
  let s := s.setTenant t { x with withdrawn := true, b := some s.clk.now }
  let s := withdrawAnswers t (endFabric x.byReset) (withdrawReqs t x.byReset s)
  let s := (tenantQueues s t).foldl (fun s q => sweepQueue q s) s
  let s := withdrawMigs t x.byReset s
  let s := withdrawStreams t (endFabric x.byReset) s
  let s := withdrawMirrors t (withdrawInst (admInst t) (withdrawInst (tileMapInst t) s))
  let s := { s with til := { s.til with rw := s.til.rw.filter fun e => decide (e.1 / 2 ^ 27 ≠ t) } }
  -- a creation that had not ended is answered now (R68)
  let (mk, rest) := x.owed.partition fun o => decide (o.opcode = 0x0101)
  let s := s.setTenant t { s.tenant t with owed := rest }
  settle (mk.foldl (fun s o => answer o .partitionReset [] s) s)

/-- The tenant's boundary b has come. -/
def withdrawDue (s : State) (t : Nat) : Bool :=
  let x := s.tenant t
  decide (x.state = .destroying) && !x.withdrawn && (match x.b with | some b => decide (b ≤ s.clk.now) | none => false)

def execTenantWithdraw (t : Fin 128) (s : State) : Host.Outcome State Fault Refusal :=
  .next (if atBoundary s && withdrawDue s t.val then withdrawTenant t.val s else s)

/-- TENANT_KEY_ZEROISE: within course b the SEP clears key slot t at every holder (R207). Log: DEDUCED 77. -/
def tenantKeyZeroise (t : Nat) (s : State) : State :=
  let x := s.tenant t
  if x.state = .destroying && x.withdrawn && procWorks s .sep then s.setTenant t { x with key := none } else s

def execTenantKeyZeroise (t : Fin 128) (s : State) : Host.Outcome State Fault Refusal := .next (whileAlive (tenantKeyZeroise t.val) s)

/-- The tiles of a tenant return to their pools, or are retired where they are bogged (R203, R214, R218). -/
def returnTiles (t : Nat) (s : State) : State :=
  let mine := s.til.uses.filter fun e => match e.2 with | .owned o _ => decide (o = t) | _ => false
  retryBogs (mine.foldl (fun s e =>
    let tier := Tier.ofBit (decide (2 ^ 22 ≤ e.1))
    dropUse tier (e.1 % 2 ^ 22) (decide (16 ≤ liveBogs s tier (e.1 % 2 ^ 22))) s) s)

/-- TENANT_FREE at boundary b + 1: tiles returned, the virtual function detached, FREE, and the mailbox answers. Log: DEDUCED 77. -/
def tenantFree (t : Nat) (s : State) : State :=
  let x := s.tenant t
  if x.state = .destroying && x.withdrawn && x.key.isNone && (tenantQueues s t).isEmpty
      && (match x.b with | some b => decide (b + 1 ≤ s.clk.now) | none => false) then
    let s := returnTiles t s
    let s := s.setTenant t { incarn := x.incarn }
    let s := (s.setInst (tileMapInst t) {}).setInst (admInst t) {}
    x.owed.foldl (fun s o => answer o (if x.byReset then .partitionReset else .ok) [] s) s
  else s

def execTenantFree (t : Fin 128) (s : State) : Host.Outcome State Fault Refusal :=
  .next (if atBoundary s then tenantFree t.val s else s)

/-! ## TENANT_QUERY (R71, R74) -/

/-- Tiles of a tier in use for a tenant. -/
def tilesOfTenant (s : State) (t : Nat) (tier : Tier) : Nat :=
  (s.til.uses.filter fun e => decide (e.1 / 2 ^ 22 = tier.bit) && (match e.2 with | .owned o _ => decide (o = t) | _ => false)).length

/-- Stream IDs allocated where a test holds. -/
def streamsWhere (s : State) (f : Stream → Bool) : Nat := (s.streams.filter fun e => e.2.alloc && f e.2).length

def execTenantQuery (fn : Fn) (m : MbxHdr) (tenant : Byte) (s : State) : Host.Outcome State Fault Refusal :=
  .next (mailbox fn 0x0103 m [tenant] true (fun _ => true) (fun o s =>
    let t := tenant.toNat
    orFail o (tenantCheck s fn t true) (fun s =>
      answer o .ok ([BitVec.ofNat 8 (s.tenant t).state.code] ++ leBytes 4 (tilesOfTenant s t .near) ++ leBytes 4 (tilesOfTenant s t .bulk)
        ++ leBytes 2 (streamsWhere s fun x => decide (x.tenant = t)) ++ [BitVec.ofNat 8 (tenantQueues s t).length]) s) s) s)

/-! ## Streams (R61 to R66) -/

/-- Write a stream's shadow entry and set COMMIT on the stream table. -/
def writeStream (k : Nat) (cfg lim : BitVec 64) (s : State) : State :=
  ((s.putShadow streamInst (2 * k) cfg).putShadow streamInst (2 * k + 1) lim).setCommit streamInst

/-- A stream command waits for its flip. -/
def waitFlip (k : Nat) (op : StreamOp) (o : Owed) (s : State) : State :=
  s.setStream k { s.stream k with pend := (s.stream k).pend ++ [(op, o)] }

/-- A window and a timeout in range (R75). Log: DEDUCED 78. -/
def badLimits (window timeout : BitVec 16) : Bool := decide (window = 0 ∨ 256 < window.toNat ∨ 4095 < timeout.toNat)

def execStreamOpen (fn : Fn) (m : MbxHdr) (tenant : Byte) (endpoint window timeout : BitVec 16) (s : State) : Host.Outcome State Fault Refusal :=
  .next (mailbox fn 0x0110 m ([tenant] ++ leBytes 2 endpoint.toNat ++ leBytes 2 window.toNat ++ leBytes 2 timeout.toNat) false (fun _ => true)
    (fun o s =>
    let t := tenant.toNat
    let p := (s.tenant t).part
    orFail o (firstFail [(badLimits window timeout || decide (0xFFF < endpoint.toNat), .badLength)] <|> tenantCheck s fn t false <|> firstFail [
      (!s.admitted t endpoint.toNat, .noGrant),
      (decide ((s.part p).streamQuota ≤ streamsWhere s fun x => decide (x.part = p)), .outOfBounds)]) (fun s =>
      match (List.range 4096).find? fun k => !(s.stream k).alloc with
      | none => answer o .outOfBounds [] s
      | some k =>
        let s := s.setStream k { alloc := true, part := p, tenant := t }
        waitFlip k .opening o (writeStream k (strCfgWord t endpoint.toNat) (strLimWord window.toNat timeout.toNat) s)) s) s)

/-- A command that names a stream: it must be one of the issuer's, in the shadow, of a LIVE tenant (R71). Log: DEDUCED 78. -/
def streamCheck (s : State) (fn : Fn) (k : Nat) : Option Status :=
  let x := s.stream k
  if 0xFFF < k || !x.alloc || (s.shadowAt streamInst (2 * k)) = 0 || !seesTenant s fn x.tenant false then some .noGrant
  else if (s.tenant x.tenant).state ≠ .live then some .busy
  else none

def execStreamModify (fn : Fn) (m : MbxHdr) (stream window timeout : BitVec 16) (s : State) : Host.Outcome State Fault Refusal :=
  .next (mailbox fn 0x0111 m (leBytes 2 stream.toNat ++ leBytes 2 window.toNat ++ leBytes 2 timeout.toNat) false (fun _ => true) (fun o s =>
    let k := stream.toNat
    orFail o (firstFail [(badLimits window timeout, .badLength)] <|> streamCheck s fn k) (fun s =>
      waitFlip k .modifying o (writeStream k (s.shadowAt streamInst (2 * k)) (strLimWord window.toNat timeout.toNat) s)) s) s)

def execStreamClose (fn : Fn) (m : MbxHdr) (stream : BitVec 16) (s : State) : Host.Outcome State Fault Refusal :=
  .next (mailbox fn 0x0112 m (leBytes 2 stream.toNat) false (fun _ => true) (fun o s =>
    let k := stream.toNat
    orFail o (streamCheck s fn k) (fun s => waitFlip k .closing o (writeStream k 0 0 s)) s) s)

/-- The configured window of a stream before the flip that has just been made. Log: DEDUCED 78. -/
def windowBefore (s : State) (k : Nat) : Nat := (Tbl.get 0 (s.inst streamInst).old (2 * k + 1)).toNat / 2 ^ 16 % 512

/-- What a flip of the stream table does for one waiting command (R61, R65, R66). A close discards the record; repeats still waiting for their
original stay beside it (R166, R168). A window raised at the flip ramps from there; else the
count of sixteen boundaries goes on. Log: DEDUCED 78. -/
def streamFlipOp (k : Nat) (op : StreamOp) (o : Owed) (s : State) : State :=
  let x := s.stream k
  match op with
  | .opening => answer o .ok (leBytes 2 k) (s.setStream k { x with windowNow := 1, rampBase := s.clk.now, rampAt := s.clk.now })
  | .modifying =>
    let y := { x with windowNow := min x.windowNow (s.strWindow k) }
    answer o .ok [] (s.setStream k (if windowBefore s k < s.strWindow k then { y with rampBase := s.clk.now, rampAt := s.clk.now } else y))
  | .closing => answer o .ok [] (s.setStream k { x with closed := true, record := x.record.filter fun e => decide (e.repeats ≠ []) })

/-- After the flip of the stream table every stream command that waited for it is done. -/
def streamsFlip (s : State) : State :=
  s.streams.foldl (fun s (k, x) =>
    if x.pend = [] then s
    else x.pend.foldl (fun s e => streamFlipOp k e.1 e.2 s) (s.setStream k { s.stream k with pend := [] })) s

/-- STREAM_ID_FREE: a closed stream with nothing outstanding frees its ID (R66). -/
def streamIdFree (k : Nat) (s : State) : State :=
  let x := s.stream k
  if x.alloc && x.closed && !(s.reqs.any fun r => decide (r.msg.stream.toNat = k) && !r.silent) then s.setStream k {} else s

def execStreamIdFree (sid : BitVec 12) (s : State) : Host.Outcome State Fault Refusal := .next (whileAlive (streamIdFree sid.toNat) s)

/-- STREAM_WINDOW_RAMP: at every sixteenth boundary the window doubles, up to the configured size (R62). Log: DEDUCED 78. -/
def windowRamp (k : Nat) (s : State) : State :=
  let x := s.stream k
  if (s.strCfg k).getLsbD 31 && x.alloc && decide (x.rampAt < s.clk.now) && decide ((s.clk.now - x.rampBase) % 16 = 0)
      && decide (x.windowNow < s.strWindow k) then
    s.setStream k { x with windowNow := min (2 * x.windowNow) (s.strWindow k), rampAt := s.clk.now }
  else s

def execStreamWindowRamp (sid : BitVec 12) (s : State) : Host.Outcome State Fault Refusal :=
  .next (if atBoundary s then windowRamp sid.toNat s else s)

/-- STREAM_TIMEOUT: a request whose timer has expired completes with TIMEOUT (R33, R64). -/
def streamTimeout (k rseq : Nat) (s : State) : State :=
  match s.reqs.find? fun r => decide (r.msg.stream.toNat = k) && decide (r.msg.rseq.toNat = rseq) && r.expiry.isSome with
  | none => s
  | some r =>
    match r.expiry with
    | some b => if b ≤ s.clk.now then settle (endReq r.id .timeout r.pos s) else s
    | none => s

def execStreamTimeout (sid : BitVec 12) (rseq : BitVec 16) (s : State) : Host.Outcome State Fault Refusal :=
  .next (if atBoundary s then streamTimeout sid.toNat rseq.toNat s else s)

/-! ## Partition reset (R67 to R69) -/

/-- A trigger of a partition reset: its tenants are set to DESTROYING, and boundary b is the next one. It takes over a tenant whose
destruction is under way, and a second trigger joins the first (R68).
 Log: DEDUCED 76. -/
def triggerReset (p : Nat) (owed : List Owed) (s : State) : State :=
  let x := s.part p
  if !x.valid then s
  else
    let r : PartReset := match x.reset with
      | some r => { r with owed := r.owed ++ owed }
      | none => { b := s.clk.now + 1, owed }
    let s := s.setPart p { x with reset := some r }
    (tenantsIn s p).foldl (fun s t => beginDestroy t (s.clk.now + 1) true [] s) s

def execPartReset (fn : Fn) (m : MbxHdr) (part : Byte) (s : State) : Host.Outcome State Fault Refusal :=
  .next (mailbox fn 0x0120 m [part] false (fun _ => true) (fun o s =>
    let p := part.toNat
    orFail o (firstFail [
      (decide (15 < p), .badLength),
      (!(s.part p).valid || !(s.owns fn p || s.isAdmin fn), .noGrant)]) (triggerReset p [o]) s) s)

/-- A launch of a reset partition is gone at once: its command ends with PARTITION_RESET and cause 0x9, or with an end recorded before (R318).
 Log: DEDUCED 76. -/
def killLaunch (r : Launch) (s : State) : State :=
  let s := { s with arr := { s.arr with
      runs := s.arr.runs.filter fun x => !(decide (x.q = r.q ∧ x.idx = r.idx))
      loaders := s.arr.loaders.filter fun x => (match x.id with | .self col _ _ => !inRegion r col.val | _ => true)
      abnormal := sat32 s.arr.abnormal 1 } }
  let (st, aux) := launchOutcome r
  match findCmd s r.q r.idx with
  | some c =>
    if c.phase ≠ .running then s
    else if firing r then finishCmd r.q { c with swept := true } .partitionReset r.bytes (field 24 9) s
    else finishCmd r.q { c with swept := true } st r.bytes aux s
  | none => s

/-- The partition's array columns are stopped and their frames cleared (R68, R322). Log: DEDUCED 76. -/
def resetColumns (p : Nat) (s : State) : State :=
  let s := s.arr.runs.foldl (fun s r => if r.part = p then killLaunch r s else s) s
  (List.range 64).foldl (fun s k =>
    let c := s.col k
    if c.part = p ∧ c.state ≠ .unowned ∧ c.state ≠ .unavailable then wipeColumn k s else s) s

/-- The partition's boundary b: operations ended, COMMITs discarded, tables withdrawn, columns stopped (R68). Log: DEDUCED 76. -/
def withdrawPartition (p : Nat) (s : State) : State :=
  let x := s.part p
  match x.reset with
  | none => s
  | some r =>
    let s := (tenantsIn s p).foldl (fun s t => if (s.tenant t).withdrawn then s else withdrawTenant t s) s
    let s := resetColumns p s
    s.setPart p { s.part p with reset := some { r with withdrawn := true } }

/-- The partition's boundary b has come. Log: DEDUCED 76. -/
def partDue (s : State) (p : Nat) : Bool :=
  match (s.part p).reset with
  | some r => !r.withdrawn && decide (r.b ≤ s.clk.now)
  | none => false

def execPartitionResetWithdraw (p : Fin 16) (s : State) : Host.Outcome State Fault Refusal :=
  .next (if atBoundary s && partDue s p.val then withdrawPartition p.val s else s)

/-- PARTITION_RESET_COMPLETE: every tenant is FREE; the commands that asked are answered (R68). Log: DEDUCED 76. -/
def resetComplete (p : Nat) (s : State) : State :=
  match (s.part p).reset with
  | none => s
  | some r =>
    if r.withdrawn && decide (r.b + 1 ≤ s.clk.now) && (tenantsIn s p).isEmpty then
      r.owed.foldl (fun s o => answer o .ok [] s) (s.setPart p { s.part p with reset := none })
    else s

def execPartitionResetComplete (p : Fin 16) (s : State) : Host.Outcome State Fault Refusal :=
  .next (whileAlive (resetComplete p.val) s)

/-! ## PART_QUERY (R75, Tables 3.4, 3.5) -/

/-- The eight PTT_PART words of a partition. -/
def partWords (s : State) (p : Nat) : List Word :=
  let x := s.part p
  if !x.valid then List.replicate 8 0
  else [
    flag 31 true ||| field 24 x.port.val ||| field 16 x.tenantQuota ||| field 8 x.colCount ||| BitVec.ofNat 32 x.colFirst,
    field 16 x.streamQuota ||| BitVec.ofNat 32 (streamsWhere s fun k => decide (k.part = p)),
    BitVec.ofNat 32 x.nearQuota, BitVec.ofNat 32 x.nearUsed, BitVec.ofNat 32 x.bulkQuota, BitVec.ofNat 32 x.bulkUsed,
    BitVec.ofNat 32 (tenantsIn s p).length,
    field 24 x.qArray ||| field 16 x.qVoxel ||| field 8 x.qScrub ||| BitVec.ofNat 32 x.qMove]

def execPartQuery (fn : Fn) (m : MbxHdr) (part : Byte) (s : State) : Host.Outcome State Fault Refusal :=
  .next (mailbox fn 0x0121 m [part] true (fun _ => true) (fun o s =>
    let p := part.toNat
    orFail o (firstFail [
      (decide (15 < p), .badLength),
      (!(s.owns fn p || s.isAdmin fn), .noGrant)]) (fun s => answer o .ok (wordBytes (partWords s p)) s) s) s)

end Sys2Proof.Machine
end

