-- ==== Sys2Proof/Machine/Board.lean ====
section
/-! DEFINITION. Package, pins and board (spec/04_board_and_pins.md): POR_N and the power signals, the thermal signals, Host Notify and the
Alert Response Address, the multi-function pins, and the lock of the core clock. -/

namespace Sys2Proof.Machine

/-! ## The flash (R89, R107, R108, R113) -/

/-- log2 of the bytes used: the density up to 256 MiB, or 16 MiB without SFDP (R89). -/
def flashLog (d : FlashDev) : Nat := if d.sfdp then min d.log2 28 else 24

/-- SBD_SPI_INFO.MODE (Table 4.11). -/
def flashMode (d : FlashDev) : Nat := if !d.sfdp then 0 else if d.q144 then 3 else if d.q114 then 2 else 1

/-- Bytes of flash used, of an image slot, and where a slot and the boot log start (R107, Table 5.2). -/
def flashSize (d : FlashDev) : Nat := 2 ^ flashLog d
def slotSize (d : FlashDev) : Nat := (flashSize d - 2 ^ 20) / 2
def slotBase (d : FlashDev) (b : Bool) : Nat := if b then slotSize d else 0
def logBase (d : FlashDev) : Nat := flashSize d - 2 ^ 20

/-- The boot log's bytes (Table 5.2). -/
def logSize : Nat := 65536

/-- A byte of the flash: erased bytes read 0xFF, undefined ones are free values. Log: DESIGN CHOICE 16. -/
def flashAt (d : FlashDev) (a : Nat) : Byte :=
  match d.cells.find? (fun c => decide (c.1 = a)), d.spoilt.find? (fun r => decide (r.1 ≤ a ∧ a < r.1 + r.2.1)) with
  | some c, _ => c.2
  | none, some r => Config.flashByte r.2.2 a
  | none, none => 0xFF

def flashRead (d : FlashDev) (a n : Nat) : List Byte := (List.range n).map fun i => flashAt d (a + i)

/-- What stays of a range where another is taken out of it. -/
def cutRange (a n : Nat) (r : Nat × Nat × Nat) : List (Nat × Nat × Nat) :=
  let (b, m, k) := r
  [(b, min m (a - b), k), (max b (a + n), b + m - max b (a + n), k)].filter fun r => decide (0 < r.2.1)

/-- The flash without what it held in a range. -/
def flashDrop (a n : Nat) (d : FlashDev) : FlashDev :=
  { d with cells := d.cells.filter (fun c => decide (c.1 < a ∨ a + n ≤ c.1)), spoilt := d.spoilt.flatMap (cutRange a n) }

/-- Erase a range: every byte reads 0xFF. Log: DESIGN CHOICE 15. -/
def flashErase (a n : Nat) (d : FlashDev) : FlashDev := flashDrop a n d

/-- Program bytes: programming only clears bits (R113). Log: DESIGN CHOICE 15. -/
def flashProgram (a : Nat) (bs : List Byte) (d : FlashDev) : FlashDev :=
  let d' := flashDrop a bs.length d
  { d' with cells := cellWrite 0xFF d'.cells a ((List.range bs.length).map fun i => flashAt d (a + i) &&& bs.getD i 0xFF) }

/-- A range whose erase or program did not end well: its bytes are undefined (R378). Log: DESIGN CHOICE 16, DESIGN CHOICE 116. -/
def spoilFlash (serial a n : Nat) (d : FlashDev) : FlashDev :=
  let d := flashDrop a n d
  { d with spoilt := (a, n, serial) :: d.spoilt }

/-! ## POR_N, power and clock (R28, R82, R83, R88) -/

/-- The link epochs that the ports draw at reset (R137, R352). Log: DESIGN CHOICE 12. -/
def drawEpochs (s : State) : State :=
  (List.range 32).foldl (fun s n =>
    { s.setPort n { s.port n with epochOwn := if s.trngFail then s.trngWord.setWidth 16 else Config.linkEpoch s.serialNo } with serialNo := s.serialNo + 1 }) s

/-- The node stands where a rise of POR_N finds it: OFF, or the very start that State.reset is. Log: DESIGN CHOICE 8. -/
def atRise (s : State) : Bool :=
  decide (s.nid.state = .off) || (decide (s.nid.state = .boot) && !s.clk.locked && s.boot.otp.isNone && s.boot.flash.isNone)

/-- POR_N_RISE: the straps are sampled and BOOT starts; a latched order fault keeps the node in OFF (R82, R88).
 Log: DESIGN CHOICE 8, DEDUCED 26. -/
def porRise (straps : Straps) (s : State) : State :=
  if s.sbd.orderFault || !atRise s then s
  else
    let s := drawEpochs { s with nid := { s.nid with state := .boot }, sbd := { s.sbd with straps, porN := true } }
    if straps.monitorEn then s.emit (.monitorText "svt>") else s

def execPorNRise (straps : Straps) (s : State) : Host.Outcome State Fault Refusal := .next (porRise straps s)

/-- DRAM contents after a fall of POR_N are undefined until written again (R16): each byte and each poison mark is a free value.
 Log: DESIGN CHOICE 10. -/
def scrambleDram (s : State) : Dram :=
  { mem := s.dram.mem.filterMap fun (a, b) =>
      let x := Config.afterPor s.serialNo a b
      if x = 0 then none else some (a, x)
    poison := s.dram.poison.filter fun e => Config.poisonAfterPor s.serialNo e.1 }

/-- What the flash holds when the node's supply or POR_N falls: an IMAGE_WRITE under way is broken off (R378). Log: DESIGN CHOICE 116. -/
def flashLeft (s : State) : Option FlashDev :=
  match s.boot.flash, s.boot.writing with
  | none, _ => s.sbd.flash
  | some d, [] => some d
  | some d, w :: _ => some (spoilFlash s.serialNo w.addr w.data.length d)

/-- POR_N_FALL: OFF, with every register and table back at its reset value, keys zeroised and the sideband released (R83, R349). What lies
outside the reset domain stays: the levels of PERSTn_N, the order fault latch. The flash keeps its contents on the board, where the next
FLASH_DISCOVERY finds them. Log: DESIGN CHOICE 15, DEDUCED 26. -/
def porFall (s : State) : State :=
  { State.reset with
    pending := s.pending
    out := s.out
    serialNo := s.serialNo + 1
    nid := { State.reset.nid with state := .off }
    dram := scrambleDram s
    hosts := s.hosts.filterMap fun e => if e.2.perst then none else some (e.1, { perst := false })
    sbd := { State.reset.sbd with porN := false, orderFault := s.sbd.orderFault, flash := flashLeft s } }

def execPorNFall (s : State) : Host.Outcome State Fault Refusal := .next (porFall s)

/-- PWRGOOD_FALL: with POR_N high, a core power fault (R83). -/
def execPwrgoodFall (s : State) : Host.Outcome State Fault Refusal := .next (if s.sbd.porN then enterFatal [4] 0 0 s else s)

/-- RAIL_ORDER_FAULT: the monitors latch an order fault as the rails rise, while the node is OFF (R82). -/
def execRailOrderFault (_r : RailOrder) (s : State) : Host.Outcome State Fault Refusal :=
  .next (if s.nid.state = .off then { s with sbd := { s.sbd with orderFault := true } } else s)

/-- VDD_AUX_REMOVAL: the latch clears, and with no rail left the node is OFF (R82). -/
def execVddAuxRemoval (s : State) : Host.Outcome State Fault Refusal :=
  .next (let t := if s.nid.state = .off then s else porFall s
         { t with sbd := { t.sbd with orderFault := false, porN := false } })

/-- CLOCK_LOCK: the core clock locks and the course counter starts at 0 (R28). -/
def execClockLock (s : State) : Host.Outcome State Fault Refusal :=
  .next (if s.alive && !s.clk.locked then { s with clk := { s.clk with locked := true, now := 0, cycle := 0 } } else s)

/-! ## The sideband lands (Table 4.2) -/

/-- An open-drain output. -/
def openDrain (asserted : Bool) : Drive := if asserted then .low else .hiZ

/-- What the node does to a sideband land between two commands; a transfer on the SMBus, the UART, the SPI or a DIMM bus lies within a
command. -/
def sideDrive (s : State) : SideLine → Drive
  | l =>
    if !s.sbd.porN || decide (s.nid.state = .off) then .hiZ
    else match l with
      | .thermtripN => openDrain s.sbd.thermtrip
      | .prochotN => openDrain s.sbd.prochot
      | .nodeFaultN => openDrain s.sbd.nodeFault
      | .smbAlertN => openDrain s.sbd.alert
      | .uartTxd => if s.sbd.straps.monitorEn then .high else .hiZ
      | .spiClk => .clocked
      | .spiCsN => .high
      | _ => .hiZ

/-! ## Thermal signals (R87) -/

/-- THERMTRIP: at 115 °C the signal asserts and the node enters FATAL as for a core power fault. -/
def execThermtrip (die : Fin 2) (t : BitVec 16) (s : State) : Host.Outcome State Fault Refusal :=
  .next (if 460 ≤ t.toInt ∧ s.nid.state ≠ .off then
      enterFatal [4] 0 (BitVec.ofNat 64 die.val) { s with sbd := { s.sbd with thermtrip := true } }
    else s)

/-- PROCHOT_ASSERT: the hottest sensor reaches 100 °C. -/
def execProchotAssert (_die : Fin 2) (t : BitVec 16) (s : State) : Host.Outcome State Fault Refusal :=
  .next (if 400 ≤ t.toInt ∧ s.nid.state ≠ .off then { s with sbd := { s.sbd with prochot := true } } else s)

/-- PROCHOT_RELEASE: every sensor has fallen to 97 °C. -/
def execProchotRelease (t0 t1 : BitVec 16) (s : State) : Host.Outcome State Fault Refusal :=
  .next (if t0.toInt ≤ 388 ∧ t1.toInt ≤ 388 then { s with sbd := { s.sbd with prochot := false } } else s)

/-! ## Multi-function pins (R97 to R101) -/

/-- FUNC and PARAM of a pin in a copy of the pin-function table. -/
def pinFn (t : Tbl (BitVec 64)) (n : Nat) : Nat := (Tbl.get 0 t n).toNat % 16
def pinParam (t : Tbl (BitVec 64)) (n : Nat) : Nat := (Tbl.get 0 t n).toNat / 16 % 16

/-- The pins a function may be placed on (Table 4.6); reserved encodings have none (R7, R97). -/
def pinPermits (f n : Nat) : Bool :=
  if f = 4 then decide (n = 0 ∨ n = 8)
  else if f = 5 then decide (n = 2 ∨ n = 10)
  else if f = 6 then decide (n = 3 ∨ n = 11)
  else if f = 7 then decide (n = 4 ∨ n = 12)
  else decide (f ≤ 9)

/-- A lower-numbered pin has taken the same function of 0x4 to 0x7 (R98). -/
def pinConflict (t : Tbl (BitVec 64)) (n : Nat) : Bool :=
  decide (4 ≤ pinFn t n ∧ pinFn t n ≤ 7) && ((List.range n).any fun m => decide (pinFn t m = pinFn t n))

/-- The function a pin has: HIZ where it lost a conflict (R98). -/
def pinEff (t : Tbl (BitVec 64)) (n : Nat) : Nat := if pinConflict t n then 0 else pinFn t n

/-- The active copy of the pin-function table. -/
def pinTable (s : State) : Tbl (BitVec 64) := (s.inst pinInst).active

/-- A copy of the table that gives one function to two pins sets PIN_CONFLICT (R98). -/
def noteConflict (s : State) : State :=
  if (List.range 16).any (pinConflict (pinTable s)) then { s with sbd := { s.sbd with status := setBit s.sbd.status 3 } } else s

/-! ## Host Notify and the Alert Response Address (R92 to R96) -/

/-- A pin drives or samples a function. -/
def pinActive (s : State) (f : Nat) : Bool :=
  (List.range 16).any fun n => decide (pinEff (pinTable s) n = f) && decide ((s.pin n).phase = .active)

/-- The SMBus target works from the end of BOOT; the MNP serves it, and in FATAL it still answers (R92, R395). The second target works on
the pins that have its clock and data (Table 4.6). Log: DEDUCED 29. -/
def smbUp (bus2 : Bool) (s : State) : Bool :=
  decide (s.nid.state ≠ .off) && decide (s.nid.state ≠ .boot) && (decide (s.nid.state = .fatal) || procRuns s .mnp)
    && (!bus2 || (pinActive s 5 && pinActive s 6))

/-- PEC of SMBus 3: the CRC-8 of x^8 + x^2 + x + 1 over every byte of the message, addresses too (R92). Log: PRESUMED 114. -/
def pecOf (l : List Byte) : Byte :=
  l.foldl (fun c b => (List.range 8).foldl (fun (c : Byte) _ => if c.msb then (c <<< 1) ^^^ 7 else c <<< 1) (c ^^^ b)) 0

/-- The node's own address as the byte that a write to it begins with (R88). -/
def smbOwn (s : State) : Byte := BitVec.ofNat 8 (2 * (0x4C + s.sbd.straps.smbAddr.toNat))

/-- The bytes of a read of a command code, with the PEC of the whole message. Log: PRESUMED 114. -/
def smbAnswer (code : Byte) (d : List Byte) (s : State) : State :=
  s.emit (.smbRead d (pecOf ([smbOwn s, code, smbOwn s + 1] ++ d)))

/-- The oldest word leaves the FIFO and with it its message (R388). Log: DEDUCED 28. -/
def popWord (s : State) : State :=
  { s with sbd := { s.sbd with fifo := s.sbd.fifo.tail, hnTries := 0, hnArb := 0, hnLost := false } }

/-- A message is dropped: its word leaves, the fault is recorded and the status bit set (R94, R95). Log: DEDUCED 28. -/
def dropNotify (code bitNo : Nat) (w : BitVec 16) (s : State) : State :=
  let s := popWord s
  let s := { s with sbd := { s.sbd with status := setBit s.sbd.status bitNo } }
  recordFault { code, scope := 6, event := some (BitVec.ofNat 16 (0x100 + code)), detail := w.setWidth 64 } s

/-- One failed attempt; the fourth drops the message (R94, R96). Log: DEDUCED 28. -/
def failNotify (w : BitVec 16) (s : State) : State :=
  let s := { s with sbd := { s.sbd with hnTries := s.sbd.hnTries + 1, hnLost := false } }
  if 4 ≤ s.sbd.hnTries then dropNotify 0x15 1 w s else s

/-- One attempt at the Host Notify of the oldest pending word, its four bytes and how it ended (R93). `retry` says whether it is the retry 1 ms after an
attempt that failed; a resend after lost arbitration is a send on the free bus. Log: DEDUCED 28. -/
def hostNotify (retry : Bool) (r : HnResult) (s : State) : State :=
  match s.sbd.fifo with
  | [] => s
  | w :: _ =>
    if !s.alive || !smbUp false s || !bit s.sbd.smbCfg 1 || (decide (0 < s.sbd.hnTries) && !s.sbd.hnLost) != retry then s
    else
      let s := s.emit (.hostNotify ([0x10, smbOwn s] ++ leBytes 2 w.toNat))
      match r with
      | .acked => popWord s
      | .noAck => failNotify w { s with sbd := { s.sbd with noAcks := sat16 s.sbd.noAcks } }
      | .sclTimeout => failNotify w s
      | .arbLost =>
        let s := { s with sbd := { s.sbd with arb := sat16 s.sbd.arb, hnArb := s.sbd.hnArb + 1, hnLost := true } }
        if 16 ≤ s.sbd.hnArb then dropNotify 0x16 2 w s else s

def execHostNotifySend (r : HnResult) (s : State) : Host.Outcome State Fault Refusal := .next (hostNotify false r s)
def execHostNotifyRetry (r : HnResult) (s : State) : Host.Outcome State Fault Refusal := .next (hostNotify true r s)

/-- SMB_ALERT_RESPONSE: the node asserting SMB_ALERT_N returns its address, and releases the signal when no event is pending; in FATAL it
stays asserted (R93, R395). -/
def execSmbAlertResponse (s : State) : Host.Outcome State Fault Refusal :=
  .next (if smbUp false s && s.sbd.alert then
      let t := s.emit (.smbRead [smbOwn s] (pecOf [0x19, smbOwn s]))
      if s.sbd.fifo = [] ∧ s.nid.state ≠ .fatal then { t with sbd := { t.sbd with alert := false } } else t
    else s.emit .smbNack)

/-- SMB_SCL_TIMEOUT: the target transfer is abandoned; none of its effect is taken (R96). -/
def execSmbSclTimeout (s : State) : Host.Outcome State Fault Refusal := .next s

/-! ## Pins at a flip and at a boundary (R99 to R101) -/

/-- After a flip of the pin-function table from an old copy: each pin whose function changed is Hi-Z for two full courses; a pin already
in its guard starts it again (R99, R100). A pin that gains or loses its function by R98 alone is guarded too.
 Log: DEDUCED 30, DESIGN CHOICE 113. -/
def pinsFlip (old : Tbl (BitVec 64)) (s : State) : State :=
  let new := pinTable s
  noteConflict ((List.range 16).foldl (fun s n =>
    if pinFn old n ≠ pinFn new n ∨ pinEff old n ≠ pinEff new n then
      s.setPin n { s.pin n with phase := .guard (s.clk.now + 2), ledOn := false }
    else s) s)

/-- On entering TRAINING the functions of the active copy go through their guard from the first boundary of TRAINING (R101).
 Log: DEDUCED 30. -/
def pinsStart (s : State) : State :=
  noteConflict ((List.range 16).foldl (fun s n =>
    if pinEff (pinTable s) n = 0 then s else s.setPin n { s.pin n with phase := .guard (s.clk.now + 3) }) s)

/-- An LED sinks for 4 × PARAM courses of every 60 (Table 4.6). -/
def ledTick (n : Nat) (s : State) : State :=
  let x := s.pin n
  if x.phase = .active ∧ pinEff (pinTable s) n = 9 then
    s.setPin n { x with ledOn := decide ((s.clk.now - x.ledAt) % 60 < 4 * pinParam (pinTable s) n) }
  else s

/-- The guard of a pin has ended: the function drives or samples, a TACH pin starts a window, an LED its period (R99). Log: DEDUCED 30. -/
def guardEnd (n : Nat) (s : State) : State :=
  let x := s.pin n
  match x.phase with
  | .guard a =>
    if a ≤ s.clk.now then
      if pinEff (pinTable s) n = 0 then s.setPin n { x with phase := .hiz }
      else ledTick n (s.setPin n { x with phase := .active, edges := 0, winAt := s.clk.now, ledAt := s.clk.now })
    else s
  | _ => s

def execPinGuardEnd (n : Fin 16) (s : State) : Host.Outcome State Fault Refusal := .next (if atBoundary s then guardEnd n.val s else s)

/-- A pin counts edges: it is an active TACH pin. Log: DESIGN CHOICE 25. -/
def tachOn (s : State) (n : Nat) : Bool := decide ((s.pin n).phase = .active) && decide (pinEff (pinTable s) n = 8)

/-- TACH_EDGE: an edge longer than 1 µs counts. -/
def execTachEdge (n : Fin 16) (long : Bool) (s : State) : Host.Outcome State Fault Refusal :=
  .next (if s.alive && tachOn s n.val && long then s.setPin n.val { s.pin n.val with edges := (s.pin n.val).edges + 1 } else s)

/-- The end of a TACH window of 65,536 courses: the count is published, saturating, and a new window starts. -/
def tachWindow (n : Nat) (s : State) : State :=
  let x := s.pin n
  if tachOn s n && decide (x.winAt + 65536 ≤ s.clk.now) then
    s.setPin n { x with count := BitVec.ofNat 16 (min x.edges 0xFFFF), edges := 0, winAt := s.clk.now }
  else s

def execTachWindow (n : Fin 16) (s : State) : Host.Outcome State Fault Refusal := .next (if atBoundary s then tachWindow n.val s else s)

/-- LED_PERIOD. -/
def execLedPeriod (n : Fin 16) (s : State) : Host.Outcome State Fault Refusal := .next (if atBoundary s then ledTick n.val s else s)

/-- All that the pins do at a boundary. -/
def pinsTick (s : State) : State := (List.range 16).foldl (fun s n => ledTick n (tachWindow n (guardEnd n s))) s

end Sys2Proof.Machine
end

