-- ==== Sys2Proof/Machine/Dram.lean ====
section
/-! DEFINITION. DRAM channels (spec/10_dram_channels.md): refresh, power-down, deep idle, the change of data rate, the corrected-error
windows, and the training that fixes which channels are in service. -/

namespace Sys2Proof.Machine

/-- Banks of a channel's numbering in the refresh rows: stack ID × 16 + bank in the near tier, rank × 4 + bank in the bulk tier, where
one same-bank refresh covers that bank of all eight groups (R230). Log: PRESUMED 48. -/
def refreshBanks : Tier → Nat
  | .near => 64
  | .bulk => 32

/-- Channels of a tier (Table 10.1). Log: PRESUMED 48. -/
def channels : Tier → Nat
  | .near => 256
  | .bulk => 16

/-- The bank keys that one refresh covers. Log: PRESUMED 48. -/
def refreshKeys (t : Tier) (ch bank : Nat) : List Nat :=
  let c := chanKey t ch
  match t with
  | .near => [(c * 8 + bank / 16) * 32 + bank % 16]
  | .bulk => (List.range 8).map fun g => (c * 8 + bank / 4) * 32 + bank % 4 * 8 + g

/-- The channel is in service and its devices take refreshes from the controller. Log: DEDUCED 49. -/
def refreshable (s : State) (t : Tier) (ch : Nat) : Bool := tierRuns s t && (s.tier t).order.contains ch

/-- A request to one of the banks is queued. Log: DEDUCED 49. -/
def banksBusy (s : State) (t : Tier) (ks : List Nat) : Bool :=
  s.dram.queue.any fun o => decide (o.tier = t) && ks.contains (locate s t o.line).2.1

/-- A bank with no row open. -/
def Bank.close (b : Bank) : Bank := { b with row := none, keep := false }

/-- The banks are refreshed: their rows close. The refreshes still owed stand at the first of them. Log: DEDUCED 49. -/
def refreshNow (ks : List Nat) (owed : List Nat) (s : State) : State :=
  let s := ks.foldl (fun s k => s.setBank k (s.bank k).close) s
  s.setBank (ks.headD 0) { s.bank (ks.headD 0) with owed }

/-- Forced refreshes, each counted (R230). Log: DEDUCED 49. -/
def forceRefresh (t : Tier) (n : Nat) (ks : List Nat) (owed : List Nat) (s : State) : State :=
  refreshNow ks owed (s.setTier t { s.tier t with forced := sat32 (s.tier t).forced n })

/-- REFRESH_DUE: issued, with what is owed, where no request to the bank is queued; else postponed, by at most 4 intervals, the oldest
being forced at the limit. Log: DEDUCED 49. -/
def refreshDue (t : Tier) (ch bank : Nat) (s : State) : State :=
  let ks := refreshKeys t ch bank
  let owed := (s.bank (ks.headD 0)).owed
  if !refreshable s t ch then s
  else if !banksBusy s t ks then refreshNow ks [] s
  else if owed.length < 4 then s.setBank (ks.headD 0) { s.bank (ks.headD 0) with owed := owed ++ [s.clk.now] }
  else forceRefresh t 1 ks (owed.tail ++ [s.clk.now]) s

/-- REFRESH_DEBT_EXPIRE: every refresh of the bank owed for DEBT_TMR courses is forced at the boundary. Log: DEDUCED 49. -/
def refreshDebt (t : Tier) (ch bank : Nat) (s : State) : State :=
  let ks := refreshKeys t ch bank
  let owed := (s.bank (ks.headD 0)).owed
  let due (b : Nat) : Bool := decide (b + bits (s.tier t).cfg 15 8 ≤ s.clk.now)
  if refreshable s t ch && owed.any due then forceRefresh t (owed.countP due) ks (owed.filter fun b => !due b) s else s

def execRefreshDue (tier : Tier) (ch bank : Nat) (s : State) : Host.Outcome State Fault Refusal :=
  if ch < channels tier ∧ bank < refreshBanks tier then .next (whileAlive (refreshDue tier ch bank) s) else .fault .illFormed

def execRefreshDebtExpire (tier : Tier) (ch bank : Nat) (s : State) : Host.Outcome State Fault Refusal :=
  if ch < channels tier ∧ bank < refreshBanks tier then .next (if atBoundary s then refreshDebt tier ch bank s else s) else .fault .illFormed

/-! ## Power-down of a rank or stack ID (R231) -/

/-- The key of a rank. Log: PRESUMED 48. -/
def rankKey (t : Tier) (ch rank : Nat) : Nat := chanKey t ch * 8 + rank

/-- A request to the rank is queued. -/
def rankBusy (s : State) (t : Tier) (k : Nat) : Bool := s.dram.queue.any fun o => decide (o.tier = t) && decide ((locate s t o.line).1 = k)

/-- Rows of the banks whose keys satisfy a test are closed. -/
def closeRows (f : Nat → Bool) (s : State) : State :=
  { s with dram := { s.dram with banks := mapTbl {} (fun k b => if f k then b.close else b) s.dram.banks } }

/-- RANK_POWER_DOWN: no request for PD_TMR courses; a request recorded in the boundary cycle counts as in time (R34). The rows of the
rank close (Table 10.4). -/
def rankDown (t : Tier) (ch rank : Nat) (s : State) : State :=
  let k := rankKey t ch rank
  let pd := bits (s.tier t).cfg 31 24
  let x := s.rank k
  if refreshable s t ch && decide (pd ≠ 0 ∧ x.lastReq + pd ≤ s.clk.now ∧ rank < ranksOf s t ch) && !rankBusy s t k then
    closeRows (fun b => decide (b / 32 = k)) (s.setRank k { x with down := true })
  else s

/-- RANK_WAKE: a request waits for the rank, and its exit ends. -/
def rankWake (t : Tier) (ch rank : Nat) (s : State) : State :=
  let k := rankKey t ch rank
  if (s.rank k).down && rankBusy s t k then s.setRank k { lastReq := s.clk.now, down := false } else s

/-- Ranks that a channel of the tier can have (Tables 10.3, 10.7). Log: PRESUMED 48. -/
def maxRanks : Tier → Nat
  | .near => 4
  | .bulk => 8

def execRankPowerDown (tier : Tier) (ch rank : Nat) (s : State) : Host.Outcome State Fault Refusal :=
  if ch < channels tier ∧ rank < maxRanks tier then .next (if atBoundary s then rankDown tier ch rank s else s) else .fault .illFormed

def execRankWake (tier : Tier) (ch rank : Nat) (s : State) : Host.Outcome State Fault Refusal :=
  if ch < channels tier ∧ rank < maxRanks tier then .next (whileAlive (rankWake tier ch rank) s) else .fault .illFormed

/-! ## Deep idle of a tier (R232) -/

/-- A tile of the tier is mapped, or serves the bog list. Log: DEDUCED 50. -/
def tierUsed (s : State) (t : Tier) : Bool :=
  s.til.uses.any fun e => decide (e.1 / 2 ^ 22 = t.bit) && (match e.2 with | .owned _ _ => true | .overflow => true | _ => false)

/-- A migration tracker names the tier. Log: DEDUCED 50. -/
def tierMigs (s : State) (t : Tier) : Bool := s.til.migs.any fun e => decide (e.2.state ≠ 0 ∧ (e.2.srcTier = t ∨ e.2.dstTier = t))

/-- A scrub pass on the tier is running. Log: DEDUCED 50. -/
def tierScrub (s : State) (t : Tier) : Bool :=
  s.eng.queues.any fun e => e.2.cmds.any fun c => decide (c.phase = .running ∧ c.desc.opcode = 0x10 ∧ scrubTier c.desc = t)

/-- Every device of the tier goes to self-refresh: no row stays open, and the devices refresh themselves. Log: DEDUCED 49. -/
def selfRefresh (t : Tier) (s : State) : State :=
  { s with dram := { s.dram with
      banks := mapTbl {} (fun k b => if k / 65536 = t.bit then { b.close with owed := [] } else b) s.dram.banks } }

/-- TIER_SLEEP: deep idle where nothing of the tier is in use, else SLEEP_REFUSED. Log: DEDUCED 50. -/
def tierSleep (t : Tier) (s : State) : State :=
  if tierUsed s t || tierMigs s t || tierScrub s t then s.setTier t { s.tier t with status := setBit (s.tier t).status 4 }
  else selfRefresh t (s.setTier t { s.tier t with asleep := true })

def execTierSleep (fn : Fn) (tier : Tier) (s : State) : Host.Outcome State Fault Refusal := .next (adminWrite fn (tierSleep tier) s)

/-- TIER_WAKE: the WAKE command, or demand for a tile of the sleeping tier. -/
def execTierWake (fn : Option Fn) (tier : Tier) (s : State) : Host.Outcome State Fault Refusal :=
  .next (match fn with
    | some f => adminWrite f (wakeTier tier) s
    | none => whileAlive (wakeTier tier) s)

/-- TIER_WAKE_DONE: the tier leaves deep idle, and what waited for it is answered. Log: DEDUCED 50. -/
def tierWakeDone (t : Tier) (s : State) : State :=
  let x := s.tier t
  if x.waking then
    mrpWork (x.owed.foldl (fun s o => answer o.1 .ok o.2 s) (s.setTier t { x with asleep := false, waking := false, owed := [] }))
  else s

def execTierWakeDone (tier : Tier) (s : State) : Host.Outcome State Fault Refusal := .next (whileAlive (tierWakeDone tier) s)

/-! ## The data rate of the bulk tier (R222, R233) -/

/-- The rate a channel's DIMMs support (Table 10.2), coded as MAX_RATE. Log: DEDUCED 51. -/
def dimmRate (c : Chan) : Nat :=
  if c.dimmType = 2 then (if c.dimms = 1 then 4 else 2) else (if c.dimms = 1 then 2 else 1)

/-- The lowest rate of the channels in service, capped by MAX_RATE. Log: DEDUCED 51. -/
def rateFor (s : State) : Nat :=
  s.dram.bulk.order.foldl (fun r ch => min r (dimmRate (s.chan (chanKey .bulk ch)))) (bits s.dram.bulk.cfg 3 0)

/-- RATE_APPLY: new bulk requests are held from now on; those queued complete. Log: DEDUCED 51. -/
def rateApply (s : State) : State :=
  if s.dram.bulk.moving.isSome || s.dram.bulk.order.isEmpty then s
  else s.setTier .bulk { s.dram.bulk with moving := some (rateFor s) }

def execRateApply (fn : Fn) (s : State) : Host.Outcome State Fault Refusal := .next (adminWrite fn rateApply s)

/-- What a channel's training starts from: a learned result, else the applied calibration parameters of the tier (R123, R234).
 Log: DEDUCED 115. -/
def seedOf (s : State) (learned : Tbl (BitVec 128)) (t : Tier) (ch : Nat) : TrainSeed :=
  let ids := match t with | .near => [0x20, 0x21] | .bulk => [0x30]
  match learned.find? fun e => decide (e.1 = chanKey t ch) with
  | some e => .learned e.2
  | none =>
    match ids.filterMap fun i => (s.boot.applied.find? fun c => decide (c.id = i ∧ c.index = ch)).map CalFactory.value with
    | [] => .none_
    | vs => .calibration vs

/-- The channels in service of the bulk tier retrain from the learned results in the settings block (R233). Log: DEDUCED 115. -/
def retrain (s : State) : State :=
  s.dram.bulk.order.foldl (fun s ch =>
    s.setChan (chanKey .bulk ch) { s.chan (chanKey .bulk ch) with seed := seedOf s s.boot.learned .bulk ch }) s

/-- RATE_APPLY_DONE: with the queued requests complete, the channels go through self-refresh, run at the new rate or back at the old one,
retrained; the held requests proceed. Log: DEDUCED 51. -/
def rateApplyDone (ok : Bool) (s : State) : State :=
  let x := s.dram.bulk
  match x.moving with
  | none => s
  | some r =>
    if s.dram.queue.any fun o => decide (o.tier = .bulk) && !o.held then s
    else
      let x := { x with moving := none, rate := if ok then r else x.rate, status := if ok then x.status else setBit x.status 5 }
      let s := retrain (selfRefresh .bulk (s.setTier .bulk x))
      mrpWork { s with dram := { s.dram with queue := s.dram.queue.map fun o => if o.tier = .bulk then { o with held := false } else o } }

def execRateApplyDone (ok : Bool) (s : State) : Host.Outcome State Fault Refusal := .next (whileAlive (rateApplyDone ok) s)

/-! ## Corrected-error windows (R237) -/

/-- The windows of every channel start again. Log: DEDUCED 52. -/
def ceWindow (s : State) : State :=
  { s with dram := { s.dram with ceAt := some s.clk.now, chans := mapTbl {} (fun _ c => { c with window := 0 }) s.dram.chans } }

/-- CE_WINDOW_START: once at each boundary at which the course counter is a multiple of 65,536. -/
def ceWindowStart (s : State) : State := if s.clk.now % 65536 = 0 ∧ s.dram.ceAt ≠ some s.clk.now then ceWindow s else s

def execCeWindowStart (s : State) : Host.Outcome State Fault Refusal := .next (if atBoundary s then ceWindowStart s else s)

/-- CH_SUSPECT_CLEAR: clearing the bit restarts the count of the window in progress. Log: DEDUCED 52. -/
def suspectClear (t : Tier) (ch : Nat) (s : State) : State :=
  let c := s.chan (chanKey t ch)
  if c.suspect then s.setChan (chanKey t ch) { c with suspect := false, window := 0 } else s

/-- CH_SUSPECT_CLEAR: a bit that the hardware sets in the cycle of the write stays set (R9). -/
def execChSuspectClear (fn : Fn) (tier : Tier) (w : SuspectWr) (s : State) : Host.Outcome State Fault Refusal :=
  if w.ch < channels tier then .next (adminWrite fn (fun s => if w.set then s else suspectClear tier w.ch s) s) else .fault .illFormed

/-! ## Training and map-out (R222, R234 to R236) -/

/-- The station of an HBM4 channel (Table 8.1). -/
def hbmStation (ch : Nat) : Nat :=
  let (k, c) := (ch / 32, ch % 32)
  let row := if k < 4 then 2 + c / 16 else 9 - c / 16
  row * 16 + (4 * (k % 4) + c % 16 / 4)

/-- The station of a DDR5 channel (Table 8.1). -/
def ddrStation (ch : Nat) : Nat := (1 + ch % 4 + ch / 8 * 6) * 16 + (if ch % 8 < 4 then 0 else 15)

/-- The tier's record of channels is fixed: the list in service, and whether a channel is out of service (R223). -/
def setOrder (t : Tier) (s : State) : State :=
  let order := (fullOrder t).filter fun ch => decide ((s.chan (chanKey t ch)).state = 0)
  s.setTier t { s.tier t with order, mapOut := decide (order.length < channels t) }

/-- The state of an HBM4 channel: the first reason of R236 that applies. -/
def hbmState (s : State) (fails : List (Fin 256 × BitVec 2)) (ch : Nat) : Nat :=
  if stationDown s (hbmStation ch) then 3
  else if bit (Tbl.get 0 s.boot.body.hbmExclude (ch / 32)) (ch % 32) then 4
  else if (s.chan (chanKey .near ch)).checker then 1
  else if fails.any fun f => decide (f.1.val = ch) then 2
  else 0

/-- A channel after its self-test and training: one that came to training has its seed, and its result where it works.
 Log: DEDUCED 115. -/
def trained (s : State) (t : Tier) (ch st : Nat) (c : Chan) : Chan :=
  { c with state := st
           seed := if st = 0 ∨ st = 2 then seedOf s s.boot.body.learned t ch else .none_
           learned := if st = 0 then some (Config.trainResult s.serialNo (chanKey t ch)) else none }

/-- An HBM4 channel with its state set. -/
def hbmChan (fails : List (Fin 256 × BitVec 2)) (s : State) (ch : Nat) : State :=
  let st := hbmState s fails ch
  let pc := if st = 2 then (fails.foldl (fun a f => if f.1.val = ch then a ||| f.2 else a) 0#2).toNat else 0
  s.setChan (chanKey .near ch) { trained s .near ch st (s.chan (chanKey .near ch)) with failedPc := pc }

/-- HBM_TRAINING: every channel gets its state; a pseudo-channel with no working setting maps out its channel. -/
def hbmTraining (fails : List (Fin 256 × BitVec 2)) (s : State) : State :=
  if s.nid.state ≠ .training ∨ s.boot.hbmDone then s
  else
    let s := setOrder .near ((List.range 256).foldl (hbmChan fails) s)
    let s := s.setTier .near { s.dram.near with perCh := 768 }
    { s with serialNo := s.serialNo + 1, boot := { s.boot with hbmDone := true } }

def execHbmTraining (fails : List (Fin 256 × BitVec 2)) (s : State) : Host.Outcome State Fault Refusal :=
  .next (if s.alive && procRuns s .mrp then hbmTraining fails s else s)

/-- A DIMM of R222. -/
def dimmOk (d : Dimm) : Bool :=
  d.x4 && decide (d.devGb = 16 ∨ d.devGb = 24 ∨ d.devGb = 32) && decide (32 ≤ d.gib ∧ d.gib ≤ 256) && decide (d.ranks = 1 ∨ d.ranks = 2 ∨ d.ranks = 4)

/-- The two DIMMs of a channel match (R222). -/
def dimmsMatch : List Dimm → Bool
  | [a, b] => a.mrdimm == b.mrdimm && decide (a.gib = b.gib) && decide (a.ranks = b.ranks)
  | _ => true

/-- The state of a DDR5 channel: the first reason of R236 that applies. -/
def ddrState (s : State) (ds : List Dimm) (fails : List (Fin 16)) (ch : Nat) : Nat :=
  if stationDown s (ddrStation ch) then 3
  else if bit s.boot.body.ddrExclude ch then 4
  else if (s.chan (chanKey .bulk ch)).checker then 1
  else if ds = [] then 3
  else if 2 < ds.length || !ds.all dimmOk then 5
  else if !dimmsMatch ds then 6
  else if fails.any fun f => decide (f.val = ch) then 2
  else 0

/-- A DDR5 channel with its DIMMs read and its state set. -/
def ddrChan (dimms : List (List Dimm)) (fails : List (Fin 16)) (s : State) (ch : Nat) : State :=
  let ds := dimms.getD ch []
  s.setChan (chanKey .bulk ch) { trained s .bulk ch (ddrState s ds fails ch) (s.chan (chanKey .bulk ch)) with
    cap := (ds.map Dimm.gib).sum, ranks := (ds.map Dimm.ranks).sum, dimms := ds.length
    dimmType := match ds with | [] => 0 | d :: _ => if d.mrdimm then 2 else 1 }

/-- The least of some capacities; 0 of none. -/
def leastCap : List Nat → Nat
  | [] => 0
  | c :: r => r.foldl min c

/-- The rate and the capacity per channel that the channels in service allow (R222, R224). -/
def ddrLayout (s : State) : State :=
  let used := leastCap (s.dram.bulk.order.map fun ch => (s.chan (chanKey .bulk ch)).cap)
  let most := (List.range 16).foldl (fun a ch => max a (s.chan (chanKey .bulk ch)).cap) 0
  let rate := if s.dram.bulk.order.isEmpty then 0 else rateFor s
  s.setTier .bulk { s.dram.bulk with perCh := used * 512, capUsed := used, capMax := most, rate }

/-- DDR_TRAINING: the DIMMs of each channel are read and its state set; the rate and the capacity per channel follow (R222, R224). -/
def ddrTraining (dimms : List (List Dimm)) (fails : List (Fin 16)) (s : State) : State :=
  if s.nid.state ≠ .training ∨ s.boot.ddrDone then s
  else
    let s := ddrLayout (setOrder .bulk ((List.range 16).foldl (ddrChan dimms fails) s))
    { s with serialNo := s.serialNo + 1, boot := { s.boot with ddrDone := true } }

def execDdrTraining (dimms : List (List Dimm)) (fails : List (Fin 16)) (s : State) : Host.Outcome State Fault Refusal :=
  .next (if s.alive && procRuns s .mrp then ddrTraining dimms fails s else s)

end Sys2Proof.Machine
end

