-- ==== Sys2Proof/Machine/Election.lean ====
section
/-! DEFINITION. The coordinator election and the publication of endpoint IDs and routes (spec/07_fabric_transport.md, R164, R173 to R177). -/

namespace Sys2Proof.Machine

/-! ## LMC messages of the election -/

/-- Ports that are UP, but for one. -/
def upPorts (s : State) (except : Option Nat) : List Nat :=
  (List.range 32).filter fun n => decide ((s.port n).state = .up) && decide (some n ≠ except)

/-- Send an LMC message on every port that is UP, but for one. -/
def flood (bs : List Byte) (except : Option Nat) (s : State) : State :=
  (upPorts s except).foldl (fun s n => enqueue n (lmcItem bs) s) s

/-- Send an LMC message on one port, if it can carry it. -/
def sendOn (n : Nat) (bs : List Byte) (s : State) : State := if portUsable s n then enqueue n (lmcItem bs) s else s

def setElect (e : Elect) (s : State) : State := { s with xpt := { s.xpt with elect := e } }

/-- A message of the election is taken: it comes in a sequenced frame on a port that is UP (R140), and the FMP acts on it. -/
def lmcIn (p : Fin 32) (f : State → State) (s : State) : State :=
  if s.alive && decide ((s.port p.val).state = .up) && procRuns s .fmp then f (rxFree p.val 4 s) else s

/-- The node's own JOIN: kind 0, a node. Log: DESIGN CHOICE 12. -/
def ownJoin (s : State) : List Byte := joinBytes 0 s.nid.serial

/-- The end of the window of a node in CONFLICT: the bit, the log entry and its event (R175). Log: DEDUCED 40. -/
def conflictEnd (s : State) : State :=
  let s := setElect { s.xpt.elect with expiry := none, state := 5 } { s with xpt := { s.xpt with status := setBit s.xpt.status 1 } }
  recordFault { code := 0x13, scope := 6, event := some 5, detail := s.nid.serial } s

/-- The node follows a coordinator, and sends JOIN to it by the port of its ANNOUNCE; a window that is open closes (R176).
 Log: DEDUCED 40. -/
def follow (via : Fin 32) (s : State) : State :=
  let e := s.xpt.elect
  let s := if e.state = 5 then (if e.expiry.isSome then conflictEnd s else s) else setElect { e with state := 3, expiry := none } s
  sendOn via.val (ownJoin s) s

/-- The announced claim beats the node's own, or the node has no claim in the comparison; an announced serial that is left out of it beats
none (R174, R176). -/
def beatsOwn (e : Elect) (c : Claim) : Bool := !e.excl.contains c.serial && match e.own with
  | some o => e.excl.contains o.serial || claimBetter c o
  | none => true

/-! ## The claim window (R173, R175) -/

/-- The window is armed for 250 courses as the node enters service, and the claim goes out; a coordinator that had announced itself before
is followed at once (R173, R176, R352). Log: DEDUCED 40. -/
def armWindow (s : State) : State :=
  let own : Option Claim := if s.sbd.straps.coordEligible then
      some { prio := s.cfg.coordPrio, nonce := if s.trngFail then s.trngWord else Config.claimNonce s.serialNo, serial := s.nid.serial } else none
  let e := s.xpt.elect
  let twice := e.heard.any fun x => match own with | some o => decide (x.serial = o.serial ∧ x.nonce ≠ o.nonce) | none => false
  let excl := if twice && !e.excl.contains s.nid.serial then e.excl ++ [s.nid.serial] else e.excl
  let e := { e with own, excl, state := if excl.contains s.nid.serial then 5 else 1, expiry := some (s.clk.now + 250) }
  let s := setElect e { s with serialNo := s.serialNo + 1 }
  let s := match e.best with
    | some c => flood (claimBytes 0x10 c) none s
    | none => s
  match e.coord, e.coordVia with
  | some c, some v => if beatsOwn e c then follow v s else s
  | _, _ => s

/-- CLAIM_WINDOW_EXPIRE (R175). Log: DEDUCED 40. -/
def windowExpire (s : State) : State :=
  let e := s.xpt.elect
  match e.expiry with
  | none => s
  | some b =>
    if s.clk.now < b then s
    else if e.state = 5 then conflictEnd s
    else
      match e.best with
      | none => setElect { e with expiry := none, state := 4 } s
      | some c =>
        if e.own = some c then
          let s := setElect { e with expiry := none, state := 2, coord := some c, coordVia := none } s
          flood (claimBytes 0x11 c) none { s with xpt := { s.xpt with endpoint := 0 } }
        else setElect { e with expiry := none, state := 3 } s

def execClaimWindowExpire (s : State) : Host.Outcome State Fault Refusal :=
  .next (if atBoundary s && procRuns s .fmp then windowExpire s else s)

/-! ## CLAIM and ANNOUNCE (R174, R176) -/

/-- The claim is the node's own, come back (R174). -/
def isEcho (e : Elect) (c : Claim) : Bool := match e.own with
  | some o => decide (o.serial = c.serial) && decide (o.nonce = c.nonce)
  | none => false

/-- A claim joins those held; a serial claimed with two nonces is left out. Where it is the node's own, whether the node has claimed or not,
the node enters CONFLICT: with its window open until the window ends, after it at once; no claim displaces a coordinator (R174 to R176).
 Log: DEDUCED 40. -/
def hearClaim (c : Claim) (s : State) : State :=
  let e := s.xpt.elect
  let twice := (e.own.toList ++ e.heard).any fun x => decide (x.serial = c.serial) && decide (x.nonce ≠ c.nonce)
  let mine := twice && decide (c.serial = s.nid.serial)
  let e' := { e with
    heard := if e.heard.contains c then e.heard else e.heard ++ [c]
    excl := if twice && !e.excl.contains c.serial then e.excl ++ [c.serial] else e.excl }
  if mine && decide (e.state = 1) then setElect { e' with state := 5 } s
  else if mine && decide (e.state = 3 ∨ e.state = 4) then conflictEnd (setElect e' s)
  else setElect e' s

/-- CLAIM: the best claim held is sent on every other port that is UP when it changes. -/
def rxClaim (p : Fin 32) (c : Claim) (s : State) : State :=
  if isEcho s.xpt.elect c then s
  else
    let t := hearClaim c s
    match t.xpt.elect.best with
    | some b => if s.xpt.elect.best = some b then t else flood (claimBytes 0x10 b) (some p.val) t
    | none => t

def execClaim (p : Fin 32) (c : Claim) (s : State) : Host.Outcome State Fault Refusal := .next (lmcIn p (rxClaim p c) s)

/-- ANNOUNCE: the node follows, or of two coordinators the worse steps down; a new announcement goes on to the other ports.
 Log: DEDUCED 40. -/
def rxAnnounce (p : Fin 32) (c : Claim) (s : State) : State :=
  let e := s.xpt.elect
  if isEcho e c then s
  else if e.state = 2 then
    if beatsOwn e c then
      let s := flood (claimBytes 0x11 c) (some p.val) s
      let s := setElect { e with state := 3, coord := some c, coordVia := some p, joined := [] }
        { s with xpt := { s.xpt with status := setBit s.xpt.status 2 } }
      sendOn p.val (ownJoin s) s
    else s
  else if e.expiry.isSome && !beatsOwn e c then s
  else
    let s := if e.coord = some c then s else flood (claimBytes 0x11 c) (some p.val) s
    let s := setElect { e with coord := some c, coordVia := some p } s
    if e.state = 0 then s else follow p s

def execAnnounce (p : Fin 32) (c : Claim) (s : State) : Host.Outcome State Fault Refusal := .next (lmcIn p (rxAnnounce p c) s)

/-! ## Routes (R164) -/

/-- The ports that a route entry names (Table 7.7). -/
def routePorts (r : BitVec 64) : Nat :=
  let w : Word := r.setWidth 32
  if bit w 31 then 2 ^ bits w 4 0 ||| (if bit w 29 then 2 ^ bits w 12 8 else 0) else 0

/-- The FMP writes the route of an endpoint into the shadow, and its binding mask from the ports that the route entry there names, but no
entry whose LOCK bit is set there. Log: DESIGN CHOICE 39. -/
def writeRoute (d port : Nat) (alt : Option Nat) (withdraw : Bool) (s : State) : State :=
  let r := if withdraw then 0 else 2 ^ 31 + (match alt with | some a => 2 ^ 29 + a * 256 | none => 0) + port
  let s := if (s.shadowAt routeInst d).getLsbD 30 then s else s.putShadow routeInst d (BitVec.ofNat 64 r)
  let mask := routePorts (s.shadowAt routeInst d)
  if (s.shadowAt bindInst (2 * d + 1)).getLsbD 30 then s
  else (s.putShadow bindInst (2 * d) (BitVec.ofNat 64 mask)).putShadow bindInst (2 * d + 1) (if mask = 0 then 0 else 0x80000000#64)

/-- The last of a list of routes has been written: COMMIT on both tables. -/
def commitRoutes (s : State) : State := (s.setCommit routeInst).setCommit bindInst

/-! ## JOIN, ASSIGN and ROUTE_PUB (R164, R177) -/

/-- The port on which a serial's JOIN arrived. -/
def viaOf (e : Elect) (serial : BitVec 64) : Option (Fin 32) := (e.via.find? fun x => decide (x.1 = serial)).map Prod.snd

/-- Note the port on which a JOIN arrived. -/
def noteVia (serial : BitVec 64) (p : Fin 32) (e : Elect) : Elect :=
  { e with via := (serial, p) :: e.via.filter fun x => decide (x.1 ≠ serial) }

/-- The routes one node is sent: one for every endpoint ID assigned but its own, LAST on the final one. Which ports the coordinator
chooses for another node is open. Log: DESIGN CHOICE 39. -/
def publishTo (x : Joined) (s : State) : State :=
  let ids := (0 :: s.xpt.elect.joined.map fun y => y.id.toNat).filter fun d => decide (d ≠ x.id.toNat)
  (List.range ids.length).foldl (fun s i =>
    let d := ids.getD i 0
    let alt := Config.routeAlt x.serial d
    sendOn x.port.val (routePubBytes d (Config.routePort x.serial d).toNat ((alt.map BitVec.toNat).getD 0) alt.isSome false
      (decide (i + 1 = ids.length)) x.serial) s) s

/-- The coordinator publishes routes to every node, and takes its own by the ports of the JOINs. Log: DESIGN CHOICE 39. -/
def publish (s : State) : State :=
  let js := s.xpt.elect.joined
  let s := js.foldl (fun s x => if x.node then publishTo x s else s) s
  commitRoutes (js.foldl (fun s x => writeRoute x.id.toNat x.port.val none false s) s)

/-- JOIN at the coordinator: the next endpoint ID, or the one the serial already has. Log: DEDUCED 40. -/
def assignJoin (p : Fin 32) (kind : Byte) (serial : BitVec 64) (s : State) : State :=
  let e := s.xpt.elect
  match e.joined.find? fun x => decide (x.serial = serial) with
  | some x => publish (sendOn p.val (assignBytes x.id.toNat serial)
      (setElect { e with joined := e.joined.map fun y => if y.serial = serial then { y with port := p } else y } s))
  | none =>
    if 0xFFE < e.nextId then { s with xpt := { s.xpt with status := setBit s.xpt.status 3 } }
    else
      let x : Joined := { serial, id := BitVec.ofNat 12 e.nextId, port := p, node := decide (kind = 0) }
      publish (sendOn p.val (assignBytes e.nextId serial) (setElect { e with joined := e.joined ++ [x], nextId := e.nextId + 1 } s))

/-- JOIN: a reserved kind is discarded; another device relays it towards the coordinator. Log: DEDUCED 40. -/
def rxJoin (p : Fin 32) (kind : Byte) (serial : BitVec 64) (s : State) : State :=
  if 3 ≤ kind.toNat then s
  else
    let s := setElect (noteVia serial p s.xpt.elect) s
    if s.xpt.elect.state = 2 then assignJoin p kind serial s
    else match s.xpt.elect.coordVia with
      | some v => sendOn v.val (joinBytes kind serial) s
      | none => s

/-- JOIN: a coordinator assigns and publishes routes, which waits where the FMP slips (Table 2.2). -/
def execJoin (p : Fin 32) (kind : Byte) (serial : BitVec 64) (s : State) : Host.Outcome State Fault Refusal :=
  .next (if s.xpt.elect.state = 2 && !procWorks s .fmp then s else lmcIn p (rxJoin p kind serial) s)

/-- Relay a message towards a serial by the port its JOIN came by. -/
def relay (serial : BitVec 64) (bs : List Byte) (s : State) : State := match viaOf s.xpt.elect serial with
  | some v => sendOn v.val bs s
  | none => s

/-- ASSIGN: for the node itself its endpoint ID, else relayed. -/
def rxAssign (endpoint : BitVec 12) (serial : BitVec 64) (s : State) : State :=
  if serial = s.nid.serial then { s with xpt := { s.xpt with endpoint } } else relay serial (assignBytes endpoint.toNat serial) s

def execAssign (p : Fin 32) (endpoint : BitVec 12) (serial : BitVec 64) (s : State) : Host.Outcome State Fault Refusal :=
  .next (lmcIn p (rxAssign endpoint serial) s)

/-- ROUTE_PUB: for the node itself a route into the shadows, with COMMIT on LAST; else relayed. -/
def rxRoutePub (dst : BitVec 12) (port alt : BitVec 5) (altValid withdraw last : Bool) (serial : BitVec 64) (s : State) : State :=
  if serial = s.nid.serial then
    let s := writeRoute dst.toNat port.toNat (if altValid then some alt.toNat else none) withdraw s
    if last then commitRoutes s else s
  else relay serial (routePubBytes dst.toNat port.toNat alt.toNat altValid withdraw last serial) s

/-- ROUTE_PUB: route upkeep waits where the FMP slips (Table 2.2). -/
def execRoutePub (p : Fin 32) (dst : BitVec 12) (port alt : BitVec 5) (altValid withdraw last : Bool) (serial : BitVec 64) (s : State) :
    Host.Outcome State Fault Refusal :=
  .next (if procWorks s .fmp then lmcIn p (rxRoutePub dst port alt altValid withdraw last serial) s else s)

end Sys2Proof.Machine
end

