-- ==== Sys2Proof/Machine/Slots.lean ====
section
/-! DEFINITION. The register offsets that are entries of generation-managed tables (Tables 3.3, 4.10, 7.6): which instance and entry an
offset names, which bits it keeps, and which values are reserved encodings. -/

namespace Sys2Proof.Machine

/-- The instance and the entry that a BAR0 offset names; none where it is no table entry. -/
def tableSlot (off : Nat) : Option (Nat × Nat) :=
  if off % 4 ≠ 0 then none
  else if 0x28000 ≤ off ∧ off < 0x38000 then
    let o := off - 0x28000
    if o % 0x200 < 0x100 then some (admInst (o / 0x200), o % 0x200 / 4) else none
  else if 0x204000 ≤ off ∧ off < 0x208000 then some (routeInst, (off - 0x204000) / 4)
  else if 0x208000 ≤ off ∧ off < 0x210000 then some (bindInst, (off - 0x208000) / 4)
  else if 0x210000 ≤ off ∧ off < 0x214000 then
    let o := off - 0x210000
    let w := o % 0x40 / 4
    if w < 4 ∨ 8 ≤ w then some (mcInst, o / 0x40 * 16 + w) else none
  else if 0x220000 ≤ off ∧ off < 0x230000 then
    let o := off - 0x220000
    if o % 0x10 < 8 then some (streamInst, o / 0x10 * 2 + o % 0x10 / 4) else none
  else if 0xB00040 ≤ off ∧ off < 0xB00080 then some (pinInst, (off - 0xB00040) / 4)
  else none

/-- The bits an entry keeps; reserved bits read as 0 and are ignored (R6). -/
def slotMask (i k : Nat) : Word :=
  if i < 256 then 0x80000FFF#32
  else if i = routeInst then 0xE0001F1F#32
  else if i = bindInst then (if k % 2 = 0 then 0xFFFFFFFF#32 else 0xC0000000#32)
  else if i = mcInst then (if k % 16 = 1 then 0xC000007F#32 else if k % 16 = 3 then 0x0000FFFF#32 else 0xFFFFFFFF#32)
  else if i = streamInst then (if k % 2 = 0 then 0xFF000FFF#32 else 0x01FF0FFF#32)
  else 0x000000FF#32

/-- The value places no reserved encoding in the entry (R7, Tables 4.6 and 7.7). -/
def slotOk (i k : Nat) (v : Word) : Bool :=
  if i = mcInst ∧ k % 16 = 2 then decide (bits v 6 0 = 0)
  else if i = streamInst ∧ k % 2 = 1 then decide (1 ≤ bits v 24 16 ∧ bits v 24 16 ≤ 256)
  else if i = pinInst then pinPermits (bits v 3 0) k
  else true

/-- What is stored for a value written to an entry. -/
def slotValue (i k : Nat) (v : Word) : BitVec 64 := (v &&& slotMask i k).setWidth 64

end Sys2Proof.Machine
end

