-- ==== Sys2Proof/Machine/Boot.lean ====
section
/-! DEFINITION. Start-up (spec/05_start_up.md): OTP, the flash, the image slots and the boot log, self-test, calibration, the settings,
opening the ports, entering service and the health check. -/

namespace Sys2Proof.Machine

/-! ## OTP and the flash (R89, R105, R108) -/

/-- One bit of the reflected CRC-32 of IEEE 802.3. -/
def crc32Bit (c : BitVec 32) : BitVec 32 := if c.getLsbD 0 then (c >>> 1) ^^^ 0xEDB88320#32 else c >>> 1

def crc32Byte (c : BitVec 32) (b : Byte) : BitVec 32 :=
  let x := c ^^^ b.setWidth 32
  crc32Bit (crc32Bit (crc32Bit (crc32Bit (crc32Bit (crc32Bit (crc32Bit (crc32Bit x)))))))

/-- The CRC-32 of the image and the settings block (R108). -/
def crc32 (bs : List Byte) : BitVec 32 := bs.foldl crc32Byte 0xFFFFFFFF#32 ^^^ 0xFFFFFFFF#32

/-- OTP_READ: what OTP holds; a failure makes the node FATAL (R105). -/
def otpRead (o : Option Otp) (s : State) : State :=
  if s.nid.state ≠ .boot || !s.clk.locked || s.boot.otp.isSome then s
  else match o with
    | none => enterFatal [5] 0 0 s
    | some o => { s with boot := { s.boot with otp := some o }, nid := { s.nid with serial := o.serial } }

def execOtpRead (o : Option Otp) (s : State) : Host.Outcome State Fault Refusal := .next (whileAlive (otpRead o) s)

/-- FLASH_DISCOVERY: the flash on the board, as another agent left it or as the node last knew it (R89, R90).
 Log: DESIGN CHOICE 15, DESIGN CHOICE 116. -/
def flashDiscovery (d : Option FlashDev) (s : State) : State :=
  match d.or s.sbd.flash with
  | none => s
  | some d =>
    if s.nid.state ≠ .boot || s.boot.otp.isNone || s.boot.flash.isSome then s
    else { s with boot := { s.boot with flash := some d }
                  sbd := { s.sbd with flash := none, spiInfo := field 8 (flashLog d) ||| BitVec.ofNat 32 (flashMode d) } }

def execFlashDiscovery (d : Option FlashDev) (s : State) : Host.Outcome State Fault Refusal := .next (whileAlive (flashDiscovery d) s)

/-! ## The boot log (R113 to R116) -/

/-- Log entries up to the first empty byte. -/
def scanLog (d : FlashDev) : Nat → Nat → List Byte
  | 0, _ => []
  | n + 1, a => if flashAt d a = 0xFF then [] else flashAt d a :: scanLog d n (a + 1)

def bootLog (d : FlashDev) : List Byte := scanLog d logSize (logBase d)

/-- The attempt and pass entries of a slot (Table 5.8). -/
def attemptEntry (b : Bool) : Byte := if b then 0xC3 else 0x3C
def passEntry (b : Bool) : Byte := if b then 0xA5 else 0x5A

/-- The log holds a byte that is no entry. -/
def logCorrupt (l : List Byte) : Bool := l.any fun x => !decide (x = 0x3C ∨ x = 0x5A ∨ x = 0xA5 ∨ x = 0xC3)

/-- Attempts on a slot since its last pass (R114). -/
def failCount (l : List Byte) (b : Bool) : Nat :=
  l.foldl (fun n x => if x = attemptEntry b then n + 1 else if x = passEntry b then 0 else n) 0

/-- A log without an empty byte is erased, and one attempt entry programmed for each failure counted before (R116). -/
def logTidy (d : FlashDev) : FlashDev :=
  let l := bootLog d
  if l.length < logSize then d
  else flashProgram (logBase d) (List.replicate (failCount l false) (attemptEntry false) ++ List.replicate (failCount l true) (attemptEntry true))
    (flashErase (logBase d) logSize d)

/-- Append an entry, to a log that has room and afterwards has room again (R114 to R116). -/
def logAppend (x : Byte) (d : FlashDev) : FlashDev :=
  let d := logTidy d
  logTidy (flashProgram (logBase d + (bootLog d).length) [x] d)

/-! ## A slot's validity (R108 to R112) -/

/-- A directory entry (Table 5.4). -/
structure DirRec where
  typ  : Nat
  opt  : Bool
  off  : Nat
  size : Nat
  crc  : Nat

/-- A little-endian field of a byte list. -/
def leAt (bs : List Byte) (o n : Nat) : Nat := ofLeBytes ((bs.drop o).take n)

/-- The directory entries of a slot. Log: DEDUCED 18. -/
def slotDir (d : FlashDev) (base n : Nat) : List DirRec :=
  (List.range n).map fun i =>
    let e := flashRead d (base + 0x40 + 16 * i) 16
    { typ := leAt e 0 2, opt := (leAt e 2 2).testBit 0, off := leAt e 4 4, size := leAt e 8 4, crc := leAt e 12 4 }

/-- A type of Table 5.5 that is defined. -/
def recDefined (r : DirRec) : Bool := decide (1 ≤ r.typ ∧ r.typ ≤ 5)

/-- The first record of a type. -/
def recOf (rs : List DirRec) (t : Nat) : Option DirRec := rs.find? fun r => decide (r.typ = t)

def recCount (rs : List DirRec) (t : Nat) : Nat := (rs.filter fun r => decide (r.typ = t)).length

/-- The record's bytes. -/
def recBytes (d : FlashDev) (base : Nat) (r : DirRec) : List Byte := flashRead d (base + r.off) r.size

/-- The length is one of Table 5.5. -/
def recLenOk (r : DirRec) : Bool :=
  decide (1 ≤ r.size) &&
    (if r.typ = 2 then decide (r.size = 576)
     else if r.typ = 3 then decide (r.size % 8 = 0 ∧ r.size ≤ 32768)
     else if r.typ = 4 then decide (r.size % 8 = 0 ∧ r.size ≤ 262144)
     else true)

/-- Two of the records overlap, or one overlaps the header or the directory (R109). Log: DEDUCED 18. -/
def recsOverlap (rs : List DirRec) (n : Nat) : Bool :=
  rs.any (fun r => decide (r.off < 0x40 + 16 * n)) ||
    (List.range rs.length).any fun i => (List.range i).any fun j =>
      match rs[i]?, rs[j]? with
      | some a, some b => overlaps a.off a.size b.off b.size
      | _, _ => false

/-- A partition entry of CONFIG (Table 5.7). -/
def configPart (c : List Byte) (i : Nat) : Part :=
  let o := 64 + 32 * i
  { valid := true, port := Fin.ofNat 4 (leAt c o 1), tenantQuota := leAt c (o + 1) 1, colFirst := leAt c (o + 2) 1, colCount := leAt c (o + 3) 1
    streamQuota := leAt c (o + 4) 2, pagePolicy := leAt c (o + 6) 1, nearQuota := leAt c (o + 8) 4, bulkQuota := leAt c (o + 12) 4
    qMove := leAt c (o + 16) 1, qScrub := leAt c (o + 17) 1, qVoxel := leAt c (o + 18) 1, qArray := leAt c (o + 19) 1 }

/-- CONFIG breaks a range of Tables 5.6 and 5.7, or R53. -/
def configBad (c : List Byte) : Bool :=
  let n := leAt c 2 1
  let ps := (List.range n).map (configPart c)
  decide (leAt c 0 2 ≠ 1 ∨ 16 < n ∨ 3 < leAt c 3 1 ∨ 196608 < leAt c 8 4 ∨ 4194304 < leAt c 12 4 ∨ leAt c 0x1C 2 < 300 ∨ 2400 < leAt c 0x1C 2)
    || (List.range n).any (fun i => decide (3 < leAt c (64 + 32 * i) 1))
    || ps.any (fun p => decide (128 < p.tenantQuota ∨ 63 < p.colFirst ∨ 64 < p.colCount ∨ 64 < p.colFirst + p.colCount ∨ 4096 < p.streamQuota
        ∨ p.pagePolicy < 1 ∨ 3 < p.pagePolicy ∨ 196608 < p.nearQuota ∨ 4194304 < p.bulkQuota))
    || decide (128 < (ps.map Part.tenantQuota).sum ∨ 4096 < (ps.map Part.streamQuota).sum)
    || (List.range n).any fun i => (List.range i).any fun j =>
        match ps[i]?, ps[j]? with
        | some a, some b => overlaps a.colFirst a.colCount b.colFirst b.colCount
        | _, _ => false

/-- The pairs of a TABLES record. -/
def tablePairs (t : List Byte) : List (Nat × Word) :=
  (List.range (t.length / 8)).map fun i => (leAt t (8 * i) 4, BitVec.ofNat 32 (leAt t (8 * i + 4) 4))

/-- A pair names no table entry, or carries a reserved encoding (R112). -/
def pairBad (p : Nat × Word) : Bool := match tableSlot p.1 with
  | some (i, k) => !slotOk i k p.2
  | none => true

/-- The FIRMWARE record ends in a signature of what stands before it, under the key whose hash OTP holds (R110). Log: DESIGN CHOICE 14. -/
def fwSigOk (keyHash record : List Byte) : Bool :=
  let key := Config.fwKey record
  let n := record.length - 96
  decide (96 ≤ record.length) && decide (sha384 key = keyHash) && ecdsaOk key (sha384 (record.take n)) (record.drop n)

/-- The cause that makes a slot invalid, 0 where it is valid: the first of Table 5.13 that applies. Log: DESIGN CHOICE 14. -/
def slotCause (d : FlashDev) (otp : Otp) (b : Bool) : Nat :=
  let base := slotBase d b
  let h := flashRead d base 64
  let len := leAt h 8 4
  let n := leAt h 6 2
  if leAt h 0 4 ≠ 0x4E544647 then 1
  else if (crc32 (h.take 0x3C)).toNat ≠ leAt h 0x3C 4 then 2
  else if leAt h 4 2 ≠ 1 then 3
  else if slotSize d < len ∨ 0x01000000 < len then 4
  else if n = 0 ∨ 32 < n then 5
  else
    let dir := slotDir d base n
    let rs := dir.filter recDefined
    if rs.any fun r => decide (len < r.off + r.size) then 6
    else if recsOverlap rs n then 7
    else if rs.any fun r => decide ((crc32 (recBytes d base r)).toNat ≠ r.crc) then 8
    else if recCount rs 1 ≠ 1 ∨ recCount rs 2 ≠ 1 ∨ 1 < recCount rs 3 ∨ 1 < recCount rs 4 ∨ 1 < recCount rs 5 || rs.any fun r => !recLenOk r then 9
    else if dir.any fun r => !recDefined r && !r.opt then 10
    else
      let bytesOf (t : Nat) : List Byte := match recOf rs t with | some r => recBytes d base r | none => []
      if !fwSigOk otp.fwKeyHash (bytesOf 1) || decide (Config.fwVersion (bytesOf 1) ≠ BitVec.ofNat 32 (leAt h 12 4)) then 11
      else if configBad (bytesOf 2) then 12
      else if (tablePairs (bytesOf 4)).any pairBad then 13
      else 0

/-! ## SLOT_CHOICE (R113 to R117) -/

/-- Where a record of the chosen slot lies. -/
def slotRec (d : FlashDev) (b : Bool) (t : Nat) : Option Rec :=
  let base := slotBase d b
  (recOf (slotDir d base (leAt (flashRead d base 64) 6 2)) t).map fun r => { off := base + r.off, len := r.size }

/-- The cause of a slot not run: exhausted, invalid, or 0. -/
def slotVerdict (d : FlashDev) (otp : Otp) (l : List Byte) (b : Bool) : Nat := if 3 ≤ failCount l b then 14 else slotCause d otp b

/-- Run the slot: its attempt entry is written and its records noted. -/
def runSlot (d : FlashDev) (b : Bool) (st : Word) (cause : Word) (s : State) : State :=
  let st := st ||| flag 0 true ||| flag 1 b ||| flag 2 (decide (b ≠ s.sbd.straps.bootSlotSel))
  { s with boot := { s.boot with
      status := st, cause, flash := some (logAppend (attemptEntry b) d)
      firmware := slotRec d b 1, config := slotRec d b 2, userCal := slotRec d b 3, tables := slotRec d b 4, design := slotRec d b 5 } }

/-- SLOT_CHOICE: the strapped slot, then the other, each with fewer than three failures and valid; else the no-image state. -/
def slotChoice (s : State) : State :=
  match s.boot.otp, s.boot.flash with
  | some otp, some d =>
    if s.nid.state ≠ .boot || bit s.boot.status 0 || bit s.boot.status 9 then s
    else
      let bad := logCorrupt (bootLog d)
      let d := logTidy (if bad then flashErase (logBase d) logSize d else d)
      let l := bootLog d
      let st := s.boot.status ||| field 20 (min 15 (failCount l true)) ||| field 16 (min 15 (failCount l false)) ||| flag 8 bad
      let a := s.sbd.straps.bootSlotSel
      let byte (b : Bool) (c : Nat) : Word := if b then field 8 c else field 0 c
      let va := slotVerdict d otp l a
      if va = 0 then runSlot d a st s.boot.cause s
      else
        let vb := slotVerdict d otp l (!a)
        let cause := s.boot.cause ||| byte a va
        if vb = 0 then runSlot d (!a) st cause s
        else { s with boot := { s.boot with flash := some d, status := st ||| flag 9 true, cause := cause ||| byte (!a) vb } }
  | _, _ => s

def execSlotChoice (s : State) : Host.Outcome State Fault Refusal := .next (whileAlive slotChoice s)

/-- The running slot (FLT_BOOT_STATUS). -/
def slotChosen (s : State) : Bool := bit s.boot.status 0
def runningSlot (s : State) : Bool := bit s.boot.status 1

/-- The bytes of a record noted at the choice. -/
def bootBytes (s : State) (r : Option Rec) : List Byte := match r, s.boot.flash with
  | some r, some d => flashRead d r.off r.len
  | _, _ => []

/-- PROCESSOR_START: the four processors run, NID_FW_VERSION is set, and BOOT ends (R25, R104). -/
def processorStart (s : State) : State :=
  match s.boot.flash with
  | some d =>
    if s.nid.state ≠ .boot || !slotChosen s then s
    else
      let v := BitVec.ofNat 32 (leAt (flashRead d (slotBase d (runningSlot s)) 64) 12 4)
      let s := [Proc.fmp, .mrp, .sep, .mnp].foldl (fun s p => s.setWd p.idx { s.wd p.idx with started := true }) s
      { s with nid := { s.nid with fw := v, state := .selftest } }
  | none => s

def execProcessorStart (s : State) : Host.Outcome State Fault Refusal := .next (whileAlive processorStart s)

/-! ## SELFTEST -/

/-- When every work of SELFTEST is done the node enters TRAINING, and the pins start (R101, R104). Log: DEDUCED 19. -/
def toTraining (s : State) : State :=
  let b := s.boot
  if s.nid.state = .selftest && b.settingsDone && b.meshDone && b.eccDone && b.calDone && b.tablesDone && s.cfg.loaded then
    pinsStart { s with nid := { s.nid with state := .training } }
  else s

/-- A work of SELFTEST that is still to do. Log: DEDUCED 19. -/
def inSelftest (isDone : State → Bool) (f : State → State) (s : State) : State :=
  if s.nid.state = .selftest && !isDone s then toTraining (f s) else s

/-! ### Settings (R118, R119) -/

/-- Where a settings slot starts, its bytes, and the most its body may hold (Tables 5.2, 5.9). -/
def setBase (d : FlashDev) (k : Fin 2) : Nat := logBase d + (if k = 0 then 0x10000 else 0x80000)
def setSize : Nat := 0x70000
def setBodyMax : Nat := 458688

/-- What the header of a settings slot says, if its MAGIC, FORMAT and CRC are correct (R118, Table 5.9). -/
def readSet (d : FlashDev) (k : Fin 2) : Option SetSlot :=
  let h := flashRead d (setBase d k) 64
  if leAt h 0 4 = 0x54455347 ∧ leAt h 4 2 = 1 ∧ leAt h 0x3C 4 = (crc32 (h.take 0x3C)).toNat then
    some { version := BitVec.ofNat 16 (leAt h 6 2), sequence := BitVec.ofNat 32 (leAt h 8 4), length := leAt h 0xC 4
           aad := h.take 0x14, nonce := (h.drop 0x14).take 12, tag := (h.drop 0x20).take 16 }
  else none

/-- The header bytes that are additional data of the body's tag: 0x00 to 0x13. -/
def setHead (version : BitVec 16) (sequence : Word) (length : Nat) (writer : Word) : List Byte :=
  leBytes 4 0x54455347 ++ leBytes 2 1 ++ leBytes 2 version.toNat ++ leBytes 4 sequence.toNat ++ leBytes 4 length ++ leBytes 4 writer.toNat

/-- The valid header of a slot. -/
def validSlot (s : State) (k : Fin 2) : Option SetSlot := s.boot.flash.bind fun d => readSet d k

/-- Sequence a is newer than b (R118). Log: DESIGN CHOICE 17. -/
def newerSeq (a b : Word) : Bool := decide (1 ≤ (a - b).toNat ∧ (a - b).toNat ≤ 2 ^ 31 - 1)

/-- The newer of the two valid slots that satisfy a test; where neither is newer, slot 0. Log: DESIGN CHOICE 17. -/
def newestSlot (s : State) (f : Fin 2 → SetSlot → Bool) : Option (Fin 2 × SetSlot) :=
  match (validSlot s 0).filter (f 0), (validSlot s 1).filter (f 1) with
  | some a, some b => if newerSeq b.sequence a.sequence then some (1, b) else some (0, a)
  | some a, none => some (0, a)
  | none, some b => some (1, b)
  | none, none => none

/-- The newest valid header. -/
def newestHdr (s : State) : Option (Fin 2 × SetSlot) := newestSlot s fun _ _ => true

/-- A settings body in the model's own order of fields. Log: DESIGN CHOICE 17. -/
def bodyBytes (b : SetBody) : List Byte :=
  [if b.userCal then 1 else 0, BitVec.ofNat 8 b.maxRate] ++ leBytes 4 b.ddrExclude.toNat
    ++ ((List.range 8).flatMap fun k => leBytes 4 (Tbl.get 0 b.hbmExclude k).toNat)
    ++ leBytes 2 b.pins.length ++ (b.pins.flatMap fun p => BitVec.ofNat 8 p.1 :: (p.2 ++ List.replicate 48 0).take 48)
    ++ (b.learned.flatMap fun c => leBytes 2 c.1 ++ leBytes 16 c.2.toNat)

/-- The body that such bytes spell. Log: DESIGN CHOICE 17. -/
def bodyOf (bs : List Byte) : SetBody :=
  let n := leAt bs 38 2
  let rest := bs.drop (40 + 49 * n)
  { userCal := decide (leAt bs 0 1 ≠ 0), maxRate := leAt bs 1 1, ddrExclude := BitVec.ofNat 32 (leAt bs 2 4)
    hbmExclude := (List.range 8).foldl (fun m k => Tbl.put 0 m k (BitVec.ofNat 32 (leAt bs (6 + 4 * k) 4))) []
    pins := (List.range n).map fun i => (leAt bs (40 + 49 * i) 1, (bs.drop (41 + 49 * i)).take 48)
    learned := (List.range (rest.length / 18)).map fun i => (leAt rest (18 * i) 2, BitVec.ofNat 128 (leAt rest (18 * i + 2) 16)) }

/-- The bytes of a body in the layout of a settings version, and back. Log: DESIGN CHOICE 17. -/
def layOut (v : BitVec 16) (bs : List Byte) : List Byte := (Config.settingsLayout v bs.length ⟨bs.toArray, rfl⟩).toList
/-- Log: DESIGN CHOICE 17. -/
def layBack (v : BitVec 16) (bs : List Byte) : List Byte := ((Config.settingsLayout v bs.length).symm ⟨bs.toArray, rfl⟩).toList

/-- The body of a valid slot, if its tag verifies under the fuse key (R118). Log: DESIGN CHOICE 17. -/
def setBodyIn (s : State) (k : Fin 2) (x : SetSlot) : Option SetBody :=
  match s.boot.flash, s.boot.otp with
  | some d, some o =>
    let ks := roundKeys o.fuseKey
    let n := ofBeBytes x.nonce
    let ct := flashRead d (setBase d k + 64) (min x.length setBodyMax)
    if 1 ≤ x.length ∧ x.length ≤ setBodyMax ∧ gcmTagWith ks n x.aad ct = x.tag then some (bodyOf (layBack x.version (gcmXor ks n ct))) else none
  | _, _ => none

/-- The bytes of a slot that holds a body: the header of Table 5.9, then the encrypted body. -/
def setBytes (fuse : BitVec 256) (version : BitVec 16) (sequence writer : Word) (nonce : List Byte) (body : SetBody) : List Byte :=
  let ks := roundKeys fuse
  let ct := gcmXor ks (ofBeBytes nonce) (layOut version (bodyBytes body))
  let aad := setHead version sequence ct.length writer
  let h := aad ++ nonce ++ gcmTagWith ks (ofBeBytes nonce) aad ct ++ List.replicate 12 0
  h ++ leBytes 4 (crc32 h).toNat ++ ct

/-- The settings in use go into the registers they are saved from (R237, R245, R359). -/
def applyBody (b : SetBody) (s : State) : State :=
  let s := s.setTier .near { s.dram.near with exclude := b.hbmExclude }
  let s := s.setTier .bulk { s.dram.bulk with exclude := Tbl.put 0 [] 0 b.ddrExclude
                                              cfg := (s.dram.bulk.cfg &&& ~~~(15#32)) ||| BitVec.ofNat 32 b.maxRate }
  b.pins.foldl (fun s p => s.setSecPort p.1 { s.secPort p.1 with pin := some p.2 }) s

/-- SETTINGS_READ: the newest valid slot whose version the firmware reads and whose tag verifies, else factory values and a write of the
node's own. Log: DESIGN CHOICE 17. -/
def settingsRead (s : State) : State :=
  match newestSlot s fun k x => Config.settingsReads s.nid.fw x.version && (setBodyIn s k x).isSome with
  | some (k, x) =>
    let b := (setBodyIn s k x).getD {}
    let s := applyBody b s
    { s with boot := { s.boot with settingsDone := true, body := b, learned := b.learned, ownSlot := some k, settings := BitVec.ofNat 32 k.val } }
  | none => { s with boot := { s.boot with settingsDone := true, status := setBit s.boot.status 3, writeDue := true, settings := 2 } }

def execSettingsRead (s : State) : Host.Outcome State Fault Refusal :=
  .next (whileAlive (inSelftest (fun s => s.boot.settingsDone) settingsRead) s)

/-- The settings body as the firmware writes it: the flag that enables USER_CAL, and what the registers hold now. -/
def bodyNow (s : State) : SetBody :=
  { userCal := s.boot.body.userCal, hbmExclude := s.dram.near.exclude, ddrExclude := Tbl.get 0 s.dram.bulk.exclude 0
    maxRate := bits s.dram.bulk.cfg 3 0, pins := s.sec.ports.filterMap fun e => e.2.pin.map fun h => (e.1, h)
    learned := s.dram.chans.filterMap fun e => e.2.learned.map fun r => (e.1, r) }

/-- A settings write begins: the slot that the firmware owns, or where it owns none the one that does not hold the newest valid header, is
erased, the next sequence number noted first. A write that falls due during an IMAGE_WRITE waits; with TRNG_FAIL set it is held back (R119,
R352, R378). Log: DESIGN CHOICE 17. -/
def settingsErase (d : FlashDev) (s : State) : State :=
  if !s.boot.writeDue || !s.boot.writing.isEmpty || !s.boot.settingsDone then s
  else if s.trngFail then { s with sec := { s.sec with status := setBit s.sec.status 4 } }
  else
    let newest := newestHdr s
    let k : Fin 2 := s.boot.ownSlot.getD (match newest with | some (k, _) => 1 - k | none => 0)
    let seq : Word := match newest with | some (_, y) => y.sequence + 1 | none => 1
    { s with boot := { s.boot with flash := some (flashErase (setBase d k) setSize d), setWriting := some (k, seq) } }

/-- The erased slot is programmed, and the write is done. Log: DESIGN CHOICE 17. -/
def settingsProgram (d : FlashDev) (o : Otp) (k : Fin 2) (seq : Word) (s : State) : State :=
  let b := bodyNow s
  let bytes := setBytes o.fuseKey (Config.settingsVersion s.nid.fw) seq s.nid.fw (Config.settingsNonce s.serialNo).toList b
  { s with serialNo := s.serialNo + 1, sec := { s.sec with drbgReqs := s.sec.drbgReqs + 1 }, boot := { s.boot with
      flash := some (flashProgram (setBase d k) bytes d), learned := b.learned
      ownSlot := some k, setWriting := none, writeDue := false, settings := setBit s.boot.settings 2 } }

/-- SETTINGS_WRITE: the erase of the slot, and as the next such command its programming; a fall of POR_N between them leaves the slot
invalid (R119, R120). Log: DESIGN CHOICE 116. -/
def settingsWrite (s : State) : State :=
  match s.boot.flash, s.boot.otp, s.boot.setWriting with
  | some d, some o, some (k, seq) => settingsProgram d o k seq s
  | some d, some _, none => settingsErase d s
  | _, _, _ => s

def execSettingsWrite (s : State) : Host.Outcome State Fault Refusal := .next (whileAlive settingsWrite s)

/-! ### Mesh and ECC self-test (R121, R122, R188) -/

/-- Hops between two stations: X, Y, and 1 where they lie on one station only through the bridge (R180). -/
def stationX (st : Nat) : Nat := st % 16
def stationY (st : Nat) : Nat := st / 16
def stationDie (st : Nat) : Nat := stationY st / 6

/-- The bridge column that serves a column (R180). -/
def bridgeCol (x : Nat) : Nat := if x < 4 then 1 else if x < 8 then 5 else if x < 12 then 10 else 14

def absDiff (a b : Nat) : Nat := (a - b) + (b - a)

/-- Hops on the shortest way between two stations, across a bridge column where they lie on different dies (R180). -/
def hops (a b : Nat) : Nat :=
  let y := absDiff (stationY a) (stationY b)
  if stationDie a = stationDie b then absDiff (stationX a) (stationX b) + y
  else ([1, 5, 10, 14].map fun c => absDiff (stationX a) c + absDiff c (stationX b)).foldl min 64 + y

/-- Stations that may not be disabled (R188). -/
def stationKept (st : Nat) : Bool :=
  [1, 5, 10, 14].contains (stationX st) || [80, 82, 83, 87, 92, 93, 98, 99, 103, 108].contains st
    || decide (stationY st = 1) || decide (stationY st = 10)

/-- The set of disabled stations keeps the constraints of R188. -/
def disabledOk (l : List Nat) : Bool :=
  l.all (fun st => !stationKept st)
    && decide ((l.filter fun st => decide (stationDie st = 0)).length ≤ 2 ∧ (l.filter fun st => decide (stationDie st = 1)).length ≤ 2)
    && l.all fun a => l.all fun b => decide (a = b ∨ 3 ≤ hops a b)

/-- The answer that Table 5.10 expects to a pattern. -/
def eccExpected (p : EccPattern) (r : EccResult) : Bool :=
  match p, r with
  | .clean, .noError => true
  | .singleWalk a, .corrected b => decide (a = b)
  | .double _, .uncorrectable changed => !changed
  | .checkOnly, .uncorrectable _ => true
  | _, _ => false

/-- The checkers that gave an unexpected answer to a pattern (R121, R122). Log: DEDUCED 18. -/
def eccFailed (replies : List EccReply) : List EccUnit :=
  ((replies.filter fun r => !eccExpected r.pattern r.result).map EccReply.unit).eraseDups

/-- ECC_SELFTEST: a failed DRAM checker takes its channel out of service; a failed SRAM checker makes the node FATAL. The checkers of a
disabled station are neither tested nor counted. Log: DEDUCED 18. -/
def eccSelftest (replies : List EccReply) (s : State) : State :=
  let bad := eccFailed replies
  let h := (bad.filterMap fun u => match u with | .hbm c => some c.val | _ => none).filter fun c => !stationDown s (hbmStation c)
  let d := (bad.filterMap fun u => match u with | .ddr c => some c.val | _ => none).filter fun c => !stationDown s (ddrStation c)
  let mark (t : Tier) (s : State) (c : Nat) : State := s.setChan (chanKey t c) { s.chan (chanKey t c) with checker := true }
  let s := d.foldl (mark .bulk) (h.foldl (mark .near) s)
  let s := { s with boot := { s.boot with eccDone := true, selftest := field 16 h.length ||| BitVec.ofNat 32 d.length } }
  match bad.findSome? fun u => match u with | .sram k => some k | _ => none with
  | some k => enterFatal [6] 0 (BitVec.ofNat 64 k) s
  | none => s

/-- The answers of the checkers of the near tier's channels, the bulk tier's channels and the on-chip structures. -/
def eccReplies (hbm : List (Fin 256 × EccPattern × EccResult)) (ddr : List (Fin 16 × EccPattern × EccResult))
    (sram : List (Nat × EccPattern × EccResult)) : List EccReply :=
  hbm.map (fun (c, p, r) => { unit := .hbm c, pattern := p, result := r })
    ++ ddr.map (fun (c, p, r) => { unit := .ddr c, pattern := p, result := r })
    ++ sram.map (fun (k, p, r) => { unit := .sram k, pattern := p, result := r })

def execEccSelftest (hbm : List (Fin 256 × EccPattern × EccResult)) (ddr : List (Fin 16 × EccPattern × EccResult))
    (sram : List (Nat × EccPattern × EccResult)) (s : State) : Host.Outcome State Fault Refusal :=
  .next (whileAlive (fun s =>
    if s.boot.meshDone then inSelftest (fun s => s.boot.eccDone) (eccSelftest (eccReplies hbm ddr sram)) s else s) s)

/-! ### Calibration (R123) -/

/-- Indexes of a calibration parameter; none where its ID is reserved (Table 5.11). Log: DEDUCED 18. -/
def calRange (id : Nat) : Option Nat :=
  if id = 1 ∨ id = 2 ∨ id = 3 then some 256
  else if id = 0x10 then some 64
  else if id = 0x20 ∨ id = 0x21 then some 256
  else if id = 0x30 then some 16
  else if id = 0x40 then some 64
  else none

/-- Values, clamps and skips so far. -/
structure CalAcc where
  vals    : List CalFactory
  clamped : Nat := 0
  skipped : Nat := 0

/-- One USER_CAL entry: the factory value plus the delta, within the factory bounds. Log: DEDUCED 18. -/
def calEntry (factory : List CalFactory) (e : List Byte) (a : CalAcc) : CalAcc :=
  let id := leAt e 0 2
  let idx := leAt e 2 2
  let delta := (BitVec.ofNat 16 (leAt e 4 2)).toInt
  match calRange id, factory.find? fun f => decide (f.id = id) && decide (f.index = idx) with
  | some n, some f =>
    if n ≤ idx then { a with skipped := a.skipped + 1 }
    else
      let v := f.value + delta
      let c := max f.lo (min f.hi v)
      { a with vals := a.vals.map fun x => if x.id = id ∧ x.index = idx then { x with value := c } else x
               clamped := if c = v then a.clamped else a.clamped + 1 }
  | _, _ => { a with skipped := a.skipped + 1 }

/-- CALIBRATION_APPLY: factory values, and on them the USER_CAL record where the settings in use enable it. -/
def calibrationApply (s : State) : State :=
  let factory := match s.boot.otp with | some o => o.cal | none => []
  let rec_ := bootBytes s s.boot.userCal
  if s.boot.userCal.isSome && s.boot.body.userCal then
    let a := (List.range (rec_.length / 8)).foldl (fun a i => calEntry factory ((rec_.drop (8 * i)).take 8) a) { vals := factory }
    { s with boot := { s.boot with
        calDone := true, applied := a.vals, status := setBit s.boot.status 4
        cal := field 16 (min a.clamped 0xFFFF) ||| BitVec.ofNat 32 (min a.skipped 0xFFFF) } }
  else { s with boot := { s.boot with calDone := true, applied := factory } }

def execCalibrationApply (s : State) : Host.Outcome State Fault Refusal :=
  .next (whileAlive (fun s => if s.boot.settingsDone then inSelftest (fun s => s.boot.calDone) calibrationApply s else s) s)

/-! ### CONFIG and TABLES (R47, R52, R111, R112, R155, R383) -/

/-- The station of an array column (Table 8.1). -/
def colStation (k : Nat) : Nat := if k < 32 then 4 * 16 + k / 2 else 7 * 16 + (k - 32) / 2

/-- The columns of a partition are EMPTY; one on a disabled station is UNAVAILABLE. -/
def giveColumns (p : Nat) (x : Part) (s : State) : State :=
  (List.range x.colCount).foldl (fun s i =>
    let k := x.colFirst + i
    s.setCol k { s.col k with part := p, state := if stationDown s (colStation k) then .unavailable else .empty }) s

/-- The configuration of a port from CONFIG (R155). -/
def portConfig (c : Cfg) (n : Nat) (w : Word) : Word :=
  (w &&& ~~~(0x60#32)) ||| flag 5 (bit c.leanPorts n) ||| flag 6 (bit c.sealedPorts n)

/-- PARTITION_LOAD: the CONFIG record in force. -/
def partitionLoad (s : State) : State :=
  let c := bootBytes s s.boot.config
  let n := leAt c 2 1
  let cfg : Cfg := { loaded := true, adminPort := Fin.ofNat 4 (leAt c 3 1), coordPrio := BitVec.ofNat 8 (leAt c 4 1), minNear := leAt c 8 4, minBulk := leAt c 12 4
                     leanPorts := BitVec.ofNat 32 (leAt c 0x10 4), sealedPorts := BitVec.ofNat 32 (leAt c 0x14 4)
                     disabledPorts := BitVec.ofNat 32 (leAt c 0x18 4), powerCap := leAt c 0x1C 2 }
  let s := { s with cfg, nid := { s.nid with partitions := n }, pwr := { s.pwr with cap := BitVec.ofNat 32 (leAt c 0x1C 2) } }
  let s := (List.range n).foldl (fun s i => giveColumns i (configPart c i) (s.setPart i (configPart c i))) s
  let s := (List.range 64).foldl (fun s k => if stationDown s (colStation k) then s.setCol k { s.col k with state := .unavailable } else s) s
  (List.range 32).foldl (fun s p => s.setPort p { s.port p with cfg := portConfig cfg p (s.port p).cfg }) s

def execPartitionLoad (s : State) : Host.Outcome State Fault Refusal :=
  .next (whileAlive (fun s => if s.boot.meshDone then inSelftest (fun s => s.cfg.loaded) partitionLoad s else s) s)

/-- One pair of TABLES: both copies at once; a stream so opened is allocated, to no partition. -/
def loadPair (p : Nat × Word) (s : State) : State :=
  match tableSlot p.1 with
  | none => s
  | some (i, k) =>
    let s := s.putBoth i k (slotValue i k p.2)
    if i = streamInst ∧ k % 2 = 0 then
      s.setStream (k / 2) { s.stream (k / 2) with alloc := bit p.2 31, part := 16, tenant := bits p.2 30 24 }
    else s

/-- TABLES_LOAD (R47, R112). Log: DEDUCED 19. -/
def tablesLoad (s : State) : State :=
  let s := (tablePairs (bootBytes s s.boot.tables)).foldl (fun s p => loadPair p s) s
  { s with boot := { s.boot with tablesDone := true } }

def execTablesLoad (s : State) : Host.Outcome State Fault Refusal :=
  .next (whileAlive (inSelftest (fun s => s.boot.tablesDone) tablesLoad) s)

/-! ## TRAINING -/

/-- Milliseconds as a boot time reads them. -/
def satMs (ms : Nat) : Nat := min ms 0xFFFF

/-- PORTS_OPEN: every port in IDLE goes to DETECT, or to DISABLED (R124, R131, R188). -/
def portsOpen (ms : Nat) (s : State) : State :=
  if s.nid.state ≠ .training || !s.boot.hbmDone || s.boot.portsOpened then s
  else
    let s := (List.range 32).foldl (fun s n =>
      if (s.port n).state ≠ .idle then s
      else if bit s.cfg.disabledPorts n || stationDown s (portStation n) then s.setPort n { s.port n with state := .disabled }
      else toDetect n s) s
    { s with boot := { s.boot with portsOpened := true, times := (s.boot.times &&& 0xFFFF0000#32) ||| BitVec.ofNat 32 (satMs ms) } }

def execPortsOpen (ms : Nat) (s : State) : Host.Outcome State Fault Refusal := .next (if atBoundary s then portsOpen ms s else s)

/-- The words of a byte list. -/
def leWords (bs : List Byte) : List Word := (List.range (bs.length / 4)).map fun i => BitVec.ofNat 32 (leAt bs (4 * i) 4)

/-- The image's array design could not be loaded: its range is cleared and the bit set. -/
def designFailed (cols : List Nat) (s : State) : State :=
  let s := cols.foldl (fun s k => if (s.col k).state = .unowned ∨ (s.col k).state = .unavailable then s else wipeColumn k s) s
  dropLoader .design { s with boot := { s.boot with status := setBit s.boot.status 7 } }

/-- The phases of TRAINING that come before the array design are done (Table 5.1). -/
def designNext (s : State) : Bool :=
  decide (s.nid.state = .training) && s.boot.hbmDone && s.boot.portsOpened && s.boot.ddrDone && s.boot.design.isSome && !s.boot.designDone

/-- SEDGE_DESIGN_LOAD: the header, the range, then the stream as LOAD_FRAMES would load it (R335). Log: DEDUCED 19. -/
def designLoad (s : State) : State :=
  let d := bootBytes s s.boot.design
  let first := leAt d 2 1
  let count := leAt d 3 1
  let n := leAt d 4 4
  let cols := ((List.range count).map fun i => first + i).filter fun k => decide (k < 64)
  let s := { s with boot := { s.boot with designDone := true } }
  if d.length < 16 ∨ leAt d 0 2 ≠ 1 ∨ count < 1 ∨ 64 < count ∨ 64 < first + count ∨ n % 4 ≠ 0 ∨ n < 8 ∨ 0x400000 < n ∨ d.length < 16 + n
      || cols.any fun k => decide ((s.col k).state = .unowned ∨ (s.col k).state = .unavailable) then designFailed cols s
  else
    let x : Loader := { id := .design, tenant := 0, words := leWords ((d.drop 16).take n), closed := true, range := cols, claimed := cols }
    let s := cols.foldl (fun s k => s.setCol k { s.col k with state := .loading, loader := some .design, cleared := false }) s
    let s := runStream .design (n / 4 + 1) { s with arr := { s.arr with loaders := s.arr.loaders ++ [x] } }
    match loaderOf s .design with
    | some y => if y.ended = some .ok then dropLoader .design s else designFailed cols s
    | none => s

def execSedgeDesignLoad (s : State) : Host.Outcome State Fault Refusal :=
  .next (whileAlive (fun s => if designNext s then designLoad s else s) s)

/-- The channels out of service are recorded at the end of TRAINING (Table 18.4). -/
def recordMapouts (s : State) : State :=
  let one (t : Tier) (s : State) (ch : Nat) : State :=
    let st := (s.chan (chanKey t ch)).state
    if st = 0 then s
    else recordFault { code := 0x30, scope := 5, event := some 0x130, object := BitVec.ofNat 16 ch, detail := BitVec.ofNat 64 (t.bit + 2 * st) } s
  (List.range 16).foldl (one .bulk) ((List.range 256).foldl (one .near) s)

/-- Request credits are advertised on every port that came up before (R125). Log: DEDUCED 86. -/
def openCredits (s : State) : State :=
  (List.range 32).foldl (fun s n =>
    let p := s.port n
    if (p.state = .up ∨ p.state = .retrain) ∧ !p.vc0Open then
      let c := p.credit 0
      s.setPort n { p.setCredit 0 { c with ret := c.ret + BitVec.ofNat 8 (rxBuffer 0) } with vc0Open := true }
    else s) s

/-- The streams of the image start their ramps (R125). -/
def startRamps (s : State) : State :=
  { s with streams := mapTbl {} (fun _ x => if x.alloc then { x with windowNow := 1, rampBase := s.clk.now, rampAt := s.clk.now } else x) s.streams }

/-- Every host port that is out of PERST_N answers normally (R126). Log: DEDUCED 86. -/
def endRetry (s : State) : State :=
  (List.range 4).foldl (fun s p => if (s.host p).perst then s.setHost p { s.host p with retry := false } else s) s

/-- SBD_STRAPS (Table 4.11). -/
def strapsWord (x : Straps) : Word :=
  flag 4 x.coordEligible ||| field 2 x.smbAddr.toNat ||| flag 1 x.bootSlotSel ||| flag 0 x.monitorEn

/-- NID_STEPPING: B0 (Table 1.6). -/
def steppingWord : Word := 0x10

/-- The measurements of Table 16.3, index 1 first. -/
def measures (s : State) : List (List Byte) :=
  let hash (present : Bool) (r : Option Rec) : List Byte :=
    if present && r.isSome then (sha384 (bootBytes s r)) else List.replicate 48 0
  [Config.romHash.toList, hash true s.boot.firmware, hash true s.boot.config, hash true s.boot.tables,
   hash (!bit s.boot.status 7) s.boot.design, hash (bit s.boot.status 4) s.boot.userCal,
   wordBytes [steppingWord, s.nid.fw, s.boot.status, strapsWord s.sbd.straps]]

/-- ENTER_SERVICE: the tile counts, READY or DEGRADED, and what starts with service (R106, R125, R126, R173, R236). -/
def enterService (ms : Nat) (s : State) : State :=
  if s.nid.state ≠ .training || !s.boot.hbmDone || !s.boot.ddrDone || !s.boot.portsOpened || (s.boot.design.isSome && !s.boot.designDone) then s
  else
    let near := s.dram.near.order.length * s.dram.near.perCh
    let bulk := s.dram.bulk.order.length * s.dram.bulk.perCh
    let full := decide (s.cfg.minNear ≤ near ∧ s.cfg.minBulk ≤ bulk)
    let s := { s with til := { s.til with nearAll := near, bulkAll := bulk }, nid := { s.nid with near, bulk } }
    let s := recordMapouts s
    let s := { s with
      nid := { s.nid with state := if full then .ready else .degraded }
      boot := { s.boot with
        status := if full then s.boot.status else setBit s.boot.status 5
        times := (s.boot.times &&& 0xFFFF#32) ||| field 16 (satMs ms), healthAt := some (s.clk.now + 250000) } }
    let s := { s with sec := { s.sec with measured := some (measures s) } }
    armWindow (endRetry (startRamps (openCredits s)))

def execEnterService (ms : Nat) (s : State) : Host.Outcome State Fault Refusal := .next (if atBoundary s then enterService ms s else s)

/-- HEALTH_CHECK_PASS: 250,000 courses in service without a watchdog restart; one recorded in the cycle in which the window ends is within
it, so the entry follows that cycle (R34, R115). -/
def healthPass (s : State) : State :=
  match s.boot.healthAt, s.boot.flash with
  | some b, some d =>
    if s.nid.state.serving && decide (b < s.clk.now ∨ (b = s.clk.now ∧ s.clk.cycle ≠ 0)) && !s.boot.healthBad && !bit s.boot.status 6 then
      { s with boot := { s.boot with flash := some (logAppend (passEntry (runningSlot s)) d), status := setBit s.boot.status 6 } }
    else s
  | _, _ => s

def execHealthCheckPass (s : State) : Host.Outcome State Fault Refusal := .next (whileAlive healthPass s)

/-- CONFIG_RETRY_END: 900 ms have passed since POR_N and the port's PERST_N rose, or the node has left TRAINING (R117, R126, R395). -/
def execConfigRetryEnd (hp : Fin 4) (s : State) : Host.Outcome State Fault Refusal :=
  .next (if s.nid.state ≠ .off ∧ (s.host hp.val).perst then s.setHost hp.val { s.host hp.val with retry := false } else s)

end Sys2Proof.Machine
end

