-- ==== Sys2Proof/Machine/Flags.lean ====
section
/-! DEFINITION. The status flags of the blocks: which block an offset lies in, the ILLEGAL_WRITE flag of each block (R4, R7), and the
clearing of flags by writing one (R8). -/

namespace Sys2Proof.Machine

/-- The blocks of Table 17.2, and the offsets outside every block. -/
inductive Blk where
  | nid
  | cap
  | crs
  | ptt
  | lnk (n : Nat)
  | xpt
  | msh
  | til
  | tier (t : Tier)
  | dir
  | eng
  | arr
  | cfg
  | sec
  | flt
  | boot
  | sbd
  | mbx
  | pwr
  | hole
  deriving DecidableEq, Repr

/-- The block an offset lies in. -/
def blkOf (off : Nat) : Blk :=
  if off < 0x100 then .nid
  else if off < 0x10000 then .cap
  else if off < 0x20000 then .crs
  else if off < 0x100000 then .ptt
  else if off < 0x120000 then .lnk ((off - 0x100000) / 0x1000)
  else if off < 0x200000 then .hole
  else if off < 0x300000 then .xpt
  else if off < 0x400000 then .msh
  else if off < 0x500000 then .til
  else if off < 0x580000 then .tier .near
  else if off < 0x600000 then .tier .bulk
  else if off < 0x700000 then .dir
  else if off < 0x800000 then .eng
  else if off < 0x840000 then .arr
  else if off < 0x900000 then .cfg
  else if off < 0xA00000 then .sec
  else if off < 0xA08000 then .flt
  else if off < 0xA08100 then .boot
  else if off < 0xB00000 then .flt
  else if off < 0xC00000 then .sbd
  else if off < 0xF00000 then .hole
  else if off < 0xF80000 then .mbx
  else if off < 0x1000000 then .pwr
  else .hole

/-- Set MBX_STATUS.ILLEGAL_WRITE of a port's function. Log: DEDUCED 90. -/
def mbxIllegal (hp : Fin 4) (s : State) : State := s.setHost hp { s.host hp with illegal := true }

/-- Set the ILLEGAL_WRITE bit of a block (R4, R7); the blocks without one set none. Log: DEDUCED 90. -/
def illegal (hp : Fin 4) (b : Blk) (s : State) : State :=
  match b with
  | .nid => { s with nid := { s.nid with status := setBit s.nid.status 0 } }
  | .crs => { s with crs := { s.crs with status := setBit s.crs.status 0 } }
  | .ptt => { s with pttStatus := setBit s.pttStatus 0 }
  | .lnk n => portEv n 0 s
  | .xpt => { s with xpt := { s.xpt with status := setBit s.xpt.status 0 } }
  | .msh => { s with msh := { s.msh with status := setBit s.msh.status 0 } }
  | .til => { s with til := { s.til with status := setBit s.til.status 0 } }
  | .tier t => s.setTier t { s.tier t with status := setBit (s.tier t).status 0 }
  | .dir => { s with dir := { s.dir with status := setBit s.dir.status 0 } }
  | .eng => { s with eng := { s.eng with status := setBit s.eng.status 0 } }
  | .arr => { s with arr := { s.arr with status := setBit s.arr.status 0 } }
  | .cfg => { s with arr := { s.arr with cfgStatus := setBit s.arr.cfgStatus 0 } }
  | .sec => { s with sec := { s.sec with status := setBit s.sec.status 0 } }
  | .flt => { s with flt := { s.flt with illegal := true } }
  | .boot => { s with boot := { s.boot with status := setBit s.boot.status 10 } }
  | .sbd => { s with sbd := { s.sbd with status := setBit s.sbd.status 0 } }
  | .mbx => mbxIllegal hp s
  | .pwr => mbxIllegal hp s
  | .cap => s
  | .hole => s

/-- Clear W1C bits. Log: DESIGN CHOICE 7. -/
def w1c (w v mask : Word) : Word := w &&& ~~~(v &&& mask)

end Sys2Proof.Machine
end

