-- ==== Sys2Proof/Machine/Mesh.lean ====
section
/-! DEFINITION. The on-die mesh (spec/08_on_die_mesh.md): the self-test, routing by age priority with deflection, ejection in order of pair
sequence, injection with its throttle, and multicast. -/

namespace Sys2Proof.Machine

/-! ## Attachments (R179, R247) -/

/-- Every unit of Table 8.1. -/
def allUnits : List MeshUnit :=
  (List.range 32).map .efpPort ++ (List.range 32).map .slice ++ (List.range 256).map .hbm ++ (List.range 16).map .ddr
    ++ (List.range 64).map .column ++ [.courseGen, .bcp, .sep, .mnp, .fmp, .mrp, .scrubBulk, .scrubNear]
    ++ (List.range 4).map .hostPort ++ (List.range 4).map .moveEng ++ (List.range 2).map .voxelEng

/-- The station of a unit (Table 8.1). Log: DESIGN CHOICE 117. -/
def unitStation : MeshUnit → Nat
  | .efpPort n => portStation n
  | .slice k => if k < 16 then 16 + k else 160 + (k - 16)
  | .hbm ch => hbmStation ch
  | .ddr ch => ddrStation ch
  | .column k => colStation k
  | .courseGen => 80
  | .bcp => 81
  | .sep => 82
  | .mnp => 93
  | .fmp => 97
  | .mrp => 98
  | .hostPort k => [83, 92, 99, 108].getD k 83
  | .moveEng k => [86, 89, 102, 105].getD k 86
  | .scrubBulk => 87
  | .scrubNear => 103
  | .voxelEng k => [88, 104].getD k 88

/-- The units that a station's interface serves. Log: DESIGN CHOICE 117. -/
def unitsAt (st : Nat) : List MeshUnit := allUnits.filter fun u => decide (unitStation u = st)

/-! ## Links and ports (R180, R183, R189) -/

/-- The neighbour in a direction, where a link leads there; rows 5 and 6 are linked in the bridge columns only. -/
def neighbour (st : Nat) : Dir → Option Nat
  | .xPlus => if stationX st < 15 then some (st + 1) else none
  | .xMinus => if 0 < stationX st then some (st - 1) else none
  | .yPlus => if stationY st < 11 ∧ (stationY st ≠ 5 ∨ bridgeCol (stationX st) = stationX st) then some (st + 16) else none
  | .yMinus => if 0 < stationY st ∧ (stationY st ≠ 6 ∨ bridgeCol (stationX st) = stationX st) then some (st - 16) else none

/-- The link exists among disabled stations: there is a neighbour and it is not one of them. -/
def linkUp (dis : List Nat) (st : Nat) (d : Dir) : Bool := match neighbour st d with
  | some n => !dis.contains n
  | none => false

/-- The link exists. -/
def linkOn (s : State) (st : Nat) (d : Dir) : Bool := linkUp s.msh.disabled st d

/-- Links of one direction: four in a bridge column's Y directions. -/
def linkCount (st : Nat) (d : Dir) : Nat :=
  if (d = .yPlus ∨ d = .yMinus) ∧ bridgeCol (stationX st) = stationX st then 4 else 1

def allDirs : List Dir := [.xPlus, .xMinus, .yPlus, .yMinus]

/-- The target that the ways are taken to: the waypoint until it is reached, then the destination. The target between them, the bridge station
of the destination's bridge column, lies on the way to a destination on the other die (R180, R183). Log: DESIGN CHOICE 41. -/
def target (st : Nat) (p : MeshPkt) : Nat :=
  match p.waypoint with
  | some w => if w.val = st then p.dest.val else w.val
  | none => p.dest.val

/-- The ports that shorten the distance to a target, the preferred first (R183). A target on the other die is reached through the bridge column
that serves its column, and through no other (R180), so that before the bridge station and after it has been reached the same ports lead
there. Log: DESIGN CHOICE 41. -/
def towards (st t : Nat) : List Dir :=
  let x := if stationDie st = stationDie t then stationX t else bridgeCol (stationX t)
  let along := if stationX st < x then [Dir.xPlus] else if x < stationX st then [.xMinus] else []
  let y := if stationY st < stationY t then [Dir.yPlus] else if stationY t < stationY st then [.yMinus] else []
  let edge := stationDie st ≠ stationDie t ∧ (stationY st = 5 ∨ stationY st = 6) ∧ stationX st ≠ x
  if edge then along else along ++ y

/-- The detour for a port (R189). Log: DESIGN CHOICE 41. -/
def detour (dis : List Nat) (st : Nat) (d : Dir) : Dir :=
  match d with
  | .xPlus | .xMinus => if linkUp dis st .yMinus then .yMinus else .yPlus
  | .yPlus | .yMinus => if linkUp dis st .xMinus then .xMinus else .xPlus

/-- The ports towards a target whose links exist. -/
def openWays (dis : List Nat) (st t : Nat) : List Dir := (towards st t).filter (linkUp dis st)

/-- The productive ports of a packet; a detour stands in where each leads to a disabled station (R183, R189). -/
def productive (s : State) (st : Nat) (p : MeshPkt) : List Dir :=
  let t := target st p
  match openWays s.msh.disabled st t with
  | [] => ((((towards st t).filter fun d => (neighbour st d).isSome).map (detour s.msh.disabled st)).filter (linkOn s st)).eraseDups
  | on => on

/-! ## MESH_SELFTEST (R188, R190) -/

/-- The way that a packet alone in the mesh takes from a station reaches a target without a detour. -/
def walks (dis : List Nat) (t : Nat) : Nat → Nat → Bool
  | 0, st => decide (st = t)
  | n + 1, st =>
    if st = t then true
    else match (openWays dis st t).head?.bind (neighbour st) with
      | some u => walks dis t n u
      | none => false

/-- Stations of a station's die in service, but for itself. -/
def dieMates (dis : List Nat) (st : Nat) : List Nat :=
  ((List.range 96).map (stationDie st * 96 + ·)).filter fun u => decide (u ≠ st) && !dis.contains u

/-- Destinations of the die that no way without a detour reaches from a station. -/
def cutOff (dis : List Nat) (st : Nat) : List Nat := (dieMates dis st).filter fun d => !walks dis d 32 st

/-- Waypoints of the die by which a destination is reached without a detour. -/
def waypoints (dis : List Nat) (st d : Nat) : List Nat :=
  (dieMates dis st).filter fun w => decide (w ≠ d) && walks dis w 32 st && walks dis d 32 w

/-- The entries of one station from an entry number on: a destination that needs one, and a waypoint that serves it. Which come first, and
which of several waypoints, is open. Log: DESIGN CHOICE 41. -/
def stationRoutes (dis : List Nat) (st : Nat) : Nat → List Nat → List (Nat × Option (Nat × Nat))
  | 0, _ => []
  | n + 1, ds =>
    let e := 63 - n
    let (i, j) := Config.sourceRoute dis st e
    match ds[i % ds.length]? with
    | none => []
    | some d =>
      let ws := waypoints dis st d
      match ws[j % ws.length]? with
      | some w => (st * 64 + e, some (d, w)) :: stationRoutes dis st n (ds.erase d)
      | none => stationRoutes dis st n (ds.erase d)

/-- The source-route tables; with no station disabled they are empty (R190). Log: DESIGN CHOICE 41. -/
def sourceTables (dis : List Nat) : Tbl (Option (Nat × Nat)) :=
  if dis.isEmpty then []
  else ((List.range 192).filter fun st => !dis.contains st).flatMap fun st => stationRoutes dis st 64 (cutOff dis st)

/-- Stations fused off or failed are disabled and the tables written; a result that breaks R188, or a failed repeater, is fatal.
 Log: DEDUCED 19. -/
def meshSelftest (failed : List (Fin 192)) (repeater : Bool) (s : State) : State :=
  let fused := match s.boot.otp with | some o => o.fused | none => []
  let dis := (fused ++ failed).eraseDups.map Fin.val
  let s := { s with msh := { s.msh with disabled := dis, sr := sourceTables dis }, boot := { s.boot with meshDone := true } }
  if repeater || !disabledOk dis then enterFatal [2] (BitVec.ofNat 16 (dis.headD 0)) 0 s else s

def execMeshSelftest (failed : List (Fin 192)) (repeater : Bool) (s : State) : Host.Outcome State Fault Refusal :=
  .next (whileAlive (inSelftest (fun s => s.boot.meshDone) (meshSelftest failed repeater)) s)

/-! ## Deflections and the throttle (R184, R185) -/

/-- The present cycle, counted from the lock. -/
def cycleNow (s : State) : Nat := s.clk.now * 8192 + s.clk.cycle

def planeKey (st : Nat) (pl : Plane) : Nat := st * 4 + pl.idx

/-- Deflections of a station on a plane within the last 256 cycles. -/
def recentDefl (s : State) (k : Nat) : List Nat := (Tbl.get [] s.msh.stamps k).filter fun t => decide (cycleNow s < t + 256)

/-- The limit of a station has ended once its count is below LOW; until the next deflection the count only falls, so what it is just before
that tells whether it was ever below. -/
def unthrottle (k : Nat) (s : State) : State :=
  if (recentDefl s k).length < bits s.msh.throttle 15 8 then { s with msh := { s.msh with throttled := s.msh.throttled.filter (· ≠ k) } } else s

/-- A deflection is counted; at HIGH the station is throttled on the plane. -/
def countDefl (st : Nat) (pl : Plane) (s : State) : State :=
  let k := planeKey st pl
  let s := unthrottle k s
  let m := s.msh
  let l := cycleNow s :: recentDefl s k
  { s with msh := { m with
      defl := Tbl.put 0 m.defl pl.idx (sat32 (Tbl.get 0 m.defl pl.idx) 1), stamps := Tbl.put [] m.stamps k l
      throttled := if bits m.throttle 23 16 ≤ l.length ∧ k ∉ m.throttled then k :: m.throttled else m.throttled } }

/-- New limits apply to the counts as they stand: before them the old ones are brought up to date. -/
def setThrottle (w : Word) (s : State) : State :=
  let ks := s.msh.stamps.map Prod.fst
  let s := ks.foldl (fun s k => unthrottle k s) s
  let s := ks.foldl (fun s k => unthrottle k s) { s with msh := { s.msh with throttle := w } }
  let hot := ks.filter fun k => decide (bits w 23 16 ≤ (recentDefl s k).length) && !s.msh.throttled.contains k
  { s with msh := { s.msh with throttled := hot ++ s.msh.throttled } }

/-! ## Leaving a station (R184) -/

/-- Links still free at a station, one entry for each. -/
def freeLinks (s : State) (st : Nat) : List Dir := allDirs.flatMap fun d => if linkOn s st d then List.replicate (linkCount st d) d else []

/-- AGE after a hop: 2 cycles, or 8 across the bridge; saturation is noted (R182, R193). -/
def agePkt (st : Nat) (d : Dir) (p : MeshPkt) : MeshPkt :=
  let bridge := (stationY st = 5 ∧ d = .yPlus) ∨ (stationY st = 6 ∧ d = .yMinus)
  { p with age := BitVec.ofNat 16 (min 0xFFFF (p.age.toNat + (if bridge then 8 else 2)))
           waypoint := if p.waypoint.map Fin.val = some st then none else p.waypoint }

/-- A packet leaves by a link. -/
def sendLink (st : Fin 192) (pl : Plane) (d : Dir) (p : MeshPkt) (s : State) : State :=
  let q := agePkt st.val d p
  let s := if q.age = 0xFFFF#16 then { s with msh := { s.msh with status := setBit s.msh.status 3 } } else s
  s.emit (.meshLink st pl d q)

/-- A packet takes the preferred productive port that is free, else another productive one, else any free port, counted where it arrived
(R184). Answers the links still free. -/
def place (st : Fin 192) (pl : Plane) (count : Bool) (p : MeshPkt) (links : List Dir) (s : State) : List Dir × State :=
  match (productive s st.val p).find? links.contains with
  | some d => (links.erase d, sendLink st pl d p s)
  | none =>
    match links[Config.deflectPick s.serialNo % links.length]? with
    | some d =>
      let s := { s with serialNo := s.serialNo + 1 }
      (links.erase d, sendLink st pl d p (if count then countDefl st.val pl s else s))
    | none => (links, s)

/-! ## Ejection (R186) -/

/-- Log: DEDUCED 42. -/
def expectKey (st src : Nat) (pl : Plane) : Nat := (st * 192 + src) * 4 + pl.idx

/-- Early packets held at a station on a plane. Log: DEDUCED 42. -/
def earlyAt (s : State) (st : Nat) (pl : Plane) : List Early := s.msh.early.filter fun e => decide (e.st = st) && decide (e.pl = pl)

/-- Hand over the packets of the reorder store whose turn has come. Log: DEDUCED 42. -/
def drainEarly (st : Fin 192) (pl : Plane) (src : Fin 192) : Nat → State → State
  | 0, s => s
  | n + 1, s =>
    let k := expectKey st.val src.val pl
    let want := Tbl.get 0 s.msh.expect k
    match s.msh.early.find? fun e => decide (e.st = st.val) && decide (e.pl = pl) && decide (e.pkt.src = src) && decide (e.pkt.pseq.toNat = want) with
    | none => s
    | some e =>
      let s := { s with msh := { s.msh with early := s.msh.early.erase e, expect := Tbl.put 0 s.msh.expect k ((want + 1) % 65536) } }
      drainEarly st pl src n (s.emit (.meshEject st pl (unitsAt st.val) e.pkt))

/-- A packet at its destination: handed over in order, kept where it is early, or not taken. Log: DEDUCED 42, DESIGN CHOICE 117. -/
def eject (st : Fin 192) (pl : Plane) (full : Bool) (p : MeshPkt) (s : State) : Option State :=
  let k := expectKey st.val p.src.val pl
  let want := Tbl.get 0 s.msh.expect k
  let d := (p.pseq.toNat + 65536 - want) % 65536
  if d = 0 then
    if full && (decide (pl = .req) || decide (pl = .snp)) then none
    else
      let s := { s with msh := { s.msh with expect := Tbl.put 0 s.msh.expect k ((want + 1) % 65536) } }
      some (drainEarly st pl p.src 32 (s.emit (.meshEject st pl (unitsAt st.val) p)))
  else if d ≤ 32767 ∧ (earlyAt s st.val pl).length < 32 then
    some { s with msh := { s.msh with early := s.msh.early ++ [{ st := st.val, pl, pkt := p }] } }
  else none

/-- Local ports of a station on a plane (R180). -/
def localPorts (st : Nat) (pl : Plane) : Nat :=
  if pl = .dat ∧ (stationY st = 2 ∨ stationY st = 3 ∨ stationY st = 8 ∨ stationY st = 9) then 2 else 1

/-! ## MESH_PACKET_ARRIVE -/

/-- The order of priority of R184. -/
def ranksBefore (a b : MeshIn) : Bool :=
  let k (m : MeshIn) : Nat := if m.pkt.course then 0 else if m.pkt.multi then 1 else 2
  if k a ≠ k b then decide (k a < k b)
  else if a.pkt.age ≠ b.pkt.age then decide (b.pkt.age.toNat < a.pkt.age.toNat)
  else if a.pkt.src ≠ b.pkt.src then decide (a.pkt.src.val < b.pkt.src.val)
  else decide (a.inPort < b.inPort)

/-- Insert a packet in the order of priority. -/
def rankInsert (a : MeshIn) : List MeshIn → List MeshIn
  | [] => [a]
  | b :: r => if ranksBefore a b then a :: b :: r else b :: rankInsert a r

def rankSort (l : List MeshIn) : List MeshIn := l.foldl (fun acc a => rankInsert a acc) []

/-- The codes over a packet: corrected headers and bad payloads are counted, a bad payload goes on marked poisoned (R182). -/
def checkPkt (m : MeshIn) (s : State) : MeshIn × State :=
  let s := if m.hdr = .corrected then { s with msh := { s.msh with hdrCorr := sat32 s.msh.hdrCorr 1, status := setBit s.msh.status 2 } } else s
  if m.payBad then
    ({ m with pkt := { m.pkt with poisoned := true } },
     { s with msh := { s.msh with payBad := sat32 s.msh.payBad 1, status := setBit s.msh.status 1 } })
  else (m, s)

/-- Ejection of a multicast's copy: a disabled station's repeater only passes it on (R188, R191). Log: DESIGN CHOICE 117. -/
def ejectCopy (st : Fin 192) (m : MeshPkt) (s : State) : State :=
  if stationDown s st.val then s else s.emit (.meshEject st .dat (unitsAt st.val) m)

/-- A multicast packet passes on along its line, and a station whose mask bit is set takes a copy (R191). It runs along the row of its
source, or along a column. Log: DESIGN CHOICE 117. -/
def passMulti (st : Fin 192) (pl : Plane) (m : MeshPkt) (links : List Dir) (s : State) : List Dir × State :=
  let row := decide (stationY m.src.val = stationY m.dest.val)
  let mask := ofLeBytes (m.payload.take 2)
  let s := if mask.testBit (if row then stationX st.val else stationY st.val) then ejectCopy st m s else s
  match (towards st.val m.dest.val).head? with
  | some d => (links.erase d, sendLink st pl d m s)
  | none => (links, s)

/-- The ways on which the course packet leaves a station: along row 5, from each of its stations over rows 4 to 0, in the bridge columns on
to row 11; from each bridge station of row 6 over the columns it serves, and from each of their stations over rows 7 to 11 (R192). -/
def courseWays (st : Nat) : List Dir :=
  let (x, y, b) := (stationX st, stationY st, bridgeCol (stationX st))
  if y = 5 then (if x < 15 then [.xPlus] else []) ++ [.yMinus] ++ (if b = x then [.yPlus] else [])
  else if y < 5 then (if 0 < y then [.yMinus] else [])
  else if y = 6 then
    (if b ≤ x ∧ x < 15 ∧ bridgeCol (x + 1) = b then [.xPlus] else []) ++ (if x ≤ b ∧ 0 < x ∧ bridgeCol (x - 1) = b then [.xMinus] else []) ++ [.yPlus]
  else if y < 11 then [.yPlus] else []

/-- A way is a relay onto another line, which takes 1 cycle more (R192). -/
def courseRelay (st : Nat) (d : Dir) : Bool :=
  match d with
  | .xPlus | .xMinus => decide (stationY st = 6 ∧ bridgeCol (stationX st) = stationX st)
  | .yMinus => decide (stationY st = 5)
  | .yPlus => decide (stationY st = 5) || decide (stationY st = 6 ∧ bridgeCol (stationX st) ≠ stationX st)

/-- The cycles after which the course packet, sent by the generator, has come to a station (R192). -/
def courseAt (st : Nat) : Nat :=
  let (x, y, b) := (stationX st, stationY st, bridgeCol (stationX st))
  if y = 5 then 2 * x
  else if y < 5 then 2 * x + 1 + 2 * (5 - y)
  else
    let six := 2 * b + 9 + (if x = b then 0 else 1 + 2 * absDiff x b)
    six + (if y = 6 then 0 else (if x = b then 0 else 1) + 2 * (y - 6))

/-- The cycles after which every station has the course packet: 53 (R192). -/
def courseSpan : Nat := (List.range 192).foldl (fun n st => max n (courseAt st)) 0

/-- The course packet at a station: it is taken there and goes on by the station's ways. -/
def passCourse (st : Fin 192) (m : MeshPkt) (links : List Dir) (s : State) : List Dir × State :=
  (courseWays st.val).foldl (fun x d =>
    let late : Nat := if courseRelay st.val d then 1 else 0
    (x.1.erase d, sendLink st .dat d { m with age := m.age + BitVec.ofNat 16 late } x.2)) (links, ejectCopy st m s)

/-- One packet in its turn: links left and local ports left. Log: DESIGN CHOICE 41. -/
def routeOne (st : Fin 192) (pl : Plane) (m : MeshIn) (x : List Dir × Nat × State) : List Dir × Nat × State :=
  let (links, loc, s) := x
  let (m, s) := checkPkt m s
  if m.pkt.multi || m.pkt.course then
    let (links, s) := if m.pkt.course then passCourse st m.pkt links s else passMulti st pl m.pkt links s
    (links, loc, s)
  else
    let here := decide (m.pkt.dest = st) && (m.pkt.waypoint.isNone || decide (m.pkt.waypoint = some st))
    match (if here && decide (0 < loc) then eject st pl m.unitFull m.pkt s else none) with
    | some s => (links, loc - 1, s)
    | none =>
      let (links, s) := place st pl true m.pkt links s
      (links, loc, s)

/-- The packets that arrive at a station in one cycle leave it in the next; an uncorrectable header is fatal (R182, R184). -/
def meshArrive (st : Fin 192) (pl : Plane) (ps : List MeshIn) (s : State) : State :=
  if ps.any fun m => decide (m.hdr = .uncorrectable) then enterFatal [2] (BitVec.ofNat 16 st.val) 0 s
  else if !s.alive then s
  else
    let ps := if stationDown s st.val then ps.filter fun m => m.pkt.multi || m.pkt.course else ps
    ((rankSort ps).foldl (fun x m => routeOne st pl m x) (freeLinks s st.val, localPorts st.val pl, s)).2.2

/-- A packet that its plane can carry: 128 bits, or 512 bits on DAT, which alone has multicasts (Table 8.2). -/
def fitsPlane (pl : Plane) (p : MeshPkt) : Bool := decide (p.payload.length ≤ pl.bytes) && (decide (pl = .dat) || (!p.multi && !p.course))

def execMeshPacketArrive (st : Fin 192) (pl : Plane) (ps : List MeshIn) (s : State) : Host.Outcome State Fault Refusal :=
  if ps.all fun m => fitsPlane pl m.pkt then .next (if s.alive || s.latching then meshArrive st pl ps s else s) else .fault .illFormed

/-! ## MESH_MULTICAST (R191) -/

/-- The stations of a row or a column that the mask names. -/
def maskStations (row : Bool) (line : Nat) (mask : BitVec 16) : List (Fin 192) :=
  if row then (if line < 12 then ((List.range 16).filter fun c => mask.getLsbD c).map fun c => Fin.ofNat 192 (line * 16 + c) else [])
  else ((List.range 12).filter fun r => mask.getLsbD r).map fun r => Fin.ofNat 192 (r * 16 + line)

/-- The row or the column is one that the source's multicasts run along, and the stations of the mask that they reach: a column other than
the bridge columns ends at the edge of the die (R180, R191). -/
def onLine (row : Bool) (line src : Nat) : Bool := decide ((if row then stationY src else stationX src) = line)
/-- Log: DESIGN CHOICE 117. -/
def reaches (row : Bool) (src st : Nat) : Bool :=
  row || decide (stationDie src = stationDie st) || decide (bridgeCol (stationX st) = stationX st)

/-- From cycle 7,936 until the course packet has reached every station, no other multicast starts (R191). -/
def blackout (s : State) : Bool :=
  s.clk.locked && decide (7936 ≤ s.clk.cycle) && (!s.clk.packetSent || decide (s.clk.cycle < 8064 + courseSpan))

/-- A multicast is in flight on the row or column. -/
def multiBusy (s : State) (row : Bool) (line : Nat) : Bool :=
  s.msh.flying.any fun e => decide (e.1 = row ∧ e.2.1 = line ∧ cycleNow s < e.2.2)

/-- The cycles a multicast takes to the farthest of its stations: 2 for a hop, 8 across the bridge (R191). -/
def flightTime (src : Nat) (sts : List (Fin 192)) : Nat :=
  sts.foldl (fun n st => max n (2 * hops src st.val + (if stationDie src = stationDie st.val then 0 else 6))) 0

/-- Every station of the mask ejects a copy, a disabled one's repeater only passes it on. A multicast starts only where its row or column is
free of others, and outside the time kept for the course packet. Log: DESIGN CHOICE 117. -/
def meshMulticast (row : Bool) (line : Fin 16) (mask : BitVec 16) (p : MeshPkt) (s : State) : State :=
  if !onLine row line.val p.src.val || (!p.course && (blackout s || multiBusy s row line.val)) then s
  else
    let sts := (maskStations row line.val mask).filter fun st => reaches row p.src.val st.val
    let fly := (row, line.val, cycleNow s + flightTime p.src.val sts) :: s.msh.flying.filter fun e => decide (cycleNow s < e.2.2)
    sts.foldl (fun s st => ejectCopy st p s) { s with msh := { s.msh with flying := fly } }

def execMeshMulticast (row : Bool) (line : Fin 16) (mask : BitVec 16) (pkt : MeshPkt) (s : State) : Host.Outcome State Fault Refusal :=
  if fitsPlane .dat pkt && pkt.multi then .next (whileAlive (meshMulticast row line mask pkt) s) else .fault .illFormed

/-! ## MESH_INJECT (R185, R190) -/

/-- The waypoint of the first entry that matches a destination. -/
def waypointOf (s : State) (st dest : Nat) : Option (Fin 192) :=
  (List.range 64).findSome? fun e => match Tbl.get none s.msh.sr (st * 64 + e) with
    | some (d, w) => if d = dest then some (Fin.ofNat 192 w) else none
    | none => none

/-- A throttled station injects once in GAP cycles; the course packet, which no injection starts, is exempt. -/
def mayInject (s : State) (st : Nat) (pl : Plane) : Bool :=
  let k := planeKey st pl
  !s.msh.throttled.contains k || decide (Tbl.get 0 s.msh.lastInj k + bits s.msh.throttle 3 0 ≤ cycleNow s)

/-- The header as the interface writes it: age 0, the next pair sequence, the waypoint. -/
def newHeader (st : Fin 192) (pl : Plane) (p : MeshPkt) (s : State) : MeshPkt × State :=
  let k := expectKey st.val p.dest.val pl
  let n := Tbl.get 0 s.msh.nextSeq k
  ({ p with src := st, age := 0, pseq := BitVec.ofNat 16 n, waypoint := waypointOf s st.val p.dest.val },
   { s with msh := { s.msh with nextSeq := Tbl.put 0 s.msh.nextSeq k ((n + 1) % 65536) } })

/-- Injection into one of the ports left free; a multicast starts along its row or column. Log: DESIGN CHOICE 41, DESIGN CHOICE 117. -/
def meshInject (st : Fin 192) (pl : Plane) (free : List Dir) (p : MeshPkt) (s : State) : State :=
  if p.multi || p.course then
    let row := decide (stationY st.val = stationY p.dest.val)
    if stationDown s st.val then s
    else meshMulticast row (Fin.ofNat 16 (if row then stationY st.val else stationX st.val)) (BitVec.ofNat 16 (ofLeBytes (p.payload.take 2)))
      { p with src := st, age := 0 } s
  else
  let k := planeKey st.val pl
  let s := unthrottle k s
  let free := free.filter (linkOn s st.val)
  if free = [] || stationDown s st.val || !mayInject s st.val pl then s
  else
    let (p, s) := newHeader st pl p s
    (place st pl false p free { s with msh := { s.msh with lastInj := Tbl.put 0 s.msh.lastInj k (cycleNow s) } }).2

def execMeshInject (st : Fin 192) (pl : Plane) (free : List Dir) (pkt : MeshPkt) (s : State) : Host.Outcome State Fault Refusal :=
  if fitsPlane pl pkt then .next (whileAlive (meshInject st pl free pkt) s) else .fault .illFormed

end Sys2Proof.Machine
end

