-- ==== Sys2Proof/Machine/Faults.lean ====
section
/-! DEFINITION. Fault containment (spec/18_faults.md): uncorrectable errors of on-chip storage, the watchdogs and the warm restart, and the
layout of a fault log entry. -/

namespace Sys2Proof.Machine

/-! ## Watchdogs and warm restart (R397 to R399) -/

/-- The processor has been started: the BCP from the rise of POR_N, the others by PROCESSOR_START. Log: DEDUCED 93. -/
def procStarted (s : State) (p : Proc) : Bool := decide (p = .bcp) || (s.wd p.idx).started

/-- A tenant whose key operation the SEP had in hand: its TENANT_CREATE is answered with BUSY and changes nothing (R23, R399).
 Log: DEDUCED 77, DEDUCED 93. -/
def undoCreates (s : State) : State :=
  (List.range 128).foldl (fun s t =>
    let x := s.tenant t
    if x.state = .creating then
      x.owed.foldl (fun s o => answer o .busy [] s) (s.setTenant t { incarn := (x.incarn + 1023) % 1024 })
    else s) s

/-- The contents of the image slot in which an address lies are undefined from here on (R378). Log: DEDUCED 92. -/
def spoilSlot (a : Nat) (s : State) : State :=
  match s.boot.flash with
  | none => s
  | some d =>
    { s with serialNo := s.serialNo + 1
             boot := { s.boot with flash := some (spoilFlash s.serialNo (slotBase d (decide (slotSize d ≤ a))) (slotSize d) d) } }

/-- The IMAGE_WRITE in hand is answered with a status, its slot undefined. Log: DESIGN CHOICE 16, DEDUCED 93. -/
def failImageWrite (st : Status) (s : State) : State :=
  match s.boot.writing with
  | [] => s
  | w :: r => answer w.owed st [] (spoilSlot w.addr { s with boot := { s.boot with writing := r } })

/-- What a restarted processor had in progress ends (R399). Log: DEDUCED 93. -/
def dropWork (p : Proc) (s : State) : State :=
  match p with
  | .sep => undoCreates s
  | .bcp => s.boot.writing.foldl (fun s _ => failImageWrite .busy s) s
  | _ => s

/-- A restart: counted and logged first; held where the hash does not match or it is the fifth in 244,141 courses (R398). A restart within
the health window spoils the health check (R115). Log: DESIGN CHOICE 20, DEDUCED 92. -/
def watchdogRestart (p : Proc) (hashOk : Bool) (s : State) : State :=
  let x := s.wd p.idx
  let n : BitVec 8 := if x.restarts = 0xFF#8 then x.restarts else x.restarts + 1
  let times := s.clk.now :: x.times.filter fun t => decide (s.clk.now ≤ t + 244141)
  let s := s.setWd p.idx { x with restarts := n, last := BitVec.ofNat 16 s.clk.now, times, restarting := true }
  let s := match s.boot.healthAt with
    | some b => if s.clk.now < b ∨ (s.clk.now = b ∧ s.clk.cycle = 0) then { s with boot := { s.boot with healthBad := true } } else s
    | none => s
  let s := recordFault { code := 0x10, scope := 6, event := some 0x110, object := BitVec.ofNat 16 p.idx, detail := n.setWidth 64 } s
  let s := dropWork p s
  if !hashOk || decide (5 ≤ times.length) then
    let s := s.setWd p.idx { s.wd p.idx with held := true, restarting := false }
    recordFault { code := 0x11, scope := 6, event := some 0x111, object := BitVec.ofNat 16 p.idx, detail := if hashOk then 2 else 1 } s
  else s

/-- WATCHDOG_EXPIRE: at a boundary, of a processor that runs. -/
def execWatchdogExpire (p : Proc) (hashOk : Bool) (s : State) : Host.Outcome State Fault Refusal :=
  .next (if atBoundary s && procStarted s p && procRuns s p then watchdogRestart p hashOk s else s)

/-- A restarting processor runs again. It resumes its periodic work at the next boundary, so it misses the present course too, and slips in
it (R35, R397). Log: DESIGN CHOICE 20. -/
def restartDone (p : Proc) (s : State) : State :=
  if (s.wd p.idx).restarting then courseSlip p (s.setWd p.idx { s.wd p.idx with restarting := false }) else s

/-- PROCESSOR_RESTART_DONE. -/
def execProcessorRestartDone (p : Proc) (s : State) : Host.Outcome State Fault Refusal := .next (whileAlive (restartDone p) s)

/-! ## Uncorrectable on-chip storage errors (R393, Table 18.2) -/

/-- An error in a partition's own storage: logged, and the partition reset unless it is resetting already. A tenant that is FREE owns
nothing. Log: DEDUCED 92. -/
def partFault (t object : Nat) (detail : Nat) (s : State) : State :=
  let x := s.tenant t
  if x.state = .free then s
  else
    let s := recordFault { code := 0x40, scope := 3, event := some 0x140, part := BitVec.ofNat 8 x.part, tenant := BitVec.ofNat 8 t
                           object := BitVec.ofNat 16 object, detail := BitVec.ofNat 64 detail } s
    if (s.part x.part).reset.isSome then s else triggerReset x.part [] s

/-- A node-wide table entry is made not VALID in both copies. Log: DEDUCED 92. -/
def tableFault (i k kind entry : Nat) (s : State) : State :=
  let off (w : BitVec 64) : BitVec 64 := w &&& ~~~(0x80000000#64)
  let x := s.inst i
  let s := s.setInst i { x with shadow := Tbl.put 0 x.shadow k (off (Tbl.get 0 x.shadow k)), active := Tbl.put 0 x.active k (off (Tbl.get 0 x.active k)) }
  recordFault { code := 0x12, scope := 6, event := some 0x112, object := BitVec.ofNat 16 entry, detail := BitVec.ofNat 64 kind } s

/-- Every registered agent. -/
def allAgents (s : State) : List Nat := (s.dir.agents.filter fun a => a.2.isSome).map Prod.fst

/-- A directory entry is lost: SNP_RECALL under the way's handle to every registered agent, the data discarded. A request that was at the
line starts again once the way is free. Log: DEDUCED 55, DEDUCED 92. -/
def dirFault (slot : Nat) (s : State) : State :=
  let e := s.ent slot
  let hs := allAgents s
  let ids := (s.dir.trks.filter fun k => decide (k.slot = some slot)).filterMap Trk.req
  let s := { s with dir := { s.dir with trks := s.dir.trks.filter (fun k => decide (k.slot ≠ some slot)), pend := ids.map PendItem.req ++ s.dir.pend } }
  let s :=
    if hs = [] then s.setEnt slot {}
    else
      let s := s.setEnt slot { e with st := .s, ptrs := [], coarse := false, vec := 0 }
      let s := addTrk { slot := some slot, st := .rc, tier := e.tier, line := e.line, waits := hs.map (awaiting s), drop := true, calm := true
                        keyT := e.keyT, incarn := e.incarn } s
      hs.foldl (fun s a => toAgent a 0x22 (handleOf slot) [] false s) s
  settle (recordFault { code := 0x62, scope := 0, event := some 0x162, object := BitVec.ofNat 16 (slot / (setsPerSlice * 16))
                        detail := BitVec.ofNat 64 (handleOf slot) } s)

/-- A replay buffer slot is lost: the port goes to RETRAIN with cause 0x0A, the one cause of R137 that tells of state that cannot be
resumed, and makes a fresh start. Log: DEDUCED 31. -/
def replayFault (n : Fin 32) (s : State) : State := if (s.port n).state = .up then leaveUp n 0x0A .retrain s else s

/-- The outcome of an uncorrectable error, by structure. Log: DEDUCED 92. -/
def sramFault (f : SramFault) (s : State) : State :=
  match f with
  | .store t tile => partFault t.val 0 (1 + tile % 2 ^ 27 * 8) s
  | .admission t e => partFault t.val e.val 2 s
  | .streamEntry k => if (s.stream k.toNat).alloc then partFault (s.stream k.toNat).tenant k.toNat 3 s else s
  | .streamRecord k => if (s.stream k.toNat).alloc then partFault (s.stream k.toNat).tenant k.toNat 4 s else s
  | .queueCtx t q => if (s.queue (t.val * 8 + q.val)).state ≠ 0 then partFault t.val q.val 5 s else s
  | .route d => tableFault routeInst d.toNat 0 d.toNat s
  | .binding d => tableFault bindInst (2 * d.toNat + 1) 1 d.toNat s
  | .multicast g => tableFault mcInst (g.toNat * 16 + 1) 2 g.toNat s
  | .dirEntry sl set way => if set < setsPerSlice then dirFault ((sl.val * setsPerSlice + set) * 16 + way.val) s else s
  | .bogRecord i => if i < s.til.bogs.length then bogLost 1 { s with til := { s.til with bogs := s.til.bogs.eraseIdx i } } else s
  | .replaySlot p => replayFault p s
  | .procMem p => if procStarted s p && procRuns s p then watchdogRestart p true s else s

def execSramUncorrectable (f : SramFault) (s : State) : Host.Outcome State Fault Refusal := .next (whileAlive (sramFault f) s)

/-! ## The fault log as it is read (R400, Table 18.3) -/

/-- The 32 bytes of an entry. -/
def fltBytes (e : FltEntry) : List Byte :=
  leBytes 4 e.seq.toNat ++ leBytes 2 e.code ++ [BitVec.ofNat 8 e.scope, BitVec.ofNat 8 ((if e.fatal then 1 else 0) + (if e.event then 2 else 0))]
    ++ leBytes 8 e.course ++ [e.part, e.tenant] ++ leBytes 2 e.object.toNat ++ leBytes 2 e.repeats.toNat ++ [0, 0] ++ leBytes 8 e.detail.toNat

end Sys2Proof.Machine
end

