-- ==== Sys2Proof/Machine/Security.lean ====
section
/-! DEFINITION. Identity, keys and attestation (spec/16_security.md): the random source, tamper, SPDM for the hosts, the link
handshake, attestation of partners, and pins. -/

namespace Sys2Proof.Machine

/-- The SEP serves requests: it has been started, and it runs (R25, R356). -/
def sepRuns (s : State) : Bool := s.alive && decide (s.nid.state ≠ .boot) && procRuns s .sep

/-! ## The random source (R351, R352) -/

/-- One failed health test: counted by its kind, TRNG_EV; the source starts again. Log: DEDUCED 81. -/
def countTest (t : TrngTest) (s : State) : State :=
  { s with sec := { s.sec with
      status := setBit s.sec.status 1
      rct := if t = .repetition then sat16 s.sec.rct else s.sec.rct
      apt := if t = .proportion then sat16 s.sec.apt else s.sec.apt } }

/-- TRNG_FAIL is set and reported, and every handshake under way fails with cause 0x0B. Log: DEDUCED 81. -/
def trngDown (s : State) : State :=
  let s := { s with sec := { s.sec with status := setBit s.sec.status 2 } }
  let s := recordFault { code := 0x14, scope := 6, event := some 9 } s
  (List.finRange 32).foldl (fun (s : State) (n : Fin 32) => if (s.port n).hs.active then hsFail n 0x0B s else s) s

/-- TRNG_TEST_FAIL: a failure before 4,096 further samples have passed sets TRNG_FAIL. Log: DEDUCED 81. -/
def trngTestFail (t : TrngTest) (again : Bool) (s : State) : State :=
  let s := countTest t s
  if again && !s.trngFail then trngDown s else s

def execTrngTestFail (t : TrngTest) (again : Bool) (s : State) : Host.Outcome State Fault Refusal :=
  .next (whileAlive (trngTestFail t again) s)

/-- DRBG_RESEED: after 1,024 requests, and at least every 244,141 courses. -/
def drbgReseed (s : State) : State :=
  if 1024 ≤ s.sec.drbgReqs ∨ s.sec.drbgAt + 244141 ≤ s.clk.now then
    { s with sec := { s.sec with drbgReqs := 0, drbgAt := s.clk.now, reseeds := s.sec.reseeds + 1 } }
  else s

def execDrbgReseed (s : State) : Host.Outcome State Fault Refusal := .next (whileAlive drbgReseed s)

/-! ## Tamper (R353) -/

/-- The number of a sensor, in the order of R353. -/
def sensorNo : TamperSensor → Nat
  | .voltage => 0
  | .sysclk => 1
  | .cold => 2
  | .otp => 3

/-- An OTP read is a tamper event only after BOOT. Log: DEDUCED 81. -/
def tamper (x : TamperSensor) (s : State) : State :=
  if x = .otp ∧ s.nid.state = .boot || !(s.alive || s.latching) then s
  else enterFatal [3] 0 (BitVec.ofNat 64 (sensorNo x)) { s with sec := { s.sec with status := setBit s.sec.status 3 } }

/-- TAMPER: the node becomes FATAL, TAMPER is set, and the keys are cleared with FATAL. -/
def execTamper (x : TamperSensor) (s : State) : Host.Outcome State Fault Refusal := .next (tamper x s)

/-! ## SPDM for the hosts (R354, R355) -/

/-- An SPDM answer leaves and is counted. Log: DEDUCED 81. -/
def spdmAnswer (hp : Fin 4) (code : Byte) (bytes : List Byte) (s : State) : State :=
  { s.emit (.spdm hp code bytes) with sec := { s.sec with spdmAns := sat16 s.sec.spdmAns } }

/-- An ERROR answer. Log: PRESUMED 79. -/
def spdmError (hp : Fin 4) (e : Byte) (s : State) : State :=
  spdmAnswer hp 0x7F [e, 0] { s with sec := { s.sec with spdmErr := sat16 s.sec.spdmErr } }

/-- An SPDM request: Unspecified in FATAL and in the no-image state; Busy where it needs measurements that are not fixed yet.
 Log: PRESUMED 79. -/
def spdm (hp : Fin 4) (needs : Bool) (body : State → State) (s : State) : State :=
  if !hostUp s { port := hp } then s
  else if decide (s.nid.state = .fatal) || s.noImage then spdmError hp 0x05 s
  else if !sepRuns s then s
  else if needs && s.sec.measured.isNone then spdmError hp 0x03 s
  else body s

/-- The chain of slot 0: the root hash, then the certificates of OTP (Table 16.2). -/
def slotChain (s : State) : List Byte := Config.caRootHash.toList ++ s.chain

/-- An ECDSA signature under the identity key over a digest, with a deterministic number (R347, R352). -/
def idSign (digest : List Byte) (s : State) : List Byte := ecdsaSign ((s.boot.otp.map Otp.idKey).getD 0) digest

/-- The signature of an SPDM answer. Log: DESIGN CHOICE 80. -/
def spdmSig (k : Nat) (nonce : List Byte) (s : State) : List Byte := idSign (sha384 (Config.spdmTranscript k nonce)) s

/-- One measurement block: index, value type, size and value (Table 16.3). Log: PRESUMED 79. -/
def measBlock (ms : List (List Byte)) (i : Nat) : List Byte :=
  let v := (ms[i - 1]?).getD []
  let typ := match i with | 1 => 0 | 2 => 1 | 7 => 2 | _ => 3
  [BitVec.ofNat 8 i, BitVec.ofNat 8 typ] ++ leBytes 2 v.length ++ v

/-- The measurements in force. -/
def State.meas (s : State) : List (List Byte) := s.sec.measured.getD []

/-- GET_VERSION: 1.2 only. -/
def execGetVersion (hp : Fin 4) (s : State) : Host.Outcome State Fault Refusal :=
  .next (spdm hp false (spdmAnswer hp 0x04 (leBytes 2 0x1200)) s)

/-- GET_CAPABILITIES: CTExponent 17; CERT_CAP, CHAL_CAP, MEAS_CAP with signature. -/
def execGetCapabilities (hp : Fin 4) (s : State) : Host.Outcome State Fault Refusal :=
  .next (spdm hp false (spdmAnswer hp 0x61 ([17] ++ leBytes 4 0x16)) s)

/-- NEGOTIATE_ALGORITHMS: P-384 for signatures, SHA-384 for hashes and for measurements. -/
def execNegotiateAlgorithms (hp : Fin 4) (s : State) : Host.Outcome State Fault Refusal :=
  .next (spdm hp false (spdmAnswer hp 0x63 (leBytes 4 0x04 ++ leBytes 4 0x80 ++ leBytes 4 0x02)) s)

/-- GET_DIGESTS: slot 0 only. -/
def execGetDigests (hp : Fin 4) (s : State) : Host.Outcome State Fault Refusal :=
  .next (spdm hp false (fun s => spdmAnswer hp 0x01 ([1] ++ sha384 (slotChain s)) s) s)

/-- GET_CERTIFICATE: a portion of slot 0's chain, with its length and what remains. Log: PRESUMED 79. -/
def getCertificate (hp : Fin 4) (slot : Byte) (offset length : Nat) (s : State) : State :=
  let c := slotChain s
  if slot ≠ 0 ∨ c.length ≤ offset then spdmError hp 0x07 s
  else
    let part := (c.drop offset).take length
    spdmAnswer hp 0x02 (leBytes 2 part.length ++ leBytes 2 (c.length - offset - part.length) ++ part) s

def execGetCertificate (hp : Fin 4) (slot : Byte) (offset length : BitVec 16) (s : State) : Host.Outcome State Fault Refusal :=
  .next (spdm hp false (getCertificate hp slot offset.toNat length.toNat) s)

/-- Take the number of a draw of the DRBG. Log: DESIGN CHOICE 12. -/
def draw (s : State) : Nat × State :=
  (s.serialNo, { s with serialNo := s.serialNo + 1, sec := { s.sec with drbgReqs := s.sec.drbgReqs + 1 } })

/-- CHALLENGE: slot 0; the summary over no measurement, indices 1 to 3, or all. Log: PRESUMED 79, DESIGN CHOICE 80. -/
def challenge (hp : Fin 4) (slot summary : Byte) (nonce : List Byte) (s : State) : State :=
  if slot ≠ 0 ∨ (summary ≠ 0 ∧ summary ≠ 1 ∧ summary ≠ 0xFF) then spdmError hp 0x07 s
  else
    let blocks (n : Nat) := (List.range n).flatMap fun i => measBlock s.meas (i + 1)
    let sum := if summary = 0 then [] else sha384 (blocks (if summary = 1 then 3 else 7))
    let (k, s) := draw s
    spdmAnswer hp 0x03 (sha384 (slotChain s) ++ (Config.spdmNonce k).toList ++ sum ++ spdmSig k nonce s) s

def execChallenge (hp : Fin 4) (slot summary : Byte) (nonce : List Byte) (s : State) : Host.Outcome State Fault Refusal :=
  .next (spdm hp true (challenge hp slot summary nonce) s)

/-- GET_MEASUREMENTS: how many there are (index 0), all (0xFF) or one, signed when the request asks for it.
 Log: PRESUMED 79, DESIGN CHOICE 80. -/
def getMeasurements (hp : Fin 4) (index : Byte) (signed : Bool) (nonce : List Byte) (s : State) : State :=
  let i := index.toNat
  if 7 < i ∧ i ≠ 0xFF then spdmError hp 0x07 s
  else
    let idx := if i = 0 then [] else if i = 0xFF then [1, 2, 3, 4, 5, 6, 7] else [i]
    let count := if i = 0 then 7 else idx.length
    let body := [BitVec.ofNat 8 count] ++ idx.flatMap (measBlock s.meas)
    if signed then
      let (k, s) := draw s
      spdmAnswer hp 0x60 (body ++ (Config.spdmNonce k).toList ++ spdmSig k nonce s) s
    else spdmAnswer hp 0x60 body s

def execGetMeasurements (hp : Fin 4) (index : Byte) (signed : Bool) (nonce : List Byte) (s : State) : Host.Outcome State Fault Refusal :=
  .next (spdm hp true (getMeasurements hp index signed nonce) s)

/-- SPDM_UNSUPPORTED_REQUEST: ERROR UnsupportedRequest (0x07). -/
def execSpdmUnsupportedRequest (hp : Fin 4) (_code : Byte) (s : State) : Host.Outcome State Fault Refusal :=
  .next (spdm hp false (spdmError hp 0x07) s)

/-- DOE_DISCOVERY: object 0 is discovery, object 1 SPDM, and there is no other (R354). Log: PRESUMED 79. -/
def doeDiscovery (hp : Fin 4) (index : Byte) (s : State) : State :=
  if !hostUp s { port := hp } then s
  else if index = 0 then s.emit (.doe hp 1 0 1)
  else if index = 1 then s.emit (.doe hp 1 1 0)
  else s.emit (.doe hp 0xFFFF 0 0)

def execDoeDiscovery (hp : Fin 4) (index : Byte) (s : State) : Host.Outcome State Fault Refusal := .next (doeDiscovery hp index s)

/-! ## The link handshake (R357 to R360) -/

/-- Certificate chain fragments of at most `m` bytes from an offset on: HS_CERT (Table 16.4). -/
def certMsg (c : List Byte) (off m : Nat) : List Byte :=
  let part := (c.drop off).take m
  [0x21, 0] ++ leBytes 2 off ++ leBytes 2 part.length ++ List.replicate 10 0 ++ part

/-- The whole chain in fragments of 240 bytes. -/
def certMsgs (c : List Byte) : List (List Byte) := (List.range ((c.length + 239) / 240)).map fun i => certMsg c (i * 240) 240

/-- A message of a handshake under way. One that comes while UP is no handshake's, and only its buffer is freed (R140). -/
def inHandshake (n : Fin 32) (f : State → State) (s : State) : State :=
  if !s.alive then s
  else if (s.port n).state = .up then rxFree n 4 s
  else if (s.port n).hs.active && sepRuns s then f s
  else s

/-- A RANDOM as a big-endian integer (R358). -/
def beNat (b : List Byte) : Nat := ofLeBytes b.reverse

/-- The node is the first end (R358). -/
def isFirst (h : Hs) (p : Hello) : Bool := decide (beNat h.random < beNat p.random)

/-- TH (R358). -/
def transcript (s : State) (h : Hs) (p : Hello) : List Byte :=
  let own := helloBytes (ownHello s h) ++ s.chain
  let peer := helloBytes p ++ h.chain
  sha384 (if isFirst h p then own ++ peer else peer ++ own)

/-- The SEP takes up a port's signature, behind those it has taken up before (R356). -/
def takeUpSig (n : Nat) (s : State) : State := { s with sec := { s.sec with sigQueue := s.sec.sigQueue.erase n ++ [n] } }

/-- An older signature is still to be done: the SEP serves the oldest first (R356). -/
def sigAhead (n : Nat) (s : State) : Bool :=
  (s.sec.sigQueue.takeWhile fun k => decide (k ≠ n)).any fun k => decide (k ≠ n) && (s.port k).hs.signing

/-- The partner's chain is complete: its leaf is parsed and compared with the pin and the node's own key, and the SEP begins the
signature (R358, R359). Log: DEDUCED 82. -/
def chainDone (n : Fin 32) (p : Hello) (s : State) : State :=
  let h := (s.port n).hs
  match Config.leafKey h.chain with
  | none => hsFail n 0x05 s
  | some k =>
    if (s.secPort n).pin.any (fun x => decide (x ≠ sha384 k)) then hsFail n 0x07 s
    else if s.boot.otp.any (fun o => decide (o.idHash = sha384 k)) then hsFail n 0x0A s
    else takeUpSig n (s.setPort n { s.port n with hs := { h with leaf := some k, th := transcript s h p, signing := true, lastSent := [] } })

/-- HELLO received: version, chain length, RANDOM and key are checked, and the chain goes out. A repeat of it is ignored.
 Log: DEDUCED 82. -/
def rxHello (n : Fin 32) (x : Hello) (s : State) : State :=
  let h := (s.port n).hs
  if h.partner = some x then s
  else if h.partner.isSome ∨ x.random.length ≠ 32 ∨ x.pubKey.length ≠ 97 then hsFail n 0x02 s
  else if x.version ≠ 1 then hsFail n 0x03 s
  else if 4096 < x.chainLen.toNat then hsFail n 0x05 s
  else if x.random = h.random then hsFail n 0x02 s
  else if (ptOf x.pubKey).isNone then hsFail n 0x04 s
  else
    let s := hsSend n (certMsgs s.chain) (s.setPort n { s.port n with hs := { h with partner := some x } })
    if x.chainLen = 0 then chainDone n x s else s

def execHello (p : Fin 32) (h : Hello) (s : State) : Host.Outcome State Fault Refusal := .next (inHandshake p (rxHello p h) s)

/-- HS_CERT received: the next fragment of the partner's chain; one received before is ignored, one out of order is a fault.
 Log: DEDUCED 82. -/
def rxCert (n : Fin 32) (off : Nat) (bs : List Byte) (s : State) : State :=
  let h := (s.port n).hs
  match h.partner with
  | none => hsFail n 0x02 s
  | some x =>
    if bs = [] ∨ 240 < bs.length then hsFail n 0x02 s
    else if off + bs.length ≤ h.chain.length ∧ (h.chain.drop off).take bs.length = bs then s
    else if off ≠ h.chain.length ∨ x.chainLen.toNat < off + bs.length then hsFail n 0x02 s
    else
      let h := { h with chain := h.chain ++ bs }
      let s := s.setPort n { s.port n with hs := h }
      if h.chain.length = x.chainLen.toNat then chainDone n x s else s

def execHsCert (p : Fin 32) (offset : BitVec 16) (bytes : List Byte) (s : State) : Host.Outcome State Fault Refusal :=
  .next (inHandshake p (rxCert p offset.toNat bytes) s)

/-- FINISH as the node sends it: HMAC under the finish key over TH and its own RANDOM. Log: DEDUCED 82. -/
def finishMsg (h : Hs) : List Byte := [0x23] ++ hmac384 h.finKey (h.th ++ h.random)

/-- VERIFY as the node sends it. Log: DEDUCED 82. -/
def verifyMsg (h : Hs) (s : State) : List Byte := [0x22] ++ idSign (sha384 (h.th ++ h.random)) s

/-- HS_SIGNATURE_DONE: the oldest signature is done (R356). VERIFY goes out, and FINISH after it where the partner's VERIFY has been verified already. -/
def signatureDone (n : Fin 32) (s : State) : State :=
  let h := (s.port n).hs
  if !h.signing || sigAhead n s then s
  else
    let h := { h with signing := false, sentVerify := true, sentFinish := h.gotVerify }
    hsSend n ([verifyMsg h s] ++ (if h.gotVerify then [finishMsg h] else [])) (s.setPort n { s.port n with hs := h })

def execHsSignatureDone (p : Fin 32) (s : State) : Host.Outcome State Fault Refusal :=
  .next (inHandshake p (signatureDone p) s)

/-- The labels of the key schedule: "efp " and a word (R358). -/
def efpLabel (word : List Byte) : List Byte := [0x65, 0x66, 0x70, 0x20] ++ word
def wordFirst : List Byte := [0x66, 0x69, 0x72, 0x73, 0x74]
def wordSecond : List Byte := [0x73, 0x65, 0x63, 0x6F, 0x6E, 0x64]
def wordFinish : List Byte := [0x66, 0x69, 0x6E, 0x69, 0x73, 0x68]
def wordSession : List Byte := [0x73, 0x65, 0x73, 0x73, 0x69, 0x6F, 0x6E]

/-- The keys of the session: each end sends under the key of its own role (R358). -/
def deriveKeys (h : Hs) (p : Hello) : Hs :=
  let prk := hkdfExtract h.th (ecdh (ephKey (h.eph.getD 0)) p.pubKey)
  let key (word : List Byte) : BitVec 256 := BitVec.ofNat 256 (ofLeBytes (hkdfExpand prk (efpLabel word) 32))
  let (own, peer) := if isFirst h p then (wordFirst, wordSecond) else (wordSecond, wordFirst)
  { h with
    derived := some { keyOwn := key own, keyPeer := key peer
                      number := BitVec.ofNat 32 (ofLeBytes (hkdfExpand prk (efpLabel wordSession) 4)) }
    finKey := hkdfExpand prk (efpLabel wordFinish) 48 }

/-- The public key of a SubjectPublicKeyInfo on P-384: its last 97 bytes are the point, uncompressed. -/
def spkiKey (k : List Byte) : List Byte := k.drop (k.length - 97)

/-- VERIFY received: checked under the partner's leaf key over TH and the partner's RANDOM; the keys are derived and FINISH goes out.
 Log: DEDUCED 82. -/
def rxVerify (n : Fin 32) (sig : List Byte) (s : State) : State :=
  let h := (s.port n).hs
  match h.partner, h.leaf with
  | some x, some k =>
    if h.gotVerify then s
    else if !ecdsaOk (spkiKey k) (sha384 (h.th ++ x.random)) sig then hsFail n 0x06 s
    else
      let h := deriveKeys { h with gotVerify := true, sentFinish := h.sentVerify } x
      let s := s.setPort n { s.port n with hs := h }
      if h.sentVerify then hsSend n [finishMsg h] s else s
  | _, _ => hsFail n 0x02 s

def execVerify (p : Fin 32) (sig : List Byte) (s : State) : Host.Outcome State Fault Refusal := .next (inHandshake p (rxVerify p sig) s)

/-- FINISH received: with both FINISH messages through the handshake is complete, it is counted, and the port enters UP. Log: DEDUCED 82. -/
def rxFinish (n : Fin 32) (mac : List Byte) (s : State) : State :=
  let h := (s.port n).hs
  match h.partner with
  | none => hsFail n 0x02 s
  | some x =>
    if !h.gotVerify || !h.sentFinish then hsFail n 0x02 s
    else if mac ≠ hmac384 h.finKey (h.th ++ x.random) then hsFail n 0x08 s
    else
      let s := s.setPort n { s.port n with hs := { h with gotFinish := true, lastSent := [] } }
      attemptSuccess n (s.setSecPort n { s.secPort n with count := sat16 (s.secPort n).count })

def execFinish (p : Fin 32) (mac : List Byte) (s : State) : Host.Outcome State Fault Refusal := .next (inHandshake p (rxFinish p mac) s)

/-- HS_ABORT received: cause 0x09. -/
def execHsAbort (p : Fin 32) (_cause : Byte) (s : State) : Host.Outcome State Fault Refusal := .next (inHandshake p (hsFail p 0x09) s)

/-- HS_RESEND: each 10 microseconds the messages sent last go out again, until the next one expected has come. Log: DEDUCED 82. -/
def hsResend (n : Fin 32) (s : State) : State :=
  if (s.port n).hs.active then (s.port n).hs.lastSent.foldl (fun s m => sendLmc n (padFlits m) s) s else s

def execHsResend (p : Fin 32) (s : State) : Host.Outcome State Fault Refusal := .next (whileAlive (hsResend p) s)

/-- HS_TIMEOUT: the 200 ms limit, cause 0x01. Log: DEDUCED 82. -/
def hsTimeout (n : Fin 32) (s : State) : State := if (s.port n).hs.active then hsFail n 0x01 s else s

def execHsTimeout (p : Fin 32) (s : State) : Host.Outcome State Fault Refusal := .next (whileAlive (hsTimeout p) s)

/-! ## Attestation of the node to a partner (R361) -/

/-- ATTEST_RSP: NONCE, serial, SHA-384 over the measurements, signed (Table 16.4). Log: DEDUCED 83. -/
def attestMsg (nonce : List Byte) (s : State) : List Byte :=
  let ms := s.sec.measured.getD (measures s)
  let body := nonce ++ leBytes 8 s.nid.serial.toNat ++ sha384 ms.flatten
  [0x26] ++ body ++ idSign (sha384 body) s

/-- ATTEST_REQ on a port that is UP. Log: DEDUCED 83. -/
def attest (n : Fin 32) (kind : Byte) (off : Nat) (nonce : List Byte) (s : State) : State :=
  if !s.alive || decide ((s.port n).state ≠ .up) then s
  else
    let s := rxFree n 4 s
    if !sepRuns s then s
    else if kind = 0 then
      if off < s.chain.length then enqueue n (lmcItem (padFlits (certMsg s.chain off (if (s.port n).isSealed then 224 else 240)))) s else s
    else if kind = 1 then enqueue n (lmcItem (padFlits (attestMsg nonce s))) s
    else s

def execAttestReq (p : Fin 32) (kind : Byte) (offset : BitVec 16) (nonce : List Byte) (s : State) : Host.Outcome State Fault Refusal :=
  .next (attest p kind offset.toNat nonce s)

/-! ## Pins (R359) -/

/-- LINK_PIN: from the next handshake on; it is saved in the settings. -/
def linkPin (port action : Byte) (hash : List Byte) (o : Owed) (s : State) : State :=
  orFail o (firstFail [(decide (31 < port.toNat ∨ 1 < action.toNat), .badLength)]) (fun s =>
    let p := port.toNat
    let s := s.setSecPort p { s.secPort p with pin := if action = 1 then some hash else none }
    answer o .ok [] { s with boot := { s.boot with writeDue := true } }) s

def execLinkPin (fn : Fn) (m : MbxHdr) (port action : Byte) (hash : List Byte) (s : State) : Host.Outcome State Fault Refusal :=
  .next (mailbox fn 0x0601 m ([port, action] ++ hash) false (fun s => s.isAdmin fn) (linkPin port action hash) s)

end Sys2Proof.Machine
end

