-- ==== Sys2Proof/Machine/Regs.lean ====
section
/-! DEFINITION. The registers of BAR0 (Table 17.2 and the register tables of every chapter): what each offset reads as, what a write to
it does by its access type (R4 to R8), and which function sees it (R368). -/

namespace Sys2Proof.Machine

/-! ## Generation words (Table 2.8) -/

/-- The instance whose GENCTL (false) or GENDRAIN (true) lies at an offset. -/
def genWordAt (off : Nat) : Option (Nat × Bool) :=
  if off % 4 ≠ 0 then none
  else if 0x28000 ≤ off ∧ off < 0x38000 then
    let o := (off - 0x28000) % 0x200
    let t := (off - 0x28000) / 0x200
    if o = 0x100 then some (admInst t, false) else if o = 0x104 then some (admInst t, true) else none
  else if off = 0x200100 then some (routeInst, false)
  else if off = 0x200104 then some (routeInst, true)
  else if off = 0x200108 then some (bindInst, false)
  else if off = 0x20010C then some (bindInst, true)
  else if off = 0x200110 then some (mcInst, false)
  else if off = 0x200114 then some (mcInst, true)
  else if off = 0x200118 then some (streamInst, false)
  else if off = 0x20011C then some (streamInst, true)
  else if 0x401000 ≤ off ∧ off < 0x401400 then some (tileMapInst ((off - 0x401000) / 8), decide ((off - 0x401000) % 8 = 4))
  else if off = 0xB00020 then some (pinInst, false)
  else if off = 0xB00024 then some (pinInst, true)
  else none

/-- GENCTL of an instance. -/
def genctlWord (s : State) (i : Nat) : Word :=
  let x := s.inst i
  flag 31 x.commit ||| flag 30 (x.commit && x.retired) ||| flag 29 x.retired ||| field 16 (min x.age 4095) ||| x.gen.setWidth 32

/-- GENDRAIN of an instance. -/
def gendrainWord (s : State) (i : Nat) : Word := BitVec.ofNat 32 (min (inflight s i) 0xFFFF)

/-! ## What each block reads as; none where no register is listed -/

def readNid (s : State) (off : Nat) : Option Word :=
  match off with
  | 0x00 => some 0x00570016
  | 0x04 => some steppingWord
  | 0x08 => some s.nid.fw
  | 0x0C => some (field 8 s.nid.partitions ||| BitVec.ofNat 32 s.nid.state.code)
  | 0x10 => some (s.nid.serial.setWidth 32)
  | 0x14 => some ((s.nid.serial >>> 32).setWidth 32)
  | 0x18 => some (BitVec.ofNat 32 s.nid.near)
  | 0x1C => some (BitVec.ofNat 32 s.nid.bulk)
  | 0x20 => some s.nid.status
  | _ => none

/-- A capability's BASE, SIZE, ADMIN and PRESENT (Table 17.3), in the order of the list. -/
def capabilities (s : State) : List (Nat × Nat × Bool × Bool) :=
  let bulk := decide (s.dram.bulk.order ≠ [])
  let cols := (List.range 64).any fun k => decide ((s.col k).state ≠ .unowned ∧ (s.col k).state ≠ .unavailable)
  [(0x10000, 0x10000, true, true), (0x20000, 0xE0000, false, decide (s.nid.partitions ≠ 0)), (0x100000, 0x20000, true, true),
   (0x100000, 0x20000, true, true), (0x900100, 0x100, true, true), (0x210000, 0x4000, true, true), (0x600000, 0x100000, true, true),
   (0x580000, 0x80000, true, bulk), (0x400100, 0x100, true, bulk), (0x700000, 0x100000, false, true), (0x700000, 0x100000, false, true),
   (0x700200, 0x20, true, true), (0x800000, 0x40000, true, cols), (0x840000, 0xC0000, true, cols), (0, 0, true, s.sbd.straps.monitorEn),
   (0xF80000, 0x10, true, true), (0xB00040, 0x40, true, true)]

/-- A word of the capability list (R371). -/
def readCap (s : State) (off : Nat) : Option Word :=
  let i := (off - 0x100) / 16
  match (capabilities s)[i]? with
  | none => none
  | some (base, size, admin, present) =>
    some (match (off - 0x100) % 16 / 4 with
      | 0 => flag 25 admin ||| flag 24 present ||| field 16 1 ||| BitVec.ofNat 32 (i + 1)
      | 1 => BitVec.ofNat 32 (if i = 16 then 0 else 0x100 + 16 * (i + 1))
      | 2 => BitVec.ofNat 32 base
      | _ => BitVec.ofNat 32 size)

def readCrs (s : State) (off : Nat) : Option Word :=
  let o := off - 0x10000
  match o with
  | 0x00 => some (s.course.setWidth 32)
  | 0x04 => some ((s.course >>> 32).setWidth 32)
  | 0x08 => some (BitVec.ofNat 32 s.clk.cycle)
  | 0x0C => some s.crs.status
  | 0x10 => some s.crs.eventEn
  | 0x14 => some 0
  | 0x40 => some s.crs.staleOps
  | 0x44 => some s.crs.staleGens
  | _ =>
    if 0x20 ≤ o ∧ o < 0x34 then
      let x := s.slip ((o - 0x20) / 4)
      some (field 16 x.last.toNat ||| x.count.setWidth 32)
    else none

/-- PTT_TENANT (Table 3.6). -/
def tenantWord (s : State) (t : Nat) : Word :=
  let x := s.tenant t
  field 30 x.state.code ||| field 24 x.part ||| field 16 x.vf

def readPtt (s : State) (off : Nat) : Option Word :=
  if off = 0x20000 then some s.pttStatus
  else if 0x20100 ≤ off ∧ off < 0x20300 then (partWords s ((off - 0x20100) / 0x20))[(off - 0x20100) % 0x20 / 4]?
  else if 0x21000 ≤ off ∧ off < 0x21200 then some (tenantWord s ((off - 0x21000) / 4))
  else none

def readLnk (s : State) (n off : Nat) : Option Word :=
  let p := s.port n
  match off % 0x1000 with
  | 0x00 => some (field 29 p.state.code ||| field 27 p.rate.toNat ||| field 25 p.width.toNat ||| flag 24 p.lean ||| flag 23 p.isSealed ||| p.ev)
  | 0x04 => some 0
  | 0x08 => some p.cfg
  | 0x0C => some (field 28 p.attempts ||| field 24 p.rung ||| field 21 p.retries ||| field 8 p.lockPartner.toNat ||| p.lockLocal.setWidth 32)
  | 0x10 => some (field 16 p.txNext.toNat ||| p.txOldest.setWidth 32)
  | 0x14 => some (flag 31 p.gap ||| p.rxNext.setWidth 32)
  | 0x18 => some (field 16 p.epochPeer.toNat ||| p.epochOwn.setWidth 32)
  | 0x1C => some ((List.range 4).foldl (fun w v => w ||| field (8 * v) (min (p.credit v).have_ 255)) 0)
  | 0x20 => some p.crcErr
  | 0x24 => some p.replays
  | 0x28 => some p.dups
  | 0x2C => some (field 16 p.downs.toNat ||| p.cause.setWidth 32)
  | _ => none

/-- The claim that XPT_COORD_SERIAL shows: the coordinator's, or the best one during the window. -/
def shownClaim (s : State) : Option Claim :=
  let e := s.xpt.elect
  if e.state = 2 then e.own else if e.expiry.isSome then e.best else e.coord

/-- The claim that XPT_ELECT.BEST_PRIO shows: as above, and the best claim while no coordinator is known. -/
def bestShown (s : State) : Option Claim := (shownClaim s).or s.xpt.elect.best

def readXpt (s : State) (off : Nat) : Option Word :=
  let e := s.xpt.elect
  match off - 0x200000 with
  | 0x00 => some s.xpt.status
  | 0x04 => some (field 24 s.cfg.coordPrio.toNat ||| flag 16 s.sbd.straps.coordEligible ||| s.xpt.endpoint.setWidth 32)
  | 0x08 => some (field 24 (((bestShown s).map fun c => c.prio.toNat).getD 0)
      ||| field 16 (match e.expiry with | some b => min (b - s.clk.now) 250 | none => 0) ||| BitVec.ofNat 32 e.state)
  | 0x10 => some (((shownClaim s).map fun c => c.serial.setWidth 32).getD 0)
  | 0x14 => some (((shownClaim s).map fun (c : Claim) => (c.serial >>> 32).setWidth 32).getD 0)
  | 0x20 => some s.xpt.unrouted
  | 0x24 => some s.xpt.noGrant
  | 0x28 => some s.xpt.discard
  | 0x2C => some s.xpt.repeats
  | 0x30 => some s.xpt.mcDrop
  | 0x34 => some s.xpt.mcLocal
  | _ =>
    if 0x220000 ≤ off ∧ off < 0x230000 then
      let k := (off - 0x220000) / 16
      let x := s.stream k
      if off % 16 = 8 then some (field 16 (min (outstanding s k) 511) ||| BitVec.ofNat 32 x.windowNow)
      else if x.closed then some 0
      else some (field 16 x.record.length ||| (match x.record with | r :: _ => r.rseq.setWidth 32 | [] => 0))
    else none

def readMsh (s : State) (off : Nat) : Option Word :=
  match off - 0x300000 with
  | 0x00 => some s.msh.status
  | 0x04 => some s.msh.throttle
  | 0x10 => some (Tbl.get 0 s.msh.defl 0)
  | 0x14 => some (Tbl.get 0 s.msh.defl 1)
  | 0x18 => some (Tbl.get 0 s.msh.defl 2)
  | 0x1C => some (Tbl.get 0 s.msh.defl 3)
  | 0x20 => some s.msh.hdrCorr
  | 0x24 => some s.msh.payBad
  | 0x60 => some s.msh.srIndex
  | 0x64 => some (match Tbl.get none s.msh.sr (bits s.msh.srIndex 15 8 * 64 + bits s.msh.srIndex 5 0) with
      | some (d, w) => flag 31 true ||| field 8 w ||| BitVec.ofNat 32 d
      | none => 0)
  | o =>
    if 0x40 ≤ o ∧ o < 0x58 then
      some ((List.range 32).foldl (fun w b => w ||| flag b (stationDown s (32 * ((o - 0x40) / 4) + b))) 0)
    else none

/-- A bog record's 16 bytes (Table 9.5). -/
def bogBytes (b : Bog) : List Byte :=
  leBytes 5 (b.line + b.tier.bit * 2 ^ 36) ++ [BitVec.ofNat 8 (b.tenant + if b.unmapped then 128 else 0),
    BitVec.ofNat 8 ((if b.inherited then 1 else 0) + (if b.cleared then 2 else 0) + 4 * b.source), 0] ++ leBytes 6 b.course.toNat ++ [0, 0]

/-- What TIL_LK_ENTRY shows a function (R220). -/
def lkEntry (s : State) (fn : Fn) : BitVec 64 :=
  let h := s.host fn.port
  let t := bits h.lkTenant 6 0
  if !seesTenant s fn t true then 0
  else if bit h.lkTenant 7 then s.shadowAt (tileMapInst t) h.lkTile.toNat else s.lookup (tileMapInst t) h.lkTile.toNat

def readTil (s : State) (fn : Fn) (off : Nat) : Option Word :=
  match off - 0x400000 with
  | 0x00 => some s.til.status
  | 0x04 => some (BitVec.ofNat 32 (storeUsed s))
  | 0x08 => some (field 3 s.til.bogs.length ||| BitVec.ofNat 32 s.til.overflow.length)
  | 0x0C => some s.til.bogLost
  | 0x10 => some s.til.retNear
  | 0x14 => some s.til.retBulk
  | 0x20 => some (s.host fn.port).lkTenant
  | 0x24 => some (s.host fn.port).lkTile
  | 0x28 => some ((lkEntry s fn).setWidth 32)
  | 0x2C => some ((lkEntry s fn >>> 32).setWidth 32)
  | 0x30 => some s.til.bogIdx
  | o =>
    if 0x34 ≤ o ∧ o < 0x44 then
      some (match s.til.bogs[s.til.bogIdx.toNat]? with
        | some b => BitVec.ofNat 32 (ofLeBytes (((bogBytes b).drop (o - 0x34)).take 4))
        | none => 0)
    else if 0x100 ≤ o ∧ o < 0x200 then
      let m := s.mig ((o - 0x100) / 16)
      match o % 16 with
      | 0 => some (field 29 m.state ||| field 22 m.tenant ||| field 21 m.dstTier.bit ||| flag 20 m.retire ||| field 16 m.passes
          ||| BitVec.ofNat 32 m.dirty.length)
      | 4 => some (field 22 m.srcTier.bit ||| BitVec.ofNat 32 m.src)
      | 8 => some (field 22 m.dstTier.bit ||| BitVec.ofNat 32 m.dst)
      | _ => none
    else none

/-- A channel's own registers (Table 10.7). -/
def readChan (c : Chan) (t : Tier) (o : Nat) : Option Word :=
  let st : Word := field 29 c.state ||| flag 28 c.suspect ||| (if t = .near then field 26 c.failedPc else 0)
  match t, o with
  | _, 0x00 => some st
  | .near, 0x04 => some c.ce
  | .near, 0x08 => some c.ue
  | .near, 0x0C => some c.odecc
  | .bulk, 0x04 => some (field 16 c.cap ||| field 8 c.ranks ||| field 2 c.dimms ||| BitVec.ofNat 32 c.dimmType)
  | .bulk, 0x08 => some c.ce
  | .bulk, 0x0C => some c.ue
  | .bulk, 0x10 => some c.devcorr
  | _, _ => none

def readTier (s : State) (t : Tier) (off : Nat) : Option Word :=
  let o := off % 0x80000
  let x := s.tier t
  match o with
  | 0x00 => some (field 16 x.order.length ||| flag 3 x.asleep ||| flag 1 x.mapOut ||| x.status)
  | 0x04 => some (if t = .near then x.cfg &&& 0xFFFFFF00#32 else x.cfg)
  | 0x08 => some 0
  | 0x0C => some x.thresh
  | 0x10 => some x.forced
  | _ =>
    if t = .bulk ∧ o = 0x14 then some (BitVec.ofNat 32 x.rate)
    else if t = .bulk ∧ o = 0x18 then some (field 16 x.capMax ||| BitVec.ofNat 32 x.capUsed)
    else if 0x20 ≤ o ∧ o < (if t = .near then 0x40 else 0x24) then some (Tbl.get 0 x.exclude ((o - 0x20) / 4))
    else if t = .near ∧ 0x1000 ≤ o ∧ o < 0x2000 then readChan (s.chan (chanKey .near ((o - 0x1000) / 0x10))) .near (o % 0x10)
    else if t = .bulk ∧ 0x1000 ≤ o ∧ o < 0x1200 then readChan (s.chan (chanKey .bulk ((o - 0x1000) / 0x20))) .bulk (o % 0x20)
    else none

/-- A directory entry as 104 bits (Table 11.1). -/
def entBits (e : DirEnt) : Nat :=
  let st := match e.st with | .i => 0 | .s => 1 | .e => 2 | .m => 3
  let sharers := if e.coarse then e.vec.toNat else (e.ptrs.zipIdx.map fun (p, i) => p * 2 ^ (10 * i)).sum
  e.line / 1572864 * 2 ^ 88 + e.tier.bit * 2 ^ 87 + st * 2 ^ 85 + (if e.coarse then 2 ^ 84 else 0)
    + (if e.coarse then 0 else e.ptrs.length) * 2 ^ 81 + e.keyT * 2 ^ 74 + e.incarn * 2 ^ 64 + sharers

/-- The four words of DIR_LK_ENTRY for the line looked up (Table 11.7). -/
def dirSnapshot (s : State) : List Word :=
  let t := Tier.ofBit (bit s.dir.lkHi 4)
  let l := bits s.dir.lkHi 3 0 * 2 ^ 32 + s.dir.lkLo.toNat
  let trk : Nat := match trkAt s t l with
    | some k => (match k.st with | .sd => 1 | .ga => 2 | .so => 3 | .rc => 4)
    | none => 0
  let (hit, v) := match findEnt s t l with
    | some slot => (true, entBits (s.ent slot))
    | none => (false, 0)
  [BitVec.ofNat 32 v, BitVec.ofNat 32 (v / 2 ^ 32), BitVec.ofNat 32 (v / 2 ^ 64),
   flag 31 hit ||| field 28 trk ||| BitVec.ofNat 32 (v / 2 ^ 96 % 256)]

/-- The snapshot taken for a port at its last read of DIR_LK_ENTRY_0. -/
def snapWord (s : State) (hp i : Nat) : Word := (Tbl.get [] s.dir.snap hp).getD i 0

def readDir (s : State) (fn : Fn) (off : Nat) : Option Word :=
  match off - 0x600000 with
  | 0x00 => some s.dir.status
  | 0x04 => some s.dir.cfg
  | 0x08 => some (BitVec.ofNat 32 (allAgents s).length)
  | 0x10 => some s.dir.recalls
  | 0x14 => some s.dir.staleWb
  | 0x18 => some s.dir.stray
  | 0x1C => some s.dir.tmo
  | 0x20 => some s.dir.depart
  | 0x24 => some s.dir.declined
  | 0x200 => some s.dir.lkLo
  | 0x204 => some s.dir.lkHi
  | 0x208 => some ((dirSnapshot s).getD 0 0)
  | 0x20C => some (snapWord s fn.port 1)
  | 0x210 => some (snapWord s fn.port 2)
  | 0x214 => some (snapWord s fn.port 3)
  | o =>
    if 0x100 ≤ o ∧ o < 0x180 then
      let k := (o - 0x100) / 4
      let trks := (s.dir.trks.filter fun x => decide (sliceOf x.line = k)).length
      let ents := (s.dir.ents.filter fun e => decide (e.1 / (setsPerSlice * 16) = k) && decide (e.2.st ≠ .i)).length
      some (field 22 trks ||| BitVec.ofNat 32 ents)
    else if 0x1000 ≤ o ∧ o < 0x2000 then
      some (match Tbl.get none s.dir.agents ((o - 0x1000) / 4) with
        | some ep => flag 31 true ||| ep.setWidth 32
        | none => 0)
    else none

/-- The queue whose registers lie at an offset of a function, and the offset within it (Table 12.10). -/
def queueAt (s : State) (fn : Fn) (off : Nat) : Option (QId × Nat) :=
  if fn.vf ≠ 0 then
    match tenantOfVf s fn.port fn.vf with
    | some t => if off < 0x8000 ∧ off % 0x1000 < 0x34 then some (.tenant (Fin.ofNat 128 t) (Fin.ofNat 8 (off / 0x1000)), off % 0x1000) else none
    | none => none
  else if 0x701000 ≤ off ∧ off < 0x701200 ∧ off % 0x40 < 0x34 then some (.admin (Fin.ofNat 8 ((off - 0x701000) / 0x40)), off % 0x40)
  else if 0x710000 ≤ off ∧ off < 0x720000 ∧ off % 0x40 < 0x34 then
    some (.tenant (Fin.ofNat 128 ((off - 0x710000) / 0x200)) (Fin.ofNat 8 ((off - 0x710000) % 0x200 / 0x40)), off % 0x40)
  else none

/-- ENG_INST_k: commands in flight and queues bound (Table 12.9). A scrub queue may send a pass to either scrub engine. -/
def engInst (s : State) (k : Nat) : Word :=
  let count (f : Queue → Cmd → Bool) := (s.eng.queues.map fun e => (e.2.cmds.filter fun c => decide (c.phase = .running) && f e.2 c).length).sum
  let bound (f : Queue → Bool) := (s.eng.queues.filter fun e => decide (e.2.state ≠ 0) && f e.2).length
  let word (f : Queue → Cmd → Bool) (g : Queue → Bool) : Word := field 16 (min (count f) 0xFFFF) ||| BitVec.ofNat 32 (min (bound g) 0xFFFF)
  if k < 4 then word (fun x _ => decide (x.cls = 0 ∧ x.inst = k)) fun x => decide (x.cls = 0 ∧ x.inst = k)
  else if k < 6 then
    word (fun x c => decide (x.cls = 1 ∧ scrubTier c.desc = if k = 4 then .bulk else .near)) fun x => decide (x.cls = 1)
  else if k < 8 then word (fun x _ => decide (x.cls = 2 ∧ x.inst = k - 6)) fun x => decide (x.cls = 2 ∧ x.inst = k - 6)
  else word (fun x _ => decide (x.cls = 3)) fun x => decide (x.cls = 3)

def readEng (s : State) (off : Nat) : Option Word :=
  let o := off - 0x700000
  if o = 0 then some s.eng.status
  else if 0x100 ≤ o ∧ o < 0x124 then some (engInst s ((o - 0x100) / 4))
  else if 0x200 ≤ o ∧ o < 0x220 then
    let k := (o - 0x200) / 16
    some (match o % 16 / 4 with
      | 0 => Tbl.get 0 s.eng.points k
      | 1 => Tbl.get 0 s.eng.dropped k
      | 2 => Tbl.get 0 s.eng.short k
      | _ => Tbl.get 0 s.eng.pairs k)
  else none

def readArr (s : State) (off : Nat) : Option Word :=
  match off - 0x800000 with
  | 0x00 => some s.arr.status
  | 0x04 => some s.arr.cfg
  | 0x10 => some s.arr.launches
  | 0x14 => some s.arr.abnormal
  | o => if 0x100 ≤ o ∧ o < 0x200 then some (colWord s ((o - 0x100) / 4)) else none

def readCfg (s : State) (off : Nat) : Option Word :=
  match off - 0x840000 with
  | 0x00 => some s.arr.cfgStatus
  | 0x04 => some (flag 0 s.arr.rbEn)
  | 0x08 => some (field 12 (min s.arr.rbPasses 0xFFFFF) ||| BitVec.ofNat 32 s.arr.rbSlot)
  | 0x10 => some s.arr.sbuEss
  | 0x14 => some s.arr.sbuNon
  | 0x18 => some s.arr.mbuHalt
  | 0x1C => some s.arr.mbuNon
  | 0x20 => some s.arr.chkUpset
  | 0x24 => some s.arr.loadsHost
  | 0x28 => some s.arr.loadsSlp
  | 0x2C => some s.arr.loadFail
  | 0x30 => some s.arr.lastUpset
  | _ => none

/-- Word k of a hash, little-endian (R365). -/
def hashWord (h : List Byte) (k : Nat) : Word := BitVec.ofNat 32 (ofLeBytes ((h.drop (4 * k)).take 4))

def readSec (s : State) (off : Nat) : Option Word :=
  let o := off - 0x900000
  if o = 0 then some s.sec.status
  else if o = 4 then some (field 16 s.sec.apt.toNat ||| s.sec.rct.setWidth 32)
  else if o = 8 then some (field 16 s.sec.spdmErr.toNat ||| s.sec.spdmAns.setWidth 32)
  else if 0x10 ≤ o ∧ o < 0x20 then
    some ((List.range 32).foldl (fun w b => w ||| flag b (s.tenant (32 * ((o - 0x10) / 4) + b)).key.isSome) 0)
  else if 0x20 ≤ o ∧ o < 0x50 then some ((s.boot.otp.map fun x => hashWord x.idHash ((o - 0x20) / 4)).getD 0)
  else if 0x50 ≤ o ∧ o < 0x80 then some ((s.boot.otp.map fun x => hashWord x.fwKeyHash ((o - 0x50) / 4)).getD 0)
  else if 0x100 ≤ o ∧ o < 0x200 then
    let n := (o - 0x100) / 8
    if o % 8 = 0 then
      let x := s.secPort n
      some (field 24 x.cause.toNat ||| flag 16 x.pin.isSome ||| x.count.setWidth 32)
    else some (match (s.port n).sess with | some k => if (s.port n).isSealed then k.number else 0 | none => 0)
  else none

def readFlt (s : State) (off : Nat) : Option Word :=
  match off - 0xA00000 with
  | 0x00 => some (flag 2 s.flt.logWrap ||| flag 1 s.flt.fatal ||| flag 0 s.flt.illegal)
  | 0x04 => some (field 16 s.flt.all ||| BitVec.ofNat 32 s.flt.first)
  | 0x08 => some (BitVec.ofNat 32 s.flt.course)
  | 0x0C => some (BitVec.ofNat 32 (s.flt.course / 2 ^ 32))
  | 0x10 => some s.flt.next
  | 0x14 => some s.flt.lost
  | o =>
    if 0x20 ≤ o ∧ o < 0x34 then
      let x := s.wd ((o - 0x20) / 4)
      some (field 16 x.last.toNat ||| flag 15 x.held ||| x.restarts.setWidth 32)
    else if 0x10000 ≤ o ∧ o < 0x18000 then
      some (match s.flt.log.find? fun e => decide (e.seq.toNat % 1024 = (o - 0x10000) / 32) with
        | some e => BitVec.ofNat 32 (ofLeBytes (((fltBytes e).drop (o % 32)).take 4))
        | none => 0)
    else none

def readBoot (s : State) (off : Nat) : Option Word :=
  match off - 0xA08000 with
  | 0x00 => some s.boot.status
  | 0x04 => some s.boot.cause
  | 0x08 => some ((match newestHdr s with | some (_, x) => field 16 x.version.toNat | none => 0) ||| (s.boot.settings &&& 0xFFFF#32))
  | 0x0C => some s.boot.cal
  | 0x10 => some s.boot.selftest
  | 0x14 => some s.boot.times
  | _ => none

/-- The two bits of SBD_PIN_STATE for a pin (Table 4.11). Log: DESIGN CHOICE 25, DEDUCED 30. -/
def pinCode (s : State) (n : Nat) : Nat :=
  match (s.pin n).phase with
  | .hiz => 0
  | .guard b => if b ≤ s.clk.now + 2 then 1 else 0
  | .active => 2

/-- The level at a pin's land: what the node drives, or what the board makes it (Table 4.6); UART2_TXD is high when idle, as UART_TXD is,
and SMB2_ALERT_N follows SMB_ALERT_N. Log: DESIGN CHOICE 25. -/
def landLevel (s : State) (n : Nat) : Bool :=
  let x := s.pin n
  let f := pinEff (pinTable s) n
  if x.phase = .active ∧ f = 2 then bit s.sbd.gpioOut n
  else if x.phase = .active ∧ f = 3 ∧ !bit s.sbd.gpioOut n then false
  else if x.phase = .active ∧ f = 4 then true
  else if x.phase = .active ∧ f = 7 ∧ s.sbd.alert then false
  else if x.phase = .active ∧ f = 9 ∧ x.ledOn then false
  else Config.boardLevel s.clk.now s.clk.cycle n

def readSbd (s : State) (off : Nat) : Option Word :=
  match off - 0xB00000 with
  | 0x00 => some s.sbd.status
  | 0x04 => some (strapsWord s.sbd.straps)
  | 0x08 => some s.sbd.smbCfg
  | 0x0C => some (field 16 s.sbd.arb.toNat ||| s.sbd.noAcks.setWidth 32)
  | 0x10 => some s.sbd.spiInfo
  | 0x14 => some s.sbd.gpioOut
  | 0x18 => some ((List.range 16).foldl (fun w n => w ||| flag n (landLevel s n)) 0)
  | 0x1C => some ((List.range 16).foldl (fun w n => w ||| field (2 * n) (pinCode s n)) 0)
  | 0x28 => some s.sbd.drop
  | o =>
    if 0x80 ≤ o ∧ o < 0xA0 then
      let n := (o - 0x80) / 4
      some (field 16 (s.pin (2 * n + 1)).count.toNat ||| (s.pin (2 * n)).count.setWidth 32)
    else none

/-- The MBX_ block of a function (Table 17.11). GO reads 0: it is back at 0 once the write has taken effect. Log: DESIGN CHOICE 98. -/
def readMbx (s : State) (hp : Fin 4) (off : Nat) : Option Word :=
  let h := s.host hp
  match off - 0xF00000 with
  | 0x00 => some (flag 3 h.overflow ||| flag 2 h.busy ||| flag 1 h.done ||| flag 0 h.illegal)
  | 0x04 => some 0
  | 0x10 => some (h.evBase.setWidth 32)
  | 0x14 => some ((h.evBase >>> 32).setWidth 32)
  | 0x18 => some h.evCfg
  | 0x1C => some (flag 16 h.evPhase ||| BitVec.ofNat 32 h.evTail)
  | 0x20 => some (BitVec.ofNat 32 h.evHead)
  | 0x24 => some h.evLost
  | 0x28 => some (BitVec.ofNat 32 h.backlog.length)
  | o =>
    if 0x1000 ≤ o ∧ o < 0x2000 then some (Tbl.get 0 h.cmd ((o - 0x1000) / 4))
    else if 0x2000 ≤ o ∧ o < 0x3000 then some (BitVec.ofNat 32 (ofLeBytes ((h.ans.drop (o - 0x2000)).take 4)))
    else none

def readPwr (s : State) (off : Nat) : Option Word :=
  match off - 0xF80000 with
  | 0x00 => some s.pwr.cap
  | 0x04 => some (field 16 s.pwr.level ||| flag 12 s.pwr.capUnmet ||| BitVec.ofNat 32 s.pwr.effective)
  | 0x08 => some (field 16 s.pwr.temp.toNat ||| s.pwr.watts.setWidth 32)
  | 0x0C => some (BitVec.ofNat 32 s.pwr.bmc)
  | _ => none

/-- A queue register (Table 12.10). -/
def readQ (s : State) (q : QId) (r : Nat) : Option Word := (queueWords (s.queue (qNum q)))[r / 4]?

/-- The register at an aligned offset of a function's BAR0, its view left aside. A table entry reads its shadow, but a stream's entry,
which is RO, what is in force (R8). -/
def readReg (s : State) (fn : Fn) (off : Nat) : Option Word :=
  match queueAt s fn off with
  | some (q, r) => readQ s q r
  | none =>
    if fn.vf ≠ 0 then none
    else
      match genWordAt off with
      | some (i, drain) => some (if drain then gendrainWord s i else genctlWord s i)
      | none =>
        match tableSlot off with
        | some (i, k) => some ((if i = streamInst then s.lookup i k else s.shadowAt i k).setWidth 32)
        | none =>
          match blkOf off with
          | .nid => readNid s off
          | .cap => readCap s off
          | .crs => readCrs s off
          | .ptt => readPtt s off
          | .lnk n => readLnk s n off
          | .xpt => readXpt s off
          | .msh => readMsh s off
          | .til => readTil s fn off
          | .tier t => readTier s t off
          | .dir => readDir s fn off
          | .eng => readEng s off
          | .arr => readArr s off
          | .cfg => readCfg s off
          | .sec => readSec s off
          | .flt => readFlt s off
          | .boot => readBoot s off
          | .sbd => readSbd s off
          | .mbx => readMbx s fn.port off
          | .pwr => readPwr s off
          | .hole => none

/-! ## Views (R26, R72, R117, R220, R290, R368) -/

/-- The tenant is one of the function's own. -/
def ownTenant (s : State) (fn : Fn) (t : Nat) : Bool := decide ((s.tenant t).state ≠ .free) && s.owns fn (s.tenant t).part

/-- A PTT_ register that belongs to the function's own partitions and tenants (R72). -/
def pttOwn (s : State) (fn : Fn) (off : Nat) : Bool :=
  if 0x20100 ≤ off ∧ off < 0x20300 then s.owns fn ((off - 0x20100) / 0x20)
  else if 0x21000 ≤ off ∧ off < 0x21200 then ownTenant s fn ((off - 0x21000) / 4)
  else if 0x28000 ≤ off ∧ off < 0x38000 then ownTenant s fn ((off - 0x28000) / 0x200)
  else false

/-- A TIL_ register that a partition owner sees (R220). -/
def tilOwn (s : State) (fn : Fn) (off : Nat) : Bool :=
  if 0x400020 ≤ off ∧ off < 0x400030 then true
  else if 0x401000 ≤ off ∧ off < 0x401400 then ownTenant s fn ((off - 0x401000) / 8)
  else false

/-- A queue of one of the function's own tenants lies at the offset (R290). -/
def engOwn (s : State) (fn : Fn) (off : Nat) : Bool :=
  decide (0x710000 ≤ off ∧ off < 0x720000) && ownTenant s fn ((off - 0x710000) / 0x200)

/-- The offsets a function may write (Table 17.2). Log: DEDUCED 90. -/
def mayWrite (s : State) (fn : Fn) (off : Nat) : Bool :=
  s.isAdmin fn || decide (fn.vf ≠ 0) || (match blkOf off with
    | .ptt => pttOwn s fn off
    | .til => tilOwn s fn off
    | .eng => engOwn s fn off
    | .mbx => true
    | .hole => true
    | _ => false)

/-- The offsets a function sees (Table 17.2). Log: DEDUCED 90. -/
def maySee (s : State) (fn : Fn) (off : Nat) : Bool :=
  mayWrite s fn off || (match blkOf off with
    | .nid => true
    | .cap => true
    | .sec => decide (0x900020 ≤ off ∧ off < 0x900050)
    | .boot => true
    | _ => false)

/-- What still answers in FATAL and in the no-image state (R26, R117). -/
def fatalReadable (off : Nat) : Bool := decide (off < 0x100) || decide (0xA00000 ≤ off ∧ off < 0xB00000) || decide (off = 0x900000)

/-- The offset answers the function: it lies in its view, and in FATAL and in the no-image state it is one that still answers. -/
def answers (s : State) (fn : Fn) (off : Nat) : Bool :=
  maySee s fn off && (s.takesHost || (fatalReadable off && decide (fn.vf = 0)))

/-- The value a function reads at an aligned offset. -/
def readAt (s : State) (fn : Fn) (off : Nat) : Word := if answers s fn off then (readReg s fn off).getD 0 else 0

/-- The register at the offset has W1C bits (Table 0.2): the status registers, a channel's state and a queue's status. Log: DEDUCED 100. -/
def hasW1c (s : State) (fn : Fn) (off : Nat) : Bool :=
  match queueAt s fn off with
  | some (_, r) => decide (r = 0x28)
  | none =>
    decide (fn.vf = 0) && (match blkOf off with
      | .nid => decide (off = 0x20)
      | .crs => decide (off = 0x1000C)
      | .ptt => decide (off = 0x20000)
      | .lnk _ => decide (off % 0x1000 = 0)
      | .tier .near => decide (off = 0x500000) || decide (0x501000 ≤ off ∧ off < 0x502000 ∧ off % 0x10 = 0)
      | .tier .bulk => decide (off = 0x580000) || decide (0x581000 ≤ off ∧ off < 0x581200 ∧ off % 0x20 = 0)
      | .boot => decide (off = 0xA08000)
      | .xpt => decide (off = 0x200000)
      | .msh => decide (off = 0x300000)
      | .til => decide (off = 0x400000)
      | .dir => decide (off = 0x600000)
      | .eng => decide (off = 0x700000)
      | .arr => decide (off = 0x800000)
      | .cfg => decide (off = 0x840000)
      | .sec => decide (off = 0x900000)
      | .flt => decide (off = 0xA00000)
      | .sbd => decide (off = 0xB00000)
      | .mbx => decide (off = 0xF00000)
      | .cap => false
      | .pwr => false
      | .hole => false)

/-! ## Register pairs (R5) -/

/-- The low word of a 64-bit pair lies at the offset. -/
def pairLow (s : State) (fn : Fn) (off : Nat) : Bool :=
  match queueAt s fn off with
  | some (_, r) => decide (r = 0x04 ∨ r = 0x0C)
  | none =>
    decide (fn.vf = 0) && (decide (off = 0x10 ∨ off = 0x10000 ∨ off = 0x200010 ∨ off = 0x400028 ∨ off = 0x600200 ∨ off = 0xA00008 ∨ off = 0xF00010)
      || (match tableSlot off with | some (i, k) => decide (i = mcInst ∧ k % 16 = 2) | none => false))

/-- The key under which a function's held and captured words stand. -/
def pairKey (fn : Fn) (off : Nat) : Nat := fn.vf * 2 ^ 26 + off

/-- The slot of the captures that are the monitor's own (R5, R390). Log: DEDUCED 89. -/
def monSlot : Nat := 4

/-- A read as it reaches the node: of any other size or alignment, or at an offset that does not answer, it returns 0 and does nothing
(R4, R26). A low word captures the high word,
the next read of the high word returns it (R5), and DIR_LK_ENTRY_0 takes its snapshot (R266). `slot` names whose captures are used. -/
def readPort (slot : Nat) (fn : Fn) (off size : Nat) (s : State) : Word × State :=
  if size ≠ 4 ∨ off % 4 ≠ 0 ∨ answers s fn off = false then (0, s)
  else
    let v := if slot = monSlot ∧ 0x60020C ≤ off ∧ off ≤ 0x600214 then snapWord s slot ((off - 0x600208) / 4) else readAt s fn off
    let h := s.host slot
    let key := pairKey fn off
    if pairLow s fn off then
      (v, s.setHost slot { h with capture := Tbl.put none h.capture key (some (readAt s fn (off + 4))) })
    else if off ≥ 4 && pairLow s fn (off - 4) then
      match Tbl.get none h.capture (key - 4) with
      | some w => (w, s.setHost slot { h with capture := Tbl.put none h.capture (key - 4) none })
      | none => (v, s)
    else if fn.vf = 0 && off = 0x600208 then
      (v, { s with dir := { s.dir with snap := Tbl.put [] s.dir.snap slot (dirSnapshot s) } })
    else (v, s)

/-- A function's read and what it returned. -/
def busRead (fn : Fn) (off size : Nat) (s : State) : State :=
  if !hostUp s fn then s
  else
    let (v, s) := readPort fn.port fn off size s
    s.emit (.regRead fn off v)

/-! ## Writes -/

/-- A queue register is written (Table 12.10). Log: DEDUCED 61. -/
def writeQ (q : QId) (r : Nat) (v : Word) (s : State) : State :=
  if r = 0x14 then writeSqTail q v s
  else if r = 0x1C then writeCqHead q v s
  else if r = 0x24 then writeAbort q v s
  else if r = 0x28 then s.setQueue (qNum q) { s.queue (qNum q) with illegal := (s.queue (qNum q)).illegal && !bit v 0 }
  else illegal 0 .eng s

/-- COMMIT is written (R44, R73). -/
def writeGenctl (i : Nat) (v : Word) (s : State) : State :=
  if 128 ≤ i ∧ i < 256 ∧ (s.tenant (i - 128)).state ≠ .live then illegal 0 .ptt s
  else if bit v 31 then s.setCommit i else s

/-- An entry of a generation-managed table is written (R7, R37, R73, R178). -/
def writeSlot (hp : Fin 4) (off i k : Nat) (v : Word) (s : State) : State :=
  if i = streamInst then illegal hp .xpt s
  else if 128 ≤ i ∧ i < 256 ∧ (s.tenant (i - 128)).state ≠ .live then illegal hp .ptt s
  else if !slotOk i k v then illegal hp (blkOf off) s
  else s.putShadow i k (slotValue i k v)

/-- LNK_CFG places a reserved encoding (Table 6.9). -/
def lnkCfgOk (v : Word) : Bool :=
  decide (bits v 31 24 ≠ 0) && decide (bits v 23 20 ≠ 0) && decide (1 ≤ bits v 19 8 ∧ bits v 19 8 ≤ 2048) && decide (bits v 3 2 ≠ 3)
    && decide (bits v 1 0 ≠ 3)

/-- How many of the low n bits are set. -/
def lowOnes (v : Word) (n : Nat) : Nat := ((List.range n).filter fun i => bit v i).length

def writeLnk (n : Fin 32) (o : Nat) (v : Word) (s : State) : Option State :=
  match o with
  | 0x00 => some (s.setPort n { s.port n with ev := w1c (s.port n).ev v 0x1F })
  | 0x04 =>
    if 1 < lowOnes v 3 then none
    else some (if bit v 0 then lnkRetrain n s else if bit v 1 then lnkEnable n s else if bit v 2 then lnkDisable n s else s)
  | 0x08 => if lnkCfgOk v then some (s.setPort n { s.port n with cfg := v &&& 0xFFFFFF6F#32 }) else none
  | _ => none

/-- A tier's register is written: none where the write is an illegal one. Log: DEDUCED 52. -/
def writeTier (t : Tier) (o : Nat) (v : Word) (s : State) : Option State :=
  let x := s.tier t
  match o with
  | 0x00 => some (s.setTier t { x with status := w1c x.status v (if t = .bulk then 0x35 else 0x15) })
  | 0x04 =>
    if bits v 23 16 = 0 ∨ bits v 15 8 = 0 ∨ (t = .bulk ∧ 4 < bits v 3 0) then none
    else
      let s := s.setTier t { x with cfg := if t = .bulk then v &&& 0xFFFFFF0F#32 else (v &&& 0xFFFFFF00#32) ||| (x.cfg &&& 0xF#32) }
      some (if t = .bulk ∧ bits v 3 0 ≠ bits x.cfg 3 0 then { s with boot := { s.boot with writeDue := true } } else s)
  | 0x08 =>
    if 1 < lowOnes v (if t = .bulk then 3 else 2) then none
    else some (if bit v 0 then tierSleep t s else if bit v 1 then wakeTier t s else if t = .bulk ∧ bit v 2 then rateApply s else s)
  | 0x0C => some ((List.range (channels t)).foldl (fun s ch => suspectCheck t ch s) (s.setTier t { x with thresh := v &&& 0xFFFF#32 }))
  | _ =>
    if 0x20 ≤ o ∧ o < (if t = .near then 0x40 else 0x24) then
      let s := s.setTier t { x with exclude := Tbl.put 0 x.exclude ((o - 0x20) / 4) (if t = .near then v else v &&& 0xFFFF#32) }
      some { s with boot := { s.boot with writeDue := true } }
    else if t = .near ∧ 0x1000 ≤ o ∧ o < 0x2000 ∧ o % 0x10 = 0 then some (if bit v 28 then suspectClear .near ((o - 0x1000) / 0x10) s else s)
    else if t = .bulk ∧ 0x1000 ≤ o ∧ o < 0x1200 ∧ o % 0x20 = 0 then some (if bit v 28 then suspectClear .bulk ((o - 0x1000) / 0x20) s else s)
    else none

/-- A write of MBX_EV_CFG (R379). -/
def writeEvCfg (hp : Fin 4) (v : Word) (s : State) : Option State :=
  let h := s.host hp
  let on := bit v 31
  let n := bits v 20 16
  if n < 6 ∨ 16 < n ∨ (h.evOn ∧ on ∧ n ≠ bits h.evCfg 20 16) then none
  else
    let cfg := v &&& 0x801F0000#32
    if on && !h.evOn then some (drainRing hp 64 (s.setHost hp { h with evCfg := cfg, evTail := 0, evHead := 0, evPhase := true }))
    else some (s.setHost hp { h with evCfg := cfg })

/-- A write of MBX_EV_HEAD (R379): the events that wait are written as room appears. -/
def writeEvHead (hp : Fin 4) (v : Word) (s : State) : Option State :=
  let h := s.host hp
  let n := h.evSize
  let k := bits v 15 0
  if !h.evOn ∨ n ≤ k ∨ (h.evTail + n - h.evHead) % n < (k + n - h.evHead) % n then none
  else some (drainRing hp 64 (s.setHost hp { h with evHead := k }))

def writeMbx (hp : Fin 4) (o : Nat) (v : Word) (s : State) : Option State :=
  let h := s.host hp
  match o with
  | 0x00 => some (s.setHost hp { h with overflow := h.overflow && !bit v 3, illegal := h.illegal && !bit v 0 })
  | 0x04 => if bit v 0 ∧ h.busy then none else some s
  | 0x18 => writeEvCfg hp v s
  | 0x20 => writeEvHead hp v s
  | _ =>
    if 0x1000 ≤ o ∧ o < 0x2000 then
      if h.busy then none else some (s.setHost hp { h with cmd := Tbl.put 0 h.cmd ((o - 0x1000) / 4) v })
    else none

/-- The CRS_ block (Table 2.3). -/
def writeCrs (o : Nat) (v : Word) (s : State) : Option State :=
  match o with
  | 0x0C => some { s with crs := { s.crs with status := w1c s.crs.status v 7 } }
  | 0x10 => some { s with crs := { s.crs with eventEn := v &&& 3#32 } }
  | 0x14 => some (slipClear v [] s)
  | _ => none

/-- The MSH_ block (Table 8.4). -/
def writeMsh (o : Nat) (v : Word) (s : State) : Option State :=
  match o with
  | 0x00 => some { s with msh := { s.msh with status := w1c s.msh.status v 15 } }
  | 0x04 => if bits v 23 16 ≤ bits v 15 8 ∨ bits v 3 0 = 0 then none else some (setThrottle (v &&& 0x00FFFF0F#32) s)
  | 0x60 => if 191 < bits v 15 8 then none else some { s with msh := { s.msh with srIndex := v &&& 0x0000FF3F#32 } }
  | _ => none

/-- The TIL_ block (Table 9.6); the lookup words are the port's own (R220). -/
def writeTil (hp : Fin 4) (o : Nat) (v : Word) (s : State) : Option State :=
  match o with
  | 0x00 => some { s with til := { s.til with status := w1c s.til.status v 15 } }
  | 0x20 => some (s.setHost hp { s.host hp with lkTenant := v &&& 0xFF#32 })
  | 0x24 => some (s.setHost hp { s.host hp with lkTile := v &&& 0x07FFFFFF#32 })
  | 0x30 => some { s with til := { s.til with bogIdx := v &&& 0xFFFFF#32 } }
  | _ => none

/-- The DIR_ block (Table 11.7). -/
def writeDir (o : Nat) (v : Word) (s : State) : Option State :=
  match o with
  | 0x00 => some { s with dir := { s.dir with status := w1c s.dir.status v 15 } }
  | 0x04 => if bits v 7 0 = 0 then none else some { s with dir := { s.dir with cfg := v &&& 0xFF#32 } }
  | _ => none

/-- The ARR_ block (Table 14.8). -/
def writeArr (o : Nat) (v : Word) (s : State) : Option State :=
  match o with
  | 0x00 => some { s with arr := { s.arr with status := w1c s.arr.status v 7 } }
  | 0x04 => some { s with arr := { s.arr with cfg := v &&& 0xFF#32 } }
  | _ => none

/-- The CFG_ block (Table 15.7). -/
def writeCfg (o : Nat) (v : Word) (s : State) : Option State :=
  match o with
  | 0x00 => some { s with arr := { s.arr with cfgStatus := w1c s.arr.cfgStatus v 7 } }
  | 0x04 => some { s with arr := { s.arr with rbEn := bit v 0 } }
  | _ => none

/-- The SBD_ block (Table 4.11). -/
def writeSbd (o : Nat) (v : Word) (s : State) : Option State :=
  match o with
  | 0x00 => some { s with sbd := { s.sbd with status := w1c s.sbd.status v 15 } }
  | 0x08 => some { s with sbd := { s.sbd with smbCfg := v &&& 7#32 } }
  | 0x14 => some { s with sbd := { s.sbd with gpioOut := v &&& 0xFFFF#32 } }
  | _ => none

/-- PWR_CAP (R383): 300 to 2,400 W. -/
def writePwr (off : Nat) (v : Word) (s : State) : Option State :=
  if off = 0xF80000 ∧ 300 ≤ bits v 11 0 ∧ bits v 11 0 ≤ 2400 then some { s with pwr := { s.pwr with cap := v &&& 0xFFF#32 } } else none

/-- A write of FLT_BOOT_STATUS: every field but ILLEGAL_WRITE is RO, and a 1 placed in one sets ILLEGAL_WRITE, which then stays set
(R9, R127). Log: DEDUCED 118. -/
def writeBootStatus (v : Word) (s : State) : State :=
  { s with boot := { s.boot with status := if v &&& 0x00FF03FF#32 = 0 then w1c s.boot.status v 0x400 else setBit s.boot.status 10 } }

/-- A write to a register of a block that is no pair, table entry, generation word or queue register; none where it is discarded and
sets the block's ILLEGAL_WRITE. -/
def writeBlk (fn : Fn) (off : Nat) (v : Word) (s : State) : Option State :=
  match blkOf off with
  | .nid => if off = 0x20 then some { s with nid := { s.nid with status := w1c s.nid.status v 1 } } else none
  | .crs => writeCrs (off - 0x10000) v s
  | .ptt => if off = 0x20000 then some { s with pttStatus := w1c s.pttStatus v 1 } else none
  | .lnk n => writeLnk (Fin.ofNat 32 n) (off % 0x1000) v s
  | .xpt => if off = 0x200000 then some { s with xpt := { s.xpt with status := w1c s.xpt.status v 15 } } else none
  | .msh => writeMsh (off - 0x300000) v s
  | .til => writeTil fn.port (off - 0x400000) v s
  | .tier t => writeTier t (off % 0x80000) v s
  | .dir => writeDir (off - 0x600000) v s
  | .eng => if off = 0x700000 then some { s with eng := { s.eng with status := w1c s.eng.status v 1 } } else none
  | .arr => writeArr (off - 0x800000) v s
  | .cfg => writeCfg (off - 0x840000) v s
  | .sec => if off = 0x900000 then some { s with sec := { s.sec with status := w1c s.sec.status v 3 } } else none
  | .flt =>
    if off = 0xA00000 then some { s with flt := { s.flt with logWrap := s.flt.logWrap && !bit v 2, illegal := s.flt.illegal && !bit v 0 } } else none
  | .boot => if off = 0xA08000 then some (writeBootStatus v s) else none
  | .sbd => writeSbd (off - 0xB00000) v s
  | .mbx => writeMbx fn.port (off - 0xF00000) v s
  | .pwr => writePwr off v s
  | .cap => some s
  | .hole => some s

/-- A low word of a pair that may be written is held (R5); none where the write is an illegal one. -/
def writeLow (fn : Fn) (off : Nat) (v : Word) (s : State) : Option State :=
  let h := s.host fn.port
  let held := s.setHost fn.port { h with hold := Tbl.put none h.hold off (some v) }
  if off = 0xF00010 then if h.evOn ∨ bits v 11 0 ≠ 0 then none else some held
  else if off = 0x600200 then some held
  else match tableSlot off with
    | some (i, k) => if slotOk i k v then some held else none
    | none => none

/-- A high word is written: it applies together with the held low word, or alone (R5). -/
def writeHigh (fn : Fn) (off : Nat) (v : Word) (s : State) : Option State :=
  let h := s.host fn.port
  let low := Tbl.get none h.hold (off - 4)
  let s' := s.setHost fn.port { h with hold := Tbl.put none h.hold (off - 4) none }
  if off = 0xF00014 then
    if h.evOn then none
    else
      let lo : BitVec 32 := low.getD (h.evBase.setWidth 32)
      some (s'.setHost fn.port { s'.host fn.port with evBase := (v.setWidth 64 <<< 32) ||| lo.setWidth 64 })
  else if off = 0x600204 then
    some { s' with dir := { s'.dir with lkHi := v &&& 0x1F#32, lkLo := low.getD s'.dir.lkLo } }
  else match tableSlot off with
    | some (i, k) =>
      let s'' := match low with
        | some w => s'.putShadow i (k - 1) (slotValue i (k - 1) w)
        | none => s'
      some (s''.putShadow i k (slotValue i k v))
    | none => none

/-- The offset is a word of a pair that is written: its low word, or its high word. -/
def pairWritable (s : State) (fn : Fn) (off : Nat) : Option Bool :=
  let isOf (o : Nat) := pairLow s fn o && (decide (o = 0xF00010 ∨ o = 0x600200) || (tableSlot o).isSome)
  if fn.vf ≠ 0 then none
  else if isOf off then some true
  else if 4 ≤ off && isOf (off - 4) then some false
  else none

/-- An aligned word write to an offset the function may write. A write to an offset with no register is discarded; to an RO register, or
with a reserved encoding, it sets ILLEGAL_WRITE. Log: DEDUCED 90. -/
def writeReg (fn : Fn) (off : Nat) (v : Word) (s : State) : State :=
  match queueAt s fn off with
  | some (q, r) => writeQ q r v s
  | none =>
    if fn.vf ≠ 0 then s
    else
      match pairWritable s fn off with
      | some lo => ((if lo then writeLow fn off v s else writeHigh fn off v s)).getD (illegal fn.port (blkOf off) s)
      | none =>
        match genWordAt off with
        | some (i, drain) => if drain then illegal fn.port (blkOf off) s else writeGenctl i v s
        | none =>
          match tableSlot off with
          | some (i, k) => writeSlot fn.port off i k v s
          | none =>
            if (readReg s fn off).isNone then s
            else (writeBlk fn off v s).getD (illegal fn.port (blkOf off) s)

/-- A write of a wrong size or alignment: discarded, with the block's ILLEGAL_WRITE, a queue's own for a queue's registers (R4).
 Log: DEDUCED 61, DEDUCED 90, DESIGN CHOICE 99. -/
def badWrite (fn : Fn) (off : Nat) (s : State) : State :=
  match queueAt s fn (off / 4 * 4) with
  | some (q, _) => qIllegal q s
  | none => if fn.vf ≠ 0 then s else illegal fn.port (blkOf off) s

/-- A write as it reaches the node: its function's view first, then FATAL and the no-image state, then R4 and the register.
 Log: DEDUCED 90. -/
def busWrite (fn : Fn) (w : RegWr) (s : State) : State :=
  if !hostUp s fn then s
  else if !s.takesHost && !(decide (fn.vf = 0) && mayWrite s fn w.off && fatalReadable w.off && decide (w.off ≠ 0x900000)) then s
  else if !mayWrite s fn w.off then (if blkOf w.off = .ptt then illegal fn.port .ptt s else mbxIllegal fn.port s)
  else if w.size ≠ 4 ∨ w.off % 4 ≠ 0 then badWrite fn w.off s
  else writeReg fn w.off w.val s

/-! ## The rows that are register accesses -/

/-- PTT_ADM, XPT_ and SBD_PIN_FN entries, which SHADOW_WRITE writes. -/
def isShadow (off : Nat) : Bool := (tableSlot off).isSome

def execRegisterPairWrite (fn : Fn) (w : RegWr) (s : State) : Host.Outcome State Fault Refusal := .next (busWrite fn w s)

def execRegisterPairLowRead (fn : Fn) (off size : Nat) (s : State) : Host.Outcome State Fault Refusal := .next (busRead fn off size s)

def execShadowWrite (fn : Fn) (w : RegWr) (s : State) : Host.Outcome State Fault Refusal := .next (busWrite fn w s)

def execGenctlCommit (fn : Fn) (w : RegWr) (s : State) : Host.Outcome State Fault Refusal := .next (busWrite fn w s)

/-- DIR_LK_ENTRY_READ: the read of DIR_LK_ENTRY_0. -/
def execDirLkEntryRead (fn : Fn) (s : State) : Host.Outcome State Fault Refusal := .next (busRead fn 0x600208 4 s)

/-- SLIP_CLR: the write, and the slips counted in the same cycle (R49). -/
def execSlipClr (fn : Fn) (w : RegWr) (slips : List Proc) (s : State) : Host.Outcome State Fault Refusal :=
  .next (whileAlive (fun s => slips.foldl (fun s p => courseSlip p s) s) (busWrite fn w s))

def execReadbackEnable (fn : Fn) (w : RegWr) (s : State) : Host.Outcome State Fault Refusal := .next (busWrite fn w s)

def execEvRingEnable (fn : Fn) (w : RegWr) (s : State) : Host.Outcome State Fault Refusal := .next (busWrite fn w s)
def execEvRingDisable (fn : Fn) (w : RegWr) (s : State) : Host.Outcome State Fault Refusal := .next (busWrite fn w s)
def execEvHeadWrite (fn : Fn) (w : RegWr) (s : State) : Host.Outcome State Fault Refusal := .next (busWrite fn w s)
def execPwrCapWrite (fn : Fn) (w : RegWr) (s : State) : Host.Outcome State Fault Refusal := .next (busWrite fn w s)

/-- The offset at which a function finds a queue's register; none where the queue is outside its view (R290). -/
def queueOff (s : State) (fn : Fn) (q : QId) (r : Nat) : Option Nat :=
  match q with
  | .admin k => if fn.vf = 0 then some (0x701000 + k.val * 0x40 + r) else none
  | .tenant t k =>
    if fn.vf = 0 then some (0x710000 + t.val * 0x200 + k.val * 0x40 + r)
    else if tenantOfVf s fn.port fn.vf = some t.val then some (k.val * 0x1000 + r) else none

/-- A write of a queue's register by a function. -/
def queueWrite (fn : Fn) (q : QId) (r : Nat) (v : Word) (s : State) : State :=
  match queueOff s fn q r with
  | some off => busWrite fn { off, val := v } s
  | none => s

def execSqDoorbell (fn : Fn) (q : QId) (v : Word) (s : State) : Host.Outcome State Fault Refusal := .next (queueWrite fn q 0x14 v s)
def execCqHeadWrite (fn : Fn) (q : QId) (v : Word) (s : State) : Host.Outcome State Fault Refusal := .next (queueWrite fn q 0x1C v s)
def execQAbort (fn : Fn) (q : QId) (v : Word) (s : State) : Host.Outcome State Fault Refusal := .next (queueWrite fn q 0x24 v s)

end Sys2Proof.Machine
end

