-- ==== Sys2Proof/Machine/Host.lean ====
section
/-! DEFINITION. Host ports and management (spec/17_host_management.md, R67, R403): PERST_N, function-level resets, the commands of the
mailbox that belong to no other chapter, power, telemetry, the SMBus target and the monitor. -/

namespace Sys2Proof.Machine

/-! ## PERST_N and function-level resets (R67, R126, R369) -/

/-- The partitions of a port. -/
def partsOfPort (s : State) (hp : Fin 4) : List Nat := (List.range 16).filter fun p => (s.part p).valid && decide ((s.part p).port = hp)

/-- PERST_N_ASSERT: the port's registers return to reset, its ring and backlog empty, an answer owed is discarded, and its partitions
reset. Log: DEDUCED 86. -/
def perstAssert (hp : Fin 4) (s : State) : State :=
  let s := s.setHost hp { perst := false }
  let s := { s with dir := { s.dir with snap := Tbl.put [] s.dir.snap hp [] } }
  if s.alive then (partsOfPort s hp).foldl (fun s p => triggerReset p [] s) s else s

def execPerstNAssert (hp : Fin 4) (s : State) : Host.Outcome State Fault Refusal :=
  .next (if (s.host hp).perst then perstAssert hp s else s)

/-- PERST_N_DEASSERT: the port answers with Request Retry Status unless the node has left TRAINING. -/
def execPerstNDeassert (hp : Fin 4) (s : State) : Host.Outcome State Fault Refusal :=
  .next (if (s.host hp).perst then s else s.setHost hp { s.host hp with perst := true, retry := s.boot.healthAt.isNone })

/-- Every virtual function of a port is reset (R369). Log: DEDUCED 86. -/
def vfsReset (hp : Fin 4) (s : State) : State := (List.range 32).foldl (fun s i => vfReset hp (i + 1) s) s

/-- PF_FLR: the answer of a command in hand is dropped, the ring stops, the backlog empties, and the virtual functions are reset.
 Log: DEDUCED 86. -/
def pfFlr (hp : Fin 4) (s : State) : State :=
  let h := s.host hp
  vfsReset hp (s.setHost hp { h with busy := false, done := false, cur := none, backlog := [], evCfg := h.evCfg &&& 0x7FFFFFFF#32 })

def execPfFlr (hp : Fin 4) (s : State) : Host.Outcome State Fault Refusal :=
  .next (if hostUp s { port := hp } && s.alive then pfFlr hp s else s)

/-- VF_ENABLE_CLEAR: as a function-level reset of every attached virtual function. -/
def execVfEnableClear (hp : Fin 4) (s : State) : Host.Outcome State Fault Refusal :=
  .next (if hostUp s { port := hp } && s.alive then vfsReset hp s else s)

/-! ## Mailbox commands (R375, R378, R386, R403) -/

/-- MBX_UNKNOWN_OPCODE: any opcode that Table 17.5 does not list is answered with UNSUPPORTED, whatever its LENGTH. Log: DEDUCED 84. -/
def unknownOpcode (fn : Fn) (opcode : Nat) (m : MbxHdr) (s : State) : State :=
  if !hostUp s fn || decide (fn.vf ≠ 0) || !s.takesHost then s
  else if (s.host fn.port).busy then mbxIllegal fn.port s
  else
    let (o, s) := mbxAccept fn opcode m [] s
    answer o .unsupported [] s

def execMbxUnknownOpcode (fn : Fn) (m : MbxHdr) (opcode : BitVec 16) (s : State) : Host.Outcome State Fault Refusal :=
  .next (unknownOpcode fn opcode.toNat m s)

/-- The offset and the length are multiples of the erase size, the length is from 4 KiB to 1 MiB, and the range ends within the slot.
 Log: DESIGN CHOICE 85. -/
def imageRangeOk (d : FlashDev) (slot : Nat) (offset length : Nat) : Bool :=
  decide (slot < 2) && decide (offset % d.erase = 0) && decide (length % d.erase = 0) && decide (4096 ≤ length ∧ length ≤ 2 ^ 20)
    && decide (offset + length ≤ slotSize d)

/-- IMAGE_WRITE: the boot log is erased, and the data read from host memory waits to be programmed. Log: DESIGN CHOICE 85. -/
def imageWrite (slot : Nat) (offset length : Nat) (h : HostRead) (o : Owed) (s : State) : State :=
  match s.boot.flash with
  | none => answer o .busy [] s
  | some d =>
    if !imageRangeOk d slot offset length then answer o .badLength [] s
    else if decide (slot = 1) = runningSlot s then answer o .busy [] s
    else
      match h with
      | .error => answer o (Config.imageReadStatus s.serialNo) [] { s with serialNo := s.serialNo + 1 }
      | .data b =>
        { s with boot := { s.boot with
            flash := some (flashErase (logBase d) logSize d)
            writing := s.boot.writing ++ [{ owed := o, addr := slotBase d (decide (slot = 1)) + offset, data := b.take length }] } }

def execImageWrite (fn : Fn) (m : MbxHdr) (slot : Byte) (offset length : Word) (addr : BitVec 64) (h : HostRead) (s : State) :
    Host.Outcome State Fault Refusal :=
  .next (mailbox fn 0x0701 m ([slot] ++ leBytes 4 offset.toNat ++ leBytes 4 length.toNat ++ leBytes 8 addr.toNat) false
    (fun s => s.isAdmin fn) (imageWrite slot.toNat offset.toNat length.toNat h) s)

/-- IMAGE_WRITE_DONE: the range has been erased and programmed, or an operation took too long. Log: DESIGN CHOICE 16, DESIGN CHOICE 85. -/
def imageWriteDone (ok : Bool) (s : State) : State :=
  match s.boot.writing, s.boot.flash with
  | w :: r, some d =>
    if ok then
      answer w.owed .ok [] { s with boot := { s.boot with
        flash := some (flashProgram w.addr w.data (flashErase w.addr w.data.length d)), writing := r } }
    else failImageWrite .timeout s
  | _, _ => s

def execImageWriteDone (ok : Bool) (s : State) : Host.Outcome State Fault Refusal := .next (whileAlive (imageWriteDone ok) s)

/-- The telemetry snapshot as it is read: zeros before the first one. Log: DESIGN CHOICE 88. -/
def telemetryBytes (s : State) : List Byte := if s.pwr.telemetry = [] then List.replicate 64 0 else s.pwr.telemetry

def execTelemetryRead (fn : Fn) (m : MbxHdr) (s : State) : Host.Outcome State Fault Refusal :=
  .next (mailbox fn 0x0702 m [] true (fun _ => true) (fun o s => answer o .ok (telemetryBytes s) s) s)

/-- The entries FAULT_LOG_READ returns: from a sequence number on, in sequence order, those the function may see. -/
def faultEntries (s : State) (fn : Fn) (seq : Word) (n : Nat) : List FltEntry :=
  ((s.flt.log.filter fun e => decide (seq.toNat ≤ e.seq.toNat)
      && (s.isAdmin fn || (decide (e.part ≠ 0xFF) && s.owns fn e.part.toNat))).reverse).take n

def faultLogRead (fn : Fn) (seq : Word) (count : Byte) (o : Owed) (s : State) : State :=
  if count = 0 ∨ 127 < count.toNat then answer o .badLength [] s
  else
    let es := faultEntries s fn seq count.toNat
    answer o .ok ([BitVec.ofNat 8 es.length] ++ es.flatMap fltBytes) s

def execFaultLogRead (fn : Fn) (m : MbxHdr) (seq : Word) (count : Byte) (s : State) : Host.Outcome State Fault Refusal :=
  .next (mailbox fn 0x0801 m (leBytes 4 seq.toNat ++ [count]) true (fun _ => true) (faultLogRead fn seq count) s)

/-! ## Power (R383 to R386) -/

/-- The effective cap: the lesser of the administrator's and a nonzero BMC cap, times (8 − LEVEL) / 8 (R383). Log: DEDUCED 87. -/
def effectiveCap (s : State) : Nat :=
  let c := s.pwr.cap.toNat
  (if s.pwr.bmc = 0 then c else min c s.pwr.bmc) * (8 - s.pwr.level) / 8

/-- Step 5 of a boundary, as far as the cap goes. Log: DEDUCED 87. -/
def capStep (s : State) : State := { s with pwr := { s.pwr with effective := effectiveCap s } }

/-- A consumer's floor: 1/64 of its full-rate need (R384). -/
def Demand.floor (d : Demand) : Nat := (d.fullRate + 63) / 64

/-- Divide power in proportion to demand; a consumer whose share falls below its floor takes the floor, and the rest is divided again.
 Log: DEDUCED 87. -/
def shareOut : Nat → Nat → List Demand → List (Nat × Nat)
  | 0, _, ds => ds.map fun d => (d.consumer, Demand.floor d)
  | k + 1, avail, ds =>
    let sum := (ds.map Demand.demand).sum
    let share (d : Demand) : Nat := avail * d.demand / sum
    let low := ds.filter fun d => decide (share d < Demand.floor d)
    if low = [] then ds.map fun d => (d.consumer, share d)
    else low.map (fun d => (d.consumer, Demand.floor d))
      ++ shareOut k (avail - (low.map Demand.floor).sum) (ds.filter fun d => decide (Demand.floor d ≤ share d))

/-- POWER_TOKEN_ALLOCATION: the allocation for the next course, or the floors with CAP_UNMET. Log: DEDUCED 87. -/
def tokenAllocation (fixed : Nat) (ds : List Demand) (s : State) : State :=
  let ds := ds.filter fun d => decide (0 < d.demand)
  let avail := s.pwr.effective * 1000 - fixed
  let unmet := decide (avail < (ds.map Demand.floor).sum)
  let alloc := if unmet then ds.map fun d => (d.consumer, Demand.floor d) else shareOut ds.length avail ds
  { s with pwr := { s.pwr with capUnmet := unmet, nextAlloc := some alloc } }

def execPowerTokenAllocation (fixed : Nat) (ds : List Demand) (s : State) : Host.Outcome State Fault Refusal :=
  .next (whileAlive (fun s => if procWorks s .mnp then tokenAllocation fixed ds s else s) s)

/-- The hotter of two sensors, s16 in 0.25 degrees. Log: DEDUCED 87. -/
def hotter (a b : BitVec 16) : BitVec 16 := if a.toInt ≤ b.toInt then b else a

/-- THERMAL_STEP: at every 244th boundary LEVEL rises at 100 °C, falls when every sensor reads 97 °C or less, and a change is posted.
 Log: DEDUCED 87. -/
def thermalStep (t0 t1 : BitVec 16) (s : State) : State :=
  let hot := hotter t0 t1
  let l := s.pwr.level
  let l' := if 400 ≤ hot.toInt then min 7 (l + 1) else if hot.toInt ≤ 388 then l - 1 else l
  let s := { s with pwr := { s.pwr with temp := hot, thermAt := some s.clk.now } }
  if l' = l then s
  else postAdmin (s.mkEvent 0xA 0xFF 0xFF 0 (BitVec.ofNat 32 l')) (capStep { s with pwr := { s.pwr with level := l' } })

def execThermalStep (t0 t1 : BitVec 16) (s : State) : Host.Outcome State Fault Refusal :=
  .next (if atBoundary s && decide (s.clk.now % 244 = 0 ∧ s.pwr.thermAt ≠ some s.clk.now) then thermalStep t0 t1 s else s)

/-- The 64 bytes of Table 17.8. Log: DESIGN CHOICE 88. -/
def snapshotBytes (x : TelSample) (s : State) : List Byte :=
  let running := ((List.range 64).filter fun k => decide ((s.col k).state = .running)).length
  leBytes 8 s.course.toNat ++ leBytes 2 x.power.toNat ++ leBytes 2 s.pwr.effective
    ++ [BitVec.ofNat 8 s.pwr.level, BitVec.ofNat 8 ((if s.pwr.capUnmet then 1 else 0) + if s.sbd.prochot then 2 else 0)]
    ++ leBytes 2 (hotter x.hot0 x.hot1).toNat ++ leBytes 2 x.hot0.toNat ++ leBytes 2 x.hot1.toNat
    ++ wordBytes [x.nearRd, x.nearWr, x.bulkRd, x.bulkWr, x.fabRx, x.fabTx] ++ leBytes 4 running ++ List.replicate 16 0

/-- TELEMETRY_REFRESH. Log: DESIGN CHOICE 88. -/
def telemetryRefresh (x : TelSample) (s : State) : State :=
  { s with pwr := { s.pwr with telemetry := snapshotBytes x s, watts := x.power, temp := hotter x.hot0 x.hot1, telAt := some s.clk.now } }

/-- A snapshot is due: 244 courses have passed since the last one, and the MNP gets to its periodic work (R386, Table 2.2). -/
def telemetryDue (s : State) : Bool := procWorks s .mnp && s.pwr.telAt.all fun b => decide (b + 244 ≤ s.clk.now)

def execTelemetryRefresh (x : TelSample) (s : State) : Host.Outcome State Fault Refusal :=
  .next (whileAlive (fun s => if telemetryDue s then telemetryRefresh x s else s) s)

/-! ## The SMBus target (R387, R388, R395) -/

/-- A command code is answered; in FATAL only the codes of R395 are, and a write to a read-only code is not acknowledged. -/
def smbCode (bus2 inFatal wr : Bool) (body : State → State) (s : State) : State :=
  if !smbUp bus2 s then s
  else if wr || (decide (s.nid.state = .fatal) && !inFatal) then s.emit .smbNack
  else body s

/-- Log: DEDUCED 29. -/
def smbReads (bus2 inFatal wr : Bool) (code : Byte) (f : State → List Byte) (s : State) : State :=
  smbCode bus2 inFatal wr (fun s => smbAnswer code (f s) s) s

/-- The bytes of a block read: their count first, as SMBus lays it out (R92). Log: PRESUMED 114. -/
def blockOf (d : List Byte) : List Byte := BitVec.ofNat 8 d.length :: d

def execSmbState (wr : OnBus Bool) (s : State) : Host.Outcome State Fault Refusal :=
  .next (smbReads wr.bus2 true wr.val 0x00 (fun s => [BitVec.ofNat 8 s.nid.state.code]) s)

def execSmbTemp (wr : OnBus Bool) (s : State) : Host.Outcome State Fault Refusal :=
  .next (smbReads wr.bus2 true wr.val 0x01 (fun s => leBytes 2 s.pwr.temp.toNat) s)

def execSmbPower (wr : OnBus Bool) (s : State) : Host.Outcome State Fault Refusal :=
  .next (smbReads wr.bus2 false wr.val 0x02 (fun s => leBytes 2 s.pwr.watts.toNat) s)

def execSmbBmcCapRead (s : State) : Host.Outcome State Fault Refusal :=
  .next (smbReads false false false 0x03 (fun s => leBytes 2 s.pwr.bmc) s)

/-- A BMC_CAP value is 0 or 300 to 2,400 W. -/
def bmcCapOk (w : Nat) : Bool := decide (w = 0) || decide (300 ≤ w ∧ w ≤ 2400)

/-- SMB_BMC_CAP_WRITE: without a valid PEC where one is required, or with another value, it is not acknowledged and has no effect.
 Log: PRESUMED 114. -/
def bmcCapWrite (w : Nat) (pec : Option Byte) (s : State) : State :=
  if (bit s.sbd.smbCfg 2 && decide (pec ≠ some (pecOf ([smbOwn s, 0x03] ++ leBytes 2 w)))) || !bmcCapOk w then s.emit .smbNack
  else { s with pwr := { s.pwr with bmc := w } }.emit .smbAck

def execSmbBmcCapWrite (watts : OnBus (BitVec 16)) (pec : Option Byte) (s : State) : Host.Outcome State Fault Refusal :=
  .next (smbCode watts.bus2 false false (bmcCapWrite watts.val.toNat pec) s)

/-- SMB_EVENT: the oldest word, removed by the read; 0 when none waits. Log: DEDUCED 29. -/
def smbEvent (s : State) : State :=
  match s.sbd.fifo with
  | [] => smbAnswer 0x04 (leBytes 2 0) s
  | w :: _ => smbAnswer 0x04 (leBytes 2 w.toNat) (popWord s)

def execSmbEvent (wr : OnBus Bool) (s : State) : Host.Outcome State Fault Refusal := .next (smbCode wr.bus2 false wr.val smbEvent s)

def execSmbSerial (wr : OnBus Bool) (s : State) : Host.Outcome State Fault Refusal :=
  .next (smbReads wr.bus2 true wr.val 0x05 (fun s => blockOf (leBytes 8 s.nid.serial.toNat)) s)

def execSmbFwVersion (wr : OnBus Bool) (s : State) : Host.Outcome State Fault Refusal :=
  .next (smbReads wr.bus2 true wr.val 0x06 (fun s => blockOf (leBytes 4 s.nid.fw.toNat)) s)

/-- SMB_UNKNOWN_CODE: not acknowledged. -/
def execSmbUnknownCode (code : OnBus Byte) (s : State) : Host.Outcome State Fault Refusal :=
  .next (smbCode code.bus2 true true (fun s => s) s)

/-! ## The Svetulna monitor (R389, R390) -/

/-- The monitor answers: the strap enables it, and the processor that serves it runs. In FATAL it answers too. Log: DEDUCED 89. -/
def monUp (s : State) : Bool :=
  s.sbd.straps.monitorEn && decide (s.nid.state ≠ .off)
    && (decide (s.nid.state = .fatal) || procRuns s (if (s.wd Proc.mnp.idx).started then .mnp else .bcp))

/-- A reply, and the prompt after it. Log: DEDUCED 89. -/
def monReply (o : Out) (s : State) : State := (s.emit o).emit (.monitorText "svt>")

/-- A line for the monitor. Log: DEDUCED 89. -/
def monLine (f : State → State) (s : State) : State := if monUp s then f s else s

/-- Before the MNP has started the reduced monitor has no telemetry and no links. Log: DEDUCED 89. -/
def monFull (f : State → State) (s : State) : State :=
  if (s.wd Proc.mnp.idx).started then f s else monReply (.monitorText "? boot") s

/-- The administrator's function, whose view the monitor reads. -/
def adminFn (s : State) : Fn := { port := s.cfg.adminPort }

def execMonitorVer (s : State) : Host.Outcome State Fault Refusal :=
  .next (monLine (fun s => monReply (.monitor [0x00570016, steppingWord, s.nid.fw, s.nid.serial.setWidth 32, (s.nid.serial >>> 32).setWidth 32]) s) s)

/-- `state`: node state, boot status and cause, and the tile counts that decide between READY and DEGRADED. -/
def execMonitorState (s : State) : Host.Outcome State Fault Refusal :=
  .next (monLine (fun s => monReply (.monitor [field 8 s.nid.partitions ||| BitVec.ofNat 32 s.nid.state.code, s.boot.status, s.boot.cause,
    BitVec.ofNat 32 s.nid.near, BitVec.ofNat 32 s.nid.bulk]) s) s)

/-- `rd`: consecutive registers of the administrator's view, with captures and a directory snapshot of its own and no other effect.
 Log: DEDUCED 89. -/
def monRd (off : Nat) : Nat → State → List Word × State
  | 0, s => ([], s)
  | n + 1, s =>
    let (w, s) := readPort monSlot (adminFn s) off 4 s
    let (ws, s) := monRd (off + 4) n s
    (w :: ws, s)

/-- Log: DEDUCED 89. -/
def monitorRd (off n : Nat) (s : State) : State :=
  if n = 0 ∨ 64 < n ∨ off % 4 ≠ 0 then monReply (.monitorText "?") s
  else
    let (ws, s) := monRd off n s
    monReply (.monitor ws) s

def execMonitorRd (off n : Nat) (s : State) : Host.Outcome State Fault Refusal := .next (monLine (monitorRd off n) s)

/-- `log`: the newest entries, newest first. -/
def execMonitorLog (n : Nat) (s : State) : Host.Outcome State Fault Refusal :=
  .next (monLine (fun s => if n = 0 ∨ 64 < n then monReply (.monitorText "?") s
    else monReply (.monitor (leWords ((s.flt.log.take n).flatMap fltBytes))) s) s)

def execMonitorTel (s : State) : Host.Outcome State Fault Refusal :=
  .next (monLine (monFull fun s => monReply (.monitor (leWords (telemetryBytes s))) s) s)

/-- `links`: state, rate, width, mode and last down cause of each port. -/
def execMonitorLinks (s : State) : Host.Outcome State Fault Refusal :=
  .next (monLine (monFull fun s => monReply (.monitor ((List.range 32).map fun n =>
    let p := s.port n
    field 29 p.state.code ||| field 27 p.rate.toNat ||| field 25 p.width.toNat ||| flag 24 p.lean ||| flag 23 p.isSealed ||| p.cause.setWidth 32)) s) s)

def execMonitorHelp (s : State) : Host.Outcome State Fault Refusal :=
  .next (monLine (monReply (.monitorText "ver, state, rd OFFSET [N], log [N], tel, links, help")) s)

/-- MONITOR_BAD_LINE: `? long` past 80 characters, else `?`. -/
def execMonitorBadLine (chars : Nat) (s : State) : Host.Outcome State Fault Refusal :=
  .next (monLine (monReply (.monitorText (if 80 < chars then "? long" else "?"))) s)

end Sys2Proof.Machine
end

