-- ==== Sys2Proof/Machine/Boundary.lean ====
section
/-! DEFINITION. The boundary of a course (spec/02_the_course.md, R31): the steps of Table 2.1 in their order, and the flip of one
instance. -/

namespace Sys2Proof.Machine

/-! ## Flips (R38, R43, R47) -/

/-- The instance flips at this boundary: COMMIT is set, no retired generation is held, and the node has reached TRAINING. Log: DEDUCED 5. -/
def canFlip (s : State) (i : Nat) : Bool :=
  (s.inst i).commit && !(s.inst i).retired && decide (s.nid.state ≠ .boot ∧ s.nid.state ≠ .selftest)

/-- The instance with its shadow become the active generation, the old one retired. -/
def Inst.flip (x : Inst) : Inst :=
  { x with active := x.shadow, old := x.active, gen := x.gen + 1, age := 0, flipped := true, commit := false, retired := true }

/-- What follows a flip: pins take their new functions, stream commands are done, migrations move on. -/
def afterFlip (i : Nat) (old : Tbl (BitVec 64)) (s : State) : State :=
  if i = pinInst then pinsFlip old s
  else if i = streamInst then streamsFlip s
  else if i < 128 then migFlip i s
  else s

/-- A flip of one instance, if it may. -/
def flip (i : Nat) (s : State) : State :=
  if canFlip s i then afterFlip i (s.inst i).active (s.setInst i (s.inst i).flip) else s

/-! ## The steps of Table 2.1 -/

/-- A processor that is restarting slips in the course that ends (R22, R35). Log: DESIGN CHOICE 20. -/
def restartSlips (s : State) : State :=
  Proc.all.foldl (fun s p => if (s.wd p.idx).restarting then courseSlip p s else s) s

/-- Step 1: the counter advances; every tenant and partition whose boundary b this is has its operations ended and its tables withdrawn.
 Log: DEDUCED 5. -/
def stepCount (s : State) : State :=
  let s := { s with
    clk := { s.clk with now := s.clk.now + 1, cycle := 0, packetSent := false, flipBits := [], admits := 0 }
    crs := { s.crs with slipped := [], lastSlipped := s.crs.slipped } }
  let s := (List.range 16).foldl (fun s p => if partDue s p then withdrawPartition p s else s) s
  (List.range 128).foldl (fun s t => if withdrawDue s t then withdrawTenant t s else s) s

/-- Streams' requests whose timers are due (R64). -/
def streamTimers (s : State) : State :=
  (s.reqs.filter fun r => r.expiry.isSome).foldl (fun s r => streamTimeout r.msg.stream.toNat r.msg.rseq.toNat s) s

/-- Launches: the time limit, then the count of stalled courses (R316, R320). -/
def launchTimers (s : State) : State :=
  let s := s.arr.runs.foldl (fun s r => launchTimeout r.q r.idx s) s
  let s := s.arr.runs.foldl (fun s r => countStall r s) s
  s.arr.runs.foldl (fun s r => arrayStall r.q r.idx s) s

/-- Refresh debts, where any bank owes one, and power-down of ranks in service (R230, R231). -/
def dramTimers (s : State) : State :=
  let tier (t : Tier) (s : State) : State :=
    (s.tier t).order.foldl (fun s ch =>
      let s := if s.dram.banks.any (fun e => decide (e.2.owed ≠ [])) then
          (List.range (refreshBanks t)).foldl (fun s b => refreshDebt t ch b s) s else s
      (List.range (maxRanks t)).foldl (fun s r => rankDown t ch r s) s) s
  ceWindowStart (tier .bulk (tier .near s))

/-- Snoop timers (R262). -/
def snoopTimers (s : State) : State :=
  (s.dir.trks.filterMap fun k => k.slot).foldl (fun s slot => snoopTimeoutAt slot s) s

/-- Step 2: course-granular timers. Log: DESIGN CHOICE 4, DEDUCED 5. -/
def stepTimers (s : State) : State :=
  let s := launchTimers (streamTimers s)
  let s := if procRuns s .fmp then windowExpire s else s
  snoopTimers (dramTimers s)

/-- The age of an instance that has flipped (Table 2.8). -/
def ageInst (s : State) (i : Nat) : State :=
  let x := s.inst i
  if x.flipped then s.setInst i { x with age := x.age + 1 } else s

/-- Every retired generation ages by one course. -/
def ageAll (s : State) : State := (s.insts.map Prod.fst).foldl ageInst s

/-- Step 3: ageing, release by age of what still holds traffic, then release of what is drained (R41). Log: DEDUCED 5. -/
def stepRelease (s : State) : State :=
  let s := ageAll s
  let ks := s.insts.map Prod.fst
  let s := (ks.filter fun i => heldAtAge s i).foldl (fun s i => genReleaseByAge i s) s
  ks.foldl (fun s i => genRelease i s) s

/-- Step 4: every instance that may flip as the step begins flips. Log: DEDUCED 5. -/
def stepFlip (s : State) : State := ((s.insts.map Prod.fst).filter fun i => canFlip s i).foldl (fun s i => flip i s) s

/-- No consumer has spent a token of the new course (R384). -/
def tokensUnspent (s : State) : State :=
  { s with
    dram := { s.dram with spent := [] }
    eng := { s.eng with spent := [] }
    arr := { s.arr with cols := mapTbl {} (fun _ c => { c with spent := 0, firedAt := none }) s.arr.cols } }

/-- Step 5: the tokens of the new course, or those of the course before where the MNP slipped (Table 2.2); the cap takes effect.
 Log: DEDUCED 5. -/
def stepTokens (s : State) : State :=
  tokensUnspent (capStep (if s.crs.lastSlipped.contains .mnp then s
    else { s with pwr := { s.pwr with tokens := s.pwr.nextAlloc.getD s.pwr.tokens, nextAlloc := none } }))

/-- Step 6: windows that ramp. Log: DEDUCED 5. -/
def stepRamps (s : State) : State := (s.streams.map Prod.fst).foldl (fun s k => windowRamp k s) s

/-- Within a course of its record an abort shows DONE and RESULT (R285). Log: DEDUCED 59. -/
def showAbort (x : Queue) : Queue :=
  match x.abPend with
  | some r => { x with result := r, abPend := none }
  | none => x

/-- Every abort recorded since the last boundary is shown. Log: DEDUCED 5. -/
def showAborts (s : State) : State :=
  { s with eng := { s.eng with queues := mapTbl {} (fun _ x => showAbort x) s.eng.queues } }

/-- Steps 1 and 2, and the ageing that step 3 begins with. The course packet has left before the boundary (R192). -/
def toAgeing (s : State) : State := ageAll (stepTimers (stepCount (restartSlips (coursePacketSend s))))

/-- Steps 1 to 3. Log: DEDUCED 5. -/
def toFlips (s : State) : State := stepRelease (stepTimers (stepCount (restartSlips (coursePacketSend s))))

/-- Step 7: the MRP begins the course with what it still had to do; store entries no copy of a map holds are free (R196). Log: DEDUCED 5. -/
def stepBudgets (s : State) : State := mrpWork (dropLag s)

/-- The whole boundary; the pins act in its cycle (R99). Log: DESIGN CHOICE 4, DEDUCED 5. -/
def boundary (s : State) : State := settle (stepBudgets (showAborts (stepRamps (stepTokens (pinsTick (stepFlip (toFlips s)))))))

/-- COURSE_BOUNDARY. -/
def execCourseBoundary (s : State) : Host.Outcome State Fault Refusal := .next (if s.alive && s.clk.locked then boundary s else s)

/-! ## The rows that name what a boundary does to one instance. No happening falls between two steps (R405), so each brings its
boundary whole, if that boundary does it. -/

/-- GEN_RELEASE: the boundary whose step 3 releases the retired generation (R41). Log: DESIGN CHOICE 4. -/
def execGenRelease (i : Fin 261) (s : State) : Host.Outcome State Fault Refusal :=
  .next (if s.alive && s.clk.locked && (s.inst i.val).retired && !((toFlips s).inst i.val).retired then boundary s else s)

/-- GEN_RELEASE_BY_AGE: the boundary at which the retired generation reaches age 256 with traffic (R42). Log: DESIGN CHOICE 4. -/
def execGenReleaseByAge (i : Fin 261) (s : State) : Host.Outcome State Fault Refusal :=
  .next (if s.alive && s.clk.locked && heldAtAge (toAgeing s) i.val then boundary s else s)

/-- GEN_FLIP: the boundary whose step 4 flips the instance (R38, R43). Log: DESIGN CHOICE 4. -/
def execGenFlip (i : Fin 261) (s : State) : Host.Outcome State Fault Refusal :=
  .next (if s.alive && s.clk.locked && canFlip (toFlips s) i.val then boundary s else s)

end Sys2Proof.Machine
end

