-- ==== Sys2Proof/Machine/Rows.lean ====
section
/-! DEFINITION. REGISTER_WRITE (R8), and the doorbell it may ring: the command that stands in the command buffer (R373, R374). -/

namespace Sys2Proof.Machine

/-- A number in the command buffer: byte offset and size. -/
def cmdNat (s : State) (hp : Fin 4) (off n : Nat) : Nat :=
  ofLeBytes ((List.range n).map fun i => byteOf (Tbl.get 0 (s.host hp).cmd ((off + i) / 4)).toNat ((off + i) % 4))

/-- The state an outcome leads to. Log: DESIGN CHOICE 62. -/
def ran (o : Host.Outcome State Fault Refusal) (s : State) : State := match o with
  | .next s' => s'
  | .fault _ => s
  | .refused _ => s

/-- The command in the buffer is handed to the node (Table 17.5). Host memory that an IMAGE_WRITE reads is no part of a register write:
that command's own row carries it, and rung here its read has failed. Log: DEDUCED 84. -/
def ringDoorbell (fn : Fn) (s : State) : State :=
  let m : MbxHdr := { tag := BitVec.ofNat 32 (cmdNat s fn.port 4 4), length := BitVec.ofNat 32 (cmdNat s fn.port 8 4) }
  let b (o : Nat) : Byte := BitVec.ofNat 8 (cmdNat s fn.port (16 + o) 1)
  let h (o : Nat) : BitVec 16 := BitVec.ofNat 16 (cmdNat s fn.port (16 + o) 2)
  let w (o : Nat) : Word := BitVec.ofNat 32 (cmdNat s fn.port (16 + o) 4)
  let d (o : Nat) : BitVec 64 := BitVec.ofNat 64 (cmdNat s fn.port (16 + o) 8)
  match cmdNat s fn.port 0 2 with
  | 0x0101 => ran (execTenantCreate fn m (b 0) (b 1) s) s
  | 0x0102 => ran (execTenantDestroy fn m (b 0) s) s
  | 0x0103 => ran (execTenantQuery fn m (b 0) s) s
  | 0x0110 => ran (execStreamOpen fn m (b 0) (h 1) (h 3) (h 5) s) s
  | 0x0111 => ran (execStreamModify fn m (h 0) (h 2) (h 4) s) s
  | 0x0112 => ran (execStreamClose fn m (h 0) s) s
  | 0x0120 => ran (execPartReset fn m (b 0) s) s
  | 0x0121 => ran (execPartQuery fn m (b 0) s) s
  | 0x0201 => ran (execTileMap fn m (b 0) (w 1) (h 5) (b 7) (b 8) s) s
  | 0x0202 => ran (execTileUnmap fn m (b 0) (w 1) (h 5) s) s
  | 0x0203 => ran (execTileProtect fn m (b 0) (w 1) (h 5) (b 7) s) s
  | 0x0204 => ran (execTileGrant fn m (b 0) (w 1) (h 5) (b 7) (w 8) (b 12) s) s
  | 0x0205 => ran (execTileRevoke fn m (b 0) (w 1) (h 5) s) s
  | 0x0206 => ran (execTileMigrate fn m (b 0) (w 1) (b 5) s) s
  | 0x0301 => ran (execAgentRelease fn m (h 0) s) s
  | 0x0401 => ran (execQueueCreate fn m (b 0) (b 1) (b 2) (b 3) (b 4) (b 5) (h 6) (d 8) (d 16) s) s
  | 0x0402 => ran (execQueueDestroy fn m (b 0) (b 1) s) s
  | 0x0403 => ran (execQueueQuery fn m (b 0) (b 1) s) s
  | 0x0501 => ran (execArrayQuery fn m (b 0) s) s
  | 0x0601 => ran (execLinkPin fn m (b 0) (b 1) ((List.range 48).map fun i => b (2 + i)) s) s
  | 0x0701 => ran (execImageWrite fn m (b 0) (w 1) (w 5) (d 9) .error s) s
  | 0x0702 => ran (execTelemetryRead fn m s) s
  | 0x0801 => ran (execFaultLogRead fn m (w 0) (b 4) s) s
  | o => unknownOpcode fn o m s

/-- The write sets MBX_DOORBELL.GO while no command is in progress. Log: DEDUCED 84. -/
def rings (s : State) (fn : Fn) (w : RegWr) : Bool :=
  hostUp s fn && s.takesHost && decide (fn.vf = 0 ∧ w.off = 0xF00004 ∧ w.size = 4) && bit w.val 0 && !(s.host fn.port).busy

/-- The write as it acts: a W1C bit that the hardware sets in the cycle of the write is not cleared by it (R9). Log: DEDUCED 100. -/
def sparing (s : State) (fn : Fn) (w : RegWrSet) : RegWr :=
  if hasW1c s fn w.off then { w.toRegWr with val := w.val &&& ~~~w.sets } else w.toRegWr

/-- REGISTER_WRITE (R8, R9): a ring of the doorbell, or the register's write. Log: DEDUCED 100. -/
def execRegisterWrite (fn : Fn) (w : RegWrSet) (s : State) : Host.Outcome State Fault Refusal :=
  .next (if rings s fn w.toRegWr then ringDoorbell fn s else busWrite fn (sparing s fn w) s)

end Sys2Proof.Machine
end

