-- ==== Sys2Proof/Machine/Voxel.lean ====
section
/-! DEFINITION. The voxel engine (spec/13_voxel_engine.md): VOXEL_SAMPLE, RULEBOOK_BUILD and SITE_LOOKUP. A command that meets a line it
cannot touch yet waits, and its row takes it up again where it stopped. -/

namespace Sys2Proof.Machine

/-! ## Operands (R298, Table 13.3) -/

/-- The scratch region: base and log2 of its length. -/
def voxTable (d : Desc) : Nat := descOp d 0x18 8
def voxBase (d : Desc) : Nat := voxTable d % 2 ^ 48 / 4096 * 4096
def voxLog (d : Desc) : Nat := voxTable d % 32
def voxOutLen (d : Desc) : Nat := descOp d 0x20 4

/-- TABLE is as R298 says. -/
def voxTableOk (d : Desc) : Bool :=
  decide (voxTable d / 32 % 128 = 0 ∧ voxTable d / 2 ^ 48 = 0 ∧ 12 ≤ voxLog d)

/-- Every pair of a list of ranges is disjoint. -/
def disjointAll : List (Nat × Nat) → Bool
  | [] => true
  | x :: r => r.all (fun y => !overlaps x.1 x.2 y.1 y.2) && disjointAll r

/-- Operand bytes from an offset on are zero. Log: DEDUCED 67. -/
def opsZero (d : Desc) (off : Nat) : Bool := (d.ops.drop (off - 0x18)).all fun b => decide (b = 0)

/-- Checks 2 to 4 of a voxel command (R299): `bad` for its own operands, the ranges it reads and the ranges it writes. Log: DEDUCED 67. -/
def voxCheck (q : QId) (bad : Bool) (rd wr : List (Nat × Nat)) (s : State) : Option Status :=
  let t := qTen q
  checks [
    (bad || !disjointAll (rd ++ wr), .badLength),
    ((rd ++ wr).any (fun r => !rangeOk s t r.1 r.2), .outOfBounds),
    (rd.any (fun r => !rangeGrant s t r.1 r.2 false) || wr.any (fun r => !rangeGrant s t r.1 r.2 true), .noGrant)]

/-- The least power of two at or above n. -/
def nextPow2 (n : Nat) : Nat := if n ≤ 1 then 1 else 2 ^ (Nat.log2 (n - 1) + 1)

/-- The scratch length that `e` entries need (R299). Log: DESIGN CHOICE 66. -/
def scratchNeed (e : Nat) : Nat := max 4096 (nextPow2 (32 * e))

/-- Count in a voxel instance's registers: entries read, points dropped, pairs written (Table 13.6). -/
def voxCount (q : QId) (read drops pairs : Nat) (s : State) : State :=
  let k := (s.queue (qNum q)).inst
  let e := s.eng
  let up := fun (t : Tbl Word) (n : Nat) => Tbl.put 0 t k (sat32 (Tbl.get 0 t k) n)
  { s with eng := { e with points := up e.points read, dropped := up e.dropped drops, pairs := up e.pairs pairs } }

/-- End a voxel command; a BUFFER_SHORT is counted (Table 13.6). -/
def voxEnd (q : QId) (c : Cmd) (st : Status) (count aux : Nat) (s : State) : State :=
  let k := (s.queue (qNum q)).inst
  let e := s.eng
  stopCmd q c st count (BitVec.ofNat 32 aux)
    (if st = .bufferShort then { s with eng := { e with short := Tbl.put 0 e.short k (sat32 (Tbl.get 0 e.short k) 1) } } else s)

/-! ## Memory: each side of a command holds the generation of the tile it works in (R40) -/

/-- What a stretch of reading or writing came to. -/
inductive Reach where
  | done
  | hold
  | fail (st : Status)

/-- Read a range; what came before a hold or a failure is kept. -/
def readSome (q : QId) (side : Nat) : Nat → Nat → Nat → List Byte → Cmd → State → List Byte × Reach × Cmd × State
  | 0, _, _, acc, c, s => (acc, .done, c, s)
  | f + 1, va, n, acc, c, s =>
    if n = 0 then (acc, .done, c, s)
    else if !engToken s q c.desc then (acc, .hold, c, s)
    else
      let t := qTen q
      let m := min n (128 - va % 128)
      let g := sideGen s t c side va
      let c := holdTile t side va g c
      match engRead (.cmd q c.idx) t g (descHint c.desc) va m s with
      | .ok x s => readSome q side f (va + m) (n - m) (acc ++ x) c (engSpend q c.desc s)
      | .hold s => (acc, .hold, c, s)
      | .fail st s => (acc, .fail st, c, s)

/-- Write a range; answers the bytes written. -/
def writeSome (q : QId) (side : Nat) : Nat → Nat → List Byte → Nat → Cmd → State → Nat × Reach × Cmd × State
  | 0, _, _, k, c, s => (k, .done, c, s)
  | f + 1, va, d, k, c, s =>
    if d = [] then (k, .done, c, s)
    else if !engToken s q c.desc then (k, .hold, c, s)
    else
      let t := qTen q
      let m := min d.length (128 - va % 128)
      let g := sideGen s t c side va
      let c := holdTile t side va g c
      match engWrite (.cmd q c.idx) t g (descHint c.desc) va (d.take m) s with
      | .ok _ s => writeSome q side f (va + m) (d.drop m) (k + m) c (engSpend q c.desc s)
      | .hold s => (k, .hold, c, s)
      | .fail st s => (k, .fail st, c, s)

/-- A stage is over: the command works in no tile. -/
def leaveTiles (c : Cmd) : Cmd := { c with tag := [], tiles := [] }

/-- Clear what is left of the scratch region with full-line writes, then go on; what it holds afterwards is undefined, a free value.
 Log: DESIGN CHOICE 66. -/
def withScratch (q : QId) (c : Cmd) (f : Cmd → State → State) (s : State) : State :=
  let n := 2 ^ voxLog c.desc
  if n ≤ c.vox.cleared then f c s
  else
    let b := (List.range (n - c.vox.cleared)).map fun i => Config.scratchByte s.serialNo (c.vox.cleared + i)
    let (k, r, c, s) := writeSome q 2 n (voxBase c.desc + c.vox.cleared) b 0 c { s with serialNo := s.serialNo + 1 }
    let c := { c with vox := { c.vox with cleared := c.vox.cleared + k } }
    match r with
    | .done => f (leaveTiles c) s
    | .hold => putCmd q c s
    | .fail st => voxEnd q c st c.pos 0 s

/-- The command's work on its table meets a poisoned line of the scratch region (R303). Log: DESIGN CHOICE 66. -/
def scratchPoison (s : State) (q : QId) (d : Desc) : Bool :=
  let a := voxBase d
  let n := 2 ^ voxLog d
  (rangeTiles a n).any fun k =>
    let e := s.tileAt (qTen q) k
    s.dram.poison.any fun p => p.2 && decide (p.1 / 16384 = lineKey e.tier (e.phys * 16384) / 16384)
      && decide (a ≤ k * 2 ^ 21 + p.1 % 16384 * 128 ∧ k * 2 ^ 21 + p.1 % 16384 * 128 < a + n) && Config.scratchMeets s.serialNo p.1

/-- Write what the output so far has beyond the bytes already written, then go on. -/
def voxOut (q : QId) (out : List Byte) (c : Cmd) (f : Cmd → State → State) (s : State) : State :=
  let d := out.drop c.pos
  let (n, r, c, s) := writeSome q 1 (d.length + 1) (c.desc.dst + c.pos) d 0 c s
  let c := { c with pos := c.pos + n }
  match r with
  | .done => f c s
  | .hold => putCmd q c s
  | .fail st => voxEnd q c st c.pos 0 s

/-- Read what is left of SRC; what has been read is kept, and its entries are counted. -/
def voxRead (q : QId) (stride : Nat) (c : Cmd) (s : State) : Reach × Cmd × State :=
  let d := c.desc
  let k := c.vox.got.length
  let (b, r, c, s) := readSome q 0 d.len (d.src + k) (d.len - k) c.vox.got c s
  (r, { c with vox := { c.vox with got := b } }, voxCount q (b.length / stride - k / stride) 0 0 s)

/-- The table is built from what has been read: it may meet poison in the scratch region (R303). -/
def withTable (q : QId) (c : Cmd) (f : State → State) (s : State) : State :=
  if scratchPoison s q c.desc then voxEnd q c .poison c.pos 0 s else f { s with serialNo := s.serialNo + 1 }

/-! ## Records (Table 13.1) -/

/-- A signed 16-bit number from its pattern, and back. -/
def s16 (n : Nat) : Int := if n % 65536 < 32768 then (n % 65536 : Nat) else (n % 65536 : Nat) - (65536 : Int)
def s16Bytes (x : Int) : List Byte := leBytes 2 (x % 65536).toNat

/-- A coordinate is in range. -/
def inS16 (x : Int) : Bool := decide (-32768 ≤ x ∧ x ≤ 32767)

abbrev Site := Int × Int × Int

/-- A site from an entry's bytes 0 to 5. -/
def siteOf (b : List Byte) : Site :=
  (s16 (ofLeBytes (b.take 2)), s16 (ofLeBytes ((b.drop 2).take 2)), s16 (ofLeBytes ((b.drop 4).take 2)))

/-- A site record. -/
def siteBytes (x : Site) : List Byte := s16Bytes x.1 ++ s16Bytes x.2.1 ++ s16Bytes x.2.2 ++ [0, 0]

/-- Cut a byte list into whole entries. -/
def entries (stride : Nat) : Nat → List Byte → List (List Byte)
  | 0, _ => []
  | n + 1, b => if b.length < stride then [] else b.take stride :: entries stride n (b.drop stride)

/-! ## VOXEL_SAMPLE (R292, R293) -/

/-- The voxel coordinate of one axis; none where the point is dropped. -/
def voxCoord (p o sz : Nat) : Option Int :=
  match fpVal fp32 p with
  | .fin _ _ _ => ((fpSub fp32 p o).bind fun x => fpDiv fp32 x sz).bind fun y => (fpFloor fp32 y).filter inS16
  | _ => none

/-- The voxel of a point. -/
def voxOf (d : Desc) (b : List Byte) : Option Site :=
  let p (i : Nat) := ofLeBytes ((b.drop (4 * i)).take 4)
  match voxCoord (p 0) (descOp d 0x24 4) (descOp d 0x30 4), voxCoord (p 1) (descOp d 0x28 4) (descOp d 0x34 4),
      voxCoord (p 2) (descOp d 0x2C 4) (descOp d 0x38 4) with
  | some x, some y, some z => some (x, y, z)
  | _, _, _ => none

/-- Keep the first point of every voxel: the sample records in order of index, and the points dropped. -/
def samplePts (d : Desc) : List (List Byte) → Nat → List Site → List (List Byte) × Nat
  | [], _, _ => ([], 0)
  | b :: r, i, seen =>
    match voxOf d b with
    | none => let (o, n) := samplePts d r (i + 1) seen; (o, n + 1)
    | some v =>
      if seen.contains v then samplePts d r (i + 1) seen
      else
        let (o, n) := samplePts d r (i + 1) (v :: seen)
        ((siteBytes v ++ leBytes 4 i ++ (b.drop 12).take 4) :: o, n)

def sampleCheck (q : QId) (c : Cmd) (s : State) : Option Status :=
  let d := c.desc
  voxCheck q (!voxTableOk d || decide (d.len = 0 ∨ d.len % 16 ≠ 0 ∨ 0x10000000 < d.len)
      || !(fpPositive fp32 (descOp d 0x30 4) && fpPositive fp32 (descOp d 0x34 4) && fpPositive fp32 (descOp d 0x38 4)))
    [(d.src, d.len)] [(d.dst, voxOutLen d), (voxBase d, 2 ^ voxLog d)] s

/-- The records are written as the points are read (R301). Log: DEDUCED 67. -/
def sampleWork (q : QId) (c : Cmd) (s : State) : State :=
  let d := c.desc
  let need := scratchNeed (d.len / 16)
  if 2 ^ voxLog d < need then voxEnd q c .bufferShort need 2 s
  else withScratch q c (fun c s =>
    let before := (samplePts d (entries 16 (d.len / 16) c.vox.got) 0 []).2
    let (r, c, s) := voxRead q 16 c s
    let (recs, drops) := samplePts d (entries 16 (d.len / 16) c.vox.got) 0 []
    let s := voxCount q 0 (drops - before) 0 s
    withTable q c (voxOut q (recs.take (voxOutLen d / 16)).flatten c (fun c s =>
      match r with
      | .hold => putCmd q c s
      | .fail st => voxEnd q c st c.pos drops s
      | .done => if voxOutLen d / 16 < recs.length then voxEnd q c .bufferShort (16 * recs.length) 1 s else voxEnd q c .ok (16 * recs.length) drops s)) s) s

/-! ## RULEBOOK_BUILD (R294 to R296) -/

/-- The kernel offsets in the order of m. -/
def kernel (k : Nat × Nat × Nat) : List Site :=
  let axis (n : Nat) : List Int := (List.range n).map fun i => (i : Int) - ((n - 1) / 2 : Nat)
  (axis k.2.2).flatMap fun z => (axis k.2.1).flatMap fun y => (axis k.1).map fun x => (x, y, z)

/-- The output site that an input meets at an offset, if the difference is divisible by the stride. -/
def candidate (st : Nat × Nat × Nat) (i k : Site) : Option Site :=
  let ok (a : Int) (n : Nat) := decide (a % n = 0)
  let x := i.1 - k.1
  let y := i.2.1 - k.2.1
  let z := i.2.2 - k.2.2
  if ok x st.1 && ok y st.2.1 && ok z st.2.2 then some (x / st.1, y / st.2.1, z / st.2.2) else none

/-- The site is within the int16 range on every axis. -/
def siteIn (x : Site) : Bool := inS16 x.1 && inS16 x.2.1 && inS16 x.2.2

/-- The first occurrences of a site list, with their indices. -/
def firsts : List Site → Nat → List Site → List (Nat × Site)
  | [], _, _ => []
  | x :: r, i, seen => if seen.contains x then firsts r (i + 1) seen else (i, x) :: firsts r (i + 1) (x :: seen)

/-- What the search for output sites yields: the sites in order and the candidates out of range; none when the table would exceed half
its entries (R300). Log: DEDUCED 67. -/
def findOutputs (limit : Nat) (st : Nat × Nat × Nat) (ins : List Site) : List (Site × Site) → List Site → Nat → Option (List Site × Nat)
  | [], outs, n => some (outs.reverse, n)
  | (i, k) :: r, outs, n =>
    match candidate st i k with
    | none => findOutputs limit st ins r outs n
    | some o =>
      if !siteIn o then findOutputs limit st ins r outs (n + 1)
      else if outs.contains o then findOutputs limit st ins r outs n
      else if limit < ins.length + (((o :: outs).filter fun x => !ins.contains x).length) then none
      else findOutputs limit st ins r (o :: outs) n

/-- The pairs of one offset: IN and OUT. -/
def pairsAt (st : Nat × Nat × Nat) (ins : List (Nat × Site)) (outs : List Site) (k : Site) : List (Nat × Nat) :=
  ins.filterMap fun (j, i) => (candidate st i k).bind fun o => (outs.findIdx? (· = o)).map fun x => (j, x)

/-- The rulebook's operands. -/
def rbKernel (d : Desc) : Nat × Nat × Nat := (descOp d 0x24 1, descOp d 0x25 1, descOp d 0x26 1)
def rbStride (d : Desc) : Nat × Nat × Nat :=
  let b := descOp d 0x27 1
  ((if b.testBit 0 then 2 else 1), (if b.testBit 1 then 2 else 1), (if b.testBit 2 then 2 else 1))

/-- The buffer of Table 13.2. -/
def rulebook (d : Desc) (outs : List Site) (ps : List (List (Nat × Nat))) : List Byte :=
  let k := rbKernel d
  let n := (ps.map List.length).sum
  let off := (0x400 + 8 * outs.length + 127) / 128 * 128
  let head := leBytes 4 outs.length ++ leBytes 4 n ++ leBytes 4 ps.length ++ leBytes 4 off
    ++ [BitVec.ofNat 8 k.1, BitVec.ofNat 8 k.2.1, BitVec.ofNat 8 k.2.2, BitVec.ofNat 8 (descOp d 0x27 1)] ++ List.replicate 492 0
  let counts := (List.range 128).flatMap fun m => leBytes 4 ((ps.getD m []).length)
  let sites := outs.flatMap siteBytes
  head ++ counts ++ sites ++ List.replicate (off - 0x400 - sites.length) 0
    ++ (ps.flatten.flatMap fun p => leBytes 4 p.1 ++ leBytes 4 p.2)

def tapOk (n : Nat) : Bool := decide (n = 1 ∨ n = 3 ∨ n = 5)
def strideOk (n : Nat) : Bool := decide (n = 8 ∨ n = 16)

def rulebookCheck (q : QId) (c : Cmd) (s : State) : Option Status :=
  let d := c.desc
  let k := rbKernel d
  let sd := descOp d 0x28 1
  let b := descOp d 0x27 1
  let mode := descOp d 0x29 1
  voxCheck q (!voxTableOk d || !(tapOk k.1 && tapOk k.2.1 && tapOk k.2.2) || decide (8 ≤ b) || !strideOk sd || decide (2 ≤ mode)
      || !opsZero d 0x2A || decide (mode = 1 ∧ b ≠ 0) || decide (d.len = 0 ∨ d.len % sd ≠ 0 ∨ 2097152 * sd < d.len))
    [(d.src, d.len)] [(d.dst, voxOutLen d), (voxBase d, 2 ^ voxLog d)] s

/-- Whole pairs among the bytes of a rulebook written so far (Table 13.2). -/
def pairsIn (outs pos : Nat) : Nat := (pos - (0x400 + 8 * outs + 127) / 128 * 128) / 8

/-- Write the rulebook of an output site set; the pairs written are counted as they are. -/
def rulebookOut (q : QId) (outs : List Site) (ps : List (List (Nat × Nat))) (miss : Nat) (c : Cmd) (s : State) : State :=
  let buf := rulebook c.desc outs ps
  if voxOutLen c.desc < buf.length then voxEnd q c .bufferShort buf.length 1 s
  else
    let d := buf.drop c.pos
    let was := pairsIn outs.length c.pos
    let (n, r, c, s) := writeSome q 1 (d.length + 1) (c.desc.dst + c.pos) d 0 c s
    let c := { c with pos := c.pos + n }
    let s := voxCount q 0 0 (pairsIn outs.length c.pos - was) s
    match r with
    | .hold => putCmd q c s
    | .fail st => voxEnd q c st c.pos 0 s
    | .done => voxEnd q c .ok c.pos miss s

/-- Log: DEDUCED 67. -/
def rulebookWork (q : QId) (c : Cmd) (s : State) : State :=
  let d := c.desc
  let sd := descOp d 0x28 1
  let need := scratchNeed (d.len / sd)
  if 2 ^ voxLog d < need then voxEnd q c .bufferShort need 2 s
  else withScratch q c (fun c s =>
    let (r, c, s) := voxRead q sd c s
    match r with
    | .hold => putCmd q c s
    | .fail st => voxEnd q c st c.pos 0 s
    | .done =>
      let ins := firsts ((entries sd (d.len / sd) c.vox.got).map siteOf) 0 []
      let only := ins.map Prod.snd
      let ks := kernel (rbKernel d)
      let found := if descOp d 0x29 1 = 1 then some (only, 0)
        else findOutputs (2 ^ voxLog d / 32) (rbStride d) only (only.flatMap fun i => ks.map fun k => (i, k)) [] 0
      withTable q c (fun s => match found with
        | none => if voxLog d = 31 then voxEnd q c .unsupported 0 0 s else voxEnd q c .bufferShort (2 ^ (voxLog d + 1)) 2 s
        | some (outs, miss) => rulebookOut q outs (ks.map (pairsAt (rbStride d) ins outs)) miss c s) s) s

/-! ## SITE_LOOKUP (R297) -/

def lookupCheck (q : QId) (c : Cmd) (s : State) : Option Status :=
  let d := c.desc
  let sd := descOp d 0x30 1
  let n := descOp d 0x2C 4
  voxCheck q (!voxTableOk d || !strideOk sd || !opsZero d 0x31 || decide (n = 0 ∨ 16777216 < n)
      || decide (d.len = 0 ∨ d.len % sd ≠ 0 ∨ 16777216 * sd < d.len))
    [(d.src, d.len), (descOp d 0x24 8, 8 * n)] [(d.dst, voxOutLen d), (voxBase d, 2 ^ voxLog d)] s

/-- The results are written as the queries are read. Log: DEDUCED 67. -/
def lookupWork (q : QId) (c : Cmd) (s : State) : State :=
  let d := c.desc
  let sd := descOp d 0x30 1
  let nq := descOp d 0x2C 4
  let need := scratchNeed (d.len / sd)
  if 2 ^ voxLog d < need then voxEnd q c .bufferShort need 2 s
  else if voxOutLen d < 4 * nq then voxEnd q c .bufferShort (4 * nq) 1 s
  else withScratch q c (fun c s =>
    let (r, c, s) := voxRead q sd c s
    match r with
    | .hold => putCmd q c s
    | .fail st => voxEnd q c st c.pos 0 s
    | .done =>
      let c := if c.vox.qry = [] then leaveTiles c else c
      let k := c.vox.qry.length
      let (b, r, c, s) := readSome q 0 (8 * nq) (descOp d 0x24 8 + k) (8 * nq - k) c.vox.qry c s
      let c := { c with vox := { c.vox with qry := b } }
      let sites := (entries sd (d.len / sd) c.vox.got).map siteOf
      let res := (entries 8 nq b).map fun e => sites.findIdx? (· = siteOf e)
      withTable q c (voxOut q (res.flatMap fun x => leBytes 4 (x.getD 0xFFFFFFFF)) c (fun c s =>
        match r with
        | .hold => putCmd q c s
        | .fail st => voxEnd q c st c.pos 0 s
        | .done => voxEnd q c .ok c.pos (res.filter Option.isNone).length s)) s) s

def execVoxelSample (q : QId) (idx : BitVec 16) (s : State) : Host.Outcome State Fault Refusal :=
  .next (whileAlive (runCmd q idx 0x20 (sampleCheck q) (sampleWork q)) s)
def execRulebookBuild (q : QId) (idx : BitVec 16) (s : State) : Host.Outcome State Fault Refusal :=
  .next (whileAlive (runCmd q idx 0x21 (rulebookCheck q) (rulebookWork q)) s)
def execSiteLookup (q : QId) (idx : BitVec 16) (s : State) : Host.Outcome State Fault Refusal :=
  .next (whileAlive (runCmd q idx 0x22 (lookupCheck q) (lookupWork q)) s)

end Sys2Proof.Machine
end

