-- ==== Sys2Proof/Machine/Dispatch.lean ====
section
/-! DEFINITION. The dispatch of a command to its meaning: one arm for each constructor of Instr. -/

namespace Sys2Proof.Machine

/-- What a command does to the node: one direct call of its meaning. -/
def exec (i : Instr) (s : State) : Host.Outcome State Fault Refusal :=
  match i with
  | .registerWrite fn w => Sys2Proof.Machine.execRegisterWrite fn w s
  | .registerPairWrite fn w => Sys2Proof.Machine.execRegisterPairWrite fn w s
  | .registerPairLowRead fn off size => Sys2Proof.Machine.execRegisterPairLowRead fn off size s
  | .shadowWrite fn w => Sys2Proof.Machine.execShadowWrite fn w s
  | .genctlCommit fn w => Sys2Proof.Machine.execGenctlCommit fn w s
  | .coursePacketSend => Sys2Proof.Machine.execCoursePacketSend s
  | .courseClockLoss c => Sys2Proof.Machine.execCourseClockLoss c s
  | .courseBoundary => Sys2Proof.Machine.execCourseBoundary s
  | .genRelease k => Sys2Proof.Machine.execGenRelease k s
  | .genReleaseByAge k => Sys2Proof.Machine.execGenReleaseByAge k s
  | .genFlip k => Sys2Proof.Machine.execGenFlip k s
  | .genStalePost => Sys2Proof.Machine.execGenStalePost s
  | .courseSlip p => Sys2Proof.Machine.execCourseSlip p s
  | .slipClr fn w slips => Sys2Proof.Machine.execSlipClr fn w slips s
  | .tenantCreate fn m part vf => Sys2Proof.Machine.execTenantCreate fn m part vf s
  | .tenantKeyReady t => Sys2Proof.Machine.execTenantKeyReady t s
  | .tenantDestroy fn m tenant => Sys2Proof.Machine.execTenantDestroy fn m tenant s
  | .tenantWithdraw t => Sys2Proof.Machine.execTenantWithdraw t s
  | .tenantKeyZeroise t => Sys2Proof.Machine.execTenantKeyZeroise t s
  | .tenantFree t => Sys2Proof.Machine.execTenantFree t s
  | .tenantQuery fn m tenant => Sys2Proof.Machine.execTenantQuery fn m tenant s
  | .streamOpen fn m tenant endpoint window timeout => Sys2Proof.Machine.execStreamOpen fn m tenant endpoint window timeout s
  | .streamModify fn m stream window timeout => Sys2Proof.Machine.execStreamModify fn m stream window timeout s
  | .streamClose fn m stream => Sys2Proof.Machine.execStreamClose fn m stream s
  | .streamIdFree sid => Sys2Proof.Machine.execStreamIdFree sid s
  | .streamWindowRamp sid => Sys2Proof.Machine.execStreamWindowRamp sid s
  | .streamTimeout sid rseq => Sys2Proof.Machine.execStreamTimeout sid rseq s
  | .partReset fn m part => Sys2Proof.Machine.execPartReset fn m part s
  | .partitionResetWithdraw p => Sys2Proof.Machine.execPartitionResetWithdraw p s
  | .partitionResetComplete p => Sys2Proof.Machine.execPartitionResetComplete p s
  | .partQuery fn m part => Sys2Proof.Machine.execPartQuery fn m part s
  | .vfFlr hp vf => Sys2Proof.Machine.execVfFlr hp vf s
  | .porNRise straps => Sys2Proof.Machine.execPorNRise straps s
  | .porNFall => Sys2Proof.Machine.execPorNFall s
  | .pwrgoodFall => Sys2Proof.Machine.execPwrgoodFall s
  | .railOrderFault r => Sys2Proof.Machine.execRailOrderFault r s
  | .vddAuxRemoval => Sys2Proof.Machine.execVddAuxRemoval s
  | .perstNAssert hp => Sys2Proof.Machine.execPerstNAssert hp s
  | .perstNDeassert hp => Sys2Proof.Machine.execPerstNDeassert hp s
  | .thermtrip die t => Sys2Proof.Machine.execThermtrip die t s
  | .prochotAssert die t => Sys2Proof.Machine.execProchotAssert die t s
  | .prochotRelease t0 t1 => Sys2Proof.Machine.execProchotRelease t0 t1 s
  | .refclkLost g => Sys2Proof.Machine.execRefclkLost g s
  | .refclkReturn g => Sys2Proof.Machine.execRefclkReturn g s
  | .hostNotifySend r => Sys2Proof.Machine.execHostNotifySend r s
  | .hostNotifyRetry r => Sys2Proof.Machine.execHostNotifyRetry r s
  | .smbAlertResponse => Sys2Proof.Machine.execSmbAlertResponse s
  | .smbSclTimeout => Sys2Proof.Machine.execSmbSclTimeout s
  | .pinGuardEnd n => Sys2Proof.Machine.execPinGuardEnd n s
  | .tachWindow n => Sys2Proof.Machine.execTachWindow n s
  | .ledPeriod n => Sys2Proof.Machine.execLedPeriod n s
  | .clockLock => Sys2Proof.Machine.execClockLock s
  | .otpRead o => Sys2Proof.Machine.execOtpRead o s
  | .flashDiscovery d => Sys2Proof.Machine.execFlashDiscovery d s
  | .slotChoice => Sys2Proof.Machine.execSlotChoice s
  | .processorStart => Sys2Proof.Machine.execProcessorStart s
  | .settingsRead => Sys2Proof.Machine.execSettingsRead s
  | .eccSelftest hbm ddr sram => Sys2Proof.Machine.execEccSelftest hbm ddr sram s
  | .meshSelftest failed repeater => Sys2Proof.Machine.execMeshSelftest failed repeater s
  | .calibrationApply => Sys2Proof.Machine.execCalibrationApply s
  | .partitionLoad => Sys2Proof.Machine.execPartitionLoad s
  | .tablesLoad => Sys2Proof.Machine.execTablesLoad s
  | .hbmTraining fails => Sys2Proof.Machine.execHbmTraining fails s
  | .ddrTraining dimms fails => Sys2Proof.Machine.execDdrTraining dimms fails s
  | .portsOpen ms => Sys2Proof.Machine.execPortsOpen ms s
  | .sedgeDesignLoad => Sys2Proof.Machine.execSedgeDesignLoad s
  | .enterService ms => Sys2Proof.Machine.execEnterService ms s
  | .healthCheckPass => Sys2Proof.Machine.execHealthCheckPass s
  | .settingsWrite => Sys2Proof.Machine.execSettingsWrite s
  | .configRetryEnd hp => Sys2Proof.Machine.execConfigRetryEnd hp s
  | .trainingAdmit => Sys2Proof.Machine.execTrainingAdmit s
  | .attemptSuccess p => Sys2Proof.Machine.execAttemptSuccess p s
  | .attemptFail p e => Sys2Proof.Machine.execAttemptFail p e s
  | .attemptTimeout p lockLocal lockPartner => Sys2Proof.Machine.execAttemptTimeout p lockLocal lockPartner s
  | .failedRetry p => Sys2Proof.Machine.execFailedRetry p s
  | .lnkRetrain fn p => Sys2Proof.Machine.execLnkRetrain fn p s
  | .lnkEnable fn p => Sys2Proof.Machine.execLnkEnable fn p s
  | .lnkDisable fn p => Sys2Proof.Machine.execLnkDisable fn p s
  | .params p q => Sys2Proof.Machine.execParams p q s
  | .paramsAck p => Sys2Proof.Machine.execParamsAck p s
  | .paramsResend p => Sys2Proof.Machine.execParamsResend p s
  | .retrainReq p f parity cause => Sys2Proof.Machine.execRetrainReq p f parity cause s
  | .data p f alternates => Sys2Proof.Machine.execData p f alternates s
  | .leanFrameReceive p f lockLost parity => Sys2Proof.Machine.execLeanFrameReceive p f lockLost parity s
  | .idle p f => Sys2Proof.Machine.execIdle p f s
  | .replayReq p f => Sys2Proof.Machine.execReplayReq p f s
  | .frameSend p vc => Sys2Proof.Machine.execFrameSend p vc s
  | .idleSend p crdVc => Sys2Proof.Machine.execIdleSend p crdVc s
  | .replayTimer x => Sys2Proof.Machine.execReplayTimer x s
  | .replayResend p crdVc => Sys2Proof.Machine.execReplayResend p crdVc s
  | .laneLockLoss p => Sys2Proof.Machine.execLaneLockLoss p s
  | .rdShared p m => Sys2Proof.Machine.execRdShared p m s
  | .rdUnique p m => Sys2Proof.Machine.execRdUnique p m s
  | .rdOnce p m => Sys2Proof.Machine.execRdOnce p m s
  | .wrFull p m => Sys2Proof.Machine.execWrFull p m s
  | .wrStash p m => Sys2Proof.Machine.execWrStash p m s
  | .wbDirty p m => Sys2Proof.Machine.execWbDirty p m s
  | .evictClean p m => Sys2Proof.Machine.execEvictClean p m s
  | .atOp p m => Sys2Proof.Machine.execAtOp p m s
  | .mcastRead p m => Sys2Proof.Machine.execMcastRead p m s
  | .mcastReadComplete sid rseq => Sys2Proof.Machine.execMcastReadComplete sid rseq s
  | .reqReserved p m => Sys2Proof.Machine.execReqReserved p m s
  | .forward p cls m => Sys2Proof.Machine.execForward p cls m s
  | .datWrite p m => Sys2Proof.Machine.execDatWrite p m s
  | .mcastData p m => Sys2Proof.Machine.execMcastData p m s
  | .snpAckInv p m => Sys2Proof.Machine.execSnpAckInv p m s
  | .snpAckShared p m => Sys2Proof.Machine.execSnpAckShared p m s
  | .stashAccept p m => Sys2Proof.Machine.execStashAccept p m s
  | .stashDecline p m => Sys2Proof.Machine.execStashDecline p m s
  | .compAck p m => Sys2Proof.Machine.execCompAck p m s
  | .datSnpS p m => Sys2Proof.Machine.execDatSnpS p m s
  | .datSnpI p m => Sys2Proof.Machine.execDatSnpI p m s
  | .claim p c => Sys2Proof.Machine.execClaim p c s
  | .announce p c => Sys2Proof.Machine.execAnnounce p c s
  | .join p kind serial => Sys2Proof.Machine.execJoin p kind serial s
  | .assign p endpoint serial => Sys2Proof.Machine.execAssign p endpoint serial s
  | .routePub p dst port alt altValid withdraw last serial => Sys2Proof.Machine.execRoutePub p dst port alt altValid withdraw last serial s
  | .claimWindowExpire => Sys2Proof.Machine.execClaimWindowExpire s
  | .meshPacketArrive st pl ps => Sys2Proof.Machine.execMeshPacketArrive st pl ps s
  | .meshInject st pl free pkt => Sys2Proof.Machine.execMeshInject st pl free pkt s
  | .meshMulticast row line mask pkt => Sys2Proof.Machine.execMeshMulticast row line mask pkt s
  | .tileMap fn m tenant tile count tier flags => Sys2Proof.Machine.execTileMap fn m tenant tile count tier flags s
  | .tileUnmap fn m tenant tile count => Sys2Proof.Machine.execTileUnmap fn m tenant tile count s
  | .tileProtect fn m tenant tile count ro => Sys2Proof.Machine.execTileProtect fn m tenant tile count ro s
  | .tileGrant fn m owner tile count grantee gtile mode => Sys2Proof.Machine.execTileGrant fn m owner tile count grantee gtile mode s
  | .tileRevoke fn m grantee gtile count => Sys2Proof.Machine.execTileRevoke fn m grantee gtile count s
  | .tileMigrate fn m tenant tile tier => Sys2Proof.Machine.execTileMigrate fn m tenant tile tier s
  | .tileReturn tier phys => Sys2Proof.Machine.execTileReturn tier phys s
  | .migrationPassDone k => Sys2Proof.Machine.execMigrationPassDone k s
  | .migrationFinalPass k => Sys2Proof.Machine.execMigrationFinalPass k s
  | .migrationBlockCopied k block => Sys2Proof.Machine.execMigrationBlockCopied k block s
  | .migrationRelease k => Sys2Proof.Machine.execMigrationRelease k s
  | .dramReadComplete tier line e => Sys2Proof.Machine.execDramReadComplete tier line e s
  | .dramWriteComplete tier line e => Sys2Proof.Machine.execDramWriteComplete tier line e s
  | .refreshDue tier ch bank => Sys2Proof.Machine.execRefreshDue tier ch bank s
  | .refreshDebtExpire tier ch bank => Sys2Proof.Machine.execRefreshDebtExpire tier ch bank s
  | .rankPowerDown tier ch rank => Sys2Proof.Machine.execRankPowerDown tier ch rank s
  | .rankWake tier ch rank => Sys2Proof.Machine.execRankWake tier ch rank s
  | .tierSleep fn tier => Sys2Proof.Machine.execTierSleep fn tier s
  | .tierWake fn tier => Sys2Proof.Machine.execTierWake fn tier s
  | .tierWakeDone tier => Sys2Proof.Machine.execTierWakeDone tier s
  | .rateApply fn => Sys2Proof.Machine.execRateApply fn s
  | .rateApplyDone ok => Sys2Proof.Machine.execRateApplyDone ok s
  | .ceWindowStart => Sys2Proof.Machine.execCeWindowStart s
  | .chSuspectClear fn tier w => Sys2Proof.Machine.execChSuspectClear fn tier w s
  | .agentRelease fn m endpoint => Sys2Proof.Machine.execAgentRelease fn m endpoint s
  | .agentSweepDone k => Sys2Proof.Machine.execAgentSweepDone k s
  | .snoopTimeout slot => Sys2Proof.Machine.execSnoopTimeout slot s
  | .tileRecall tier phys c => Sys2Proof.Machine.execTileRecall tier phys c s
  | .dirLkEntryRead fn => Sys2Proof.Machine.execDirLkEntryRead fn s
  | .queueCreate fn m tenant queue cls n place inst vector sqBase cqBase => Sys2Proof.Machine.execQueueCreate fn m tenant queue cls n place inst vector sqBase cqBase s
  | .queueDestroy fn m tenant queue => Sys2Proof.Machine.execQueueDestroy fn m tenant queue s
  | .queueQuery fn m tenant queue => Sys2Proof.Machine.execQueueQuery fn m tenant queue s
  | .sqDoorbell fn q val => Sys2Proof.Machine.execSqDoorbell fn q val s
  | .cqHeadWrite fn q val => Sys2Proof.Machine.execCqHeadWrite fn q val s
  | .qAbort fn q val => Sys2Proof.Machine.execQAbort fn q val s
  | .descriptorFetch q h => Sys2Proof.Machine.execDescriptorFetch q h s
  | .copy q idx => Sys2Proof.Machine.execCopy q idx s
  | .fill q idx => Sys2Proof.Machine.execFill q idx s
  | .gather q idx => Sys2Proof.Machine.execGather q idx s
  | .scatter q idx => Sys2Proof.Machine.execScatter q idx s
  | .mcastPush q idx => Sys2Proof.Machine.execMcastPush q idx s
  | .migrate q idx => Sys2Proof.Machine.execMigrate q idx s
  | .scrub q idx errs => Sys2Proof.Machine.execScrub q idx errs s
  | .voxelSample q idx => Sys2Proof.Machine.execVoxelSample q idx s
  | .rulebookBuild q idx => Sys2Proof.Machine.execRulebookBuild q idx s
  | .siteLookup q idx => Sys2Proof.Machine.execSiteLookup q idx s
  | .launch q idx => Sys2Proof.Machine.execLaunch q idx s
  | .loadFrames q idx => Sys2Proof.Machine.execLoadFrames q idx s
  | .readback q idx => Sys2Proof.Machine.execReadback q idx s
  | .stop q idx => Sys2Proof.Machine.execStop q idx s
  | .commandFinish q idx => Sys2Proof.Machine.execCommandFinish q idx s
  | .completionCommit q hostOk => Sys2Proof.Machine.execCompletionCommit q hostOk s
  | .queueStopped q => Sys2Proof.Machine.execQueueStopped q s
  | .launchStart q idx => Sys2Proof.Machine.execLaunchStart q idx s
  | .computeUnitFire col cu => Sys2Proof.Machine.execComputeUnitFire col cu s
  | .steeringUnitFire col su => Sys2Proof.Machine.execSteeringUnitFire col su s
  | .scalarUnitFire col => Sys2Proof.Machine.execScalarUnitFire col s
  | .memoryUnitAccess col mu stream ph => Sys2Proof.Machine.execMemoryUnitAccess col mu stream ph s
  | .launchDone col word => Sys2Proof.Machine.execLaunchDone col word s
  | .launchCommit q idx => Sys2Proof.Machine.execLaunchCommit q idx s
  | .launchTimeout q idx => Sys2Proof.Machine.execLaunchTimeout q idx s
  | .arrayStall q idx => Sys2Proof.Machine.execArrayStall q idx s
  | .arrayQuery fn m part => Sys2Proof.Machine.execArrayQuery fn m part s
  | .loadStart q idx => Sys2Proof.Machine.execLoadStart q idx s
  | .select l => Sys2Proof.Machine.execSelect l s
  | .claimDirective l => Sys2Proof.Machine.execClaimDirective l s
  | .frames l => Sys2Proof.Machine.execFrames l s
  | .maps l => Sys2Proof.Machine.execMaps l s
  | .clear l => Sys2Proof.Machine.execClear l s
  | .pad l => Sys2Proof.Machine.execPad l s
  | .endStream l => Sys2Proof.Machine.execEndStream l s
  | .readbackCheck upsets chk => Sys2Proof.Machine.execReadbackCheck upsets chk s
  | .readbackEnable fn w => Sys2Proof.Machine.execReadbackEnable fn w s
  | .trngTestFail t again => Sys2Proof.Machine.execTrngTestFail t again s
  | .drbgReseed => Sys2Proof.Machine.execDrbgReseed s
  | .tamper sid => Sys2Proof.Machine.execTamper sid s
  | .getVersion hp => Sys2Proof.Machine.execGetVersion hp s
  | .getCapabilities hp => Sys2Proof.Machine.execGetCapabilities hp s
  | .negotiateAlgorithms hp => Sys2Proof.Machine.execNegotiateAlgorithms hp s
  | .getDigests hp => Sys2Proof.Machine.execGetDigests hp s
  | .getCertificate hp slot offset length => Sys2Proof.Machine.execGetCertificate hp slot offset length s
  | .challenge hp slot summary nonce => Sys2Proof.Machine.execChallenge hp slot summary nonce s
  | .getMeasurements hp index signed nonce => Sys2Proof.Machine.execGetMeasurements hp index signed nonce s
  | .spdmUnsupportedRequest hp code => Sys2Proof.Machine.execSpdmUnsupportedRequest hp code s
  | .hello p h => Sys2Proof.Machine.execHello p h s
  | .hsCert p offset bytes => Sys2Proof.Machine.execHsCert p offset bytes s
  | .verify p sig => Sys2Proof.Machine.execVerify p sig s
  | .finish p mac => Sys2Proof.Machine.execFinish p mac s
  | .hsAbort p cause => Sys2Proof.Machine.execHsAbort p cause s
  | .attestReq p kind offset nonce => Sys2Proof.Machine.execAttestReq p kind offset nonce s
  | .hsSignatureDone p => Sys2Proof.Machine.execHsSignatureDone p s
  | .hsResend p => Sys2Proof.Machine.execHsResend p s
  | .hsTimeout p => Sys2Proof.Machine.execHsTimeout p s
  | .linkPin fn m port action hash => Sys2Proof.Machine.execLinkPin fn m port action hash s
  | .mbxUnknownOpcode fn m opcode => Sys2Proof.Machine.execMbxUnknownOpcode fn m opcode s
  | .imageWrite fn m slot offset length addr h => Sys2Proof.Machine.execImageWrite fn m slot offset length addr h s
  | .telemetryRead fn m => Sys2Proof.Machine.execTelemetryRead fn m s
  | .faultLogRead fn m seq count => Sys2Proof.Machine.execFaultLogRead fn m seq count s
  | .evRingEnable fn w => Sys2Proof.Machine.execEvRingEnable fn w s
  | .evRingDisable fn w => Sys2Proof.Machine.execEvRingDisable fn w s
  | .evHeadWrite fn w => Sys2Proof.Machine.execEvHeadWrite fn w s
  | .pfFlr hp => Sys2Proof.Machine.execPfFlr hp s
  | .vfEnableClear hp => Sys2Proof.Machine.execVfEnableClear hp s
  | .pwrCapWrite fn w => Sys2Proof.Machine.execPwrCapWrite fn w s
  | .powerTokenAllocation fixed ds => Sys2Proof.Machine.execPowerTokenAllocation fixed ds s
  | .thermalStep t0 t1 => Sys2Proof.Machine.execThermalStep t0 t1 s
  | .telemetryRefresh x => Sys2Proof.Machine.execTelemetryRefresh x s
  | .smbState wr => Sys2Proof.Machine.execSmbState wr s
  | .smbTemp wr => Sys2Proof.Machine.execSmbTemp wr s
  | .smbPower wr => Sys2Proof.Machine.execSmbPower wr s
  | .smbBmcCapRead => Sys2Proof.Machine.execSmbBmcCapRead s
  | .smbBmcCapWrite watts pec => Sys2Proof.Machine.execSmbBmcCapWrite watts pec s
  | .smbEvent wr => Sys2Proof.Machine.execSmbEvent wr s
  | .smbSerial wr => Sys2Proof.Machine.execSmbSerial wr s
  | .smbFwVersion wr => Sys2Proof.Machine.execSmbFwVersion wr s
  | .smbUnknownCode code => Sys2Proof.Machine.execSmbUnknownCode code s
  | .monitorVer => Sys2Proof.Machine.execMonitorVer s
  | .monitorState => Sys2Proof.Machine.execMonitorState s
  | .monitorRd off n => Sys2Proof.Machine.execMonitorRd off n s
  | .monitorLog n => Sys2Proof.Machine.execMonitorLog n s
  | .monitorTel => Sys2Proof.Machine.execMonitorTel s
  | .monitorLinks => Sys2Proof.Machine.execMonitorLinks s
  | .monitorHelp => Sys2Proof.Machine.execMonitorHelp s
  | .monitorBadLine chars => Sys2Proof.Machine.execMonitorBadLine chars s
  | .sramUncorrectable f => Sys2Proof.Machine.execSramUncorrectable f s
  | .watchdogExpire p hashOk => Sys2Proof.Machine.execWatchdogExpire p hashOk s
  | .processorRestartDone p => Sys2Proof.Machine.execProcessorRestartDone p s
  | .tachEdge n long => Sys2Proof.Machine.execTachEdge n long s
  | .symbolLock p lanes => Sys2Proof.Machine.execSymbolLock p lanes s
  | .reservedOpcodeDiscard p cls m => Sys2Proof.Machine.execReservedOpcodeDiscard p cls m s
  | .imageWriteDone ok => Sys2Proof.Machine.execImageWriteDone ok s
  | .doeDiscovery hp index => Sys2Proof.Machine.execDoeDiscovery hp index s

end Sys2Proof.Machine
end

