-- ==== Sys2Proof/Safety.lean ====
section
/-! DEFINITION. What claims say of a run: the areas of the node's state and the frame of a command, the canonical form of pool memory,
the classes of commands that leave FATAL and OFF, and what holds of a node in FATAL. -/

namespace Sys2Proof.Machine

/-- The areas of the state: one for each field of State. -/
inductive Area where
  | pending
  | clk
  | crs
  | insts
  | nid
  | cfg
  | parts
  | tenants
  | pttStatus
  | streams
  | reqs
  | serialNo
  | ports
  | xpt
  | msh
  | til
  | dram
  | dir
  | eng
  | arr
  | sec
  | hosts
  | pwr
  | flt
  | boot
  | sbd
  | out
  deriving DecidableEq, Repr

/-- An area stands in `t` as it stood in `s`. -/
def Area.same (a : Area) (s t : State) : Prop :=
  match a with
  | .pending => t.pending = s.pending
  | .clk => t.clk = s.clk
  | .crs => t.crs = s.crs
  | .insts => t.insts = s.insts
  | .nid => t.nid = s.nid
  | .cfg => t.cfg = s.cfg
  | .parts => t.parts = s.parts
  | .tenants => t.tenants = s.tenants
  | .pttStatus => t.pttStatus = s.pttStatus
  | .streams => t.streams = s.streams
  | .reqs => t.reqs = s.reqs
  | .serialNo => t.serialNo = s.serialNo
  | .ports => t.ports = s.ports
  | .xpt => t.xpt = s.xpt
  | .msh => t.msh = s.msh
  | .til => t.til = s.til
  | .dram => t.dram = s.dram
  | .dir => t.dir = s.dir
  | .eng => t.eng = s.eng
  | .arr => t.arr = s.arr
  | .sec => t.sec = s.sec
  | .hosts => t.hosts = s.hosts
  | .pwr => t.pwr = s.pwr
  | .flt => t.flt = s.flt
  | .boot => t.boot = s.boot
  | .sbd => t.sbd = s.sbd
  | .out => t.out = s.out

/-- The frame of a command: every area but those listed is as it was. -/
def Within (A : List Area) (s t : State) : Prop := ∀ a, a ∉ A → a.same s t

/-- The areas of the state that a command may change; every other area stands as it stood, whatever the command meets. -/
def touches (c : Instr) : List Area :=
  match c with
  | .registerWrite .. => [.crs, .insts, .nid, .parts, .tenants, .pttStatus, .streams, .reqs, .serialNo, .ports, .xpt, .msh, .til, .dram, .dir, .eng, .arr, .sec, .hosts, .pwr, .flt, .boot, .sbd, .out]
  | .registerPairWrite .. => [.crs, .insts, .nid, .parts, .pttStatus, .streams, .reqs, .serialNo, .ports, .xpt, .msh, .til, .dram, .dir, .eng, .arr, .sec, .hosts, .pwr, .flt, .boot, .sbd, .out]
  | .registerPairLowRead .. => [.dir, .hosts, .out]
  | .shadowWrite .. => [.crs, .insts, .nid, .parts, .pttStatus, .streams, .reqs, .serialNo, .ports, .xpt, .msh, .til, .dram, .dir, .eng, .arr, .sec, .hosts, .pwr, .flt, .boot, .sbd, .out]
  | .genctlCommit .. => [.crs, .insts, .nid, .parts, .pttStatus, .streams, .reqs, .serialNo, .ports, .xpt, .msh, .til, .dram, .dir, .eng, .arr, .sec, .hosts, .pwr, .flt, .boot, .sbd, .out]
  | .coursePacketSend .. => [.clk, .out]
  | .courseClockLoss .. => [.nid, .tenants, .ports, .flt, .sbd, .out]
  | .courseBoundary .. => [.clk, .crs, .insts, .nid, .parts, .tenants, .streams, .reqs, .serialNo, .ports, .xpt, .til, .dram, .dir, .eng, .arr, .hosts, .pwr, .flt, .sbd, .out]
  | .genRelease .. => [.clk, .crs, .insts, .nid, .parts, .tenants, .streams, .reqs, .serialNo, .ports, .xpt, .til, .dram, .dir, .eng, .arr, .hosts, .pwr, .flt, .sbd, .out]
  | .genReleaseByAge .. => [.clk, .crs, .insts, .nid, .parts, .tenants, .streams, .reqs, .serialNo, .ports, .xpt, .til, .dram, .dir, .eng, .arr, .hosts, .pwr, .flt, .sbd, .out]
  | .genFlip .. => [.clk, .crs, .insts, .nid, .parts, .tenants, .streams, .reqs, .serialNo, .ports, .xpt, .til, .dram, .dir, .eng, .arr, .hosts, .pwr, .flt, .sbd, .out]
  | .genStalePost .. => [.crs, .hosts, .sbd, .out]
  | .courseSlip .. => [.crs, .serialNo, .hosts, .sbd, .out]
  | .slipClr .. => [.crs, .insts, .nid, .parts, .pttStatus, .streams, .reqs, .serialNo, .ports, .xpt, .msh, .til, .dram, .dir, .eng, .arr, .sec, .hosts, .pwr, .flt, .boot, .sbd, .out]
  | .tenantCreate .. => [.tenants, .serialNo, .hosts, .out]
  | .tenantKeyReady .. => [.insts, .tenants, .serialNo, .sec, .hosts, .out]
  | .tenantDestroy .. => [.tenants, .serialNo, .eng, .hosts, .out]
  | .tenantWithdraw .. => [.insts, .nid, .parts, .tenants, .streams, .reqs, .serialNo, .ports, .xpt, .til, .dram, .dir, .eng, .arr, .hosts, .flt, .sbd, .out]
  | .tenantKeyZeroise .. => [.tenants]
  | .tenantFree .. => [.insts, .nid, .parts, .tenants, .serialNo, .til, .dram, .hosts, .flt, .sbd, .out]
  | .tenantQuery .. => [.serialNo, .hosts, .out]
  | .streamOpen .. => [.insts, .streams, .serialNo, .hosts, .out]
  | .streamModify .. => [.insts, .streams, .serialNo, .hosts, .out]
  | .streamClose .. => [.insts, .streams, .serialNo, .hosts, .out]
  | .streamIdFree .. => [.streams]
  | .streamWindowRamp .. => [.streams]
  | .streamTimeout .. => [.streams, .reqs, .ports, .xpt, .dram, .dir]
  | .partReset .. => [.parts, .tenants, .serialNo, .eng, .hosts, .out]
  | .partitionResetWithdraw .. => [.insts, .nid, .parts, .tenants, .streams, .reqs, .serialNo, .ports, .xpt, .til, .dram, .dir, .eng, .arr, .hosts, .flt, .sbd, .out]
  | .partitionResetComplete .. => [.parts, .hosts, .out]
  | .partQuery .. => [.serialNo, .hosts, .out]
  | .vfFlr .. => [.insts, .nid, .parts, .serialNo, .ports, .xpt, .til, .dram, .dir, .eng, .arr, .hosts, .flt, .sbd, .out]
  | .porNRise .. => [.nid, .serialNo, .ports, .sbd, .out]
  | .porNFall .. => [.clk, .crs, .insts, .nid, .cfg, .parts, .tenants, .pttStatus, .streams, .reqs, .serialNo, .ports, .xpt, .msh, .til, .dram, .dir, .eng, .arr, .sec, .hosts, .pwr, .flt, .boot, .sbd]
  | .pwrgoodFall .. => [.nid, .tenants, .ports, .flt, .sbd, .out]
  | .railOrderFault .. => [.sbd]
  | .vddAuxRemoval .. => [.clk, .crs, .insts, .nid, .cfg, .parts, .tenants, .pttStatus, .streams, .reqs, .serialNo, .ports, .xpt, .msh, .til, .dram, .dir, .eng, .arr, .sec, .hosts, .pwr, .flt, .boot, .sbd]
  | .perstNAssert .. => [.parts, .tenants, .dir, .eng, .hosts]
  | .perstNDeassert .. => [.hosts]
  | .thermtrip .. => [.nid, .tenants, .ports, .flt, .sbd, .out]
  | .prochotAssert .. => [.sbd]
  | .prochotRelease .. => [.sbd]
  | .refclkLost .. => [.ports]
  | .refclkReturn .. => [.ports]
  | .hostNotifySend .. => [.hosts, .flt, .sbd, .out]
  | .hostNotifyRetry .. => [.hosts, .flt, .sbd, .out]
  | .smbAlertResponse .. => [.sbd, .out]
  | .smbSclTimeout .. => []
  | .pinGuardEnd .. => [.sbd]
  | .tachWindow .. => [.sbd]
  | .ledPeriod .. => [.sbd]
  | .clockLock .. => [.clk]
  | .otpRead .. => [.nid, .tenants, .ports, .flt, .boot, .sbd, .out]
  | .flashDiscovery .. => [.boot, .sbd]
  | .slotChoice .. => [.boot]
  | .processorStart .. => [.nid, .flt]
  | .settingsRead .. => [.nid, .dram, .sec, .boot, .sbd]
  | .eccSelftest .. => [.nid, .tenants, .ports, .dram, .flt, .boot, .sbd, .out]
  | .meshSelftest .. => [.nid, .tenants, .ports, .msh, .flt, .boot, .sbd, .out]
  | .calibrationApply .. => [.nid, .boot, .sbd]
  | .partitionLoad .. => [.nid, .cfg, .parts, .ports, .arr, .pwr, .sbd]
  | .tablesLoad .. => [.insts, .nid, .streams, .boot, .sbd]
  | .hbmTraining .. => [.serialNo, .dram, .boot]
  | .ddrTraining .. => [.serialNo, .dram, .boot]
  | .portsOpen .. => [.ports, .boot]
  | .sedgeDesignLoad .. => [.ports, .xpt, .til, .dram, .dir, .eng, .arr, .boot]
  | .enterService .. => [.nid, .streams, .serialNo, .ports, .xpt, .til, .sec, .hosts, .flt, .boot, .sbd, .out]
  | .healthCheckPass .. => [.boot]
  | .settingsWrite .. => [.serialNo, .sec, .boot]
  | .configRetryEnd .. => [.hosts]
  | .trainingAdmit .. => [.clk, .streams, .reqs, .ports, .xpt, .eng, .hosts, .flt, .sbd, .out]
  | .attemptSuccess .. => [.streams, .reqs, .ports, .hosts, .flt, .sbd, .out]
  | .attemptFail .. => [.streams, .reqs, .ports, .xpt, .eng, .hosts, .flt, .sbd, .out]
  | .attemptTimeout .. => [.streams, .reqs, .ports, .xpt, .eng, .hosts, .flt, .sbd, .out]
  | .failedRetry .. => [.ports]
  | .lnkRetrain .. => [.streams, .reqs, .ports, .xpt, .eng, .hosts, .flt, .sbd, .out]
  | .lnkEnable .. => [.ports, .hosts]
  | .lnkDisable .. => [.streams, .reqs, .ports, .xpt, .eng, .hosts, .flt, .sbd, .out]
  | .params .. => [.streams, .reqs, .serialNo, .ports, .xpt, .eng, .sec, .hosts, .flt, .sbd, .out]
  | .paramsAck .. => [.streams, .reqs, .serialNo, .ports, .xpt, .eng, .sec, .hosts, .flt, .sbd, .out]
  | .paramsResend .. => [.ports, .out]
  | .retrainReq .. => [.streams, .reqs, .ports, .xpt, .eng, .hosts, .flt, .sbd, .out]
  | .data .. => [.streams, .reqs, .ports, .xpt, .eng, .hosts, .flt, .sbd, .out]
  | .leanFrameReceive .. => [.streams, .reqs, .ports, .xpt, .eng, .hosts, .flt, .sbd, .out]
  | .idle .. => [.streams, .reqs, .ports, .xpt, .eng, .hosts, .flt, .sbd, .out]
  | .replayReq .. => [.streams, .reqs, .ports, .xpt, .eng, .hosts, .flt, .sbd, .out]
  | .frameSend .. => [.reqs, .ports, .xpt, .eng, .out]
  | .idleSend .. => [.ports, .out]
  | .replayTimer .. => [.streams, .reqs, .ports, .xpt, .eng, .hosts, .flt, .sbd, .out]
  | .replayResend .. => [.ports, .out]
  | .laneLockLoss .. => [.streams, .reqs, .ports, .xpt, .eng, .hosts, .flt, .sbd, .out]
  | .rdShared .. => [.streams, .reqs, .serialNo, .ports, .xpt, .dram, .dir]
  | .rdUnique .. => [.streams, .reqs, .serialNo, .ports, .xpt, .dram, .dir]
  | .rdOnce .. => [.streams, .reqs, .serialNo, .ports, .xpt, .dram, .dir]
  | .wrFull .. => [.streams, .reqs, .serialNo, .ports, .xpt, .dram, .dir]
  | .wrStash .. => [.streams, .reqs, .serialNo, .ports, .xpt, .dram, .dir]
  | .wbDirty .. => [.streams, .reqs, .serialNo, .ports, .xpt, .dram, .dir]
  | .evictClean .. => [.streams, .reqs, .serialNo, .ports, .xpt, .dram, .dir]
  | .atOp .. => [.streams, .reqs, .serialNo, .ports, .xpt, .dram, .dir]
  | .mcastRead .. => [.streams, .reqs, .serialNo, .ports, .xpt, .dram, .dir]
  | .mcastReadComplete .. => [.streams, .reqs, .ports]
  | .reqReserved .. => [.streams, .reqs, .serialNo, .ports, .xpt, .dram, .dir]
  | .forward .. => [.streams, .reqs, .serialNo, .ports, .xpt, .dram, .dir]
  | .datWrite .. => [.streams, .reqs, .ports, .xpt, .dram, .dir]
  | .mcastData .. => [.streams, .reqs, .serialNo, .ports, .xpt, .dram, .dir, .eng]
  | .snpAckInv .. => [.streams, .reqs, .ports, .xpt, .dram, .dir]
  | .snpAckShared .. => [.streams, .reqs, .ports, .xpt, .dram, .dir]
  | .stashAccept .. => [.streams, .reqs, .ports, .xpt, .dram, .dir]
  | .stashDecline .. => [.streams, .reqs, .ports, .xpt, .dram, .dir]
  | .compAck .. => [.streams, .reqs, .ports, .xpt, .dram, .dir]
  | .datSnpS .. => [.streams, .reqs, .ports, .xpt, .dram, .dir]
  | .datSnpI .. => [.streams, .reqs, .ports, .xpt, .dram, .dir]
  | .claim .. => [.ports, .xpt, .hosts, .flt, .sbd, .out]
  | .announce .. => [.ports, .xpt, .hosts, .flt, .sbd, .out]
  | .join .. => [.insts, .ports, .xpt]
  | .assign .. => [.ports, .xpt]
  | .routePub .. => [.insts, .ports]
  | .claimWindowExpire .. => [.ports, .xpt, .hosts, .flt, .sbd, .out]
  | .meshPacketArrive .. => [.nid, .tenants, .serialNo, .ports, .msh, .flt, .sbd, .out]
  | .meshInject .. => [.serialNo, .msh, .out]
  | .meshMulticast .. => [.msh, .out]
  | .tileMap .. => [.insts, .parts, .serialNo, .til, .dram, .hosts, .out]
  | .tileUnmap .. => [.insts, .serialNo, .til, .hosts, .out]
  | .tileProtect .. => [.insts, .serialNo, .til, .hosts, .out]
  | .tileGrant .. => [.insts, .serialNo, .til, .hosts, .out]
  | .tileRevoke .. => [.insts, .serialNo, .til, .hosts, .out]
  | .tileMigrate .. => [.insts, .nid, .parts, .serialNo, .til, .dram, .hosts, .flt, .sbd, .out]
  | .tileReturn .. => [.insts, .nid, .parts, .serialNo, .til, .dram, .hosts, .flt, .sbd, .out]
  | .migrationPassDone .. => [.insts, .nid, .serialNo, .til, .dram, .hosts, .flt, .sbd, .out]
  | .migrationFinalPass .. => [.streams, .reqs, .ports, .xpt, .til, .dram, .dir]
  | .migrationBlockCopied .. => [.nid, .serialNo, .til, .dram, .hosts, .flt, .sbd, .out]
  | .migrationRelease .. => [.insts, .nid, .parts, .serialNo, .til, .dram, .eng, .hosts, .flt, .sbd, .out]
  | .dramReadComplete .. => [.insts, .nid, .parts, .streams, .reqs, .serialNo, .ports, .xpt, .til, .dram, .dir, .eng, .hosts, .flt, .sbd, .out]
  | .dramWriteComplete .. => [.insts, .nid, .parts, .streams, .reqs, .serialNo, .ports, .xpt, .til, .dram, .dir, .eng, .hosts, .flt, .sbd, .out]
  | .refreshDue .. => [.dram]
  | .refreshDebtExpire .. => [.dram]
  | .rankPowerDown .. => [.dram]
  | .rankWake .. => [.dram]
  | .tierSleep .. => [.dram, .hosts]
  | .tierWake .. => [.dram, .hosts]
  | .tierWakeDone .. => [.insts, .nid, .parts, .serialNo, .til, .dram, .hosts, .flt, .sbd, .out]
  | .rateApply .. => [.dram, .hosts]
  | .rateApplyDone .. => [.insts, .nid, .parts, .serialNo, .til, .dram, .hosts, .flt, .sbd, .out]
  | .ceWindowStart .. => [.dram]
  | .chSuspectClear .. => [.dram, .hosts]
  | .agentRelease .. => [.serialNo, .til, .dram, .dir, .hosts, .flt, .sbd, .out]
  | .agentSweepDone .. => [.til, .dram, .dir, .hosts, .flt, .sbd, .out]
  | .snoopTimeout .. => [.streams, .reqs, .ports, .xpt, .til, .dram, .dir, .hosts, .flt, .sbd, .out]
  | .tileRecall .. => [.streams, .reqs, .ports, .xpt, .dram, .dir]
  | .dirLkEntryRead .. => [.dir, .hosts, .out]
  | .queueCreate .. => [.serialNo, .msh, .eng, .hosts, .out]
  | .queueDestroy .. => [.insts, .nid, .parts, .serialNo, .ports, .xpt, .til, .dram, .dir, .eng, .arr, .hosts, .flt, .sbd, .out]
  | .queueQuery .. => [.serialNo, .hosts, .out]
  | .sqDoorbell .. => [.crs, .insts, .nid, .parts, .pttStatus, .streams, .reqs, .serialNo, .ports, .xpt, .msh, .til, .dram, .dir, .eng, .arr, .sec, .hosts, .pwr, .flt, .boot, .sbd, .out]
  | .cqHeadWrite .. => [.crs, .insts, .nid, .parts, .pttStatus, .streams, .reqs, .serialNo, .ports, .xpt, .msh, .til, .dram, .dir, .eng, .arr, .sec, .hosts, .pwr, .flt, .boot, .sbd, .out]
  | .qAbort .. => [.crs, .insts, .nid, .parts, .pttStatus, .streams, .reqs, .serialNo, .ports, .xpt, .msh, .til, .dram, .dir, .eng, .arr, .sec, .hosts, .pwr, .flt, .boot, .sbd, .out]
  | .descriptorFetch .. => [.ports, .xpt, .til, .dram, .dir, .eng, .hosts, .flt, .sbd, .out]
  | .copy .. => [.serialNo, .ports, .xpt, .til, .dram, .dir, .eng]
  | .fill .. => [.serialNo, .ports, .xpt, .til, .dram, .dir, .eng]
  | .gather .. => [.serialNo, .ports, .xpt, .til, .dram, .dir, .eng]
  | .scatter .. => [.serialNo, .ports, .xpt, .til, .dram, .dir, .eng]
  | .mcastPush .. => [.reqs, .ports, .xpt, .til, .dram, .dir, .eng]
  | .migrate .. => [.insts, .nid, .parts, .serialNo, .til, .dram, .eng, .hosts, .flt, .sbd, .out]
  | .scrub .. => [.insts, .nid, .parts, .serialNo, .ports, .xpt, .til, .dram, .dir, .eng, .hosts, .flt, .sbd, .out]
  | .voxelSample .. => [.serialNo, .ports, .xpt, .til, .dram, .dir, .eng]
  | .rulebookBuild .. => [.serialNo, .ports, .xpt, .til, .dram, .dir, .eng]
  | .siteLookup .. => [.serialNo, .ports, .xpt, .til, .dram, .dir, .eng]
  | .launch .. => [.serialNo, .eng]
  | .loadFrames .. => [.serialNo, .eng]
  | .readback .. => [.ports, .xpt, .til, .dram, .dir, .eng]
  | .stop .. => [.eng, .arr]
  | .commandFinish .. => [.eng]
  | .completionCommit .. => [.ports, .xpt, .til, .dram, .dir, .eng, .hosts, .flt, .sbd, .out]
  | .queueStopped .. => [.eng, .hosts, .out]
  | .launchStart .. => [.serialNo, .ports, .xpt, .til, .dram, .dir, .eng, .arr]
  | .computeUnitFire .. => [.serialNo, .arr]
  | .steeringUnitFire .. => [.serialNo, .arr]
  | .scalarUnitFire .. => [.serialNo, .arr]
  | .memoryUnitAccess .. => [.serialNo, .ports, .xpt, .til, .dram, .dir, .arr]
  | .launchDone .. => [.eng, .arr]
  | .launchCommit .. => [.eng, .arr]
  | .launchTimeout .. => [.arr]
  | .arrayStall .. => [.arr]
  | .arrayQuery .. => [.serialNo, .hosts, .out]
  | .loadStart .. => [.arr]
  | .select .. => [.ports, .xpt, .til, .dram, .dir, .eng, .arr]
  | .claimDirective .. => [.ports, .xpt, .til, .dram, .dir, .eng, .arr]
  | .frames .. => [.ports, .xpt, .til, .dram, .dir, .eng, .arr]
  | .maps .. => [.ports, .xpt, .til, .dram, .dir, .eng, .arr]
  | .clear .. => [.ports, .xpt, .til, .dram, .dir, .eng, .arr]
  | .pad .. => [.ports, .xpt, .til, .dram, .dir, .eng, .arr]
  | .endStream .. => [.ports, .xpt, .til, .dram, .dir, .eng, .arr]
  | .readbackCheck .. => [.serialNo, .arr, .hosts, .flt, .sbd, .out]
  | .readbackEnable .. => [.crs, .insts, .nid, .parts, .pttStatus, .streams, .reqs, .serialNo, .ports, .xpt, .msh, .til, .dram, .dir, .eng, .arr, .sec, .hosts, .pwr, .flt, .boot, .sbd, .out]
  | .trngTestFail .. => [.streams, .reqs, .ports, .xpt, .eng, .sec, .hosts, .flt, .sbd, .out]
  | .drbgReseed .. => [.sec]
  | .tamper .. => [.nid, .tenants, .ports, .sec, .flt, .sbd, .out]
  | .getVersion .. => [.sec, .out]
  | .getCapabilities .. => [.sec, .out]
  | .negotiateAlgorithms .. => [.sec, .out]
  | .getDigests .. => [.sec, .out]
  | .getCertificate .. => [.sec, .out]
  | .challenge .. => [.serialNo, .sec, .out]
  | .getMeasurements .. => [.serialNo, .sec, .out]
  | .spdmUnsupportedRequest .. => [.sec, .out]
  | .hello .. => [.streams, .reqs, .ports, .xpt, .eng, .sec, .hosts, .flt, .sbd, .out]
  | .hsCert .. => [.streams, .reqs, .ports, .xpt, .eng, .sec, .hosts, .flt, .sbd, .out]
  | .verify .. => [.streams, .reqs, .ports, .xpt, .eng, .sec, .hosts, .flt, .sbd, .out]
  | .finish .. => [.streams, .reqs, .ports, .xpt, .eng, .sec, .hosts, .flt, .sbd, .out]
  | .hsAbort .. => [.streams, .reqs, .ports, .xpt, .eng, .sec, .hosts, .flt, .sbd, .out]
  | .attestReq .. => [.ports]
  | .hsSignatureDone .. => [.ports, .out]
  | .hsResend .. => [.ports, .out]
  | .hsTimeout .. => [.streams, .reqs, .ports, .xpt, .eng, .sec, .hosts, .flt, .sbd, .out]
  | .linkPin .. => [.serialNo, .sec, .hosts, .boot, .out]
  | .mbxUnknownOpcode .. => [.serialNo, .hosts, .out]
  | .imageWrite .. => [.serialNo, .hosts, .boot, .out]
  | .telemetryRead .. => [.serialNo, .hosts, .out]
  | .faultLogRead .. => [.serialNo, .hosts, .out]
  | .evRingEnable .. => [.crs, .insts, .nid, .parts, .pttStatus, .streams, .reqs, .serialNo, .ports, .xpt, .msh, .til, .dram, .dir, .eng, .arr, .sec, .hosts, .pwr, .flt, .boot, .sbd, .out]
  | .evRingDisable .. => [.crs, .insts, .nid, .parts, .pttStatus, .streams, .reqs, .serialNo, .ports, .xpt, .msh, .til, .dram, .dir, .eng, .arr, .sec, .hosts, .pwr, .flt, .boot, .sbd, .out]
  | .evHeadWrite .. => [.crs, .insts, .nid, .parts, .pttStatus, .streams, .reqs, .serialNo, .ports, .xpt, .msh, .til, .dram, .dir, .eng, .arr, .sec, .hosts, .pwr, .flt, .boot, .sbd, .out]
  | .pfFlr .. => [.insts, .nid, .parts, .serialNo, .ports, .xpt, .til, .dram, .dir, .eng, .arr, .hosts, .flt, .sbd, .out]
  | .vfEnableClear .. => [.insts, .nid, .parts, .serialNo, .ports, .xpt, .til, .dram, .dir, .eng, .arr, .hosts, .flt, .sbd, .out]
  | .pwrCapWrite .. => [.crs, .insts, .nid, .parts, .pttStatus, .streams, .reqs, .serialNo, .ports, .xpt, .msh, .til, .dram, .dir, .eng, .arr, .sec, .hosts, .pwr, .flt, .boot, .sbd, .out]
  | .powerTokenAllocation .. => [.pwr]
  | .thermalStep .. => [.hosts, .pwr, .sbd, .out]
  | .telemetryRefresh .. => [.pwr]
  | .smbState .. => [.out]
  | .smbTemp .. => [.out]
  | .smbPower .. => [.out]
  | .smbBmcCapRead .. => [.out]
  | .smbBmcCapWrite .. => [.pwr, .out]
  | .smbEvent .. => [.sbd, .out]
  | .smbSerial .. => [.out]
  | .smbFwVersion .. => [.out]
  | .smbUnknownCode .. => [.out]
  | .monitorVer .. => [.out]
  | .monitorState .. => [.out]
  | .monitorRd .. => [.dir, .hosts, .out]
  | .monitorLog .. => [.out]
  | .monitorTel .. => [.out]
  | .monitorLinks .. => [.out]
  | .monitorHelp .. => [.out]
  | .monitorBadLine .. => [.out]
  | .sramUncorrectable .. => [.insts, .parts, .tenants, .streams, .reqs, .serialNo, .ports, .xpt, .til, .dram, .dir, .eng, .hosts, .flt, .boot, .sbd, .out]
  | .watchdogExpire .. => [.tenants, .serialNo, .hosts, .flt, .boot, .sbd, .out]
  | .processorRestartDone .. => [.crs, .serialNo, .hosts, .flt, .sbd, .out]
  | .tachEdge .. => [.sbd]
  | .symbolLock .. => [.ports]
  | .reservedOpcodeDiscard .. => [.ports, .xpt]
  | .imageWriteDone .. => [.serialNo, .hosts, .boot, .out]
  | .doeDiscovery .. => [.out]

/-- The MRP has nothing of its own to do: no bog records, no tracker that waits (R205, R218, R232). -/
def mrpIdle (s : State) : Prop := s.til.bogs = [] ∧ ∀ k < 16, (s.mig k).state = 1 → (s.mig k).waiting = false ∧ (s.mig k).parked = false

/-- Pool memory is in its canonical form. -/
def memOk (s : State) : Prop := Memory.wf s.dram.mem = true

/-! ## What completion statements say -/

/-- A command completes: it answers a next state, of which `P` holds, and changes nothing outside the areas `A`. -/
def Runs (c : Instr) (s : State) (A : List Area) (P : State → Prop) : Prop := ∃ t, exec c s = .next t ∧ Within A s t ∧ P t

/-- The physical function of the administrator reaches the node's registers (R26, R117, R126, R367). -/
abbrev adminBus (s : State) (fn : Fn) : Prop := hostUp s fn = true ∧ s.takesHost = true ∧ s.isAdmin fn = true

/-- A mailbox takes a command of a given length now: its port is up, the node takes host commands, none is in progress (R373 to R375). -/
abbrev mbxTakes (s : State) (fn : Fn) (m : MbxHdr) (n : Nat) : Prop :=
  hostUp s fn = true ∧ fn.vf = 0 ∧ s.takesHost = true ∧ (s.host fn.port).busy = false ∧ m.length.toNat = n

/-- The same, and the node serves: READY or DEGRADED, as most commands need (R375). -/
abbrev mbxReady (s : State) (fn : Fn) (m : MbxHdr) (n : Nat) : Prop := mbxTakes s fn m n ∧ s.nid.state.serving = true

/-- The other ports' mailboxes and rings stand as they stood. -/
abbrev otherHosts (s t : State) (port : Fin 4) : Prop := ∀ p : Nat, p ≠ port.val → t.host p = s.host p

/-- The answer buffer of the port an answer is owed to holds it, DONE is set and BUSY clear (R374, Table 17.4). -/
abbrev answeredFor (t : State) (o : Owed) (st : Status) (fields : List Byte) : Prop :=
  (t.host o.port).done = true ∧ (t.host o.port).busy = false ∧
  (t.host o.port).ans = leBytes 2 o.opcode.toNat ++ [BitVec.ofNat 8 st.code, 0] ++ leBytes 4 o.tag.toNat ++ leBytes 4 fields.length ++
    leBytes 4 0 ++ fields

/-- The command is answered at once: its answer stands in its port's buffer, and no other port's mailbox or ring has changed. -/
abbrev answered (s t : State) (fn : Fn) (op : Nat) (m : MbxHdr) (st : Status) (fields : List Byte) : Prop :=
  answeredFor t { port := fn.port, id := s.serialNo, opcode := BitVec.ofNat 16 op, tag := m.tag } st fields ∧ otherHosts s t fn.port

/-- What the node owes a command that it has taken and not yet answered. -/
def owedFor (s : State) (fn : Fn) (op : Nat) (m : MbxHdr) : Owed :=
  { port := fn.port, id := s.serialNo, opcode := BitVec.ofNat 16 op, tag := m.tag }

/-- A command is in progress in a port's mailbox: BUSY is set, DONE clear, its answer is owed under its number, and no other port's
mailbox or ring has changed (R374). -/
abbrev inProgress (s t : State) (fn : Fn) : Prop :=
  (t.host fn.port).busy = true ∧ (t.host fn.port).done = false ∧ (t.host fn.port).cur = some s.serialNo ∧ otherHosts s t fn.port

/-! ## Requests and messages of the fabric -/

/-- The next number is no request's, and no two requests share one. -/
abbrev reqsFresh (s : State) : Prop := (∀ r ∈ s.reqs, r.id < s.serialNo) ∧ (s.reqs.map OReq.id).Nodup

/-- A REQ for the node passes every check of Table 7.4, is no repeat, and finds its tile's entry `e` (R160, R166, R199). -/
abbrev reqPasses (s : State) (p : Fin 32) (m : Msg) (e : TileEnt) : Prop :=
  s.alive = true ∧ reqsFresh s ∧ delivers s p.val = true ∧ isLocal s m = true ∧ s.bound m.src.toNat p.val = true ∧
  checks2to5 s m = none ∧
  (msgNonIdem m = true → (∀ x ∈ (s.stream m.stream.toNat).record, x.rseq ≠ m.rseq) ∧
    newRseq (s.stream m.stream.toNat).record m.rseq = true) ∧
  (m.opcode = 9 → s.mcValid m.group.toNat = true) ∧ check7 m = none ∧
  translate s m.tenant.toNat m.addr.toNat (msgWriteClass m) = .ok e

/-- No earlier request of the message's stream has still to start, and no earlier write of it to a common byte to take effect (R165). -/
def inTurn (s : State) (m : Msg) : Bool :=
  !s.reqs.any fun x => !x.silent && decide (x.msg.stream = m.stream) &&
    (decide (x.phase = .data ∨ x.phase = .order) || (isWrite x.msg && isWrite m && decide (x.phase ≠ .answered) && sameBytes x.msg m))

/-- The physical line a passed REQ names. -/
def reqFirstLine (m : Msg) (e : TileEnt) : Nat := e.phys * 16384 + lineIdx m.addr.toNat

/-- One read of a request's line has joined its controller's queue. -/
abbrev readQueued (s v : State) (t : Tier) (line keyT id : Nat) : Prop :=
  ∃ o, v.dram.queue = s.dram.queue ++ [o] ∧ o.write = false ∧ o.tier = t ∧ o.line = line ∧ o.keyT = keyT ∧ o.cont = .req id

/-- One request more has been accepted, under the next number. -/
abbrev accepted (s v : State) (p : Fin 32) (m : Msg) (ph : ReqPhase) : Prop :=
  ∃ r, v.reqs = s.reqs ++ [r] ∧ r.id = s.serialNo ∧ r.port = p ∧ r.msg = m ∧ r.phase = ph ∧
    r.expiry = if s.strTimeout m.stream.toNat = 0 then none else some (s.clk.now + s.strTimeout m.stream.toNat)

/-- A message for the node arrives from a bound endpoint at a port that delivers (R160, R161). -/
abbrev comesIn (s : State) (p : Fin 32) (m : Msg) : Prop :=
  s.alive = true ∧ delivers s p.val = true ∧ s.bound m.src.toNat p.val = true ∧ isLocal s m = true

/-- A message of the coordinator election arrives: its port is UP and the FMP runs (R140, R173). -/
abbrev lmcReady (s : State) (p : Fin 32) : Prop := s.alive = true ∧ (s.port p.val).state = .up ∧ procRuns s .fmp = true

/-- One item more waits at a port. -/
abbrev sent (s u : State) (n : Nat) (it : TxItem) : Prop := (u.port n).txq = (s.port n).txq ++ [it]

/-! ## Links -/

/-- The acknowledgement of a frame names a frame that is held, or repeats the last one (R144). -/
abbrev goodAck (p : Port) (h : FrameHdr) : Prop :=
  h.ackValid = true → (h.ack - p.txOldest).toNat < p.held.length ∨ h.ack = p.txOldest - 1

/-- The frames still held after a good acknowledgement (R144). -/
def heldAfter (p : Port) (h : FrameHdr) : List Held :=
  if h.ackValid = true ∧ (h.ack - p.txOldest).toNat < p.held.length then p.held.drop ((h.ack - p.txOldest).toNat + 1) else p.held

/-- A frame arrives whole on a port that is UP in Sure mode (R142, R143). -/
abbrev frameGood (s : State) (n : Fin 32) (f : Frame) : Prop :=
  s.alive = true ∧ sureUp s n = true ∧ crcOk f = true ∧ malformed f.hdr = false

/-- The port has left UP for RETRAIN with a cause, counted, and waits to train again (R150, R151). -/
abbrev leftUp (s u : State) (n : Fin 32) (cause : Byte) : Prop :=
  (u.port n).state = .retrain ∧ (u.port n).cause = cause ∧ (u.port n).downs = sat16 (s.port n).downs ∧ bit (u.port n).ev 1 = true ∧
  (u.port n).waiting = some (ageNow s)

/-- An IDLE frame of a port, which the node may send between other frames (R130). -/
def isIdle (n : Fin 32) : Out → Bool
  | .frame p g => decide (p = n ∧ g.hdr.ftype = 2)
  | _ => false

/-- A frame has left by a port, where R130 asks for it behind an IDLE frame. -/
abbrev framedOut (s u : State) (n : Fin 32) (f : Frame) : Prop := 
  ∃ l, u.out = .frame n f :: (l ++ s.out) ∧ l.all (isIdle n) = true

/-! ## Engines -/

/-- A function reaches a queue's register (R290). -/
abbrev queueSeen (s : State) (fn : Fn) (q : QId) (r : Nat) : Prop :=
  hostUp s fn = true ∧ s.takesHost = true ∧
  ∃ off, queueOff s fn q r = some off ∧ off % 4 = 0 ∧ mayWrite s fn off = true ∧ queueAt s fn off = some (q, r)

/-- The physical line of an address in a tile. -/
def lineAt (e : TileEnt) (va : Nat) : Nat := e.phys * 16384 + lineIdx va

/-- An engine may touch the line at once: it is not coherent, nothing is queued for it, no gate holds it, its tier is awake, its scheduler has
a token, and neither poison nor a wrong word that passed as valid stands in it. -/
abbrev lineFree (s : State) (e : TileEnt) (va : Nat) : Prop :=
  e.coherent = false ∧ gateOf s e.tier (lineAt e va) = none ∧ lineBusy s e.tier (lineAt e va) = false ∧
  (s.tier e.tier).asleep = false ∧ (s.tier e.tier).waking = false ∧ (e.tier = .bulk → s.dram.bulk.moving = none) ∧
  s.poisoned e.tier (lineAt e va) = false ∧ dramToken s e.tier (lineAt e va) = true ∧
  ∀ x ∈ s.dram.passed, x.1 ≠ lineKey e.tier (lineAt e va)

/-- The schedulers have tokens for these accesses, one after the other (R384). -/
def accessTokens (s : State) : List (TileEnt × Nat) → Bool
  | [] => true
  | (e, va) :: r => dramToken s e.tier (lineAt e va) && accessTokens (dramSpend e.tier (lineAt e va) s) r

/-- The bytes at an address of a tile within one line, as the key's tenant reads them. -/
def bytesAt (s : State) (e : TileEnt) (va n : Nat) : List Byte := ((s.plain e.keyT e.tier (lineAt e va)).toList.drop (va % 128)).take n

/-- Every stored byte outside one line is as it was. -/
abbrev onlyLine (s u : State) (e : TileEnt) (va : Nat) : Prop :=
  ∀ a, a < lineKey e.tier (lineAt e va) * 128 ∨ lineKey e.tier (lineAt e va) * 128 + 128 ≤ a → cellGet 0 u.dram.mem a = cellGet 0 s.dram.mem a

/-- A row finds its command: under way and not ended, or fetched, free to start, and passed by its checks (R276, R278, R283). -/
abbrev takesUp (s : State) (q : QId) (idx : BitVec 16) (c : Cmd) (op : Nat) (check : Option Status) : Prop :=
  s.alive = true ∧ findCmd s q idx = some c ∧ c.desc.opcode = op ∧
  ((c.phase = .running ∧ c.ended = false) ∨
    (mayStart s q c = true ∧ opForQueue q (s.queue (qNum q)) c.desc = true ∧ check = none))

/-- The state in which a command that a row takes up is running: its queue has taken its turn. -/
def tookUp (s : State) (q : QId) (c : Cmd) : State :=
  if c.phase = .running then s else putCmd q { c with phase := .running } (takeTurn q c s)

/-- A voxel command that begins has cleared its scratch region line by line, with bytes that are free values (R300). -/
abbrev scratchCleared (s : State) (q : QId) (c : Cmd) (t : State) (c' : Cmd) : Prop :=
  ∃ k x, writeSome q 2 (2 ^ voxLog c.desc) (voxBase c.desc) ((List.range (2 ^ voxLog c.desc)).map fun i => Config.scratchByte s.serialNo i) 0 c
      { s with serialNo := s.serialNo + 1 } = (k, .done, x, t) ∧ c' = leaveTiles { x with vox := { x.vox with cleared := k } }

/-- A command has ended with a status, its COUNT and its AUX; COMMAND_FINISH may take it. -/
abbrev endedWith (u : State) (q : QId) (idx : BitVec 16) (st : Status) (count : Nat) (aux : Word) : Prop :=
  ∃ c, findCmd u q idx = some c ∧ c.phase = .running ∧ c.ended = true ∧ c.status = st ∧ c.count = count ∧ c.aux = aux

/-- A launch has ended for a cause of Table 14.7. -/
abbrev launchEnded (u : State) (q : QId) (idx : BitVec 16) (e : Nat × Nat × Status) : Prop :=
  ∃ r, launchOf u q idx = some r ∧ r.ended = some e

/-- A unit of a column has fired: it has consumed these inputs and placed these entries (R309). -/
abbrev firedAs (s u : State) (col unit : Nat) (ins : List Nat) (outs : List (Nat × BitVec 1024)) : Prop :=
  ∃ r r', launchOn s col = some r ∧ launchOn u col = some r' ∧ r'.fired = true ∧
    r'.queues = (outs.foldl (fun r o => produce s unit o.1 o.2 r) (ins.foldl (fun r p => consume s unit p r) r)).queues

/-- The entry at the front of a unit's input. -/
def front (r : Launch) (unit port : Nat) : BitVec 1024 := (Tbl.get [] r.queues (inKey unit port)).headD 0

/-- A unit of a running column whose inputs all hold an entry and whose outputs all have room (R309). -/
abbrev unitFull (s : State) (col unit : Nat) (r : Launch) : Prop :=
  s.alive = true ∧ unitRuns s col = some r ∧ (∀ p < 16, Tbl.get [] r.queues (inKey unit p) ≠ []) ∧ ∀ p < 8, outRoom s r unit p = true

/-- Element i of a vector, and its lane i. -/
def elemAt (e : Elem) (v : BitVec 1024) (i : Nat) : Nat := v.toNat / 2 ^ (elemBits e * i) % 2 ^ elemBits e
def laneAt (v : BitVec 1024) (i : Nat) : Nat := v.toNat / 2 ^ (32 * i) % 2 ^ 32

/-- A compute unit has fired and placed a vector on V, with these elements, and 1 on F. -/
abbrev firedVec (s u : State) (col unit : Nat) (ins : List Nat) (e : Elem) (f : Nat → Nat) : Prop :=
  ∃ v, firedAs s u col unit ins [(0, v), (2, 1)] ∧ ∀ i < 1024 / elemBits e, elemAt e v i = f i % 2 ^ elemBits e

/-- The same, its lanes named. -/
abbrev firedLanes (s u : State) (col unit : Nat) (ins : List Nat) (f : Nat → Nat) : Prop :=
  ∃ v, firedAs s u col unit ins [(0, v), (2, 1)] ∧ ∀ i < 32, laneAt v i = f i

/-! ## Security -/

/-- A host's SPDM request is answered by the SEP: its port is up, the node is neither in FATAL nor without an image, and the SEP runs. -/
abbrev spdmUp (s : State) (hp : Fin 4) : Prop :=
  hostUp s { port := hp } = true ∧ s.nid.state ≠ .fatal ∧ s.noImage = false ∧ sepRuns s = true

/-- An SPDM answer has left and is counted. -/
abbrev spdmSays (s u : State) (hp : Fin 4) (code : Byte) (bytes : List Byte) : Prop :=
  u.out = .spdm hp code bytes :: s.out ∧ u.sec.spdmAns = sat16 s.sec.spdmAns

/-- A handshake is under way at a port, whose reference clock is there, and the SEP runs. -/
abbrev handshaking (s : State) (p : Fin 32) : Prop :=
  s.alive = true ∧ bit (s.port p).ev 5 = false ∧ (s.port p).state ≠ .up ∧ (s.port p).hs.active = true ∧ sepRuns s = true

/-- Handshake messages have left in order, each in a frame of its own. -/
abbrev framesOut (s u : State) (p : Fin 32) (ms : List (List Byte)) : Prop :=
  ∃ (l : List Out) (fs : List Frame), u.out = l ++ s.out ∧ (l.filter fun o => !isIdle p o) = (fs.map (Out.frame p)).reverse ∧
    fs.map Frame.payload = ms.map fun m => padPayload (padFlits m)

/-- A handshake has failed: HS_ABORT has left, its secrets are gone, its cause stands in the port's register, and the attempt has failed
(causes 0x01, 0x02, 0x0B) or the walk has ended (R360). -/
abbrev hsFailed (s u : State) (p : Fin 32) (cause : Nat) : Prop :=
  (u.port p).hs = {} ∧ (u.secPort p).cause = BitVec.ofNat 8 cause ∧
  (∃ f l m, u.out = l ++ Out.frame p f :: (m ++ s.out) ∧ m.all (isIdle p) = true ∧ f.payload = padPayload (padFlits [0x24, BitVec.ofNat 8 cause])) ∧
  if (cause = 1 ∨ cause = 2 ∨ cause = 0x0B) ∧ (nextRung (s.port p).cfg (s.port p).pos).isSome = true
  then (u.port p).attempting = false ∧ (u.port p).waiting = some (ageNow s) ∧ (u.port p).state = (s.port p).state
  else (u.port p).state = .failed

/-! ## Faults -/

/-- The newest entry of the fault log is of this code and object (R401). -/
abbrev faultLogged (u : State) (code : Nat) (object : BitVec 16) : Prop := ∃ e l, u.flt.log = e :: l ∧ e.code = code ∧ e.object = object

end Sys2Proof.Machine
end

