-- ==== Sys2Proof/Certificates/Slice0/Obligations.lean ====
section
/-! DEFINITION. The statements for the provers: each a rule of the manual said of the model. -/

open Sys2Proof Sys2Proof.Machine

/-! ## The node as a whole -/

/-- The queue is first in, first out: a step is the meaning of the command at its front on the state with the queue's rest, and with
nothing waiting it is one idle core cycle (the model's choice, log entry 1). -/
def Obligations.StepRunsFrontCommand : Prop :=
  (∀ (c : Instr) (r : List Instr) (s : State), step { s with pending := c :: r } = exec c { s with pending := r }) ∧
  (∀ s : State, s.pending = [] → step s = .next (idleTick s))

/-- What no command touches: every area of the state outside `touches c`, and the queue. -/
def Obligations.CommandsStayInTheirAreas : Prop :=
  ∀ (c : Instr) (s t : State), exec c s = .next t → Within (touches c) s t ∧ t.pending = s.pending

/-- Every step keeps pool memory in its canonical form. -/
def Obligations.PoolMemoryFormIsKept : Prop := ∀ s t : State, memOk s → step s = .next t → memOk t

/-- In FATAL nothing moves until POR_N falls or the rails are removed: the state, the latched causes, the keys, the link and port
states, the tables, the engines, the array, the course and pool memory stay (R395, R396). Only a cause of the latching cycle itself joins
the causes latched; the lowest is FIRST (R396). -/
def Obligations.FatalHoldsUntilPorN : Prop :=
  (∀ (c : Instr) (s t : State), s.nid.state = .fatal → c ≠ .porNFall → c ≠ .vddAuxRemoval → exec c s = .next t →
    t.nid.state = .fatal ∧ t.flt.fatal = s.flt.fatal ∧ t.flt.course = s.flt.course ∧
    (s.latching = false → t.flt.first = s.flt.first ∧ t.flt.all = s.flt.all) ∧
    (∀ a ∈ [Area.clk, .insts, .tenants, .streams, .reqs, .ports, .til, .eng, .arr], a.same s t) ∧ t.dram.mem = s.dram.mem) ∧
  (∀ (c : ClockLoss) (s : State), s.latching = true →
    Runs (.courseClockLoss c) s [.flt] fun t =>
      t.flt.all = s.flt.all ||| 1 ∧ t.flt.first = min s.flt.first 1 ∧ t.flt.fatal = s.flt.fatal ∧ t.flt.log.length = s.flt.log.length)

/-- Reset: pool memory in its form, nothing waiting, BOOT, the course counter not running, every instance at generation 0 with nothing
committed or retired and both copies empty (R47), every tenant FREE and without a key, the fault log empty from sequence number 0 (R400),
every link IDLE with sequence numbers at 0. -/
def Obligations.ResetLeavesTheStatedValues : Prop :=
  memOk State.reset ∧ State.reset.pending = [] ∧ State.reset.nid.state = .boot ∧ State.reset.clk.locked = false ∧
  (∀ i : Nat, genctlWord State.reset i = 0 ∧ gendrainWord State.reset i = 0 ∧ (State.reset.inst i).shadow = [] ∧
    (State.reset.inst i).active = []) ∧
  (∀ k : Nat, (State.reset.tenant k).state = .free ∧ (State.reset.tenant k).key = none) ∧
  State.reset.flt.log = [] ∧ State.reset.flt.next = 0 ∧
  (∀ p : Nat, (State.reset.port p).state = .idle ∧ (State.reset.port p).txNext = 0 ∧ (State.reset.port p).rxNext = 0)

/-! ## Registers (R4 to R8) -/

/-- R4: a write of a wrong size or alignment is discarded and sets the ILLEGAL_WRITE flag of its block, a queue's own flag for a queue's
registers, and a read of a wrong size or alignment returns 0 with no side effect. -/
def Obligations.MisSizedAccessIsDiscarded : Prop :=
  (∀ (s : State) (fn : Fn) (w : RegWr) (k : Word), hostUp s fn = true → s.takesHost = true → mayWrite s fn w.off = true → fn.vf = 0 →
    (w.size ≠ 4 ∨ w.off % 4 ≠ 0) → queueAt s fn (w.off / 4 * 4) = none →
    exec (.registerWrite fn { toRegWr := w, sets := k }) s = .next (illegal fn.port (blkOf w.off) s)) ∧
  (∀ (s : State) (fn : Fn) (w : RegWr) (k : Word) (q : QId) (r : Nat), hostUp s fn = true → s.takesHost = true → mayWrite s fn w.off = true →
    (w.size ≠ 4 ∨ w.off % 4 ≠ 0) → queueAt s fn (w.off / 4 * 4) = some (q, r) →
    exec (.registerWrite fn { toRegWr := w, sets := k }) s = .next (s.setQueue (qNum q) { s.queue (qNum q) with illegal := true })) ∧
  (∀ (s : State) (fn : Fn) (off size : Nat), hostUp s fn = true → (size ≠ 4 ∨ off % 4 ≠ 0) →
    exec (.registerPairLowRead fn off size) s = .next (s.emit (.regRead fn off 0)))

/-- R8, R9, W1C: a bit written 1 is cleared, unless the hardware sets it in the cycle of the write (`k`); every other bit and everything
else stays, in the status register of each block. -/
def Obligations.StatusBitsClearByWritingOne : Prop :=
  ∀ (s : State) (fn : Fn) (v k : Word), adminBus s fn →
    let w := v &&& ~~~k
    exec (.registerWrite fn { off := 0x1000C, val := v, sets := k }) s = .next { s with crs := { s.crs with status := s.crs.status &&& ~~~(w &&& 7) } } ∧
    exec (.registerWrite fn { off := 0x20000, val := v, sets := k }) s = .next { s with pttStatus := s.pttStatus &&& ~~~(w &&& 1) } ∧
    exec (.registerWrite fn { off := 0x200000, val := v, sets := k }) s = .next { s with xpt := { s.xpt with status := s.xpt.status &&& ~~~(w &&& 15) } } ∧
    exec (.registerWrite fn { off := 0x300000, val := v, sets := k }) s = .next { s with msh := { s.msh with status := s.msh.status &&& ~~~(w &&& 15) } } ∧
    exec (.registerWrite fn { off := 0x400000, val := v, sets := k }) s = .next { s with til := { s.til with status := s.til.status &&& ~~~(w &&& 15) } } ∧
    exec (.registerWrite fn { off := 0x600000, val := v, sets := k }) s = .next { s with dir := { s.dir with status := s.dir.status &&& ~~~(w &&& 15) } } ∧
    exec (.registerWrite fn { off := 0x700000, val := v, sets := k }) s = .next { s with eng := { s.eng with status := s.eng.status &&& ~~~(w &&& 1) } } ∧
    exec (.registerWrite fn { off := 0x800000, val := v, sets := k }) s = .next { s with arr := { s.arr with status := s.arr.status &&& ~~~(w &&& 7) } } ∧
    exec (.registerWrite fn { off := 0x900000, val := v, sets := k }) s = .next { s with sec := { s.sec with status := s.sec.status &&& ~~~(w &&& 3) } } ∧
    exec (.registerWrite fn { off := 0xB00000, val := v, sets := k }) s = .next { s with sbd := { s.sbd with status := s.sbd.status &&& ~~~(w &&& 15) } }

/-- R6, R7, R8: every write of a register completes; a writable register takes the bits it defines; a value that places a reserved encoding
is discarded whole and sets the block's ILLEGAL_WRITE flag. -/
def Obligations.WritableRegistersTakeTheirDefinedBits : Prop :=
  (∀ (s : State) (fn : Fn) (w : RegWr) (k : Word),
    (hostUp s fn = false → exec (.registerWrite fn { toRegWr := w, sets := k }) s = .next s) ∧
    (hostUp s fn = true → rings s fn w = false → exec (.registerWrite fn { toRegWr := w, sets := k }) s = .next (busWrite fn (sparing s fn { toRegWr := w, sets := k }) s)) ∧
    (rings s fn w = true → exec (.registerWrite fn { toRegWr := w, sets := k }) s = .next (ringDoorbell fn s))) ∧
  (∀ (s : State) (fn : Fn) (v k : Word), adminBus s fn →
    exec (.registerWrite fn { off := 0x10010, val := v, sets := k }) s = .next { s with crs := { s.crs with eventEn := v &&& 3 } } ∧
    exec (.registerWrite fn { off := 0xB00008, val := v, sets := k }) s = .next { s with sbd := { s.sbd with smbCfg := v &&& 7 } } ∧
    exec (.registerWrite fn { off := 0xB00014, val := v, sets := k }) s = .next { s with sbd := { s.sbd with gpioOut := v &&& 0xFFFF } } ∧
    exec (.registerWrite fn { off := 0x800004, val := v, sets := k }) s = .next { s with arr := { s.arr with cfg := v &&& 0xFF } } ∧
    (bits v 23 16 ≤ bits v 15 8 ∨ bits v 3 0 = 0 →
      exec (.registerWrite fn { off := 0x300004, val := v, sets := k }) s = .next { s with msh := { s.msh with status := setBit s.msh.status 0 } }) ∧
    (bits v 15 8 < bits v 23 16 → bits v 3 0 ≠ 0 →
      Runs (.registerWrite fn { off := 0x300004, val := v, sets := k }) s [.msh] fun t =>
        t.msh.throttle = v &&& 0x00FFFF0F ∧ { t.msh with throttle := s.msh.throttle, throttled := s.msh.throttled } = s.msh) ∧
    exec (.registerWrite fn { off := 0x600004, val := v, sets := k }) s =
      (if bits v 7 0 = 0 then .next { s with dir := { s.dir with status := setBit s.dir.status 0 } }
       else .next { s with dir := { s.dir with cfg := v &&& 0xFF } }) ∧
    exec (.registerWrite fn { off := 0x0C, val := v, sets := k }) s = .next { s with nid := { s.nid with status := setBit s.nid.status 0 } })

/-- R5: the low word of MBX_EV_BASE is held, reads still give the value in force, and the high word applies both, or joins the low word in
force where none is held; a read of a low word captures the high word, which the next read of the high word returns. A read that does not
answer, as in FATAL, returns 0 and touches no capture (R26). -/
def Obligations.RegisterPairsMoveTogether : Prop :=
  (∀ (s : State) (fn : Fn) (v : Word), adminBus s fn → (s.host fn.port).evOn = false → bits v 11 0 = 0 →
    Runs (.registerPairWrite fn { off := 0xF00010, val := v }) s [.hosts] fun t =>
      Tbl.get none (t.host fn.port).hold 0xF00010 = some v ∧ (t.host fn.port).evBase = (s.host fn.port).evBase ∧
      ∀ p : Nat, p ≠ fn.port.val → t.host p = s.host p) ∧
  (∀ (s : State) (fn : Fn) (v : Word), adminBus s fn → (s.host fn.port).evOn = false →
    Runs (.registerPairWrite fn { off := 0xF00014, val := v }) s [.hosts] fun t =>
      (t.host fn.port).evBase = (match Tbl.get none (s.host fn.port).hold 0xF00010 with
        | some lo => v ++ lo
        | none => v ++ (s.host fn.port).evBase.setWidth 32) ∧
      Tbl.get none (t.host fn.port).hold 0xF00010 = none ∧ ∀ p : Nat, p ≠ fn.port.val → t.host p = s.host p) ∧
  (∀ (s : State) (fn : Fn) (off : Nat), hostUp s fn = true → off % 4 = 0 → pairLow s fn off = true → answers s fn off = true →
    Runs (.registerPairLowRead fn off 4) s [.hosts, .out] fun t =>
      t.out = .regRead fn off (readAt s fn off) :: s.out ∧
      Tbl.get none (t.host fn.port).capture (pairKey fn off) = some (readAt s fn (off + 4))) ∧
  (∀ (s : State) (fn : Fn) (off : Nat), hostUp s fn = true → answers s fn off = false →
    exec (.registerPairLowRead fn off 4) s = .next (s.emit (.regRead fn off 0))) ∧
  (∀ (s : State) (fn : Fn) (off : Nat) (w : Word), hostUp s fn = true → off % 4 = 0 → pairLow s fn off = true → pairLow s fn (off + 4) = false →
    answers s fn (off + 4) = true → Tbl.get none (s.host fn.port).capture (pairKey fn off) = some w →
    Runs (.registerPairLowRead fn (off + 4) 4) s [.hosts, .out] fun t =>
      t.out = .regRead fn (off + 4) w :: s.out ∧ Tbl.get none (t.host fn.port).capture (pairKey fn off) = none)

/-- R37, R44, R73: a write of a table entry goes to the shadow and to nothing else; an RO stream entry or a reserved encoding is discarded
with the flag, and so is every write of the admission list of a tenant that is not LIVE; setting COMMIT sets it and touches no copy. -/
def Obligations.TableWritesGoToTheShadow : Prop :=
  (∀ (s : State) (fn : Fn) (off i k : Nat) (v : Word), adminBus s fn → tableSlot off = some (i, k) → pairWritable s fn off = none →
    i ≠ streamInst → (128 ≤ i ∧ i < 256 → (s.tenant (i - 128)).state = .live) → slotOk i k v = true →
    exec (.shadowWrite fn { off, val := v }) s = .next (s.putShadow i k (slotValue i k v))) ∧
  (∀ (s : State) (fn : Fn) (off i k : Nat) (v : Word), adminBus s fn → tableSlot off = some (i, k) → pairWritable s fn off = none →
    i = streamInst ∨ ((128 ≤ i ∧ i < 256 → (s.tenant (i - 128)).state = .live) ∧ slotOk i k v = false) →
    exec (.shadowWrite fn { off, val := v }) s = .next (illegal fn.port (blkOf off) s)) ∧
  (∀ (s : State) (fn : Fn) (off i : Nat) (v : Word), adminBus s fn → genWordAt off = some (i, false) → bit v 31 = true →
    (128 ≤ i ∧ i < 256 → (s.tenant (i - 128)).state = .live) →
    Runs (.genctlCommit fn { off, val := v }) s [.insts] fun t =>
      (t.inst i).commit = true ∧ (t.inst i).shadow = (s.inst i).shadow ∧ (t.inst i).active = (s.inst i).active ∧
      (t.inst i).retired = (s.inst i).retired ∧ ∀ j, j ≠ i → t.inst j = s.inst j) ∧
  (∀ (s : State) (fn : Fn) (off t k : Nat) (v : Word), hostUp s fn = true → s.takesHost = true → mayWrite s fn off = true → fn.vf = 0 →
    t < 128 → tableSlot off = some (128 + t, k) → (s.tenant t).state ≠ .live →
    exec (.shadowWrite fn { off, val := v }) s = .next (illegal fn.port .ptt s)) ∧
  (∀ (s : State) (fn : Fn) (off t : Nat) (d : Bool) (v : Word), hostUp s fn = true → s.takesHost = true → mayWrite s fn off = true →
    fn.vf = 0 → t < 128 → genWordAt off = some (128 + t, d) → (s.tenant t).state ≠ .live →
    exec (.genctlCommit fn { off, val := v }) s = .next (illegal fn.port .ptt s))

/-! ## The course and the generations (chapter 2) -/

/-- The course packet, the loss of the course clock and the boundary (R28, R30, R31, R192). -/
def Obligations.CourseClockEvents : Prop :=
  (∀ s : State, s.alive = true → s.clk.locked = true → s.clk.packetSent = false →
    Runs .coursePacketSend s [.clk, .out] fun t =>
      t.clk.packetSent = true ∧ t.clk.now = s.clk.now ∧
      (∀ i, i ∈ t.clk.flipBits ↔ i < 261 ∧ (s.inst i).commit = true ∧
        ((s.inst i).retired = false ∨ inflight s i = 0 ∨ 255 ≤ (s.inst i).age)) ∧
      t.out = .coursePacket (BitVec.ofNat 48 (s.clk.now + 1)) t.clk.flipBits :: s.out) ∧
  (∀ (s : State) (c : ClockLoss), s.alive = true →
    Runs (.courseClockLoss c) s [.nid, .tenants, .ports, .flt, .sbd, .out] fun t =>
      t.nid = { s.nid with state := .fatal } ∧ t.flt.fatal = true ∧ t.flt.first = 1 ∧ t.flt.all = 1 ∧ t.flt.course = s.course.toNat ∧
      t.sbd = { s.sbd with nodeFault := true, alert := true } ∧ (∀ k, (t.tenant k).key = none) ∧ (∀ p, (t.port p).sess = none)) ∧
  (∀ s : State, s.alive = true → s.clk.locked = true →
    Runs .courseBoundary s (touches .courseBoundary) fun t =>
      t.clk.now = s.clk.now + 1 ∧ t.course = s.course + 1 ∧ t.clk.cycle = 0 ∧ t.clk.packetSent = false ∧ t.clk.locked = true)

/-- Release, release by age and flip of an instance: each is a part of one boundary, which its row brings whole (R405); what each part
does; and the stale events owed (R23, R38, R41, R42, R43, R46, Table 2.2). -/
def Obligations.GenerationsFlipAndRelease : Prop :=
  (∀ (s : State) (i : Fin 261), s.alive = true → s.clk.locked = true → (s.inst i).retired = true → ((toFlips s).inst i).retired = false →
    exec (.genRelease i) s = .next (boundary s)) ∧
  (∀ (s : State) (i : Fin 261), s.alive = true → s.clk.locked = true → heldAtAge (toAgeing s) i = true →
    exec (.genReleaseByAge i) s = .next (boundary s)) ∧
  (∀ (s : State) (i : Fin 261), s.alive = true → s.clk.locked = true → canFlip (toFlips s) i = true →
    exec (.genFlip i) s = .next (boundary s)) ∧
  (∀ (s : State) (i : Fin 261), (s.inst i).retired = true → inflight s i = 0 →
    genRelease i s = s.setInst i { s.inst i with retired := false, old := [] }) ∧
  (∀ (s : State) (i : Fin 261), heldAtAge s i = true →
    let t := genReleaseByAge i s
    Within [.crs, .insts, .streams, .reqs, .ports, .xpt, .dram, .dir, .eng, .arr] s t ∧
    (t.inst i).retired = false ∧ (t.inst i).old = [] ∧ (t.inst i).active = (s.inst i).active ∧ (t.inst i).gen = (s.inst i).gen ∧
    bit t.crs.status 2 = true ∧ t.crs.staleGens = sat32 s.crs.staleGens 1 ∧ ∀ j, j ≠ i.val → t.inst j = s.inst j) ∧
  (∀ (s : State) (i : Fin 261), canFlip s i = true →
    let t := flip i s
    (t.inst i).active = (s.inst i).shadow ∧ (t.inst i).old = (s.inst i).active ∧ (t.inst i).gen = (s.inst i).gen + 1 ∧
    (t.inst i).age = 0 ∧ (t.inst i).retired = true ∧ (t.inst i).commit = false ∧ (t.inst i).shadow = (s.inst i).shadow ∧
    ∀ j, j ≠ i.val → t.inst j = s.inst j) ∧
  (∀ s : State, s.alive = true → procWorks s .bcp = true →
    Runs .genStalePost s [.crs, .hosts, .sbd, .out] fun t => t.crs = { s.crs with owed := [] }) ∧
  (∀ s : State, s.alive = true → procWorks s .bcp = false → exec .genStalePost s = .next s)

/-- A slip counts once for each course (R35); a write of CRS_SLIP_CLR clears the counters it names, and a slip counted in the same cycle
leaves its counter at 1 (R49). -/
def Obligations.SlipsCountAndClear : Prop :=
  (∀ (s : State) (p : Proc), s.alive = true → p ∉ s.crs.slipped → (s.wd p.idx).held = false →
    Runs (.courseSlip p) s [.crs, .serialNo, .hosts, .sbd, .out] fun t =>
      t.slip p.idx = { last := BitVec.ofNat 16 s.clk.now, count := sat16 (s.slip p.idx).count, fresh := false } ∧
      bit t.crs.status 1 = true ∧ p ∈ t.crs.slipped ∧ ∀ k, k ≠ p.idx → t.slip k = s.slip k) ∧
  (∀ (s : State) (fn : Fn) (v : Word), adminBus s fn →
    Runs (.slipClr fn { off := 0x10014, val := v } []) s [.crs] fun t =>
      ∀ p : Proc, t.slip p.idx = if bit v p.idx then { s.slip p.idx with count := 0, fresh := true } else s.slip p.idx) ∧
  (∀ (s : State) (fn : Fn) (v : Word) (p : Proc), adminBus s fn → bit v p.idx = true → p ∉ s.crs.slipped → (s.wd p.idx).held = false →
    Runs (.slipClr fn { off := 0x10014, val := v } [p]) s [.crs, .serialNo, .hosts, .sbd, .out] fun t =>
      (t.slip p.idx).count = 1 ∧ (t.slip p.idx).fresh = false)

/-! ## Partitions, tenants and streams (chapter 3) -/

/-- R56, R74: TENANT_CREATE takes the lowest FREE tenant and sets it CREATING under its partition and virtual function, and
TENANT_KEY_READY makes it LIVE with a key, empty tables at generation 0 and an answer that carries its number. -/
def Obligations.TenantsAreCreated : Prop :=
  (∀ (s : State) (fn : Fn) (m : MbxHdr) (part vf : Byte) (t : Nat), mbxReady s fn m 2 → part.toNat < 16 → vf.toNat ≤ 32 →
    s.owns fn part.toNat = true → (s.part part.toNat).reset = none → vfTaken s fn.port vf.toNat = false → s.trngFail = false →
    (tenantsIn s part.toNat).length < (s.part part.toNat).tenantQuota → freeTenant s = some t →
    Runs (.tenantCreate fn m part vf) s [.tenants, .serialNo, .hosts] fun u =>
      u.tenant t = { state := .creating, part := part.toNat, vf := vf.toNat, incarn := ((s.tenant t).incarn + 1) % 1024
                     owed := [owedFor s fn 0x0101 m] } ∧
      (∀ k, k ≠ t → u.tenant k = s.tenant k) ∧ inProgress s u fn) ∧
  (∀ (s : State) (t : Fin 128), s.alive = true → (s.tenant t).state = .creating → procWorks s .sep = true →
    Runs (.tenantKeyReady t) s [.insts, .tenants, .serialNo, .sec, .hosts, .out] fun u =>
      (u.tenant t).state = .live ∧ (u.tenant t).key.isSome = true ∧ (u.tenant t).part = (s.tenant t).part ∧
      (u.tenant t).vf = (s.tenant t).vf ∧ (u.tenant t).incarn = (s.tenant t).incarn ∧
      u.inst (tileMapInst t) = {} ∧ u.inst (admInst t) = {} ∧ (∀ k, k ≠ t.val → u.tenant k = s.tenant k) ∧
      ∀ o, (s.tenant t).owed = [o] → (s.host o.port).cur = some o.id → answeredFor u o .ok [BitVec.ofNat 8 t])

/-- R59, Table 3.2, R207: TENANT_DESTROY sets DESTROYING for the next boundary and stops the queues; at that boundary the tables go with
any COMMIT; the SEP clears the key; at the one after, the tenant is FREE and the command is answered. -/
def Obligations.TenantsAreDestroyed : Prop :=
  (∀ (s : State) (fn : Fn) (m : MbxHdr) (tenant : Byte), mbxReady s fn m 1 → tenantCheck s fn tenant.toNat false = none →
    (s.tenant tenant.toNat).b = none →
    Runs (.tenantDestroy fn m tenant) s [.tenants, .serialNo, .eng, .hosts] fun u =>
      (u.tenant tenant.toNat).state = .destroying ∧ (u.tenant tenant.toNat).b = some (s.clk.now + 1) ∧
      (u.tenant tenant.toNat).key = (s.tenant tenant.toNat).key ∧
      (∀ k, k ≠ tenant.toNat → u.tenant k = s.tenant k) ∧ inProgress s u fn ∧
      ∀ (t : Fin 128) (j : Fin 8), t.val = tenant.toNat → (s.queue (qNum (.tenant t j))).state ∈ [1, 2] →
        (u.queue (qNum (.tenant t j))).state = 3) ∧
  (∀ (s : State) (t : Fin 128), atBoundary s = true → withdrawDue s t = true →
    Runs (.tenantWithdraw t) s (touches (.tenantWithdraw t)) fun u =>
      (u.tenant t).withdrawn = true ∧ (u.tenant t).state = .destroying ∧
      (u.inst (tileMapInst t)).shadow = [] ∧ (u.inst (tileMapInst t)).active = [] ∧ (u.inst (tileMapInst t)).commit = false ∧
      (u.inst (admInst t)).shadow = [] ∧ (u.inst (admInst t)).active = [] ∧ (u.inst (admInst t)).commit = false) ∧
  (∀ (s : State) (t : Fin 128), s.alive = true → (s.tenant t).state = .destroying → (s.tenant t).withdrawn = true →
    procWorks s .sep = true → exec (.tenantKeyZeroise t) s = .next (s.setTenant t { s.tenant t with key := none })) ∧
  (∀ (s : State) (t : Fin 128) (b : Nat), atBoundary s = true → (s.tenant t).state = .destroying → (s.tenant t).withdrawn = true →
    (s.tenant t).key = none → tenantQueues s t = [] → (s.tenant t).b = some b → b + 1 ≤ s.clk.now →
    Runs (.tenantFree t) s (touches (.tenantFree t)) fun u =>
      u.tenant t = { incarn := (s.tenant t).incarn } ∧ u.inst (tileMapInst t) = {} ∧ u.inst (admInst t) = {} ∧
      ∀ o, (s.tenant t).owed = [o] → (returnTiles t s).alive = true → ((returnTiles t s).host o.port).cur = some o.id →
        answeredFor u o (if (s.tenant t).byReset then .partitionReset else .ok) [])

/-- R74: TENANT_QUERY and PART_QUERY answer at once, in any state of the node, with the fields of Tables 3.4 and 3.5. -/
def Obligations.QueriesAnswerAtOnce : Prop :=
  (∀ (s : State) (fn : Fn) (m : MbxHdr) (tenant : Byte), mbxTakes s fn m 1 → tenantCheck s fn tenant.toNat true = none →
    Runs (.tenantQuery fn m tenant) s [.serialNo, .hosts, .out] fun u =>
      answered s u fn 0x0103 m .ok ([BitVec.ofNat 8 (s.tenant tenant.toNat).state.code] ++
        leBytes 4 (tilesOfTenant s tenant.toNat .near) ++ leBytes 4 (tilesOfTenant s tenant.toNat .bulk) ++
        leBytes 2 (streamsWhere s fun x => decide (x.tenant = tenant.toNat)) ++
        [BitVec.ofNat 8 (tenantQueues s tenant.toNat).length])) ∧
  (∀ (s : State) (fn : Fn) (m : MbxHdr) (part : Byte), mbxTakes s fn m 1 → part.toNat ≤ 15 →
    s.owns fn part.toNat = true ∨ s.isAdmin fn = true →
    Runs (.partQuery fn m part) s [.serialNo, .hosts, .out] fun u =>
      answered s u fn 0x0121 m .ok (wordBytes (partWords s part.toNat))) ∧
  (∀ (s : State) (fn : Fn) (m : MbxHdr) (part : Byte), mbxTakes s fn m 1 → 15 < part.toNat →
    Runs (.partQuery fn m part) s [.serialNo, .hosts, .out] fun u => answered s u fn 0x0121 m .badLength [])

/-- R61, R65, R66: STREAM_OPEN, STREAM_MODIFY and STREAM_CLOSE write the shadow of the stream table, set its COMMIT and wait for the
flip; the active copy, which traffic sees, does not move. -/
def Obligations.StreamCommandsWaitForTheirFlip : Prop :=
  (∀ (s : State) (fn : Fn) (m : MbxHdr) (tenant : Byte) (endpoint window timeout : BitVec 16) (k : Nat), mbxReady s fn m 7 →
    badLimits window timeout = false → endpoint.toNat ≤ 0xFFF → tenantCheck s fn tenant.toNat false = none →
    s.admitted tenant.toNat endpoint.toNat = true →
    (streamsWhere s fun x => decide (x.part = (s.tenant tenant.toNat).part)) < (s.part (s.tenant tenant.toNat).part).streamQuota →
    ((List.range 4096).find? fun k => !(s.stream k).alloc) = some k →
    Runs (.streamOpen fn m tenant endpoint window timeout) s [.insts, .streams, .serialNo, .hosts] fun u =>
      u.shadowAt streamInst (2 * k) = strCfgWord tenant.toNat endpoint.toNat ∧
      u.shadowAt streamInst (2 * k + 1) = strLimWord window.toNat timeout.toNat ∧
      (u.inst streamInst).commit = true ∧ (u.inst streamInst).active = (s.inst streamInst).active ∧
      u.stream k = { alloc := true, part := (s.tenant tenant.toNat).part, tenant := tenant.toNat
                     pend := [(.opening, owedFor s fn 0x0110 m)] } ∧
      (∀ j, j ≠ k → u.stream j = s.stream j) ∧ inProgress s u fn) ∧
  (∀ (s : State) (fn : Fn) (m : MbxHdr) (stream window timeout : BitVec 16), mbxReady s fn m 6 → badLimits window timeout = false →
    streamCheck s fn stream.toNat = none →
    Runs (.streamModify fn m stream window timeout) s [.insts, .streams, .serialNo, .hosts] fun u =>
      u.shadowAt streamInst (2 * stream.toNat) = s.shadowAt streamInst (2 * stream.toNat) ∧
      u.shadowAt streamInst (2 * stream.toNat + 1) = strLimWord window.toNat timeout.toNat ∧
      (u.inst streamInst).commit = true ∧ (u.inst streamInst).active = (s.inst streamInst).active ∧
      (u.stream stream.toNat).pend = (s.stream stream.toNat).pend ++ [(.modifying, owedFor s fn 0x0111 m)] ∧
      (∀ j, j ≠ stream.toNat → u.stream j = s.stream j) ∧ inProgress s u fn) ∧
  (∀ (s : State) (fn : Fn) (m : MbxHdr) (stream : BitVec 16), mbxReady s fn m 2 → streamCheck s fn stream.toNat = none →
    Runs (.streamClose fn m stream) s [.insts, .streams, .serialNo, .hosts] fun u =>
      u.shadowAt streamInst (2 * stream.toNat) = 0 ∧ u.shadowAt streamInst (2 * stream.toNat + 1) = 0 ∧
      (u.inst streamInst).commit = true ∧ (u.inst streamInst).active = (s.inst streamInst).active ∧
      (u.stream stream.toNat).pend = (s.stream stream.toNat).pend ++ [(.closing, owedFor s fn 0x0112 m)] ∧
      (∀ j, j ≠ stream.toNat → u.stream j = s.stream j) ∧ inProgress s u fn)

/-- R62, R64, R66: a window doubles up to its configured size at each sixteenth boundary; a request whose timer has expired ends with
TIMEOUT, its status queued for its port; a closed stream with nothing outstanding frees its ID. -/
def Obligations.StreamsRampExpireAndFree : Prop :=
  (∀ (s : State) (k : BitVec 12), atBoundary s = true → (s.strCfg k.toNat).getLsbD 31 = true → (s.stream k.toNat).alloc = true →
    (s.stream k.toNat).rampAt < s.clk.now → (s.clk.now - (s.stream k.toNat).rampBase) % 16 = 0 →
    (s.stream k.toNat).windowNow < s.strWindow k.toNat →
    exec (.streamWindowRamp k) s = .next (s.setStream k.toNat { s.stream k.toNat with
      windowNow := min (2 * (s.stream k.toNat).windowNow) (s.strWindow k.toNat), rampAt := s.clk.now })) ∧
  (∀ (s : State) (k : BitVec 12) (rseq : BitVec 16) (r : OReq) (b : Nat), atBoundary s = true →
    (s.reqs.find? fun r => decide (r.msg.stream.toNat = k.toNat) && decide (r.msg.rseq.toNat = rseq.toNat) && r.expiry.isSome) = some r →
    r.expiry = some b → b ≤ s.clk.now →
    Runs (.streamTimeout k rseq) s [.streams, .reqs, .ports, .xpt, .dram, .dir] fun u =>
      ∃ v : State, u = settle v ∧ v.req r.id = none ∧
        (s.req r.id = some r → r.silent = false → portUsable s r.port = true →
          ∃ pre, (v.port r.port).txq = pre ++ [{ msgItem (rspMsg s r.msg .timeout r.pos) with
            ans := true, final := true, tags := if holdsTags s r = true then r.tags else [] }])) ∧
  (∀ (s : State) (k : BitVec 12), s.alive = true → (s.stream k.toNat).alloc = true → (s.stream k.toNat).closed = true →
    (∀ r ∈ s.reqs, r.msg.stream.toNat = k.toNat → r.silent = true) → exec (.streamIdFree k) s = .next (s.setStream k.toNat {}))

/-- R67, R68: PART_RESET sets the partition's tenants DESTROYING for the next boundary; at that boundary its tenants are withdrawn; with
every tenant FREE one boundary later the reset is over and answered. -/
def Obligations.PartitionsReset : Prop :=
  (∀ (s : State) (fn : Fn) (m : MbxHdr) (part : Byte), mbxReady s fn m 1 → part.toNat ≤ 15 → (s.part part.toNat).valid = true →
    s.owns fn part.toNat = true ∨ s.isAdmin fn = true → (s.part part.toNat).reset = none →
    Runs (.partReset fn m part) s [.parts, .tenants, .serialNo, .eng, .hosts] fun u =>
      (u.part part.toNat).reset = some { b := s.clk.now + 1, owed := [owedFor s fn 0x0120 m] } ∧
      (∀ p, p ≠ part.toNat → u.part p = s.part p) ∧ inProgress s u fn ∧
      ∀ t ∈ tenantsIn s part.toNat, (u.tenant t).state = .destroying ∧ (u.tenant t).byReset = true) ∧
  (∀ (s : State) (p : Fin 16), atBoundary s = true → partDue s p = true →
    Runs (.partitionResetWithdraw p) s (touches (.partitionResetWithdraw p)) fun u =>
      (u.part p).reset.map PartReset.withdrawn = some true ∧ ∀ t ∈ tenantsIn s p, (u.tenant t).withdrawn = true) ∧
  (∀ (s : State) (p : Fin 16) (r : PartReset), s.alive = true → (s.part p).reset = some r → r.withdrawn = true →
    r.b + 1 ≤ s.clk.now → tenantsIn s p = [] →
    Runs (.partitionResetComplete p) s [.parts, .hosts, .out] fun u =>
      u.part p = { s.part p with reset := none } ∧ (∀ k, k ≠ p.val → u.part k = s.part k) ∧
      ∀ o, r.owed = [o] → (s.host o.port).cur = some o.id → answeredFor u o .ok []) ∧
  (∀ (s : State) (hp : Fin 4) (vf : Nat) (t : Fin 128), s.alive = true → hostUp s { port := hp, vf } = true →
    tenantOfVf s hp vf = some t.val →
    Runs (.vfFlr hp vf) s (touches (.vfFlr hp vf)) fun u => u.tenant t = s.tenant t ∧
      ((∀ q ∈ tenantQueues s t, (s.queue (qNum q)).cmds = []) → ∀ j : Fin 8, (s.queue (qNum (.tenant t j))).state ∈ [1, 2] →
        (u.queue (qNum (.tenant t j))).state = 3))

/-! ## The board and its pins (chapter 4) -/

/-- R82, R83, R88, R389: POR_N's rise samples the straps and starts BOOT, with the monitor's prompt where it is enabled; its fall leaves OFF
with every register, table, queue and key at its reset value, and the flash as it is on the board; an order fault latched while OFF is cleared by the removal of VDD_AUX; PWRGOOD falling with POR_N high is a fatal cause. -/
def Obligations.PowerSignalsStartAndStopTheNode : Prop :=
  (∀ (s : State) (x : Straps), atRise s = true → s.sbd.orderFault = false →
    Runs (.porNRise x) s [.nid, .serialNo, .ports, .sbd, .out] fun u =>
      u.nid = { s.nid with state := .boot } ∧ u.sbd = { s.sbd with straps := x, porN := true } ∧
      u.out = (if x.monitorEn then .monitorText "svt>" :: s.out else s.out) ∧
      ∀ n, u.port n = { s.port n with epochOwn := (u.port n).epochOwn }) ∧
  (∀ (s : State) (x : Straps), atRise s = false ∨ s.sbd.orderFault = true → exec (.porNRise x) s = .next s) ∧
  (∀ s : State, Runs .porNFall s (touches .porNFall) fun u =>
      u.nid = { State.reset.nid with state := .off } ∧
      u.sbd = { State.reset.sbd with porN := false, orderFault := s.sbd.orderFault, flash := flashLeft s } ∧
      (∀ a ∈ [Area.clk, .crs, .insts, .cfg, .parts, .tenants, .pttStatus, .streams, .reqs, .ports, .xpt, .msh, .til, .dir, .eng, .arr,
        .sec, .pwr, .flt, .boot], a.same State.reset u) ∧
      ∀ p, u.host p = {} ∨ u.host p = { perst := false }) ∧
  (∀ s : State, s.alive = true → s.sbd.porN = true →
    Runs .pwrgoodFall s [.nid, .tenants, .ports, .flt, .sbd, .out] fun u =>
      u.nid = { s.nid with state := .fatal } ∧ u.flt.first = 4 ∧ u.flt.all = 8 ∧ (∀ k, (u.tenant k).key = none)) ∧
  (∀ (s : State) (r : RailOrder), s.nid.state = .off →
    exec (.railOrderFault r) s = .next { s with sbd := { s.sbd with orderFault := true } }) ∧
  (∀ s : State, Runs .vddAuxRemoval s (touches .vddAuxRemoval) fun u =>
      u.sbd.orderFault = false ∧ u.sbd.porN = false ∧ u.nid.state = .off)

/-- R28, R85, R87: the lock of the core clock starts the course counter at 0; REFCLK_LOST rises on the ports of one group, whose attempts
stop and wait again, and falls when the clock is back; the thermal signals follow their thresholds, and THERMTRIP is a fatal cause. -/
def Obligations.ClockAndThermalSignals : Prop :=
  (∀ s : State, s.alive = true → s.clk.locked = false →
    exec .clockLock s = .next { s with clk := { s.clk with locked := true, now := 0, cycle := 0 } }) ∧
  (∀ (s : State) (g : Fin 4), s.alive = true → Runs (.refclkLost g) s [.ports] fun u =>
      ∀ n, (n ∉ groupPorts g ∨ bit (s.port n).ev 5 = true → u.port n = s.port n) ∧
        (n ∈ groupPorts g → bit (s.port n).ev 5 = false →
          (u.port n).ev = setBit (s.port n).ev 5 ∧ (u.port n).sym = 0 ∧ (u.port n).state = (s.port n).state ∧
          ((s.port n).state = .detect → (u.port n).waiting = none) ∧
          ((s.port n).state ≠ .detect → (s.port n).attempting = true →
            (u.port n).attempting = false ∧ (u.port n).waiting = some (ageNow s)))) ∧
  (∀ (s : State) (g : Fin 4), s.alive = true → Runs (.refclkReturn g) s [.ports] fun u =>
      ∀ n, u.port n = if n ∈ groupPorts g then { s.port n with ev := (s.port n).ev &&& ~~~(32#32) } else s.port n) ∧
  (∀ (s : State) (die : Fin 2) (x : BitVec 16), s.alive = true → 460 ≤ x.toInt →
    Runs (.thermtrip die x) s [.nid, .tenants, .ports, .flt, .sbd, .out] fun u =>
      u.nid = { s.nid with state := .fatal } ∧ u.flt.first = 4 ∧ u.sbd = { s.sbd with thermtrip := true, nodeFault := true, alert := true } ∧
      ∀ k, (u.tenant k).key = none) ∧
  (∀ (s : State) (die : Fin 2) (x : BitVec 16), s.nid.state ≠ .off → 400 ≤ x.toInt →
    exec (.prochotAssert die x) s = .next { s with sbd := { s.sbd with prochot := true } }) ∧
  (∀ (s : State) (x y : BitVec 16), x.toInt ≤ 388 → y.toInt ≤ 388 →
    exec (.prochotRelease x y) s = .next { s with sbd := { s.sbd with prochot := false } })

/-- R368, R369, Table 17.2: PERST_N puts one port's registers back to reset and resets its partitions; its release lets the port answer,
with Request Retry Status until the node has left TRAINING (R126). -/
def Obligations.PerstResetsOnePort : Prop :=
  (∀ (s : State) (hp : Fin 4), s.alive = true → (s.host hp).perst = true →
    Runs (.perstNAssert hp) s [.parts, .tenants, .dir, .eng, .hosts] fun u =>
      u.host hp = { perst := false } ∧ otherHosts s u hp ∧
      (∀ p ∈ partsOfPort s hp, (u.part p).reset.isSome = true) ∧ ∀ p, p ∉ partsOfPort s hp → u.part p = s.part p) ∧
  (∀ (s : State) (hp : Fin 4), (s.host hp).perst = false →
    exec (.perstNDeassert hp) s = .next (s.setHost hp { s.host hp with perst := true, retry := s.boot.healthAt.isNone })) ∧
  (∀ (s : State) (hp : Fin 4), s.nid.state ≠ .off → (s.host hp).perst = true →
    exec (.configRetryEnd hp) s = .next (s.setHost hp { s.host hp with retry := false }))

/-- R92 to R96: Host Notify of the oldest word, its message the node's address and the word, by how the attempt ends: acknowledged, its word leaves; refused, it is counted and tried
again, and the fourth failure drops it with HN_FAIL; arbitration lost, it is counted. On either bus the Alert Response Address is
answered, with its PEC, and the signal released when nothing is pending; without an alert it is not acknowledged. A target transfer whose clock times out is abandoned. -/
def Obligations.SmbusNotifiesAndAnswersAlerts : Prop :=
  (∀ (s : State) (w : BitVec 16) (r : List (BitVec 16)), s.alive = true → smbUp false s = true → bit s.sbd.smbCfg 1 = true → s.sbd.fifo = w :: r →
    s.sbd.hnTries = 0 ∨ s.sbd.hnLost = true →
    exec (.hostNotifySend .acked) s = .next { s with
      out := .hostNotify ([0x10, smbOwn s] ++ leBytes 2 w.toNat) :: s.out, sbd := { s.sbd with fifo := r, hnTries := 0, hnArb := 0, hnLost := false } }) ∧
  (∀ (s : State) (w : BitVec 16) (r : List (BitVec 16)), s.alive = true → smbUp false s = true → bit s.sbd.smbCfg 1 = true → s.sbd.fifo = w :: r →
    s.sbd.hnTries = 0 →
    exec (.hostNotifySend .noAck) s = .next { s with
      out := .hostNotify ([0x10, smbOwn s] ++ leBytes 2 w.toNat) :: s.out, sbd := { s.sbd with noAcks := sat16 s.sbd.noAcks, hnTries := 1, hnLost := false } }) ∧
  (∀ (s : State) (w : BitVec 16) (r : List (BitVec 16)), s.alive = true → smbUp false s = true → bit s.sbd.smbCfg 1 = true → s.sbd.fifo = w :: r →
    s.sbd.hnTries = 0 ∨ s.sbd.hnLost = true → s.sbd.hnArb < 15 →
    exec (.hostNotifySend .arbLost) s = .next { s with
      out := .hostNotify ([0x10, smbOwn s] ++ leBytes 2 w.toNat) :: s.out, sbd := { s.sbd with arb := sat16 s.sbd.arb, hnArb := s.sbd.hnArb + 1, hnLost := true } }) ∧
  (∀ (s : State) (w : BitVec 16) (r : List (BitVec 16)), s.alive = true → smbUp false s = true → bit s.sbd.smbCfg 1 = true → s.sbd.fifo = w :: r →
    0 < s.sbd.hnTries → s.sbd.hnLost = false →
    exec (.hostNotifyRetry .acked) s = .next { s with
      out := .hostNotify ([0x10, smbOwn s] ++ leBytes 2 w.toNat) :: s.out, sbd := { s.sbd with fifo := r, hnTries := 0, hnArb := 0, hnLost := false } }) ∧
  (∀ (s : State) (w : BitVec 16) (r : List (BitVec 16)), s.alive = true → smbUp false s = true → bit s.sbd.smbCfg 1 = true → s.sbd.fifo = w :: r →
    s.sbd.hnTries = 3 → s.sbd.hnLost = false →
    Runs (.hostNotifyRetry .noAck) s [.hosts, .flt, .sbd, .out] fun u => bit u.sbd.status 1 = true ∧ u.sbd.hnTries = 0) ∧
  (∀ s : State, smbUp false s = true → s.sbd.alert = true →
    exec .smbAlertResponse s = .next { s with
      out := .smbRead [BitVec.ofNat 8 (2 * (0x4C + s.sbd.straps.smbAddr.toNat))] (pecOf [0x19, smbOwn s]) :: s.out
      sbd := { s.sbd with alert := decide (s.sbd.fifo ≠ [] ∨ s.nid.state = .fatal) } }) ∧
  (∀ s : State, smbUp false s = false ∨ s.sbd.alert = false →
    exec .smbAlertResponse s = .next { s with out := .smbNack :: s.out }) ∧
  (∀ s : State, exec .smbSclTimeout s = .next s)

/-- R97, R99, Table 4.6: a pin leaves its guard and takes its function, a TACH pin counts the edges longer than 1 µs and publishes the
count of each window of 65,536 courses, an LED sinks for 4 × PARAM courses of every 60. -/
def Obligations.PinsGuardCountAndBlink : Prop :=
  (∀ (s : State) (n : Fin 16) (a : Nat), atBoundary s = true → (s.pin n).phase = .guard a → a ≤ s.clk.now →
    Runs (.pinGuardEnd n) s [.sbd] fun u =>
      (u.pin n).phase = (if pinEff (pinTable s) n = 0 then .hiz else .active) ∧ (∀ k, k ≠ n.val → u.pin k = s.pin k) ∧
      u.sbd = { s.sbd with pins := u.sbd.pins }) ∧
  (∀ (s : State) (n : Fin 16), s.alive = true → tachOn s n = true →
    exec (.tachEdge n true) s = .next (s.setPin n { s.pin n with edges := (s.pin n).edges + 1 })) ∧
  (∀ (s : State) (n : Fin 16), atBoundary s = true → tachOn s n = true → (s.pin n).winAt + 65536 ≤ s.clk.now →
    exec (.tachWindow n) s = .next (s.setPin n
      { s.pin n with count := BitVec.ofNat 16 (min (s.pin n).edges 0xFFFF), edges := 0, winAt := s.clk.now })) ∧
  (∀ (s : State) (n : Fin 16), atBoundary s = true → (s.pin n).phase = .active → pinEff (pinTable s) n = 9 →
    exec (.ledPeriod n) s = .next (s.setPin n
      { s.pin n with ledOn := decide ((s.clk.now - (s.pin n).ledAt) % 60 < 4 * pinParam (pinTable s) n) }))

/-! ## Start-up (chapter 5) -/

/-- R89, R105, R114, R117, R25: OTP, the flash, the slot and the start of the processors, or the no-image state. -/
def Obligations.BootFindsAnImage : Prop :=
  (∀ (s : State) (o : Otp), s.nid.state = .boot → s.clk.locked = true → s.boot.otp = none →
    exec (.otpRead (some o)) s = .next { s with boot := { s.boot with otp := some o }, nid := { s.nid with serial := o.serial } }) ∧
  (∀ s : State, s.nid.state = .boot → s.clk.locked = true → s.boot.otp = none →
    Runs (.otpRead none) s [.nid, .tenants, .ports, .flt, .sbd, .out] fun u => u.nid.state = .fatal ∧ u.flt.first = 5 ∧ u.flt.all = 16) ∧
  (∀ (s : State) (x : Option FlashDev) (d : FlashDev), s.nid.state = .boot → s.boot.otp.isSome = true → s.boot.flash = none →
    x.or s.sbd.flash = some d →
    exec (.flashDiscovery x) s = .next { s with
      boot := { s.boot with flash := some d }
      sbd := { s.sbd with flash := none, spiInfo := field 8 (flashLog d) ||| BitVec.ofNat 32 (flashMode d) } }) ∧
  (∀ (s : State) (o : Otp) (d : FlashDev), s.nid.state = .boot → s.boot.otp = some o → s.boot.flash = some d →
    bit s.boot.status 0 = false → bit s.boot.status 9 = false → logCorrupt (bootLog d) = false →
    Runs .slotChoice s [.boot] fun u =>
      let a := s.sbd.straps.bootSlotSel
      let e := logTidy d
      if slotVerdict e o (bootLog e) a = 0 then
        bit u.boot.status 0 = true ∧ u.boot.flash = some (logAppend (attemptEntry a) e) ∧ u.boot.firmware = slotRec e a 1 ∧
        u.boot.config = slotRec e a 2
      else if slotVerdict e o (bootLog e) (!a) = 0 then
        bit u.boot.status 0 = true ∧ u.boot.flash = some (logAppend (attemptEntry (!a)) e) ∧ u.boot.firmware = slotRec e (!a) 1 ∧
        u.boot.config = slotRec e (!a) 2
      else bit u.boot.status 9 = true ∧ u.boot.flash = some e ∧ u.boot.firmware = s.boot.firmware) ∧
  (∀ (s : State) (d : FlashDev), s.nid.state = .boot → slotChosen s = true → s.boot.flash = some d →
    Runs .processorStart s [.nid, .flt] fun u =>
      u.nid = { s.nid with state := .selftest, fw := BitVec.ofNat 32 (leAt (flashRead d (slotBase d (runningSlot s)) 64) 12 4) } ∧
      ∀ p ∈ [Proc.fmp, .mrp, .sep, .mnp], (u.wd p.idx).started = true)

/-- R118, R121 to R123, R188: the works of SELFTEST on the settings, the mesh, the checkers and the calibration. -/
def Obligations.SelftestDoesItsWorks : Prop :=
  (∀ s : State, s.nid.state = .selftest → s.boot.settingsDone = false →
    Runs .settingsRead s (touches .settingsRead) fun u => u.boot.settingsDone = true ∧
      match newestSlot s (fun k x => Config.settingsReads s.nid.fw x.version && (setBodyIn s k x).isSome) with
      | some (k, x) => setBodyIn s k x = some u.boot.body ∧ u.boot.ownSlot = some k ∧ u.boot.learned = u.boot.body.learned ∧
          u.dram.near.exclude = u.boot.body.hbmExclude
      | none => bit u.boot.status 3 = true ∧ u.boot.writeDue = true ∧ u.boot.body = s.boot.body) ∧
  (∀ (s : State) (failed : List (Fin 192)) (dis : List Nat), s.nid.state = .selftest → s.boot.meshDone = false →
    dis = ((match s.boot.otp with | some o => o.fused | none => []) ++ failed).eraseDups.map Fin.val → disabledOk dis = true →
    Runs (.meshSelftest failed false) s (touches (.meshSelftest failed false)) fun u =>
      u.boot.meshDone = true ∧ u.msh.disabled = dis ∧ u.msh.sr = sourceTables dis ∧ u.flt.fatal = s.flt.fatal) ∧
  (∀ (s : State) (failed : List (Fin 192)), s.nid.state = .selftest → s.boot.meshDone = false →
    Runs (.meshSelftest failed true) s (touches (.meshSelftest failed true)) fun u =>
      u.nid.state = .fatal ∧ u.flt.first = 2 ∧ u.flt.all = 2) ∧
  (∀ (s : State) (a : List (Fin 256 × EccPattern × EccResult)) (b : List (Fin 16 × EccPattern × EccResult)) (c : List (Nat × EccPattern × EccResult))
    (l : List EccReply), l = eccReplies a b c → s.nid.state = .selftest → s.boot.meshDone = true → s.boot.eccDone = false →
    (∀ k, EccUnit.sram k ∉ eccFailed l) →
    Runs (.eccSelftest a b c) s (touches (.eccSelftest a b c)) fun u => u.boot.eccDone = true ∧
      (∀ n, EccUnit.hbm n ∈ eccFailed l → stationDown s (hbmStation n) = false → (u.chan (chanKey .near n)).checker = true) ∧
      (∀ n, EccUnit.ddr n ∈ eccFailed l → stationDown s (ddrStation n) = false → (u.chan (chanKey .bulk n)).checker = true)) ∧
  (∀ (s : State) (a : List (Fin 256 × EccPattern × EccResult)) (b : List (Fin 16 × EccPattern × EccResult)) (c : List (Nat × EccPattern × EccResult))
    (l : List EccReply) (k : Nat), l = eccReplies a b c → s.nid.state = .selftest → s.boot.meshDone = true → s.boot.eccDone = false →
    EccUnit.sram k ∈ eccFailed l →
    Runs (.eccSelftest a b c) s (touches (.eccSelftest a b c)) fun u =>
      u.nid.state = .fatal ∧ u.flt.first = 6 ∧ u.flt.all = 32) ∧
  (∀ s : State, s.nid.state = .selftest → s.boot.settingsDone = true → s.boot.calDone = false →
    Runs .calibrationApply s (touches .calibrationApply) fun u => u.boot.calDone = true ∧
      (s.boot.userCal = none ∨ s.boot.body.userCal = false →
        u.boot.applied = (match s.boot.otp with | some o => o.cal | none => []) ∧ u.boot.cal = s.boot.cal) ∧
      (s.boot.userCal.isSome = true → s.boot.body.userCal = true → bit u.boot.status 4 = true))

/-- R47, R52, R112, R224, R235: CONFIG gives the partitions and the ports their attributes, TABLES goes into both copies of each instance
at once, and the training of the DRAM leaves each channel in the state its own outcome gives. -/
def Obligations.ImageAndTrainingSetTheNodeUp : Prop :=
  (∀ (s : State) (c : List Byte), s.nid.state = .selftest → s.boot.meshDone = true → s.cfg.loaded = false → c = bootBytes s s.boot.config →
    Runs .partitionLoad s (touches .partitionLoad) fun u =>
      u.cfg.loaded = true ∧ u.cfg.adminPort = Fin.ofNat 4 (leAt c 3 1) ∧ u.cfg.minNear = leAt c 8 4 ∧ u.cfg.minBulk = leAt c 12 4 ∧
      u.nid.partitions = leAt c 2 1 ∧ (∀ i < leAt c 2 1, u.part i = configPart c i) ∧
      ∀ p < 32, (u.port p).cfg = portConfig u.cfg p (s.port p).cfg) ∧
  (∀ s : State, s.nid.state = .selftest → s.boot.tablesDone = false →
    Runs .tablesLoad s (touches .tablesLoad) fun u =>
      u.boot.tablesDone = true ∧ (∀ i, (s.inst i).shadow = (s.inst i).active → (u.inst i).shadow = (u.inst i).active) ∧
      ∀ (p : Nat × Word) (i k : Nat), tablePairs (bootBytes s s.boot.tables) = [p] → tableSlot p.1 = some (i, k) →
        u.lookup i k = slotValue i k p.2) ∧
  (∀ (s : State) (fails : List (Fin 256 × BitVec 2)), s.nid.state = .training → procRuns s .mrp = true → s.boot.hbmDone = false →
    Runs (.hbmTraining fails) s [.serialNo, .dram, .boot] fun u =>
      u.boot = { s.boot with hbmDone := true } ∧ u.dram.near.perCh = 768 ∧ u.dram.mem = s.dram.mem ∧
      ∀ ch < 256, (u.chan (chanKey .near ch)).state = hbmState s fails ch ∧
        ((u.chan (chanKey .near ch)).learned.isSome = true ↔ hbmState s fails ch = 0)) ∧
  (∀ (s : State) (dimms : List (List Dimm)) (fails : List (Fin 16)), s.nid.state = .training → procRuns s .mrp = true →
    s.boot.ddrDone = false →
    Runs (.ddrTraining dimms fails) s [.serialNo, .dram, .boot] fun u =>
      u.boot = { s.boot with ddrDone := true } ∧ u.dram.mem = s.dram.mem ∧
      ∀ ch < 16, (u.chan (chanKey .bulk ch)).state = ddrState s (dimms.getD ch []) fails ch ∧
        (u.chan (chanKey .bulk ch)).cap = ((dimms.getD ch []).map Dimm.gib).sum)

/-- R106, R115, R119, R124 to R126, R335: the ports open to DETECT, or stay DISABLED; the image's array design is read once; the node
enters service READY or DEGRADED by its tiles; a course without fault of 1 s passes the health check; settings owed are written. -/
def Obligations.NodeEntersService : Prop :=
  (∀ (s : State) (ms : Nat), atBoundary s = true → s.nid.state = .training → s.boot.hbmDone = true → s.boot.portsOpened = false →
    Runs (.portsOpen ms) s [.ports, .boot] fun u => u.boot.portsOpened = true ∧
      ∀ n < 32, (u.port n).state = if (s.port n).state ≠ .idle then (s.port n).state else if bit s.cfg.disabledPorts n || stationDown s (portStation n) then .disabled else .detect) ∧
  (∀ s : State, designNext s = true →
    Runs .sedgeDesignLoad s (touches .sedgeDesignLoad) fun u => u.boot.designDone = true ∧
      ((bootBytes s s.boot.design).length < 16 → bit u.boot.status 7 = true)) ∧
  (∀ (s : State) (ms : Nat), atBoundary s = true → s.nid.state = .training → s.boot.hbmDone = true → s.boot.ddrDone = true →
    s.boot.portsOpened = true → (s.boot.design.isSome = true → s.boot.designDone = true) →
    Runs (.enterService ms) s (touches (.enterService ms)) fun u =>
      let near := s.dram.near.order.length * s.dram.near.perCh
      let bulk := s.dram.bulk.order.length * s.dram.bulk.perCh
      u.nid.state = (if s.cfg.minNear ≤ near ∧ s.cfg.minBulk ≤ bulk then .ready else .degraded) ∧ u.nid.near = near ∧ u.nid.bulk = bulk ∧
      u.boot.healthAt = some (s.clk.now + 250000) ∧ u.sec.measured.isSome = true ∧
      ∀ p < 4, (s.host p).perst = true → (u.host p).retry = false) ∧
  (∀ (s : State) (b : Nat) (d : FlashDev), s.boot.healthAt = some b → s.boot.flash = some d →
    s.nid.state.serving = true → b < s.clk.now ∨ (b = s.clk.now ∧ s.clk.cycle ≠ 0) → s.boot.healthBad = false → bit s.boot.status 6 = false →
    exec .healthCheckPass s = .next { s with boot := { s.boot with
      flash := some (logAppend (passEntry (runningSlot s)) d), status := setBit s.boot.status 6 } }) ∧
  (∀ (s : State) (d : FlashDev) (o : Otp) (k j : Fin 2) (x : SetSlot), s.alive = true → s.boot.flash = some d → s.boot.otp = some o →
    s.boot.setWriting = none → s.boot.writeDue = true → s.boot.writing = [] → s.boot.settingsDone = true → s.trngFail = false →
    s.boot.ownSlot = some k → newestHdr s = some (j, x) →
    exec .settingsWrite s = .next { s with boot := { s.boot with
      flash := some (flashErase (setBase d k) setSize d), setWriting := some (k, x.sequence + 1) } }) ∧
  (∀ (s : State) (d : FlashDev) (o : Otp) (k : Fin 2) (seq : Word), s.alive = true → s.boot.flash = some d → s.boot.otp = some o →
    s.boot.setWriting = some (k, seq) →
    Runs .settingsWrite s [.serialNo, .sec, .boot] fun u => u.boot.writeDue = false ∧ u.boot.setWriting = none ∧ u.boot.ownSlot = some k ∧
      u.boot.flash = some (flashProgram (setBase d k) (setBytes o.fuseKey (Config.settingsVersion s.nid.fw) seq s.nid.fw
        (Config.settingsNonce s.serialNo).toList (bodyNow s)) d))

/-! ## Links (chapter 6) -/

/-- R124, R131 to R137, R141: a port locks, waits for admission and trains rung by rung; a rung that fails leads to the next, and the last to
FAILED with its event and its retry; PARAMS is exchanged; an attempt that succeeds brings the port UP, afresh or with its state kept; the
administrator retrains, disables and enables it. -/
def Obligations.PortsTrainRungByRung : Prop :=
  (∀ (s : State) (p : Fin 32) (lanes : Byte), s.alive = true → (s.port p).state = .detect → bit (s.port p).ev 5 = false →
    exec (.symbolLock p lanes) s = .next (s.setPort p { s.port p with
      sym := (s.port p).sym ||| lanes
      waiting := if 2 ≤ ((List.range 8).filter fun i => ((s.port p).sym ||| lanes).getLsbD i).length ∧ (s.port p).waiting = none
        then some (ageNow s) else (s.port p).waiting })) ∧
  (∀ (s : State) (n r : Nat), s.alive = true → procWorks s .fmp = true → s.clk.admits < 8 → n < 32 → mayAdmit s n = true →
    (∀ k < 32, mayAdmit s k = true → k = n) →
    nextRung (s.port n).cfg (if (s.port n).state = .detect then 0 else (s.port n).pos) = some r →
    Runs .trainingAdmit s (touches .trainingAdmit) fun u => u.clk.admits = s.clk.admits + 1 ∧ (u.port n).attempting = true ∧
      (u.port n).waiting = none ∧ (u.port n).rung = r ∧ (u.port n).pos = r ∧ (u.port n).use = (s.port n).cfg ∧
      (u.port n).state = (if (s.port n).state = .detect then .train else (s.port n).state) ∧
      (u.port n).attempts = (if (s.port n).state = .detect then 0 else (s.port n).attempts) + 1) ∧
  (∀ s : State, s.alive = true → 8 ≤ s.clk.admits → exec .trainingAdmit s = .next s) ∧
  (∀ (s : State) (p : Fin 32) (q : Params), s.alive = true → bit (s.port p).ev 5 = false → paramsDone (s.port p) = some q →
    resumes (s.port p) q = false →
    (needsHandshake (s.port p) q = true → (s.port p).hs.sentFinish = true ∧ (s.port p).hs.gotFinish = true) →
    Runs (.attemptSuccess p) s (touches (.attemptSuccess p)) fun u => (u.port p).state = .up ∧ (u.port p).txNext = 0 ∧
      (u.port p).rxNext = 0 ∧ (u.port p).held = [] ∧ (u.port p).lean = leanNow (s.port p) q ∧ (u.port p).epochPeer = q.epoch ∧
      (u.port p).window = min (bits (s.port p).use 19 8) q.window.toNat ∧ (u.port p).retries = 0 ∧
      (u.port p).rate = BitVec.ofNat 2 (rungAt (s.port p).rung).rate ∧
      (u.port p).width = BitVec.ofNat 2 (rungAt (s.port p).rung).width) ∧
  (∀ (s : State) (p : Fin 32) (q : Params), s.alive = true → bit (s.port p).ev 5 = false → paramsDone (s.port p) = some q →
    resumes (s.port p) q = true →
    Runs (.attemptSuccess p) s (touches (.attemptSuccess p)) fun u => (u.port p).state = .up ∧ (u.port p).txNext = (s.port p).txNext ∧
      (u.port p).rxNext = (s.port p).rxNext ∧
      (u.port p).held = (s.port p).held.drop (q.rxNext - (s.port p).txOldest).toNat) ∧
  (∀ (s : State) (p : Fin 32) (e : AttemptErr) (r : Nat), s.alive = true → tries (s.port p) = true →
    nextRung (s.port p).cfg (s.port p).pos = some r →
    exec (.attemptFail p e) s = .next (s.setPort p { lockedRung (s.port p) with
      attempting := false, waiting := some (ageNow s), peer := none, ackSent := false, ackGot := false, hs := {} })) ∧
  (∀ (s : State) (p : Fin 32) (a b : Byte) (r : Nat), s.alive = true → tries (s.port p) = true → (s.port p).hs.active = false →
    nextRung (s.port p).cfg (s.port p).pos = some r →
    exec (.attemptTimeout p a b) s = .next (s.setPort p { s.port p with
      lockLocal := a, lockPartner := b, attempting := false, waiting := some (ageNow s), peer := none, ackSent := false, ackGot := false
      hs := {} })) ∧
  (∀ (s : State) (p : Fin 32) (e : AttemptErr) (a b : Byte) (c : Instr), c ∈ [Instr.attemptFail p e, .attemptTimeout p a b] →
    s.alive = true → tries (s.port p) = true → (s.port p).hs.active = false → nextRung (s.port p).cfg (s.port p).pos = none →
    Runs c s (touches c) fun u => (u.port p).state = .failed ∧ bit (u.port p).ev 3 = true ∧ (u.port p).held = [] ∧
      (u.port p).retryAt = if (s.port p).retries < 4 then some (s.clk.now + 244141) else none) ∧
  (∀ (s : State) (p : Fin 32) (t : Nat), s.alive = true → procRuns s .fmp = true → (s.port p).state = .failed →
    (s.port p).retryAt = some t → (s.port p).retries < 4 → t ≤ s.clk.now →
    Runs (.failedRetry p) s [.ports] fun u => (u.port p).state = .detect ∧ (u.port p).retries = (s.port p).retries + 1 ∧
      (u.port p).retryAt = none ∧ (u.port p).waiting = none ∧ ∀ n : Nat, n ≠ p.val → u.port n = s.port n) ∧
  (∀ (s : State) (p : Fin 32) (q : Params), s.alive = true → tries (s.port p) = true → q.modeReq.toNat ≤ 1 → q.window ≠ 0 →
    q.window.toNat ≤ 2048 → q.isSealed = 0 → bit (s.port p).use 6 = false →
    Runs (.params p q) s (touches (.params p q)) fun u =>
      u.port p = { s.port p with peer := some q, ackSent := true, sinceIdle := (u.port p).sinceIdle } ∧
      ∃ f, framedOut s u p f ∧ f.payload = padPayload ([0x02] ++ List.replicate 15 0)) ∧
  (∀ (s : State) (p : Fin 32) (q : Params) (r : Nat), s.alive = true → tries (s.port p) = true →
    (1 < q.modeReq.toNat ∨ q.window = 0 ∨ 2048 < q.window.toNat ∨ 1 < q.isSealed.toNat) →
    nextRung (s.port p).cfg (s.port p).pos = some r →
    Runs (.params p q) s (touches (.params p q)) fun u => (u.port p).attempting = false ∧ (u.port p).waiting = some (ageNow s) ∧ u.out = s.out) ∧
  (∀ (s : State) (p : Fin 32) (q : Params), s.alive = true → tries (s.port p) = true → q.modeReq.toNat ≤ 1 → q.window ≠ 0 →
    q.window.toNat ≤ 2048 → q.isSealed.toNat ≤ 1 → bit (s.port p).use 6 ≠ decide (q.isSealed = 1) →
    Runs (.params p q) s (touches (.params p q)) fun u => (u.port p).state = .failed ∧ (u.port p).cause = 0x0B) ∧
  (∀ (s : State) (p : Fin 32), s.alive = true → tries (s.port p) = true → bit (s.port p).use 6 = false →
    exec (.paramsAck p) s = .next (s.setPort p { s.port p with ackGot := true })) ∧
  (∀ (s : State) (p : Fin 32), s.alive = true → tries (s.port p) = true → ¬ ((s.port p).peer.isSome = true ∧ (s.port p).ackSent = true) →
    Runs (.paramsResend p) s [.ports, .out] fun u => ∃ f, framedOut s u p f ∧ f.payload = padPayload (paramsBytes (ownParams (s.port p)))) ∧
  (∀ (s : State) (fn : Fn) (p : Fin 32), adminBus s fn → (s.port p).state = .up →
    Runs (.lnkRetrain fn p) s (touches (.lnkRetrain fn p)) fun u => leftUp s u p 8 ∧
      if (s.port p).lean then (u.port p).held = [] ∧ (u.port p).txNext = 0
      else (u.port p).kept = true ∧ (u.port p).held = (s.port p).held ∧ (u.port p).txNext = (s.port p).txNext) ∧
  (∀ (s : State) (fn : Fn) (p : Fin 32), adminBus s fn → (s.port p).state = .failed →
    Runs (.lnkRetrain fn p) s (touches (.lnkRetrain fn p)) fun u => (u.port p).state = .detect ∧ (u.port p).retries = 0) ∧
  (∀ (s : State) (fn : Fn) (p : Fin 32), adminBus s fn → (s.port p).state = .disabled → stationDown s (portStation p) = false →
    Runs (.lnkEnable fn p) s [.ports] fun u => (u.port p).state = .detect ∧ ∀ n : Nat, n ≠ p.val → u.port n = s.port n) ∧
  (∀ (s : State) (fn : Fn) (p : Fin 32), adminBus s fn → (s.port p).state ≠ .disabled →
    Runs (.lnkDisable fn p) s (touches (.lnkDisable fn p)) fun u => (u.port p).state = .disabled ∧ (u.port p).held = [] ∧
      (u.port p).sess = none ∧ (u.port p).fwd = [] ∧ (u.port p).txNext = 0 ∧
      (u.port p).epochOwn = if (s.port p).state = .up ∨ (s.port p).kept = true then (s.port p).epochOwn + 1 else (s.port p).epochOwn)

/-- R140 to R145, R150 to R153: a frame in order is taken, acknowledges and returns credits; one ahead of the next asks once for a replay; a
repeated one is counted; a bad one, a lost one, a failed tag or a bad acknowledgement is met as its rule says; Lean mode forgives nothing;
RETRAIN_REQ
and the loss of lock take the port out of UP. -/
def Obligations.FramesAreTakenInOrder : Prop :=
  (∀ (s : State) (p : Fin 32) (f : Frame) (alt : Bool) (b : List Byte), frameGood s p f → sequenced f.hdr = true → goodAck (s.port p) f.hdr →
    f.hdr.seq = (s.port p).rxNext → 0 < (s.port p).window → openPayload (s.port p) 0 f = some b →
    Runs (.data p f alt) s (touches (.data p f alt)) fun u => (u.port p).rxNext = (s.port p).rxNext + 1 ∧ (u.port p).gap = false ∧
      ((u.port p).credit f.hdr.vc.toNat).rx =
        (if lmcDiscarded f b then ((s.port p).credit f.hdr.vc.toNat).rx else ((s.port p).credit f.hdr.vc.toNat).rx + 1) ∧
      (u.port p).held = heldAfter (s.port p) f.hdr ∧ u.out = s.out) ∧
  (∀ (s : State) (p : Fin 32) (f : Frame) (alt : Bool), frameGood s p f → sequenced f.hdr = true → goodAck (s.port p) f.hdr →
    bit (s.port p).ev 5 = false → (openPayload (s.port p) (f.hdr.seq - (s.port p).rxNext).toNat f).isSome = true →
    0 < (f.hdr.seq - (s.port p).rxNext).toNat →
    (f.hdr.seq - (s.port p).rxNext).toNat < (s.port p).window → (f.hdr.seq - (s.port p).rxNext).toNat ≤ 2047 → (s.port p).gap = false →
    Runs (.data p f alt) s (touches (.data p f alt)) fun u => (u.port p).rxNext = (s.port p).rxNext ∧ (u.port p).gap = true ∧
      ∃ g, framedOut s u p g ∧ g.hdr.ftype = 3 ∧ g.hdr.ack = (s.port p).rxNext - 1) ∧
  (∀ (s : State) (p : Fin 32) (f : Frame) (alt : Bool), frameGood s p f → sequenced f.hdr = true → goodAck (s.port p) f.hdr →
    bit (s.port p).ev 5 = false → (openPayload (s.port p) (f.hdr.seq - (s.port p).rxNext).toNat f).isSome = true →
    2048 ≤ (f.hdr.seq - (s.port p).rxNext).toNat → (s.port p).window ≤ 2048 →
    Runs (.data p f alt) s (touches (.data p f alt)) fun u => (u.port p).rxNext = (s.port p).rxNext ∧
      (u.port p).dups = sat32 (s.port p).dups 1 ∧ ∃ g, framedOut s u p g ∧ g.hdr.ftype = 2) ∧
  (∀ (s : State) (p : Fin 32) (f : Frame) (alt : Bool), frameGood s p f → sequenced f.hdr = true →
    (s.port p).window ≤ (f.hdr.seq - (s.port p).rxNext).toNat → (f.hdr.seq - (s.port p).rxNext).toNat ≤ 2047 →
    Runs (.data p f alt) s (touches (.data p f alt)) fun u => leftUp s u p 3) ∧
  (∀ (s : State) (p : Fin 32) (f : Frame) (alt : Bool), frameGood s p f → sequenced f.hdr = true →
    ¬ ((s.port p).window ≤ (f.hdr.seq - (s.port p).rxNext).toNat ∧ (f.hdr.seq - (s.port p).rxNext).toNat ≤ 2047) →
    openPayload (s.port p) (f.hdr.seq - (s.port p).rxNext).toNat f = none →
    Runs (.data p f alt) s (touches (.data p f alt)) fun u => leftUp s u p 9) ∧
  (∀ (s : State) (p : Fin 32) (f : Frame) (alt : Bool) (c : Instr), c ∈ [Instr.data p f alt, .idle p f, .replayReq p f] →
    s.alive = true → sureUp s p = true → (crcOk f = false ∨ malformed f.hdr = true) →
    Runs c s (touches c) fun u => (u.port p).crcErr = sat32 (s.port p).crcErr 1 ∧ (u.port p).gap = true ∧
      (u.port p).rxNext = (s.port p).rxNext) ∧
  (∀ (s : State) (p : Fin 32) (f : Frame), frameGood s p f → goodAck (s.port p) f.hdr →
    Runs (.idle p f) s (touches (.idle p f)) fun u => (u.port p).held = heldAfter (s.port p) f.hdr ∧
      (u.port p).rxNext = (s.port p).rxNext ∧
      (u.port p).credit f.hdr.crdVc.toNat = { (s.port p).credit f.hdr.crdVc.toNat with
        have_ := ((s.port p).credit f.hdr.crdVc.toNat).have_ + (f.hdr.crdCount - ((s.port p).credit f.hdr.crdVc.toNat).seen).toNat
        seen := f.hdr.crdCount }) ∧
  (∀ (s : State) (p : Fin 32) (f : Frame), frameGood s p f → ¬ goodAck (s.port p) f.hdr →
    Runs (.idle p f) s (touches (.idle p f)) fun u => leftUp s u p 4) ∧
  (∀ (s : State) (p : Fin 32) (f : Frame), frameGood s p f → goodAck (s.port p) f.hdr → f.hdr.ackValid = true →
    Runs (.replayReq p f) s (touches (.replayReq p f)) fun u => (u.port p).held = heldAfter (s.port p) f.hdr ∧
      if f.hdr.ack + 1 = (s.port p).txNext then (u.port p).replay = none
      else (u.port p).replay = some (f.hdr.ack + 1) ∧ (u.port p).replays = sat32 (s.port p).replays 1) ∧
  (∀ (s : State) (p : Fin 32) (f : Frame), s.alive = true → (s.port p).state = .up → (s.port p).lean = true → malformed f.hdr = false →
    f.trailer = 0 → (sequenced f.hdr = true → f.hdr.seq = (s.port p).rxNext ∧ (openPayload (s.port p) 0 f).isSome = true) →
    Runs (.leanFrameReceive p f false false) s (touches (.leanFrameReceive p f false false)) fun u => (u.port p).state = .up ∧
      (u.port p).rxNext = (if sequenced f.hdr then (s.port p).rxNext + 1 else (s.port p).rxNext) ∧
      ((u.port p).credit f.hdr.crdVc.toNat).seen = f.hdr.crdCount) ∧
  (∀ (s : State) (p : Fin 32) (f : Frame) (lockLost parity : Bool), s.alive = true → (s.port p).state = .up → (s.port p).lean = true →
    (lockLost = true ∨ parity = true ∨ malformed f.hdr = true ∨ f.trailer ≠ 0 ∨
      (sequenced f.hdr = true ∧ (f.hdr.seq ≠ (s.port p).rxNext ∨ openPayload (s.port p) 0 f = none))) →
    Runs (.leanFrameReceive p f lockLost parity) s (touches (.leanFrameReceive p f lockLost parity)) fun u =>
      leftUp s u p (if lockLost then 6 else if parity then 2 else if malformed f.hdr ∨ f.trailer ≠ 0 then 1
        else if f.hdr.seq ≠ (s.port p).rxNext then 3 else 9)) ∧
  (∀ (s : State) (p : Fin 32) (f : Frame) (parity : Bool) (cause : Byte), frameGood s p f → goodAck (s.port p) f.hdr →
    Runs (.retrainReq p f parity cause) s (touches (.retrainReq p f parity cause)) fun u => leftUp s u p 7) ∧
  (∀ (s : State) (p : Fin 32) (f : Frame) (cause : Byte), s.alive = true → (s.port p).state = .up → (s.port p).lean = true →
    malformed f.hdr = false → f.trailer = 0 →
    Runs (.retrainReq p f false cause) s (touches (.retrainReq p f false cause)) fun u => leftUp s u p 7) ∧
  (∀ (s : State) (p : Fin 32), s.alive = true → (s.port p).state = .up →
    Runs (.laneLockLoss p) s (touches (.laneLockLoss p)) fun u => leftUp s u p 6)

/-- R130, R140, R144, R145, R152, Table 6.7: a message leaves in a frame at TX_NEXT, takes a credit and is held until acknowledged; IDLE
returns credits; while the reference clock is missing nothing leaves (R85); the replay timer starts a replay from the oldest frame, or the
port trains again, but not against an acknowledgement of the same cycle (R148); a replayed frame goes out with its own
sequence number and a fresh acknowledgement. -/
def Obligations.FramesAreSentAndReplayed : Prop :=
  (∀ (s : State) (p : Fin 32) (vc : Fin 5) (it : TxItem) (q : List TxItem), s.alive = true → (s.port p).state = .up →
    bit (s.port p).ev 5 = false → (s.port p).replay = none → ((s.port p).lean = true ∨ (s.port p).held.length < (s.port p).window) →
    0 < ((s.port p).credit vc.val).have_ → takeMsg vc.val (Tbl.get 32 (s.port p).turn vc.val) (s.port p).txq = some (it, q) →
    Runs (.frameSend p vc) s (touches (.frameSend p vc)) fun u => ∃ f, framedOut s u p f ∧ f.hdr.seq = (s.port p).txNext ∧
      f.hdr.vc = BitVec.ofNat 3 vc.val ∧ f.hdr.ack = (s.port p).rxNext - 1 ∧
      ((s.port p).sess = none → f.payload = padPayload it.bytes) ∧ (u.port p).txNext = (s.port p).txNext + 1 ∧ (u.port p).txq = q ∧
      ((u.port p).credit vc.val).have_ = ((s.port p).credit vc.val).have_ - 1 ∧
      (u.port p).held = (if (s.port p).lean then [] else (s.port p).held ++ [{ frame := f, item := it }]) ∧
      (u.port p).fwd = (s.port p).fwd ++ (match it.fwd with | some a => [(a, it.msg)] | none => [])) ∧
  (∀ (s : State) (p : Fin 32) (crdVc : Fin 5), s.alive = true → (s.port p).state = .up → bit (s.port p).ev 5 = false →
    Runs (.idleSend p crdVc) s [.ports, .out] fun u => (u.port p).sinceIdle = 0 ∧ ∃ f, framedOut s u p f ∧ f.hdr.ftype = 2 ∧
      f.hdr.crdVc = BitVec.ofNat 3 crdVc.val ∧ f.hdr.crdCount = ((s.port p).credit crdVc.val).ret ∧ f.hdr.ack = (s.port p).rxNext - 1) ∧
  (∀ (s : State) (p : Fin 32) (vc crdVc : Fin 5) (c : Instr), c ∈ [Instr.frameSend p vc, .idleSend p crdVc, .replayResend p crdVc] →
    bit (s.port p).ev 5 = true → exec c s = .next s) ∧
  (∀ (s : State) (p : Fin 32), exec (.replayTimer { port := p, acked := true }) s = .next s) ∧
  (∀ (s : State) (p : Fin 32), s.alive = true → sureUp s p = true → (s.port p).timer = true → (s.port p).held ≠ [] →
    (s.port p).held.length < 4096 → (s.port p).replayCount + 1 ≠ bits (s.port p).use 23 20 →
    Runs (.replayTimer { port := p, acked := false }) s (touches (.replayTimer { port := p, acked := false })) fun u => (u.port p).replay = some (s.port p).txOldest ∧
      (u.port p).replayCount = (s.port p).replayCount + 1 ∧ (u.port p).replays = sat32 (s.port p).replays 1 ∧
      (u.port p).held = (s.port p).held) ∧
  (∀ (s : State) (p : Fin 32), s.alive = true → sureUp s p = true → (s.port p).timer = true → (s.port p).held ≠ [] →
    (s.port p).replayCount + 1 = bits (s.port p).use 23 20 →
    Runs (.replayTimer { port := p, acked := false }) s (touches (.replayTimer { port := p, acked := false })) fun u => leftUp s u p 5) ∧
  (∀ (s : State) (p : Fin 32) (crdVc : Fin 5) (ptr : BitVec 12) (h : Held), s.alive = true → (s.port p).state = .up →
    bit (s.port p).ev 5 = false → (s.port p).replay = some ptr → (s.port p).held[(ptr - (s.port p).txOldest).toNat]? = some h →
    Runs (.replayResend p crdVc) s [.ports, .out] fun u =>
      (u.port p).replay = (if ptr + 1 = (s.port p).txNext then none else some (ptr + 1)) ∧ (u.port p).held = (s.port p).held ∧
      ∃ f, framedOut s u p f ∧ f.hdr.seq = h.frame.hdr.seq ∧ f.payload = h.frame.payload ∧ f.hdr.ack = (s.port p).rxNext - 1)

/-! ## Fabric transport (chapter 7) -/

/-- R160, R166: an accepted request's number is below the next number, and no two requests share one; every command keeps it. It is an
invariant of the model's own numbering, which the statements on requests start from. -/
def Obligations.RequestNumbersStayFresh : Prop :=
  ∀ (s t : State), reqsFresh s → step s = .next t → reqsFresh t

/-- R160, R165, R199, R200, R226, R255, R257: a read that passes the checks is accepted under its stream's timer, and waits while an earlier
request of its stream has still to start; off a coherent tile its line joins its controller's queue; on one it goes there under a tracker,
and first snoops an owner. -/
def Obligations.ReadsAreQueuedAtTheirController : Prop :=
  (∀ (s : State) (p : Fin 32) (m : Msg) (e : TileEnt) (c : Instr) (n : BitVec 8),
    (c, n) ∈ [(Instr.rdShared p m, 1), (.rdUnique p m, 2), (.rdOnce p m, 3), (.mcastRead p m, 9)] →
    reqPasses s p { m with opcode := n } e → inTurn s { m with opcode := n } = true → e.coherent = false →
    Runs c s (touches c) fun u => ∃ v, u = settle v ∧ accepted s v p { m with opcode := n } .run ∧
      readQueued s v e.tier (reqFirstLine m e) e.keyT s.serialNo ∧ v.dram.mem = s.dram.mem ∧ v.dir = s.dir) ∧
  (∀ (s : State) (p : Fin 32) (m : Msg) (e : TileEnt) (c : Instr) (n : BitVec 8),
    (c, n) ∈ [(Instr.rdShared p m, 1), (.rdUnique p m, 2), (.rdOnce p m, 3), (.evictClean p m, 7), (.mcastRead p m, 9)] →
    reqPasses s p { m with opcode := n } e → inTurn s { m with opcode := n } = false →
    (n = 1 ∨ n = 2 → e.coherent = true → (registerAgent m.src s).isSome = true) →
    Runs c s (touches c) fun u => ∃ v, u = settle v ∧ accepted s v p { m with opcode := n } .order ∧ v.dram = s.dram) ∧
  (∀ (s : State) (p : Fin 32) (m : Msg) (e : TileEnt) (c : Instr) (n : BitVec 8),
    (c, n) ∈ [(Instr.rdShared p m, 1), (.rdUnique p m, 2), (.rdOnce p m, 3), (.mcastRead p m, 9)] →
    reqPasses s p { m with opcode := n } e → inTurn s { m with opcode := n } = true → e.coherent = true →
    recallOwed s e.tier (reqFirstLine m e) = false → s.dir.pend = [] → trkAt s e.tier (reqFirstLine m e) = none →
    trkFree s (reqFirstLine m e) = true → findEnt s e.tier (reqFirstLine m e) = none →
    (n = 1 ∨ n = 2 → (registerAgent m.src s).isSome = true ∧
      ∃ w ∈ setSlots (reqFirstLine m e), (s.ent w).st = .i ∧ ∀ k ∈ s.dir.trks, k.slot ≠ some w) →
    Runs c s (touches c) fun u => ∃ v k, u = settle v ∧ accepted s v p { m with opcode := n } .run ∧
      readQueued s v e.tier (reqFirstLine m e) e.keyT s.serialNo ∧ v.dir.trks = s.dir.trks ++ [k] ∧ k.st = .sd ∧ k.tier = e.tier ∧
      k.line = reqFirstLine m e ∧ k.req = some s.serialNo ∧ k.waits = [] ∧ k.agent = agentOf v m.src ∧
      (n = 1 ∨ n = 2 → k.slot.isSome = true ∧ k.agent.isSome = true) ∧ v.dir.ents = s.dir.ents) ∧
  (∀ (s : State) (p : Fin 32) (m : Msg) (e : TileEnt) (c : Instr) (n : BitVec 8) (slot a b : Nat),
    (c, n) ∈ [(Instr.rdShared p m, 1), (.rdUnique p m, 2)] → reqPasses s p { m with opcode := n } e →
    inTurn s { m with opcode := n } = true → e.coherent = true → recallOwed s e.tier (reqFirstLine m e) = false →
    s.dir.pend = [] → trkAt s e.tier (reqFirstLine m e) = none → trkFree s (reqFirstLine m e) = true →
    findEnt s e.tier (reqFirstLine m e) = some slot → entLive s (s.ent slot) = true → ((s.ent slot).st = .e ∨ (s.ent slot).st = .m) →
    (s.ent slot).ptrs = [b] → agentOf s m.src = some a → a ≠ b →
    Runs c s (touches c) fun u => ∃ v k, u = settle v ∧ accepted s v p { m with opcode := n } .run ∧ v.dram = s.dram ∧
      v.dir.trks = s.dir.trks ++ [k] ∧ k.st = .sd ∧ k.slot = some slot ∧ k.req = some s.serialNo ∧
      k.waits = [{ agent := b, expiry := s.clk.now + bits s.dir.cfg 7 0 }] ∧
      ∀ ep q, Tbl.get none s.dir.agents b = some ep → egressTo s ep.toNat = some q →
        sent s v q (msgItem { opcode := if n = 1 then 0x20 else 0x21, dst := ep, src := s.xpt.endpoint, len := BitVec.ofNat 32 (handleOf slot) }))

/-- R158, R160, R165, R166, R257: a write that passes the checks is accepted and awaits its data, a non-idempotent one in its stream's
record; with the last of its data it joins its controller's queue, or waits for an earlier write; EVICT_CLEAN is answered. -/
def Obligations.WritesAwaitDataAndStart : Prop :=
  (∀ (s : State) (p : Fin 32) (m : Msg) (e : TileEnt) (c : Instr) (n : BitVec 8),
    (c, n) ∈ [(Instr.wrFull p m, 4), (.wrStash p m, 5), (.wbDirty p m, 6), (.atOp p m, 8)] → reqPasses s p { m with opcode := n } e →
    Runs c s (touches c) fun u => ∃ v, u = settle v ∧ accepted s v p { m with opcode := n } .data ∧ v.dram = s.dram ∧ v.dir = s.dir ∧
      (msgNonIdem { m with opcode := n } = true → (v.stream m.stream.toNat).record =
        ({ rseq := m.rseq } : RecEntry) :: (s.stream m.stream.toNat).record.take 63)) ∧
  (∀ (s : State) (p : Fin 32) (m : Msg) (e : TileEnt), reqPasses s p { m with opcode := 7 } e → inTurn s { m with opcode := 7 } = true →
    e.coherent = false →
    Runs (.evictClean p m) s (touches (.evictClean p m)) fun u => ∃ v, u = settle v ∧ v.dram = s.dram ∧ v.dir = s.dir ∧
      sent s v p.val { msgItem (rspMsg s m .ok 0) with req := some s.serialNo, last := true }) ∧
  (∀ (s : State) (p : Fin 32) (m : Msg) (e : TileEnt) (a slot : Nat), reqPasses s p { m with opcode := 7 } e →
    inTurn s { m with opcode := 7 } = true → e.coherent = true →
    agentOf s m.src = some a → awaitedOn s e.tier (reqFirstLine m e) a = none → findEnt s e.tier (reqFirstLine m e) = some slot →
    a ∈ (s.ent slot).ptrs →
    Runs (.evictClean p m) s (touches (.evictClean p m)) fun u => ∃ v, u = settle v ∧ v.dram = s.dram ∧
      v.ent slot = dropPtr (s.ent slot) a ∧ v.dir.trks = s.dir.trks ∧
      sent s v p.val { msgItem (rspMsg s m .ok 0) with req := some s.serialNo, last := true }) ∧
  (∀ (s : State) (p : Fin 32) (m : Msg) (r : OReq), comesIn s p m → reqsFresh s →
    (s.reqs.find? fun r => decide (r.phase = .data) && decide (r.msg.src = m.src) && decide (r.msg.stream = m.stream) &&
      decide (r.msg.rseq = m.rseq)) = some r → r.got.length + (trimMsg m).data.length < msgDataLen r.msg →
    Runs (.datWrite p m) s (touches (.datWrite p m)) fun u => u.dram = s.dram ∧ u.dir = s.dir ∧
      u.reqs = s.reqs.map fun x => if x.id = r.id
        then { r with got := r.got ++ (trimMsg m).data, bad := if m.poisoned then r.bad ++ [r.got.length] else r.bad } else x) ∧
  (∀ (s : State) (p : Fin 32) (m : Msg) (r : OReq), comesIn s p m → reqsFresh s →
    (s.reqs.find? fun r => decide (r.phase = .data) && decide (r.msg.src = m.src) && decide (r.msg.stream = m.stream) &&
      decide (r.msg.rseq = m.rseq)) = some r → msgDataLen r.msg ≤ r.got.length + (trimMsg m).data.length →
    (r.msg.opcode = 4 ∨ r.msg.opcode = 5 ∨ r.msg.opcode = 6 ∨ r.msg.opcode = 8) → r.coh = false → orderBlocked s r = false →
    Runs (.datWrite p m) s (touches (.datWrite p m)) fun u => ∃ v o, u = settle v ∧ v.dram.queue = s.dram.queue ++ [o] ∧
      o.write = true ∧ o.tier = r.tier ∧ o.line = (reqLine r).2 ∧ o.keyT = r.keyT ∧ o.cont = .req r.id ∧
      (r.msg.opcode = 4 → o.off = (reqChunk r).1 ∧ o.data = ((r.got ++ (trimMsg m).data).drop r.pos).take (reqChunk r).2) ∧
      (r.msg.opcode = 5 ∨ r.msg.opcode = 6 → o.off = 0 ∧ o.data = (r.got ++ (trimMsg m).data).take 128) ∧
      (r.msg.opcode = 8 → o.off = (reqChunk r).1 ∧ o.atomic = some ((r.msg.opargs.headD 0).toNat, r.msg.len.toNat) ∧
        o.data = r.got ++ (trimMsg m).data) ∧ v.dram.mem = s.dram.mem) ∧
  (∀ (s : State) (p : Fin 32) (m : Msg) (r : OReq), comesIn s p m → reqsFresh s →
    (s.reqs.find? fun r => decide (r.phase = .data) && decide (r.msg.src = m.src) && decide (r.msg.stream = m.stream) &&
      decide (r.msg.rseq = m.rseq)) = some r → msgDataLen r.msg ≤ r.got.length + (trimMsg m).data.length →
    orderBlocked s r = true →
    Runs (.datWrite p m) s (touches (.datWrite p m)) fun u => ∃ v, u = settle v ∧ v.dram = s.dram ∧
      v.reqs = s.reqs.map fun x => if x.id = r.id
        then { r with got := r.got ++ (trimMsg m).data, bad := if m.poisoned then r.bad ++ [r.got.length] else r.bad, phase := .order } else x)

/-- R158, R160 to R163, R169, R170: a REQ that fails a check is answered with its status; a reserved message is discarded and counted; a
message for another endpoint leaves by its route; multicast data goes to every port of its group but the one it came by, and to the
node's own memory; MCAST_READ is answered when its last copy is gone. -/
def Obligations.MessagesAreAnsweredOrPassedOn : Prop :=
  (∀ (s : State) (p : Fin 32) (m : Msg), comesIn s p m → ¬ (1 ≤ m.opcode.toNat ∧ m.opcode.toNat ≤ 9) →
    Runs (.reqReserved p m) s (touches (.reqReserved p m)) fun u => u.reqs = s.reqs ∧ u.dram = s.dram ∧
      sent s u p.val { msgItem (rspMsg s m .unsupported 0) with ans := true, tags := [s.tagOf bindInst] }) ∧
  (∀ (s : State) (p : Fin 32) (m : Msg) (st : Status) (c : Instr) (n : BitVec 8),
    (c, n) ∈ [(Instr.rdShared p m, 1), (.rdUnique p m, 2), (.rdOnce p m, 3), (.wrFull p m, 4), (.wrStash p m, 5), (.wbDirty p m, 6),
      (.evictClean p m, 7), (.atOp p m, 8), (.mcastRead p m, 9)] →
    comesIn s p m → checks2to5 s { m with opcode := n } = some st →
    Runs c s (touches c) fun u => u.reqs = s.reqs ∧ u.dram = s.dram ∧
      sent s u p.val { msgItem (rspMsg s m st 0) with ans := true, tags := [s.tagOf bindInst, s.tagOf (admInst m.tenant.toNat), s.tagOf streamInst] }) ∧
  (∀ (s : State) (p : Fin 32) (cls : MsgClass) (m : Msg) (q : Nat), s.alive = true → delivers s p.val = true →
    s.bound m.src.toNat p.val = true → isLocal s m = false → egressTo s m.dst.toNat = some q →
    ((cls = .req ∧ m.dst ≠ 0xFFF) ∨ (cls ≠ .req ∧ opReserved cls m.opcode.toNat = false ∧ forStale s p cls m = false)) →
    Runs (.forward p cls m) s (touches (.forward p cls m)) fun u => u.reqs = s.reqs ∧ u.dram = s.dram ∧
      sent s u q { msgItemAs cls (if cls = .req then m else trimMsg m) with
        fwd := if cls = .req then some p else none, origin := p.val, tags := [s.tagOf bindInst, s.tagOf routeInst] } ∧
      ∀ n, n ≠ q → (u.port n).txq = (s.port n).txq) ∧
  (∀ (s : State) (p : Fin 32) (m : Msg) (q : Nat), s.alive = true → delivers s p.val = true → s.bound m.src.toNat p.val = true →
    isLocal s m = false → egressTo s m.dst.toNat = some q → forStale s p .dat m = true →
    Runs (.forward p .dat m) s [.ports] fun u => ∀ n, (u.port n).txq = (s.port n).txq) ∧
  (∀ (s : State) (p : Fin 32) (cls : MsgClass) (m : Msg), s.alive = true → delivers s p.val = true → s.bound m.src.toNat p.val = true →
    cls ≠ .req → opReserved cls m.opcode.toNat = true →
    Runs (.reservedOpcodeDiscard p cls m) s [.ports, .xpt] fun u => u.xpt = { s.xpt with discard := sat32 s.xpt.discard 1 } ∧
      ∀ n, (u.port n).txq = (s.port n).txq) ∧
  (∀ (s : State) (p : Fin 32) (m : Msg), s.alive = true → delivers s p.val = true → s.bound m.src.toNat p.val = true →
    s.mcValid m.aux.toNat = true → ((s.mcWord m.aux.toNat 1).testBit 30 = false ∨ m.data = []) →
    Runs (.mcastData p m) s (touches (.mcastData p m)) fun u => u.reqs = s.reqs ∧ u.dram = s.dram ∧
      ∀ n < 32, if (s.mcWord m.aux.toNat 0).testBit n = true ∧ n ≠ p.val ∧ portUsable s n = true
        then sent s u n { msgItem { trimMsg m with opcode := 0x62, aux := BitVec.ofNat 8 (mcDown (s.mcEntry m.aux.toNat) n) } with
          origin := p.val, tags := [s.tagOf mcInst] }
        else (u.port n).txq = (s.port n).txq) ∧
  (∀ (s : State) (p : Fin 32) (m : Msg) (e : TileEnt) (va : Nat), s.alive = true → delivers s p.val = true → reqsFresh s →
    s.bound m.src.toNat p.val = true → s.mcValid m.aux.toNat = true → (s.mcWord m.aux.toNat 1).testBit 30 = true → m.data ≠ [] →
    va = ((s.mcWord m.aux.toNat 3 % 65536) * 2 ^ 32 + s.mcWord m.aux.toNat 2 / 128 * 128 + m.len.toNat) % 2 ^ 48 →
    va % 128 + m.data.length ≤ 128 → (s.tenant (s.mcWord m.aux.toNat 1 % 128)).state = .live →
    translate s (s.mcWord m.aux.toNat 1 % 128) va true = .ok e → e.coherent = false →
    Runs (.mcastData p m) s (touches (.mcastData p m)) fun u => ∃ v o, u = settle v ∧ v.dram.queue = s.dram.queue ++ [o] ∧
      o.write = true ∧ o.tier = e.tier ∧ o.line = e.phys * 16384 + lineIdx va ∧ o.keyT = e.keyT ∧ o.off = va % 128 ∧ o.data = m.data ∧
      v.dram.mem = s.dram.mem) ∧
  (∀ (s : State) (k : BitVec 12) (rseq : BitVec 16) (r : OReq), s.alive = true → reqsFresh s →
    (s.reqs.find? fun r => decide (r.msg.stream = k) && decide (r.msg.rseq = rseq) && r.endSt.isSome && decide (r.toHand = 0) &&
      decide (r.phase = .run)) = some r → r.msg.opcode = 9 → r.silent = false → portUsable s r.port.val = true →
    Runs (.mcastReadComplete k rseq) s [.streams, .reqs, .ports] fun u =>
      sent s u r.port.val { msgItem (rspMsg s r.msg
        (if r.endSt ≠ some .ok then r.endSt.getD .ok else if r.drops = 0 then .ok else .linkLost) r.pos) with req := some r.id, last := true } ∧
      u.streams = s.streams)

/-- R253, R255 to R259: an agent's answer is counted towards the tracker that awaits it, its data written back; the last answer settles the
entry and lets the request go on, or frees a recalled entry; COMP_ACK ends a grant, and an offer is taken or declined; an answer from an
endpoint that is no agent is stray. -/
def Obligations.AgentsAnswerTheDirectory : Prop :=
  (∀ (s : State) (p : Fin 32) (m : Msg) (a : Nat) (k : Trk) (c : Instr) (kept : Bool),
    (c, kept) ∈ [(Instr.snpAckInv p m, k.kept), (.snpAckShared p m, true)] → comesIn s p m → agentOf s m.src = some a →
    awaited s m.len.toNat a [.sd, .rc] = some k → (k.waits.filter fun w => decide (w.agent ≠ a)) ≠ [] →
    Runs c s (touches c) fun u => ∃ v, u = settle v ∧ v.dir.ents = s.dir.ents ∧ v.dram = s.dram ∧
      v.dir.trks = s.dir.trks.map fun x => if x.tier = k.tier ∧ x.line = k.line
        then { k with waits := k.waits.filter fun w => decide (w.agent ≠ a), kept } else x) ∧
  (∀ (s : State) (p : Fin 32) (m : Msg) (a : Nat) (k : Trk) (c : Instr) (kept : Bool),
    (c, kept) ∈ [(Instr.datSnpS p m, true), (.datSnpI p m, k.kept)] → comesIn s p m → agentOf s m.src = some a →
    awaited s m.len.toNat a [.sd, .rc] = some k → (k.waits.filter fun w => decide (w.agent ≠ a)) ≠ [] → k.drop = false →
    Runs c s (touches c) fun u => ∃ v o, u = settle v ∧ v.dir.ents = s.dir.ents ∧ v.dram.queue = s.dram.queue ++ [o] ∧ o.write = true ∧
      o.tier = k.tier ∧ o.line = k.line ∧ o.keyT = k.keyT ∧ o.data = ((trimMsg m).data ++ List.replicate 128 0).take 128 ∧ o.bad = m.poisoned ∧
      v.dir.trks = s.dir.trks.map fun x => if x.tier = k.tier ∧ x.line = k.line
        then { k with waits := k.waits.filter fun w => decide (w.agent ≠ a), kept } else x) ∧
  (∀ (s : State) (p : Fin 32) (m : Msg) (a : Nat) (k : Trk) (slot : Nat) (c : Instr),
    c ∈ [Instr.snpAckInv p m, .snpAckShared p m, .datSnpS p m, .datSnpI p m] → comesIn s p m → agentOf s m.src = some a →
    awaited s m.len.toNat a [.sd, .rc] = some k → (k.waits.filter fun w => decide (w.agent ≠ a)) = [] → k.st = .rc → k.slot = some slot →
    Runs c s (touches c) fun u => ∃ v, u = settle v ∧ v.ent slot = {} ∧
      v.dir.trks = (s.dir.trks.filter fun x => !(decide (x.tier = k.tier) && decide (x.line = k.line)))) ∧
  (∀ (s : State) (p : Fin 32) (m : Msg) (a : Nat) (k : Trk) (slot : Nat) (r : OReq) (c : Instr) (kept : Bool),
    (c, kept) ∈ [(Instr.snpAckInv p m, k.kept), (.snpAckShared p m, true)] → comesIn s p m → agentOf s m.src = some a →
    awaited s m.len.toNat a [.sd, .rc] = some k → (k.waits.filter fun w => decide (w.agent ≠ a)) = [] → k.st = .sd → k.slot = some slot →
    k.engine = none → k.req = some r.id → s.req r.id = some r → (r.msg.opcode = 1 ∨ r.msg.opcode = 3) →
    Runs c s (touches c) fun u => ∃ v, u = settle v ∧ v.ent slot = (if kept then { s.ent slot with st := .s } else {}) ∧
      readQueued s v (reqLine r).1 (reqLine r).2 r.keyT r.id) ∧
  (∀ (s : State) (p : Fin 32) (m : Msg) (a : Nat) (k : Trk), comesIn s p m → agentOf s m.src = some a →
    awaited s m.len.toNat a [.ga] = some k →
    Runs (.compAck p m) s (touches (.compAck p m)) fun u => ∃ v, u = settle v ∧ v.dir.ents = s.dir.ents ∧ v.dram = s.dram ∧
      v.dir.trks = (s.dir.trks.filter fun x => !(decide (x.tier = k.tier) && decide (x.line = k.line)))) ∧
  (∀ (s : State) (p : Fin 32) (m : Msg) (a : Nat) (k : Trk) (slot : Nat), comesIn s p m → agentOf s m.src = some a →
    awaited s m.len.toNat a [.so] = some k → k.slot = some slot →
    Runs (.stashAccept p m) s (touches (.stashAccept p m)) (fun u => ∃ v, u = settle v ∧
      v.ent slot = { st := .e, tier := k.tier, line := k.line, ptrs := [a], keyT := k.keyT, incarn := k.incarn, used := s.dir.clock + 1 } ∧
      v.dir.trks = (s.dir.trks.filter fun x => !(decide (x.tier = k.tier) && decide (x.line = k.line)))) ∧
    Runs (.stashDecline p m) s (touches (.stashDecline p m)) (fun u => ∃ v, u = settle v ∧ v.dir.ents = s.dir.ents ∧
      v.dir.declined = sat32 s.dir.declined 1 ∧
      v.dir.trks = (s.dir.trks.filter fun x => !(decide (x.tier = k.tier) && decide (x.line = k.line))))) ∧
  (∀ (s : State) (p : Fin 32) (m : Msg) (c : Instr), c ∈ [Instr.snpAckInv p m, .snpAckShared p m, .datSnpS p m, .datSnpI p m,
      .stashAccept p m, .stashDecline p m, .compAck p m] → comesIn s p m → agentOf s m.src = none →
    Runs c s (touches c) fun u => u.dir = { s.dir with stray := sat32 s.dir.stray 1 } ∧ u.dram = s.dram)

/-! ## The coordinator election (chapter 7) -/

/-- R173 to R176: a claim heard joins those held and the better best claim goes on; the node's own serial heard with two nonces is a conflict,
recorded as the window ends; the window ends in the coordinator's own announcement, or in waiting for one; an announcement is followed with
JOIN, closes the window, and makes a worse coordinator yield. -/
def Obligations.ElectionFollowsTheBestClaim : Prop :=
  (∀ (s : State) (p : Fin 32) (c : Claim) (e : Elect), lmcReady s p → isEcho s.xpt.elect c = false →
    (∀ x ∈ s.xpt.elect.own.toList ++ s.xpt.elect.heard, x.serial = c.serial → x.nonce = c.nonce) →
    e = { s.xpt.elect with heard := if s.xpt.elect.heard.contains c then s.xpt.elect.heard else s.xpt.elect.heard ++ [c] } →
    Runs (.claim p c) s [.ports, .xpt] fun u => u.xpt = { s.xpt with elect := e } ∧
      ∀ b, e.best = some b → s.xpt.elect.best ≠ some b → ∀ n ∈ upPorts s (some p.val), sent s u n (lmcItem (claimBytes 0x10 b))) ∧
  (∀ (s : State) (p : Fin 32) (c x : Claim), lmcReady s p → isEcho s.xpt.elect c = false →
    x ∈ s.xpt.elect.own.toList ++ s.xpt.elect.heard → x.serial = c.serial → x.nonce ≠ c.nonce → c.serial = s.nid.serial →
    (s.xpt.elect.state = 1 →
      Runs (.claim p c) s [.ports, .xpt] fun u => u.xpt.elect.state = 5 ∧ u.xpt.elect.expiry = s.xpt.elect.expiry ∧
        c.serial ∈ u.xpt.elect.excl) ∧
    (s.xpt.elect.state = 3 ∨ s.xpt.elect.state = 4 →
      Runs (.claim p c) s (touches (.claim p c)) fun u => u.xpt.elect.state = 5 ∧ u.xpt.elect.expiry = none ∧
        bit u.xpt.status 1 = true ∧ c.serial ∈ u.xpt.elect.excl)) ∧
  (∀ (s : State) (p : Fin 32) (c : Claim), lmcReady s p → isEcho s.xpt.elect c = false →
    (s.xpt.elect.state = 1 ∨ s.xpt.elect.state = 3 ∨ s.xpt.elect.state = 4) →
    (s.xpt.elect.expiry.isSome = true → beatsOwn s.xpt.elect c = true) →
    Runs (.announce p c) s [.ports, .xpt] fun u =>
      u.xpt.elect = { s.xpt.elect with state := 3, expiry := none, coord := some c, coordVia := some p } ∧ sent s u p.val (lmcItem (ownJoin s)) ∧
      (s.xpt.elect.coord ≠ some c → ∀ n ∈ upPorts s (some p.val), sent s u n (lmcItem (claimBytes 0x11 c)))) ∧
  (∀ (s : State) (p : Fin 32) (c : Claim), lmcReady s p → isEcho s.xpt.elect c = false → s.xpt.elect.state = 5 →
    s.xpt.elect.expiry.isSome = true → beatsOwn s.xpt.elect c = true →
    Runs (.announce p c) s (touches (.announce p c)) fun u => u.xpt.elect.state = 5 ∧ u.xpt.elect.expiry = none ∧
      u.xpt.elect.coord = some c ∧ bit u.xpt.status 1 = true ∧ sent s u p.val (lmcItem (ownJoin s))) ∧
  (∀ (s : State) (p : Fin 32) (c : Claim), lmcReady s p → isEcho s.xpt.elect c = false → s.xpt.elect.state = 2 →
    beatsOwn s.xpt.elect c = true →
    Runs (.announce p c) s [.ports, .xpt] fun u =>
      u.xpt.elect = { s.xpt.elect with state := 3, coord := some c, coordVia := some p, joined := [] } ∧ bit u.xpt.status 2 = true ∧
      sent s u p.val (lmcItem (ownJoin s))) ∧
  (∀ (s : State) (b : Nat) (c : Claim), atBoundary s = true → procRuns s .fmp = true → s.xpt.elect.expiry = some b → b ≤ s.clk.now →
    s.xpt.elect.state ≠ 5 → s.xpt.elect.best = some c →
    Runs .claimWindowExpire s (touches .claimWindowExpire) fun u => u.xpt.elect.expiry = none ∧
      if s.xpt.elect.own = some c
      then u.xpt.endpoint = 0 ∧ u.xpt.elect.state = 2 ∧ u.xpt.elect.coord = some c ∧ ∀ n ∈ upPorts s none, sent s u n (lmcItem (claimBytes 0x11 c))
      else u.xpt.endpoint = s.xpt.endpoint ∧ u.xpt.elect.state = 3 ∧ ∀ n, (u.port n).txq = (s.port n).txq) ∧
  (∀ (s : State) (b : Nat), atBoundary s = true → procRuns s .fmp = true → s.xpt.elect.expiry = some b → b ≤ s.clk.now →
    s.xpt.elect.state ≠ 5 → s.xpt.elect.best = none →
    exec .claimWindowExpire s = .next (setElect { s.xpt.elect with expiry := none, state := 4 } s)) ∧
  (∀ (s : State) (b : Nat), atBoundary s = true → procRuns s .fmp = true → s.xpt.elect.expiry = some b → b ≤ s.clk.now →
    s.xpt.elect.state = 5 →
    Runs .claimWindowExpire s (touches .claimWindowExpire) fun u => u.xpt.elect = { s.xpt.elect with expiry := none } ∧
      bit u.xpt.status 1 = true)

/-- R164, R177: the coordinator gives a JOIN's sender the next endpoint ID and commits its routes; other devices relay JOIN, ASSIGN and
ROUTE_PUB; a node takes the endpoint ID and the routes sent to it, but no entry that is locked, the binding mask being that of the ports the
route entry names. -/
def Obligations.EndpointsAndRoutesAreGivenOut : Prop :=
  (∀ (s : State) (p : Fin 32) (kind : Byte) (serial : BitVec 64), lmcReady s p → procWorks s .fmp = true → kind.toNat < 3 → s.xpt.elect.state = 2 →
    (∀ x ∈ s.xpt.elect.joined, x.serial ≠ serial) → s.xpt.elect.nextId ≤ 0xFFE →
    Runs (.join p kind serial) s [.insts, .ports, .xpt] fun u =>
      u.xpt.elect.joined = s.xpt.elect.joined ++
        [{ serial, id := BitVec.ofNat 12 s.xpt.elect.nextId, port := p, node := decide (kind = 0) }] ∧
      u.xpt.elect.nextId = s.xpt.elect.nextId + 1 ∧ viaOf u.xpt.elect serial = some p ∧
      (∃ l, (u.port p.val).txq = (s.port p.val).txq ++ lmcItem (assignBytes s.xpt.elect.nextId serial) :: l) ∧
      (u.inst routeInst).commit = true ∧ (u.inst bindInst).commit = true ∧ ∀ i, (u.inst i).active = (s.inst i).active) ∧
  (∀ (s : State) (p v : Fin 32) (kind : Byte) (serial : BitVec 64), lmcReady s p → kind.toNat < 3 → s.xpt.elect.state ≠ 2 →
    s.xpt.elect.coordVia = some v → portUsable s v.val = true →
    Runs (.join p kind serial) s [.insts, .ports, .xpt] fun u => u.insts = s.insts ∧ viaOf u.xpt.elect serial = some p ∧
      sent s u v.val (lmcItem (joinBytes kind serial))) ∧
  (∀ (s : State) (p : Fin 32) (endpoint : BitVec 12) (serial : BitVec 64), lmcReady s p →
    (serial = s.nid.serial → Runs (.assign p endpoint serial) s [.ports, .xpt] fun u => u.xpt = { s.xpt with endpoint }) ∧
    ∀ v, serial ≠ s.nid.serial → viaOf s.xpt.elect serial = some v → portUsable s v.val = true →
      Runs (.assign p endpoint serial) s [.ports, .xpt] fun u => u.xpt = s.xpt ∧ sent s u v.val (lmcItem (assignBytes endpoint.toNat serial))) ∧
  (∀ (s : State) (p : Fin 32) (dst : BitVec 12) (port alt : BitVec 5) (altValid withdraw last : Bool), lmcReady s p → procWorks s .fmp = true →
    (s.shadowAt routeInst dst.toNat).getLsbD 30 = false → (s.shadowAt bindInst (2 * dst.toNat + 1)).getLsbD 30 = false →
    Runs (.routePub p dst port alt altValid withdraw last s.nid.serial) s [.insts, .ports] fun u =>
      u.shadowAt routeInst dst.toNat = (if withdraw then 0
        else BitVec.ofNat 64 (2 ^ 31 + (if altValid then 2 ^ 29 + alt.toNat * 256 else 0) + port.toNat)) ∧
      u.shadowAt bindInst (2 * dst.toNat + 1) = (if withdraw then 0 else 0x80000000#64) ∧
      (∀ q < 32, (u.shadowAt bindInst (2 * dst.toNat)).getLsbD q =
        (!withdraw && (decide (q = port.toNat) || (altValid && decide (q = alt.toNat))))) ∧
      (last = true → (u.inst routeInst).commit = true ∧ (u.inst bindInst).commit = true) ∧ ∀ i, (u.inst i).active = (s.inst i).active) ∧
  (∀ (s : State) (p : Fin 32) (dst : BitVec 12) (port alt : BitVec 5) (altValid withdraw last : Bool), lmcReady s p → procWorks s .fmp = true →
    (s.shadowAt routeInst dst.toNat).getLsbD 30 = true → (s.shadowAt bindInst (2 * dst.toNat + 1)).getLsbD 30 = true →
    Runs (.routePub p dst port alt altValid withdraw last s.nid.serial) s [.insts, .ports] fun u => ∀ i k, u.shadowAt i k = s.shadowAt i k) ∧
  (∀ (s : State) (p : Fin 32) (dst : BitVec 12) (port alt : BitVec 5) (altValid withdraw last : Bool), lmcReady s p → procWorks s .fmp = true →
    (s.shadowAt routeInst dst.toNat).getLsbD 30 = true → (s.shadowAt bindInst (2 * dst.toNat + 1)).getLsbD 30 = false →
    Runs (.routePub p dst port alt altValid withdraw last s.nid.serial) s [.insts, .ports] fun u =>
      u.shadowAt routeInst dst.toNat = s.shadowAt routeInst dst.toNat ∧
      u.shadowAt bindInst (2 * dst.toNat) = BitVec.ofNat 64 (routePorts (s.shadowAt routeInst dst.toNat))) ∧
  (∀ (s : State) (p v : Fin 32) (dst : BitVec 12) (port alt : BitVec 5) (altValid withdraw last : Bool) (serial : BitVec 64), lmcReady s p →
    procWorks s .fmp = true → serial ≠ s.nid.serial → viaOf s.xpt.elect serial = some v → portUsable s v.val = true →
    Runs (.routePub p dst port alt altValid withdraw last serial) s [.insts, .ports] fun u => u.insts = s.insts ∧
      sent s u v.val (lmcItem (routePubBytes dst.toNat port.toNat alt.toNat altValid withdraw last serial)))

/-! ## The mesh (chapter 8) -/

/-- R182 to R186, R190 to R192: a packet at its destination is handed over in order; elsewhere it takes a productive link, its age grown by
the hop; none free, it is deflected and counted; a bad header is fatal; a packet is injected with its pair sequence; a throttled station
waits; a multicast reaches every station of its mask, and starts neither on a busy line nor in the blackout; the course packet goes on by
every way of its tree. -/
def Obligations.MeshPacketsMoveAndArrive : Prop :=
  (∀ (s : State) (st : Fin 192) (pl : Plane) (m : MeshIn), s.alive = true → fitsPlane pl m.pkt = true → stationDown s st.val = false →
    m.hdr = .clean → m.payBad = false →
    m.pkt.multi = false → m.pkt.course = false → m.pkt.dest = st → m.pkt.waypoint = none → m.unitFull = false → s.msh.early = [] →
    m.pkt.pseq.toNat = Tbl.get 0 s.msh.expect (expectKey st.val m.pkt.src.val pl) →
    Runs (.meshPacketArrive st pl [m]) s (touches (.meshPacketArrive st pl [m])) fun u => u.out = .meshEject st pl (unitsAt st.val) m.pkt :: s.out ∧
      Tbl.get 0 u.msh.expect (expectKey st.val m.pkt.src.val pl) = (m.pkt.pseq.toNat + 1) % 65536 ∧ u.msh.early = []) ∧
  (∀ (s : State) (st : Fin 192) (pl : Plane) (m : MeshIn) (d : Dir), s.alive = true → fitsPlane pl m.pkt = true →
    stationDown s st.val = false → (m.hdr = .clean ∨ m.hdr = .corrected) → m.payBad = false → m.pkt.multi = false → m.pkt.course = false → m.pkt.dest ≠ st →
    (productive s st.val m.pkt).find? (freeLinks s st.val).contains = some d →
    Runs (.meshPacketArrive st pl [m]) s (touches (.meshPacketArrive st pl [m])) fun u =>
      u.out = .meshLink st pl d (agePkt st.val d m.pkt) :: s.out ∧
      u.msh.hdrCorr = (if m.hdr = .corrected then sat32 s.msh.hdrCorr 1 else s.msh.hdrCorr) ∧ u.msh.defl = s.msh.defl) ∧
  (∀ (s : State) (st : Fin 192) (pl : Plane) (m : MeshIn), s.alive = true → fitsPlane pl m.pkt = true → stationDown s st.val = false →
    m.hdr = .clean → m.payBad = false →
    m.pkt.multi = false → m.pkt.course = false → m.pkt.dest ≠ st → freeLinks s st.val ≠ [] →
    (productive s st.val m.pkt).find? (freeLinks s st.val).contains = none →
    Runs (.meshPacketArrive st pl [m]) s (touches (.meshPacketArrive st pl [m])) fun u =>
      (∃ d ∈ freeLinks s st.val, u.out = .meshLink st pl d (agePkt st.val d m.pkt) :: s.out) ∧
      Tbl.get 0 u.msh.defl pl.idx = sat32 (Tbl.get 0 s.msh.defl pl.idx) 1) ∧
  (∀ (s : State) (st : Fin 192) (pl : Plane) (ps : List MeshIn) (m : MeshIn), s.alive = true →
    (∀ x ∈ ps, fitsPlane pl x.pkt = true) → m ∈ ps → m.hdr = .uncorrectable →
    Runs (.meshPacketArrive st pl ps) s (touches (.meshPacketArrive st pl ps)) fun u => u.nid.state = .fatal ∧ u.flt.first = 2 ∧ u.msh = s.msh) ∧
  (∀ (s : State) (st : Fin 192) (pl : Plane) (free : List Dir) (p : MeshPkt), s.alive = true → fitsPlane pl p = true → stationDown s st.val = false →
    (∃ d ∈ free, linkOn s st.val d = true) → planeKey st.val pl ∉ s.msh.throttled → p.multi = false → p.course = false →
    Runs (.meshInject st pl free p) s [.serialNo, .msh, .out] fun u =>
      (∃ d ∈ free, linkOn s st.val d = true ∧ u.out = .meshLink st pl d (agePkt st.val d { p with
        src := st, age := 0, pseq := BitVec.ofNat 16 (Tbl.get 0 s.msh.nextSeq (expectKey st.val p.dest.val pl))
        waypoint := waypointOf s st.val p.dest.val }) :: s.out) ∧
      Tbl.get 0 u.msh.nextSeq (expectKey st.val p.dest.val pl) = (Tbl.get 0 s.msh.nextSeq (expectKey st.val p.dest.val pl) + 1) % 65536) ∧
  (∀ (s : State) (st : Fin 192) (pl : Plane) (free : List Dir) (p : MeshPkt), s.alive = true → fitsPlane pl p = true → p.multi = false → p.course = false →
    planeKey st.val pl ∈ s.msh.throttled → bits s.msh.throttle 15 8 ≤ (recentDefl s (planeKey st.val pl)).length →
    cycleNow s < Tbl.get 0 s.msh.lastInj (planeKey st.val pl) + bits s.msh.throttle 3 0 →
    exec (.meshInject st pl free p) s = .next s) ∧
  (∀ (s : State) (row : Bool) (line : Fin 16) (mask : BitVec 16) (p : MeshPkt), s.alive = true → fitsPlane .dat p = true → p.multi = true →
    onLine row line.val p.src.val = true → (p.course = true ∨ (blackout s = false ∧ multiBusy s row line.val = false)) →
    Runs (.meshMulticast row line mask p) s [.msh, .out] fun u => u.out =
      (((maskStations row line.val mask).filter fun st => reaches row p.src.val st.val && !stationDown s st.val).map fun st =>
        Out.meshEject st .dat (unitsAt st.val) p).reverse ++ s.out) ∧
  (∀ (s : State) (row : Bool) (line : Fin 16) (mask : BitVec 16) (p : MeshPkt), s.alive = true → fitsPlane .dat p = true → p.multi = true →
    (onLine row line.val p.src.val = false ∨ (p.course = false ∧ (blackout s = true ∨ multiBusy s row line.val = true))) →
    exec (.meshMulticast row line mask p) s = .next s) ∧
  (∀ (s : State) (st : Fin 192) (m : MeshIn), s.alive = true → fitsPlane .dat m.pkt = true → stationDown s st.val = false → m.hdr = .clean →
    m.payBad = false → m.pkt.course = true →
    Runs (.meshPacketArrive st .dat [m]) s (touches (.meshPacketArrive st .dat [m])) fun u => u.out =
      ((courseWays st.val).map fun d => Out.meshLink st .dat d (agePkt st.val d { m.pkt with
        age := m.pkt.age + (if courseRelay st.val d then 1 else 0) })).reverse ++ Out.meshEject st .dat (unitsAt st.val) m.pkt :: s.out) ∧
  (∀ (s : State) (st : Fin 192) (m : MeshIn), s.alive = true → fitsPlane .dat m.pkt = true → stationDown s st.val = false → m.hdr = .clean →
    m.payBad = false → m.pkt.course = false → m.pkt.multi = true →
    Runs (.meshPacketArrive st .dat [m]) s (touches (.meshPacketArrive st .dat [m])) fun u => u.out =
      ((towards st.val m.pkt.dest.val).head?.toList.map fun d => Out.meshLink st .dat d (agePkt st.val d m.pkt)) ++
        (if (ofLeBytes (m.pkt.payload.take 2)).testBit (if stationY m.pkt.src.val = stationY m.pkt.dest.val then stationX st.val else stationY st.val)
         then [Out.meshEject st .dat (unitsAt st.val) m.pkt] else []) ++ s.out)

/-! ## Pool memory (chapter 9) -/

/-- R202, R219: TILE_MAP takes free tiles for a run of tile numbers, the near tier's first, enters each in the shadow VALID and owned, and
answers how many of each tier it took; the active copy does not move. -/
def Obligations.TileMapTakesFreeTiles : Prop :=
  ∀ (s : State) (fn : Fn) (m : MbxHdr) (tenant : Byte) (tile : Word) (count : BitVec 16) (tier flags : Byte) (a b : Nat),
    mbxReady s fn m 9 → badCount count = false → tier.toNat ≤ 2 → tenantCheck s fn tenant.toNat false = none →
    splitTiers s (s.tenant tenant.toNat).part count.toNat tier.toNat = (a, b) → tile.toNat + count.toNat ≤ 2 ^ 27 →
    (a ≠ 0 → (s.part (s.tenant tenant.toNat).part).nearUsed + a ≤ (s.part (s.tenant tenant.toNat).part).nearQuota) →
    (b ≠ 0 → (s.part (s.tenant tenant.toNat).part).bulkUsed + b ≤ (s.part (s.tenant tenant.toNat).part).bulkQuota) →
    mapCommit s tenant.toNat = false → (∀ k ∈ tilesFrom tile.toNat count.toNat, (s.tileShadow tenant.toNat k).valid = false) →
    a ≤ freeCount s .near → b ≤ freeCount s .bulk → storeFull s tenant.toNat (tilesFrom tile.toNat count.toNat) = false →
    Runs (.tileMap fn m tenant tile count tier flags) s [.insts, .parts, .serialNo, .til, .dram, .hosts, .out] fun u =>
      (∀ i < count.toNat, (u.tileShadow tenant.toNat (tile.toNat + i)).valid = true ∧
        (u.tileShadow tenant.toNat (tile.toNat + i)).shared = false ∧
        (u.tileShadow tenant.toNat (tile.toNat + i)).readOnly = flags.getLsbD 1 ∧
        (u.tileShadow tenant.toNat (tile.toNat + i)).coherent = flags.getLsbD 0 ∧
        (u.tileShadow tenant.toNat (tile.toNat + i)).tier = if i < a then .near else .bulk) ∧
      (∀ k, k ∉ tilesFrom tile.toNat count.toNat → u.shadowAt (tileMapInst tenant.toNat) k = s.shadowAt (tileMapInst tenant.toNat) k) ∧
      (u.inst (tileMapInst tenant.toNat)).active = (s.inst (tileMapInst tenant.toNat)).active ∧
      (∀ i, i ≠ tileMapInst tenant.toNat → u.inst i = s.inst i) ∧
      (s.dram.near.asleep = false → s.dram.near.waking = false → s.dram.bulk.asleep = false → s.dram.bulk.waking = false →
        answered s u fn 0x0201 m .ok (leBytes 2 a ++ leBytes 2 b))

/-- R203 to R206: TILE_UNMAP, TILE_PROTECT, TILE_GRANT and TILE_REVOKE change the shadows they name, set COMMIT on the maps of other
tenants that they change, leave every active copy alone, and answer at once. -/
def Obligations.TileCommandsChangeShadows : Prop :=
  (∀ (s : State) (fn : Fn) (m : MbxHdr) (tenant : Byte) (tile : Word) (count : BitVec 16), mbxReady s fn m 7 → badCount count = false →
    tenantCheck s fn tenant.toNat false = none → notOwned s tenant.toNat tile.toNat count.toNat = false →
    anyMigrating s tenant.toNat tile.toNat count.toNat = false → mapCommit s tenant.toNat = false →
    (∀ g ∈ mirrorsOfTiles s tenant.toNat (tilesFrom tile.toNat count.toNat), mapCommit s g.1 = false) →
    Runs (.tileUnmap fn m tenant tile count) s [.insts, .serialNo, .til, .hosts, .out] fun u =>
      (∀ k ∈ tilesFrom tile.toNat count.toNat, u.shadowAt (tileMapInst tenant.toNat) k = 0) ∧
      (∀ g ∈ mirrorsOfTiles s tenant.toNat (tilesFrom tile.toNat count.toNat),
        u.shadowAt (tileMapInst g.1) g.2 = 0 ∧ (u.inst (tileMapInst g.1)).commit = true) ∧
      (∀ i, (u.inst i).active = (s.inst i).active) ∧ answered s u fn 0x0202 m .ok []) ∧
  (∀ (s : State) (fn : Fn) (m : MbxHdr) (tenant : Byte) (tile : Word) (count : BitVec 16) (ro : Byte), mbxReady s fn m 8 →
    badCount count = false → ro.toNat ≤ 1 → tenantCheck s fn tenant.toNat false = none →
    notOwned s tenant.toNat tile.toNat count.toNat = false → anyMigrating s tenant.toNat tile.toNat count.toNat = false →
    mapCommit s tenant.toNat = false →
    (∀ g ∈ mirrorsOfTiles s tenant.toNat (tilesFrom tile.toNat count.toNat), mapCommit s g.1 = false) →
    Runs (.tileProtect fn m tenant tile count ro) s (touches (.tileProtect fn m tenant tile count ro)) fun u =>
      (∀ k ∈ tilesFrom tile.toNat count.toNat,
        u.tileShadow tenant.toNat k = { s.tileShadow tenant.toNat k with readOnly := decide (ro = 1) }) ∧
      (∀ g ∈ mirrorsOfTiles s tenant.toNat (tilesFrom tile.toNat count.toNat), (u.inst (tileMapInst g.1)).commit = true) ∧
      (∀ i, (u.inst i).active = (s.inst i).active) ∧ answered s u fn 0x0203 m .ok []) ∧
  (∀ (s : State) (fn : Fn) (m : MbxHdr) (owner : Byte) (tile : Word) (count : BitVec 16) (grantee : Byte) (gtile : Word) (mode : Byte),
    mbxReady s fn m 13 → badCount count = false → mode.toNat ≤ 1 → grantCheck s fn owner.toNat grantee.toNat = none →
    gtile.toNat + count.toNat ≤ 2 ^ 27 → notOwned s owner.toNat tile.toNat count.toNat = false →
    (∀ k ∈ tilesFrom tile.toNat count.toNat,
      (mirrorsOf s (s.tileShadow owner.toNat k).tier (s.tileShadow owner.toNat k).phys).length < 16) →
    mapCommit s grantee.toNat = false → (∀ k ∈ tilesFrom gtile.toNat count.toNat, (s.tileShadow grantee.toNat k).valid = false) →
    storeFull s grantee.toNat (tilesFrom gtile.toNat count.toNat) = false → anyMigrating s owner.toNat tile.toNat count.toNat = false →
    Runs (.tileGrant fn m owner tile count grantee gtile mode) s [.insts, .serialNo, .til, .hosts, .out] fun u =>
      (∀ i < count.toNat, u.tileShadow grantee.toNat (gtile.toNat + i) = { s.tileShadow owner.toNat (tile.toNat + i) with
        shared := true, keyT := owner.toNat
        readOnly := (s.tileShadow owner.toNat (tile.toNat + i)).readOnly || !decide (mode = 1) }) ∧
      (u.inst (tileMapInst grantee.toNat)).commit = true ∧ (∀ i, (u.inst i).active = (s.inst i).active) ∧
      (∀ i, i ≠ tileMapInst grantee.toNat → u.inst i = s.inst i) ∧ answered s u fn 0x0204 m .ok []) ∧
  (∀ (s : State) (fn : Fn) (m : MbxHdr) (grantee : Byte) (gtile : Word) (count : BitVec 16), mbxReady s fn m 7 → badCount count = false →
    tenantCheck s fn grantee.toNat true = none → gtile.toNat + count.toNat ≤ 2 ^ 27 →
    (∀ k ∈ tilesFrom gtile.toNat count.toNat, (s.tileShadow grantee.toNat k).valid = true ∧ (s.tileShadow grantee.toNat k).shared = true ∧
      mayGrant s fn (s.tileShadow grantee.toNat k).keyT grantee.toNat = true) →
    anyMigrating s grantee.toNat gtile.toNat count.toNat = false → mapCommit s grantee.toNat = false →
    Runs (.tileRevoke fn m grantee gtile count) s [.insts, .serialNo, .til, .hosts, .out] fun u =>
      (∀ k ∈ tilesFrom gtile.toNat count.toNat, u.shadowAt (tileMapInst grantee.toNat) k = 0) ∧
      (u.inst (tileMapInst grantee.toNat)).commit = true ∧ (∀ i, (u.inst i).active = (s.inst i).active) ∧
      (∀ i, i ≠ tileMapInst grantee.toNat → u.inst i = s.inst i) ∧ answered s u fn 0x0205 m .ok [])

/-- R22, R203, R205, R211 to R213, Table 9.3: a migration is accepted with its destination taken and MIGRATING set, and answered with its
tracker; its passes go over the dirty blocks and end in the remap; the final pass recalls the source's lines and begins when nothing names
the source; a block copied leaves the dirty set; the release frees the tracker and the source; a tile that nothing names returns to its
pool. While the MRP pauses or its tiers do not serve, a row finds nothing to do. -/
def Obligations.MigrationsRunTheirSteps : Prop :=
  (∀ (s : State) (fn : Fn) (m : MbxHdr) (tenant : Byte) (tile : Word) (tier : Byte) (dst : Tier) (k : Nat), mbxReady s fn m 6 →
    tier.toNat ≤ 1 → dst = Tier.ofBit (decide (tier = 1)) → tenantCheck s fn tenant.toNat false = none → tile.toNat < 2 ^ 27 →
    (s.tileShadow tenant.toNat tile.toNat).valid = true → (s.tileShadow tenant.toNat tile.toNat).shared = false →
    s.tileAt tenant.toNat tile.toNat = s.tileShadow tenant.toNat tile.toNat → (s.tileShadow tenant.toNat tile.toNat).migrating = false →
    freeMig s = some k → dst ≠ (s.tileShadow tenant.toNat tile.toNat).tier →
    (match dst with
      | .near => (s.part (s.tenant tenant.toNat).part).nearUsed < (s.part (s.tenant tenant.toNat).part).nearQuota
      | .bulk => (s.part (s.tenant tenant.toNat).part).bulkUsed < (s.part (s.tenant tenant.toNat).part).bulkQuota) →
    0 < freeCount s dst →
    Runs (.tileMigrate fn m tenant tile tier) s (touches (.tileMigrate fn m tenant tile tier)) fun u =>
      (u.tileAt tenant.toNat tile.toNat).migrating = true ∧ (u.tileShadow tenant.toNat tile.toNat).migrating = true ∧
      (u.mig k).state = 1 ∧ (u.mig k).tenant = tenant.toNat ∧ (u.mig k).tile = tile.toNat ∧ (u.mig k).dstTier = dst ∧
      (u.mig k).dst < tierTiles s dst ∧ s.use (tileKey dst (u.mig k).dst) = .free ∧
      ((s.tier dst).asleep = false → (s.tier dst).waking = false →
        answeredFor u (owedFor s fn 0x0206 m) .ok [BitVec.ofNat 8 k])) ∧
  (∀ s : State, mrpIdle s → mrpWork s = s) ∧
  (∀ (s : State) (t : Tier) (p : BitVec 22) (a b : Nat), atBoundary s = true → s.use (tileKey t p.toNat) = .owned a b →
    namedActive s t p.toNat = false → namedShadow s t p.toNat = false → inMigration s t p.toNat = false →
    Runs (.tileReturn t p) s (touches (.tileReturn t p)) fun u => ∃ v, u = mrpWork v ∧ v.til.bogs = s.til.bogs ∧ v.til.migs = s.til.migs ∧
      v.use (tileKey t p.toNat) = (if 16 ≤ liveBogs s t p.toNat then .retired else .free) ∧
      ∀ k, k ≠ tileKey t p.toNat → v.use k = s.use k) ∧
  (∀ (s : State) (t : Tier) (p : BitVec 22), (atBoundary s = false ∨ namedActive s t p.toNat = true ∨ namedShadow s t p.toNat = true ∨
    inMigration s t p.toNat = true ∨ s.use (tileKey t p.toNat) = .free) → exec (.tileReturn t p) s = .next s) ∧
  (∀ (s : State) (k : Fin 16), s.alive = true → (s.mig k).state = 1 → (s.mig k).waiting = false → (s.mig k).parked = false →
    migStep k s = true → 8 < (s.mig k).dirty.length → (s.mig k).passes + 1 < 8 →
    Runs (.migrationPassDone k) s (touches (.migrationPassDone k)) fun u =>
      (u.mig k).passes = (s.mig k).passes + 1 ∧ (u.mig k).state = 1 ∧ u.insts = s.insts ∧
      (u.mig k).copied = (s.mig k).copied + (s.mig k).dirty.length * 4096 ∧
      ((s.mig k).src ≠ (s.mig k).dst ∨ (s.mig k).srcTier ≠ (s.mig k).dstTier → (u.mig k).dirty = [])) ∧
  (∀ (s : State) (k : Fin 16), s.alive = true → (s.mig k).state = 1 → (s.mig k).waiting = false → (s.mig k).parked = false →
    migStep k s = true → ¬ (8 < (s.mig k).dirty.length ∧ (s.mig k).passes + 1 < 8) →
    Runs (.migrationPassDone k) s (touches (.migrationPassDone k)) fun u =>
      (u.mig k).passes = (s.mig k).passes + 1 ∧
      if (mapsNaming s (s.mig k).srcTier (s.mig k).src).any (mapCommit s) then (u.mig k).waiting = true ∧ (u.mig k).state = 1
      else (u.mig k).state = (if mapsNaming s (s.mig k).srcTier (s.mig k).src = [] then 3 else 2) ∧
        ∀ t ∈ mapsNaming s (s.mig k).srcTier (s.mig k).src, (u.inst (tileMapInst t)).commit = true) ∧
  (∀ (s : State) (k : Fin 16) (b : Fin 512) (c : Instr), c ∈ [Instr.migrationPassDone k, .migrationFinalPass k, .migrationBlockCopied k b] →
    migStep k s = false → exec c s = .next s) ∧
  (∀ (s : State) (k : Fin 16), s.alive = true → (s.mig k).state = 3 → namedActive s (s.mig k).srcTier (s.mig k).src = false →
    migStep k s = true →
    exec (.migrationFinalPass k) s = .next (if cached s (s.mig k).srcTier (s.mig k).src
      then settle (recallTile (s.mig k).srcTier (s.mig k).src .migration s)
      else s.setMig k { s.mig k with state := 4, relAt := if (s.mig k).dirty = [] then some (s.clk.now + 1) else none })) ∧
  (∀ (s : State) (k : Fin 16) (b : Fin 512), s.alive = true → (s.mig k).state = 4 → b.val ∈ (s.mig k).dirty → migStep k s = true →
    Runs (.migrationBlockCopied k b) s (touches (.migrationBlockCopied k b)) fun u =>
      (u.mig k).relAt = (if (u.mig k).dirty = [] then some (s.clk.now + 1) else none) ∧
      ((s.mig k).src ≠ (s.mig k).dst ∨ (s.mig k).srcTier ≠ (s.mig k).dstTier → b.val ∉ (u.mig k).dirty)) ∧
  (∀ (s : State) (k : Fin 16) (b : Nat), atBoundary s = true → (s.mig k).state = 4 → (s.mig k).dirty = [] → (s.mig k).relAt = some b →
    b ≤ s.clk.now → procWorks s .mrp = true →
    Runs (.migrationRelease k) s (touches (.migrationRelease k)) fun u => mrpIdle s →
      u.mig k = {} ∧ u.use (tileKey (s.mig k).srcTier (s.mig k).src) = (if (s.mig k).bogged || (s.mig k).retire then .retired else .free))

/-! ## DRAM (chapter 10) -/

/-- R208, R209, R226, R227, R238 to R240: the request that its controller serves next leaves the queue. A line read delivers the plaintext
under the tenant's key, the data of the writes queued ahead of it, or poison, and changes no byte; a full-line write stores the line's
ciphertext, clears its poison and changes no byte outside the line; a partial write keeps the line's other bytes. A correctable codeword is
delivered and counted; an uncorrectable one is delivered as poison, poisoned, recorded and counted. A row whose request is not next finds
nothing to do. The row for a line that no request waits for is the codeword read of an engine's access: the model's choice, log entry 97. -/
def Obligations.DramServesReadsAndWrites : Prop :=
  (∀ (s : State) (t : Tier) (l : BitVec 36) (o : MemOp), s.alive = true →
    (s.dram.queue.filter fun o => decide (o.tier = t) && decide (o.line = l.toNat)).head? = some o → o.write = false → mayServe s o = true →
    s.poisoned t l.toNat = false →
    Runs (.dramReadComplete t l {}) s (touches (.dramReadComplete t l {})) fun u => ∃ v,
      u = settle (opDone o (some (s.plain o.keyT t l.toNat).toList) v) ∧ v.dram.queue = s.dram.queue.erase o ∧ v.dram.mem = s.dram.mem ∧
      v.dram.poison = s.dram.poison ∧ v.reqs = s.reqs) ∧
  (∀ (s : State) (t : Tier) (l : BitVec 36) (o w : MemOp) (r : List MemOp) (e : EccErr), s.alive = true →
    (s.dram.queue.filter fun o => decide (o.tier = t) && decide (o.line = l.toNat)) = w :: o :: r → w.write = true → fullWrite w = true → w.bad = false → o.write = false → mayServe s o = true →
    Runs (.dramReadComplete t l e) s (touches (.dramReadComplete t l e)) fun u => ∃ v,
      u = settle (opDone o (some (lineOf w.data).toList) v) ∧ v.dram.queue = s.dram.queue.erase o ∧ v.dram.mem = s.dram.mem ∧
      v.dram.poison = s.dram.poison) ∧
  (∀ (s : State) (t : Tier) (l : BitVec 36) (o : MemOp), s.alive = true →
    (s.dram.queue.filter fun o => decide (o.tier = t) && decide (o.line = l.toNat)).head? = some o → o.write = false → mayServe s o = true →
    s.poisoned t l.toNat = true →
    Runs (.dramReadComplete t l {}) s (touches (.dramReadComplete t l {})) fun u => ∃ v,
      u = settle (opDone o none v) ∧ v.dram.queue = s.dram.queue.erase o ∧ v.dram.mem = s.dram.mem ∧ v.dram.poison = s.dram.poison) ∧
  (∀ (s : State) (t : Tier) (l : BitVec 36) (e : EccErr) (o : MemOp), s.alive = true →
    (s.dram.queue.find? fun o => o.write && decide (o.tier = t) && decide (o.line = l.toNat)) = some o → mayServe s o = true →
    o.bad = false → fullWrite o = true →
    Runs (.dramWriteComplete t l e) s (touches (.dramWriteComplete t l e)) fun u => ∃ v,
      u = settle (opDone o (some []) v) ∧ v.dram.queue = s.dram.queue.erase o ∧ v.plain o.keyT t l.toNat = lineOf o.data ∧
      v.poisoned t l.toNat = false ∧
      ∀ a, a < lineKey t l.toNat * 128 ∨ lineKey t l.toNat * 128 + 128 ≤ a → cellGet 0 v.dram.mem a = cellGet 0 s.dram.mem a) ∧
  (∀ (s : State) (t : Tier) (l : BitVec 36) (o : MemOp), s.alive = true →
    (s.dram.queue.find? fun o => o.write && decide (o.tier = t) && decide (o.line = l.toNat)) = some o → mayServe s o = true →
    o.bad = false → fullWrite o = false → o.atomic = none → s.poisoned t l.toNat = false →
    Runs (.dramWriteComplete t l {}) s (touches (.dramWriteComplete t l {})) fun u => ∃ v,
      u = settle (opDone o (some []) v) ∧ v.dram.queue = s.dram.queue.erase o ∧
      v.plain o.keyT t l.toNat = mergeLine (s.plain o.keyT t l.toNat) o.off o.data ∧
      ∀ a, a < lineKey t l.toNat * 128 ∨ lineKey t l.toNat * 128 + 128 ≤ a → cellGet 0 v.dram.mem a = cellGet 0 s.dram.mem a) ∧
  (∀ (s : State) (t : Tier) (l : BitVec 36) (e : EccErr) (o : MemOp), mayServe s o = false →
    ((s.dram.queue.filter fun o => decide (o.tier = t) && decide (o.line = l.toNat)).find? (fun o => !o.write) = some o → exec (.dramReadComplete t l e) s = .next s) ∧
    ((s.dram.queue.find? fun o => o.write && decide (o.tier = t) && decide (o.line = l.toNat)) = some o →
      exec (.dramWriteComplete t l e) s = .next s)) ∧
  (∀ a b : Nat, a ≤ 1 → b ≤ 1 → a + b ≠ 0 → decodeRead .near false { sym0 := a, sym1 := b } = .corrected false) ∧
  (∀ (a : Nat) (e : EccErr), 2 ≤ a → a ≤ 3 → (e.sym0 = a ∨ e.sym1 = a) → decodeRead .near false e = .uncorrectable) ∧
  (∀ e : EccErr, 1 ≤ e.sym0 → e.sym0 ≤ 4 → decodeRead .bulk false e = .corrected (decide (2 ≤ e.sym0))) ∧
  (∀ e : EccErr, 5 ≤ e.sym0 → e.sym0 ≤ 12 → decodeRead .bulk false e = .uncorrectable) ∧
  (∀ (s : State) (t : Tier) (l : BitVec 36) (e : EccErr) (o : MemOp) (d : Bool), s.alive = true →
    (s.dram.queue.filter fun o => decide (o.tier = t) && decide (o.line = l.toNat)).head? = some o → o.write = false → mayServe s o = true →
    decodeRead t (s.poisoned t l.toNat) e = .corrected d →
    Runs (.dramReadComplete t l e) s (touches (.dramReadComplete t l e)) fun u => ∃ v,
      u = settle (opDone o (some (s.plain o.keyT t l.toNat).toList) v) ∧ v.dram.mem = s.dram.mem ∧ v.dram.poison = s.dram.poison ∧
      (v.chan (chanKey t (placeLine s t l.toNat).1)).ce = sat32 (s.chan (chanKey t (placeLine s t l.toNat).1)).ce 1) ∧
  (∀ (s : State) (t : Tier) (l : BitVec 36) (e : EccErr) (o : MemOp), s.alive = true →
    (s.dram.queue.filter fun o => decide (o.tier = t) && decide (o.line = l.toNat)).head? = some o → o.write = false → mayServe s o = true →
    decodeRead t (s.poisoned t l.toNat) e = .uncorrectable → s.til.overflow = [] → s.til.bogs.length < 4096 →
    liveBogs s t (l.toNat / 16384) < 15 →
    Runs (.dramReadComplete t l e) s (touches (.dramReadComplete t l e)) fun u => ∃ v,
      u = settle (opDone o none v) ∧ v.poisoned t l.toNat = true ∧ v.til.bogs = s.til.bogs ++ [bogRec s t l.toNat 0 false] ∧
      v.dram.mem = s.dram.mem ∧
      (v.chan (chanKey t (placeLine s t l.toNat).1)).ue = sat32 (s.chan (chanKey t (placeLine s t l.toNat).1)).ue 1) ∧
  (∀ (s : State) (t : Tier) (l : BitVec 36) (e : EccErr), s.alive = true →
    (s.dram.queue.filter fun o => decide (o.tier = t) && decide (o.line = l.toNat)) = [] → engineReads s t l.toNat = true →
    exec (.dramReadComplete t l e) s = .next (settle (engineMeets t l.toNat e s)))

/-- R230, R231: a refresh that falls due is done with what is owed, or postponed while requests wait; one owed too long is forced; a rank
without requests powers down and wakes for one. -/
def Obligations.RefreshAndRankPower : Prop :=
  (∀ (s : State) (t : Tier) (ch bank : Nat), s.alive = true → ch < channels t → bank < refreshBanks t → refreshable s t ch = true →
    banksBusy s t (refreshKeys t ch bank) = false →
    Runs (.refreshDue t ch bank) s [.dram] fun u => (∀ k ∈ refreshKeys t ch bank, (u.bank k).row = none) ∧
      (u.bank ((refreshKeys t ch bank).headD 0)).owed = [] ∧ u.dram.mem = s.dram.mem ∧ u.dram.queue = s.dram.queue) ∧
  (∀ (s : State) (t : Tier) (ch bank : Nat), s.alive = true → ch < channels t → bank < refreshBanks t → refreshable s t ch = true →
    banksBusy s t (refreshKeys t ch bank) = true → (s.bank ((refreshKeys t ch bank).headD 0)).owed.length < 4 →
    exec (.refreshDue t ch bank) s = .next (s.setBank ((refreshKeys t ch bank).headD 0)
      { s.bank ((refreshKeys t ch bank).headD 0) with owed := (s.bank ((refreshKeys t ch bank).headD 0)).owed ++ [s.clk.now] })) ∧
  (∀ (s : State) (t : Tier) (ch bank : Nat) (l r : List Nat), atBoundary s = true → ch < channels t → bank < refreshBanks t →
    refreshable s t ch = true → (s.bank ((refreshKeys t ch bank).headD 0)).owed = l ++ r → l ≠ [] →
    (∀ b ∈ l, b + bits (s.tier t).cfg 15 8 ≤ s.clk.now) → (∀ b ∈ r, s.clk.now < b + bits (s.tier t).cfg 15 8) →
    Runs (.refreshDebtExpire t ch bank) s [.dram] fun u => (u.bank ((refreshKeys t ch bank).headD 0)).owed = r ∧
      (∀ k ∈ refreshKeys t ch bank, (u.bank k).row = none) ∧ (u.tier t).forced = sat32 (s.tier t).forced l.length) ∧
  (∀ (s : State) (t : Tier) (ch rank : Nat), atBoundary s = true → ch < channels t → rank < maxRanks t → refreshable s t ch = true →
    bits (s.tier t).cfg 31 24 ≠ 0 → (s.rank (rankKey t ch rank)).lastReq + bits (s.tier t).cfg 31 24 ≤ s.clk.now → rank < ranksOf s t ch →
    rankBusy s t (rankKey t ch rank) = false →
    Runs (.rankPowerDown t ch rank) s [.dram] fun u => u.rank (rankKey t ch rank) = { s.rank (rankKey t ch rank) with down := true } ∧
      (∀ k, k / 32 = rankKey t ch rank → (u.bank k).row = none) ∧ (∀ k, k / 32 ≠ rankKey t ch rank → u.bank k = s.bank k) ∧
      (∀ k, k ≠ rankKey t ch rank → u.rank k = s.rank k) ∧ u.dram.queue = s.dram.queue ∧ u.dram.mem = s.dram.mem) ∧
  (∀ (s : State) (t : Tier) (ch rank : Nat), s.alive = true → ch < channels t → rank < maxRanks t →
    (s.rank (rankKey t ch rank)).down = true → rankBusy s t (rankKey t ch rank) = true →
    exec (.rankWake t ch rank) s = .next (s.setRank (rankKey t ch rank) { lastReq := s.clk.now, down := false }))

/-- R232, R233, R237: a tier sleeps where nothing of it is in use, else the command is refused with its bit; it wakes, and what waited is
answered; the data rate changes when the queued requests are done; the error windows restart, and clearing SUSPECT restarts one, but
not against the hardware's set of the same cycle (R9). -/
def Obligations.TiersSleepWakeAndChangeRate : Prop :=
  (∀ (s : State) (fn : Fn) (t : Tier), adminBus s fn →
    exec (.tierSleep fn t) s = .next (if tierUsed s t || tierMigs s t || tierScrub s t
      then s.setTier t { s.tier t with status := setBit (s.tier t).status 4 } else selfRefresh t (s.setTier t { s.tier t with asleep := true }))) ∧
  (∀ (s : State) (fn : Fn) (t : Tier), adminBus s fn → (s.tier t).asleep = true →
    exec (.tierWake (some fn) t) s = .next (s.setTier t { s.tier t with waking := true })) ∧
  (∀ (s : State) (t : Tier), s.alive = true → (s.tier t).asleep = true →
    exec (.tierWake none t) s = .next (s.setTier t { s.tier t with waking := true })) ∧
  (∀ (s : State) (t : Tier), s.alive = true → (s.tier t).waking = true →
    Runs (.tierWakeDone t) s (touches (.tierWakeDone t)) fun u => ∃ v, u = mrpWork v ∧ Within [.dram, .hosts, .out] s v ∧
      v.tier t = { s.tier t with asleep := false, waking := false, owed := [] } ∧ v.dram.mem = s.dram.mem ∧
      ∀ o f, (s.tier t).owed = [(o, f)] → (s.host o.port).cur = some o.id → answeredFor v o .ok f) ∧
  (∀ (s : State) (fn : Fn), adminBus s fn → s.dram.bulk.moving = none → s.dram.bulk.order ≠ [] →
    exec (.rateApply fn) s = .next (s.setTier .bulk { s.dram.bulk with moving := some (rateFor s) })) ∧
  (∀ (s : State) (ok : Bool) (r : Nat), s.alive = true → s.dram.bulk.moving = some r →
    (∀ o ∈ s.dram.queue, o.tier = .bulk → o.held = true) →
    Runs (.rateApplyDone ok) s (touches (.rateApplyDone ok)) fun u => ∃ v, u = mrpWork v ∧ Within [.dram] s v ∧
      v.dram.bulk.moving = none ∧ v.dram.bulk.rate = (if ok then r else s.dram.bulk.rate) ∧
      (ok = false → bit v.dram.bulk.status 5 = true) ∧ (∀ o ∈ v.dram.queue, o.tier = .bulk → o.held = false) ∧ v.dram.mem = s.dram.mem ∧
      ∀ ch ∈ s.dram.bulk.order, (v.chan (chanKey .bulk ch)).seed = seedOf s s.boot.learned .bulk ch) ∧
  (∀ s : State, s.dram.ceAt = some s.clk.now → exec .ceWindowStart s = .next s) ∧
  (∀ s : State, atBoundary s = true → s.clk.now % 65536 = 0 → s.dram.ceAt ≠ some s.clk.now →
    Runs .ceWindowStart s [.dram] fun u => (∀ k, (u.chan k).window = 0) ∧ u.dram.mem = s.dram.mem) ∧
  (∀ (s : State) (fn : Fn) (t : Tier) (ch : Nat), adminBus s fn → ch < channels t → (s.chan (chanKey t ch)).suspect = true →
    exec (.chSuspectClear fn t { ch, set := true }) s = .next s ∧
    exec (.chSuspectClear fn t { ch, set := false }) s = .next (s.setChan (chanKey t ch) { s.chan (chanKey t ch) with suspect := false, window := 0 }))

/-! ## The directory (chapter 11) -/

/-- R248, R249, R262, R264, R266: an agent's release sweeps it out of every precise entry and frees its index; a snoop, grant or offer not
answered in time is counted and ends; a tile's lines are recalled; reading DIR_LK_ENTRY_0 takes the snapshot. -/
def Obligations.DirectoryReleasesRecallsAndTimesOut : Prop :=
  (∀ (s : State) (fn : Fn) (m : MbxHdr) (ep : BitVec 16) (a : Nat), mbxReady s fn m 2 → s.isAdmin fn = true → ep.toNat ≤ 0xFFF →
    (s.lookup bindInst (2 * ep.toNat + 1)).getLsbD 31 = false → agentOf s (ep.setWidth 12) = some a →
    (∀ w ∈ s.dir.sweeps, w.agent ≠ a) →
    Runs (.agentRelease fn m ep) s (touches (.agentRelease fn m ep)) fun u =>
      u.dir.sweeps = s.dir.sweeps ++ [{ agent := a, owed := [owedFor s fn 0x0301 m] }] ∧
      ∀ slot, (u.ent slot).coarse = false → a ∉ (u.ent slot).ptrs) ∧
  (∀ (s : State) (k : Fin 1024) (w : Sweep), s.alive = true → (s.dir.sweeps.find? fun w => decide (w.agent = k.val)) = some w →
    Runs (.agentSweepDone k) s (touches (.agentSweepDone k)) fun u =>
      Tbl.get none u.dir.agents k = none ∧ (∀ x ∈ u.dir.sweeps, x.agent ≠ k.val) ∧
      (∀ slot, (u.ent slot).coarse = false → k.val ∉ (u.ent slot).ptrs) ∧
      ∀ o, w.owed = [o] → (sweepAgent k s).alive = true → ((sweepAgent k s).host o.port).cur = some o.id → answeredFor u o .ok []) ∧
  (∀ (s : State) (slot : Nat) (k : Trk) (w : Await), s.alive = true → (s.dir.trks.find? fun k => decide (k.slot = some slot)) = some k →
    k.st = .ga → (k.waits.filter fun w => decide (w.expiry ≤ s.clk.now)) = [w] →
    Runs (.snoopTimeout slot) s (touches (.snoopTimeout slot)) fun u => ∃ v, u = settle v ∧ trkAt v k.tier k.line = none ∧
      v.dir.tmo = sat32 s.dir.tmo 1 ∧ bit v.dir.status 2 = true ∧ v.dir.ents = s.dir.ents) ∧
  (∀ (s : State) (t : Tier) (p : BitVec 22) (c : RecallCause) (slot : Nat) (e : DirEnt), s.alive = true →
    recallStarts s t p.toNat c = true → s.dir.recallQ = [] → (c = .destroyed → entLive s e = false) →
    (s.dir.ents.filter fun (_, e) => decide (e.st ≠ .i) && decide (e.tier = t) && decide (e.line / 16384 = p.toNat)) = [(slot, e)] →
    s.ent slot = e → trkAt s e.tier e.line = none → trkFree s e.line = true → holders s e ≠ [] →
    Runs (.tileRecall t p c) s (touches (.tileRecall t p c)) fun u => ∃ v, u = settle v ∧ ∃ k ∈ v.dir.trks,
      k.st = .rc ∧ k.slot = some slot ∧ k.drop = decide (c = .unmap ∨ c = .destroyed) ∧ k.waits.map Await.agent = holders s e) ∧
  (∀ (s : State) (t : Tier) (p : BitVec 22) (c : RecallCause), recallStarts s t p.toNat c = false →
    exec (.tileRecall t p c) s = .next s) ∧
  (∀ (s : State) (fn : Fn), hostUp s fn = true → s.takesHost = true → fn.vf = 0 → maySee s fn 0x600208 = true →
    answers s fn 0x600208 = true →
    Runs (.dirLkEntryRead fn) s [.dir, .out] fun u => Tbl.get [] u.dir.snap fn.port = dirSnapshot s ∧
      u.out = .regRead fn 0x600208 ((dirSnapshot s).getD 0 0) :: s.out ∧ u.dir = { s.dir with snap := u.dir.snap })

/-! ## Engine queues (chapter 12) -/

/-- R272, R273, R285, R287 to R289: a queue is created ACTIVE on its instance, asked for, and destroyed through STOPPING; a doorbell and a
completion head move as far as they may, and a bad value sets the queue's own flag; an abort ends its command or marks its index. -/
def Obligations.QueuesAreMadeRungAndStopped : Prop :=
  (∀ (s : State) (fn : Fn) (m : MbxHdr) (tenant queue cls n place inst : Byte) (vector : BitVec 16) (sqBase cqBase : BitVec 64) (i : Nat),
    mbxReady s fn m 24 → createCheck s fn tenant queue cls n place inst sqBase cqBase = none →
    i = (if inst = 0xFF then (leastBound s cls.toNat).getD 0 else inst.toNat) →
    Runs (.queueCreate fn m tenant queue cls n place inst vector sqBase cqBase) s [.serialNo, .eng, .hosts, .out] fun u =>
      u.queue (qNum (queueNamed tenant queue)) =
        { state := 1, cls := cls.toNat, host := decide (place = 1), n := n.toNat, inst := i, vector, sqBase, cqBase } ∧
      (∀ k, k ≠ qNum (queueNamed tenant queue) → u.queue k = s.queue k) ∧ answered s u fn 0x0401 m .ok [BitVec.ofNat 8 i]) ∧
  (∀ (s : State) (fn : Fn) (m : MbxHdr) (tenant queue : Byte) (k : Nat), mbxReady s fn m 2 → queueRight s fn tenant queue = none →
    (tenant ≠ 0xFF → (s.tenant tenant.toNat).state = .live) → k = qNum (queueNamed tenant queue) → (s.queue k).state = 0 →
    Runs (.queueDestroy fn m tenant queue) s [.serialNo, .hosts, .out] fun u =>
      answered s u fn 0x0402 m .ok (leBytes 4 (s.queue k).lost.toNat)) ∧
  (∀ (s : State) (fn : Fn) (m : MbxHdr) (tenant queue : Byte) (k : Nat), mbxReady s fn m 2 → queueRight s fn tenant queue = none →
    (tenant ≠ 0xFF → (s.tenant tenant.toNat).state = .live) → k = qNum (queueNamed tenant queue) →
    ((s.queue k).state = 1 ∨ (s.queue k).state = 2) → (s.queue k).cmds = [] →
    Runs (.queueDestroy fn m tenant queue) s (touches (.queueDestroy fn m tenant queue)) fun u =>
      u.queue k = { s.queue k with
        state := 3, endSt := .aborted, endTiles := true, endHost := true, owed := (s.queue k).owed ++ [owedFor s fn 0x0402 m] } ∧
      inProgress s u fn) ∧
  (∀ (s : State) (fn : Fn) (m : MbxHdr) (tenant queue : Byte) (k : Nat) (c : Cmd), mbxReady s fn m 2 → queueRight s fn tenant queue = none →
    (tenant ≠ 0xFF → (s.tenant tenant.toNat).state = .live) → k = qNum (queueNamed tenant queue) → (s.queue k).state = 1 →
    (s.queue k).cmds = [c] → c.phase = .fetched → c.swept = false → c.aborted = false →
    Runs (.queueDestroy fn m tenant queue) s (touches (.queueDestroy fn m tenant queue)) fun u => (u.queue k).state = 3 ∧
      (u.queue k).cmds = [{ c with
        phase := .finished, ended := true, status := .aborted, count := 0, aux := 0, tag := [], swept := true }]) ∧
  (∀ (s : State) (fn : Fn) (m : MbxHdr) (tenant queue : Byte), mbxTakes s fn m 2 → queueRight s fn tenant queue = none →
    (tenant = 0xFF ∨ (s.tenant tenant.toNat).state = .live ∨ (s.queue (qNum (queueNamed tenant queue))).state = 3) →
    Runs (.queueQuery fn m tenant queue) s [.serialNo, .hosts, .out] fun u =>
      answered s u fn 0x0403 m .ok (wordBytes (queueWords (s.queue (qNum (queueNamed tenant queue)))))) ∧
  (∀ (s : State) (fn : Fn) (q : QId) (v : Word) (x : Queue) (n t : Nat), queueSeen s fn q 0x14 → qLive s q = true → x = s.queue (qNum q) →
    x.state = 1 → n = qSize x → t = v.toNat % 65536 →
    exec (.sqDoorbell fn q v) s = .next (s.setQueue (qNum q)
      (if t < n ∧ (x.sqTail + n - x.sqHead) % n ≤ (t + n - x.sqHead) % n then { x with sqTail := t } else { x with illegal := true }))) ∧
  (∀ (s : State) (fn : Fn) (q : QId) (v : Word), queueSeen s fn q 0x14 → (s.queue (qNum q)).state ≠ 1 →
    exec (.sqDoorbell fn q v) s = .next (s.setQueue (qNum q) { s.queue (qNum q) with illegal := true })) ∧
  (∀ (s : State) (fn : Fn) (q : QId) (v : Word) (x : Queue) (n h : Nat), queueSeen s fn q 0x1C → x = s.queue (qNum q) → n = qSize x →
    h = v.toNat % 65536 →
    exec (.cqHeadWrite fn q v) s = .next (s.setQueue (qNum q)
      (if h < n ∧ (h + n - x.cqHead) % n ≤ (x.cqTail + n - x.cqHead) % n then { x with cqHead := h } else { x with illegal := true }))) ∧
  (∀ (s : State) (fn : Fn) (q : QId) (v : Word) (c : Cmd), queueSeen s fn q 0x24 → bit v 31 = true → (s.queue (qNum q)).abPend = none →
    v.toNat % 65536 < qSize (s.queue (qNum q)) → findCmd s q (v.setWidth 16) = some c → c.phase = .fetched → c.mig = none → c.swept = false →
    Runs (.qAbort fn q v) s (touches (.qAbort fn q v)) fun u => (u.queue (qNum q)).abPend = some (BitVec.ofNat 8 Status.aborted.code) ∧
      (u.queue (qNum q)).abIndex = v.setWidth 16 ∧ findCmd u q (v.setWidth 16) = some { c with
        aborted := true, phase := .finished, ended := true, status := .aborted, count := 0, aux := 0, tag := [] }) ∧
  (∀ (s : State) (fn : Fn) (q : QId) (v : Word) (c : Cmd), queueSeen s fn q 0x24 → bit v 31 = true → (s.queue (qNum q)).abPend = none →
    v.toNat % 65536 < qSize (s.queue (qNum q)) → findCmd s q (v.setWidth 16) = some c → c.swept = true → c.phase = .finished → c.mig = none →
    Runs (.qAbort fn q v) s (touches (.qAbort fn q v)) fun u => (u.queue (qNum q)).abPend = some (BitVec.ofNat 8 Status.aborted.code) ∧
      findCmd u q (v.setWidth 16) = some c) ∧
  (∀ (s : State) (fn : Fn) (q : QId) (v : Word), queueSeen s fn q 0x24 → bit v 31 = true → (s.queue (qNum q)).abPend = none →
    v.toNat % 65536 < qSize (s.queue (qNum q)) → findCmd s q (v.setWidth 16) = none →
    Runs (.qAbort fn q v) s (touches (.qAbort fn q v)) fun u => (u.queue (qNum q)).cmds = (s.queue (qNum q)).cmds ∧
      if submitted (s.queue (qNum q)) (v.toNat % 65536) = true ∧ (s.queue (qNum q)).state ≠ 0
      then (u.queue (qNum q)).abPend = some (BitVec.ofNat 8 Status.aborted.code) ∧ v.setWidth 16 ∈ (u.queue (qNum q)).abSet
      else (u.queue (qNum q)).abPend = some (BitVec.ofNat 8 Status.alreadyDone.code) ∧ (u.queue (qNum q)).abSet = (s.queue (qNum q)).abSet) ∧
  (∀ (s : State) (q : QId), s.alive = true → (s.queue (qNum q)).state = 3 → (s.queue (qNum q)).cmds = [] →
    Runs (.queueStopped q) s [.eng, .hosts, .out] fun u => u.queue (qNum q) = { lost := (s.queue (qNum q)).lost } ∧
      ∀ o, (s.queue (qNum q)).owed = [o] → (s.host o.port).cur = some o.id →
        answeredFor u o .ok (leBytes 4 (s.queue (qNum q)).lost.toNat))

/-- R271, R273, R276, R277, R283: a submitted descriptor is fetched in order, and a failed fetch puts the queue in ERROR; a command that has
ended is finished; the oldest finished command's completion is written at the tail with its phase and its message, and a failed write is
counted and stops the queue. -/
def Obligations.CommandsAreFetchedFinishedAndCommitted : Prop :=
  (∀ (s : State) (q : QId) (b : List Byte), s.alive = true → mayFetch (s.queue (qNum q)) = true → (s.queue (qNum q)).host = true →
    BitVec.ofNat 16 (s.queue (qNum q)).sqHead ∉ (s.queue (qNum q)).abSet →
    Runs (.descriptorFetch q (.data b)) s [.eng] fun u =>
      (u.queue (qNum q)).cmds = (s.queue (qNum q)).cmds ++ [{ idx := BitVec.ofNat 16 (s.queue (qNum q)).sqHead, desc := decodeDesc b }] ∧
      (u.queue (qNum q)).sqHead = ((s.queue (qNum q)).sqHead + 1) % qSize (s.queue (qNum q))) ∧
  (∀ (s : State) (t : Fin 128) (k : Fin 8) (h : HostRead) (x : Queue) (va : Nat) (e : TileEnt), s.alive = true →
    x = s.queue (qNum (.tenant t k)) → mayFetch x = true → x.host = false → va = x.sqBase.toNat + 64 * x.sqHead → va % 128 ≤ 64 →
    translateGen s t.val va false (genNow s t.val) = .ok e → lineFree s e va → BitVec.ofNat 16 x.sqHead ∉ x.abSet →
    Runs (.descriptorFetch (.tenant t k) h) s (touches (.descriptorFetch (.tenant t k) h)) fun u =>
      (u.queue (qNum (.tenant t k))).cmds = x.cmds ++ [{ idx := BitVec.ofNat 16 x.sqHead, desc := decodeDesc (bytesAt s e va 64) }] ∧
      (u.queue (qNum (.tenant t k))).sqHead = (x.sqHead + 1) % qSize x ∧ u.dram.mem = s.dram.mem) ∧
  (∀ (s : State) (q : QId), s.alive = true → mayFetch (s.queue (qNum q)) = true → (s.queue (qNum q)).host = true →
    Runs (.descriptorFetch q .error) s (touches (.descriptorFetch q .error)) fun u => (u.queue (qNum q)).state = 2 ∧
      (u.queue (qNum q)).cause = 3 ∧ (u.queue (qNum q)).cmds = (s.queue (qNum q)).cmds ∧ (u.queue (qNum q)).sqHead = (s.queue (qNum q)).sqHead) ∧
  (∀ (s : State) (q : QId) (idx : BitVec 16) (c : Cmd), s.alive = true → findCmd s q idx = some c → c.phase = .running → c.ended = true →
    Runs (.commandFinish q idx) s [.eng] fun u => findCmd u q idx = some { c with phase := .finished, tag := [] }) ∧
  (∀ (s : State) (q : QId) (idx : BitVec 16) (c : Cmd), s.alive = true → findCmd s q idx = some c → mayStart s q c = true →
    opForQueue q (s.queue (qNum q)) c.desc = false →
    Runs (.commandFinish q idx) s [.eng] fun u => findCmd u q idx = some { c with
      phase := .finished, ended := true, status := .unsupported, count := 0, aux := 0, tag := [] }) ∧
  (∀ (s : State) (q : QId) (x : Queue) (c : Cmd) (r : List Cmd), s.alive = true → x = s.queue (qNum q) → x.cmds = c :: r →
    c.phase = .finished → (c.swept = true → x.endHost = true) → x.host = true → (s.host (qHost s q).1).perst = true →
    Runs (.completionCommit q true) s [.eng, .out] fun u =>
      u.queue (qNum q) = { x with
        cmds := r, cqTail := (x.cqTail + 1) % qSize x, phase := if (x.cqTail + 1) % qSize x = 0 then !x.phase else x.phase } ∧
      u.out = (if descIrq c.desc = true ∧ x.vector.toNat < (if (qHost s q).2 = 0 then 256 else 16)
        then [Out.msix (qHost s q).1 (qHost s q).2 x.vector.toNat] else []) ++ .completion q (complAddr x) (complBytes x c) :: s.out) ∧
  (∀ (s : State) (t : Fin 128) (k : Fin 8) (x : Queue) (c : Cmd) (r : List Cmd) (e : TileEnt) (ok : Bool), s.alive = true →
    x = s.queue (qNum (.tenant t k)) → x.cmds = c :: r → c.phase = .finished → (c.swept = true → x.endTiles = true) → x.host = false →
    translateGen s t.val (complAddr x) true (genNow s t.val) = .ok e → lineFree s e (complAddr x) → complAddr x % 128 ≤ 112 →
    Runs (.completionCommit (.tenant t k) ok) s (touches (.completionCommit (.tenant t k) ok)) fun u =>
      (u.queue (qNum (.tenant t k))).cmds = r ∧ (u.queue (qNum (.tenant t k))).cqTail = (x.cqTail + 1) % qSize x ∧
      bytesAt u e (complAddr x) 16 = complBytes x c ∧ onlyLine s u e (complAddr x)) ∧
  (∀ (s : State) (q : QId) (x : Queue) (c : Cmd) (r : List Cmd) (ok : Bool), s.alive = true → x = s.queue (qNum q) → x.cmds = c :: r →
    c.phase = .finished → (c.swept = true → x.endHost = true) → x.host = true → x.state = 1 →
    (ok = true → (s.host (qHost s q).1).perst = false) →
    Runs (.completionCommit q ok) s (touches (.completionCommit q ok)) fun u => (u.queue (qNum q)).state = 2 ∧
      (u.queue (qNum q)).cause = 4 ∧ (u.queue (qNum q)).cmds = r ∧ (u.queue (qNum q)).lost = sat32 x.lost 1)

/-- R169, R242, R243, R278, R280, R286: COPY, FILL, GATHER and SCATTER put the bytes they name where they name, here within one line, and
nothing elsewhere; MCAST_PUSH sends its line to every port of its group; MIGRATE takes a tracker; a physical SCRUB pass over a clean line
counts it and writes its summary. -/
def Obligations.EnginesMoveBytes : Prop :=
  (∀ (s : State) (t : Fin 128) (k : Fin 8) (idx : BitVec 16) (c : Cmd) (es ed : TileEnt), takesUp s (.tenant t k) idx c 1 (copyCheck (.tenant t k) c s) →
    engToken s (.tenant t k) c.desc = true →
    c.pos = 0 → c.tiles = [] → c.list = [] → 0 < c.desc.len → c.desc.src % 128 + c.desc.len ≤ 128 → c.desc.dst % 128 + c.desc.len ≤ 128 →
    translateGen s t.val c.desc.src false (genNow s t.val) = .ok es → translateGen s t.val c.desc.dst true (genNow s t.val) = .ok ed →
    lineFree s es c.desc.src → lineFree s ed c.desc.dst → accessTokens s [(es, c.desc.src), (ed, c.desc.dst)] = true →
    Runs (.copy (.tenant t k) idx) s (touches (.copy (.tenant t k) idx)) fun u => endedWith u (.tenant t k) idx .ok c.desc.len 0 ∧
      bytesAt u ed c.desc.dst c.desc.len = bytesAt s es c.desc.src c.desc.len ∧ onlyLine s u ed c.desc.dst) ∧
  (∀ (s : State) (t : Fin 128) (k : Fin 8) (idx : BitVec 16) (c : Cmd) (ed : TileEnt), takesUp s (.tenant t k) idx c 2 (fillCheck (.tenant t k) c s) →
    engToken s (.tenant t k) c.desc = true →
    c.pos = 0 → c.tiles = [] → c.list = [] → 0 < c.desc.len → c.desc.dst % 128 + c.desc.len ≤ 128 →
    translateGen s t.val c.desc.dst true (genNow s t.val) = .ok ed → lineFree s ed c.desc.dst →
    Runs (.fill (.tenant t k) idx) s (touches (.fill (.tenant t k) idx)) fun u => endedWith u (.tenant t k) idx .ok c.desc.len 0 ∧
      bytesAt u ed c.desc.dst c.desc.len = ((List.range c.desc.len).map fun i => byteOf (descOp c.desc 0x18 8) (i % 8)) ∧
      onlyLine s u ed c.desc.dst) ∧
  (∀ (s : State) (t : Fin 128) (k : Fin 8) (idx : BitVec 16) (c : Cmd) (a ea : Nat) (el es ed : TileEnt),
    takesUp s (.tenant t k) idx c 3 (elementsCheck c s) → engToken s (.tenant t k) c.desc = true →
    c.pos = 0 → c.tiles = [] → c.list = [] → descOp c.desc 0x20 4 = 1 → a = descOp c.desc 0x18 8 →
    a % 128 ≤ 112 → translateGen s t.val a false (genNow s t.val) = .ok el → lineFree s el a →
    parseList 1 (bytesAt s el a 16) = [(ea, c.desc.len)] → listCheck (.tenant t k) { c with list := [(ea, c.desc.len)] } false s = none →
    ea % 128 + c.desc.len ≤ 128 → c.desc.dst % 128 + c.desc.len ≤ 128 → (ea + c.desc.len ≤ c.desc.dst ∨ c.desc.dst + c.desc.len ≤ ea) →
    translateGen s t.val ea false (genNow s t.val) = .ok es → translateGen s t.val c.desc.dst true (genNow s t.val) = .ok ed →
    lineFree s es ea → lineFree s ed c.desc.dst → accessTokens s [(el, a), (es, ea), (ed, c.desc.dst)] = true →
    Runs (.gather (.tenant t k) idx) s (touches (.gather (.tenant t k) idx)) fun u => endedWith u (.tenant t k) idx .ok c.desc.len 1 ∧
      bytesAt u ed c.desc.dst c.desc.len = bytesAt s es ea c.desc.len ∧ onlyLine s u ed c.desc.dst) ∧
  (∀ (s : State) (t : Fin 128) (k : Fin 8) (idx : BitVec 16) (c : Cmd) (a ea : Nat) (el es ed : TileEnt),
    takesUp s (.tenant t k) idx c 4 (elementsCheck c s) → engToken s (.tenant t k) c.desc = true →
    c.pos = 0 → c.tiles = [] → c.list = [] → descOp c.desc 0x20 4 = 1 → a = descOp c.desc 0x18 8 →
    a % 128 ≤ 112 → translateGen s t.val a false (genNow s t.val) = .ok el → lineFree s el a →
    parseList 1 (bytesAt s el a 16) = [(ea, c.desc.len)] → listCheck (.tenant t k) { c with list := [(ea, c.desc.len)] } true s = none →
    ea % 128 + c.desc.len ≤ 128 → c.desc.src % 128 + c.desc.len ≤ 128 → (ea + c.desc.len ≤ c.desc.src ∨ c.desc.src + c.desc.len ≤ ea) →
    translateGen s t.val c.desc.src false (genNow s t.val) = .ok es → translateGen s t.val ea true (genNow s t.val) = .ok ed →
    lineFree s es c.desc.src → lineFree s ed ea → accessTokens s [(el, a), (es, c.desc.src), (ed, ea)] = true →
    Runs (.scatter (.tenant t k) idx) s (touches (.scatter (.tenant t k) idx)) fun u => endedWith u (.tenant t k) idx .ok c.desc.len 1 ∧
      bytesAt u ed ea c.desc.len = bytesAt s es c.desc.src c.desc.len ∧ onlyLine s u ed ea) ∧
  (∀ (s : State) (t : Fin 128) (k : Fin 8) (idx : BitVec 16) (c : Cmd) (es : TileEnt) (w : List Nat), takesUp s (.tenant t k) idx c 5 (pushCheck (.tenant t k) c s) →
    engToken s (.tenant t k) c.desc = true → c.mcTag = none →
    c.pos = 0 → c.tiles = [] → 0 < c.desc.len → c.desc.src % 128 + c.desc.len ≤ 128 → w = s.mcEntry (descOp c.desc 0x18 1) →
    translateGen s t.val c.desc.src false (genNow s t.val) = .ok es → lineFree s es c.desc.src →
    Runs (.mcastPush (.tenant t k) idx) s (touches (.mcastPush (.tenant t k) idx)) fun u =>
      (∃ c', findCmd u (.tenant t k) idx = some c' ∧ c'.pos = c.desc.len) ∧ u.dram.mem = s.dram.mem ∧
      ∀ n < 32, if mcHas w n = true ∧ portUsable s n = true
        then sent s u n { msgItem { opcode := 0x62, aux := BitVec.ofNat 8 (mcDown w n), src := s.xpt.endpoint, tenant := BitVec.ofNat 7 t.val,
                                    data := bytesAt s es c.desc.src c.desc.len } with push := some (.tenant t k, idx), tags := [s.tagOf mcInst] }
        else (u.port n).txq = (s.port n).txq) ∧
  (∀ (s : State) (a : Fin 8) (idx : BitVec 16) (c : Cmd) (t tile k : Nat) (dst : Tier), takesUp s (.admin a) idx c 6 (migrateCheck c s) →
    c.mig = none → t = descOp c.desc 0x18 1 → tile = descOp c.desc 0x1C 4 → dst = Tier.ofBit (decide (descOp c.desc 0x19 1 = 1)) →
    t < 128 → tile < 2 ^ 27 → (s.tileShadow t tile).valid = true → (s.tileShadow t tile).shared = false → s.tileAt t tile = s.tileShadow t tile →
    (s.tileShadow t tile).migrating = false → freeMig s = some k → dst ≠ (s.tileShadow t tile).tier →
    (match dst with
      | .near => (s.part (s.tenant t).part).nearUsed < (s.part (s.tenant t).part).nearQuota
      | .bulk => (s.part (s.tenant t).part).bulkUsed < (s.part (s.tenant t).part).bulkQuota) →
    0 < freeCount s dst →
    Runs (.migrate (.admin a) idx) s (touches (.migrate (.admin a) idx)) fun u => (u.tileAt t tile).migrating = true ∧ (u.mig k).state = 1 ∧
      (u.mig k).dstTier = dst ∧ (u.mig k).dst < tierTiles s dst ∧ s.use (tileKey dst (u.mig k).dst) = .free ∧
      (u.mig k).cmd = some (.admin a, idx) ∧
      ∃ c', findCmd u (.admin a) idx = some c' ∧ c'.mig = some k ∧ c'.phase = .running ∧ c'.ended = false) ∧
  (∀ (s : State) (a : Fin 8) (idx : BitVec 16) (c : Cmd), takesUp s (.admin a) idx c 0x10 (scrubCheck (.admin a) c s) →
    engToken s (.admin a) c.desc = true → (s.host s.cfg.adminPort).perst = true →
    scrubPhysical c.desc = true → c.scrub = {} → c.pos = 0 → c.desc.len = 128 →
    s.use (tileKey (scrubTier c.desc) (c.desc.src / 2 ^ 21)) ≠ .retired → lineBusy s (scrubTier c.desc) (c.desc.src / 128) = false →
    tierRuns s (scrubTier c.desc) = true → dramToken s (scrubTier c.desc) (c.desc.src / 128) = true →
    s.poisoned (scrubTier c.desc) (c.desc.src / 128) = false →
    Runs (.scrub (.admin a) idx []) s (touches (.scrub (.admin a) idx [])) fun u =>
      (∃ c', findCmd u (.admin a) idx = some c' ∧ c'.ended = true ∧ c'.status = .ok ∧ c'.count = 128 ∧ c'.scrub.scanned = 1) ∧
      u.dram.mem = s.dram.mem ∧ ∃ b, u.out = .hostWrite s.cfg.adminPort (descOp c.desc 0x18 8) b :: s.out ∧ b.take 8 = leBytes 8 1)

/-! ## The voxel engine (chapter 13) -/

/-- R292, R294 to R297, R299, Table 13.6: a voxel command whose scratch region is too short ends with BUFFER_SHORT and the length it needs;
VOXEL_SAMPLE keeps one record for each voxel that holds a point, and writes the records; RULEBOOK_BUILD writes the rulebook of its sites;
SITE_LOOKUP writes the index of each query's site. -/
def Obligations.VoxelCommandsWriteTheirResults : Prop :=
  (∀ (d : Desc) (pts : List (List Byte)), (((samplePts d pts 0 []).1.map (List.take 8)).Nodup) ∧
    ∀ x, x ∈ (samplePts d pts 0 []).1.map (List.take 8) ↔ ∃ b ∈ pts, (voxOf d b).map siteBytes = some x) ∧
  (∀ (s : State) (t : Fin 128) (k : Fin 8) (idx : BitVec 16) (c : Cmd) (i : Instr) (op need : Nat) (chk : Option Status),
    (i, op, need, chk) ∈ [(Instr.voxelSample (.tenant t k) idx, 0x20, scratchNeed (c.desc.len / 16), sampleCheck (.tenant t k) c s),
      (.rulebookBuild (.tenant t k) idx, 0x21, scratchNeed (c.desc.len / descOp c.desc 0x28 1), rulebookCheck (.tenant t k) c s),
      (.siteLookup (.tenant t k) idx, 0x22, scratchNeed (c.desc.len / descOp c.desc 0x30 1), lookupCheck (.tenant t k) c s)] →
    takesUp s (.tenant t k) idx c op chk → 2 ^ voxLog c.desc < need →
    Runs i s (touches i) fun u => endedWith u (.tenant t k) idx .bufferShort need 2 ∧ u.dram = s.dram ∧
      Tbl.get 0 u.eng.short (s.queue (qNum (.tenant t k))).inst = sat32 (Tbl.get 0 s.eng.short (s.queue (qNum (.tenant t k))).inst) 1) ∧
  (∀ (s s1 s2 : State) (q : QId) (idx : BitVec 16) (c c1 c2 : Cmd),
    takesUp s q idx c 0x20 (sampleCheck q c s) → c.vox = {} → c.pos = 0 → scratchNeed (c.desc.len / 16) ≤ 2 ^ voxLog c.desc →
    scratchCleared (tookUp s q c) q { c with phase := .running } s1 c1 → voxRead q 16 c1 s1 = (.done, c2, s2) →
    scratchPoison s2 q c.desc = false →
    Runs (.voxelSample q idx) s (touches (.voxelSample q idx)) fun u =>
      ∀ recs drops fit n c3 s3, samplePts c.desc (entries 16 (c.desc.len / 16) c2.vox.got) 0 [] = (recs, drops) →
        fit = (recs.take (voxOutLen c.desc / 16)).flatten →
        writeSome q 1 (fit.length + 1) c.desc.dst fit 0 c2 { voxCount q 0 drops 0 s2 with serialNo := s2.serialNo + 1 } = (n, .done, c3, s3) →
        (if recs.length * 16 ≤ voxOutLen c.desc then endedWith u q idx .ok (16 * recs.length) (BitVec.ofNat 32 drops)
         else endedWith u q idx .bufferShort (16 * recs.length) 1) ∧ u.dram = s3.dram) ∧
  (∀ (s s1 s2 : State) (q : QId) (idx : BitVec 16) (c c1 c2 : Cmd),
    takesUp s q idx c 0x21 (rulebookCheck q c s) → c.vox = {} → c.pos = 0 →
    scratchNeed (c.desc.len / descOp c.desc 0x28 1) ≤ 2 ^ voxLog c.desc →
    scratchCleared (tookUp s q c) q { c with phase := .running } s1 c1 → voxRead q (descOp c.desc 0x28 1) c1 s1 = (.done, c2, s2) →
    scratchPoison s2 q c.desc = false →
    Runs (.rulebookBuild q idx) s (touches (.rulebookBuild q idx)) fun u =>
      ∀ sites only, sites = (entries (descOp c.desc 0x28 1) (c.desc.len / descOp c.desc 0x28 1) c2.vox.got).map siteOf →
        only = (firsts sites 0 []).map Prod.snd →
        match (if descOp c.desc 0x29 1 = 1 then some (only, 0) else findOutputs (2 ^ voxLog c.desc / 32) (rbStride c.desc) only
          (only.flatMap fun i => (kernel (rbKernel c.desc)).map fun k => (i, k)) [] 0) with
        | none => if voxLog c.desc = 31 then endedWith u q idx .unsupported 0 0
            else endedWith u q idx .bufferShort (2 ^ (voxLog c.desc + 1)) 2
        | some (outs, miss) => ∀ buf, buf = rulebook c.desc outs
              ((kernel (rbKernel c.desc)).map (pairsAt (rbStride c.desc) (firsts sites 0 []) outs)) →
            if voxOutLen c.desc < buf.length then endedWith u q idx .bufferShort buf.length 1
            else ∀ n c3 s3, writeSome q 1 (buf.length + 1) c.desc.dst buf 0 c2 { s2 with serialNo := s2.serialNo + 1 } = (n, .done, c3, s3) →
              endedWith u q idx .ok n (BitVec.ofNat 32 miss) ∧ u.dram = s3.dram) ∧
  (∀ (s s1 s2 s3 : State) (q : QId) (idx : BitVec 16) (c c1 c2 c3 : Cmd) (b : List Byte),
    takesUp s q idx c 0x22 (lookupCheck q c s) → c.vox = {} → c.pos = 0 →
    scratchNeed (c.desc.len / descOp c.desc 0x30 1) ≤ 2 ^ voxLog c.desc → 4 * descOp c.desc 0x2C 4 ≤ voxOutLen c.desc →
    scratchCleared (tookUp s q c) q { c with phase := .running } s1 c1 → voxRead q (descOp c.desc 0x30 1) c1 s1 = (.done, c2, s2) →
    readSome q 0 (8 * descOp c.desc 0x2C 4) (descOp c.desc 0x24 8) (8 * descOp c.desc 0x2C 4) [] (leaveTiles c2) s2 = (b, .done, c3, s3) →
    scratchPoison s3 q c.desc = false →
    Runs (.siteLookup q idx) s (touches (.siteLookup q idx)) fun u =>
      ∀ sites res out n c4 s4, sites = (entries (descOp c.desc 0x30 1) (c.desc.len / descOp c.desc 0x30 1) c2.vox.got).map siteOf →
        res = ((entries 8 (descOp c.desc 0x2C 4) b).map fun e => sites.findIdx? (· = siteOf e)) →
        out = (res.flatMap fun r => leBytes 4 (r.getD 0xFFFFFFFF)) →
        writeSome q 1 (out.length + 1) c.desc.dst out 0 { c3 with vox := { c3.vox with qry := b } } { s3 with serialNo := s3.serialNo + 1 } =
          (n, .done, c4, s4) →
        endedWith u q idx .ok n (BitVec.ofNat 32 (res.filter Option.isNone).length) ∧ u.dram = s4.dram)

/-! ## The Sedge array (chapter 14) -/

/-- R316 to R320, R324, R334: a launch waits its turn, takes its columns with its argument words and its timer, and is ended by DONE, by its
timer, by stalls or by STOP; its commit frees the columns and finishes its command. READBACK writes frames and check words, and ARRAY_QUERY
answers the columns of a partition. -/
def Obligations.LaunchesStartAndEnd : Prop :=
  (∀ (s : State) (q : QId) (idx : BitVec 16) (c : Cmd) (i : Instr) (op : Nat) (chk : Option Status),
    (i, op, chk) ∈ [(Instr.launch q idx, 0x30, launchCheck q c s), (.loadFrames q idx, 0x31, loadCheck q c s)] → takesUp s q idx c op chk →
    c.turn = none →
    Runs i s [.serialNo, .eng] fun u => findCmd u q idx = some { c with phase := .running, turn := some s.serialNo } ∧
      u.serialNo = s.serialNo + 1) ∧
  (∀ (s s1 : State) (q : QId) (idx : BitVec 16) (c : Cmd) (b : List Byte) (r : Launch), s.alive = true → findCmd s q idx = some c →
    c.desc.opcode = 0x30 → c.phase = .running → c.ended = false → c.turn ≠ none → columnsFree s q c = true →
    (∀ k ∈ cmdCols c, (s.col k).state ≠ .halted) → engReadAll (.cmd q idx) (qTen q) (descHint c.desc) 256 c.desc.src c.desc.len s = .ok b s1 →
    r = { q, idx, tenant := qTen q, part := qPart s (qNum q), first := colFirst c, count := colCount c,
          args := wordsOf b ++ List.replicate (64 - (wordsOf b).length) 0 } →
    (launchStreams s r).2 = [] → zeroCounters s r = [] → (∀ k ∈ regionCols r, cutUnits s r k = []) →
    Runs (.launchStart q idx) s (touches (.launchStart q idx)) fun u =>
      (∃ r', launchOf u q idx = some r' ∧ r'.args = r.args ∧ r'.first = r.first ∧ r'.count = r.count ∧ r'.tenant = r.tenant ∧
        firing r' = true ∧ r'.streams = (launchStreams s r).1 ∧
        r'.expiry = if descOp c.desc 0x1A 2 = 0 then none else some (s.clk.now + descOp c.desc 0x1A 2)) ∧
      (∀ k ∈ cmdCols c, (u.col k).state = .running ∧ (u.col k).tenant = qTen q ∧ (u.col k).first = colFirst c ∧ (u.col k).count = colCount c) ∧
      u.arr.launches = sat32 s.arr.launches 1 ∧ u.dram = s1.dram) ∧
  (∀ (s : State) (col : Fin 64) (w : Word) (r : Launch) (l : List Word), s.alive = true → launchOn s col.val = some r → r.first = col.val →
    r.toDone = w :: l →
    Runs (.launchDone col w) s [.eng, .arr] fun u => ∃ r', launchOn u col.val = some r' ∧ r'.toDone = l ∧
      if doneStands r s = true then r'.done = some w ∧ r'.ended = none else r'.done = r.done ∧ r'.ended = r.ended) ∧
  (∀ (s : State) (q : QId) (idx : BitVec 16) (r : Launch) (c : Cmd), s.alive = true → launchOf s q idx = some r → firing r = false →
    accessesDone r = true → findCmd s q idx = some c → c.phase = .running →
    Runs (.launchCommit q idx) s [.eng, .arr] fun u => launchOf u q idx = none ∧
      (∀ k ∈ regionCols r, (u.col k).state = if (s.col k).state = .halted then .halted else .loaded) ∧
      u.arr.abnormal = (if r.ended = none then s.arr.abnormal else sat32 s.arr.abnormal 1) ∧
      ∃ c', findCmd u q idx = some c' ∧ c'.phase = .finished ∧ c'.count = r.bytes ∧
        (r.ended = none → c'.status = .ok ∧ c'.aux = r.done.getD 0) ∧
        ∀ cause unit st, r.ended = some (cause, unit, st) → c'.status = st ∧
          c'.aux = field 24 cause ||| (if cause = 3 ∨ cause = 6 ∨ cause = 7 then BitVec.ofNat 32 (unit % 1024) else 0)) ∧
  (∀ (s : State) (q : QId) (idx : BitVec 16) (r : Launch) (b : Nat), atBoundary s = true → launchOf s q idx = some r → firing r = true →
    r.expiry = some b →
    Runs (.launchTimeout q idx) s [.arr] fun u => if b ≤ s.clk.now then launchEnded u q idx (1, 0, .timeout) else u = s) ∧
  (∀ (s : State) (q : QId) (idx : BitVec 16) (r : Launch), atBoundary s = true → launchOf s q idx = some r → firing r = true →
    Runs (.arrayStall q idx) s [.arr] fun u =>
      if bits s.arr.cfg 7 0 ≠ 0 ∧ bits s.arr.cfg 7 0 ≤ r.stalls then launchEnded u q idx (2, 0, .timeout) ∧ bit u.arr.status 2 = true
      else u = s) ∧
  (∀ (s : State) (q : QId) (idx : BitVec 16) (c : Cmd) (r : Launch), takesUp s q idx c 0x33 (stopCheck q c s) →
    (s.arr.runs.find? fun r => (cmdCols c).all (inRegion r)) = some r → launchOf s r.q r.idx = some r → r.tenant = qTen q → firing r = true →
    Runs (.stop q idx) s [.eng, .arr] fun u => launchEnded u r.q r.idx (4, 0, .aborted) ∧ endedWith u q idx .ok 0 0) ∧
  (∀ (s : State) (q : QId) (idx : BitVec 16) (c : Cmd), takesUp s q idx c 0x33 (stopCheck q c s) →
    (s.arr.runs.find? fun r => (cmdCols c).all (inRegion r)) = none →
    Runs (.stop q idx) s [.eng] fun u => endedWith u q idx .alreadyDone 0 0) ∧
  (∀ (s : State) (q : QId) (idx : BitVec 16) (c : Cmd), takesUp s q idx c 0x32 (readbackCheckCmd q c s) → c.desc.len < 10400 * colCount c →
    Runs (.readback q idx) s [.eng] fun u => endedWith u q idx .bufferShort (10400 * colCount c) 0) ∧
  (∀ (s : State) (t : Fin 128) (k : Fin 8) (idx : BitVec 16) (c : Cmd) (a n : Nat) (e : TileEnt),
    takesUp s (.tenant t k) idx c 0x32 (readbackCheckCmd (.tenant t k) c s) → 10400 * colCount c ≤ c.desc.len →
    (c.pos = 0 → ∀ k ∈ cmdCols c, (s.col k).state ≠ .loading) → a = c.desc.dst + c.pos → n = 10400 * colCount c - c.pos → 0 < n →
    a % 128 + n ≤ 128 → translateGen s t.val a true (sideGen s t.val c 1 a) = .ok e → lineFree s e a →
    Runs (.readback (.tenant t k) idx) s (touches (.readback (.tenant t k) idx)) fun u =>
      bytesAt u e a n = ((List.range n).map fun i => readbackByte s (colFirst c) (c.pos + i)) ∧ onlyLine s u e a ∧
      endedWith u (.tenant t k) idx .ok (10400 * colCount c) (BitVec.ofNat 32 (40 * colCount c))) ∧
  (∀ (s : State) (fn : Fn) (m : MbxHdr) (part : Byte), mbxTakes s fn m 1 →
    s.owns fn part.toNat = true ∨ (s.isAdmin fn = true ∧ (s.part part.toNat).valid = true ∧ part.toNat < 16) →
    Runs (.arrayQuery fn m part) s [.serialNo, .hosts, .out] fun u =>
      answered s u fn 0x0501 m .ok (BitVec.ofNat 8 (s.part part.toNat).colCount ::
        (List.range (s.part part.toNat).colCount).flatMap fun i =>
          leBytes 4 (colWord s ((s.part part.toNat).colFirst + i)).toNat))

/-- R309, R311 to R315, Tables 14.2 to 14.4: a firing places one entry in each queue joined to an output it produces on, and takes one from
each input it consumes that is joined and not sticky; units with entries on their inputs and room on their outputs fire as their frames
configure them, a unit that is not configured does nothing, and a memory unit issues its accesses in stream order and completes the oldest. -/
def Obligations.UnitsFire : Prop :=
  (∀ (s : State) (unit port : Nat) (v : BitVec 1024) (r : Launch) (k : Nat), Tbl.get [] (produce s unit port v r).queues k =
    Tbl.get [] r.queues k ++ List.replicate ((outConns s unit port).filter fun c => decide (connKey c = k)).length v) ∧
  (∀ (s : State) (unit port : Nat) (r : Launch) (k : Nat), Tbl.get [] (consume s unit port r).queues k =
    if k = inKey unit port ∧ inConnected s r unit port = true ∧ sticky s unit port = false then (Tbl.get [] r.queues k).tail
    else Tbl.get [] r.queues k) ∧
  (∀ (s : State) (col : Fin 64) (cu : Fin 8) (r : Launch) (n : Nat) (cfg : CuCfg) (a b c : BitVec 1024) (k : Nat), n = unitId col.val cu.val →
    unitFull s col.val n r → cfg = cuOf s col.val cu.val → a = front r n 0 → b = cfg.constB.getD (front r n 1) →
    c = cfg.constC.getD (front r n 2) → k = (front r n 3).toNat % 2 ^ elemBits cfg.fmt →
    Runs (.computeUnitFire col cu) s [.serialNo, .arr] fun u =>
      let e := cfg.fmt
      let x := elemAt e
      match cfg.op with
      | none => u = s
      | some .add => firedVec s u col.val n (cuInputs cfg .add) e fun i => elemAdd e (x a i) (x b i)
      | some .sub => firedVec s u col.val n (cuInputs cfg .sub) e fun i => elemSub e (x a i) (x b i)
      | some .mul => firedVec s u col.val n (cuInputs cfg .mul) e fun i => elemMul e (x a i) (x b i)
      | some .fma => firedVec s u col.val n (cuInputs cfg .fma) e fun i => elemFma e (x a i) (x b i) (x c i)
      | some (.scale true) => firedVec s u col.val n (cuInputs cfg (.scale true)) e fun i => elemFma e (x a i) k (x c i)
      | some (.scale false) => firedVec s u col.val n (cuInputs cfg (.scale false)) e fun i => elemMul e (x a i) k
      | some .max => firedVec s u col.val n (cuInputs cfg .max) e fun i => elemMax true e (x a i) (x b i)
      | some .min => firedVec s u col.val n (cuInputs cfg .min) e fun i => elemMax false e (x a i) (x b i)
      | some (.cvt d) => firedLanes s u col.val n (cuInputs cfg (.cvt d)) fun i => laneCvt e d (laneAt a i)
      | some .select => firedLanes s u col.val n (cuInputs cfg .select) fun i => if (front r n 3).getLsbD i then laneAt a i else laneAt b i
      | some .reduce => firedAs s u col.val n (cuInputs cfg .reduce) [(1, scalar (reduceLanes e a)), (2, 1)]
      | some (.mac byK m) =>
        let acc := macStep e (Tbl.get [] r.accs n) (lanes a) (lanes b)
        let emit := if byK then (front r n 4).getLsbD 0 else decide (m ≤ Tbl.get 0 r.counts n + 1)
        firedAs s u col.val n (cuInputs cfg (.mac byK m)) (if emit = true then [(0, ofLanes acc), (2, 1)] else [(2, 1)]) ∧
        ∃ r', launchOn u col.val = some r' ∧ Tbl.get [] r'.accs n = (if emit = true then [] else acc) ∧
          Tbl.get 0 r'.counts n = if emit = true then 0 else Tbl.get 0 r.counts n + 1) ∧
  (∀ (s : State) (col : Fin 64) (su : Fin 3) (r : Launch) (n : Nat) (g : Bool), n = unitId col.val (12 + su.val) →
    unitFull s col.val n r → g = (front r n 2).getLsbD 0 →
    Runs (.steeringUnitFire col su) s [.serialNo, .arr] fun u =>
      match (suOf s col.val su.val).op with
      | none => u = s
      | some .split => firedAs s u col.val n [0, 2] [(if g = true then 1 else 0, front r n 0)]
      | some .merge => firedAs s u col.val n [2, if g = true then 1 else 0] [(0, front r n (if g = true then 1 else 0))]
      | some .gate => firedAs s u col.val n [0, 2] (if g = true then [(0, front r n 0)] else [])
      | some (.counter cnt) =>
        let i := Tbl.get 0 r.counts n
        let last := decide (countOf r.args cnt ≤ i + 1)
        firedAs s u col.val n [2] ((2, if last = true then 0 else 1) ::
          if (suOf s col.val su.val).vector = true then [] else [(0, scalar (BitVec.ofNat 32 i))]) ∧
        ∃ r', launchOn u col.val = some r' ∧ Tbl.get 0 r'.counts n = if last = true then 0 else i + 1) ∧
  (∀ (s : State) (col : Fin 64) (r : Launch) (n : Nat) (cfg : ScCfg) (p0 p1 : Word), n = unitId col.val 15 → unitFull s col.val n r →
    cfg = scOf s col.val → p0 = (front r n cfg.a.val).setWidth 32 → p1 = (front r n cfg.b.val).setWidth 32 →
    Runs (.scalarUnitFire col) s [.serialNo, .arr] fun u =>
      match cfg.op with
      | none => u = s
      | some (.cmp rel) => firedAs s u col.val n (if cfg.a = cfg.b then [cfg.a.val, 3] else [cfg.a.val, cfg.b.val, 3])
          [(2, if (match rel with | .eq => p0 == p1 | .slt => p0.slt p1 | .ult => p0.ult p1) = true then 1 else 0)]
      | some op =>
        let w := scalarOp r.args op p0 p1
        let ports := match op with
          | .arg _ => [3]
          | .const _ => [3]
          | _ => if cfg.a = cfg.b then [cfg.a.val, 3] else [cfg.a.val, cfg.b.val, 3]
        firedAs s u col.val n ports [(0, scalar w), (1, scalar w)] ∧
        ∃ r', launchOn u col.val = some r' ∧
          r'.toDone = if (ctlOf s col.val).done ≠ none ∧ col.val = r.first then r.toDone ++ [w] else r.toDone) ∧
  (∀ (args : List Word) (a b : Word) (i : Fin 64), scalarOp args .add a b = a + b ∧ scalarOp args .sub a b = a - b ∧
    scalarOp args .mul a b = a * b ∧ scalarOp args .and a b = a &&& b ∧ scalarOp args .or a b = a ||| b ∧ scalarOp args .xor a b = a ^^^ b ∧
    (b.toNat < 32 → scalarOp args .shl a b = a <<< b.toNat ∧ scalarOp args .shr a b = a >>> b.toNat ∧
      scalarOp args .sra a b = a.sshiftRight b.toNat) ∧ scalarOp args (.arg i) a b = args.getD i.val 0 ∧ scalarOp args (.const b) a a = b) ∧
  (∀ (s : State) (col : Fin 64) (mu st : Fin 4) (r : Launch) (n : Nat) (cfg : MuCfg) (m : MuStream) (a : Int), n = unitId col.val (8 + mu.val) →
    unitFull s col.val n r → launchOf s r.q r.idx = some r → cfg = muOf s col.val mu.val st.val →
    m = Tbl.get {} r.streams (streamKey col.val mu.val st.val) → m.ended = false → m.issued < m.total → m.flight.length < 32 →
    a = elemAddr cfg m ((front r n 2).setWidth 32) →
    Runs (.memoryUnitAccess col mu st .issue) s [.serialNo, .arr] fun u =>
      if cfg.kind = .off then u = s
      else if a < 0 ∨ (2 ^ 48 : Int) ≤ a then launchEnded u r.q r.idx (7, n, .outOfBounds)
      else if a.toNat % (if cfg.word = true then 4 else 128) ≠ 0 then launchEnded u r.q r.idx (7, n, .badLength)
      else ∃ r' g, launchOn u col.val = some r' ∧ r'.fired = true ∧ g = streamGen s r.tenant m a.toNat ∧
        Tbl.get {} r'.streams (streamKey col.val mu.val st.val) =
        { m with started := true, issued := m.issued + 1, held := some (tileOf a.toNat, g)
                 flight := m.flight ++ [{ addr := a.toNat, len := if cfg.word = true then 4 else 128, gen := g, hint := cfg.hint.toNat
                                          port := dataOut cfg, writer := isWriter cfg.kind, frames := decide (cfg.kind = .frameWriter)
                                          data := if isWriter cfg.kind = true then entryBytes cfg (front r n (dataIn cfg)) else [] }] }) ∧
  (∀ (s : State) (col : Fin 64) (mu st : Fin 4) (r : Launch) (n : Nat) (m : MuStream) (f : Flight) (fl : List Flight) (e : TileEnt),
    n = unitId col.val (8 + mu.val) → s.alive = true → launchOn s col.val = some r → firing r = true → (s.col col.val).state = .running →
    m = Tbl.get {} r.streams (streamKey col.val mu.val st.val) → m.flight = f :: fl → outRoom s r n f.port = true →
    outRoom s r n (3 + st.val) = true → f.addr % 128 + (if f.writer = true then f.data.length else f.len) ≤ 128 →
    translateGen s r.tenant f.addr f.writer f.gen = .ok e → lineFree s e f.addr →
    Runs (.memoryUnitAccess col mu st .complete) s (touches (.memoryUnitAccess col mu st .complete)) fun u => ∃ r' m',
      launchOn u col.val = some r' ∧ m' = Tbl.get {} r'.streams (streamKey col.val mu.val st.val) ∧ m'.done = m.done + 1 ∧ m'.flight = fl ∧
      m'.ended = (m.ended || (decide (m.done + 1 = m.total) && !f.frames)) ∧
      if f.writer = true
      then bytesAt u e f.addr f.data.length = f.data ∧ onlyLine s u e f.addr ∧ r'.bytes = r.bytes + f.data.length
      else u.dram.mem = s.dram.mem ∧ r'.bytes = r.bytes ∧ (f.frames = false → m.done + 1 ≠ m.total →
        r'.queues = (produce s n f.port (BitVec.ofNat 1024 (ofLeBytes (bytesAt s e f.addr f.len))) r).queues))

/-! ## Array configuration (chapter 15) -/

/-- R325 to R345, Tables 15.2 to 15.6: a load takes its columns; a stream is read directive by directive, its blocks written to the frames
addressed in every target column with new check words, its end settles its columns, and a stream without its leader is refused; the
read-back engine checks one slot, corrects a single upset, halts a column with more, and stops and goes on with RB_EN. -/
def Obligations.StreamsConfigureColumns : Prop :=
  (∀ (s : State) (q : QId) (idx : BitVec 16) (c : Cmd), s.alive = true → findCmd s q idx = some c → c.desc.opcode = 0x31 →
    c.phase = .running → c.ended = false → c.turn ≠ none → columnsFree s q c = true → loaderOf s (.host q idx) = none →
    Runs (.loadStart q idx) s [.arr] fun u =>
      loaderOf u (.host q idx) = some { id := .host q idx, tenant := qTen q, src := some (c.desc.src, c.desc.len / 4)
                                        range := cmdCols c, claimed := cmdCols c } ∧
      (∀ k ∈ cmdCols c, (u.col k).state = .loading ∧ (u.col k).loader = some (.host q idx)) ∧
      u.arr.loadsHost = sat32 s.arr.loadsHost 1) ∧
  (∀ (s s1 : State) (i : Instr) (l : LoaderId) (x y : Loader) (w : Word), s.alive = true →
    i ∈ [Instr.pad l, .select l, .claimDirective l, .frames l, .maps l, .clear l, .endStream l] →
    loaderOf s l = some x → x.ended = none → x.blk = none → x.leader = false → nextWords x 1 s = .words [w] y s1 → w ≠ 0x53D70100 →
    Runs i s (touches i) fun u => (l ≠ .design → u.arr.loadFail = sat32 s.arr.loadFail 1) ∧
      match l with
      | .host q idx => loaderOf u l = none ∧ ((∃ c, findCmd s q idx = some c ∧ c.phase = .running) →
          endedWith u q idx .unsupported (4 * y.read) (BitVec.ofNat 32 y.blocks)) ∧ ∀ k ∈ x.range, (u.col k).state = .empty
      | .design => ∃ z, loaderOf u l = some z ∧ z.ended = some .unsupported
      | .self _ _ _ => ∃ z, loaderOf u l = some z ∧ z.ended = some .unsupported ∧ z.words = []) ∧
  (∀ (s s1 : State) (l : LoaderId) (x y : Loader) (w : Word), s.alive = true → loaderOf s l = some x → x.ended = none → x.blk = none →
    x.leader = true → nextWords x 1 s = .words [w] y s1 →
    (w = 0xA0000000 → Runs (.pad l) s (touches (.pad l)) fun u => loaderOf u l = some y) ∧
    (∀ col frame : Nat, col < 64 → frame < 64 → w = BitVec.ofNat 32 (0xA0400000 + 64 * col + frame) →
      Runs (.select l) s (touches (.select l)) fun u =>
        loaderOf u l = some { y with column := col, frame, span := false, targets := [col] }) ∧
    (w = 0xA0800000 → (∀ c m k, l ≠ .self c m k) → (∀ k ∈ y.targets, k < 64 ∧ k ∈ y.range) →
      Runs (.claimDirective l) s (touches (.claimDirective l)) fun u => loaderOf u l = some { y with claims := true }) ∧
    (w = 0xA1400000 → y.claims = true → targetsOk y = true → (∀ c m k, l ≠ .self c m k) →
      Runs (.clear l) s (touches (.clear l)) fun u => loaderOf u l = some y ∧
        ∀ k ∈ y.targets, (u.col k).cleared = true ∧ ∀ f < 40, frameAt u k f = List.replicate 64 0 ∧ mapAt u k f = List.replicate 64 0xFFFFFFFF) ∧
    (w = 0xA1800000 → l = .design → Runs (.endStream l) s (touches (.endStream l)) fun u =>
      loaderOf u l = some { y with ended := some .ok } ∧
      ∀ k ∈ y.range, (u.col k).loader = none ∧ (u.col k).state = if (s.col k).cleared = true then .empty else .loaded) ∧
    (∀ q idx c, w = 0xA1800000 → l = .host q idx → findCmd s1 q idx = some c → c.phase = .running →
      Runs (.endStream l) s (touches (.endStream l)) fun u => loaderOf u l = none ∧
        endedWith u q idx .ok (4 * y.read) (BitVec.ofNat 32 y.blocks) ∧
        ∀ k ∈ y.range, (u.col k).loader = none ∧ (u.col k).state = if (s.col k).cleared = true then .empty else .loaded)) ∧
  (∀ (s s1 s2 : State) (l : LoaderId) (x y z : Loader) (w : Word) (ws : List Word) (maps : Bool), s.alive = true → loaderOf s l = some x →
    x.ended = none → x.blk = none → x.leader = true → nextWords x 1 s = .words [w] y s1 → y.claims = true →
    w = (if maps = true then 0xA1000001 else 0xA0C00001) → nextWords { y with blk := some (maps, 1) } 64 s1 = .words ws z s2 →
    ws.length = 64 → targetsOk z = true → z.frame < 40 →
    Runs (if maps = true then .maps l else .frames l) s (touches (.frames l)) fun u =>
      loaderOf u l = some { advance { z with blocks := z.blocks + 1 } with blk := none } ∧
      ∀ k f, f < 40 → if k ∈ z.targets ∧ f = z.frame
        then (if maps = true then frameAt u k f = frameAt s k f ∧ mapAt u k f = ws
          else frameAt u k f = ws ∧ mapAt u k f = List.replicate 64 0xFFFFFFFF ∧ Tbl.get 0 u.arr.checks (frameKey k f) = checkWord ws)
        else frameAt u k f = frameAt s k f ∧ mapAt u k f = mapAt s k f) ∧
  (∀ (s : State) (b : Fin 2048) (col f : Nat), s.alive = true → s.arr.rbEn = true → s.arr.rbAt ≠ some s.clk.now → col = s.arr.rbSlot / 40 → f = s.arr.rbSlot % 40 →
    (s.col col).state ∈ [ColSt.loaded, .running, .halted] → (frameAt s col f).length = 64 →
    Tbl.get 0 s.arr.checks (frameKey col f) = checkWord (frameAt s col f) →
    Runs (.readbackCheck [b] 0) s [.arr] fun u => frameAt u col f = frameAt s col f ∧ u.arr.rbSlot = (s.arr.rbSlot + 1) % 2560 ∧
      u.arr.lastUpset = field 12 (col * 64 + f) ||| BitVec.ofNat 32 b.val ∧
      if ((mapAt s col f).getD (b.val / 32) 0).getLsbD (b.val % 32) = true
      then u.arr.sbuEss = sat32 s.arr.sbuEss 1 ∧ bit u.arr.cfgStatus 1 = true ∧ u.arr.sbuNon = s.arr.sbuNon
      else u.arr.sbuNon = sat32 s.arr.sbuNon 1 ∧ u.arr.sbuEss = s.arr.sbuEss) ∧
  (∀ (s : State) (b c : Fin 2048) (col f : Nat), s.alive = true → s.arr.rbEn = true → s.arr.rbAt ≠ some s.clk.now → col = s.arr.rbSlot / 40 → f = s.arr.rbSlot % 40 →
    b ≠ c → (s.col col).state ∈ [ColSt.loaded, .running, .halted] → (frameAt s col f).length = 64 →
    Tbl.get 0 s.arr.checks (frameKey col f) = checkWord (frameAt s col f) → zeroWords (mapAt s col f) = false →
    Runs (.readbackCheck [b, c] 0) s (touches (.readbackCheck [b, c] 0)) fun u => (u.col col).state = .halted ∧
      u.arr.mbuHalt = sat32 s.arr.mbuHalt 1 ∧ bit u.arr.cfgStatus 2 = true ∧
      u.arr.lastUpset = field 12 (col * 64 + f) ||| field 11 1 ∧
      ∀ r, launchOn s col = some r → launchOf s r.q r.idx = some r → firing r = true → ∃ n, launchEnded u r.q r.idx (3, n, .aborted)) ∧
  (∀ (s : State) (ups : List (Fin 2048)) (chk : BitVec 14), s.alive = true → (s.arr.rbEn = false ∨ s.arr.rbAt = some s.clk.now) →
    exec (.readbackCheck ups chk) s = .next s) ∧
  (∀ (s : State) (fn : Fn) (v : Word), adminBus s fn →
    exec (.readbackEnable fn { off := 0x840004, val := v }) s = .next { s with arr := { s.arr with rbEn := bit v 0 } })

/-! ## Security (chapter 16) -/

/-- R351 to R355, Tables 16.2 and 16.3: failed tests of the random source are counted, and one after another fails the source and every
handshake under way; the DRBG is seeded again when due; tamper makes the node FATAL; SPDM requests are answered, with Busy before the
measurements are fixed and Unspecified in FATAL. The layout of the answers' bodies is the model's own (assumption log). -/
def Obligations.RandomSourceTamperAndSpdm : Prop :=
  (∀ (s : State) (t : TrngTest) (again : Bool), s.alive = true → (again = true → s.trngFail = true) →
    Runs (.trngTestFail t again) s [.sec] fun u => bit u.sec.status 1 = true ∧
      u.sec.rct = (if t = .repetition then sat16 s.sec.rct else s.sec.rct) ∧
      u.sec.apt = (if t = .proportion then sat16 s.sec.apt else s.sec.apt) ∧ u.trngFail = s.trngFail) ∧
  (∀ (s : State) (t : TrngTest), s.alive = true → s.trngFail = false →
    Runs (.trngTestFail t true) s (touches (.trngTestFail t true)) fun u => u.trngFail = true ∧
      ∀ n : Fin 32, (s.port n).hs.active = true → (u.port n).hs = {} ∧ (u.secPort n).cause = 0x0B) ∧
  (∀ s : State, s.alive = true → exec .drbgReseed s = .next (if 1024 ≤ s.sec.drbgReqs ∨ s.sec.drbgAt + 244141 ≤ s.clk.now
    then { s with sec := { s.sec with drbgReqs := 0, drbgAt := s.clk.now, reseeds := s.sec.reseeds + 1 } } else s)) ∧
  (∀ (s : State) (x : TamperSensor), s.alive = true → (x = .otp → s.nid.state ≠ .boot) →
    Runs (.tamper x) s (touches (.tamper x)) fun u => u.nid.state = .fatal ∧ bit u.sec.status 3 = true ∧ u.flt.fatal = true ∧ u.flt.first = 3) ∧
  (∀ (s : State) (hp : Fin 4) (c : Instr) (code x : Byte) (b : List Byte), spdmUp s hp →
    (c, code, b) ∈ [(Instr.getVersion hp, (0x04 : Byte), leBytes 2 0x1200), (.getCapabilities hp, 0x61, [17] ++ leBytes 4 0x16),
      (.negotiateAlgorithms hp, 0x63, leBytes 4 0x04 ++ leBytes 4 0x80 ++ leBytes 4 0x02),
      (.getDigests hp, 0x01, [1] ++ sha384 (slotChain s)), (.spdmUnsupportedRequest hp x, 0x7F, [7, 0])] →
    Runs c s [.sec, .out] fun u => spdmSays s u hp code b ∧ u.sec.measured = s.sec.measured) ∧
  (∀ (s : State) (hp : Fin 4) (slot : Byte) (offset length : BitVec 16), spdmUp s hp →
    Runs (.getCertificate hp slot offset length) s [.sec, .out] fun u =>
      if slot = 0 ∧ offset.toNat < (slotChain s).length
      then ∃ part, part = ((slotChain s).drop offset.toNat).take length.toNat ∧ spdmSays s u hp 0x02
        (leBytes 2 part.length ++ leBytes 2 ((slotChain s).length - offset.toNat - part.length) ++ part)
      else spdmSays s u hp 0x7F [7, 0]) ∧
  (∀ (s : State) (hp : Fin 4) (summary : Byte) (nonce : List Byte), spdmUp s hp → s.sec.measured ≠ none →
    summary = 0 ∨ summary = 1 ∨ summary = 0xFF →
    Runs (.challenge hp 0 summary nonce) s [.serialNo, .sec, .out] fun u => u.sec.drbgReqs = s.sec.drbgReqs + 1 ∧
      spdmSays s u hp 0x03 (sha384 (slotChain s) ++ (Config.spdmNonce s.serialNo).toList ++
        (if summary = 0 then [] else sha384 ((List.range (if summary = 1 then 3 else 7)).flatMap fun i => measBlock s.meas (i + 1))) ++
        spdmSig s.serialNo nonce s)) ∧
  (∀ (s : State) (hp : Fin 4) (i : Byte) (signed : Bool) (nonce body : List Byte), spdmUp s hp → s.sec.measured ≠ none →
    i.toNat ≤ 7 ∨ i = 0xFF →
    body = (if i = 0 then [7] else if i = 0xFF then 7 :: [1, 2, 3, 4, 5, 6, 7].flatMap (measBlock s.meas) else 1 :: measBlock s.meas i.toNat) →
    Runs (.getMeasurements hp i signed nonce) s [.serialNo, .sec, .out] fun u => spdmSays s u hp 0x60
      (if signed = true then body ++ (Config.spdmNonce s.serialNo).toList ++ spdmSig s.serialNo nonce s else body)) ∧
  (∀ (s : State) (hp : Fin 4) (c : Instr) (slot x : Byte) (nonce : List Byte) (signed : Bool), spdmUp s hp → s.sec.measured = none →
    c ∈ [Instr.challenge hp slot x nonce, .getMeasurements hp x signed nonce] →
    Runs c s [.sec, .out] fun u => spdmSays s u hp 0x7F [3, 0]) ∧
  (∀ (s : State) (hp : Fin 4) (c : Instr) (slot x : Byte) (o l : BitVec 16) (nonce : List Byte) (signed : Bool),
    hostUp s { port := hp } = true → s.nid.state = .fatal ∨ s.noImage = true →
    c ∈ [Instr.getVersion hp, .getCapabilities hp, .negotiateAlgorithms hp, .getDigests hp, .getCertificate hp slot o l,
      .challenge hp slot x nonce, .getMeasurements hp x signed nonce, .spdmUnsupportedRequest hp x] →
    Runs c s [.sec, .out] fun u => spdmSays s u hp 0x7F [5, 0]) ∧
  (∀ (s : State) (hp : Fin 4) (i : Byte), hostUp s { port := hp } = true → exec (.doeDiscovery hp i) s = .next { s with
    out := (if i = 0 then Out.doe hp 1 0 1 else if i = 1 then .doe hp 1 1 0 else .doe hp 0xFFFF 0 0) :: s.out })

/-- R357 to R361, Tables 16.4 to 16.6: both ends of a handshake reach one transcript and each other's keys; HELLO, HS_CERT, VERIFY and
FINISH are checked and answered in order and bring the port UP Sealed, a bad one ends the handshake with its cause; the last messages are
resent; a partner's attestation request is answered; LINK_PIN pins a port's partner. -/
def Obligations.HandshakesAuthenticateLinks : Prop :=
  (∀ (a b : State) (h k : Hs) (p q : Hello), p = ownHello b k → q = ownHello a h → h.chain = b.chain → k.chain = a.chain →
    beNat h.random ≠ beNat k.random → transcript a h p = transcript b k q ∧
      (h.th = k.th → ecdh (ephKey (h.eph.getD 0)) p.pubKey = ecdh (ephKey (k.eph.getD 0)) q.pubKey →
        ∃ x y, (deriveKeys h p).derived = some x ∧ (deriveKeys k q).derived = some y ∧ x.keyOwn = y.keyPeer ∧ x.keyPeer = y.keyOwn ∧
          x.number = y.number ∧ (deriveKeys h p).finKey = (deriveKeys k q).finKey)) ∧
  (∀ (s : State) (p : Fin 32) (x : Hello), handshaking s p → (s.port p).hs.partner = none →
    Runs (.hello p x) s (touches (.hello p x)) fun u =>
      if x.random.length ≠ 32 ∨ x.pubKey.length ≠ 97 then hsFailed s u p 2
      else if x.version ≠ 1 then hsFailed s u p 3
      else if 4096 < x.chainLen.toNat then hsFailed s u p 5
      else if x.random = (s.port p).hs.random then hsFailed s u p 2
      else if ptOf x.pubKey = none then hsFailed s u p 4
      else x.chainLen ≠ 0 → framesOut s u p (certMsgs s.chain) ∧
        (u.port p).hs = { (s.port p).hs with partner := some x, lastSent := certMsgs s.chain }) ∧
  (∀ (s : State) (p : Fin 32) (x : Hello) (off : BitVec 16) (bs : List Byte) (h : Hs), handshaking s p → (s.port p).hs.partner = some x →
    bs ≠ [] → bs.length ≤ 240 → off.toNat = (s.port p).hs.chain.length →
    h = { (s.port p).hs with chain := (s.port p).hs.chain ++ bs } →
    Runs (.hsCert p off bs) s (touches (.hsCert p off bs)) fun u =>
      if x.chainLen.toNat < h.chain.length then hsFailed s u p 2
      else if h.chain.length < x.chainLen.toNat then (u.port p).hs = h ∧ u.out = s.out
      else match Config.leafKey h.chain with
        | none => hsFailed s u p 5
        | some k => if (s.secPort p).pin ≠ none ∧ (s.secPort p).pin ≠ some (sha384 k) then hsFailed s u p 7
          else if s.boot.otp.any (fun o => decide (o.idHash = sha384 k)) = true then hsFailed s u p 0x0A
          else (u.port p).hs = { h with leaf := some k, th := transcript s h x, signing := true, lastSent := [] } ∧
            u.sec.sigQueue = s.sec.sigQueue.erase p.val ++ [p.val]) ∧
  (∀ (s : State) (p : Fin 32), handshaking s p → sigAhead p s = true → exec (.hsSignatureDone p) s = .next s) ∧
  (∀ (s : State) (p : Fin 32) (h : Hs), handshaking s p → (s.port p).hs.signing = true → sigAhead p s = false →
    h = { (s.port p).hs with signing := false, sentVerify := true, sentFinish := (s.port p).hs.gotVerify } →
    Runs (.hsSignatureDone p) s [.ports, .out] fun u => ∃ ms,
      ms = verifyMsg h s :: (if h.gotVerify = true then [finishMsg h] else []) ∧ framesOut s u p ms ∧ (u.port p).hs = { h with lastSent := ms }) ∧
  (∀ (s : State) (p : Fin 32) (x : Hello) (k sig : List Byte) (h : Hs), handshaking s p → (s.port p).hs.partner = some x →
    (s.port p).hs.gotVerify = false →
    h = deriveKeys { (s.port p).hs with gotVerify := true, sentFinish := (s.port p).hs.sentVerify } x →
    (s.port p).hs.leaf = some k →
    Runs (.verify p sig) s (touches (.verify p sig)) fun u =>
      if ecdsaOk (spkiKey k) (sha384 ((s.port p).hs.th ++ x.random)) sig = false then hsFailed s u p 6
      else if h.sentVerify = true then framesOut s u p [finishMsg h] ∧ (u.port p).hs = { h with lastSent := [finishMsg h] }
      else u.out = s.out ∧ (u.port p).hs = h) ∧
  (∀ (s : State) (p : Fin 32) (x : Hello) (q : Params) (mac : List Byte), handshaking s p → (s.port p).hs.partner = some x →
    (s.port p).hs.gotVerify = true → (s.port p).hs.sentFinish = true → paramsDone (s.port p) = some q → needsHandshake (s.port p) q = true →
    Runs (.finish p mac) s (touches (.finish p mac)) fun u =>
      if mac = hmac384 (s.port p).hs.finKey ((s.port p).hs.th ++ x.random)
      then (u.port p).state = .up ∧ (u.port p).isSealed = true ∧ (u.port p).sess = (s.port p).hs.derived ∧ (u.port p).hs = {} ∧
        (u.secPort p).count = sat16 (s.secPort p).count
      else hsFailed s u p 8) ∧
  (∀ (s : State) (p : Fin 32) (c : Instr) (sig mac : List Byte), handshaking s p → (s.port p).hs.partner = none →
    c ∈ [Instr.verify p sig, .finish p mac] → Runs c s (touches c) fun u => hsFailed s u p 2) ∧
  (∀ (s : State) (p : Fin 32) (cause : Byte), handshaking s p → Runs (.hsAbort p cause) s (touches (.hsAbort p cause)) fun u => hsFailed s u p 9) ∧
  (∀ (s : State) (p : Fin 32), s.alive = true → (s.port p).state ≠ .up → (s.port p).hs.active = true →
    bit (s.port p).ev 5 = false →
    (Runs (.hsResend p) s [.ports, .out] fun u => framesOut s u p (s.port p).hs.lastSent) ∧
    Runs (.hsTimeout p) s (touches (.hsTimeout p)) fun u => hsFailed s u p 1) ∧
  (∀ (s : State) (p : Fin 32) (kind : Byte) (off : BitVec 16) (nonce : List Byte), s.alive = true → (s.port p).state = .up →
    sepRuns s = true →
    Runs (.attestReq p kind off nonce) s [.ports] fun u =>
      if kind = 0 ∧ off.toNat < s.chain.length
      then sent s u p (lmcItem (padFlits (certMsg s.chain off.toNat (if (s.port p).isSealed = true then 224 else 240))))
      else if kind = 1 then sent s u p (lmcItem (padFlits (attestMsg nonce s)))
      else (u.port p).txq = (s.port p).txq) ∧
  (∀ (s : State) (fn : Fn) (m : MbxHdr) (port action : Byte) (hash : List Byte), mbxReady s fn m 50 → hash.length = 48 →
    s.isAdmin fn = true →
    Runs (.linkPin fn m port action hash) s [.serialNo, .sec, .hosts, .boot, .out] fun u =>
      if port.toNat ≤ 31 ∧ action.toNat ≤ 1 then answered s u fn 0x0601 m .ok [] ∧ u.boot.writeDue = true ∧
        (u.secPort port.toNat).pin = (if action = 1 then some hash else none) ∧
        ∀ n : Nat, n ≠ port.toNat → (u.secPort n).pin = (s.secPort n).pin
      else answered s u fn 0x0601 m .badLength [])

/-! ## Host ports and management (chapter 17) -/

/-- R374, R375, R378, R386, R400, R403: an opcode that is not listed is answered with UNSUPPORTED, and a command rung while BUSY is
discarded; IMAGE_WRITE erases the boot log and waits for its bytes to be programmed, and every other byte of flash stands; telemetry and the
fault log are read. -/
def Obligations.MailboxServesImagesTelemetryAndLog : Prop :=
  (∀ (s : State) (fn : Fn) (m : MbxHdr) (op : BitVec 16), hostUp s fn = true → fn.vf = 0 → s.takesHost = true →
    Runs (.mbxUnknownOpcode fn m op) s [.serialNo, .hosts, .out] fun u =>
      if (s.host fn.port).busy = true then u = s.setHost fn.port { s.host fn.port with illegal := true }
      else answered s u fn op.toNat m .unsupported []) ∧
  (∀ (s : State) (fn : Fn) (m : MbxHdr) (slot : Byte) (offset length : Word) (addr : BitVec 64) (b : List Byte) (d : FlashDev),
    mbxReady s fn m 17 → s.isAdmin fn = true → s.boot.flash = some d →
    Runs (.imageWrite fn m slot offset length addr (.data b)) s [.serialNo, .hosts, .boot, .out] fun u =>
      if imageRangeOk d slot.toNat offset.toNat length.toNat = false then answered s u fn 0x0701 m .badLength [] ∧ u.boot = s.boot
      else if decide (slot = 1) = runningSlot s then answered s u fn 0x0701 m .busy [] ∧ u.boot = s.boot
      else inProgress s u fn ∧ u.boot.writing = s.boot.writing ++ [{ owed := owedFor s fn 0x0701 m, data := b.take length.toNat
                                                                     addr := slotBase d (decide (slot = 1)) + offset.toNat }] ∧
        ∃ d', u.boot.flash = some d' ∧ ∀ a, flashAt d' a = if logBase d ≤ a ∧ a < logBase d + logSize then 0xFF else flashAt d a) ∧
  (∀ (s : State) (w : ImageWrite) (r : List ImageWrite) (d : FlashDev), s.alive = true → s.boot.writing = w :: r → s.boot.flash = some d →
    (Runs (.imageWriteDone true) s [.hosts, .boot, .out] fun u => u.boot.writing = r ∧
      (∃ d', u.boot.flash = some d' ∧ ∀ a, flashAt d' a =
        if w.addr ≤ a ∧ a < w.addr + w.data.length then w.data.getD (a - w.addr) 0 else flashAt d a) ∧
      ((s.host w.owed.port).cur = some w.owed.id → answeredFor u w.owed .ok [])) ∧
    Runs (.imageWriteDone false) s [.serialNo, .hosts, .boot, .out] fun u => u.boot.writing = r ∧
      (∃ d', u.boot.flash = some d' ∧ ∀ a b, b = slotBase d (decide (slotSize d ≤ w.addr)) → a < b ∨ b + slotSize d ≤ a →
        flashAt d' a = flashAt d a) ∧
      ((s.host w.owed.port).cur = some w.owed.id → answeredFor u w.owed .timeout [])) ∧
  (∀ (s : State) (fn : Fn) (m : MbxHdr), mbxTakes s fn m 0 →
    Runs (.telemetryRead fn m) s [.serialNo, .hosts, .out] fun u => answered s u fn 0x0702 m .ok (telemetryBytes s)) ∧
  (∀ (s : State) (fn : Fn) (m : MbxHdr) (seq : Word) (count : Byte), mbxTakes s fn m 5 →
    Runs (.faultLogRead fn m seq count) s [.serialNo, .hosts, .out] fun u =>
      if count = 0 ∨ 127 < count.toNat then answered s u fn 0x0801 m .badLength []
      else ∃ es : List FltEntry, answered s u fn 0x0801 m .ok ([BitVec.ofNat 8 es.length] ++ es.flatMap fltBytes) ∧
        es.length ≤ count.toNat ∧ (∀ e ∈ es, e ∈ s.flt.log ∧ seq.toNat ≤ e.seq.toNat ∧
          (s.isAdmin fn = true ∨ (e.part ≠ 0xFF ∧ s.owns fn e.part.toNat = true))) ∧
        ∀ e ∈ s.flt.log, seq.toNat ≤ e.seq.toNat → s.isAdmin fn = true → e ∈ es ∨ es.length = count.toNat)

/-- R369, R379, R380: a ring is enabled empty with phase 1, kept to its size while enabled, and disabled; a new head frees entries, and an
event that waits is written at the tail; a function-level reset empties the mailbox and the backlog and stops the ring, and it and the
clearing of VF Enable stop the queues of every attached virtual function. -/
def Obligations.EventRingsAndFunctionResets : Prop :=
  (∀ (s : State) (fn : Fn) (v : Word) (h : HostPort), hostUp s fn = true → fn.vf = 0 → s.takesHost = true → h = s.host fn.port →
    6 ≤ bits v 20 16 → bits v 20 16 ≤ 16 → bit v 31 = true → h.evOn = false → h.backlog = [] →
    Runs (.evRingEnable fn { off := 0xF00018, val := v }) s [.hosts] fun u =>
      u.host fn.port = { h with evCfg := v &&& 0x801F0000, evTail := 0, evHead := 0, evPhase := true } ∧ otherHosts s u fn.port) ∧
  (∀ (s : State) (fn : Fn) (v : Word) (h : HostPort), hostUp s fn = true → fn.vf = 0 → s.takesHost = true → h = s.host fn.port →
    (bits v 20 16 < 6 ∨ 16 < bits v 20 16 ∨ (h.evOn = true ∧ bit v 31 = true ∧ bits v 20 16 ≠ bits h.evCfg 20 16)) →
    exec (.evRingEnable fn { off := 0xF00018, val := v }) s = .next (s.setHost fn.port { h with illegal := true })) ∧
  (∀ (s : State) (fn : Fn) (v : Word) (h : HostPort), hostUp s fn = true → fn.vf = 0 → s.takesHost = true → h = s.host fn.port →
    6 ≤ bits v 20 16 → bits v 20 16 ≤ 16 → bit v 31 = false →
    exec (.evRingDisable fn { off := 0xF00018, val := v }) s = .next (s.setHost fn.port { h with evCfg := v &&& 0x801F0000 }) ∧
    (v &&& 0x801F0000).getLsbD 31 = false) ∧
  (∀ (s : State) (fn : Fn) (v : Word) (h : HostPort) (n k : Nat), hostUp s fn = true → fn.vf = 0 → s.takesHost = true →
    h = s.host fn.port → n = h.evSize → k = bits v 15 0 →
    Runs (.evHeadWrite fn { off := 0xF00020, val := v }) s [.hosts, .out] fun u =>
      if h.evOn = true ∧ k < n ∧ (k + n - h.evHead) % n ≤ (h.evTail + n - h.evHead) % n then
        (h.backlog = [] → u.host fn.port = { h with evHead := k } ∧ u.out = s.out) ∧
        ∀ e, h.backlog = [e] → (h.evTail + n - k) % n < n - 1 →
          (u.host fn.port).evHead = k ∧ (u.host fn.port).backlog = [] ∧ (u.host fn.port).evTail = (h.evTail + 1) % n ∧
          u.out = .msix fn.port 0 1 :: .event fn.port (h.evBase.toNat + h.evTail * 16) (eventBytes e h.evPhase h.evMark) :: s.out
      else u = s.setHost fn.port { h with illegal := true }) ∧
  (∀ (s : State) (hp : Fin 4) (c : Instr), c ∈ [Instr.pfFlr hp, .vfEnableClear hp] → s.alive = true → hostUp s { port := hp } = true →
    Runs c s (touches c) fun u =>
      (c = .pfFlr hp → (u.host hp).busy = false ∧ (u.host hp).done = false ∧ (u.host hp).cur = none ∧ (u.host hp).evOn = false) ∧
      ((∀ vf t, tenantOfVf s hp vf = some t → ∀ q ∈ tenantQueues s t, (s.queue (qNum q)).cmds = []) →
        (c = .pfFlr hp → (u.host hp).backlog = []) ∧
        ∀ (vf : Nat) (t : Fin 128) (j : Fin 8), 1 ≤ vf → vf ≤ 32 → tenantOfVf s hp vf = some t.val →
          (s.queue (qNum (.tenant t j))).state ∈ [1, 2] → (u.queue (qNum (.tenant t j))).state = 3))

/-- R382 to R386, Table 17.8: the cap takes 300 to 2,400 W; tokens are shared out within the effective cap with no consumer below its floor,
or as the floors alone with CAP_UNMET; LEVEL follows the hotter sensor, and a change of it is posted; the snapshot is refreshed whole. -/
def Obligations.PowerThermalAndTelemetry : Prop :=
  (∀ (s : State) (fn : Fn) (v : Word), adminBus s fn →
    exec (.pwrCapWrite fn { off := 0xF80000, val := v }) s =
      .next (if 300 ≤ bits v 11 0 ∧ bits v 11 0 ≤ 2400 then { s with pwr := { s.pwr with cap := v &&& 0xFFF } } else illegal fn.port .pwr s)) ∧
  (∀ (s : State) (fixed avail : Nat) (ds ws : List Demand), s.alive = true → procWorks s .mnp = true →
    ws = ds.filter (fun d => decide (0 < d.demand)) → avail = s.pwr.effective * 1000 - fixed →
    Runs (.powerTokenAllocation fixed ds) s [.pwr] fun u => ∃ l, u.pwr.nextAlloc = some l ∧ u.pwr.tokens = s.pwr.tokens ∧
      l.length = ws.length ∧ (∀ d ∈ ws, ∃ x, (d.consumer, x) ∈ l ∧ Demand.floor d ≤ x) ∧
      if avail < (ws.map Demand.floor).sum then u.pwr.capUnmet = true ∧ l = ws.map (fun d => (d.consumer, Demand.floor d))
      else u.pwr.capUnmet = false ∧ (l.map Prod.snd).sum ≤ avail) ∧
  (∀ (s : State) (a b hot : BitVec 16) (l : Nat), atBoundary s = true → s.clk.now % 244 = 0 → s.pwr.thermAt ≠ some s.clk.now → hot = (if a.toInt ≤ b.toInt then b else a) →
    l = (if 400 ≤ hot.toInt then min 7 (s.pwr.level + 1) else if hot.toInt ≤ 388 then s.pwr.level - 1 else s.pwr.level) →
    Runs (.thermalStep a b) s [.hosts, .pwr, .sbd, .out] fun u => u.pwr.temp = hot ∧ u.pwr.level = l ∧
      (l = s.pwr.level → u = { s with pwr := u.pwr }) ∧
      (l ≠ s.pwr.level → u.pwr.effective =
          (if s.pwr.bmc = 0 then s.pwr.cap.toNat else min s.pwr.cap.toNat s.pwr.bmc) * (8 - l) / 8 ∧
        (s.sbd.fifo.length < 16 → u.sbd.fifo = s.sbd.fifo ++ [0xA] ∧ u.sbd.alert = true))) ∧
  (∀ (s : State) (x : TelSample), s.alive = true → telemetryDue s = true →
    Runs (.telemetryRefresh x) s [.pwr] fun u => telemetryBytes u = snapshotBytes x s ∧ (telemetryBytes u).length = 64 ∧
      u.pwr.watts = x.power ∧ u.pwr.effective = s.pwr.effective)

/-- R387 to R390, R395: each command code of the SMBus target is answered or not acknowledged, in FATAL only those of R395, and
SMB_EVENT removes the oldest word; each line of the monitor is answered with its words or its refusal, and the prompt. -/
def Obligations.SmbusAndMonitorAnswer : Prop :=
  (∀ (s : State) (bus2 wr : Bool) (c : Instr) (code : Byte) (b : List Byte) (inFatal : Bool), smbUp bus2 s = true →
    (c, code, inFatal, b) ∈ [(Instr.smbState ⟨bus2, wr⟩, (0x00 : Byte), true, [BitVec.ofNat 8 s.nid.state.code]),
      (.smbTemp ⟨bus2, wr⟩, 0x01, true, leBytes 2 s.pwr.temp.toNat), (.smbPower ⟨bus2, wr⟩, 0x02, false, leBytes 2 s.pwr.watts.toNat),
      (.smbSerial ⟨bus2, wr⟩, 0x05, true, 8 :: leBytes 8 s.nid.serial.toNat), (.smbFwVersion ⟨bus2, wr⟩, 0x06, true, 4 :: leBytes 4 s.nid.fw.toNat)] →
    exec c s = .next { s with
      out := (if wr = true ∨ (s.nid.state = .fatal ∧ inFatal = false) then Out.smbNack
        else .smbRead b (pecOf ([smbOwn s, code, smbOwn s + 1] ++ b))) :: s.out }) ∧
  (∀ (s : State) (b : List Byte), smbUp false s = true → b = leBytes 2 s.pwr.bmc → exec .smbBmcCapRead s = .next { s with
    out := (if s.nid.state = .fatal then Out.smbNack else .smbRead b (pecOf ([smbOwn s, 0x03, smbOwn s + 1] ++ b))) :: s.out }) ∧
  (∀ (s : State) (bus2 : Bool) (w : BitVec 16) (pec : Option Byte), smbUp bus2 s = true → exec (.smbBmcCapWrite ⟨bus2, w⟩ pec) s = .next
    (if s.nid.state ≠ .fatal ∧ (bit s.sbd.smbCfg 2 = true → pec = some (pecOf ([smbOwn s, 0x03] ++ leBytes 2 w.toNat))) ∧
        (w = 0 ∨ (300 ≤ w.toNat ∧ w.toNat ≤ 2400))
      then { s with pwr := { s.pwr with bmc := w.toNat }, out := .smbAck :: s.out }
      else { s with out := .smbNack :: s.out })) ∧
  (∀ (s : State) (bus2 : Bool) (b : List Byte), smbUp bus2 s = true → s.nid.state ≠ .fatal → b = leBytes 2 (s.sbd.fifo.headD 0).toNat →
    Runs (.smbEvent ⟨bus2, false⟩) s [.sbd, .out] fun u =>
      u.out = .smbRead b (pecOf ([smbOwn s, 0x04, smbOwn s + 1] ++ b)) :: s.out ∧ u.sbd.fifo = s.sbd.fifo.tail ∧ u.sbd.status = s.sbd.status) ∧
  (∀ (s : State) (bus2 : Bool) (code : Byte) (wr : Bool), smbUp bus2 s = true →
    exec (.smbUnknownCode ⟨bus2, code⟩) s = .next { s with out := .smbNack :: s.out } ∧
    (wr = true ∨ s.nid.state = .fatal → exec (.smbEvent ⟨bus2, wr⟩) s = .next { s with out := .smbNack :: s.out })) ∧
  (∀ (s : State) (c : Instr) (o : Out) (n : Nat), monUp s = true →
    (c, o) ∈ [(Instr.monitorVer, Out.monitor [0x00570016, steppingWord, s.nid.fw, s.nid.serial.setWidth 32, (s.nid.serial >>> 32).setWidth 32]),
      (.monitorState, .monitor [field 8 s.nid.partitions ||| BitVec.ofNat 32 s.nid.state.code, s.boot.status, s.boot.cause,
        BitVec.ofNat 32 s.nid.near, BitVec.ofNat 32 s.nid.bulk]),
      (.monitorHelp, .monitorText "ver, state, rd OFFSET [N], log [N], tel, links, help"),
      (.monitorBadLine n, .monitorText (if 80 < n then "? long" else "?")),
      (.monitorLog n, if n = 0 ∨ 64 < n then .monitorText "?" else .monitor (leWords ((s.flt.log.take n).flatMap fltBytes))),
      (.monitorTel, if (s.wd Proc.mnp.idx).started = true then .monitor (leWords (telemetryBytes s)) else .monitorText "? boot"),
      (.monitorLinks, if (s.wd Proc.mnp.idx).started = true
        then .monitor ((List.range 32).map fun k => field 29 (s.port k).state.code ||| field 27 (s.port k).rate.toNat |||
          field 25 (s.port k).width.toNat ||| flag 24 (s.port k).lean ||| flag 23 (s.port k).isSealed ||| (s.port k).cause.setWidth 32)
        else .monitorText "? boot")] →
    exec c s = .next { s with out := .monitorText "svt>" :: o :: s.out }) ∧
  (∀ (s : State) (off : Nat), monUp s = true → off % 4 = 0 → pairLow s (adminFn s) off = false → pairLow s (adminFn s) (off - 4) = false →
    (off < 0x600208 ∨ 0x600214 < off) →
    exec (.monitorRd off 1) s = .next { s with out := .monitorText "svt>" :: .monitor [readAt s (adminFn s) off] :: s.out }) ∧
  (∀ (s : State) (off : Nat), monUp s = true → off % 4 = 0 → pairLow s (adminFn s) off = true → answers s (adminFn s) off = true →
    Runs (.monitorRd off 2) s [.hosts, .out] fun u =>
      u.out = .monitorText "svt>" :: .monitor [readAt s (adminFn s) off, readAt s (adminFn s) (off + 4)] :: s.out) ∧
  (∀ s : State, monUp s = true → (∀ i < 4, answers s (adminFn s) (0x600208 + 4 * i) = true) →
    Runs (.monitorRd 0x600208 4) s [.dir, .out] fun u => u.out = .monitorText "svt>" :: .monitor (dirSnapshot s) :: s.out) ∧
  (∀ (s : State) (off n : Nat), monUp s = true → n = 0 ∨ 64 < n ∨ off % 4 ≠ 0 →
    exec (.monitorRd off n) s = .next { s with out := .monitorText "svt>" :: .monitorText "?" :: s.out })

/-! ## Faults (chapter 18) -/

/-- R392, R393, R397 to R399, R401, Table 18.2: an expired watchdog restarts its processor, or holds it where its hash fails or it is the
fifth restart in a second; an uncorrectable error of on-chip storage costs what Table 18.2 says: its partition, its table entry, its
directory entry, its record, its link's state or its processor, and is logged. -/
def Obligations.StorageErrorsAndWatchdogsAreContained : Prop :=
  (∀ (s : State) (p : Proc) (ok : Bool) (c : Instr) (x : Wd) (times : List Nat), (c = .watchdogExpire p ok ∧ atBoundary s = true) ∨
      (c = .sramUncorrectable (.procMem p) ∧ ok = true ∧ s.alive = true) →
    procStarted s p = true → procRuns s p = true → x = s.wd p.idx →
    times = s.clk.now :: x.times.filter (fun t => decide (s.clk.now ≤ t + 244141)) →
    Runs c s (touches c) fun u => (u.wd p.idx).times = times ∧ (u.wd p.idx).last = BitVec.ofNat 16 s.clk.now ∧
      (u.wd p.idx).restarts = (if x.restarts = 0xFF then x.restarts else x.restarts + 1) ∧ procRuns u p = false ∧
      (if ok = true ∧ times.length < 5
        then (u.wd p.idx).restarting = true ∧ (u.wd p.idx).held = false ∧ faultLogged u 0x10 (BitVec.ofNat 16 p.idx)
        else (u.wd p.idx).restarting = false ∧ (u.wd p.idx).held = true ∧ faultLogged u 0x11 (BitVec.ofNat 16 p.idx)) ∧
      (∀ b, s.boot.healthAt = some b → s.clk.now < b ∨ (s.clk.now = b ∧ s.clk.cycle = 0) → u.boot.healthBad = true) ∧
      (p = .sep → ∀ t : Fin 128, (s.tenant t).state = .creating → (u.tenant t).state = .free) ∧ (p = .bcp → u.boot.writing = [])) ∧
  (∀ (s : State) (p : Proc), s.alive = true → (s.wd p.idx).restarting = true →
    Runs (.processorRestartDone p) s [.crs, .serialNo, .hosts, .flt, .sbd, .out] fun u =>
      u.wd p.idx = { s.wd p.idx with restarting := false } ∧
      (u.slip p.idx).count = if p ∈ s.crs.slipped ∨ (s.wd p.idx).held = true then (s.slip p.idx).count else sat16 (s.slip p.idx).count) ∧
  (∀ (s : State) (f : SramFault) (t : Fin 128) (tile : Nat) (e : Fin 64) (q : Fin 8) (k : BitVec 12) (object : Nat), s.alive = true →
    (f = .store t tile ∧ object = 0) ∨ (f = .admission t e ∧ object = e.val) ∨
      (f = .queueCtx t q ∧ object = q.val ∧ (s.queue (qNum (.tenant t q))).state ≠ 0) ∨
      ((f = .streamEntry k ∨ f = .streamRecord k) ∧ object = k.toNat ∧ (s.stream k.toNat).alloc = true ∧ (s.stream k.toNat).tenant = t.val) →
    (s.tenant t).state ≠ .free →
    Runs (.sramUncorrectable f) s (touches (.sramUncorrectable f)) fun u => faultLogged u 0x40 (BitVec.ofNat 16 object) ∧
      ((s.part (s.tenant t).part).valid = true → (s.part (s.tenant t).part).reset = none →
        (u.part (s.tenant t).part).reset = some { b := s.clk.now + 1, owed := [] } ∧ (u.tenant t).state = .destroying)) ∧
  (∀ (s : State) (t : Fin 128) (tile : Nat), s.alive = true → (s.tenant t).state = .free →
    exec (.sramUncorrectable (.store t tile)) s = .next s) ∧
  (∀ (s : State) (d : BitVec 12) (g : BitVec 8) (f : SramFault) (i k entry : Nat), s.alive = true →
    (f, i, k, entry) ∈ [(SramFault.route d, routeInst, d.toNat, d.toNat), (.binding d, bindInst, 2 * d.toNat + 1, d.toNat),
      (.multicast g, mcInst, g.toNat * 16 + 1, g.toNat)] →
    Runs (.sramUncorrectable f) s (touches (.sramUncorrectable f)) fun u => faultLogged u 0x12 (BitVec.ofNat 16 entry) ∧
      Tbl.get 0 (u.inst i).active k = Tbl.get 0 (s.inst i).active k &&& 0xFFFFFFFF7FFFFFFF ∧
      Tbl.get 0 (u.inst i).shadow k = Tbl.get 0 (s.inst i).shadow k &&& 0xFFFFFFFF7FFFFFFF ∧
      (∀ j, j ≠ k → Tbl.get 0 (u.inst i).active j = Tbl.get 0 (s.inst i).active j ∧
        Tbl.get 0 (u.inst i).shadow j = Tbl.get 0 (s.inst i).shadow j) ∧ ∀ n, n ≠ i → u.inst n = s.inst n) ∧
  (∀ (s : State) (sl : Fin 32) (set : Nat) (way : Fin 16) (slot : Nat), s.alive = true → set < setsPerSlice →
    slot = (sl.val * setsPerSlice + set) * 16 + way.val →
    Runs (.sramUncorrectable (.dirEntry sl set way)) s (touches (.sramUncorrectable (.dirEntry sl set way))) fun u => ∃ v, u = settle v ∧
      v.dram.mem = s.dram.mem ∧ faultLogged v 0x62 (BitVec.ofNat 16 sl.val) ∧
      if allAgents s = [] then v.ent slot = {} ∧ ∀ k ∈ v.dir.trks, k.slot ≠ some slot
      else ∃ k, (v.dir.trks.filter fun k => decide (k.slot = some slot)) = [k] ∧ k.st = .rc ∧ k.drop = true ∧
        k.waits.map Await.agent = allAgents s) ∧
  (∀ (s : State) (i : Nat), s.alive = true → i < s.til.bogs.length →
    Runs (.sramUncorrectable (.bogRecord i)) s (touches (.sramUncorrectable (.bogRecord i))) fun u =>
      u.til.bogs = s.til.bogs.eraseIdx i ∧ u.til.bogLost = sat32 s.til.bogLost 1 ∧ faultLogged u 0x61 0) ∧
  (∀ (s : State) (p : Fin 32), s.alive = true → (s.port p).state = .up →
    Runs (.sramUncorrectable (.replaySlot p)) s (touches (.sramUncorrectable (.replaySlot p))) fun u => (u.port p).state = .retrain ∧
      (u.port p).downs = sat16 (s.port p).downs ∧ bit (u.port p).ev 1 = true ∧ (u.port p).held = [] ∧ (u.port p).txNext = 0 ∧
      (u.port p).kept = false ∧ (u.port p).epochOwn = (s.port p).epochOwn + 1)
end

