-- ==== Sys2Proof/Laws/Table.lean ====
section
/-! SUPPORT. The laws of sparse tables and of plain memory: what is read after a write, at every key and in every table, and that a
write keeps the canonical form. -/

namespace Sys2Proof

@[simp] theorem Tbl.get_nil {α : Type} (d : α) (i : Nat) : Tbl.get d [] i = d := rfl

/-- A listed value is read at its key, and no other key is changed. -/
theorem Tbl.get_ins {α : Type} (d : α) (t : Tbl α) (i j : Nat) (x : α) :
    Tbl.get d (Tbl.ins t i x) j = if j = i then x else Tbl.get d t j := by
  induction t with
  | nil => rfl
  | cons e r ih =>
    obtain ⟨k, v⟩ := e
    by_cases h1 : i < k
    · simp [Tbl.ins, h1, Tbl.get]
    · by_cases h2 : i = k
      · subst h2
        by_cases hj : j = i <;> simp [Tbl.ins, Tbl.get, hj]
      · by_cases hj : j = k
        · subst hj
          have : j ≠ i := fun e => h2 e.symm
          simp [Tbl.ins, h1, h2, Tbl.get, this]
        · simp [Tbl.ins, h1, h2, Tbl.get, hj, ih]

/-- A key taken out reads the default, and no other key is changed. -/
theorem Tbl.get_filter {α : Type} (d : α) (t : Tbl α) (i j : Nat) :
    Tbl.get d (t.filter fun e => decide (e.1 ≠ i)) j = if j = i then d else Tbl.get d t j := by
  induction t with
  | nil => simp [Tbl.get]
  | cons e r ih =>
    obtain ⟨k, v⟩ := e
    by_cases h : k = i
    · subst h
      by_cases hj : j = k <;> simp_all [Tbl.get]
    · by_cases hj : j = k
      · subst hj
        simp [h, Tbl.get]
      · simp_all [Tbl.get]

/-- What a write leaves at every key of any table. -/
theorem Tbl.get_put {α : Type} [DecidableEq α] (d : α) (t : Tbl α) (i j : Nat) (x : α) :
    Tbl.get d (Tbl.put d t i x) j = if j = i then x else Tbl.get d t j := by
  unfold Tbl.put
  split
  case isTrue h => rw [Tbl.get_filter, h]
  case isFalse => exact Tbl.get_ins d t i j x

@[simp] theorem Tbl.get_put_same {α : Type} [DecidableEq α] (d : α) (t : Tbl α) (i : Nat) (x : α) :
    Tbl.get d (Tbl.put d t i x) i = x := by simp [Tbl.get_put]

theorem Tbl.get_put_ne {α : Type} [DecidableEq α] (d : α) (t : Tbl α) (i j : Nat) (x : α) (h : j ≠ i) :
    Tbl.get d (Tbl.put d t i x) j = Tbl.get d t j := by simp [Tbl.get_put, h]

/-- A table in canonical form from a key on is so from every lower one. -/
theorem Tbl.wfFrom_mono {α : Type} [DecidableEq α] (d : α) (t : Tbl α) (hi lo : Nat) (hl : lo ≤ hi) (h : Tbl.wfFrom d hi t = true) :
    Tbl.wfFrom d lo t = true := by
  cases t with
  | nil => rfl
  | cons e r =>
    obtain ⟨k, v⟩ := e
    simp only [Tbl.wfFrom, Bool.and_eq_true, decide_eq_true_eq] at h ⊢
    exact ⟨⟨by omega, h.1.2⟩, h.2⟩

/-- Keys taken out leave the canonical form. -/
theorem Tbl.wfFrom_filter {α : Type} [DecidableEq α] (d : α) (p : Nat × α → Bool) (t : Tbl α) (lo : Nat) (h : Tbl.wfFrom d lo t = true) :
    Tbl.wfFrom d lo (t.filter p) = true := by
  induction t generalizing lo with
  | nil => rfl
  | cons e r ih =>
    obtain ⟨k, v⟩ := e
    simp only [Tbl.wfFrom, Bool.and_eq_true, decide_eq_true_eq] at h
    by_cases hp : p (k, v) = true
    · simp only [List.filter_cons, hp, if_true, Tbl.wfFrom, Bool.and_eq_true, decide_eq_true_eq]
      exact ⟨h.1, ih (k + 1) h.2⟩
    · simp only [List.filter_cons, hp, Bool.false_eq_true, if_false]
      exact Tbl.wfFrom_mono d _ (k + 1) lo (by omega) (ih (k + 1) h.2)

/-- A value other than the default, listed, leaves the canonical form. -/
theorem Tbl.wfFrom_ins {α : Type} [DecidableEq α] (d : α) (t : Tbl α) (lo i : Nat) (x : α) (hx : x ≠ d) (hl : lo ≤ i)
    (h : Tbl.wfFrom d lo t = true) : Tbl.wfFrom d lo (Tbl.ins t i x) = true := by
  induction t generalizing lo with
  | nil => simp [Tbl.ins, Tbl.wfFrom, hx, hl]
  | cons e r ih =>
    obtain ⟨k, v⟩ := e
    simp only [Tbl.wfFrom, Bool.and_eq_true, decide_eq_true_eq] at h
    by_cases h1 : i < k
    · simp only [Tbl.ins, h1, if_true, Tbl.wfFrom, Bool.and_eq_true, decide_eq_true_eq]
      exact ⟨⟨hl, hx⟩, ⟨by omega, h.1.2⟩, h.2⟩
    · by_cases h2 : i = k
      · subst h2
        simp only [Tbl.ins, lt_irrefl, if_false, if_true, Tbl.wfFrom, Bool.and_eq_true, decide_eq_true_eq]
        exact ⟨⟨hl, hx⟩, h.2⟩
      · simp only [Tbl.ins, h1, h2, if_false, Tbl.wfFrom, Bool.and_eq_true, decide_eq_true_eq]
        exact ⟨h.1, ih (k + 1) (by omega) h.2⟩

/-- A table written keeps its canonical form. -/
theorem Tbl.wf_put {α : Type} [DecidableEq α] (d : α) (t : Tbl α) (i : Nat) (x : α) (h : Tbl.wf d t = true) :
    Tbl.wf d (Tbl.put d t i x) = true := by
  unfold Tbl.put
  split
  case isTrue => exact Tbl.wfFrom_filter d _ t 0 h
  case isFalse hx => exact Tbl.wfFrom_ins d t 0 i x hx (Nat.zero_le i) h

end Sys2Proof

namespace Sys2Proof.Machine

/-- What a byte written leaves at every address of any memory. -/
theorem cellGet_put (d : Byte) (m : List Host.Cell) (a b : Nat) (x : Byte) :
    cellGet d (cellPut d m a x) b = if b = a then x else cellGet d m b := by
  unfold cellPut
  split
  case isTrue hx =>
    induction m with
    | nil => simp [cellGet, hx]
    | cons e r ih =>
      obtain ⟨k, v⟩ := e
      by_cases h : k = a
      · subst h
        by_cases hb : b = k <;> simp_all [cellGet]
      · by_cases hb : b = k
        · subst hb
          simp [h, cellGet]
        · simp_all [cellGet]
  case isFalse =>
    induction m with
    | nil => rfl
    | cons e r ih =>
      obtain ⟨k, v⟩ := e
      by_cases h1 : a < k
      · simp [cellIns, h1, cellGet]
      · by_cases h2 : a = k
        · subst h2
          by_cases hb : b = a <;> simp [cellIns, cellGet, hb]
        · by_cases hb : b = k
          · subst hb
            have : b ≠ a := fun e => h2 e.symm
            simp [cellIns, h1, h2, cellGet, this]
          · simp [cellIns, h1, h2, cellGet, hb, ih]

/-- What a run of bytes written leaves at every address: the byte written there, or what was there before. -/
theorem cellGet_write (d : Byte) (x : List Byte) (m : List Host.Cell) (a b : Nat) :
    cellGet d (cellWrite d m a x) b = if a ≤ b ∧ b < a + x.length then x.getD (b - a) 0 else cellGet d m b := by
  induction x generalizing m a with
  | nil =>
    have : ¬ (a ≤ b ∧ b < a + ([] : List Byte).length) := by simp
    simp only [cellWrite, this, if_false]
  | cons y r ih =>
    simp only [cellWrite, ih, cellGet_put, List.length_cons]
    by_cases h1 : b = a
    · subst h1
      have h2 : ¬ (b + 1 ≤ b ∧ b < b + 1 + r.length) := by omega
      simp
    · by_cases h2 : a + 1 ≤ b ∧ b < a + 1 + r.length
      · have h3 : a ≤ b ∧ b < a + (r.length + 1) := by omega
        obtain ⟨n, hn⟩ : ∃ n, b - a = n + 1 := ⟨b - a - 1, by omega⟩
        have h4 : b - (a + 1) = n := by omega
        simp only [h2, h3, and_self, if_true, hn, h4, List.getD_cons_succ]
      · have h3 : ¬ (a ≤ b ∧ b < a + (r.length + 1)) := by omega
        simp only [h2, h3, if_false, h1]

/-- A cell list in canonical form from an address on is so from every lower one. -/
theorem cellWfFrom_mono (d : Byte) (m : List Host.Cell) (hi lo : Nat) (hl : lo ≤ hi) (h : cellWfFrom d hi m = true) :
    cellWfFrom d lo m = true := by
  cases m with
  | nil => rfl
  | cons e r =>
    obtain ⟨k, v⟩ := e
    simp only [cellWfFrom, Bool.and_eq_true, decide_eq_true_eq] at h ⊢
    exact ⟨⟨by omega, h.1.2⟩, h.2⟩

/-- Cells dropped and cells changed to another listed value leave the canonical form. -/
theorem cellWfFrom_filterMap (d : Byte) (f : Host.Cell → Option Host.Cell) (hf : ∀ c c', c.2 ≠ d → f c = some c' → c'.1 = c.1 ∧ c'.2 ≠ d)
    (m : List Host.Cell) (lo : Nat) (h : cellWfFrom d lo m = true) : cellWfFrom d lo (m.filterMap f) = true := by
  induction m generalizing lo with
  | nil => rfl
  | cons e r ih =>
    obtain ⟨k, v⟩ := e
    simp only [cellWfFrom, Bool.and_eq_true, decide_eq_true_eq] at h
    cases hk : f (k, v) with
    | none => simpa [hk] using cellWfFrom_mono d _ (k + 1) lo (by omega) (ih (k + 1) h.2)
    | some c =>
      obtain ⟨k', v'⟩ := c
      have := hf _ _ h.1.2 hk
      simp only at this
      simp only [List.filterMap_cons, hk, cellWfFrom, Bool.and_eq_true, decide_eq_true_eq, this.1]
      exact ⟨⟨h.1.1, this.2⟩, ih (k + 1) h.2⟩

/-- A byte written keeps the canonical form. -/
theorem cellWfFrom_put (d : Byte) (m : List Host.Cell) (lo a : Nat) (x : Byte) (hl : lo ≤ a) (h : cellWfFrom d lo m = true) :
    cellWfFrom d lo (cellPut d m a x) = true := by
  unfold cellPut
  split
  case isTrue =>
    rw [← List.filterMap_eq_filter]
    refine cellWfFrom_filterMap d _ ?_ m lo h
    intro c c' hc e
    simp only [Option.guard] at e
    split at e
    · cases e; exact ⟨rfl, hc⟩
    · cases e
  case isFalse hx =>
    induction m generalizing lo with
    | nil => simp [cellIns, cellWfFrom, hx, hl]
    | cons e r ih =>
      obtain ⟨k, v⟩ := e
      simp only [cellWfFrom, Bool.and_eq_true, decide_eq_true_eq] at h
      by_cases h1 : a < k
      · simp only [cellIns, h1, if_true, cellWfFrom, Bool.and_eq_true, decide_eq_true_eq]
        exact ⟨⟨hl, hx⟩, ⟨by omega, h.1.2⟩, h.2⟩
      · by_cases h2 : a = k
        · subst h2
          simp only [cellIns, lt_irrefl, if_false, if_true, cellWfFrom, Bool.and_eq_true, decide_eq_true_eq]
          exact ⟨⟨hl, hx⟩, h.2⟩
        · simp only [cellIns, h1, h2, if_false, cellWfFrom, Bool.and_eq_true, decide_eq_true_eq]
          exact ⟨h.1, ih (k + 1) (by omega) h.2⟩

/-- Bytes written keep the canonical form. -/
theorem cellWfFrom_write (d : Byte) (x : List Byte) (m : List Host.Cell) (a : Nat) (h : cellWfFrom d 0 m = true) :
    cellWfFrom d 0 (cellWrite d m a x) = true := by
  induction x generalizing m a with
  | nil => exact h
  | cons b r ih => exact ih (cellPut d m a b) (a + 1) (cellWfFrom_put d m 0 a b (Nat.zero_le a) h)

end Sys2Proof.Machine
end

