-- ==== Sys2Proof/Laws/Keeps.lean ====
section
/-! SUPPORT. How frames compose: a function keeps every area outside a list, and keeps pool memory in its canonical form. -/

namespace Sys2Proof.Machine

/-- Every area outside `A` is as it was, and pool memory stays in its canonical form. -/
def Keeps (A : List Area) (s t : State) : Prop := Within A s t ∧ (memOk s → memOk t)

theorem Area.same_refl (a : Area) (s : State) : a.same s s := by cases a <;> rfl

theorem Area.same_trans {a : Area} {s t u : State} (h : a.same s t) (k : a.same t u) : a.same s u := by
  cases a <;> exact Eq.trans k h

theorem Keeps.refl (A : List Area) (s : State) : Keeps A s s := ⟨fun a _ => a.same_refl s, id⟩

theorem Keeps.comp {A B : List Area} {s t u : State} (k : Keeps B t u) (hb : B ⊆ A) (h : Keeps A s t) : Keeps A s u :=
  ⟨fun a ha => Area.same_trans (h.1 a ha) (k.1 a fun m => ha (hb m)), fun m => k.2 (h.2 m)⟩

theorem Keeps.ite {A : List Area} {s t u : State} {c : Prop} {inst : Decidable c} (h : Keeps A s t) (k : Keeps A s u) :
    Keeps A s (@ite State c inst t u) := by split <;> assumption

theorem Keeps.foldl {α : Type} {A : List Area} {f : State → α → State} (hf : ∀ t x, Keeps A t (f t x)) (l : List α) {s t : State}
    (h : Keeps A s t) : Keeps A s (l.foldl f t) := by
  induction l generalizing t with
  | nil => exact h
  | cons x r ih => exact ih (Keeps.comp (hf t x) (List.Subset.refl A) h)

theorem Keeps.getD {A : List Area} {s d : State} {o : Option State} (h : ∀ t, o = some t → Keeps A s t) (k : Keeps A s d) :
    Keeps A s (o.getD d) := by
  cases o with
  | none => exact k
  | some t => exact h t rfl

theorem Keeps.elim {α : Type} {A : List Area} {s d : State} {o : Option α} {f : α → State} (h : ∀ x, Keeps A s (f x)) (k : Keeps A s d) :
    Keeps A s (o.elim d f) := by
  cases o with
  | none => exact k
  | some x => exact h x

/-- Nothing is no state. -/
theorem Keeps.of_none {A : List Area} {s t : State} (h : (none : Option State) = some t) : Keeps A s t := nomatch h

/-- A fault is no next state. -/
theorem Keeps.of_fault {A : List Area} {s t : State} {r : Fault} (h : (Host.Outcome.fault r : Host.Outcome State Fault Refusal) = .next t) :
    Keeps A s t := nomatch h

/-- The state that an equation names. -/
theorem Keeps.of_eq {A : List Area} {s t u : State} (e : t = u) (k : Keeps A s t) : Keeps A s u := e ▸ k

/-- The state of a pair that a match has taken apart. -/
theorem Keeps.pair1 {α : Type} {A : List Area} {s u : State} {p : α × State} {a : α} (e : p = (a, u)) (k : Keeps A s p.2) :
    Keeps A s u := by
  subst e
  exact k

theorem Keeps.pair2 {α β : Type} {A : List Area} {s u : State} {p : α × β × State} {a : α} {b : β} (e : p = (a, b, u))
    (k : Keeps A s p.2.2) : Keeps A s u := by
  subst e
  exact k

theorem Keeps.pair3 {α β γ : Type} {A : List Area} {s u : State} {p : α × β × γ × State} {a : α} {b : β} {c : γ} (e : p = (a, b, c, u))
    (k : Keeps A s p.2.2.2) : Keeps A s u := by
  subst e
  exact k

/-- A record update over `t`: each field is `t`'s own or lies in a listed area; memory is `t`'s own or in its canonical form. -/
theorem Keeps.mk {A : List Area} {s t : State}
    {v1 : Clk}    {v2 : Crs}    {v3 : Tbl Inst}    {v4 : Nid}
    {v5 : Cfg}    {v6 : Tbl Part}    {v7 : Tbl Tenant}    {v8 : Word}
    {v9 : Tbl Stream}    {v10 : List OReq}    {v11 : Nat}    {v12 : Tbl Port}
    {v13 : Xpt}    {v14 : Msh}    {v15 : Til}    {v16 : Dram}
    {v17 : Dirs}    {v18 : Eng}    {v19 : Arr}    {v20 : Sec}
    {v21 : Tbl HostPort}    {v22 : Pwr}    {v23 : Flt}    {v24 : Boot}
    {v25 : Sbd}    {v26 : List Out}
    (h : Keeps A s t)
    (h1 : v1 = t.clk ∨ Area.clk ∈ A)    (h2 : v2 = t.crs ∨ Area.crs ∈ A)    (h3 : v3 = t.insts ∨ Area.insts ∈ A)
    (h4 : v4 = t.nid ∨ Area.nid ∈ A)    (h5 : v5 = t.cfg ∨ Area.cfg ∈ A)    (h6 : v6 = t.parts ∨ Area.parts ∈ A)
    (h7 : v7 = t.tenants ∨ Area.tenants ∈ A)    (h8 : v8 = t.pttStatus ∨ Area.pttStatus ∈ A)    (h9 : v9 = t.streams ∨ Area.streams ∈ A)
    (h10 : v10 = t.reqs ∨ Area.reqs ∈ A)    (h11 : v11 = t.serialNo ∨ Area.serialNo ∈ A)    (h12 : v12 = t.ports ∨ Area.ports ∈ A)
    (h13 : v13 = t.xpt ∨ Area.xpt ∈ A)    (h14 : v14 = t.msh ∨ Area.msh ∈ A)    (h15 : v15 = t.til ∨ Area.til ∈ A)
    (h16 : v16 = t.dram ∨ Area.dram ∈ A)    (h17 : v17 = t.dir ∨ Area.dir ∈ A)    (h18 : v18 = t.eng ∨ Area.eng ∈ A)
    (h19 : v19 = t.arr ∨ Area.arr ∈ A)    (h20 : v20 = t.sec ∨ Area.sec ∈ A)    (h21 : v21 = t.hosts ∨ Area.hosts ∈ A)
    (h22 : v22 = t.pwr ∨ Area.pwr ∈ A)    (h23 : v23 = t.flt ∨ Area.flt ∈ A)    (h24 : v24 = t.boot ∨ Area.boot ∈ A)
    (h25 : v25 = t.sbd ∨ Area.sbd ∈ A)    (h26 : v26 = t.out ∨ Area.out ∈ A)
    (hm : v16.mem = t.dram.mem ∨ (Memory.wf t.dram.mem = true → Memory.wf v16.mem = true)) :
    Keeps A s ⟨t.pending, v1, v2, v3, v4, v5, v6, v7, v8, v9, v10, v11, v12, v13, v14, v15, v16, v17, v18, v19, v20, v21, v22, v23, v24, v25, v26⟩ := by
  refine Keeps.comp (B := A) ⟨?_, ?_⟩ (List.Subset.refl A) h
  · intro a ha
    cases a with
    | pending => rfl
    | clk => exact h1.resolve_right ha
    | crs => exact h2.resolve_right ha
    | insts => exact h3.resolve_right ha
    | nid => exact h4.resolve_right ha
    | cfg => exact h5.resolve_right ha
    | parts => exact h6.resolve_right ha
    | tenants => exact h7.resolve_right ha
    | pttStatus => exact h8.resolve_right ha
    | streams => exact h9.resolve_right ha
    | reqs => exact h10.resolve_right ha
    | serialNo => exact h11.resolve_right ha
    | ports => exact h12.resolve_right ha
    | xpt => exact h13.resolve_right ha
    | msh => exact h14.resolve_right ha
    | til => exact h15.resolve_right ha
    | dram => exact h16.resolve_right ha
    | dir => exact h17.resolve_right ha
    | eng => exact h18.resolve_right ha
    | arr => exact h19.resolve_right ha
    | sec => exact h20.resolve_right ha
    | hosts => exact h21.resolve_right ha
    | pwr => exact h22.resolve_right ha
    | flt => exact h23.resolve_right ha
    | boot => exact h24.resolve_right ha
    | sbd => exact h25.resolve_right ha
    | out => exact h26.resolve_right ha
  · intro m
    cases hm with
    | inl e => exact (congrArg (fun x => Memory.wf x = true) e).mpr m
    | inr k => exact k m

end Sys2Proof.Machine
end

