-- ==== Sys2Proof/Laws/Frame/Ops.lean ====
section
/-! SUPPORT. The frame of every operation of Machine/Ops.lean: the areas it may change, and that pool memory keeps its canonical form. -/

namespace Sys2Proof.Machine

set_option linter.unusedTactic false
set_option linter.unreachableTactic false
set_option linter.unusedVariables false

theorem State.setInst_keeps {A_ : List Area} {s_ : State} {s : State} {i : Nat} {x : Inst}
    (ha_ : [.insts] ⊆ A_) (hs_ : Keeps A_ s_ s) : Keeps A_ s_ (State.setInst s i x) := by
  refine Keeps.comp ?_ ha_ hs_
  clear hs_ ha_; unfold State.setInst
  try dsimp only
  repeat' first
    | with_reducible exact Keeps.refl _ _
    | exact Or.inr (by decide)
    | with_reducible exact Or.inl rfl
    | (show (_ : List Area) ⊆ _; decide)
    | with_reducible apply Keeps.mk
    | dsimp only
    | exact Or.inl rfl

theorem State.setPart_keeps {A_ : List Area} {s_ : State} {s : State} {p : Nat} {x : Part}
    (ha_ : [.parts] ⊆ A_) (hs_ : Keeps A_ s_ s) : Keeps A_ s_ (State.setPart s p x) := by
  refine Keeps.comp ?_ ha_ hs_
  clear hs_ ha_; unfold State.setPart
  try dsimp only
  repeat' first
    | with_reducible exact Keeps.refl _ _
    | exact Or.inr (by decide)
    | with_reducible exact Or.inl rfl
    | (show (_ : List Area) ⊆ _; decide)
    | with_reducible apply Keeps.mk
    | dsimp only
    | exact Or.inl rfl

theorem State.setTenant_keeps {A_ : List Area} {s_ : State} {s : State} {t : Nat} {x : Tenant}
    (ha_ : [.tenants] ⊆ A_) (hs_ : Keeps A_ s_ s) : Keeps A_ s_ (State.setTenant s t x) := by
  refine Keeps.comp ?_ ha_ hs_
  clear hs_ ha_; unfold State.setTenant
  try dsimp only
  repeat' first
    | with_reducible exact Keeps.refl _ _
    | exact Or.inr (by decide)
    | with_reducible exact Or.inl rfl
    | (show (_ : List Area) ⊆ _; decide)
    | with_reducible apply Keeps.mk
    | dsimp only
    | exact Or.inl rfl

theorem State.setStream_keeps {A_ : List Area} {s_ : State} {s : State} {k : Nat} {x : Stream}
    (ha_ : [.streams] ⊆ A_) (hs_ : Keeps A_ s_ s) : Keeps A_ s_ (State.setStream s k x) := by
  refine Keeps.comp ?_ ha_ hs_
  clear hs_ ha_; unfold State.setStream
  try dsimp only
  repeat' first
    | with_reducible exact Keeps.refl _ _
    | exact Or.inr (by decide)
    | with_reducible exact Or.inl rfl
    | (show (_ : List Area) ⊆ _; decide)
    | with_reducible apply Keeps.mk
    | dsimp only
    | exact Or.inl rfl

theorem State.setPort_keeps {A_ : List Area} {s_ : State} {s : State} {p : Nat} {x : Port}
    (ha_ : [.ports] ⊆ A_) (hs_ : Keeps A_ s_ s) : Keeps A_ s_ (State.setPort s p x) := by
  refine Keeps.comp ?_ ha_ hs_
  clear hs_ ha_; unfold State.setPort
  try dsimp only
  repeat' first
    | with_reducible exact Keeps.refl _ _
    | exact Or.inr (by decide)
    | with_reducible exact Or.inl rfl
    | (show (_ : List Area) ⊆ _; decide)
    | with_reducible apply Keeps.mk
    | dsimp only
    | exact Or.inl rfl

theorem State.setHost_keeps {A_ : List Area} {s_ : State} {s : State} {p : Nat} {x : HostPort}
    (ha_ : [.hosts] ⊆ A_) (hs_ : Keeps A_ s_ s) : Keeps A_ s_ (State.setHost s p x) := by
  refine Keeps.comp ?_ ha_ hs_
  clear hs_ ha_; unfold State.setHost
  try dsimp only
  repeat' first
    | with_reducible exact Keeps.refl _ _
    | exact Or.inr (by decide)
    | with_reducible exact Or.inl rfl
    | (show (_ : List Area) ⊆ _; decide)
    | with_reducible apply Keeps.mk
    | dsimp only
    | exact Or.inl rfl

theorem State.setMig_keeps {A_ : List Area} {s_ : State} {s : State} {k : Nat} {x : Mig}
    (ha_ : [.til] ⊆ A_) (hs_ : Keeps A_ s_ s) : Keeps A_ s_ (State.setMig s k x) := by
  refine Keeps.comp ?_ ha_ hs_
  clear hs_ ha_; unfold State.setMig
  try dsimp only
  repeat' first
    | with_reducible exact Keeps.refl _ _
    | exact Or.inr (by decide)
    | with_reducible exact Or.inl rfl
    | (show (_ : List Area) ⊆ _; decide)
    | with_reducible apply Keeps.mk
    | dsimp only
    | exact Or.inl rfl

theorem State.setUse_keeps {A_ : List Area} {s_ : State} {s : State} {k : Nat} {x : TileUse}
    (ha_ : [.til] ⊆ A_) (hs_ : Keeps A_ s_ s) : Keeps A_ s_ (State.setUse s k x) := by
  refine Keeps.comp ?_ ha_ hs_
  clear hs_ ha_; unfold State.setUse
  try dsimp only
  repeat' first
    | with_reducible exact Keeps.refl _ _
    | exact Or.inr (by decide)
    | with_reducible exact Or.inl rfl
    | (show (_ : List Area) ⊆ _; decide)
    | with_reducible apply Keeps.mk
    | dsimp only
    | exact Or.inl rfl

theorem State.setChan_keeps {A_ : List Area} {s_ : State} {s : State} {k : Nat} {x : Chan}
    (ha_ : [.dram] ⊆ A_) (hs_ : Keeps A_ s_ s) : Keeps A_ s_ (State.setChan s k x) := by
  refine Keeps.comp ?_ ha_ hs_
  clear hs_ ha_; unfold State.setChan
  try dsimp only
  repeat' first
    | with_reducible exact Keeps.refl _ _
    | exact Or.inr (by decide)
    | with_reducible exact Or.inl rfl
    | (show (_ : List Area) ⊆ _; decide)
    | with_reducible apply Keeps.mk
    | dsimp only
    | exact Or.inl rfl

theorem State.setQueue_keeps {A_ : List Area} {s_ : State} {s : State} {k : Nat} {x : Queue}
    (ha_ : [.eng] ⊆ A_) (hs_ : Keeps A_ s_ s) : Keeps A_ s_ (State.setQueue s k x) := by
  refine Keeps.comp ?_ ha_ hs_
  clear hs_ ha_; unfold State.setQueue
  try dsimp only
  repeat' first
    | with_reducible exact Keeps.refl _ _
    | exact Or.inr (by decide)
    | with_reducible exact Or.inl rfl
    | (show (_ : List Area) ⊆ _; decide)
    | with_reducible apply Keeps.mk
    | dsimp only
    | exact Or.inl rfl

theorem State.setCol_keeps {A_ : List Area} {s_ : State} {s : State} {k : Nat} {x : Col}
    (ha_ : [.arr] ⊆ A_) (hs_ : Keeps A_ s_ s) : Keeps A_ s_ (State.setCol s k x) := by
  refine Keeps.comp ?_ ha_ hs_
  clear hs_ ha_; unfold State.setCol
  try dsimp only
  repeat' first
    | with_reducible exact Keeps.refl _ _
    | exact Or.inr (by decide)
    | with_reducible exact Or.inl rfl
    | (show (_ : List Area) ⊆ _; decide)
    | with_reducible apply Keeps.mk
    | dsimp only
    | exact Or.inl rfl

theorem State.setPin_keeps {A_ : List Area} {s_ : State} {s : State} {n : Nat} {x : Pin}
    (ha_ : [.sbd] ⊆ A_) (hs_ : Keeps A_ s_ s) : Keeps A_ s_ (State.setPin s n x) := by
  refine Keeps.comp ?_ ha_ hs_
  clear hs_ ha_; unfold State.setPin
  try dsimp only
  repeat' first
    | with_reducible exact Keeps.refl _ _
    | exact Or.inr (by decide)
    | with_reducible exact Or.inl rfl
    | (show (_ : List Area) ⊆ _; decide)
    | with_reducible apply Keeps.mk
    | dsimp only
    | exact Or.inl rfl

theorem State.setSlip_keeps {A_ : List Area} {s_ : State} {s : State} {k : Nat} {x : Slip}
    (ha_ : [.crs] ⊆ A_) (hs_ : Keeps A_ s_ s) : Keeps A_ s_ (State.setSlip s k x) := by
  refine Keeps.comp ?_ ha_ hs_
  clear hs_ ha_; unfold State.setSlip
  try dsimp only
  repeat' first
    | with_reducible exact Keeps.refl _ _
    | exact Or.inr (by decide)
    | with_reducible exact Or.inl rfl
    | (show (_ : List Area) ⊆ _; decide)
    | with_reducible apply Keeps.mk
    | dsimp only
    | exact Or.inl rfl

theorem State.setWd_keeps {A_ : List Area} {s_ : State} {s : State} {k : Nat} {x : Wd}
    (ha_ : [.flt] ⊆ A_) (hs_ : Keeps A_ s_ s) : Keeps A_ s_ (State.setWd s k x) := by
  refine Keeps.comp ?_ ha_ hs_
  clear hs_ ha_; unfold State.setWd
  try dsimp only
  repeat' first
    | with_reducible exact Keeps.refl _ _
    | exact Or.inr (by decide)
    | with_reducible exact Or.inl rfl
    | (show (_ : List Area) ⊆ _; decide)
    | with_reducible apply Keeps.mk
    | dsimp only
    | exact Or.inl rfl

theorem State.setSecPort_keeps {A_ : List Area} {s_ : State} {s : State} {k : Nat} {x : SecPort}
    (ha_ : [.sec] ⊆ A_) (hs_ : Keeps A_ s_ s) : Keeps A_ s_ (State.setSecPort s k x) := by
  refine Keeps.comp ?_ ha_ hs_
  clear hs_ ha_; unfold State.setSecPort
  try dsimp only
  repeat' first
    | with_reducible exact Keeps.refl _ _
    | exact Or.inr (by decide)
    | with_reducible exact Or.inl rfl
    | (show (_ : List Area) ⊆ _; decide)
    | with_reducible apply Keeps.mk
    | dsimp only
    | exact Or.inl rfl

theorem State.setTier_keeps {A_ : List Area} {s_ : State} {s : State} {t : Tier} {x : TierSt}
    (ha_ : [.dram] ⊆ A_) (hs_ : Keeps A_ s_ s) : Keeps A_ s_ (State.setTier s t x) := by
  refine Keeps.comp ?_ ha_ hs_
  clear hs_ ha_; unfold State.setTier
  try dsimp only
  repeat' first
    | with_reducible exact Keeps.refl _ _
    | exact Or.inr (by decide)
    | with_reducible exact Or.inl rfl
    | (show (_ : List Area) ⊆ _; decide)
    | split
    | with_reducible apply Keeps.mk
    | dsimp only
    | exact Or.inl rfl

theorem State.emit_keeps {A_ : List Area} {s_ : State} {s : State} {o : Out}
    (ha_ : [.out] ⊆ A_) (hs_ : Keeps A_ s_ s) : Keeps A_ s_ (State.emit s o) := by
  refine Keeps.comp ?_ ha_ hs_
  clear hs_ ha_; unfold State.emit
  try dsimp only
  repeat' first
    | with_reducible exact Keeps.refl _ _
    | exact Or.inr (by decide)
    | with_reducible exact Or.inl rfl
    | (show (_ : List Area) ⊆ _; decide)
    | with_reducible apply Keeps.mk
    | dsimp only
    | exact Or.inl rfl

theorem State.fresh_keeps {A_ : List Area} {s_ : State} {s : State}
    (ha_ : [.serialNo] ⊆ A_) (hs_ : Keeps A_ s_ s) : Keeps A_ s_ (State.fresh s).2 := by
  refine Keeps.comp ?_ ha_ hs_
  clear hs_ ha_; unfold State.fresh
  try dsimp only
  repeat' first
    | with_reducible exact Keeps.refl _ _
    | exact Or.inr (by decide)
    | with_reducible exact Or.inl rfl
    | (show (_ : List Area) ⊆ _; decide)
    | with_reducible apply Keeps.mk
    | dsimp only
    | exact Or.inl rfl

theorem State.putShadow_keeps {A_ : List Area} {s_ : State} {s : State} {i : Nat} {k : Nat} {v : BitVec 64}
    (ha_ : [.insts] ⊆ A_) (hs_ : Keeps A_ s_ s) : Keeps A_ s_ (State.putShadow s i k v) := by
  refine Keeps.comp ?_ ha_ hs_
  clear hs_ ha_; unfold State.putShadow
  try dsimp only
  repeat' first
    | with_reducible exact Keeps.refl _ _
    | with_reducible apply State.setInst_keeps
    | exact Or.inr (by decide)
    | with_reducible exact Or.inl rfl
    | (show (_ : List Area) ⊆ _; decide)
    | with_reducible apply Keeps.mk
    | dsimp only
    | exact Or.inl rfl

theorem State.putBoth_keeps {A_ : List Area} {s_ : State} {s : State} {i : Nat} {k : Nat} {v : BitVec 64}
    (ha_ : [.insts] ⊆ A_) (hs_ : Keeps A_ s_ s) : Keeps A_ s_ (State.putBoth s i k v) := by
  refine Keeps.comp ?_ ha_ hs_
  clear hs_ ha_; unfold State.putBoth
  try dsimp only
  repeat' first
    | with_reducible exact Keeps.refl _ _
    | with_reducible apply State.setInst_keeps
    | exact Or.inr (by decide)
    | with_reducible exact Or.inl rfl
    | (show (_ : List Area) ⊆ _; decide)
    | with_reducible apply Keeps.mk
    | dsimp only
    | exact Or.inl rfl

theorem State.setCommit_keeps {A_ : List Area} {s_ : State} {s : State} {i : Nat}
    (ha_ : [.insts] ⊆ A_) (hs_ : Keeps A_ s_ s) : Keeps A_ s_ (State.setCommit s i) := by
  refine Keeps.comp ?_ ha_ hs_
  clear hs_ ha_; unfold State.setCommit
  try dsimp only
  repeat' first
    | with_reducible exact Keeps.refl _ _
    | with_reducible apply State.setInst_keeps
    | exact Or.inr (by decide)
    | with_reducible exact Or.inl rfl
    | (show (_ : List Area) ⊆ _; decide)
    | with_reducible apply Keeps.mk
    | dsimp only
    | exact Or.inl rfl

theorem smbPush_keeps {A_ : List Area} {s_ : State} {code : BitVec 16} {s : State}
    (ha_ : [.sbd] ⊆ A_) (hs_ : Keeps A_ s_ s) : Keeps A_ s_ (smbPush code s) := by
  refine Keeps.comp ?_ ha_ hs_
  clear hs_ ha_; unfold smbPush
  try dsimp only
  repeat' first
    | with_reducible exact Keeps.refl _ _
    | with_reducible refine Keeps.ite ?_ ?_
    | exact Or.inr (by decide)
    | with_reducible exact Or.inl rfl
    | (show (_ : List Area) ⊆ _; decide)
    | split
    | with_reducible apply Keeps.mk
    | dsimp only
    | exact Or.inl rfl

theorem writeEvent_keeps {A_ : List Area} {s_ : State} {hp : Fin 4} {e : Event} {s : State}
    (ha_ : [.hosts, .out] ⊆ A_) (hs_ : Keeps A_ s_ s) : Keeps A_ s_ (writeEvent hp e s) := by
  refine Keeps.comp ?_ ha_ hs_
  clear hs_ ha_; unfold writeEvent
  try dsimp only
  repeat' first
    | with_reducible exact Keeps.refl _ _
    | with_reducible apply State.emit_keeps
    | with_reducible apply State.setHost_keeps
    | with_reducible refine Keeps.ite ?_ ?_
    | exact Or.inr (by decide)
    | with_reducible exact Or.inl rfl
    | (show (_ : List Area) ⊆ _; decide)
    | split
    | with_reducible apply Keeps.mk
    | dsimp only
    | exact Or.inl rfl

theorem postRing_keeps {A_ : List Area} {s_ : State} {hp : Fin 4} {e : Event} {s : State}
    (ha_ : [.hosts, .out] ⊆ A_) (hs_ : Keeps A_ s_ s) : Keeps A_ s_ (postRing hp e s) := by
  refine Keeps.comp ?_ ha_ hs_
  clear hs_ ha_; unfold postRing
  try dsimp only
  repeat' first
    | with_reducible exact Keeps.refl _ _
    | with_reducible apply writeEvent_keeps
    | with_reducible apply State.setHost_keeps
    | with_reducible refine Keeps.ite ?_ ?_
    | exact Or.inr (by decide)
    | with_reducible exact Or.inl rfl
    | (show (_ : List Area) ⊆ _; decide)
    | split
    | with_reducible apply Keeps.mk
    | dsimp only
    | exact Or.inl rfl

theorem drainRing_keeps {A_ : List Area} {hp : Fin 4} (n : Nat) : ∀ {s_ s : State}, [.hosts, .out] ⊆ A_ → Keeps A_ s_ s → Keeps A_ s_ (drainRing hp n s) := by
  induction n with
  | zero => intro s_ s _ h; exact h
  | succ n ih =>
    intro s_ s ha h
    unfold drainRing
    dsimp only
    split
    · exact h
    · split
      · exact ih ha (writeEvent_keeps ha (State.setHost_keeps (List.Subset.trans (by decide) ha) h))
      · exact h

theorem postAdmin_keeps {A_ : List Area} {s_ : State} {e : Event} {s : State}
    (ha_ : [.hosts, .sbd, .out] ⊆ A_) (hs_ : Keeps A_ s_ s) : Keeps A_ s_ (postAdmin e s) := by
  refine Keeps.comp ?_ ha_ hs_
  clear hs_ ha_; unfold postAdmin
  try dsimp only
  repeat' first
    | with_reducible exact Keeps.refl _ _
    | with_reducible apply postRing_keeps
    | with_reducible apply smbPush_keeps
    | (show (_ : List Area) ⊆ _; decide)

theorem postBoth_keeps {A_ : List Area} {s_ : State} {port : Fin 4} {e : Event} {s : State}
    (ha_ : [.hosts, .sbd, .out] ⊆ A_) (hs_ : Keeps A_ s_ s) : Keeps A_ s_ (postBoth port e s) := by
  refine Keeps.comp ?_ ha_ hs_
  clear hs_ ha_; unfold postBoth
  try dsimp only
  repeat' first
    | with_reducible exact Keeps.refl _ _
    | with_reducible apply postAdmin_keeps
    | with_reducible apply postRing_keeps
    | with_reducible refine Keeps.ite ?_ ?_
    | (show (_ : List Area) ⊆ _; decide)
    | split
    | dsimp only

theorem pushFault_keeps {A_ : List Area} {s_ : State} {e : FltEntry} {s : State}
    (ha_ : [.flt, .out] ⊆ A_) (hs_ : Keeps A_ s_ s) : Keeps A_ s_ (pushFault e s) := by
  refine Keeps.comp ?_ ha_ hs_
  clear hs_ ha_; unfold pushFault
  try dsimp only
  repeat' first
    | with_reducible exact Keeps.refl _ _
    | with_reducible apply State.emit_keeps
    | with_reducible refine Keeps.ite ?_ ?_
    | exact Or.inr (by decide)
    | with_reducible exact Or.inl rfl
    | (show (_ : List Area) ⊆ _; decide)
    | split
    | with_reducible apply Keeps.mk
    | dsimp only
    | exact Or.inl rfl

theorem recordFault_keeps {A_ : List Area} {s_ : State} {f : FaultSpec} {s : State}
    (ha_ : [.hosts, .flt, .sbd, .out] ⊆ A_) (hs_ : Keeps A_ s_ s) : Keeps A_ s_ (recordFault f s) := by
  refine Keeps.comp ?_ ha_ hs_
  clear hs_ ha_; unfold recordFault
  try dsimp only
  repeat' first
    | with_reducible exact Keeps.refl _ _
    | with_reducible apply pushFault_keeps
    | with_reducible apply postBoth_keeps
    | with_reducible apply postAdmin_keeps
    | with_reducible refine Keeps.ite ?_ ?_
    | exact Or.inr (by decide)
    | with_reducible exact Or.inl rfl
    | (show (_ : List Area) ⊆ _; decide)
    | split
    | with_reducible apply Keeps.mk
    | dsimp only
    | exact Or.inl rfl

theorem zeroiseAll_keeps {A_ : List Area} {s_ : State} {s : State}
    (ha_ : [.tenants, .ports] ⊆ A_) (hs_ : Keeps A_ s_ s) : Keeps A_ s_ (zeroiseAll s) := by
  refine Keeps.comp ?_ ha_ hs_
  clear hs_ ha_; unfold zeroiseAll
  try dsimp only
  repeat' first
    | with_reducible exact Keeps.refl _ _
    | exact Or.inr (by decide)
    | with_reducible exact Or.inl rfl
    | (show (_ : List Area) ⊆ _; decide)
    | with_reducible apply Keeps.mk
    | dsimp only
    | exact Or.inl rfl

theorem joinFatal_keeps {A_ : List Area} {s_ : State} {causes : List Nat} {object : BitVec 16} {detail : BitVec 64} {s : State}
    (ha_ : [.flt] ⊆ A_) (hs_ : Keeps A_ s_ s) : Keeps A_ s_ (joinFatal causes object detail s) := by
  refine Keeps.comp ?_ ha_ hs_
  clear hs_ ha_; unfold joinFatal
  try dsimp only
  repeat' first
    | with_reducible exact Keeps.refl _ _
    | with_reducible refine Keeps.foldl (fun _ _ => ?_) _ ?_
    | with_reducible refine Keeps.ite ?_ ?_
    | exact Or.inr (by decide)
    | with_reducible exact Or.inl rfl
    | (show (_ : List Area) ⊆ _; decide)
    | split
    | with_reducible apply Keeps.mk
    | dsimp only
    | exact Or.inl rfl

theorem enterFatal_keeps {A_ : List Area} {s_ : State} {causes : List Nat} {object : BitVec 16} {detail : BitVec 64} {s : State}
    (ha_ : [.nid, .tenants, .ports, .flt, .sbd, .out] ⊆ A_) (hs_ : Keeps A_ s_ s) : Keeps A_ s_ (enterFatal causes object detail s) := by
  refine Keeps.comp ?_ ha_ hs_
  clear hs_ ha_; unfold enterFatal
  try dsimp only
  repeat' first
    | with_reducible exact Keeps.refl _ _
    | with_reducible apply joinFatal_keeps
    | with_reducible apply zeroiseAll_keeps
    | with_reducible apply pushFault_keeps
    | with_reducible apply State.emit_keeps
    | with_reducible refine Keeps.foldl (fun _ _ => ?_) _ ?_
    | with_reducible refine Keeps.ite ?_ ?_
    | exact Or.inr (by decide)
    | with_reducible exact Or.inl rfl
    | (show (_ : List Area) ⊆ _; decide)
    | split
    | with_reducible apply Keeps.mk
    | dsimp only
    | exact Or.inl rfl

theorem State.toHost_keeps {A_ : List Area} {s_ : State} {hp : Fin 4} {o : Out} {s : State}
    (ha_ : [.out] ⊆ A_) (hs_ : Keeps A_ s_ s) : Keeps A_ s_ (State.toHost hp o s) := by
  refine Keeps.comp ?_ ha_ hs_
  clear hs_ ha_; unfold State.toHost
  try dsimp only
  repeat' first
    | with_reducible exact Keeps.refl _ _
    | with_reducible apply State.emit_keeps
    | with_reducible refine Keeps.ite ?_ ?_
    | (show (_ : List Area) ⊆ _; decide)
    | split
    | dsimp only

theorem answer_keeps {A_ : List Area} {s_ : State} {o : Owed} {st : Status} {fields : List Byte} {s : State}
    (ha_ : [.hosts, .out] ⊆ A_) (hs_ : Keeps A_ s_ s) : Keeps A_ s_ (answer o st fields s) := by
  refine Keeps.comp ?_ ha_ hs_
  clear hs_ ha_; unfold answer
  try dsimp only
  repeat' first
    | with_reducible exact Keeps.refl _ _
    | with_reducible apply State.emit_keeps
    | with_reducible apply State.setHost_keeps
    | with_reducible refine Keeps.ite ?_ ?_
    | exact Or.inr (by decide)
    | with_reducible exact Or.inl rfl
    | (show (_ : List Area) ⊆ _; decide)
    | split
    | with_reducible apply Keeps.mk
    | dsimp only
    | exact Or.inl rfl

theorem mbxAccept_keeps {A_ : List Area} {s_ : State} {fn : Fn} {opcode : Nat} {h : MbxHdr} {fields : List Byte} {s : State}
    (ha_ : [.serialNo, .hosts] ⊆ A_) (hs_ : Keeps A_ s_ s) : Keeps A_ s_ (mbxAccept fn opcode h fields s).2 := by
  refine Keeps.comp ?_ ha_ hs_
  clear hs_ ha_; unfold mbxAccept
  try dsimp only
  repeat' first
    | with_reducible exact Keeps.refl _ _
    | with_reducible apply State.setHost_keeps
    | exact Or.inr (by decide)
    | with_reducible exact Or.inl rfl
    | (show (_ : List Area) ⊆ _; decide)
    | with_reducible apply Keeps.mk
    | dsimp only
    | exact Or.inl rfl

theorem mailbox_keeps {A_ : List Area} {s_ s : State} {fn : Fn} {opcode : Nat} {h : MbxHdr} {fields : List Byte} {anyState : Bool}
    {right : State → Bool} {body : Owed → State → State} (hb_ : ∀ o t, Keeps A_ t (body o t)) (ha_ : [.serialNo, .hosts, .out] ⊆ A_)
    (hs_ : Keeps A_ s_ s) : Keeps A_ s_ (mailbox fn opcode h fields anyState right body s) := by
  refine Keeps.comp (B := A_) ?_ (List.Subset.refl _) hs_
  have h1 : Keeps A_ s (mbxAccept fn opcode h fields s).2 :=
    mbxAccept_keeps (List.Subset.trans (by decide) ha_) (Keeps.refl _ _)
  have h2 : ∀ o st f, Keeps A_ s (answer o st f (mbxAccept fn opcode h fields s).2) := fun _ _ _ =>
    answer_keeps (List.Subset.trans (by decide) ha_) h1
  unfold mailbox
  split
  · exact Keeps.refl _ _
  · split
    · exact State.setHost_keeps (List.Subset.trans (by decide) ha_) (Keeps.refl _ _)
    · exact Keeps.ite (h2 ..) (Keeps.ite (h2 ..) (Keeps.ite (h2 ..) (Keeps.comp (hb_ ..) (List.Subset.refl _) h1)))

theorem idleTick_keeps {A_ : List Area} {s_ : State} {s : State}
    (ha_ : [.clk] ⊆ A_) (hs_ : Keeps A_ s_ s) : Keeps A_ s_ (idleTick s) := by
  refine Keeps.comp ?_ ha_ hs_
  clear hs_ ha_; unfold idleTick
  try dsimp only
  repeat' first
    | with_reducible exact Keeps.refl _ _
    | with_reducible refine Keeps.ite ?_ ?_
    | exact Or.inr (by decide)
    | with_reducible exact Or.inl rfl
    | (show (_ : List Area) ⊆ _; decide)
    | split
    | with_reducible apply Keeps.mk
    | dsimp only
    | exact Or.inl rfl

end Sys2Proof.Machine
end

