-- ==== Sys2Proof/Laws/Frame/Memory.lean ====
section
/-! SUPPORT. The frame of every operation of Machine/Memory.lean: the areas it may change, and that pool memory keeps its canonical form. -/

namespace Sys2Proof.Machine

set_option linter.unusedTactic false
set_option linter.unreachableTactic false
set_option linter.unusedVariables false

theorem State.setBank_keeps {A_ : List Area} {s_ : State} {s : State} {k : Nat} {x : Bank}
    (ha_ : [.dram] ⊆ A_) (hs_ : Keeps A_ s_ s) : Keeps A_ s_ (State.setBank s k x) := by
  refine Keeps.comp ?_ ha_ hs_
  clear hs_ ha_; unfold State.setBank
  try dsimp only
  repeat' first
    | with_reducible exact Keeps.refl _ _
    | exact Or.inr (by decide)
    | with_reducible exact Or.inl rfl
    | (show (_ : List Area) ⊆ _; decide)
    | with_reducible apply Keeps.mk
    | dsimp only
    | exact Or.inl rfl

theorem State.setRank_keeps {A_ : List Area} {s_ : State} {s : State} {k : Nat} {x : Rank}
    (ha_ : [.dram] ⊆ A_) (hs_ : Keeps A_ s_ s) : Keeps A_ s_ (State.setRank s k x) := by
  refine Keeps.comp ?_ ha_ hs_
  clear hs_ ha_; unfold State.setRank
  try dsimp only
  repeat' first
    | with_reducible exact Keeps.refl _ _
    | exact Or.inr (by decide)
    | with_reducible exact Or.inl rfl
    | (show (_ : List Area) ⊆ _; decide)
    | with_reducible apply Keeps.mk
    | dsimp only
    | exact Or.inl rfl

theorem dramSpend_keeps {A_ : List Area} {s_ : State} {t : Tier} {l : Nat} {s : State}
    (ha_ : [.dram] ⊆ A_) (hs_ : Keeps A_ s_ s) : Keeps A_ s_ (dramSpend t l s) := by
  refine Keeps.comp ?_ ha_ hs_
  clear hs_ ha_; unfold dramSpend
  try dsimp only
  repeat' first
    | with_reducible exact Keeps.refl _ _
    | exact Or.inr (by decide)
    | with_reducible exact Or.inl rfl
    | (show (_ : List Area) ⊆ _; decide)
    | with_reducible apply Keeps.mk
    | dsimp only
    | exact Or.inl rfl

theorem touch_keeps {A_ : List Area} {s_ : State} {t : Tier} {l : Nat} {policy : Nat} {q : List MemOp} {s : State}
    (ha_ : [.dram] ⊆ A_) (hs_ : Keeps A_ s_ s) : Keeps A_ s_ (touch t l policy q s) := by
  refine Keeps.comp ?_ ha_ hs_
  clear hs_ ha_; unfold touch
  try dsimp only
  repeat' first
    | with_reducible exact Keeps.refl _ _
    | with_reducible apply dramSpend_keeps
    | with_reducible apply State.setRank_keeps
    | with_reducible apply State.setBank_keeps
    | with_reducible refine Keeps.ite ?_ ?_
    | exact Or.inr (by decide)
    | with_reducible exact Or.inl rfl
    | (show (_ : List Area) ⊆ _; decide)
    | split
    | with_reducible apply Keeps.mk
    | dsimp only
    | exact Or.inl rfl

theorem State.putStored_keeps {A_ : List Area} {s_ : State} {s : State} {t : Tier} {l : Nat} {x : Line}
    (ha_ : [.dram] ⊆ A_) (hs_ : Keeps A_ s_ s) : Keeps A_ s_ (State.putStored s t l x) := by
  refine Keeps.comp ?_ ha_ hs_
  clear hs_ ha_; unfold State.putStored
  try dsimp only
  repeat' first
    | with_reducible exact Keeps.refl _ _
    | exact Or.inr (fun h => cellWfFrom_write 0 _ _ _ h)
    | exact Or.inr (by decide)
    | with_reducible exact Or.inl rfl
    | (show (_ : List Area) ⊆ _; decide)
    | with_reducible apply Keeps.mk
    | dsimp only
    | exact Or.inl rfl

theorem State.setPoison_keeps {A_ : List Area} {s_ : State} {s : State} {t : Tier} {l : Nat} {b : Bool}
    (ha_ : [.dram] ⊆ A_) (hs_ : Keeps A_ s_ s) : Keeps A_ s_ (State.setPoison s t l b) := by
  refine Keeps.comp ?_ ha_ hs_
  clear hs_ ha_; unfold State.setPoison
  try dsimp only
  repeat' first
    | with_reducible exact Keeps.refl _ _
    | exact Or.inr (by decide)
    | with_reducible exact Or.inl rfl
    | (show (_ : List Area) ⊆ _; decide)
    | with_reducible apply Keeps.mk
    | dsimp only
    | exact Or.inl rfl

theorem dropTile_keeps {A_ : List Area} {s_ : State} {t : Tier} {s : State}
    (ha_ : [.nid] ⊆ A_) (hs_ : Keeps A_ s_ s) : Keeps A_ s_ (dropTile t s) := by
  refine Keeps.comp ?_ ha_ hs_
  clear hs_ ha_; unfold dropTile
  try dsimp only
  repeat' first
    | with_reducible exact Keeps.refl _ _
    | exact Or.inr (by decide)
    | with_reducible exact Or.inl rfl
    | (show (_ : List Area) ⊆ _; decide)
    | split
    | with_reducible apply Keeps.mk
    | dsimp only
    | exact Or.inl rfl

theorem addUsed_keeps {A_ : List Area} {s_ : State} {p : Nat} {t : Tier} {up : Bool} {s : State}
    (ha_ : [.parts] ⊆ A_) (hs_ : Keeps A_ s_ s) : Keeps A_ s_ (addUsed p t up s) := by
  refine Keeps.comp ?_ ha_ hs_
  clear hs_ ha_; unfold addUsed
  try dsimp only
  repeat' first
    | with_reducible exact Keeps.refl _ _
    | with_reducible apply State.setPart_keeps
    | with_reducible refine Keeps.ite ?_ ?_
    | exact Or.inr (by decide)
    | with_reducible exact Or.inl rfl
    | (show (_ : List Area) ⊆ _; decide)
    | split
    | with_reducible apply Keeps.mk
    | dsimp only
    | exact Or.inl rfl

theorem wakeTier_keeps {A_ : List Area} {s_ : State} {t : Tier} {s : State}
    (ha_ : [.dram] ⊆ A_) (hs_ : Keeps A_ s_ s) : Keeps A_ s_ (wakeTier t s) := by
  refine Keeps.comp ?_ ha_ hs_
  clear hs_ ha_; unfold wakeTier
  try dsimp only
  repeat' first
    | with_reducible exact Keeps.refl _ _
    | with_reducible apply State.setTier_keeps
    | with_reducible refine Keeps.ite ?_ ?_
    | exact Or.inr (by decide)
    | with_reducible exact Or.inl rfl
    | (show (_ : List Area) ⊆ _; decide)
    | split
    | with_reducible apply Keeps.mk
    | dsimp only
    | exact Or.inl rfl

theorem answerAwake_keeps {A_ : List Area} {s_ : State} {ts : List Tier} {o : Owed} {fields : List Byte} {s : State}
    (ha_ : [.dram, .hosts, .out] ⊆ A_) (hs_ : Keeps A_ s_ s) : Keeps A_ s_ (answerAwake ts o fields s) := by
  refine Keeps.comp ?_ ha_ hs_
  clear hs_ ha_; unfold answerAwake
  try dsimp only
  repeat' first
    | with_reducible exact Keeps.refl _ _
    | with_reducible apply answer_keeps
    | with_reducible apply State.setTier_keeps
    | exact Or.inr (by decide)
    | with_reducible exact Or.inl rfl
    | (show (_ : List Area) ⊆ _; decide)
    | split
    | with_reducible apply Keeps.mk
    | dsimp only
    | exact Or.inl rfl

theorem takeTile_keeps {A_ : List Area} {s_ : State} {t : Tier} {p : Nat} {tenant : Nat} {part : Nat} {s : State}
    (ha_ : [.parts, .serialNo, .til, .dram] ⊆ A_) (hs_ : Keeps A_ s_ s) : Keeps A_ s_ (takeTile t p tenant part s) := by
  refine Keeps.comp ?_ ha_ hs_
  clear hs_ ha_; unfold takeTile
  try dsimp only
  repeat' first
    | with_reducible exact Keeps.refl _ _
    | with_reducible apply wakeTier_keeps
    | with_reducible apply addUsed_keeps
    | with_reducible apply State.setUse_keeps
    | exact Or.inr (by decide)
    | with_reducible exact Or.inl rfl
    | (show (_ : List Area) ⊆ _; decide)
    | with_reducible apply Keeps.mk
    | dsimp only
    | exact Or.inl rfl

theorem dropUse_keeps {A_ : List Area} {s_ : State} {t : Tier} {p : Nat} {retire : Bool} {s : State}
    (ha_ : [.nid, .parts, .til] ⊆ A_) (hs_ : Keeps A_ s_ s) : Keeps A_ s_ (dropUse t p retire s) := by
  refine Keeps.comp ?_ ha_ hs_
  clear hs_ ha_; unfold dropUse
  try dsimp only
  repeat' first
    | with_reducible exact Keeps.refl _ _
    | with_reducible apply addUsed_keeps
    | with_reducible apply dropTile_keeps
    | with_reducible apply State.setUse_keeps
    | with_reducible refine Keeps.ite ?_ ?_
    | exact Or.inr (by decide)
    | with_reducible exact Or.inl rfl
    | (show (_ : List Area) ⊆ _; decide)
    | split
    | with_reducible apply Keeps.mk
    | dsimp only
    | exact Or.inl rfl

theorem mapBoth_keeps {A_ : List Area} {s_ : State} {t : Tier} {p : Nat} {f : TileEnt → TileEnt} {s : State}
    (ha_ : [.insts] ⊆ A_) (hs_ : Keeps A_ s_ s) : Keeps A_ s_ (mapBoth t p f s) := by
  refine Keeps.comp ?_ ha_ hs_
  clear hs_ ha_; unfold mapBoth
  try dsimp only
  repeat' first
    | with_reducible exact Keeps.refl _ _
    | with_reducible refine Keeps.ite ?_ ?_
    | exact Or.inr (by decide)
    | with_reducible exact Or.inl rfl
    | (show (_ : List Area) ⊆ _; decide)
    | split
    | with_reducible apply Keeps.mk
    | dsimp only
    | exact Or.inl rfl

theorem markDirty_keeps {A_ : List Area} {s_ : State} {t : Tier} {l : Nat} {s : State}
    (ha_ : [.til] ⊆ A_) (hs_ : Keeps A_ s_ s) : Keeps A_ s_ (markDirty t l s) := by
  refine Keeps.comp ?_ ha_ hs_
  clear hs_ ha_; unfold markDirty
  try dsimp only
  repeat' first
    | with_reducible exact Keeps.refl _ _
    | with_reducible refine Keeps.ite ?_ ?_
    | exact Or.inr (by decide)
    | with_reducible exact Or.inl rfl
    | (show (_ : List Area) ⊆ _; decide)
    | split
    | with_reducible apply Keeps.mk
    | dsimp only
    | exact Or.inl rfl

theorem bogLost_keeps {A_ : List Area} {s_ : State} {n : Nat} {s : State}
    (ha_ : [.til, .hosts, .flt, .sbd, .out] ⊆ A_) (hs_ : Keeps A_ s_ s) : Keeps A_ s_ (bogLost n s) := by
  refine Keeps.comp ?_ ha_ hs_
  clear hs_ ha_; unfold bogLost
  try dsimp only
  repeat' first
    | with_reducible exact Keeps.refl _ _
    | with_reducible apply recordFault_keeps
    | with_reducible refine Keeps.ite ?_ ?_
    | exact Or.inr (by decide)
    | with_reducible exact Or.inl rfl
    | (show (_ : List Area) ⊆ _; decide)
    | split
    | with_reducible apply Keeps.mk
    | dsimp only
    | exact Or.inl rfl

theorem bogNoRoom_keeps {A_ : List Area} {s_ : State} {s : State}
    (ha_ : [.til, .hosts, .flt, .sbd, .out] ⊆ A_) (hs_ : Keeps A_ s_ s) : Keeps A_ s_ (bogNoRoom s) := by
  refine Keeps.comp ?_ ha_ hs_
  clear hs_ ha_; unfold bogNoRoom
  try dsimp only
  repeat' first
    | with_reducible exact Keeps.refl _ _
    | with_reducible apply bogLost_keeps
    | exact Or.inr (by decide)
    | with_reducible exact Or.inl rfl
    | (show (_ : List Area) ⊆ _; decide)
    | with_reducible apply Keeps.mk
    | dsimp only
    | exact Or.inl rfl

theorem pushBog_keeps {A_ : List Area} {s_ : State} {b : Bog} {s : State}
    (ha_ : [.nid, .serialNo, .til, .dram, .hosts, .flt, .sbd, .out] ⊆ A_) (hs_ : Keeps A_ s_ s) : Keeps A_ s_ (pushBog b s) := by
  refine Keeps.comp ?_ ha_ hs_
  clear hs_ ha_; unfold pushBog
  try dsimp only
  repeat' first
    | with_reducible exact Keeps.refl _ _
    | with_reducible apply bogNoRoom_keeps
    | with_reducible apply wakeTier_keeps
    | with_reducible apply dropTile_keeps
    | with_reducible apply State.setUse_keeps
    | with_reducible refine Keeps.ite ?_ ?_
    | exact Or.inr (by decide)
    | with_reducible exact Or.inl rfl
    | (show (_ : List Area) ⊆ _; decide)
    | split
    | with_reducible apply Keeps.mk
    | dsimp only
    | exact Or.inl rfl

theorem loseBogsIn_keeps {A_ : List Area} {s_ : State} {t : Tier} {l : Nat} {s : State}
    (ha_ : [.til, .hosts, .flt, .sbd, .out] ⊆ A_) (hs_ : Keeps A_ s_ s) : Keeps A_ s_ (loseBogsIn t l s) := by
  refine Keeps.comp ?_ ha_ hs_
  clear hs_ ha_; unfold loseBogsIn
  try dsimp only
  repeat' first
    | with_reducible exact Keeps.refl _ _
    | with_reducible apply bogLost_keeps
    | with_reducible refine Keeps.ite ?_ ?_
    | exact Or.inr (by decide)
    | with_reducible exact Or.inl rfl
    | (show (_ : List Area) ⊆ _; decide)
    | split
    | with_reducible apply Keeps.mk
    | dsimp only
    | exact Or.inl rfl

theorem forgetPassed_keeps {A_ : List Area} {s_ : State} {t : Tier} {l : Nat} {s : State}
    (ha_ : [.dram] ⊆ A_) (hs_ : Keeps A_ s_ s) : Keeps A_ s_ (forgetPassed t l s) := by
  refine Keeps.comp ?_ ha_ hs_
  clear hs_ ha_; unfold forgetPassed
  try dsimp only
  repeat' first
    | with_reducible exact Keeps.refl _ _
    | exact Or.inr (by decide)
    | with_reducible exact Or.inl rfl
    | (show (_ : List Area) ⊆ _; decide)
    | with_reducible apply Keeps.mk
    | dsimp only
    | exact Or.inl rfl

theorem writeLine_keeps {A_ : List Area} {s_ : State} {kt : Nat} {t : Tier} {l : Nat} {x : Line} {s : State}
    (ha_ : [.til, .dram] ⊆ A_) (hs_ : Keeps A_ s_ s) : Keeps A_ s_ (writeLine kt t l x s) := by
  refine Keeps.comp ?_ ha_ hs_
  clear hs_ ha_; unfold writeLine
  try dsimp only
  repeat' first
    | with_reducible exact Keeps.refl _ _
    | with_reducible apply forgetPassed_keeps
    | with_reducible apply markDirty_keeps
    | with_reducible apply State.setPoison_keeps
    | with_reducible apply State.putStored_keeps
    | with_reducible refine Keeps.ite ?_ ?_
    | exact Or.inr (by decide)
    | with_reducible exact Or.inl rfl
    | (show (_ : List Area) ⊆ _; decide)
    | split
    | with_reducible apply Keeps.mk
    | dsimp only
    | exact Or.inl rfl

theorem poisonLine_keeps {A_ : List Area} {s_ : State} {t : Tier} {l : Nat} {s : State}
    (ha_ : [.til, .dram, .hosts, .flt, .sbd, .out] ⊆ A_) (hs_ : Keeps A_ s_ s) : Keeps A_ s_ (poisonLine t l s) := by
  refine Keeps.comp ?_ ha_ hs_
  clear hs_ ha_; unfold poisonLine
  try dsimp only
  repeat' first
    | with_reducible exact Keeps.refl _ _
    | with_reducible apply loseBogsIn_keeps
    | with_reducible apply markDirty_keeps
    | with_reducible apply State.setPoison_keeps
    | (show (_ : List Area) ⊆ _; decide)

theorem copyLine_keeps {A_ : List Area} {s_ : State} {m : Mig} {i : Nat} {s : State}
    (ha_ : [.nid, .serialNo, .til, .dram, .hosts, .flt, .sbd, .out] ⊆ A_) (hs_ : Keeps A_ s_ s) : Keeps A_ s_ (copyLine m i s) := by
  refine Keeps.comp ?_ ha_ hs_
  clear hs_ ha_; unfold copyLine
  try dsimp only
  repeat' first
    | with_reducible exact Keeps.refl _ _
    | with_reducible apply poisonLine_keeps
    | with_reducible apply writeLine_keeps
    | with_reducible apply pushBog_keeps
    | with_reducible apply touch_keeps
    | with_reducible refine Keeps.ite ?_ ?_
    | (show (_ : List Area) ⊆ _; decide)
    | split
    | dsimp only

theorem copyBlock_keeps {A_ : List Area} {s_ : State} {m : Mig} {blk : Nat} {s : State}
    (ha_ : [.nid, .serialNo, .til, .dram, .hosts, .flt, .sbd, .out] ⊆ A_) (hs_ : Keeps A_ s_ s) : Keeps A_ s_ (copyBlock m blk s) := by
  refine Keeps.comp ?_ ha_ hs_
  clear hs_ ha_; unfold copyBlock
  try dsimp only
  repeat' first
    | with_reducible exact Keeps.refl _ _
    | with_reducible apply copyLine_keeps
    | with_reducible refine Keeps.foldl (fun _ _ => ?_) _ ?_
    | (show (_ : List Area) ⊆ _; decide)

theorem copyPass_keeps {A_ : List Area} {s_ : State} {k : Nat} {blks : List Nat} {s : State}
    (ha_ : [.nid, .serialNo, .til, .dram, .hosts, .flt, .sbd, .out] ⊆ A_) (hs_ : Keeps A_ s_ s) : Keeps A_ s_ (copyPass k blks s) := by
  refine Keeps.comp ?_ ha_ hs_
  clear hs_ ha_; unfold copyPass
  try dsimp only
  repeat' first
    | with_reducible exact Keeps.refl _ _
    | with_reducible apply copyBlock_keeps
    | with_reducible apply State.setMig_keeps
    | with_reducible refine Keeps.foldl (fun _ _ => ?_) _ ?_
    | exact Or.inr (by decide)
    | with_reducible exact Or.inl rfl
    | (show (_ : List Area) ⊆ _; decide)
    | with_reducible apply Keeps.mk
    | dsimp only
    | exact Or.inl rfl

theorem firstPass_keeps {A_ : List Area} {s_ : State} {k : Nat} {s : State}
    (ha_ : [.nid, .serialNo, .til, .dram, .hosts, .flt, .sbd, .out] ⊆ A_) (hs_ : Keeps A_ s_ s) : Keeps A_ s_ (firstPass k s) := by
  refine Keeps.comp ?_ ha_ hs_
  clear hs_ ha_; unfold firstPass
  try dsimp only
  repeat' first
    | with_reducible exact Keeps.refl _ _
    | with_reducible apply copyPass_keeps
    | with_reducible apply State.setMig_keeps
    | with_reducible refine Keeps.ite ?_ ?_
    | exact Or.inr (by decide)
    | with_reducible exact Or.inl rfl
    | (show (_ : List Area) ⊆ _; decide)
    | split
    | with_reducible apply Keeps.mk
    | dsimp only
    | exact Or.inl rfl

theorem startParked_keeps {A_ : List Area} {s_ : State} {s : State}
    (ha_ : [.nid, .serialNo, .til, .dram, .hosts, .flt, .sbd, .out] ⊆ A_) (hs_ : Keeps A_ s_ s) : Keeps A_ s_ (startParked s) := by
  refine Keeps.comp ?_ ha_ hs_
  clear hs_ ha_; unfold startParked
  try dsimp only
  repeat' first
    | with_reducible exact Keeps.refl _ _
    | with_reducible apply firstPass_keeps
    | with_reducible refine Keeps.foldl (fun _ _ => ?_) _ ?_
    | with_reducible refine Keeps.ite ?_ ?_
    | (show (_ : List Area) ⊆ _; decide)
    | split
    | dsimp only

theorem startMig_keeps {A_ : List Area} {s_ : State} {k : Nat} {tenant : Nat} {tile : Nat} {srcTier : Tier} {src : Nat} {dstTier : Tier} {dst : Nat} {retire : Bool} {cmd : Option (QId × BitVec 16)} {s : State}
    (ha_ : [.insts, .nid, .parts, .serialNo, .til, .dram, .hosts, .flt, .sbd, .out] ⊆ A_) (hs_ : Keeps A_ s_ s) : Keeps A_ s_ (startMig k tenant tile srcTier src dstTier dst retire cmd s) := by
  refine Keeps.comp ?_ ha_ hs_
  clear hs_ ha_; unfold startMig
  try dsimp only
  repeat' first
    | with_reducible exact Keeps.refl _ _
    | with_reducible apply firstPass_keeps
    | with_reducible apply mapBoth_keeps
    | with_reducible apply takeTile_keeps
    | with_reducible apply State.setMig_keeps
    | exact Or.inr (by decide)
    | with_reducible exact Or.inl rfl
    | (show (_ : List Area) ⊆ _; decide)
    | with_reducible apply Keeps.mk
    | dsimp only
    | exact Or.inl rfl

theorem bogTile_keeps {A_ : List Area} {s_ : State} {t : Tier} {p : Nat} {s : State}
    (ha_ : [.insts, .nid, .parts, .serialNo, .til, .dram, .hosts, .flt, .sbd, .out] ⊆ A_) (hs_ : Keeps A_ s_ s) : Keeps A_ s_ (bogTile t p s) := by
  refine Keeps.comp ?_ ha_ hs_
  clear hs_ ha_; unfold bogTile
  try dsimp only
  repeat' first
    | with_reducible exact Keeps.refl _ _
    | with_reducible apply startMig_keeps
    | with_reducible apply dropUse_keeps
    | with_reducible apply recordFault_keeps
    | with_reducible refine Keeps.ite ?_ ?_
    | exact Or.inr (by decide)
    | with_reducible exact Or.inl rfl
    | (show (_ : List Area) ⊆ _; decide)
    | split
    | with_reducible apply Keeps.mk
    | dsimp only
    | exact Or.inl rfl

theorem logBogged_keeps {A_ : List Area} {s_ : State} {t : Tier} {p : Nat} {s : State}
    (ha_ : [.hosts, .flt, .sbd, .out] ⊆ A_) (hs_ : Keeps A_ s_ s) : Keeps A_ s_ (logBogged t p s) := by
  refine Keeps.comp ?_ ha_ hs_
  clear hs_ ha_; unfold logBogged
  try dsimp only
  repeat' first
    | with_reducible exact Keeps.refl _ _
    | with_reducible apply recordFault_keeps
    | (show (_ : List Area) ⊆ _; decide)
    | split
    | dsimp only

theorem retryBogs_keeps {A_ : List Area} {s_ : State} {s : State}
    (ha_ : [.insts, .nid, .parts, .serialNo, .til, .dram, .hosts, .flt, .sbd, .out] ⊆ A_) (hs_ : Keeps A_ s_ s) : Keeps A_ s_ (retryBogs s) := by
  refine Keeps.comp ?_ ha_ hs_
  clear hs_ ha_; unfold retryBogs
  try dsimp only
  repeat' first
    | with_reducible exact Keeps.refl _ _
    | with_reducible apply bogTile_keeps
    | with_reducible refine Keeps.foldl (fun _ _ => ?_) _ ?_
    | (show (_ : List Area) ⊆ _; decide)
    | split
    | dsimp only

theorem addBog_keeps {A_ : List Area} {s_ : State} {t : Tier} {l : Nat} {source : Nat} {s : State}
    (ha_ : [.insts, .nid, .parts, .serialNo, .til, .dram, .hosts, .flt, .sbd, .out] ⊆ A_) (hs_ : Keeps A_ s_ s) : Keeps A_ s_ (addBog t l source s) := by
  refine Keeps.comp ?_ ha_ hs_
  clear hs_ ha_; unfold addBog
  try dsimp only
  repeat' first
    | with_reducible exact Keeps.refl _ _
    | with_reducible apply logBogged_keeps
    | with_reducible apply bogTile_keeps
    | with_reducible apply pushBog_keeps
    | with_reducible refine Keeps.ite ?_ ?_
    | (show (_ : List Area) ⊆ _; decide)
    | split
    | dsimp only

theorem newPoison_keeps {A_ : List Area} {s_ : State} {t : Tier} {l : Nat} {source : Nat} {s : State}
    (ha_ : [.insts, .nid, .parts, .serialNo, .til, .dram, .hosts, .flt, .sbd, .out] ⊆ A_) (hs_ : Keeps A_ s_ s) : Keeps A_ s_ (newPoison t l source s) := by
  refine Keeps.comp ?_ ha_ hs_
  clear hs_ ha_; unfold newPoison
  try dsimp only
  repeat' first
    | with_reducible exact Keeps.refl _ _
    | with_reducible apply addBog_keeps
    | with_reducible apply poisonLine_keeps
    | with_reducible apply recordFault_keeps
    | exact Or.inr (by decide)
    | with_reducible exact Or.inl rfl
    | (show (_ : List Area) ⊆ _; decide)
    | split
    | with_reducible apply Keeps.mk
    | dsimp only
    | exact Or.inl rfl

theorem poisonWrite_keeps {A_ : List Area} {s_ : State} {t : Tier} {l : Nat} {s : State}
    (ha_ : [.insts, .nid, .parts, .serialNo, .til, .dram, .hosts, .flt, .sbd, .out] ⊆ A_) (hs_ : Keeps A_ s_ s) : Keeps A_ s_ (poisonWrite t l s) := by
  refine Keeps.comp ?_ ha_ hs_
  clear hs_ ha_; unfold poisonWrite
  try dsimp only
  repeat' first
    | with_reducible exact Keeps.refl _ _
    | with_reducible apply newPoison_keeps
    | with_reducible apply markDirty_keeps
    | with_reducible refine Keeps.ite ?_ ?_
    | (show (_ : List Area) ⊆ _; decide)
    | split
    | dsimp only

theorem suspectCheck_keeps {A_ : List Area} {s_ : State} {t : Tier} {ch : Nat} {s : State}
    (ha_ : [.dram, .hosts, .flt, .sbd, .out] ⊆ A_) (hs_ : Keeps A_ s_ s) : Keeps A_ s_ (suspectCheck t ch s) := by
  refine Keeps.comp ?_ ha_ hs_
  clear hs_ ha_; unfold suspectCheck
  try dsimp only
  repeat' first
    | with_reducible exact Keeps.refl _ _
    | with_reducible apply recordFault_keeps
    | with_reducible apply State.setTier_keeps
    | with_reducible apply State.setChan_keeps
    | with_reducible refine Keeps.ite ?_ ?_
    | exact Or.inr (by decide)
    | with_reducible exact Or.inl rfl
    | (show (_ : List Area) ⊆ _; decide)
    | split
    | with_reducible apply Keeps.mk
    | dsimp only
    | exact Or.inl rfl

theorem countCe_keeps {A_ : List Area} {s_ : State} {t : Tier} {ch : Nat} {dev : Bool} {s : State}
    (ha_ : [.dram, .hosts, .flt, .sbd, .out] ⊆ A_) (hs_ : Keeps A_ s_ s) : Keeps A_ s_ (countCe t ch dev s) := by
  refine Keeps.comp ?_ ha_ hs_
  clear hs_ ha_; unfold countCe
  try dsimp only
  repeat' first
    | with_reducible exact Keeps.refl _ _
    | with_reducible apply suspectCheck_keeps
    | with_reducible apply State.setChan_keeps
    | with_reducible refine Keeps.ite ?_ ?_
    | exact Or.inr (by decide)
    | with_reducible exact Or.inl rfl
    | (show (_ : List Area) ⊆ _; decide)
    | split
    | with_reducible apply Keeps.mk
    | dsimp only
    | exact Or.inl rfl

theorem readCodeword_keeps {A_ : List Area} {s_ : State} {t : Tier} {l : Nat} {source : Nat} {e : EccErr} {s : State}
    (ha_ : [.insts, .nid, .parts, .serialNo, .til, .dram, .hosts, .flt, .sbd, .out] ⊆ A_) (hs_ : Keeps A_ s_ s) : Keeps A_ s_ (readCodeword t l source e s).2 := by
  refine Keeps.comp ?_ ha_ hs_
  clear hs_ ha_; unfold readCodeword
  try dsimp only
  repeat' first
    | with_reducible exact Keeps.refl _ _
    | with_reducible apply countCe_keeps
    | with_reducible apply newPoison_keeps
    | with_reducible apply State.setPoison_keeps
    | with_reducible apply State.putStored_keeps
    | with_reducible apply State.setChan_keeps
    | with_reducible refine Keeps.ite ?_ ?_
    | exact Or.inr (by decide)
    | with_reducible exact Or.inl rfl
    | (show (_ : List Area) ⊆ _; decide)
    | split
    | with_reducible apply Keeps.mk
    | dsimp only
    | exact Or.inl rfl

theorem writeNow_keeps {A_ : List Area} {s_ t_ : State} {kt : Nat} {t : Tier} {l : Nat} {off : Nat} {d : List Byte} {s : State} (h_ : writeNow kt t l off d s = some t_)
    (ha_ : [.til, .dram] ⊆ A_) (hs_ : Keeps A_ s_ s) : Keeps A_ s_ t_ := by
  refine Keeps.comp ?_ ha_ hs_
  clear hs_ ha_; unfold writeNow at h_
  try dsimp only at h_
  repeat' (split at h_)
  all_goals first | with_reducible exact Keeps.of_none h_ | (with_reducible obtain rfl := Option.some.inj h_) | skip
  repeat' first
    | with_reducible exact Keeps.refl _ _
    | with_reducible apply writeLine_keeps
    | with_reducible refine Keeps.ite ?_ ?_
    | (show (_ : List Area) ⊆ _; decide)
    | split
    | dsimp only

theorem batchStart_keeps {A_ : List Area} {s_ : State} {c : Nat} {s : State}
    (ha_ : [.dram] ⊆ A_) (hs_ : Keeps A_ s_ s) : Keeps A_ s_ (batchStart c s) := by
  refine Keeps.comp ?_ ha_ hs_
  clear hs_ ha_; unfold batchStart
  try dsimp only
  repeat' first
    | with_reducible exact Keeps.refl _ _
    | with_reducible apply State.setChan_keeps
    | with_reducible refine Keeps.ite ?_ ?_
    | exact Or.inr (by decide)
    | with_reducible exact Or.inl rfl
    | (show (_ : List Area) ⊆ _; decide)
    | split
    | with_reducible apply Keeps.mk
    | dsimp only
    | exact Or.inl rfl

theorem batchServed_keeps {A_ : List Area} {s_ : State} {c : Nat} {s : State}
    (ha_ : [.dram] ⊆ A_) (hs_ : Keeps A_ s_ s) : Keeps A_ s_ (batchServed c s) := by
  refine Keeps.comp ?_ ha_ hs_
  clear hs_ ha_; unfold batchServed
  try dsimp only
  repeat' first
    | with_reducible exact Keeps.refl _ _
    | with_reducible apply batchStart_keeps
    | with_reducible apply State.setChan_keeps
    | with_reducible refine Keeps.ite ?_ ?_
    | exact Or.inr (by decide)
    | with_reducible exact Or.inl rfl
    | (show (_ : List Area) ⊆ _; decide)
    | split
    | with_reducible apply Keeps.mk
    | dsimp only
    | exact Or.inl rfl

theorem queueOp_keeps {A_ : List Area} {s_ : State} {o : MemOp} {s : State}
    (ha_ : [.dram] ⊆ A_) (hs_ : Keeps A_ s_ s) : Keeps A_ s_ (queueOp o s) := by
  refine Keeps.comp ?_ ha_ hs_
  clear hs_ ha_; unfold queueOp
  try dsimp only
  repeat' first
    | with_reducible exact Keeps.refl _ _
    | with_reducible apply batchStart_keeps
    | exact Or.inr (by decide)
    | with_reducible exact Or.inl rfl
    | (show (_ : List Area) ⊆ _; decide)
    | with_reducible apply Keeps.mk
    | dsimp only
    | exact Or.inl rfl

theorem serveOp_keeps {A_ : List Area} {s_ : State} {o : MemOp} {s : State}
    (ha_ : [.dram] ⊆ A_) (hs_ : Keeps A_ s_ s) : Keeps A_ s_ (serveOp o s) := by
  refine Keeps.comp ?_ ha_ hs_
  clear hs_ ha_; unfold serveOp
  try dsimp only
  repeat' first
    | with_reducible exact Keeps.refl _ _
    | with_reducible apply batchServed_keeps
    | with_reducible apply batchStart_keeps
    | with_reducible apply touch_keeps
    | with_reducible refine Keeps.ite ?_ ?_
    | exact Or.inr (by decide)
    | with_reducible exact Or.inl rfl
    | (show (_ : List Area) ⊆ _; decide)
    | split
    | with_reducible apply Keeps.mk
    | dsimp only
    | exact Or.inl rfl

end Sys2Proof.Machine
end

