-- ==== Sys2Proof/Laws/Frame/Requests.lean ====
section
/-! SUPPORT. The frame of every operation of Machine/Requests.lean: the areas it may change, and that pool memory keeps its canonical form. -/

namespace Sys2Proof.Machine

set_option linter.unusedTactic false
set_option linter.unreachableTactic false
set_option linter.unusedVariables false

theorem enqueue_keeps {A_ : List Area} {s_ : State} {p : Nat} {it : TxItem} {s : State}
    (ha_ : [.ports] ⊆ A_) (hs_ : Keeps A_ s_ s) : Keeps A_ s_ (enqueue p it s) := by
  refine Keeps.comp ?_ ha_ hs_
  clear hs_ ha_; unfold enqueue
  try dsimp only
  repeat' first
    | with_reducible exact Keeps.refl _ _
    | with_reducible apply State.setPort_keeps
    | exact Or.inr (by decide)
    | with_reducible exact Or.inl rfl
    | (show (_ : List Area) ⊆ _; decide)
    | with_reducible apply Keeps.mk
    | dsimp only
    | exact Or.inl rfl

theorem rawAnswer_keeps {A_ : List Area} {s_ : State} {p : Nat} {m : Msg} {st : Status} {count : Nat} {s : State}
    (ha_ : [.ports] ⊆ A_) (hs_ : Keeps A_ s_ s) : Keeps A_ s_ (rawAnswer p m st count s) := by
  refine Keeps.comp ?_ ha_ hs_
  clear hs_ ha_; unfold rawAnswer
  try dsimp only
  repeat' first
    | with_reducible exact Keeps.refl _ _
    | with_reducible apply enqueue_keeps
    | with_reducible refine Keeps.ite ?_ ?_
    | exact Or.inr (by decide)
    | with_reducible exact Or.inl rfl
    | (show (_ : List Area) ⊆ _; decide)
    | split
    | with_reducible apply Keeps.mk
    | dsimp only
    | exact Or.inl rfl

theorem taggedAnswer_keeps {A_ : List Area} {s_ : State} {p : Nat} {m : Msg} {st : Status} {tags : List (Nat × BitVec 16)} {s : State}
    (ha_ : [.ports] ⊆ A_) (hs_ : Keeps A_ s_ s) : Keeps A_ s_ (taggedAnswer p m st tags s) := by
  refine Keeps.comp ?_ ha_ hs_
  clear hs_ ha_; unfold taggedAnswer
  try dsimp only
  repeat' first
    | with_reducible exact Keeps.refl _ _
    | with_reducible apply enqueue_keeps
    | with_reducible refine Keeps.ite ?_ ?_
    | exact Or.inr (by decide)
    | with_reducible exact Or.inl rfl
    | (show (_ : List Area) ⊆ _; decide)
    | split
    | with_reducible apply Keeps.mk
    | dsimp only
    | exact Or.inl rfl

theorem forcedAnswer_keeps {A_ : List Area} {s_ : State} {p : Nat} {m : Msg} {st : Status} {count : Nat} {tags : List (Nat × BitVec 16)} {s : State}
    (ha_ : [.ports] ⊆ A_) (hs_ : Keeps A_ s_ s) : Keeps A_ s_ (forcedAnswer p m st count tags s) := by
  refine Keeps.comp ?_ ha_ hs_
  clear hs_ ha_; unfold forcedAnswer
  try dsimp only
  repeat' first
    | with_reducible exact Keeps.refl _ _
    | with_reducible apply enqueue_keeps
    | with_reducible refine Keeps.ite ?_ ?_
    | exact Or.inr (by decide)
    | with_reducible exact Or.inl rfl
    | (show (_ : List Area) ⊆ _; decide)
    | split
    | with_reducible apply Keeps.mk
    | dsimp only
    | exact Or.inl rfl

theorem State.setReq_keeps {A_ : List Area} {s_ : State} {s : State} {r : OReq}
    (ha_ : [.reqs] ⊆ A_) (hs_ : Keeps A_ s_ s) : Keeps A_ s_ (State.setReq s r) := by
  refine Keeps.comp ?_ ha_ hs_
  clear hs_ ha_; unfold State.setReq
  try dsimp only
  repeat' first
    | with_reducible exact Keeps.refl _ _
    | with_reducible refine Keeps.ite ?_ ?_
    | exact Or.inr (by decide)
    | with_reducible exact Or.inl rfl
    | (show (_ : List Area) ⊆ _; decide)
    | split
    | with_reducible apply Keeps.mk
    | dsimp only
    | exact Or.inl rfl

theorem State.dropReq_keeps {A_ : List Area} {s_ : State} {s : State} {id : Nat}
    (ha_ : [.reqs] ⊆ A_) (hs_ : Keeps A_ s_ s) : Keeps A_ s_ (State.dropReq s id) := by
  refine Keeps.comp ?_ ha_ hs_
  clear hs_ ha_; unfold State.dropReq
  try dsimp only
  repeat' first
    | with_reducible exact Keeps.refl _ _
    | exact Or.inr (by decide)
    | with_reducible exact Or.inl rfl
    | (show (_ : List Area) ⊆ _; decide)
    | with_reducible apply Keeps.mk
    | dsimp only
    | exact Or.inl rfl

theorem answerRepeat_keeps {A_ : List Area} {s_ : State} {p : Fin 32} {rm : Msg} {st : Status} {count : Nat} {result : List Byte} {tags : List (Nat × BitVec 16)} {s : State}
    (ha_ : [.ports] ⊆ A_) (hs_ : Keeps A_ s_ s) : Keeps A_ s_ (answerRepeat p rm st count result tags s) := by
  refine Keeps.comp ?_ ha_ hs_
  clear hs_ ha_; unfold answerRepeat
  try dsimp only
  repeat' first
    | with_reducible exact Keeps.refl _ _
    | with_reducible apply enqueue_keeps
    | with_reducible refine Keeps.ite ?_ ?_
    | exact Or.inr (by decide)
    | with_reducible exact Or.inl rfl
    | (show (_ : List Area) ⊆ _; decide)
    | split
    | with_reducible apply Keeps.mk
    | dsimp only
    | exact Or.inl rfl

theorem recDone_keeps {A_ : List Area} {s_ : State} {m : Msg} {st : Status} {count : Nat} {result : List Byte} {s : State}
    (ha_ : [.streams, .ports] ⊆ A_) (hs_ : Keeps A_ s_ s) : Keeps A_ s_ (recDone m st count result s) := by
  refine Keeps.comp ?_ ha_ hs_
  clear hs_ ha_; unfold recDone
  try dsimp only
  repeat' first
    | with_reducible exact Keeps.refl _ _
    | with_reducible apply answerRepeat_keeps
    | with_reducible apply State.setStream_keeps
    | with_reducible refine Keeps.foldl (fun _ _ => ?_) _ ?_
    | with_reducible refine Keeps.ite ?_ ?_
    | exact Or.inr (by decide)
    | with_reducible exact Or.inl rfl
    | (show (_ : List Area) ⊆ _; decide)
    | split
    | with_reducible apply Keeps.mk
    | dsimp only
    | exact Or.inl rfl

theorem respond_keeps {A_ : List Area} {s_ : State} {id : Nat} {m : Msg} {last : Bool} {s : State}
    (ha_ : [.reqs, .ports] ⊆ A_) (hs_ : Keeps A_ s_ s) : Keeps A_ s_ (respond id m last s) := by
  refine Keeps.comp ?_ ha_ hs_
  clear hs_ ha_; unfold respond
  try dsimp only
  repeat' first
    | with_reducible exact Keeps.refl _ _
    | with_reducible apply State.dropReq_keeps
    | with_reducible apply State.setReq_keeps
    | with_reducible apply enqueue_keeps
    | with_reducible refine Keeps.ite ?_ ?_
    | exact Or.inr (by decide)
    | with_reducible exact Or.inl rfl
    | (show (_ : List Area) ⊆ _; decide)
    | split
    | with_reducible apply Keeps.mk
    | dsimp only
    | exact Or.inl rfl

theorem finishReq_keeps {A_ : List Area} {s_ : State} {id : Nat} {st : Status} {count : Nat} {s : State}
    (ha_ : [.streams, .reqs, .ports] ⊆ A_) (hs_ : Keeps A_ s_ s) : Keeps A_ s_ (finishReq id st count s) := by
  refine Keeps.comp ?_ ha_ hs_
  clear hs_ ha_; unfold finishReq
  try dsimp only
  repeat' first
    | with_reducible exact Keeps.refl _ _
    | with_reducible apply respond_keeps
    | with_reducible apply recDone_keeps
    | (show (_ : List Area) ⊆ _; decide)
    | split
    | dsimp only

theorem finishData_keeps {A_ : List Area} {s_ : State} {id : Nat} {op : BitVec 8} {count : Nat} {d : List Byte} {result : List Byte} {s : State}
    (ha_ : [.streams, .reqs, .ports] ⊆ A_) (hs_ : Keeps A_ s_ s) : Keeps A_ s_ (finishData id op count d result s) := by
  refine Keeps.comp ?_ ha_ hs_
  clear hs_ ha_; unfold finishData
  try dsimp only
  repeat' first
    | with_reducible exact Keeps.refl _ _
    | with_reducible apply respond_keeps
    | with_reducible apply recDone_keeps
    | (show (_ : List Area) ⊆ _; decide)
    | split
    | dsimp only

theorem detach_keeps {A_ : List Area} {s_ : State} {id : Nat} {s : State}
    (ha_ : [.dram, .dir] ⊆ A_) (hs_ : Keeps A_ s_ s) : Keeps A_ s_ (detach id s) := by
  refine Keeps.comp ?_ ha_ hs_
  clear hs_ ha_; unfold detach
  try dsimp only
  repeat' first
    | with_reducible exact Keeps.refl _ _
    | with_reducible refine Keeps.ite ?_ ?_
    | exact Or.inr (by decide)
    | with_reducible exact Or.inl rfl
    | (show (_ : List Area) ⊆ _; decide)
    | split
    | with_reducible apply Keeps.mk
    | dsimp only
    | exact Or.inl rfl

theorem unqueue_keeps {A_ : List Area} {s_ : State} {id : Nat} {s : State}
    (ha_ : [.ports] ⊆ A_) (hs_ : Keeps A_ s_ s) : Keeps A_ s_ (unqueue id s) := by
  refine Keeps.comp ?_ ha_ hs_
  clear hs_ ha_; unfold unqueue
  try dsimp only
  repeat' first
    | with_reducible exact Keeps.refl _ _
    | exact Or.inr (by decide)
    | with_reducible exact Or.inl rfl
    | (show (_ : List Area) ⊆ _; decide)
    | with_reducible apply Keeps.mk
    | dsimp only
    | exact Or.inl rfl

theorem endReq_keeps {A_ : List Area} {s_ : State} {id : Nat} {st : Status} {count : Nat} {s : State}
    (ha_ : [.streams, .reqs, .ports, .dram, .dir] ⊆ A_) (hs_ : Keeps A_ s_ s) : Keeps A_ s_ (endReq id st count s) := by
  refine Keeps.comp ?_ ha_ hs_
  clear hs_ ha_; unfold endReq
  try dsimp only
  repeat' first
    | with_reducible exact Keeps.refl _ _
    | with_reducible apply unqueue_keeps
    | with_reducible apply detach_keeps
    | with_reducible apply recDone_keeps
    | with_reducible apply State.dropReq_keeps
    | with_reducible apply forcedAnswer_keeps
    | with_reducible refine Keeps.ite ?_ ?_
    | (show (_ : List Area) ⊆ _; decide)
    | split
    | dsimp only

theorem copyGone_keeps {A_ : List Area} {s_ : State} {it : TxItem} {dropped : Bool} {s : State}
    (ha_ : [.reqs, .xpt, .eng] ⊆ A_) (hs_ : Keeps A_ s_ s) : Keeps A_ s_ (copyGone it dropped s) := by
  refine Keeps.comp ?_ ha_ hs_
  clear hs_ ha_; unfold copyGone
  try dsimp only
  repeat' first
    | with_reducible exact Keeps.refl _ _
    | with_reducible apply State.setReq_keeps
    | with_reducible apply State.setQueue_keeps
    | with_reducible refine Keeps.ite ?_ ?_
    | exact Or.inr (by decide)
    | with_reducible exact Or.inl rfl
    | (show (_ : List Area) ⊆ _; decide)
    | split
    | with_reducible apply Keeps.mk
    | dsimp only
    | exact Or.inl rfl

theorem sendCopy_keeps {A_ : List Area} {s_ : State} {it : TxItem} {p : Nat} {s : State}
    (ha_ : [.reqs, .ports, .xpt, .eng] ⊆ A_) (hs_ : Keeps A_ s_ s) : Keeps A_ s_ (sendCopy it p s) := by
  refine Keeps.comp ?_ ha_ hs_
  clear hs_ ha_; unfold sendCopy
  try dsimp only
  repeat' first
    | with_reducible exact Keeps.refl _ _
    | with_reducible apply copyGone_keeps
    | with_reducible apply enqueue_keeps
    | with_reducible refine Keeps.ite ?_ ?_
    | (show (_ : List Area) ⊆ _; decide)
    | split
    | dsimp only

theorem mcastOut_keeps {A_ : List Area} {s_ : State} {w : List Nat} {except : Option Nat} {m : Msg} {mk : TxItem → TxItem} {s : State}
    (ha_ : [.reqs, .ports, .xpt, .eng] ⊆ A_) (hs_ : Keeps A_ s_ s) : Keeps A_ s_ (mcastOut w except m mk s) := by
  refine Keeps.comp ?_ ha_ hs_
  clear hs_ ha_; unfold mcastOut
  try dsimp only
  repeat' first
    | with_reducible exact Keeps.refl _ _
    | with_reducible apply sendCopy_keeps
    | with_reducible refine Keeps.foldl (fun _ _ => ?_) _ ?_
    | with_reducible refine Keeps.ite ?_ ?_
    | exact Or.inr (by decide)
    | with_reducible exact Or.inl rfl
    | (show (_ : List Area) ⊆ _; decide)
    | split
    | with_reducible apply Keeps.mk
    | dsimp only
    | exact Or.inl rfl

end Sys2Proof.Machine
end

