-- ==== Sys2Proof/Laws/Frame/Links.lean ====
section
/-! SUPPORT. The frame of every operation of Machine/Links.lean: the areas it may change, and that pool memory keeps its canonical form. -/

namespace Sys2Proof.Machine

set_option linter.unusedTactic false
set_option linter.unreachableTactic false
set_option linter.unusedVariables false

theorem wire_keeps {A_ : List Area} {s_ : State} {n : Fin 32} {f : Frame} {s : State}
    (ha_ : [.ports, .out] ⊆ A_) (hs_ : Keeps A_ s_ s) : Keeps A_ s_ (wire n f s) := by
  refine Keeps.comp ?_ ha_ hs_
  clear hs_ ha_; unfold wire
  try dsimp only
  repeat' first
    | with_reducible exact Keeps.refl _ _
    | with_reducible apply State.emit_keeps
    | with_reducible apply State.setPort_keeps
    | with_reducible refine Keeps.ite ?_ ?_
    | exact Or.inr (by decide)
    | with_reducible exact Or.inl rfl
    | (show (_ : List Area) ⊆ _; decide)
    | split
    | with_reducible apply Keeps.mk
    | dsimp only
    | exact Or.inl rfl

theorem spaceIdle_keeps {A_ : List Area} {s_ : State} {n : Fin 32} {s : State}
    (ha_ : [.ports, .out] ⊆ A_) (hs_ : Keeps A_ s_ s) : Keeps A_ s_ (spaceIdle n s) := by
  refine Keeps.comp ?_ ha_ hs_
  clear hs_ ha_; unfold spaceIdle
  try dsimp only
  repeat' first
    | with_reducible exact Keeps.refl _ _
    | with_reducible apply wire_keeps
    | with_reducible refine Keeps.ite ?_ ?_
    | (show (_ : List Area) ⊆ _; decide)
    | split
    | dsimp only

theorem sendIdle_keeps {A_ : List Area} {s_ : State} {n : Fin 32} {crdVc : Nat} {s : State}
    (ha_ : [.ports, .out] ⊆ A_) (hs_ : Keeps A_ s_ s) : Keeps A_ s_ (sendIdle n crdVc s) := by
  refine Keeps.comp ?_ ha_ hs_
  clear hs_ ha_; unfold sendIdle
  try dsimp only
  repeat' first
    | with_reducible exact Keeps.refl _ _
    | with_reducible apply wire_keeps
    | (show (_ : List Area) ⊆ _; decide)

theorem sendReplayReq_keeps {A_ : List Area} {s_ : State} {n : Fin 32} {s : State}
    (ha_ : [.ports, .out] ⊆ A_) (hs_ : Keeps A_ s_ s) : Keeps A_ s_ (sendReplayReq n s) := by
  refine Keeps.comp ?_ ha_ hs_
  clear hs_ ha_; unfold sendReplayReq
  try dsimp only
  repeat' first
    | with_reducible exact Keeps.refl _ _
    | with_reducible apply spaceIdle_keeps
    | with_reducible apply wire_keeps
    | (show (_ : List Area) ⊆ _; decide)

theorem sendLmc_keeps {A_ : List Area} {s_ : State} {n : Fin 32} {bs : List Byte} {s : State}
    (ha_ : [.ports, .out] ⊆ A_) (hs_ : Keeps A_ s_ s) : Keeps A_ s_ (sendLmc n bs s) := by
  refine Keeps.comp ?_ ha_ hs_
  clear hs_ ha_; unfold sendLmc
  try dsimp only
  repeat' first
    | with_reducible exact Keeps.refl _ _
    | with_reducible apply spaceIdle_keeps
    | with_reducible apply wire_keeps
    | with_reducible refine Keeps.ite ?_ ?_
    | (show (_ : List Area) ⊆ _; decide)
    | split
    | dsimp only

theorem portEv_keeps {A_ : List Area} {s_ : State} {n : Nat} {i : Nat} {s : State}
    (ha_ : [.ports] ⊆ A_) (hs_ : Keeps A_ s_ s) : Keeps A_ s_ (portEv n i s) := by
  refine Keeps.comp ?_ ha_ hs_
  clear hs_ ha_; unfold portEv
  try dsimp only
  repeat' first
    | with_reducible exact Keeps.refl _ _
    | with_reducible apply State.setPort_keeps
    | exact Or.inr (by decide)
    | with_reducible exact Or.inl rfl
    | (show (_ : List Area) ⊆ _; decide)
    | with_reducible apply Keeps.mk
    | dsimp only
    | exact Or.inl rfl

theorem beginWalk_keeps {A_ : List Area} {s_ : State} {n : Nat} {st : PortState} {s : State}
    (ha_ : [.ports] ⊆ A_) (hs_ : Keeps A_ s_ s) : Keeps A_ s_ (beginWalk n st s) := by
  refine Keeps.comp ?_ ha_ hs_
  clear hs_ ha_; unfold beginWalk
  try dsimp only
  repeat' first
    | with_reducible exact Keeps.refl _ _
    | with_reducible apply State.setPort_keeps
    | exact Or.inr (by decide)
    | with_reducible exact Or.inl rfl
    | (show (_ : List Area) ⊆ _; decide)
    | with_reducible apply Keeps.mk
    | dsimp only
    | exact Or.inl rfl

theorem toDetect_keeps {A_ : List Area} {s_ : State} {n : Nat} {s : State}
    (ha_ : [.ports] ⊆ A_) (hs_ : Keeps A_ s_ s) : Keeps A_ s_ (toDetect n s) := by
  refine Keeps.comp ?_ ha_ hs_
  clear hs_ ha_; unfold toDetect
  try dsimp only
  repeat' first
    | with_reducible exact Keeps.refl _ _
    | with_reducible apply State.setPort_keeps
    | exact Or.inr (by decide)
    | with_reducible exact Or.inl rfl
    | (show (_ : List Area) ⊆ _; decide)
    | with_reducible apply Keeps.mk
    | dsimp only
    | exact Or.inl rfl

theorem loseReq_keeps {A_ : List Area} {s_ : State} {r : OReq} {s : State}
    (ha_ : [.streams, .reqs, .ports] ⊆ A_) (hs_ : Keeps A_ s_ s) : Keeps A_ s_ (loseReq r s) := by
  refine Keeps.comp ?_ ha_ hs_
  clear hs_ ha_; unfold loseReq
  try dsimp only
  repeat' first
    | with_reducible exact Keeps.refl _ _
    | with_reducible apply recDone_keeps
    | with_reducible apply State.dropReq_keeps
    | with_reducible apply State.setReq_keeps
    | with_reducible refine Keeps.ite ?_ ?_
    | exact Or.inr (by decide)
    | with_reducible exact Or.inl rfl
    | (show (_ : List Area) ⊆ _; decide)
    | split
    | with_reducible apply Keeps.mk
    | dsimp only
    | exact Or.inl rfl

theorem loseOps_keeps {A_ : List Area} {s_ : State} {n : Nat} {s : State}
    (ha_ : [.streams, .reqs, .ports, .hosts, .flt, .sbd, .out] ⊆ A_) (hs_ : Keeps A_ s_ s) : Keeps A_ s_ (loseOps n s) := by
  refine Keeps.comp ?_ ha_ hs_
  clear hs_ ha_; unfold loseOps
  try dsimp only
  repeat' first
    | with_reducible exact Keeps.refl _ _
    | with_reducible apply loseReq_keeps
    | with_reducible apply portEv_keeps
    | with_reducible apply rawAnswer_keeps
    | with_reducible apply recordFault_keeps
    | with_reducible apply State.setPort_keeps
    | with_reducible refine Keeps.foldl (fun _ _ => ?_) _ ?_
    | with_reducible refine Keeps.ite ?_ ?_
    | exact Or.inr (by decide)
    | with_reducible exact Or.inl rfl
    | (show (_ : List Area) ⊆ _; decide)
    | split
    | with_reducible apply Keeps.mk
    | dsimp only
    | exact Or.inl rfl

theorem discardLink_keeps {A_ : List Area} {s_ : State} {n : Nat} {s : State}
    (ha_ : [.streams, .reqs, .ports, .hosts, .flt, .sbd, .out] ⊆ A_) (hs_ : Keeps A_ s_ s) : Keeps A_ s_ (discardLink n s) := by
  refine Keeps.comp ?_ ha_ hs_
  clear hs_ ha_; unfold discardLink
  try dsimp only
  repeat' first
    | with_reducible exact Keeps.refl _ _
    | with_reducible apply loseOps_keeps
    | with_reducible apply State.setPort_keeps
    | exact Or.inr (by decide)
    | with_reducible exact Or.inl rfl
    | (show (_ : List Area) ⊆ _; decide)
    | with_reducible apply Keeps.mk
    | dsimp only
    | exact Or.inl rfl

theorem dropCopies_keeps {A_ : List Area} {s_ : State} {n : Nat} {s : State}
    (ha_ : [.reqs, .ports, .xpt, .eng] ⊆ A_) (hs_ : Keeps A_ s_ s) : Keeps A_ s_ (dropCopies n s) := by
  refine Keeps.comp ?_ ha_ hs_
  clear hs_ ha_; unfold dropCopies
  try dsimp only
  repeat' first
    | with_reducible exact Keeps.refl _ _
    | with_reducible apply copyGone_keeps
    | with_reducible apply State.setPort_keeps
    | with_reducible refine Keeps.foldl (fun _ _ => ?_) _ ?_
    | exact Or.inr (by decide)
    | with_reducible exact Or.inl rfl
    | (show (_ : List Area) ⊆ _; decide)
    | with_reducible apply Keeps.mk
    | dsimp only
    | exact Or.inl rfl

theorem leaveUp_keeps {A_ : List Area} {s_ : State} {n : Fin 32} {cause : Nat} {st : PortState} {s : State}
    (ha_ : [.streams, .reqs, .ports, .xpt, .eng, .hosts, .flt, .sbd, .out] ⊆ A_) (hs_ : Keeps A_ s_ s) : Keeps A_ s_ (leaveUp n cause st s) := by
  refine Keeps.comp ?_ ha_ hs_
  clear hs_ ha_; unfold leaveUp
  try dsimp only
  repeat' first
    | with_reducible exact Keeps.refl _ _
    | with_reducible apply dropCopies_keeps
    | with_reducible apply discardLink_keeps
    | with_reducible apply beginWalk_keeps
    | with_reducible apply portEv_keeps
    | with_reducible apply sendLmc_keeps
    | with_reducible apply State.setPort_keeps
    | with_reducible refine Keeps.ite ?_ ?_
    | exact Or.inr (by decide)
    | with_reducible exact Or.inl rfl
    | (show (_ : List Area) ⊆ _; decide)
    | split
    | with_reducible apply Keeps.mk
    | dsimp only
    | exact Or.inl rfl

theorem enterFailed_keeps {A_ : List Area} {s_ : State} {n : Nat} {s : State}
    (ha_ : [.streams, .reqs, .ports, .xpt, .eng, .hosts, .flt, .sbd, .out] ⊆ A_) (hs_ : Keeps A_ s_ s) : Keeps A_ s_ (enterFailed n s) := by
  refine Keeps.comp ?_ ha_ hs_
  clear hs_ ha_; unfold enterFailed
  try dsimp only
  repeat' first
    | with_reducible exact Keeps.refl _ _
    | with_reducible apply dropCopies_keeps
    | with_reducible apply discardLink_keeps
    | with_reducible apply portEv_keeps
    | with_reducible apply recordFault_keeps
    | with_reducible apply State.setPort_keeps
    | with_reducible refine Keeps.ite ?_ ?_
    | exact Or.inr (by decide)
    | with_reducible exact Or.inl rfl
    | (show (_ : List Area) ⊆ _; decide)
    | split
    | with_reducible apply Keeps.mk
    | dsimp only
    | exact Or.inl rfl

theorem attemptEnds_keeps {A_ : List Area} {s_ : State} {n : Nat} {s : State}
    (ha_ : [.streams, .reqs, .ports, .xpt, .eng, .hosts, .flt, .sbd, .out] ⊆ A_) (hs_ : Keeps A_ s_ s) : Keeps A_ s_ (attemptEnds n s) := by
  refine Keeps.comp ?_ ha_ hs_
  clear hs_ ha_; unfold attemptEnds
  try dsimp only
  repeat' first
    | with_reducible exact Keeps.refl _ _
    | with_reducible apply enterFailed_keeps
    | with_reducible apply State.setPort_keeps
    | exact Or.inr (by decide)
    | with_reducible exact Or.inl rfl
    | (show (_ : List Area) ⊆ _; decide)
    | split
    | with_reducible apply Keeps.mk
    | dsimp only
    | exact Or.inl rfl

theorem startAttempt_keeps {A_ : List Area} {s_ : State} {n : Nat} {s : State}
    (ha_ : [.streams, .reqs, .ports, .xpt, .eng, .hosts, .flt, .sbd, .out] ⊆ A_) (hs_ : Keeps A_ s_ s) : Keeps A_ s_ (startAttempt n s) := by
  refine Keeps.comp ?_ ha_ hs_
  clear hs_ ha_; unfold startAttempt
  try dsimp only
  repeat' first
    | with_reducible exact Keeps.refl _ _
    | with_reducible apply enterFailed_keeps
    | with_reducible apply State.setPort_keeps
    | with_reducible refine Keeps.ite ?_ ?_
    | exact Or.inr (by decide)
    | with_reducible exact Or.inl rfl
    | (show (_ : List Area) ⊆ _; decide)
    | split
    | with_reducible apply Keeps.mk
    | dsimp only
    | exact Or.inl rfl

theorem electOnUp_keeps {A_ : List Area} {s_ : State} {n : Nat} {s : State}
    (ha_ : [.ports] ⊆ A_) (hs_ : Keeps A_ s_ s) : Keeps A_ s_ (electOnUp n s) := by
  refine Keeps.comp ?_ ha_ hs_
  clear hs_ ha_; unfold electOnUp
  try dsimp only
  repeat' first
    | with_reducible exact Keeps.refl _ _
    | with_reducible apply enqueue_keeps
    | with_reducible refine Keeps.ite ?_ ?_
    | (show (_ : List Area) ⊆ _; decide)
    | split
    | dsimp only

theorem freeHeld_keeps {A_ : List Area} {s_ : State} {hs : List Held} {s : State}
    (ha_ : [.reqs] ⊆ A_) (hs_ : Keeps A_ s_ s) : Keeps A_ s_ (freeHeld hs s) := by
  refine Keeps.comp ?_ ha_ hs_
  clear hs_ ha_; unfold freeHeld
  try dsimp only
  repeat' first
    | with_reducible exact Keeps.refl _ _
    | with_reducible apply State.dropReq_keeps
    | with_reducible refine Keeps.foldl (fun _ _ => ?_) _ ?_
    | with_reducible refine Keeps.ite ?_ ?_
    | (show (_ : List Area) ⊆ _; decide)
    | split
    | dsimp only

theorem reachUp_keeps {A_ : List Area} {s_ : State} {n : Nat} {q : Params} {s : State}
    (ha_ : [.streams, .reqs, .ports, .hosts, .flt, .sbd, .out] ⊆ A_) (hs_ : Keeps A_ s_ s) : Keeps A_ s_ (reachUp n q s) := by
  refine Keeps.comp ?_ ha_ hs_
  clear hs_ ha_; unfold reachUp
  try dsimp only
  repeat' first
    | with_reducible exact Keeps.refl _ _
    | with_reducible apply freeHeld_keeps
    | with_reducible apply electOnUp_keeps
    | with_reducible apply loseOps_keeps
    | with_reducible apply State.setPort_keeps
    | with_reducible refine Keeps.ite ?_ ?_
    | exact Or.inr (by decide)
    | with_reducible exact Or.inl rfl
    | (show (_ : List Area) ⊆ _; decide)
    | split
    | with_reducible apply Keeps.mk
    | dsimp only
    | exact Or.inl rfl

theorem applyAck_keeps {A_ : List Area} {s_ t_ : State} {n : Nat} {a : BitVec 12} {s : State} (h_ : applyAck n a s = some t_)
    (ha_ : [.reqs, .ports] ⊆ A_) (hs_ : Keeps A_ s_ s) : Keeps A_ s_ t_ := by
  refine Keeps.comp ?_ ha_ hs_
  clear hs_ ha_; unfold applyAck at h_
  try dsimp only at h_
  repeat' (split at h_)
  all_goals first | with_reducible exact Keeps.of_none h_ | (with_reducible obtain rfl := Option.some.inj h_) | skip
  repeat' first
    | with_reducible exact Keeps.refl _ _
    | with_reducible apply freeHeld_keeps
    | with_reducible apply State.setPort_keeps
    | with_reducible refine Keeps.ite ?_ ?_
    | exact Or.inr (by decide)
    | with_reducible exact Or.inl rfl
    | (show (_ : List Area) ⊆ _; decide)
    | split
    | with_reducible apply Keeps.mk
    | dsimp only
    | exact Or.inl rfl

theorem applyCredit_keeps {A_ : List Area} {s_ : State} {n : Nat} {h : FrameHdr} {s : State}
    (ha_ : [.ports] ⊆ A_) (hs_ : Keeps A_ s_ s) : Keeps A_ s_ (applyCredit n h s) := by
  refine Keeps.comp ?_ ha_ hs_
  clear hs_ ha_; unfold applyCredit
  try dsimp only
  repeat' first
    | with_reducible exact Keeps.refl _ _
    | with_reducible apply State.setPort_keeps
    | exact Or.inr (by decide)
    | with_reducible exact Or.inl rfl
    | (show (_ : List Area) ⊆ _; decide)
    | with_reducible apply Keeps.mk
    | dsimp only
    | exact Or.inl rfl

theorem contribute_keeps {A_ : List Area} {s_ : State} {n : Fin 32} {h : FrameHdr} {s : State}
    (ha_ : [.streams, .reqs, .ports, .xpt, .eng, .hosts, .flt, .sbd, .out] ⊆ A_) (hs_ : Keeps A_ s_ s) : Keeps A_ s_ (contribute n h s) := by
  refine Keeps.comp ?_ ha_ hs_
  clear hs_ ha_; unfold contribute
  try dsimp only
  repeat' first
    | with_reducible exact Keeps.refl _ _
    | with_reducible apply applyCredit_keeps
    | with_reducible refine applyAck_keeps (by assumption) ?_ ?_
    | with_reducible apply leaveUp_keeps
    | with_reducible refine Keeps.ite ?_ ?_
    | (show (_ : List Area) ⊆ _; decide)
    | split
    | dsimp only

theorem badFrame_keeps {A_ : List Area} {s_ : State} {n : Fin 32} {s : State}
    (ha_ : [.ports, .out] ⊆ A_) (hs_ : Keeps A_ s_ s) : Keeps A_ s_ (badFrame n s) := by
  refine Keeps.comp ?_ ha_ hs_
  clear hs_ ha_; unfold badFrame
  try dsimp only
  repeat' first
    | with_reducible exact Keeps.refl _ _
    | with_reducible apply sendReplayReq_keeps
    | with_reducible apply State.setPort_keeps
    | with_reducible refine Keeps.ite ?_ ?_
    | exact Or.inr (by decide)
    | with_reducible exact Or.inl rfl
    | (show (_ : List Area) ⊆ _; decide)
    | split
    | with_reducible apply Keeps.mk
    | dsimp only
    | exact Or.inl rfl

theorem startReplay_keeps {A_ : List Area} {s_ : State} {n : Nat} {ptr : BitVec 12} {s : State}
    (ha_ : [.ports] ⊆ A_) (hs_ : Keeps A_ s_ s) : Keeps A_ s_ (startReplay n ptr s) := by
  refine Keeps.comp ?_ ha_ hs_
  clear hs_ ha_; unfold startReplay
  try dsimp only
  repeat' first
    | with_reducible exact Keeps.refl _ _
    | with_reducible apply State.setPort_keeps
    | with_reducible refine Keeps.ite ?_ ?_
    | exact Or.inr (by decide)
    | with_reducible exact Or.inl rfl
    | (show (_ : List Area) ⊆ _; decide)
    | split
    | with_reducible apply Keeps.mk
    | dsimp only
    | exact Or.inl rfl

theorem rxTake_keeps {A_ : List Area} {s_ : State} {n : Nat} {vc : Nat} {s : State}
    (ha_ : [.ports] ⊆ A_) (hs_ : Keeps A_ s_ s) : Keeps A_ s_ (rxTake n vc s) := by
  refine Keeps.comp ?_ ha_ hs_
  clear hs_ ha_; unfold rxTake
  try dsimp only
  repeat' first
    | with_reducible exact Keeps.refl _ _
    | with_reducible apply State.setPort_keeps
    | exact Or.inr (by decide)
    | with_reducible exact Or.inl rfl
    | (show (_ : List Area) ⊆ _; decide)
    | with_reducible apply Keeps.mk
    | dsimp only
    | exact Or.inl rfl

theorem rxFree_keeps {A_ : List Area} {s_ : State} {n : Nat} {vc : Nat} {s : State}
    (ha_ : [.ports] ⊆ A_) (hs_ : Keeps A_ s_ s) : Keeps A_ s_ (rxFree n vc s) := by
  refine Keeps.comp ?_ ha_ hs_
  clear hs_ ha_; unfold rxFree
  try dsimp only
  repeat' first
    | with_reducible exact Keeps.refl _ _
    | with_reducible apply State.setPort_keeps
    | with_reducible refine Keeps.ite ?_ ?_
    | exact Or.inr (by decide)
    | with_reducible exact Or.inl rfl
    | (show (_ : List Area) ⊆ _; decide)
    | split
    | with_reducible apply Keeps.mk
    | dsimp only
    | exact Or.inl rfl

theorem adminWrite_keeps {A_ : List Area} {s_ s : State} {fn : Fn} {f : State → State} (hf_ : ∀ t, Keeps A_ t (f t))
    (ha_ : [.hosts] ⊆ A_) (hs_ : Keeps A_ s_ s) : Keeps A_ s_ (adminWrite fn f s) := by
  unfold adminWrite
  exact Keeps.ite hs_ (Keeps.ite (Keeps.comp (hf_ _) (List.Subset.refl _) hs_) (Keeps.ite (State.setHost_keeps ha_ hs_) hs_))

theorem whileAlive_keeps {A_ : List Area} {s_ s : State}  {f : State → State} (hf_ : ∀ t, Keeps A_ t (f t))
    (hs_ : Keeps A_ s_ s) : Keeps A_ s_ (whileAlive f s) := by
  unfold whileAlive
  exact Keeps.ite (Keeps.comp (hf_ _) (List.Subset.refl _) hs_) hs_

theorem symbolLock_keeps {A_ : List Area} {s_ : State} {n : Fin 32} {lanes : Byte} {s : State}
    (ha_ : [.ports] ⊆ A_) (hs_ : Keeps A_ s_ s) : Keeps A_ s_ (symbolLock n lanes s) := by
  refine Keeps.comp ?_ ha_ hs_
  clear hs_ ha_; unfold symbolLock
  try dsimp only
  repeat' first
    | with_reducible exact Keeps.refl _ _
    | with_reducible apply State.setPort_keeps
    | with_reducible refine Keeps.ite ?_ ?_
    | exact Or.inr (by decide)
    | with_reducible exact Or.inl rfl
    | (show (_ : List Area) ⊆ _; decide)
    | split
    | with_reducible apply Keeps.mk
    | dsimp only
    | exact Or.inl rfl

theorem admitSome_keeps {A_ : List Area} (k : Nat) : ∀ {s_ s : State}, [.clk, .streams, .reqs, .ports, .xpt, .eng, .hosts, .flt, .sbd, .out] ⊆ A_ → Keeps A_ s_ s → Keeps A_ s_ (admitSome k s) := by
  induction k with
  | zero => intro s_ s _ h; exact h
  | succ k ih =>
    intro s_ s ha h
    unfold admitSome
    refine Keeps.ite ?_ h
    split
    · exact h
    · refine ih ha (startAttempt_keeps (List.Subset.trans (by decide) ha) ?_)
      refine Keeps.comp (B := [.clk, .streams, .reqs, .ports, .xpt, .eng, .hosts, .flt, .sbd, .out]) ?_ ha h
      with_reducible apply Keeps.mk
      all_goals first | exact Keeps.refl _ _ | with_reducible exact Or.inl rfl | exact Or.inr (by decide)

theorem execTrainingAdmit_keeps {A_ : List Area} {s_ t_ : State} {s : State} (h_ : execTrainingAdmit s = .next t_)
    (ha_ : [.clk, .streams, .reqs, .ports, .xpt, .eng, .hosts, .flt, .sbd, .out] ⊆ A_) (hs_ : Keeps A_ s_ s) : Keeps A_ s_ t_ := by
  refine Keeps.comp ?_ ha_ hs_
  clear hs_ ha_; unfold execTrainingAdmit at h_
  try dsimp only at h_
  all_goals first | with_reducible exact Keeps.of_fault h_ | (with_reducible obtain rfl := Host.Outcome.next.inj h_) | skip
  repeat' first
    | with_reducible exact Keeps.refl _ _
    | with_reducible apply admitSome_keeps
    | with_reducible refine whileAlive_keeps (fun _ => ?_) ?_
    | with_reducible refine Keeps.ite ?_ ?_
    | (show (_ : List Area) ⊆ _; decide)
    | split
    | dsimp only

theorem execSymbolLock_keeps {A_ : List Area} {s_ t_ : State} {p : Fin 32} {lanes : Byte} {s : State} (h_ : execSymbolLock p lanes s = .next t_)
    (ha_ : [.ports] ⊆ A_) (hs_ : Keeps A_ s_ s) : Keeps A_ s_ t_ := by
  refine Keeps.comp ?_ ha_ hs_
  clear hs_ ha_; unfold execSymbolLock at h_
  try dsimp only at h_
  all_goals first | with_reducible exact Keeps.of_fault h_ | (with_reducible obtain rfl := Host.Outcome.next.inj h_) | skip
  repeat' first
    | with_reducible exact Keeps.refl _ _
    | with_reducible apply symbolLock_keeps
    | with_reducible refine whileAlive_keeps (fun _ => ?_) ?_
    | (show (_ : List Area) ⊆ _; decide)

theorem attemptSuccess_keeps {A_ : List Area} {s_ : State} {n : Fin 32} {s : State}
    (ha_ : [.streams, .reqs, .ports, .hosts, .flt, .sbd, .out] ⊆ A_) (hs_ : Keeps A_ s_ s) : Keeps A_ s_ (attemptSuccess n s) := by
  refine Keeps.comp ?_ ha_ hs_
  clear hs_ ha_; unfold attemptSuccess
  try dsimp only
  repeat' first
    | with_reducible exact Keeps.refl _ _
    | with_reducible apply reachUp_keeps
    | with_reducible refine Keeps.ite ?_ ?_
    | (show (_ : List Area) ⊆ _; decide)
    | split
    | dsimp only

theorem execAttemptSuccess_keeps {A_ : List Area} {s_ t_ : State} {p : Fin 32} {s : State} (h_ : execAttemptSuccess p s = .next t_)
    (ha_ : [.streams, .reqs, .ports, .hosts, .flt, .sbd, .out] ⊆ A_) (hs_ : Keeps A_ s_ s) : Keeps A_ s_ t_ := by
  refine Keeps.comp ?_ ha_ hs_
  clear hs_ ha_; unfold execAttemptSuccess at h_
  try dsimp only at h_
  all_goals first | with_reducible exact Keeps.of_fault h_ | (with_reducible obtain rfl := Host.Outcome.next.inj h_) | skip
  repeat' first
    | with_reducible exact Keeps.refl _ _
    | with_reducible apply attemptSuccess_keeps
    | with_reducible refine whileAlive_keeps (fun _ => ?_) ?_
    | (show (_ : List Area) ⊆ _; decide)

theorem attemptFail_keeps {A_ : List Area} {s_ : State} {n : Fin 32} {_e : AttemptErr} {s : State}
    (ha_ : [.streams, .reqs, .ports, .xpt, .eng, .hosts, .flt, .sbd, .out] ⊆ A_) (hs_ : Keeps A_ s_ s) : Keeps A_ s_ (attemptFail n _e s) := by
  refine Keeps.comp ?_ ha_ hs_
  clear hs_ ha_; unfold attemptFail
  try dsimp only
  repeat' first
    | with_reducible exact Keeps.refl _ _
    | with_reducible apply attemptEnds_keeps
    | with_reducible apply State.setPort_keeps
    | with_reducible refine Keeps.ite ?_ ?_
    | (show (_ : List Area) ⊆ _; decide)
    | split
    | dsimp only

theorem execAttemptFail_keeps {A_ : List Area} {s_ t_ : State} {p : Fin 32} {e : AttemptErr} {s : State} (h_ : execAttemptFail p e s = .next t_)
    (ha_ : [.streams, .reqs, .ports, .xpt, .eng, .hosts, .flt, .sbd, .out] ⊆ A_) (hs_ : Keeps A_ s_ s) : Keeps A_ s_ t_ := by
  refine Keeps.comp ?_ ha_ hs_
  clear hs_ ha_; unfold execAttemptFail at h_
  try dsimp only at h_
  all_goals first | with_reducible exact Keeps.of_fault h_ | (with_reducible obtain rfl := Host.Outcome.next.inj h_) | skip
  repeat' first
    | with_reducible exact Keeps.refl _ _
    | with_reducible apply attemptFail_keeps
    | with_reducible refine whileAlive_keeps (fun _ => ?_) ?_
    | (show (_ : List Area) ⊆ _; decide)

theorem attemptTimeout_keeps {A_ : List Area} {s_ : State} {n : Fin 32} {a : Byte} {b : Byte} {s : State}
    (ha_ : [.streams, .reqs, .ports, .xpt, .eng, .hosts, .flt, .sbd, .out] ⊆ A_) (hs_ : Keeps A_ s_ s) : Keeps A_ s_ (attemptTimeout n a b s) := by
  refine Keeps.comp ?_ ha_ hs_
  clear hs_ ha_; unfold attemptTimeout
  try dsimp only
  repeat' first
    | with_reducible exact Keeps.refl _ _
    | with_reducible apply attemptEnds_keeps
    | with_reducible apply State.setPort_keeps
    | with_reducible refine Keeps.ite ?_ ?_
    | exact Or.inr (by decide)
    | with_reducible exact Or.inl rfl
    | (show (_ : List Area) ⊆ _; decide)
    | split
    | with_reducible apply Keeps.mk
    | dsimp only
    | exact Or.inl rfl

theorem execAttemptTimeout_keeps {A_ : List Area} {s_ t_ : State} {p : Fin 32} {lockLocal : Byte} {lockPartner : Byte} {s : State} (h_ : execAttemptTimeout p lockLocal lockPartner s = .next t_)
    (ha_ : [.streams, .reqs, .ports, .xpt, .eng, .hosts, .flt, .sbd, .out] ⊆ A_) (hs_ : Keeps A_ s_ s) : Keeps A_ s_ t_ := by
  refine Keeps.comp ?_ ha_ hs_
  clear hs_ ha_; unfold execAttemptTimeout at h_
  try dsimp only at h_
  all_goals first | with_reducible exact Keeps.of_fault h_ | (with_reducible obtain rfl := Host.Outcome.next.inj h_) | skip
  repeat' first
    | with_reducible exact Keeps.refl _ _
    | with_reducible apply attemptTimeout_keeps
    | with_reducible refine whileAlive_keeps (fun _ => ?_) ?_
    | (show (_ : List Area) ⊆ _; decide)

theorem failedRetry_keeps {A_ : List Area} {s_ : State} {n : Fin 32} {s : State}
    (ha_ : [.ports] ⊆ A_) (hs_ : Keeps A_ s_ s) : Keeps A_ s_ (failedRetry n s) := by
  refine Keeps.comp ?_ ha_ hs_
  clear hs_ ha_; unfold failedRetry
  try dsimp only
  repeat' first
    | with_reducible exact Keeps.refl _ _
    | with_reducible apply toDetect_keeps
    | with_reducible apply State.setPort_keeps
    | with_reducible refine Keeps.ite ?_ ?_
    | exact Or.inr (by decide)
    | with_reducible exact Or.inl rfl
    | (show (_ : List Area) ⊆ _; decide)
    | split
    | with_reducible apply Keeps.mk
    | dsimp only
    | exact Or.inl rfl

theorem execFailedRetry_keeps {A_ : List Area} {s_ t_ : State} {p : Fin 32} {s : State} (h_ : execFailedRetry p s = .next t_)
    (ha_ : [.ports] ⊆ A_) (hs_ : Keeps A_ s_ s) : Keeps A_ s_ t_ := by
  refine Keeps.comp ?_ ha_ hs_
  clear hs_ ha_; unfold execFailedRetry at h_
  try dsimp only at h_
  all_goals first | with_reducible exact Keeps.of_fault h_ | (with_reducible obtain rfl := Host.Outcome.next.inj h_) | skip
  repeat' first
    | with_reducible exact Keeps.refl _ _
    | with_reducible apply failedRetry_keeps
    | with_reducible refine whileAlive_keeps (fun _ => ?_) ?_
    | (show (_ : List Area) ⊆ _; decide)

theorem lnkRetrain_keeps {A_ : List Area} {s_ : State} {n : Fin 32} {s : State}
    (ha_ : [.streams, .reqs, .ports, .xpt, .eng, .hosts, .flt, .sbd, .out] ⊆ A_) (hs_ : Keeps A_ s_ s) : Keeps A_ s_ (lnkRetrain n s) := by
  refine Keeps.comp ?_ ha_ hs_
  clear hs_ ha_; unfold lnkRetrain
  try dsimp only
  repeat' first
    | with_reducible exact Keeps.refl _ _
    | with_reducible apply leaveUp_keeps
    | with_reducible apply toDetect_keeps
    | with_reducible apply State.setPort_keeps
    | with_reducible refine Keeps.ite ?_ ?_
    | exact Or.inr (by decide)
    | with_reducible exact Or.inl rfl
    | (show (_ : List Area) ⊆ _; decide)
    | split
    | with_reducible apply Keeps.mk
    | dsimp only
    | exact Or.inl rfl

theorem execLnkRetrain_keeps {A_ : List Area} {s_ t_ : State} {fn : Fn} {p : Fin 32} {s : State} (h_ : execLnkRetrain fn p s = .next t_)
    (ha_ : [.streams, .reqs, .ports, .xpt, .eng, .hosts, .flt, .sbd, .out] ⊆ A_) (hs_ : Keeps A_ s_ s) : Keeps A_ s_ t_ := by
  refine Keeps.comp ?_ ha_ hs_
  clear hs_ ha_; unfold execLnkRetrain at h_
  try dsimp only at h_
  all_goals first | with_reducible exact Keeps.of_fault h_ | (with_reducible obtain rfl := Host.Outcome.next.inj h_) | skip
  repeat' first
    | with_reducible exact Keeps.refl _ _
    | with_reducible apply lnkRetrain_keeps
    | with_reducible refine adminWrite_keeps (fun _ => ?_) ?_ ?_
    | (show (_ : List Area) ⊆ _; decide)

theorem lnkEnable_keeps {A_ : List Area} {s_ : State} {n : Fin 32} {s : State}
    (ha_ : [.ports] ⊆ A_) (hs_ : Keeps A_ s_ s) : Keeps A_ s_ (lnkEnable n s) := by
  refine Keeps.comp ?_ ha_ hs_
  clear hs_ ha_; unfold lnkEnable
  try dsimp only
  repeat' first
    | with_reducible exact Keeps.refl _ _
    | with_reducible apply toDetect_keeps
    | with_reducible refine Keeps.ite ?_ ?_
    | (show (_ : List Area) ⊆ _; decide)
    | split
    | dsimp only

theorem execLnkEnable_keeps {A_ : List Area} {s_ t_ : State} {fn : Fn} {p : Fin 32} {s : State} (h_ : execLnkEnable fn p s = .next t_)
    (ha_ : [.ports, .hosts] ⊆ A_) (hs_ : Keeps A_ s_ s) : Keeps A_ s_ t_ := by
  refine Keeps.comp ?_ ha_ hs_
  clear hs_ ha_; unfold execLnkEnable at h_
  try dsimp only at h_
  all_goals first | with_reducible exact Keeps.of_fault h_ | (with_reducible obtain rfl := Host.Outcome.next.inj h_) | skip
  repeat' first
    | with_reducible exact Keeps.refl _ _
    | with_reducible apply lnkEnable_keeps
    | with_reducible refine adminWrite_keeps (fun _ => ?_) ?_ ?_
    | (show (_ : List Area) ⊆ _; decide)

theorem lnkDisable_keeps {A_ : List Area} {s_ : State} {n : Fin 32} {s : State}
    (ha_ : [.streams, .reqs, .ports, .xpt, .eng, .hosts, .flt, .sbd, .out] ⊆ A_) (hs_ : Keeps A_ s_ s) : Keeps A_ s_ (lnkDisable n s) := by
  refine Keeps.comp ?_ ha_ hs_
  clear hs_ ha_; unfold lnkDisable
  try dsimp only
  repeat' first
    | with_reducible exact Keeps.refl _ _
    | with_reducible apply leaveUp_keeps
    | with_reducible apply dropCopies_keeps
    | with_reducible apply discardLink_keeps
    | with_reducible apply loseOps_keeps
    | with_reducible apply State.setPort_keeps
    | with_reducible refine Keeps.ite ?_ ?_
    | exact Or.inr (by decide)
    | with_reducible exact Or.inl rfl
    | (show (_ : List Area) ⊆ _; decide)
    | split
    | with_reducible apply Keeps.mk
    | dsimp only
    | exact Or.inl rfl

theorem execLnkDisable_keeps {A_ : List Area} {s_ t_ : State} {fn : Fn} {p : Fin 32} {s : State} (h_ : execLnkDisable fn p s = .next t_)
    (ha_ : [.streams, .reqs, .ports, .xpt, .eng, .hosts, .flt, .sbd, .out] ⊆ A_) (hs_ : Keeps A_ s_ s) : Keeps A_ s_ t_ := by
  refine Keeps.comp ?_ ha_ hs_
  clear hs_ ha_; unfold execLnkDisable at h_
  try dsimp only at h_
  all_goals first | with_reducible exact Keeps.of_fault h_ | (with_reducible obtain rfl := Host.Outcome.next.inj h_) | skip
  repeat' first
    | with_reducible exact Keeps.refl _ _
    | with_reducible apply lnkDisable_keeps
    | with_reducible refine adminWrite_keeps (fun _ => ?_) ?_ ?_
    | (show (_ : List Area) ⊆ _; decide)

theorem hsSend_keeps {A_ : List Area} {s_ : State} {n : Fin 32} {ms : List (List Byte)} {s : State}
    (ha_ : [.ports, .out] ⊆ A_) (hs_ : Keeps A_ s_ s) : Keeps A_ s_ (hsSend n ms s) := by
  refine Keeps.comp ?_ ha_ hs_
  clear hs_ ha_; unfold hsSend
  try dsimp only
  repeat' first
    | with_reducible exact Keeps.refl _ _
    | with_reducible apply sendLmc_keeps
    | with_reducible apply State.setPort_keeps
    | with_reducible refine Keeps.foldl (fun _ _ => ?_) _ ?_
    | exact Or.inr (by decide)
    | with_reducible exact Or.inl rfl
    | (show (_ : List Area) ⊆ _; decide)
    | with_reducible apply Keeps.mk
    | dsimp only
    | exact Or.inl rfl

theorem hsFail_keeps {A_ : List Area} {s_ : State} {n : Fin 32} {cause : Nat} {s : State}
    (ha_ : [.streams, .reqs, .ports, .xpt, .eng, .sec, .hosts, .flt, .sbd, .out] ⊆ A_) (hs_ : Keeps A_ s_ s) : Keeps A_ s_ (hsFail n cause s) := by
  refine Keeps.comp ?_ ha_ hs_
  clear hs_ ha_; unfold hsFail
  try dsimp only
  repeat' first
    | with_reducible exact Keeps.refl _ _
    | with_reducible apply attemptEnds_keeps
    | with_reducible apply enterFailed_keeps
    | with_reducible apply sendLmc_keeps
    | with_reducible apply recordFault_keeps
    | with_reducible apply State.setSecPort_keeps
    | with_reducible apply State.setPort_keeps
    | with_reducible refine Keeps.ite ?_ ?_
    | exact Or.inr (by decide)
    | with_reducible exact Or.inl rfl
    | (show (_ : List Area) ⊆ _; decide)
    | split
    | with_reducible apply Keeps.mk
    | dsimp only
    | exact Or.inl rfl

theorem startHandshake_keeps {A_ : List Area} {s_ : State} {n : Fin 32} {s : State}
    (ha_ : [.streams, .reqs, .serialNo, .ports, .xpt, .eng, .sec, .hosts, .flt, .sbd, .out] ⊆ A_) (hs_ : Keeps A_ s_ s) : Keeps A_ s_ (startHandshake n s) := by
  refine Keeps.comp ?_ ha_ hs_
  clear hs_ ha_; unfold startHandshake
  try dsimp only
  repeat' first
    | with_reducible exact Keeps.refl _ _
    | with_reducible apply hsFail_keeps
    | with_reducible apply hsSend_keeps
    | with_reducible apply State.setPort_keeps
    | with_reducible refine Keeps.ite ?_ ?_
    | exact Or.inr (by decide)
    | with_reducible exact Or.inl rfl
    | (show (_ : List Area) ⊆ _; decide)
    | split
    | with_reducible apply Keeps.mk
    | dsimp only
    | exact Or.inl rfl

theorem params_keeps {A_ : List Area} {s_ : State} {n : Fin 32} {q : Params} {s : State}
    (ha_ : [.streams, .reqs, .serialNo, .ports, .xpt, .eng, .sec, .hosts, .flt, .sbd, .out] ⊆ A_) (hs_ : Keeps A_ s_ s) : Keeps A_ s_ (params n q s) := by
  refine Keeps.comp ?_ ha_ hs_
  clear hs_ ha_; unfold params
  try dsimp only
  repeat' first
    | with_reducible exact Keeps.refl _ _
    | with_reducible apply startHandshake_keeps
    | with_reducible apply attemptEnds_keeps
    | with_reducible apply enterFailed_keeps
    | with_reducible apply sendLmc_keeps
    | with_reducible apply State.setPort_keeps
    | with_reducible refine Keeps.ite ?_ ?_
    | exact Or.inr (by decide)
    | with_reducible exact Or.inl rfl
    | (show (_ : List Area) ⊆ _; decide)
    | split
    | with_reducible apply Keeps.mk
    | dsimp only
    | exact Or.inl rfl

theorem execParams_keeps {A_ : List Area} {s_ t_ : State} {p : Fin 32} {q : Params} {s : State} (h_ : execParams p q s = .next t_)
    (ha_ : [.streams, .reqs, .serialNo, .ports, .xpt, .eng, .sec, .hosts, .flt, .sbd, .out] ⊆ A_) (hs_ : Keeps A_ s_ s) : Keeps A_ s_ t_ := by
  refine Keeps.comp ?_ ha_ hs_
  clear hs_ ha_; unfold execParams at h_
  try dsimp only at h_
  all_goals first | with_reducible exact Keeps.of_fault h_ | (with_reducible obtain rfl := Host.Outcome.next.inj h_) | skip
  repeat' first
    | with_reducible exact Keeps.refl _ _
    | with_reducible apply params_keeps
    | with_reducible refine whileAlive_keeps (fun _ => ?_) ?_
    | (show (_ : List Area) ⊆ _; decide)

theorem paramsAck_keeps {A_ : List Area} {s_ : State} {n : Fin 32} {s : State}
    (ha_ : [.streams, .reqs, .serialNo, .ports, .xpt, .eng, .sec, .hosts, .flt, .sbd, .out] ⊆ A_) (hs_ : Keeps A_ s_ s) : Keeps A_ s_ (paramsAck n s) := by
  refine Keeps.comp ?_ ha_ hs_
  clear hs_ ha_; unfold paramsAck
  try dsimp only
  repeat' first
    | with_reducible exact Keeps.refl _ _
    | with_reducible apply startHandshake_keeps
    | with_reducible apply State.setPort_keeps
    | with_reducible refine Keeps.ite ?_ ?_
    | exact Or.inr (by decide)
    | with_reducible exact Or.inl rfl
    | (show (_ : List Area) ⊆ _; decide)
    | split
    | with_reducible apply Keeps.mk
    | dsimp only
    | exact Or.inl rfl

theorem execParamsAck_keeps {A_ : List Area} {s_ t_ : State} {p : Fin 32} {s : State} (h_ : execParamsAck p s = .next t_)
    (ha_ : [.streams, .reqs, .serialNo, .ports, .xpt, .eng, .sec, .hosts, .flt, .sbd, .out] ⊆ A_) (hs_ : Keeps A_ s_ s) : Keeps A_ s_ t_ := by
  refine Keeps.comp ?_ ha_ hs_
  clear hs_ ha_; unfold execParamsAck at h_
  try dsimp only at h_
  all_goals first | with_reducible exact Keeps.of_fault h_ | (with_reducible obtain rfl := Host.Outcome.next.inj h_) | skip
  repeat' first
    | with_reducible exact Keeps.refl _ _
    | with_reducible apply paramsAck_keeps
    | with_reducible refine whileAlive_keeps (fun _ => ?_) ?_
    | (show (_ : List Area) ⊆ _; decide)

theorem paramsResend_keeps {A_ : List Area} {s_ : State} {n : Fin 32} {s : State}
    (ha_ : [.ports, .out] ⊆ A_) (hs_ : Keeps A_ s_ s) : Keeps A_ s_ (paramsResend n s) := by
  refine Keeps.comp ?_ ha_ hs_
  clear hs_ ha_; unfold paramsResend
  try dsimp only
  repeat' first
    | with_reducible exact Keeps.refl _ _
    | with_reducible apply sendLmc_keeps
    | with_reducible refine Keeps.ite ?_ ?_
    | (show (_ : List Area) ⊆ _; decide)
    | split
    | dsimp only

theorem execParamsResend_keeps {A_ : List Area} {s_ t_ : State} {p : Fin 32} {s : State} (h_ : execParamsResend p s = .next t_)
    (ha_ : [.ports, .out] ⊆ A_) (hs_ : Keeps A_ s_ s) : Keeps A_ s_ t_ := by
  refine Keeps.comp ?_ ha_ hs_
  clear hs_ ha_; unfold execParamsResend at h_
  try dsimp only at h_
  all_goals first | with_reducible exact Keeps.of_fault h_ | (with_reducible obtain rfl := Host.Outcome.next.inj h_) | skip
  repeat' first
    | with_reducible exact Keeps.refl _ _
    | with_reducible apply paramsResend_keeps
    | with_reducible refine whileAlive_keeps (fun _ => ?_) ?_
    | (show (_ : List Area) ⊆ _; decide)

theorem rxAccept_keeps {A_ : List Area} {s_ : State} {n : Fin 32} {f : Frame} {payload : List Byte} {s : State}
    (ha_ : [.ports] ⊆ A_) (hs_ : Keeps A_ s_ s) : Keeps A_ s_ (rxAccept n f payload s) := by
  refine Keeps.comp ?_ ha_ hs_
  clear hs_ ha_; unfold rxAccept
  try dsimp only
  repeat' first
    | with_reducible exact Keeps.refl _ _
    | with_reducible apply rxFree_keeps
    | with_reducible apply rxTake_keeps
    | with_reducible apply State.setPort_keeps
    | with_reducible refine Keeps.ite ?_ ?_
    | exact Or.inr (by decide)
    | with_reducible exact Or.inl rfl
    | (show (_ : List Area) ⊆ _; decide)
    | split
    | with_reducible apply Keeps.mk
    | dsimp only
    | exact Or.inl rfl

theorem rxData_keeps {A_ : List Area} {s_ : State} {n : Fin 32} {f : Frame} {s : State}
    (ha_ : [.streams, .reqs, .ports, .xpt, .eng, .hosts, .flt, .sbd, .out] ⊆ A_) (hs_ : Keeps A_ s_ s) : Keeps A_ s_ (rxData n f s) := by
  refine Keeps.comp ?_ ha_ hs_
  clear hs_ ha_; unfold rxData
  try dsimp only
  repeat' first
    | with_reducible exact Keeps.refl _ _
    | with_reducible apply rxAccept_keeps
    | with_reducible apply badFrame_keeps
    | with_reducible apply contribute_keeps
    | with_reducible apply leaveUp_keeps
    | with_reducible apply sendReplayReq_keeps
    | with_reducible apply sendIdle_keeps
    | with_reducible apply State.setPort_keeps
    | with_reducible refine Keeps.ite ?_ ?_
    | exact Or.inr (by decide)
    | with_reducible exact Or.inl rfl
    | (show (_ : List Area) ⊆ _; decide)
    | split
    | with_reducible apply Keeps.mk
    | dsimp only
    | exact Or.inl rfl

theorem execData_keeps {A_ : List Area} {s_ t_ : State} {p : Fin 32} {f : Frame} {alternates : Bool} {s : State} (h_ : execData p f alternates s = .next t_)
    (ha_ : [.streams, .reqs, .ports, .xpt, .eng, .hosts, .flt, .sbd, .out] ⊆ A_) (hs_ : Keeps A_ s_ s) : Keeps A_ s_ t_ := by
  refine Keeps.comp ?_ ha_ hs_
  clear hs_ ha_; unfold execData at h_
  try dsimp only at h_
  all_goals first | with_reducible exact Keeps.of_fault h_ | (with_reducible obtain rfl := Host.Outcome.next.inj h_) | skip
  repeat' first
    | with_reducible exact Keeps.refl _ _
    | with_reducible apply rxData_keeps
    | with_reducible refine whileAlive_keeps (fun _ => ?_) ?_
    | (show (_ : List Area) ⊆ _; decide)

theorem rxLean_keeps {A_ : List Area} {s_ : State} {n : Fin 32} {f : Frame} {lockLost : Bool} {parity : Bool} {s : State}
    (ha_ : [.streams, .reqs, .ports, .xpt, .eng, .hosts, .flt, .sbd, .out] ⊆ A_) (hs_ : Keeps A_ s_ s) : Keeps A_ s_ (rxLean n f lockLost parity s) := by
  refine Keeps.comp ?_ ha_ hs_
  clear hs_ ha_; unfold rxLean
  try dsimp only
  repeat' first
    | with_reducible exact Keeps.refl _ _
    | with_reducible apply rxAccept_keeps
    | with_reducible apply applyCredit_keeps
    | with_reducible apply leaveUp_keeps
    | with_reducible refine Keeps.ite ?_ ?_
    | (show (_ : List Area) ⊆ _; decide)
    | split
    | dsimp only

theorem execLeanFrameReceive_keeps {A_ : List Area} {s_ t_ : State} {p : Fin 32} {f : Frame} {lockLost : Bool} {parity : Bool} {s : State} (h_ : execLeanFrameReceive p f lockLost parity s = .next t_)
    (ha_ : [.streams, .reqs, .ports, .xpt, .eng, .hosts, .flt, .sbd, .out] ⊆ A_) (hs_ : Keeps A_ s_ s) : Keeps A_ s_ t_ := by
  refine Keeps.comp ?_ ha_ hs_
  clear hs_ ha_; unfold execLeanFrameReceive at h_
  try dsimp only at h_
  all_goals first | with_reducible exact Keeps.of_fault h_ | (with_reducible obtain rfl := Host.Outcome.next.inj h_) | skip
  repeat' first
    | with_reducible exact Keeps.refl _ _
    | with_reducible apply rxLean_keeps
    | with_reducible refine whileAlive_keeps (fun _ => ?_) ?_
    | (show (_ : List Area) ⊆ _; decide)

theorem rxIdle_keeps {A_ : List Area} {s_ : State} {n : Fin 32} {f : Frame} {s : State}
    (ha_ : [.streams, .reqs, .ports, .xpt, .eng, .hosts, .flt, .sbd, .out] ⊆ A_) (hs_ : Keeps A_ s_ s) : Keeps A_ s_ (rxIdle n f s) := by
  refine Keeps.comp ?_ ha_ hs_
  clear hs_ ha_; unfold rxIdle
  try dsimp only
  repeat' first
    | with_reducible exact Keeps.refl _ _
    | with_reducible apply badFrame_keeps
    | with_reducible apply contribute_keeps
    | with_reducible refine Keeps.ite ?_ ?_
    | (show (_ : List Area) ⊆ _; decide)
    | split
    | dsimp only

theorem execIdle_keeps {A_ : List Area} {s_ t_ : State} {p : Fin 32} {f : Frame} {s : State} (h_ : execIdle p f s = .next t_)
    (ha_ : [.streams, .reqs, .ports, .xpt, .eng, .hosts, .flt, .sbd, .out] ⊆ A_) (hs_ : Keeps A_ s_ s) : Keeps A_ s_ t_ := by
  refine Keeps.comp ?_ ha_ hs_
  clear hs_ ha_; unfold execIdle at h_
  try dsimp only at h_
  all_goals first | with_reducible exact Keeps.of_fault h_ | (with_reducible obtain rfl := Host.Outcome.next.inj h_) | skip
  repeat' first
    | with_reducible exact Keeps.refl _ _
    | with_reducible apply rxIdle_keeps
    | with_reducible refine whileAlive_keeps (fun _ => ?_) ?_
    | (show (_ : List Area) ⊆ _; decide)

theorem rxReplayReq_keeps {A_ : List Area} {s_ : State} {n : Fin 32} {f : Frame} {s : State}
    (ha_ : [.streams, .reqs, .ports, .xpt, .eng, .hosts, .flt, .sbd, .out] ⊆ A_) (hs_ : Keeps A_ s_ s) : Keeps A_ s_ (rxReplayReq n f s) := by
  refine Keeps.comp ?_ ha_ hs_
  clear hs_ ha_; unfold rxReplayReq
  try dsimp only
  repeat' first
    | with_reducible exact Keeps.refl _ _
    | with_reducible apply startReplay_keeps
    | with_reducible apply badFrame_keeps
    | with_reducible apply contribute_keeps
    | with_reducible refine Keeps.ite ?_ ?_
    | (show (_ : List Area) ⊆ _; decide)
    | split
    | dsimp only

theorem execReplayReq_keeps {A_ : List Area} {s_ t_ : State} {p : Fin 32} {f : Frame} {s : State} (h_ : execReplayReq p f s = .next t_)
    (ha_ : [.streams, .reqs, .ports, .xpt, .eng, .hosts, .flt, .sbd, .out] ⊆ A_) (hs_ : Keeps A_ s_ s) : Keeps A_ s_ t_ := by
  refine Keeps.comp ?_ ha_ hs_
  clear hs_ ha_; unfold execReplayReq at h_
  try dsimp only at h_
  all_goals first | with_reducible exact Keeps.of_fault h_ | (with_reducible obtain rfl := Host.Outcome.next.inj h_) | skip
  repeat' first
    | with_reducible exact Keeps.refl _ _
    | with_reducible apply rxReplayReq_keeps
    | with_reducible refine whileAlive_keeps (fun _ => ?_) ?_
    | (show (_ : List Area) ⊆ _; decide)

theorem rxRetrainReq_keeps {A_ : List Area} {s_ : State} {n : Fin 32} {f : Frame} {parity : Bool} {s : State}
    (ha_ : [.streams, .reqs, .ports, .xpt, .eng, .hosts, .flt, .sbd, .out] ⊆ A_) (hs_ : Keeps A_ s_ s) : Keeps A_ s_ (rxRetrainReq n f parity s) := by
  refine Keeps.comp ?_ ha_ hs_
  clear hs_ ha_; unfold rxRetrainReq
  try dsimp only
  repeat' first
    | with_reducible exact Keeps.refl _ _
    | with_reducible apply badFrame_keeps
    | with_reducible apply contribute_keeps
    | with_reducible apply applyCredit_keeps
    | with_reducible apply leaveUp_keeps
    | with_reducible refine Keeps.ite ?_ ?_
    | (show (_ : List Area) ⊆ _; decide)
    | split
    | dsimp only

theorem execRetrainReq_keeps {A_ : List Area} {s_ t_ : State} {p : Fin 32} {f : Frame} {parity : Bool} {_cause : Byte} {s : State} (h_ : execRetrainReq p f parity _cause s = .next t_)
    (ha_ : [.streams, .reqs, .ports, .xpt, .eng, .hosts, .flt, .sbd, .out] ⊆ A_) (hs_ : Keeps A_ s_ s) : Keeps A_ s_ t_ := by
  refine Keeps.comp ?_ ha_ hs_
  clear hs_ ha_; unfold execRetrainReq at h_
  try dsimp only at h_
  all_goals first | with_reducible exact Keeps.of_fault h_ | (with_reducible obtain rfl := Host.Outcome.next.inj h_) | skip
  repeat' first
    | with_reducible exact Keeps.refl _ _
    | with_reducible apply rxRetrainReq_keeps
    | with_reducible refine whileAlive_keeps (fun _ => ?_) ?_
    | (show (_ : List Area) ⊆ _; decide)

theorem laneLockLoss_keeps {A_ : List Area} {s_ : State} {n : Fin 32} {s : State}
    (ha_ : [.streams, .reqs, .ports, .xpt, .eng, .hosts, .flt, .sbd, .out] ⊆ A_) (hs_ : Keeps A_ s_ s) : Keeps A_ s_ (laneLockLoss n s) := by
  refine Keeps.comp ?_ ha_ hs_
  clear hs_ ha_; unfold laneLockLoss
  try dsimp only
  repeat' first
    | with_reducible exact Keeps.refl _ _
    | with_reducible apply leaveUp_keeps
    | with_reducible refine Keeps.ite ?_ ?_
    | (show (_ : List Area) ⊆ _; decide)
    | split
    | dsimp only

theorem execLaneLockLoss_keeps {A_ : List Area} {s_ t_ : State} {p : Fin 32} {s : State} (h_ : execLaneLockLoss p s = .next t_)
    (ha_ : [.streams, .reqs, .ports, .xpt, .eng, .hosts, .flt, .sbd, .out] ⊆ A_) (hs_ : Keeps A_ s_ s) : Keeps A_ s_ t_ := by
  refine Keeps.comp ?_ ha_ hs_
  clear hs_ ha_; unfold execLaneLockLoss at h_
  try dsimp only at h_
  all_goals first | with_reducible exact Keeps.of_fault h_ | (with_reducible obtain rfl := Host.Outcome.next.inj h_) | skip
  repeat' first
    | with_reducible exact Keeps.refl _ _
    | with_reducible apply laneLockLoss_keeps
    | with_reducible refine whileAlive_keeps (fun _ => ?_) ?_
    | (show (_ : List Area) ⊆ _; decide)

theorem handed_keeps {A_ : List Area} {s_ : State} {n : Nat} {it : TxItem} {s : State}
    (ha_ : [.reqs, .ports, .xpt, .eng] ⊆ A_) (hs_ : Keeps A_ s_ s) : Keeps A_ s_ (handed n it s) := by
  refine Keeps.comp ?_ ha_ hs_
  clear hs_ ha_; unfold handed
  try dsimp only
  repeat' first
    | with_reducible exact Keeps.refl _ _
    | with_reducible apply copyGone_keeps
    | with_reducible apply State.dropReq_keeps
    | with_reducible apply State.setPort_keeps
    | with_reducible refine Keeps.ite ?_ ?_
    | exact Or.inr (by decide)
    | with_reducible exact Or.inl rfl
    | (show (_ : List Area) ⊆ _; decide)
    | split
    | with_reducible apply Keeps.mk
    | dsimp only
    | exact Or.inl rfl

theorem frameSend_keeps {A_ : List Area} {s_ : State} {n : Fin 32} {vc : Fin 5} {s : State}
    (ha_ : [.reqs, .ports, .xpt, .eng, .out] ⊆ A_) (hs_ : Keeps A_ s_ s) : Keeps A_ s_ (frameSend n vc s) := by
  refine Keeps.comp ?_ ha_ hs_
  clear hs_ ha_; unfold frameSend
  try dsimp only
  repeat' first
    | with_reducible exact Keeps.refl _ _
    | with_reducible apply handed_keeps
    | with_reducible apply spaceIdle_keeps
    | with_reducible apply wire_keeps
    | with_reducible apply State.setPort_keeps
    | with_reducible refine Keeps.ite ?_ ?_
    | exact Or.inr (by decide)
    | with_reducible exact Or.inl rfl
    | (show (_ : List Area) ⊆ _; decide)
    | split
    | with_reducible apply Keeps.mk
    | dsimp only
    | exact Or.inl rfl

theorem execFrameSend_keeps {A_ : List Area} {s_ t_ : State} {p : Fin 32} {vc : Fin 5} {s : State} (h_ : execFrameSend p vc s = .next t_)
    (ha_ : [.reqs, .ports, .xpt, .eng, .out] ⊆ A_) (hs_ : Keeps A_ s_ s) : Keeps A_ s_ t_ := by
  refine Keeps.comp ?_ ha_ hs_
  clear hs_ ha_; unfold execFrameSend at h_
  try dsimp only at h_
  all_goals first | with_reducible exact Keeps.of_fault h_ | (with_reducible obtain rfl := Host.Outcome.next.inj h_) | skip
  repeat' first
    | with_reducible exact Keeps.refl _ _
    | with_reducible apply frameSend_keeps
    | with_reducible refine whileAlive_keeps (fun _ => ?_) ?_
    | (show (_ : List Area) ⊆ _; decide)

theorem idleSend_keeps {A_ : List Area} {s_ : State} {n : Fin 32} {crdVc : Fin 5} {s : State}
    (ha_ : [.ports, .out] ⊆ A_) (hs_ : Keeps A_ s_ s) : Keeps A_ s_ (idleSend n crdVc s) := by
  refine Keeps.comp ?_ ha_ hs_
  clear hs_ ha_; unfold idleSend
  try dsimp only
  repeat' first
    | with_reducible exact Keeps.refl _ _
    | with_reducible apply sendIdle_keeps
    | with_reducible refine Keeps.ite ?_ ?_
    | (show (_ : List Area) ⊆ _; decide)
    | split
    | dsimp only

theorem execIdleSend_keeps {A_ : List Area} {s_ t_ : State} {p : Fin 32} {crdVc : Fin 5} {s : State} (h_ : execIdleSend p crdVc s = .next t_)
    (ha_ : [.ports, .out] ⊆ A_) (hs_ : Keeps A_ s_ s) : Keeps A_ s_ t_ := by
  refine Keeps.comp ?_ ha_ hs_
  clear hs_ ha_; unfold execIdleSend at h_
  try dsimp only at h_
  all_goals first | with_reducible exact Keeps.of_fault h_ | (with_reducible obtain rfl := Host.Outcome.next.inj h_) | skip
  repeat' first
    | with_reducible exact Keeps.refl _ _
    | with_reducible apply idleSend_keeps
    | with_reducible refine whileAlive_keeps (fun _ => ?_) ?_
    | (show (_ : List Area) ⊆ _; decide)

theorem replayTimer_keeps {A_ : List Area} {s_ : State} {n : Fin 32} {acked : Bool} {s : State}
    (ha_ : [.streams, .reqs, .ports, .xpt, .eng, .hosts, .flt, .sbd, .out] ⊆ A_) (hs_ : Keeps A_ s_ s) : Keeps A_ s_ (replayTimer n acked s) := by
  refine Keeps.comp ?_ ha_ hs_
  clear hs_ ha_; unfold replayTimer
  try dsimp only
  repeat' first
    | with_reducible exact Keeps.refl _ _
    | with_reducible apply startReplay_keeps
    | with_reducible apply leaveUp_keeps
    | with_reducible apply State.setPort_keeps
    | with_reducible refine Keeps.ite ?_ ?_
    | exact Or.inr (by decide)
    | with_reducible exact Or.inl rfl
    | (show (_ : List Area) ⊆ _; decide)
    | split
    | with_reducible apply Keeps.mk
    | dsimp only
    | exact Or.inl rfl

theorem execReplayTimer_keeps {A_ : List Area} {s_ t_ : State} {x : ReplayExpiry} {s : State} (h_ : execReplayTimer x s = .next t_)
    (ha_ : [.streams, .reqs, .ports, .xpt, .eng, .hosts, .flt, .sbd, .out] ⊆ A_) (hs_ : Keeps A_ s_ s) : Keeps A_ s_ t_ := by
  refine Keeps.comp ?_ ha_ hs_
  clear hs_ ha_; unfold execReplayTimer at h_
  try dsimp only at h_
  all_goals first | with_reducible exact Keeps.of_fault h_ | (with_reducible obtain rfl := Host.Outcome.next.inj h_) | skip
  repeat' first
    | with_reducible exact Keeps.refl _ _
    | with_reducible apply replayTimer_keeps
    | with_reducible refine whileAlive_keeps (fun _ => ?_) ?_
    | (show (_ : List Area) ⊆ _; decide)

theorem replayResend_keeps {A_ : List Area} {s_ : State} {n : Fin 32} {crdVc : Fin 5} {s : State}
    (ha_ : [.ports, .out] ⊆ A_) (hs_ : Keeps A_ s_ s) : Keeps A_ s_ (replayResend n crdVc s) := by
  refine Keeps.comp ?_ ha_ hs_
  clear hs_ ha_; unfold replayResend
  try dsimp only
  repeat' first
    | with_reducible exact Keeps.refl _ _
    | with_reducible apply spaceIdle_keeps
    | with_reducible apply wire_keeps
    | with_reducible apply State.setPort_keeps
    | with_reducible refine Keeps.ite ?_ ?_
    | exact Or.inr (by decide)
    | with_reducible exact Or.inl rfl
    | (show (_ : List Area) ⊆ _; decide)
    | split
    | with_reducible apply Keeps.mk
    | dsimp only
    | exact Or.inl rfl

theorem execReplayResend_keeps {A_ : List Area} {s_ t_ : State} {p : Fin 32} {crdVc : Fin 5} {s : State} (h_ : execReplayResend p crdVc s = .next t_)
    (ha_ : [.ports, .out] ⊆ A_) (hs_ : Keeps A_ s_ s) : Keeps A_ s_ t_ := by
  refine Keeps.comp ?_ ha_ hs_
  clear hs_ ha_; unfold execReplayResend at h_
  try dsimp only at h_
  all_goals first | with_reducible exact Keeps.of_fault h_ | (with_reducible obtain rfl := Host.Outcome.next.inj h_) | skip
  repeat' first
    | with_reducible exact Keeps.refl _ _
    | with_reducible apply replayResend_keeps
    | with_reducible refine whileAlive_keeps (fun _ => ?_) ?_
    | (show (_ : List Area) ⊆ _; decide)

theorem loseRefclk_keeps {A_ : List Area} {s_ : State} {n : Nat} {s : State}
    (ha_ : [.ports] ⊆ A_) (hs_ : Keeps A_ s_ s) : Keeps A_ s_ (loseRefclk n s) := by
  refine Keeps.comp ?_ ha_ hs_
  clear hs_ ha_; unfold loseRefclk
  try dsimp only
  repeat' first
    | with_reducible exact Keeps.refl _ _
    | with_reducible apply State.setPort_keeps
    | with_reducible refine Keeps.ite ?_ ?_
    | exact Or.inr (by decide)
    | with_reducible exact Or.inl rfl
    | (show (_ : List Area) ⊆ _; decide)
    | split
    | with_reducible apply Keeps.mk
    | dsimp only
    | exact Or.inl rfl

theorem execRefclkLost_keeps {A_ : List Area} {s_ t_ : State} {g : Fin 4} {s : State} (h_ : execRefclkLost g s = .next t_)
    (ha_ : [.ports] ⊆ A_) (hs_ : Keeps A_ s_ s) : Keeps A_ s_ t_ := by
  refine Keeps.comp ?_ ha_ hs_
  clear hs_ ha_; unfold execRefclkLost at h_
  try dsimp only at h_
  all_goals first | with_reducible exact Keeps.of_fault h_ | (with_reducible obtain rfl := Host.Outcome.next.inj h_) | skip
  repeat' first
    | with_reducible exact Keeps.refl _ _
    | with_reducible apply loseRefclk_keeps
    | with_reducible refine whileAlive_keeps (fun _ => ?_) ?_
    | with_reducible refine Keeps.foldl (fun _ _ => ?_) _ ?_
    | with_reducible refine Keeps.ite ?_ ?_
    | (show (_ : List Area) ⊆ _; decide)
    | split
    | dsimp only

theorem execRefclkReturn_keeps {A_ : List Area} {s_ t_ : State} {g : Fin 4} {s : State} (h_ : execRefclkReturn g s = .next t_)
    (ha_ : [.ports] ⊆ A_) (hs_ : Keeps A_ s_ s) : Keeps A_ s_ t_ := by
  refine Keeps.comp ?_ ha_ hs_
  clear hs_ ha_; unfold execRefclkReturn at h_
  try dsimp only at h_
  all_goals first | with_reducible exact Keeps.of_fault h_ | (with_reducible obtain rfl := Host.Outcome.next.inj h_) | skip
  repeat' first
    | with_reducible exact Keeps.refl _ _
    | with_reducible refine whileAlive_keeps (fun _ => ?_) ?_
    | with_reducible apply State.setPort_keeps
    | with_reducible refine Keeps.foldl (fun _ _ => ?_) _ ?_
    | exact Or.inr (by decide)
    | with_reducible exact Or.inl rfl
    | (show (_ : List Area) ⊆ _; decide)
    | with_reducible apply Keeps.mk
    | dsimp only
    | exact Or.inl rfl

end Sys2Proof.Machine
end

