-- ==== Sys2Proof/Laws/Frame/Directory.lean ====
section
/-! SUPPORT. The frame of every operation of Machine/Directory.lean: the areas it may change, and that pool memory keeps its canonical form. -/

namespace Sys2Proof.Machine

set_option linter.unusedTactic false
set_option linter.unreachableTactic false
set_option linter.unusedVariables false

/-- The state a search for a way leads to. -/
def WayRes.st : WayRes → State
  | .way _ s => s
  | .wait s => s

/-- The state a lookup leads to. -/
def DirRes.st : DirRes → State
  | .wait s => s
  | .snoop s => s
  | .go s => s

theorem State.setEnt_keeps {A_ : List Area} {s_ : State} {s : State} {slot : Nat} {e : DirEnt}
    (ha_ : [.dir] ⊆ A_) (hs_ : Keeps A_ s_ s) : Keeps A_ s_ (State.setEnt s slot e) := by
  refine Keeps.comp ?_ ha_ hs_
  clear hs_ ha_; unfold State.setEnt
  try dsimp only
  repeat' first
    | with_reducible exact Keeps.refl _ _
    | exact Or.inr (by decide)
    | with_reducible exact Or.inl rfl
    | (show (_ : List Area) ⊆ _; decide)
    | with_reducible apply Keeps.mk
    | dsimp only
    | exact Or.inl rfl

theorem registerAgent_keeps {A_ : List Area} {s_ s t_ : State} {ep : BitVec 12} {a_ : Nat} (h_ : registerAgent ep s = some (a_, t_))
    (ha_ : [.dir] ⊆ A_) (hs_ : Keeps A_ s_ s) : Keeps A_ s_ t_ := by
  refine Keeps.comp (B := [.dir]) ?_ ha_ hs_
  unfold registerAgent at h_
  split at h_
  · cases h_; exact Keeps.refl _ _
  · split at h_
    · cases h_
    · cases h_
      with_reducible apply Keeps.mk
      all_goals first | exact Keeps.refl _ _ | with_reducible exact Or.inl rfl | exact Or.inr (by decide)

theorem setTrk_keeps {A_ : List Area} {s_ : State} {k : Trk} {s : State}
    (ha_ : [.dir] ⊆ A_) (hs_ : Keeps A_ s_ s) : Keeps A_ s_ (setTrk k s) := by
  refine Keeps.comp ?_ ha_ hs_
  clear hs_ ha_; unfold setTrk
  try dsimp only
  repeat' first
    | with_reducible exact Keeps.refl _ _
    | with_reducible refine Keeps.ite ?_ ?_
    | exact Or.inr (by decide)
    | with_reducible exact Or.inl rfl
    | (show (_ : List Area) ⊆ _; decide)
    | split
    | with_reducible apply Keeps.mk
    | dsimp only
    | exact Or.inl rfl

theorem addTrk_keeps {A_ : List Area} {s_ : State} {k : Trk} {s : State}
    (ha_ : [.dir] ⊆ A_) (hs_ : Keeps A_ s_ s) : Keeps A_ s_ (addTrk k s) := by
  refine Keeps.comp ?_ ha_ hs_
  clear hs_ ha_; unfold addTrk
  try dsimp only
  repeat' first
    | with_reducible exact Keeps.refl _ _
    | exact Or.inr (by decide)
    | with_reducible exact Or.inl rfl
    | (show (_ : List Area) ⊆ _; decide)
    | with_reducible apply Keeps.mk
    | dsimp only
    | exact Or.inl rfl

theorem dropTrk_keeps {A_ : List Area} {s_ : State} {t : Tier} {l : Nat} {s : State}
    (ha_ : [.dir] ⊆ A_) (hs_ : Keeps A_ s_ s) : Keeps A_ s_ (dropTrk t l s) := by
  refine Keeps.comp ?_ ha_ hs_
  clear hs_ ha_; unfold dropTrk
  try dsimp only
  repeat' first
    | with_reducible exact Keeps.refl _ _
    | exact Or.inr (by decide)
    | with_reducible exact Or.inl rfl
    | (show (_ : List Area) ⊆ _; decide)
    | with_reducible apply Keeps.mk
    | dsimp only
    | exact Or.inl rfl

theorem toAgent_keeps {A_ : List Area} {s_ : State} {a : Nat} {op : BitVec 8} {handle : Nat} {d : List Byte} {bad : Bool} {s : State}
    (ha_ : [.ports, .xpt] ⊆ A_) (hs_ : Keeps A_ s_ s) : Keeps A_ s_ (toAgent a op handle d bad s) := by
  refine Keeps.comp ?_ ha_ hs_
  clear hs_ ha_; unfold toAgent
  try dsimp only
  repeat' first
    | with_reducible exact Keeps.refl _ _
    | with_reducible apply enqueue_keeps
    | exact Or.inr (by decide)
    | with_reducible exact Or.inl rfl
    | (show (_ : List Area) ⊆ _; decide)
    | split
    | with_reducible apply Keeps.mk
    | dsimp only
    | exact Or.inl rfl

theorem recallEnt_keeps {A_ : List Area} {s_ : State} {slot : Nat} {drop : Bool} {calm : Bool} {for_ : Option Nat} {s : State}
    (ha_ : [.ports, .xpt, .dir] ⊆ A_) (hs_ : Keeps A_ s_ s) : Keeps A_ s_ (recallEnt slot drop calm for_ s) := by
  refine Keeps.comp ?_ ha_ hs_
  clear hs_ ha_; unfold recallEnt
  try dsimp only
  repeat' first
    | with_reducible exact Keeps.refl _ _
    | with_reducible apply toAgent_keeps
    | with_reducible apply addTrk_keeps
    | with_reducible apply State.setEnt_keeps
    | with_reducible refine Keeps.foldl (fun _ _ => ?_) _ ?_
    | with_reducible refine Keeps.ite ?_ ?_
    | (show (_ : List Area) ⊆ _; decide)
    | split
    | dsimp only

theorem takeWay_keeps {A_ : List Area} {s_ : State} {l : Nat} {for_ : Option Nat} {s : State}
    (ha_ : [.ports, .xpt, .dir] ⊆ A_) (hs_ : Keeps A_ s_ s) : Keeps A_ s_ (takeWay l for_ s).st := by
  refine Keeps.comp ?_ ha_ hs_
  clear hs_ ha_; unfold takeWay
  try dsimp only
  repeat' split
  all_goals try dsimp only [WayRes.st]
  repeat' first
    | with_reducible exact Keeps.refl _ _
    | with_reducible apply recallEnt_keeps
    | with_reducible refine Keeps.foldl (fun _ _ => ?_) _ ?_
    | with_reducible refine Keeps.ite ?_ ?_
    | exact Or.inr (by decide)
    | with_reducible exact Or.inl rfl
    | (show (_ : List Area) ⊆ _; decide)
    | split
    | with_reducible apply Keeps.mk
    | dsimp only
    | exact Or.inl rfl

theorem useEnt_keeps {A_ : List Area} {s_ : State} {slot : Nat} {s : State}
    (ha_ : [.dir] ⊆ A_) (hs_ : Keeps A_ s_ s) : Keeps A_ s_ (useEnt slot s) := by
  refine Keeps.comp ?_ ha_ hs_
  clear hs_ ha_; unfold useEnt
  try dsimp only
  repeat' first
    | with_reducible exact Keeps.refl _ _
    | with_reducible apply State.setEnt_keeps
    | exact Or.inr (by decide)
    | with_reducible exact Or.inl rfl
    | (show (_ : List Area) ⊆ _; decide)
    | with_reducible apply Keeps.mk
    | dsimp only
    | exact Or.inl rfl

theorem dirLookup_keeps {A_ : List Area} {s_ : State} {k : DirKind} {a : Option Nat} {needWay : Bool} {base : Trk} {s : State}
    (ha_ : [.ports, .xpt, .dir] ⊆ A_) (hs_ : Keeps A_ s_ s) : Keeps A_ s_ (dirLookup k a needWay base s).st := by
  refine Keeps.comp ?_ ha_ hs_
  clear hs_ ha_; unfold dirLookup
  try dsimp only
  repeat' split
  all_goals try dsimp only [DirRes.st]
  repeat' first
    | with_reducible exact Keeps.refl _ _
    | with_reducible apply useEnt_keeps
    | with_reducible apply takeWay_keeps
    | refine Keeps.of_eq ((congrArg WayRes.st (by assumption)).trans rfl) (takeWay_keeps ?_ ?_)
    | with_reducible apply toAgent_keeps
    | with_reducible apply addTrk_keeps
    | with_reducible apply State.setEnt_keeps
    | with_reducible refine Keeps.foldl (fun _ _ => ?_) _ ?_
    | with_reducible refine Keeps.ite ?_ ?_
    | exact Or.inr (by decide)
    | with_reducible exact Or.inl rfl
    | (show (_ : List Area) ⊆ _; decide)
    | split
    | with_reducible apply Keeps.mk
    | dsimp only
    | exact Or.inl rfl

theorem clearDead_keeps {A_ : List Area} {s_ : State} {t : Tier} {l : Nat} {s : State}
    (ha_ : [.ports, .xpt, .dir] ⊆ A_) (hs_ : Keeps A_ s_ s) : Keeps A_ s_ (clearDead t l s).2 := by
  refine Keeps.comp ?_ ha_ hs_
  clear hs_ ha_; unfold clearDead
  try dsimp only
  repeat' first
    | with_reducible exact Keeps.refl _ _
    | with_reducible apply recallEnt_keeps
    | with_reducible refine Keeps.ite ?_ ?_
    | (show (_ : List Area) ⊆ _; decide)
    | split
    | dsimp only

theorem queueReq_keeps {A_ : List Area} {s_ : State} {id : Nat} {s : State}
    (ha_ : [.dram] ⊆ A_) (hs_ : Keeps A_ s_ s) : Keeps A_ s_ (queueReq id s) := by
  refine Keeps.comp ?_ ha_ hs_
  clear hs_ ha_; unfold queueReq
  try dsimp only
  repeat' first
    | with_reducible exact Keeps.refl _ _
    | with_reducible apply queueOp_keeps
    | with_reducible refine Keeps.ite ?_ ?_
    | exact Or.inr (by decide)
    | with_reducible exact Or.inl rfl
    | (show (_ : List Area) ⊆ _; decide)
    | split
    | with_reducible apply Keeps.mk
    | dsimp only
    | exact Or.inl rfl

theorem pendItem_keeps {A_ : List Area} {s_ : State} {x : PendItem} {s : State}
    (ha_ : [.dir] ⊆ A_) (hs_ : Keeps A_ s_ s) : Keeps A_ s_ (pendItem x s) := by
  refine Keeps.comp ?_ ha_ hs_
  clear hs_ ha_; unfold pendItem
  try dsimp only
  repeat' first
    | with_reducible exact Keeps.refl _ _
    | with_reducible refine Keeps.ite ?_ ?_
    | exact Or.inr (by decide)
    | with_reducible exact Or.inl rfl
    | (show (_ : List Area) ⊆ _; decide)
    | split
    | with_reducible apply Keeps.mk
    | dsimp only
    | exact Or.inl rfl

theorem unpend_keeps {A_ : List Area} {s_ : State} {x : PendItem} {s : State}
    (ha_ : [.dir] ⊆ A_) (hs_ : Keeps A_ s_ s) : Keeps A_ s_ (unpend x s) := by
  refine Keeps.comp ?_ ha_ hs_
  clear hs_ ha_; unfold unpend
  try dsimp only
  repeat' first
    | with_reducible exact Keeps.refl _ _
    | exact Or.inr (by decide)
    | with_reducible exact Or.inl rfl
    | (show (_ : List Area) ⊆ _; decide)
    | with_reducible apply Keeps.mk
    | dsimp only
    | exact Or.inl rfl

theorem dirServe_keeps {A_ : List Area} {s_ : State} {id : Nat} {s : State}
    (ha_ : [.ports, .xpt, .dram, .dir] ⊆ A_) (hs_ : Keeps A_ s_ s) : Keeps A_ s_ (dirServe id s) := by
  refine Keeps.comp ?_ ha_ hs_
  clear hs_ ha_; unfold dirServe
  try dsimp only
  repeat' first
    | with_reducible exact Keeps.refl _ _
    | with_reducible apply unpend_keeps
    | with_reducible apply pendItem_keeps
    | with_reducible apply queueReq_keeps
    | with_reducible apply clearDead_keeps
    | with_reducible refine Keeps.pair1 (p := clearDead _ _ _) (by assumption) ?_
    | with_reducible apply dirLookup_keeps
    | refine Keeps.of_eq ((congrArg DirRes.st (by assumption)).trans rfl) (dirLookup_keeps ?_ ?_)
    | with_reducible refine Keeps.ite ?_ ?_
    | (show (_ : List Area) ⊆ _; decide)
    | split
    | dsimp only

theorem serveLine_keeps {A_ : List Area} {s_ : State} {id : Nat} {s : State}
    (ha_ : [.ports, .xpt, .dram, .dir] ⊆ A_) (hs_ : Keeps A_ s_ s) : Keeps A_ s_ (serveLine id s) := by
  refine Keeps.comp ?_ ha_ hs_
  clear hs_ ha_; unfold serveLine
  try dsimp only
  repeat' first
    | with_reducible exact Keeps.refl _ _
    | with_reducible apply dirServe_keeps
    | with_reducible apply queueReq_keeps
    | with_reducible refine Keeps.ite ?_ ?_
    | (show (_ : List Area) ⊆ _; decide)
    | split
    | dsimp only

theorem answersIn_keeps {A_ : List Area} {s_ : State} {k : Trk} {s : State}
    (ha_ : [.dram, .dir] ⊆ A_) (hs_ : Keeps A_ s_ s) : Keeps A_ s_ (answersIn k s) := by
  refine Keeps.comp ?_ ha_ hs_
  clear hs_ ha_; unfold answersIn
  try dsimp only
  repeat' first
    | with_reducible exact Keeps.refl _ _
    | with_reducible apply queueReq_keeps
    | with_reducible apply dropTrk_keeps
    | with_reducible apply setTrk_keeps
    | with_reducible apply State.setEnt_keeps
    | with_reducible refine Keeps.ite ?_ ?_
    | exact Or.inr (by decide)
    | with_reducible exact Or.inl rfl
    | (show (_ : List Area) ⊆ _; decide)
    | split
    | with_reducible apply Keeps.mk
    | dsimp only
    | exact Or.inl rfl

theorem snoopData_keeps {A_ : List Area} {s_ : State} {k : Trk} {d : List Byte} {bad : Bool} {s : State}
    (ha_ : [.dram] ⊆ A_) (hs_ : Keeps A_ s_ s) : Keeps A_ s_ (snoopData k d bad s) := by
  refine Keeps.comp ?_ ha_ hs_
  clear hs_ ha_; unfold snoopData
  try dsimp only
  repeat' first
    | with_reducible exact Keeps.refl _ _
    | with_reducible apply queueOp_keeps
    | with_reducible refine Keeps.ite ?_ ?_
    | (show (_ : List Area) ⊆ _; decide)
    | split
    | dsimp only

theorem agentAnswer_keeps {A_ : List Area} {s_ : State} {k : Trk} {a : Nat} {ans : AgentAns} {s : State}
    (ha_ : [.dram, .dir] ⊆ A_) (hs_ : Keeps A_ s_ s) : Keeps A_ s_ (agentAnswer k a ans s) := by
  refine Keeps.comp ?_ ha_ hs_
  clear hs_ ha_; unfold agentAnswer
  try dsimp only
  repeat' first
    | with_reducible exact Keeps.refl _ _
    | with_reducible apply snoopData_keeps
    | with_reducible apply answersIn_keeps
    | with_reducible apply setTrk_keeps
    | with_reducible refine Keeps.ite ?_ ?_
    | exact Or.inr (by decide)
    | with_reducible exact Or.inl rfl
    | (show (_ : List Area) ⊆ _; decide)
    | split
    | with_reducible apply Keeps.mk
    | dsimp only
    | exact Or.inl rfl

theorem writeBack_keeps {A_ : List Area} {s_ : State} {id : Nat} {s : State}
    (ha_ : [.streams, .reqs, .ports, .dram, .dir] ⊆ A_) (hs_ : Keeps A_ s_ s) : Keeps A_ s_ (writeBack id s) := by
  refine Keeps.comp ?_ ha_ hs_
  clear hs_ ha_; unfold writeBack
  try dsimp only
  repeat' first
    | with_reducible exact Keeps.refl _ _
    | with_reducible apply agentAnswer_keeps
    | with_reducible apply queueReq_keeps
    | with_reducible apply State.setEnt_keeps
    | with_reducible apply finishReq_keeps
    | with_reducible refine Keeps.ite ?_ ?_
    | exact Or.inr (by decide)
    | with_reducible exact Or.inl rfl
    | (show (_ : List Area) ⊆ _; decide)
    | split
    | with_reducible apply Keeps.mk
    | dsimp only
    | exact Or.inl rfl

theorem evictLine_keeps {A_ : List Area} {s_ : State} {id : Nat} {s : State}
    (ha_ : [.streams, .reqs, .ports, .dram, .dir] ⊆ A_) (hs_ : Keeps A_ s_ s) : Keeps A_ s_ (evictLine id s) := by
  refine Keeps.comp ?_ ha_ hs_
  clear hs_ ha_; unfold evictLine
  try dsimp only
  repeat' first
    | with_reducible exact Keeps.refl _ _
    | with_reducible apply agentAnswer_keeps
    | with_reducible apply State.setEnt_keeps
    | with_reducible apply finishReq_keeps
    | with_reducible refine Keeps.ite ?_ ?_
    | (show (_ : List Area) ⊆ _; decide)
    | split
    | dsimp only

theorem beginReq_keeps {A_ : List Area} {s_ : State} {id : Nat} {s : State}
    (ha_ : [.streams, .reqs, .ports, .xpt, .dram, .dir] ⊆ A_) (hs_ : Keeps A_ s_ s) : Keeps A_ s_ (beginReq id s) := by
  refine Keeps.comp ?_ ha_ hs_
  clear hs_ ha_; unfold beginReq
  try dsimp only
  repeat' first
    | with_reducible exact Keeps.refl _ _
    | with_reducible apply evictLine_keeps
    | with_reducible apply writeBack_keeps
    | with_reducible apply serveLine_keeps
    | with_reducible apply finishReq_keeps
    | with_reducible refine Keeps.ite ?_ ?_
    | (show (_ : List Area) ⊆ _; decide)
    | split
    | dsimp only

theorem startReq_keeps {A_ : List Area} {s_ : State} {id : Nat} {s : State}
    (ha_ : [.streams, .reqs, .ports, .xpt, .dram, .dir] ⊆ A_) (hs_ : Keeps A_ s_ s) : Keeps A_ s_ (startReq id s) := by
  refine Keeps.comp ?_ ha_ hs_
  clear hs_ ha_; unfold startReq
  try dsimp only
  repeat' first
    | with_reducible exact Keeps.refl _ _
    | with_reducible apply beginReq_keeps
    | with_reducible apply State.setReq_keeps
    | with_reducible refine Keeps.ite ?_ ?_
    | exact Or.inr (by decide)
    | with_reducible exact Or.inl rfl
    | (show (_ : List Area) ⊆ _; decide)
    | split
    | with_reducible apply Keeps.mk
    | dsimp only
    | exact Or.inl rfl

theorem startRecalls_keeps {A_ : List Area} {s_ : State} {s : State}
    (ha_ : [.ports, .xpt, .dir] ⊆ A_) (hs_ : Keeps A_ s_ s) : Keeps A_ s_ (startRecalls s) := by
  refine Keeps.comp ?_ ha_ hs_
  clear hs_ ha_; unfold startRecalls
  try dsimp only
  repeat' first
    | with_reducible exact Keeps.refl _ _
    | with_reducible apply recallEnt_keeps
    | with_reducible refine Keeps.foldl (fun _ _ => ?_) _ ?_
    | with_reducible refine Keeps.ite ?_ ?_
    | exact Or.inr (by decide)
    | with_reducible exact Or.inl rfl
    | (show (_ : List Area) ⊆ _; decide)
    | split
    | with_reducible apply Keeps.mk
    | dsimp only
    | exact Or.inl rfl

theorem pendStep_keeps {A_ : List Area} {s_ : State} {s : State} {x : PendItem}
    (ha_ : [.ports, .xpt, .dram, .dir] ⊆ A_) (hs_ : Keeps A_ s_ s) : Keeps A_ s_ (pendStep s x) := by
  refine Keeps.comp ?_ ha_ hs_
  clear hs_ ha_; unfold pendStep
  try dsimp only
  repeat' first
    | with_reducible exact Keeps.refl _ _
    | with_reducible apply dirServe_keeps
    | with_reducible apply unpend_keeps
    | with_reducible refine Keeps.ite ?_ ?_
    | (show (_ : List Area) ⊆ _; decide)
    | split
    | dsimp only

theorem settleOnce_keeps {A_ : List Area} {s_ : State} {s : State}
    (ha_ : [.streams, .reqs, .ports, .xpt, .dram, .dir] ⊆ A_) (hs_ : Keeps A_ s_ s) : Keeps A_ s_ (settleOnce s) := by
  refine Keeps.comp ?_ ha_ hs_
  clear hs_ ha_; unfold settleOnce
  try dsimp only
  repeat' first
    | with_reducible exact Keeps.refl _ _
    | with_reducible apply pendStep_keeps
    | with_reducible apply startRecalls_keeps
    | with_reducible apply startReq_keeps
    | with_reducible refine Keeps.foldl (fun _ _ => ?_) _ ?_
    | (show (_ : List Area) ⊆ _; decide)

theorem settleN_keeps {A_ : List Area} (n : Nat) : ∀ {s_ s : State}, [.streams, .reqs, .ports, .xpt, .dram, .dir] ⊆ A_ → Keeps A_ s_ s → Keeps A_ s_ (settleN n s) := by
  induction n with
  | zero => intro s_ s _ h; exact h
  | succ n ih => intro s_ s ha h; exact ih ha (settleOnce_keeps (List.Subset.trans (by decide) ha) h)

theorem settle_keeps {A_ : List Area} {s_ : State} {s : State}
    (ha_ : [.streams, .reqs, .ports, .xpt, .dram, .dir] ⊆ A_) (hs_ : Keeps A_ s_ s) : Keeps A_ s_ (settle s) := by
  refine Keeps.comp ?_ ha_ hs_
  clear hs_ ha_; unfold settle
  try dsimp only
  repeat' first
    | with_reducible exact Keeps.refl _ _
    | with_reducible apply settleN_keeps
    | (show (_ : List Area) ⊆ _; decide)

theorem freeLine_keeps {A_ : List Area} {s_ : State} {r : OReq} {s : State}
    (ha_ : [.dir] ⊆ A_) (hs_ : Keeps A_ s_ s) : Keeps A_ s_ (freeLine r s) := by
  refine Keeps.comp ?_ ha_ hs_
  clear hs_ ha_; unfold freeLine
  try dsimp only
  repeat' first
    | with_reducible exact Keeps.refl _ _
    | with_reducible apply dropTrk_keeps
    | with_reducible refine Keeps.ite ?_ ?_
    | (show (_ : List Area) ⊆ _; decide)
    | split
    | dsimp only

theorem grantLine_keeps {A_ : List Area} {s_ : State} {r : OReq} {d : List Byte} {s : State}
    (ha_ : [.streams, .reqs, .ports, .dir] ⊆ A_) (hs_ : Keeps A_ s_ s) : Keeps A_ s_ (grantLine r d s) := by
  refine Keeps.comp ?_ ha_ hs_
  clear hs_ ha_; unfold grantLine
  try dsimp only
  repeat' first
    | with_reducible exact Keeps.refl _ _
    | with_reducible apply useEnt_keeps
    | with_reducible apply dropTrk_keeps
    | with_reducible apply setTrk_keeps
    | with_reducible apply State.setEnt_keeps
    | with_reducible apply finishData_keeps
    | with_reducible apply finishReq_keeps
    | with_reducible refine Keeps.ite ?_ ?_
    | exact Or.inr (by decide)
    | with_reducible exact Or.inl rfl
    | (show (_ : List Area) ⊆ _; decide)
    | split
    | with_reducible apply Keeps.mk
    | dsimp only
    | exact Or.inl rfl

theorem offerLine_keeps {A_ : List Area} {s_ : State} {r : OReq} {s : State}
    (ha_ : [.ports, .xpt, .dir] ⊆ A_) (hs_ : Keeps A_ s_ s) : Keeps A_ s_ (offerLine r s) := by
  refine Keeps.comp ?_ ha_ hs_
  clear hs_ ha_; unfold offerLine
  try dsimp only
  repeat' first
    | with_reducible exact Keeps.refl _ _
    | with_reducible apply toAgent_keeps
    | with_reducible apply dropTrk_keeps
    | with_reducible apply setTrk_keeps
    | exact Or.inr (by decide)
    | with_reducible exact Or.inl rfl
    | (show (_ : List Area) ⊆ _; decide)
    | split
    | with_reducible apply Keeps.mk
    | dsimp only
    | exact Or.inl rfl

theorem nextLine_keeps {A_ : List Area} {s_ : State} {r : OReq} {n : Nat} {s : State}
    (ha_ : [.reqs, .ports, .xpt, .dram, .dir] ⊆ A_) (hs_ : Keeps A_ s_ s) : Keeps A_ s_ (nextLine r n s) := by
  refine Keeps.comp ?_ ha_ hs_
  clear hs_ ha_; unfold nextLine
  try dsimp only
  repeat' first
    | with_reducible exact Keeps.refl _ _
    | with_reducible apply freeLine_keeps
    | with_reducible apply serveLine_keeps
    | with_reducible apply State.setReq_keeps
    | exact Or.inr (by decide)
    | with_reducible exact Or.inl rfl
    | (show (_ : List Area) ⊆ _; decide)
    | with_reducible apply Keeps.mk
    | dsimp only
    | exact Or.inl rfl

theorem memDone_keeps {A_ : List Area} {s_ : State} {id : Nat} {res : Option (List Byte)} {s : State}
    (ha_ : [.streams, .reqs, .ports, .xpt, .dram, .dir, .eng] ⊆ A_) (hs_ : Keeps A_ s_ s) : Keeps A_ s_ (memDone id res s) := by
  refine Keeps.comp ?_ ha_ hs_
  clear hs_ ha_; unfold memDone
  try dsimp only
  repeat' first
    | with_reducible exact Keeps.refl _ _
    | with_reducible apply nextLine_keeps
    | with_reducible apply offerLine_keeps
    | with_reducible apply grantLine_keeps
    | with_reducible apply freeLine_keeps
    | with_reducible apply mcastOut_keeps
    | with_reducible apply finishData_keeps
    | with_reducible apply finishReq_keeps
    | with_reducible apply respond_keeps
    | with_reducible apply State.setReq_keeps
    | with_reducible refine Keeps.ite ?_ ?_
    | exact Or.inr (by decide)
    | with_reducible exact Or.inl rfl
    | (show (_ : List Area) ⊆ _; decide)
    | split
    | with_reducible apply Keeps.mk
    | dsimp only
    | exact Or.inl rfl

theorem opDone_keeps {A_ : List Area} {s_ : State} {o : MemOp} {res : Option (List Byte)} {s : State}
    (ha_ : [.streams, .reqs, .ports, .xpt, .dram, .dir, .eng] ⊆ A_) (hs_ : Keeps A_ s_ s) : Keeps A_ s_ (opDone o res s) := by
  refine Keeps.comp ?_ ha_ hs_
  clear hs_ ha_; unfold opDone
  try dsimp only
  repeat' first
    | with_reducible exact Keeps.refl _ _
    | with_reducible apply memDone_keeps
    | (show (_ : List Area) ⊆ _; decide)
    | split
    | dsimp only

theorem engineMeets_keeps {A_ : List Area} {s_ : State} {t : Tier} {l : Nat} {e : EccErr} {s : State}
    (ha_ : [.insts, .nid, .parts, .serialNo, .til, .dram, .hosts, .flt, .sbd, .out] ⊆ A_) (hs_ : Keeps A_ s_ s) : Keeps A_ s_ (engineMeets t l e s) := by
  refine Keeps.comp ?_ ha_ hs_
  clear hs_ ha_; unfold engineMeets
  try dsimp only
  repeat' first
    | with_reducible exact Keeps.refl _ _
    | with_reducible apply readCodeword_keeps
    | with_reducible refine Keeps.pair1 (p := readCodeword _ _ _ _ _) (by assumption) ?_
    | with_reducible apply forgetPassed_keeps
    | exact Or.inr (by decide)
    | with_reducible exact Or.inl rfl
    | (show (_ : List Area) ⊆ _; decide)
    | split
    | with_reducible apply Keeps.mk
    | dsimp only
    | exact Or.inl rfl

theorem dramRead_keeps {A_ : List Area} {s_ : State} {t : Tier} {l : Nat} {e : EccErr} {s : State}
    (ha_ : [.insts, .nid, .parts, .streams, .reqs, .serialNo, .ports, .xpt, .til, .dram, .dir, .eng, .hosts, .flt, .sbd, .out] ⊆ A_) (hs_ : Keeps A_ s_ s) : Keeps A_ s_ (dramRead t l e s) := by
  refine Keeps.comp ?_ ha_ hs_
  clear hs_ ha_; unfold dramRead
  try dsimp only
  repeat' first
    | with_reducible exact Keeps.refl _ _
    | with_reducible apply engineMeets_keeps
    | with_reducible apply opDone_keeps
    | with_reducible apply settle_keeps
    | with_reducible apply serveOp_keeps
    | with_reducible apply readCodeword_keeps
    | with_reducible refine Keeps.pair1 (p := readCodeword _ _ _ _ _) (by assumption) ?_
    | with_reducible refine Keeps.foldl (fun _ _ => ?_) _ ?_
    | with_reducible refine Keeps.ite ?_ ?_
    | (show (_ : List Area) ⊆ _; decide)
    | split
    | dsimp only

theorem dramWrite_keeps {A_ : List Area} {s_ : State} {t : Tier} {l : Nat} {e : EccErr} {s : State}
    (ha_ : [.insts, .nid, .parts, .streams, .reqs, .serialNo, .ports, .xpt, .til, .dram, .dir, .eng, .hosts, .flt, .sbd, .out] ⊆ A_) (hs_ : Keeps A_ s_ s) : Keeps A_ s_ (dramWrite t l e s) := by
  refine Keeps.comp ?_ ha_ hs_
  clear hs_ ha_; unfold dramWrite
  try dsimp only
  repeat' first
    | with_reducible exact Keeps.refl _ _
    | with_reducible apply opDone_keeps
    | with_reducible apply settle_keeps
    | with_reducible apply serveOp_keeps
    | with_reducible apply readCodeword_keeps
    | with_reducible refine Keeps.pair1 (p := readCodeword _ _ _ _ _) (by assumption) ?_
    | with_reducible apply poisonWrite_keeps
    | with_reducible apply writeLine_keeps
    | with_reducible refine Keeps.ite ?_ ?_
    | (show (_ : List Area) ⊆ _; decide)
    | split
    | dsimp only

theorem execDramReadComplete_keeps {A_ : List Area} {s_ t_ : State} {tier : Tier} {line : BitVec 36} {e : EccErr} {s : State} (h_ : execDramReadComplete tier line e s = .next t_)
    (ha_ : [.insts, .nid, .parts, .streams, .reqs, .serialNo, .ports, .xpt, .til, .dram, .dir, .eng, .hosts, .flt, .sbd, .out] ⊆ A_) (hs_ : Keeps A_ s_ s) : Keeps A_ s_ t_ := by
  refine Keeps.comp ?_ ha_ hs_
  clear hs_ ha_; unfold execDramReadComplete at h_
  try dsimp only at h_
  all_goals first | with_reducible exact Keeps.of_fault h_ | (with_reducible obtain rfl := Host.Outcome.next.inj h_) | skip
  repeat' first
    | with_reducible exact Keeps.refl _ _
    | with_reducible apply dramRead_keeps
    | with_reducible refine whileAlive_keeps (fun _ => ?_) ?_
    | (show (_ : List Area) ⊆ _; decide)

theorem execDramWriteComplete_keeps {A_ : List Area} {s_ t_ : State} {tier : Tier} {line : BitVec 36} {e : EccErr} {s : State} (h_ : execDramWriteComplete tier line e s = .next t_)
    (ha_ : [.insts, .nid, .parts, .streams, .reqs, .serialNo, .ports, .xpt, .til, .dram, .dir, .eng, .hosts, .flt, .sbd, .out] ⊆ A_) (hs_ : Keeps A_ s_ s) : Keeps A_ s_ t_ := by
  refine Keeps.comp ?_ ha_ hs_
  clear hs_ ha_; unfold execDramWriteComplete at h_
  try dsimp only at h_
  all_goals first | with_reducible exact Keeps.of_fault h_ | (with_reducible obtain rfl := Host.Outcome.next.inj h_) | skip
  repeat' first
    | with_reducible exact Keeps.refl _ _
    | with_reducible apply dramWrite_keeps
    | with_reducible refine whileAlive_keeps (fun _ => ?_) ?_
    | (show (_ : List Area) ⊆ _; decide)

theorem strayAns_keeps {A_ : List Area} {s_ : State} {s : State}
    (ha_ : [.dir] ⊆ A_) (hs_ : Keeps A_ s_ s) : Keeps A_ s_ (strayAns s) := by
  refine Keeps.comp ?_ ha_ hs_
  clear hs_ ha_; unfold strayAns
  try dsimp only
  repeat' first
    | with_reducible exact Keeps.refl _ _
    | exact Or.inr (by decide)
    | with_reducible exact Or.inl rfl
    | (show (_ : List Area) ⊆ _; decide)
    | with_reducible apply Keeps.mk
    | dsimp only
    | exact Or.inl rfl

theorem snoopAnswer_keeps {A_ : List Area} {s_ : State} {m : Msg} {ans : AgentAns} {s : State}
    (ha_ : [.streams, .reqs, .ports, .xpt, .dram, .dir] ⊆ A_) (hs_ : Keeps A_ s_ s) : Keeps A_ s_ (snoopAnswer m ans s) := by
  refine Keeps.comp ?_ ha_ hs_
  clear hs_ ha_; unfold snoopAnswer
  try dsimp only
  repeat' first
    | with_reducible exact Keeps.refl _ _
    | with_reducible apply strayAns_keeps
    | with_reducible apply settle_keeps
    | with_reducible apply agentAnswer_keeps
    | (show (_ : List Area) ⊆ _; decide)
    | split
    | dsimp only

theorem stashAnswer_keeps {A_ : List Area} {s_ : State} {m : Msg} {accept : Bool} {s : State}
    (ha_ : [.streams, .reqs, .ports, .xpt, .dram, .dir] ⊆ A_) (hs_ : Keeps A_ s_ s) : Keeps A_ s_ (stashAnswer m accept s) := by
  refine Keeps.comp ?_ ha_ hs_
  clear hs_ ha_; unfold stashAnswer
  try dsimp only
  repeat' first
    | with_reducible exact Keeps.refl _ _
    | with_reducible apply strayAns_keeps
    | with_reducible apply settle_keeps
    | with_reducible apply useEnt_keeps
    | with_reducible apply dropTrk_keeps
    | with_reducible apply State.setEnt_keeps
    | exact Or.inr (by decide)
    | with_reducible exact Or.inl rfl
    | (show (_ : List Area) ⊆ _; decide)
    | split
    | with_reducible apply Keeps.mk
    | dsimp only
    | exact Or.inl rfl

theorem compAckAnswer_keeps {A_ : List Area} {s_ : State} {m : Msg} {s : State}
    (ha_ : [.streams, .reqs, .ports, .xpt, .dram, .dir] ⊆ A_) (hs_ : Keeps A_ s_ s) : Keeps A_ s_ (compAckAnswer m s) := by
  refine Keeps.comp ?_ ha_ hs_
  clear hs_ ha_; unfold compAckAnswer
  try dsimp only
  repeat' first
    | with_reducible exact Keeps.refl _ _
    | with_reducible apply strayAns_keeps
    | with_reducible apply settle_keeps
    | with_reducible apply dropTrk_keeps
    | (show (_ : List Area) ⊆ _; decide)
    | split
    | dsimp only

theorem engineLine_keeps {A_ : List Area} {s_ : State} {u : EngUse} {wr : Bool} {t : Tier} {l : Nat} {keyT : Nat} {s : State}
    (ha_ : [.ports, .xpt, .dir] ⊆ A_) (hs_ : Keeps A_ s_ s) : Keeps A_ s_ (engineLine u wr t l keyT s).2 := by
  refine Keeps.comp ?_ ha_ hs_
  clear hs_ ha_; unfold engineLine
  try dsimp only
  repeat' first
    | with_reducible exact Keeps.refl _ _
    | with_reducible apply unpend_keeps
    | with_reducible apply pendItem_keeps
    | with_reducible apply clearDead_keeps
    | with_reducible refine Keeps.pair1 (p := clearDead _ _ _) (by assumption) ?_
    | with_reducible apply useEnt_keeps
    | with_reducible apply toAgent_keeps
    | with_reducible apply addTrk_keeps
    | with_reducible apply State.setEnt_keeps
    | with_reducible refine Keeps.foldl (fun _ _ => ?_) _ ?_
    | with_reducible refine Keeps.ite ?_ ?_
    | (show (_ : List Area) ⊆ _; decide)
    | split
    | dsimp only

theorem logSnoopTmo_keeps {A_ : List Area} {s_ : State} {k : Trk} {a : Nat} {s : State}
    (ha_ : [.dir, .hosts, .flt, .sbd, .out] ⊆ A_) (hs_ : Keeps A_ s_ s) : Keeps A_ s_ (logSnoopTmo k a s) := by
  refine Keeps.comp ?_ ha_ hs_
  clear hs_ ha_; unfold logSnoopTmo
  try dsimp only
  repeat' first
    | with_reducible exact Keeps.refl _ _
    | with_reducible apply recordFault_keeps
    | exact Or.inr (by decide)
    | with_reducible exact Or.inl rfl
    | (show (_ : List Area) ⊆ _; decide)
    | split
    | with_reducible apply Keeps.mk
    | dsimp only
    | exact Or.inl rfl

theorem departOwner_keeps {A_ : List Area} {s_ : State} {calm : Bool} {slot : Nat} {s : State}
    (ha_ : [.til, .dram, .dir, .hosts, .flt, .sbd, .out] ⊆ A_) (hs_ : Keeps A_ s_ s) : Keeps A_ s_ (departOwner calm slot s) := by
  refine Keeps.comp ?_ ha_ hs_
  clear hs_ ha_; unfold departOwner
  try dsimp only
  repeat' first
    | with_reducible exact Keeps.refl _ _
    | with_reducible apply poisonLine_keeps
    | with_reducible refine Keeps.ite ?_ ?_
    | exact Or.inr (by decide)
    | with_reducible exact Or.inl rfl
    | (show (_ : List Area) ⊆ _; decide)
    | split
    | with_reducible apply Keeps.mk
    | dsimp only
    | exact Or.inl rfl

theorem expireAwait_keeps {A_ : List Area} {s_ : State} {k : Trk} {a : Nat} {s : State}
    (ha_ : [.til, .dram, .dir, .hosts, .flt, .sbd, .out] ⊆ A_) (hs_ : Keeps A_ s_ s) : Keeps A_ s_ (expireAwait k a s) := by
  refine Keeps.comp ?_ ha_ hs_
  clear hs_ ha_; unfold expireAwait
  try dsimp only
  repeat' first
    | with_reducible exact Keeps.refl _ _
    | with_reducible apply departOwner_keeps
    | with_reducible apply logSnoopTmo_keeps
    | with_reducible apply agentAnswer_keeps
    | with_reducible apply dropTrk_keeps
    | with_reducible refine Keeps.ite ?_ ?_
    | exact Or.inr (by decide)
    | with_reducible exact Or.inl rfl
    | (show (_ : List Area) ⊆ _; decide)
    | split
    | with_reducible apply Keeps.mk
    | dsimp only
    | exact Or.inl rfl

theorem snoopTimeoutAt_keeps {A_ : List Area} {s_ : State} {slot : Nat} {s : State}
    (ha_ : [.streams, .reqs, .ports, .xpt, .til, .dram, .dir, .hosts, .flt, .sbd, .out] ⊆ A_) (hs_ : Keeps A_ s_ s) : Keeps A_ s_ (snoopTimeoutAt slot s) := by
  refine Keeps.comp ?_ ha_ hs_
  clear hs_ ha_; unfold snoopTimeoutAt
  try dsimp only
  repeat' first
    | with_reducible exact Keeps.refl _ _
    | with_reducible apply expireAwait_keeps
    | with_reducible apply settle_keeps
    | with_reducible refine Keeps.foldl (fun _ _ => ?_) _ ?_
    | (show (_ : List Area) ⊆ _; decide)
    | split
    | dsimp only

theorem execSnoopTimeout_keeps {A_ : List Area} {s_ t_ : State} {slot : Nat} {s : State} (h_ : execSnoopTimeout slot s = .next t_)
    (ha_ : [.streams, .reqs, .ports, .xpt, .til, .dram, .dir, .hosts, .flt, .sbd, .out] ⊆ A_) (hs_ : Keeps A_ s_ s) : Keeps A_ s_ t_ := by
  refine Keeps.comp ?_ ha_ hs_
  clear hs_ ha_; unfold execSnoopTimeout at h_
  try dsimp only at h_
  all_goals first | with_reducible exact Keeps.of_fault h_ | (with_reducible obtain rfl := Host.Outcome.next.inj h_) | skip
  repeat' first
    | with_reducible exact Keeps.refl _ _
    | with_reducible apply snoopTimeoutAt_keeps
    | with_reducible refine whileAlive_keeps (fun _ => ?_) ?_
    | (show (_ : List Area) ⊆ _; decide)

theorem recallTile_keeps {A_ : List Area} {s_ : State} {t : Tier} {p : Nat} {c : RecallCause} {s : State}
    (ha_ : [.ports, .xpt, .dir] ⊆ A_) (hs_ : Keeps A_ s_ s) : Keeps A_ s_ (recallTile t p c s) := by
  refine Keeps.comp ?_ ha_ hs_
  clear hs_ ha_; unfold recallTile
  try dsimp only
  repeat' first
    | with_reducible exact Keeps.refl _ _
    | with_reducible apply startRecalls_keeps
    | exact Or.inr (by decide)
    | with_reducible exact Or.inl rfl
    | (show (_ : List Area) ⊆ _; decide)
    | with_reducible apply Keeps.mk
    | dsimp only
    | exact Or.inl rfl

theorem execTileRecall_keeps {A_ : List Area} {s_ t_ : State} {tier : Tier} {phys : BitVec 22} {c : RecallCause} {s : State} (h_ : execTileRecall tier phys c s = .next t_)
    (ha_ : [.streams, .reqs, .ports, .xpt, .dram, .dir] ⊆ A_) (hs_ : Keeps A_ s_ s) : Keeps A_ s_ t_ := by
  refine Keeps.comp ?_ ha_ hs_
  clear hs_ ha_; unfold execTileRecall at h_
  try dsimp only at h_
  all_goals first | with_reducible exact Keeps.of_fault h_ | (with_reducible obtain rfl := Host.Outcome.next.inj h_) | skip
  repeat' first
    | with_reducible exact Keeps.refl _ _
    | with_reducible apply recallTile_keeps
    | with_reducible apply settle_keeps
    | with_reducible refine whileAlive_keeps (fun _ => ?_) ?_
    | with_reducible refine Keeps.ite ?_ ?_
    | (show (_ : List Area) ⊆ _; decide)
    | split
    | dsimp only

theorem sweepAgent_keeps {A_ : List Area} {s_ : State} {a : Nat} {s : State}
    (ha_ : [.til, .dram, .dir, .hosts, .flt, .sbd, .out] ⊆ A_) (hs_ : Keeps A_ s_ s) : Keeps A_ s_ (sweepAgent a s) := by
  refine Keeps.comp ?_ ha_ hs_
  clear hs_ ha_; unfold sweepAgent
  try dsimp only
  repeat' first
    | with_reducible exact Keeps.refl _ _
    | with_reducible apply departOwner_keeps
    | with_reducible apply State.setEnt_keeps
    | with_reducible refine Keeps.foldl (fun _ _ => ?_) _ ?_
    | with_reducible refine Keeps.ite ?_ ?_
    | (show (_ : List Area) ⊆ _; decide)
    | split
    | dsimp only

theorem execAgentRelease_keeps {A_ : List Area} {s_ t_ : State} {fn : Fn} {m : MbxHdr} {endpoint : BitVec 16} {s : State} (h_ : execAgentRelease fn m endpoint s = .next t_)
    (ha_ : [.serialNo, .til, .dram, .dir, .hosts, .flt, .sbd, .out] ⊆ A_) (hs_ : Keeps A_ s_ s) : Keeps A_ s_ t_ := by
  refine Keeps.comp ?_ ha_ hs_
  clear hs_ ha_; unfold execAgentRelease at h_
  try dsimp only at h_
  all_goals first | with_reducible exact Keeps.of_fault h_ | (with_reducible obtain rfl := Host.Outcome.next.inj h_) | skip
  repeat' first
    | with_reducible exact Keeps.refl _ _
    | with_reducible apply sweepAgent_keeps
    | with_reducible refine mailbox_keeps (fun _ _ => ?_) ?_ ?_
    | with_reducible apply answer_keeps
    | with_reducible refine Keeps.ite ?_ ?_
    | exact Or.inr (by decide)
    | with_reducible exact Or.inl rfl
    | (show (_ : List Area) ⊆ _; decide)
    | split
    | with_reducible apply Keeps.mk
    | dsimp only
    | exact Or.inl rfl

theorem agentSwept_keeps {A_ : List Area} {s_ : State} {a : Nat} {s : State}
    (ha_ : [.til, .dram, .dir, .hosts, .flt, .sbd, .out] ⊆ A_) (hs_ : Keeps A_ s_ s) : Keeps A_ s_ (agentSwept a s) := by
  refine Keeps.comp ?_ ha_ hs_
  clear hs_ ha_; unfold agentSwept
  try dsimp only
  repeat' first
    | with_reducible exact Keeps.refl _ _
    | with_reducible apply sweepAgent_keeps
    | with_reducible apply answer_keeps
    | with_reducible refine Keeps.foldl (fun _ _ => ?_) _ ?_
    | exact Or.inr (by decide)
    | with_reducible exact Or.inl rfl
    | (show (_ : List Area) ⊆ _; decide)
    | split
    | with_reducible apply Keeps.mk
    | dsimp only
    | exact Or.inl rfl

theorem execAgentSweepDone_keeps {A_ : List Area} {s_ t_ : State} {k : Fin 1024} {s : State} (h_ : execAgentSweepDone k s = .next t_)
    (ha_ : [.til, .dram, .dir, .hosts, .flt, .sbd, .out] ⊆ A_) (hs_ : Keeps A_ s_ s) : Keeps A_ s_ t_ := by
  refine Keeps.comp ?_ ha_ hs_
  clear hs_ ha_; unfold execAgentSweepDone at h_
  try dsimp only at h_
  all_goals first | with_reducible exact Keeps.of_fault h_ | (with_reducible obtain rfl := Host.Outcome.next.inj h_) | skip
  repeat' first
    | with_reducible exact Keeps.refl _ _
    | with_reducible apply agentSwept_keeps
    | with_reducible refine whileAlive_keeps (fun _ => ?_) ?_
    | (show (_ : List Area) ⊆ _; decide)

end Sys2Proof.Machine
end

