-- ==== Sys2Proof/Laws/Frame/Fabric.lean ====
section
/-! SUPPORT. The frame of every operation of Machine/Fabric.lean: the areas it may change, and that pool memory keeps its canonical form. -/

namespace Sys2Proof.Machine

set_option linter.unusedTactic false
set_option linter.unreachableTactic false
set_option linter.unusedVariables false

/-- The state the repeat check leads to, where it answers. -/
def RepeatRes.st : RepeatRes → Option State
  | .fresh => none
  | .answered s => some s

theorem cntNoGrant_keeps {A_ : List Area} {s_ : State} {s : State}
    (ha_ : [.xpt] ⊆ A_) (hs_ : Keeps A_ s_ s) : Keeps A_ s_ (cntNoGrant s) := by
  refine Keeps.comp ?_ ha_ hs_
  clear hs_ ha_; unfold cntNoGrant
  try dsimp only
  repeat' first
    | with_reducible exact Keeps.refl _ _
    | exact Or.inr (by decide)
    | with_reducible exact Or.inl rfl
    | (show (_ : List Area) ⊆ _; decide)
    | with_reducible apply Keeps.mk
    | dsimp only
    | exact Or.inl rfl

theorem cntDiscard_keeps {A_ : List Area} {s_ : State} {s : State}
    (ha_ : [.xpt] ⊆ A_) (hs_ : Keeps A_ s_ s) : Keeps A_ s_ (cntDiscard s) := by
  refine Keeps.comp ?_ ha_ hs_
  clear hs_ ha_; unfold cntDiscard
  try dsimp only
  repeat' first
    | with_reducible exact Keeps.refl _ _
    | exact Or.inr (by decide)
    | with_reducible exact Or.inl rfl
    | (show (_ : List Area) ⊆ _; decide)
    | with_reducible apply Keeps.mk
    | dsimp only
    | exact Or.inl rfl

theorem cntUnrouted_keeps {A_ : List Area} {s_ : State} {s : State}
    (ha_ : [.xpt] ⊆ A_) (hs_ : Keeps A_ s_ s) : Keeps A_ s_ (cntUnrouted s) := by
  refine Keeps.comp ?_ ha_ hs_
  clear hs_ ha_; unfold cntUnrouted
  try dsimp only
  repeat' first
    | with_reducible exact Keeps.refl _ _
    | exact Or.inr (by decide)
    | with_reducible exact Or.inl rfl
    | (show (_ : List Area) ⊆ _; decide)
    | with_reducible apply Keeps.mk
    | dsimp only
    | exact Or.inl rfl

theorem fwdAnswered_keeps {A_ : List Area} {s_ : State} {p : Nat} {cls : MsgClass} {m : Msg} {s : State}
    (ha_ : [.ports] ⊆ A_) (hs_ : Keeps A_ s_ s) : Keeps A_ s_ (fwdAnswered p cls m s) := by
  refine Keeps.comp ?_ ha_ hs_
  clear hs_ ha_; unfold fwdAnswered
  try dsimp only
  repeat' first
    | with_reducible exact Keeps.refl _ _
    | with_reducible apply State.setPort_keeps
    | exact Or.inr (by decide)
    | with_reducible exact Or.inl rfl
    | (show (_ : List Area) ⊆ _; decide)
    | split
    | with_reducible apply Keeps.mk
    | dsimp only
    | exact Or.inl rfl

theorem newFwd_keeps {A_ : List Area} {s_ : State} {p : Fin 32} {m : Msg} {s : State}
    (ha_ : [.xpt] ⊆ A_) (hs_ : Keeps A_ s_ s) : Keeps A_ s_ (newFwd p m s) := by
  refine Keeps.comp ?_ ha_ hs_
  clear hs_ ha_; unfold newFwd
  try dsimp only
  repeat' first
    | with_reducible exact Keeps.refl _ _
    | exact Or.inr (by decide)
    | with_reducible exact Or.inl rfl
    | (show (_ : List Area) ⊆ _; decide)
    | with_reducible apply Keeps.mk
    | dsimp only
    | exact Or.inl rfl

theorem routeMsg_keeps {A_ : List Area} {s_ : State} {p : Fin 32} {cls : MsgClass} {m : Msg} {s : State}
    (ha_ : [.ports, .xpt] ⊆ A_) (hs_ : Keeps A_ s_ s) : Keeps A_ s_ (routeMsg p cls m s) := by
  refine Keeps.comp ?_ ha_ hs_
  clear hs_ ha_; unfold routeMsg
  try dsimp only
  repeat' first
    | with_reducible exact Keeps.refl _ _
    | with_reducible apply newFwd_keeps
    | with_reducible apply fwdAnswered_keeps
    | with_reducible apply cntUnrouted_keeps
    | with_reducible apply taggedAnswer_keeps
    | with_reducible apply enqueue_keeps
    | with_reducible refine Keeps.ite ?_ ?_
    | exact Or.inr (by decide)
    | with_reducible exact Or.inl rfl
    | (show (_ : List Area) ⊆ _; decide)
    | split
    | with_reducible apply Keeps.mk
    | dsimp only
    | exact Or.inl rfl

theorem forwardMsg_keeps {A_ : List Area} {s_ : State} {p : Fin 32} {cls : MsgClass} {m : Msg} {s : State}
    (ha_ : [.ports, .xpt] ⊆ A_) (hs_ : Keeps A_ s_ s) : Keeps A_ s_ (forwardMsg p cls m s) := by
  refine Keeps.comp ?_ ha_ hs_
  clear hs_ ha_; unfold forwardMsg
  try dsimp only
  repeat' first
    | with_reducible exact Keeps.refl _ _
    | with_reducible apply routeMsg_keeps
    | with_reducible apply cntNoGrant_keeps
    | with_reducible apply taggedAnswer_keeps
    | with_reducible refine Keeps.ite ?_ ?_
    | (show (_ : List Area) ⊆ _; decide)
    | split
    | dsimp only

theorem cntRepeat_keeps {A_ : List Area} {s_ : State} {s : State}
    (ha_ : [.xpt] ⊆ A_) (hs_ : Keeps A_ s_ s) : Keeps A_ s_ (cntRepeat s) := by
  refine Keeps.comp ?_ ha_ hs_
  clear hs_ ha_; unfold cntRepeat
  try dsimp only
  repeat' first
    | with_reducible exact Keeps.refl _ _
    | exact Or.inr (by decide)
    | with_reducible exact Or.inl rfl
    | (show (_ : List Area) ⊆ _; decide)
    | with_reducible apply Keeps.mk
    | dsimp only
    | exact Or.inl rfl

theorem repeatCheck_keeps {A_ : List Area} {s_ t_ : State} {p : Fin 32} {m : Msg} {tags : List (Nat × BitVec 16)} {s : State} (h_ : (repeatCheck p m tags s).st = some t_)
    (ha_ : [.streams, .ports, .xpt] ⊆ A_) (hs_ : Keeps A_ s_ s) : Keeps A_ s_ t_ := by
  refine Keeps.comp ?_ ha_ hs_
  clear hs_ ha_; unfold repeatCheck at h_
  try dsimp only at h_
  repeat' (split at h_)
  all_goals try dsimp only [RepeatRes.st] at h_
  all_goals first | with_reducible exact Keeps.of_none h_ | (with_reducible obtain rfl := Option.some.inj h_) | skip
  repeat' first
    | with_reducible exact Keeps.refl _ _
    | with_reducible apply cntRepeat_keeps
    | with_reducible apply taggedAnswer_keeps
    | with_reducible apply enqueue_keeps
    | with_reducible apply State.setStream_keeps
    | with_reducible refine Keeps.ite ?_ ?_
    | exact Or.inr (by decide)
    | with_reducible exact Or.inl rfl
    | (show (_ : List Area) ⊆ _; decide)
    | split
    | with_reducible apply Keeps.mk
    | dsimp only
    | exact Or.inl rfl

theorem enterRecord_keeps {A_ : List Area} {s_ : State} {m : Msg} {s : State}
    (ha_ : [.streams] ⊆ A_) (hs_ : Keeps A_ s_ s) : Keeps A_ s_ (enterRecord m s) := by
  refine Keeps.comp ?_ ha_ hs_
  clear hs_ ha_; unfold enterRecord
  try dsimp only
  repeat' first
    | with_reducible exact Keeps.refl _ _
    | with_reducible apply State.setStream_keeps
    | with_reducible refine Keeps.ite ?_ ?_
    | exact Or.inr (by decide)
    | with_reducible exact Or.inl rfl
    | (show (_ : List Area) ⊆ _; decide)
    | split
    | with_reducible apply Keeps.mk
    | dsimp only
    | exact Or.inl rfl

theorem acceptReq_keeps {A_ : List Area} {s_ : State} {p : Fin 32} {m : Msg} {s : State}
    (ha_ : [.streams, .reqs, .serialNo, .ports, .xpt, .dram, .dir] ⊆ A_) (hs_ : Keeps A_ s_ s) : Keeps A_ s_ (acceptReq p m s) := by
  refine Keeps.comp ?_ ha_ hs_
  clear hs_ ha_; unfold acceptReq
  try dsimp only
  repeat' first
    | with_reducible exact Keeps.refl _ _
    | with_reducible apply enterRecord_keeps
    | with_reducible apply startReq_keeps
    | refine registerAgent_keeps (by assumption) ?_ ?_
    | with_reducible apply finishReq_keeps
    | with_reducible apply State.setReq_keeps
    | with_reducible refine Keeps.ite ?_ ?_
    | exact Or.inr (by decide)
    | with_reducible exact Or.inl rfl
    | (show (_ : List Area) ⊆ _; decide)
    | split
    | with_reducible apply Keeps.mk
    | dsimp only
    | exact Or.inl rfl

theorem ingress_keeps {A_ : List Area} {s_ : State} {p : Fin 32} {m : Msg} {s : State}
    (ha_ : [.streams, .reqs, .serialNo, .ports, .xpt, .dram, .dir] ⊆ A_) (hs_ : Keeps A_ s_ s) : Keeps A_ s_ (ingress p m s) := by
  refine Keeps.comp ?_ ha_ hs_
  clear hs_ ha_; unfold ingress
  try dsimp only
  repeat' first
    | with_reducible exact Keeps.refl _ _
    | with_reducible apply acceptReq_keeps
    | refine repeatCheck_keeps ((congrArg RepeatRes.st (by assumption)).trans rfl) ?_ ?_
    | with_reducible apply forwardMsg_keeps
    | with_reducible apply settle_keeps
    | with_reducible apply rxFree_keeps
    | with_reducible apply taggedAnswer_keeps
    | with_reducible refine Keeps.ite ?_ ?_
    | (show (_ : List Area) ⊆ _; decide)
    | split
    | dsimp only

theorem execRdShared_keeps {A_ : List Area} {s_ t_ : State} {p : Fin 32} {m : Msg} {s : State} (h_ : execRdShared p m s = .next t_)
    (ha_ : [.streams, .reqs, .serialNo, .ports, .xpt, .dram, .dir] ⊆ A_) (hs_ : Keeps A_ s_ s) : Keeps A_ s_ t_ := by
  refine Keeps.comp ?_ ha_ hs_
  clear hs_ ha_; unfold execRdShared at h_
  try dsimp only at h_
  all_goals first | with_reducible exact Keeps.of_fault h_ | (with_reducible obtain rfl := Host.Outcome.next.inj h_) | skip
  repeat' first
    | with_reducible exact Keeps.refl _ _
    | with_reducible apply ingress_keeps
    | with_reducible refine whileAlive_keeps (fun _ => ?_) ?_
    | exact Or.inr (by decide)
    | with_reducible exact Or.inl rfl
    | (show (_ : List Area) ⊆ _; decide)
    | with_reducible apply Keeps.mk
    | dsimp only
    | exact Or.inl rfl

theorem execRdUnique_keeps {A_ : List Area} {s_ t_ : State} {p : Fin 32} {m : Msg} {s : State} (h_ : execRdUnique p m s = .next t_)
    (ha_ : [.streams, .reqs, .serialNo, .ports, .xpt, .dram, .dir] ⊆ A_) (hs_ : Keeps A_ s_ s) : Keeps A_ s_ t_ := by
  refine Keeps.comp ?_ ha_ hs_
  clear hs_ ha_; unfold execRdUnique at h_
  try dsimp only at h_
  all_goals first | with_reducible exact Keeps.of_fault h_ | (with_reducible obtain rfl := Host.Outcome.next.inj h_) | skip
  repeat' first
    | with_reducible exact Keeps.refl _ _
    | with_reducible apply ingress_keeps
    | with_reducible refine whileAlive_keeps (fun _ => ?_) ?_
    | exact Or.inr (by decide)
    | with_reducible exact Or.inl rfl
    | (show (_ : List Area) ⊆ _; decide)
    | with_reducible apply Keeps.mk
    | dsimp only
    | exact Or.inl rfl

theorem execRdOnce_keeps {A_ : List Area} {s_ t_ : State} {p : Fin 32} {m : Msg} {s : State} (h_ : execRdOnce p m s = .next t_)
    (ha_ : [.streams, .reqs, .serialNo, .ports, .xpt, .dram, .dir] ⊆ A_) (hs_ : Keeps A_ s_ s) : Keeps A_ s_ t_ := by
  refine Keeps.comp ?_ ha_ hs_
  clear hs_ ha_; unfold execRdOnce at h_
  try dsimp only at h_
  all_goals first | with_reducible exact Keeps.of_fault h_ | (with_reducible obtain rfl := Host.Outcome.next.inj h_) | skip
  repeat' first
    | with_reducible exact Keeps.refl _ _
    | with_reducible apply ingress_keeps
    | with_reducible refine whileAlive_keeps (fun _ => ?_) ?_
    | exact Or.inr (by decide)
    | with_reducible exact Or.inl rfl
    | (show (_ : List Area) ⊆ _; decide)
    | with_reducible apply Keeps.mk
    | dsimp only
    | exact Or.inl rfl

theorem execWrFull_keeps {A_ : List Area} {s_ t_ : State} {p : Fin 32} {m : Msg} {s : State} (h_ : execWrFull p m s = .next t_)
    (ha_ : [.streams, .reqs, .serialNo, .ports, .xpt, .dram, .dir] ⊆ A_) (hs_ : Keeps A_ s_ s) : Keeps A_ s_ t_ := by
  refine Keeps.comp ?_ ha_ hs_
  clear hs_ ha_; unfold execWrFull at h_
  try dsimp only at h_
  all_goals first | with_reducible exact Keeps.of_fault h_ | (with_reducible obtain rfl := Host.Outcome.next.inj h_) | skip
  repeat' first
    | with_reducible exact Keeps.refl _ _
    | with_reducible apply ingress_keeps
    | with_reducible refine whileAlive_keeps (fun _ => ?_) ?_
    | exact Or.inr (by decide)
    | with_reducible exact Or.inl rfl
    | (show (_ : List Area) ⊆ _; decide)
    | with_reducible apply Keeps.mk
    | dsimp only
    | exact Or.inl rfl

theorem execWrStash_keeps {A_ : List Area} {s_ t_ : State} {p : Fin 32} {m : Msg} {s : State} (h_ : execWrStash p m s = .next t_)
    (ha_ : [.streams, .reqs, .serialNo, .ports, .xpt, .dram, .dir] ⊆ A_) (hs_ : Keeps A_ s_ s) : Keeps A_ s_ t_ := by
  refine Keeps.comp ?_ ha_ hs_
  clear hs_ ha_; unfold execWrStash at h_
  try dsimp only at h_
  all_goals first | with_reducible exact Keeps.of_fault h_ | (with_reducible obtain rfl := Host.Outcome.next.inj h_) | skip
  repeat' first
    | with_reducible exact Keeps.refl _ _
    | with_reducible apply ingress_keeps
    | with_reducible refine whileAlive_keeps (fun _ => ?_) ?_
    | exact Or.inr (by decide)
    | with_reducible exact Or.inl rfl
    | (show (_ : List Area) ⊆ _; decide)
    | with_reducible apply Keeps.mk
    | dsimp only
    | exact Or.inl rfl

theorem execWbDirty_keeps {A_ : List Area} {s_ t_ : State} {p : Fin 32} {m : Msg} {s : State} (h_ : execWbDirty p m s = .next t_)
    (ha_ : [.streams, .reqs, .serialNo, .ports, .xpt, .dram, .dir] ⊆ A_) (hs_ : Keeps A_ s_ s) : Keeps A_ s_ t_ := by
  refine Keeps.comp ?_ ha_ hs_
  clear hs_ ha_; unfold execWbDirty at h_
  try dsimp only at h_
  all_goals first | with_reducible exact Keeps.of_fault h_ | (with_reducible obtain rfl := Host.Outcome.next.inj h_) | skip
  repeat' first
    | with_reducible exact Keeps.refl _ _
    | with_reducible apply ingress_keeps
    | with_reducible refine whileAlive_keeps (fun _ => ?_) ?_
    | exact Or.inr (by decide)
    | with_reducible exact Or.inl rfl
    | (show (_ : List Area) ⊆ _; decide)
    | with_reducible apply Keeps.mk
    | dsimp only
    | exact Or.inl rfl

theorem execEvictClean_keeps {A_ : List Area} {s_ t_ : State} {p : Fin 32} {m : Msg} {s : State} (h_ : execEvictClean p m s = .next t_)
    (ha_ : [.streams, .reqs, .serialNo, .ports, .xpt, .dram, .dir] ⊆ A_) (hs_ : Keeps A_ s_ s) : Keeps A_ s_ t_ := by
  refine Keeps.comp ?_ ha_ hs_
  clear hs_ ha_; unfold execEvictClean at h_
  try dsimp only at h_
  all_goals first | with_reducible exact Keeps.of_fault h_ | (with_reducible obtain rfl := Host.Outcome.next.inj h_) | skip
  repeat' first
    | with_reducible exact Keeps.refl _ _
    | with_reducible apply ingress_keeps
    | with_reducible refine whileAlive_keeps (fun _ => ?_) ?_
    | exact Or.inr (by decide)
    | with_reducible exact Or.inl rfl
    | (show (_ : List Area) ⊆ _; decide)
    | with_reducible apply Keeps.mk
    | dsimp only
    | exact Or.inl rfl

theorem execAtOp_keeps {A_ : List Area} {s_ t_ : State} {p : Fin 32} {m : Msg} {s : State} (h_ : execAtOp p m s = .next t_)
    (ha_ : [.streams, .reqs, .serialNo, .ports, .xpt, .dram, .dir] ⊆ A_) (hs_ : Keeps A_ s_ s) : Keeps A_ s_ t_ := by
  refine Keeps.comp ?_ ha_ hs_
  clear hs_ ha_; unfold execAtOp at h_
  try dsimp only at h_
  all_goals first | with_reducible exact Keeps.of_fault h_ | (with_reducible obtain rfl := Host.Outcome.next.inj h_) | skip
  repeat' first
    | with_reducible exact Keeps.refl _ _
    | with_reducible apply ingress_keeps
    | with_reducible refine whileAlive_keeps (fun _ => ?_) ?_
    | exact Or.inr (by decide)
    | with_reducible exact Or.inl rfl
    | (show (_ : List Area) ⊆ _; decide)
    | with_reducible apply Keeps.mk
    | dsimp only
    | exact Or.inl rfl

theorem execMcastRead_keeps {A_ : List Area} {s_ t_ : State} {p : Fin 32} {m : Msg} {s : State} (h_ : execMcastRead p m s = .next t_)
    (ha_ : [.streams, .reqs, .serialNo, .ports, .xpt, .dram, .dir] ⊆ A_) (hs_ : Keeps A_ s_ s) : Keeps A_ s_ t_ := by
  refine Keeps.comp ?_ ha_ hs_
  clear hs_ ha_; unfold execMcastRead at h_
  try dsimp only at h_
  all_goals first | with_reducible exact Keeps.of_fault h_ | (with_reducible obtain rfl := Host.Outcome.next.inj h_) | skip
  repeat' first
    | with_reducible exact Keeps.refl _ _
    | with_reducible apply ingress_keeps
    | with_reducible refine whileAlive_keeps (fun _ => ?_) ?_
    | exact Or.inr (by decide)
    | with_reducible exact Or.inl rfl
    | (show (_ : List Area) ⊆ _; decide)
    | with_reducible apply Keeps.mk
    | dsimp only
    | exact Or.inl rfl

theorem execReqReserved_keeps {A_ : List Area} {s_ t_ : State} {p : Fin 32} {m : Msg} {s : State} (h_ : execReqReserved p m s = .next t_)
    (ha_ : [.streams, .reqs, .serialNo, .ports, .xpt, .dram, .dir] ⊆ A_) (hs_ : Keeps A_ s_ s) : Keeps A_ s_ t_ := by
  refine Keeps.comp ?_ ha_ hs_
  clear hs_ ha_; unfold execReqReserved at h_
  try dsimp only at h_
  all_goals first | with_reducible exact Keeps.of_fault h_ | (with_reducible obtain rfl := Host.Outcome.next.inj h_) | skip
  repeat' first
    | with_reducible exact Keeps.refl _ _
    | with_reducible apply ingress_keeps
    | with_reducible refine whileAlive_keeps (fun _ => ?_) ?_
    | (show (_ : List Area) ⊆ _; decide)

theorem arrive_keeps {A_ : List Area} {s_ s : State} {p : Fin 32} {cls : MsgClass} {m : Msg} {f : State → State}
    (hf_ : ∀ t, Keeps A_ t (f t)) (ha_ : [.ports, .xpt] ⊆ A_) (hs_ : Keeps A_ s_ s) : Keeps A_ s_ (arrive p cls m f s) := by
  have h1 := rxFree_keeps (n := p.val) (vc := cls.vc) (List.Subset.trans (by decide) ha_) hs_
  unfold arrive
  exact Keeps.ite hs_ (Keeps.ite (cntNoGrant_keeps (List.Subset.trans (by decide) ha_) h1)
    (Keeps.ite (cntDiscard_keeps (List.Subset.trans (by decide) ha_) h1)
      (Keeps.ite (Keeps.comp (hf_ _) (List.Subset.refl _) h1) (routeMsg_keeps (List.Subset.trans (by decide) ha_) h1))))

theorem execForward_keeps {A_ : List Area} {s_ t_ : State} {p : Fin 32} {cls : MsgClass} {m : Msg} {s : State} (h_ : execForward p cls m s = .next t_)
    (ha_ : [.streams, .reqs, .serialNo, .ports, .xpt, .dram, .dir] ⊆ A_) (hs_ : Keeps A_ s_ s) : Keeps A_ s_ t_ := by
  refine Keeps.comp ?_ ha_ hs_
  clear hs_ ha_; unfold execForward at h_
  try dsimp only at h_
  all_goals first | with_reducible exact Keeps.of_fault h_ | (with_reducible obtain rfl := Host.Outcome.next.inj h_) | skip
  repeat' first
    | with_reducible exact Keeps.refl _ _
    | with_reducible refine arrive_keeps (fun _ => ?_) ?_ ?_
    | with_reducible apply ingress_keeps
    | with_reducible apply cntDiscard_keeps
    | with_reducible refine whileAlive_keeps (fun _ => ?_) ?_
    | with_reducible refine Keeps.ite ?_ ?_
    | (show (_ : List Area) ⊆ _; decide)
    | split
    | dsimp only

theorem execReservedOpcodeDiscard_keeps {A_ : List Area} {s_ t_ : State} {p : Fin 32} {cls : MsgClass} {m : Msg} {s : State}
    (h_ : execReservedOpcodeDiscard p cls m s = .next t_) (ha_ : [.ports, .xpt] ⊆ A_) (hs_ : Keeps A_ s_ s) : Keeps A_ s_ t_ := by
  obtain rfl := Host.Outcome.next.inj h_
  exact whileAlive_keeps (fun t => Keeps.ite (Keeps.refl _ _) (arrive_keeps (f := id) (fun u => Keeps.refl _ u) ha_ (Keeps.refl _ _))) hs_

theorem writeData_keeps {A_ : List Area} {s_ : State} {m : Msg} {s : State}
    (ha_ : [.streams, .reqs, .ports, .xpt, .dram, .dir] ⊆ A_) (hs_ : Keeps A_ s_ s) : Keeps A_ s_ (writeData m s) := by
  refine Keeps.comp ?_ ha_ hs_
  clear hs_ ha_; unfold writeData
  try dsimp only
  repeat' first
    | with_reducible exact Keeps.refl _ _
    | with_reducible apply settle_keeps
    | with_reducible apply startReq_keeps
    | with_reducible apply State.setReq_keeps
    | with_reducible refine Keeps.ite ?_ ?_
    | exact Or.inr (by decide)
    | with_reducible exact Or.inl rfl
    | (show (_ : List Area) ⊆ _; decide)
    | split
    | with_reducible apply Keeps.mk
    | dsimp only
    | exact Or.inl rfl

theorem execDatWrite_keeps {A_ : List Area} {s_ t_ : State} {p : Fin 32} {m : Msg} {s : State} (h_ : execDatWrite p m s = .next t_)
    (ha_ : [.streams, .reqs, .ports, .xpt, .dram, .dir] ⊆ A_) (hs_ : Keeps A_ s_ s) : Keeps A_ s_ t_ := by
  refine Keeps.comp ?_ ha_ hs_
  clear hs_ ha_; unfold execDatWrite at h_
  try dsimp only at h_
  all_goals first | with_reducible exact Keeps.of_fault h_ | (with_reducible obtain rfl := Host.Outcome.next.inj h_) | skip
  repeat' first
    | with_reducible exact Keeps.refl _ _
    | with_reducible apply writeData_keeps
    | with_reducible refine arrive_keeps (fun _ => ?_) ?_ ?_
    | with_reducible refine whileAlive_keeps (fun _ => ?_) ?_
    | exact Or.inr (by decide)
    | with_reducible exact Or.inl rfl
    | (show (_ : List Area) ⊆ _; decide)
    | with_reducible apply Keeps.mk
    | dsimp only
    | exact Or.inl rfl

theorem mcLocalLine_keeps {A_ : List Area} {s_ : State} {g : Nat} {va : Nat} {d : List Byte} {bad : Bool} {p : Fin 32} {s : State}
    (ha_ : [.reqs, .serialNo, .ports, .xpt, .dram, .dir] ⊆ A_) (hs_ : Keeps A_ s_ s) : Keeps A_ s_ (mcLocalLine g va d bad p s) := by
  refine Keeps.comp ?_ ha_ hs_
  clear hs_ ha_; unfold mcLocalLine
  try dsimp only
  repeat' first
    | with_reducible exact Keeps.refl _ _
    | with_reducible apply serveLine_keeps
    | with_reducible refine Keeps.ite ?_ ?_
    | exact Or.inr (by decide)
    | with_reducible exact Or.inl rfl
    | (show (_ : List Area) ⊆ _; decide)
    | split
    | with_reducible apply Keeps.mk
    | dsimp only
    | exact Or.inl rfl

theorem mcLocal_keeps {A_ : List Area} {s_ : State} {g : Nat} {m : Msg} {p : Fin 32} {s : State}
    (ha_ : [.reqs, .serialNo, .ports, .xpt, .dram, .dir] ⊆ A_) (hs_ : Keeps A_ s_ s) : Keeps A_ s_ (mcLocal g m p s) := by
  refine Keeps.comp ?_ ha_ hs_
  clear hs_ ha_; unfold mcLocal
  try dsimp only
  repeat' first
    | with_reducible exact Keeps.refl _ _
    | with_reducible apply mcLocalLine_keeps
    | with_reducible refine Keeps.ite ?_ ?_
    | (show (_ : List Area) ⊆ _; decide)
    | split
    | dsimp only

theorem mcastIn_keeps {A_ : List Area} {s_ : State} {p : Fin 32} {m : Msg} {s : State}
    (ha_ : [.streams, .reqs, .serialNo, .ports, .xpt, .dram, .dir, .eng] ⊆ A_) (hs_ : Keeps A_ s_ s) : Keeps A_ s_ (mcastIn p m s) := by
  refine Keeps.comp ?_ ha_ hs_
  clear hs_ ha_; unfold mcastIn
  try dsimp only
  repeat' first
    | with_reducible exact Keeps.refl _ _
    | with_reducible apply mcLocal_keeps
    | with_reducible apply cntUnrouted_keeps
    | with_reducible apply settle_keeps
    | with_reducible apply mcastOut_keeps
    | with_reducible refine Keeps.ite ?_ ?_
    | exact Or.inr (by decide)
    | with_reducible exact Or.inl rfl
    | (show (_ : List Area) ⊆ _; decide)
    | split
    | with_reducible apply Keeps.mk
    | dsimp only
    | exact Or.inl rfl

theorem execMcastData_keeps {A_ : List Area} {s_ t_ : State} {p : Fin 32} {m : Msg} {s : State} (h_ : execMcastData p m s = .next t_)
    (ha_ : [.streams, .reqs, .serialNo, .ports, .xpt, .dram, .dir, .eng] ⊆ A_) (hs_ : Keeps A_ s_ s) : Keeps A_ s_ t_ := by
  refine Keeps.comp ?_ ha_ hs_
  clear hs_ ha_; unfold execMcastData at h_
  try dsimp only at h_
  all_goals first | with_reducible exact Keeps.of_fault h_ | (with_reducible obtain rfl := Host.Outcome.next.inj h_) | skip
  repeat' first
    | with_reducible exact Keeps.refl _ _
    | with_reducible apply mcastIn_keeps
    | with_reducible apply cntNoGrant_keeps
    | with_reducible refine whileAlive_keeps (fun _ => ?_) ?_
    | with_reducible apply rxFree_keeps
    | with_reducible refine Keeps.ite ?_ ?_
    | exact Or.inr (by decide)
    | with_reducible exact Or.inl rfl
    | (show (_ : List Area) ⊆ _; decide)
    | split
    | with_reducible apply Keeps.mk
    | dsimp only
    | exact Or.inl rfl

theorem mcastComplete_keeps {A_ : List Area} {s_ : State} {k : BitVec 12} {rseq : BitVec 16} {s : State}
    (ha_ : [.streams, .reqs, .ports] ⊆ A_) (hs_ : Keeps A_ s_ s) : Keeps A_ s_ (mcastComplete k rseq s) := by
  refine Keeps.comp ?_ ha_ hs_
  clear hs_ ha_; unfold mcastComplete
  try dsimp only
  repeat' first
    | with_reducible exact Keeps.refl _ _
    | with_reducible apply finishReq_keeps
    | with_reducible refine Keeps.getD (fun _ _ => ?_) ?_
    | with_reducible refine Keeps.ite ?_ ?_
    | (show (_ : List Area) ⊆ _; decide)
    | split
    | dsimp only

theorem execMcastReadComplete_keeps {A_ : List Area} {s_ t_ : State} {sid : BitVec 12} {rseq : BitVec 16} {s : State} (h_ : execMcastReadComplete sid rseq s = .next t_)
    (ha_ : [.streams, .reqs, .ports] ⊆ A_) (hs_ : Keeps A_ s_ s) : Keeps A_ s_ t_ := by
  refine Keeps.comp ?_ ha_ hs_
  clear hs_ ha_; unfold execMcastReadComplete at h_
  try dsimp only at h_
  all_goals first | with_reducible exact Keeps.of_fault h_ | (with_reducible obtain rfl := Host.Outcome.next.inj h_) | skip
  repeat' first
    | with_reducible exact Keeps.refl _ _
    | with_reducible apply mcastComplete_keeps
    | with_reducible refine whileAlive_keeps (fun _ => ?_) ?_
    | (show (_ : List Area) ⊆ _; decide)

theorem execSnpAckInv_keeps {A_ : List Area} {s_ t_ : State} {p : Fin 32} {m : Msg} {s : State} (h_ : execSnpAckInv p m s = .next t_)
    (ha_ : [.streams, .reqs, .ports, .xpt, .dram, .dir] ⊆ A_) (hs_ : Keeps A_ s_ s) : Keeps A_ s_ t_ := by
  refine Keeps.comp ?_ ha_ hs_
  clear hs_ ha_; unfold execSnpAckInv at h_
  try dsimp only at h_
  all_goals first | with_reducible exact Keeps.of_fault h_ | (with_reducible obtain rfl := Host.Outcome.next.inj h_) | skip
  repeat' first
    | with_reducible exact Keeps.refl _ _
    | with_reducible refine arrive_keeps (fun _ => ?_) ?_ ?_
    | with_reducible apply snoopAnswer_keeps
    | with_reducible refine whileAlive_keeps (fun _ => ?_) ?_
    | exact Or.inr (by decide)
    | with_reducible exact Or.inl rfl
    | (show (_ : List Area) ⊆ _; decide)
    | with_reducible apply Keeps.mk
    | dsimp only
    | exact Or.inl rfl

theorem execSnpAckShared_keeps {A_ : List Area} {s_ t_ : State} {p : Fin 32} {m : Msg} {s : State} (h_ : execSnpAckShared p m s = .next t_)
    (ha_ : [.streams, .reqs, .ports, .xpt, .dram, .dir] ⊆ A_) (hs_ : Keeps A_ s_ s) : Keeps A_ s_ t_ := by
  refine Keeps.comp ?_ ha_ hs_
  clear hs_ ha_; unfold execSnpAckShared at h_
  try dsimp only at h_
  all_goals first | with_reducible exact Keeps.of_fault h_ | (with_reducible obtain rfl := Host.Outcome.next.inj h_) | skip
  repeat' first
    | with_reducible exact Keeps.refl _ _
    | with_reducible refine arrive_keeps (fun _ => ?_) ?_ ?_
    | with_reducible apply snoopAnswer_keeps
    | with_reducible refine whileAlive_keeps (fun _ => ?_) ?_
    | exact Or.inr (by decide)
    | with_reducible exact Or.inl rfl
    | (show (_ : List Area) ⊆ _; decide)
    | with_reducible apply Keeps.mk
    | dsimp only
    | exact Or.inl rfl

theorem execStashAccept_keeps {A_ : List Area} {s_ t_ : State} {p : Fin 32} {m : Msg} {s : State} (h_ : execStashAccept p m s = .next t_)
    (ha_ : [.streams, .reqs, .ports, .xpt, .dram, .dir] ⊆ A_) (hs_ : Keeps A_ s_ s) : Keeps A_ s_ t_ := by
  refine Keeps.comp ?_ ha_ hs_
  clear hs_ ha_; unfold execStashAccept at h_
  try dsimp only at h_
  all_goals first | with_reducible exact Keeps.of_fault h_ | (with_reducible obtain rfl := Host.Outcome.next.inj h_) | skip
  repeat' first
    | with_reducible exact Keeps.refl _ _
    | with_reducible refine arrive_keeps (fun _ => ?_) ?_ ?_
    | with_reducible apply stashAnswer_keeps
    | with_reducible refine whileAlive_keeps (fun _ => ?_) ?_
    | exact Or.inr (by decide)
    | with_reducible exact Or.inl rfl
    | (show (_ : List Area) ⊆ _; decide)
    | with_reducible apply Keeps.mk
    | dsimp only
    | exact Or.inl rfl

theorem execStashDecline_keeps {A_ : List Area} {s_ t_ : State} {p : Fin 32} {m : Msg} {s : State} (h_ : execStashDecline p m s = .next t_)
    (ha_ : [.streams, .reqs, .ports, .xpt, .dram, .dir] ⊆ A_) (hs_ : Keeps A_ s_ s) : Keeps A_ s_ t_ := by
  refine Keeps.comp ?_ ha_ hs_
  clear hs_ ha_; unfold execStashDecline at h_
  try dsimp only at h_
  all_goals first | with_reducible exact Keeps.of_fault h_ | (with_reducible obtain rfl := Host.Outcome.next.inj h_) | skip
  repeat' first
    | with_reducible exact Keeps.refl _ _
    | with_reducible refine arrive_keeps (fun _ => ?_) ?_ ?_
    | with_reducible apply stashAnswer_keeps
    | with_reducible refine whileAlive_keeps (fun _ => ?_) ?_
    | exact Or.inr (by decide)
    | with_reducible exact Or.inl rfl
    | (show (_ : List Area) ⊆ _; decide)
    | with_reducible apply Keeps.mk
    | dsimp only
    | exact Or.inl rfl

theorem execCompAck_keeps {A_ : List Area} {s_ t_ : State} {p : Fin 32} {m : Msg} {s : State} (h_ : execCompAck p m s = .next t_)
    (ha_ : [.streams, .reqs, .ports, .xpt, .dram, .dir] ⊆ A_) (hs_ : Keeps A_ s_ s) : Keeps A_ s_ t_ := by
  refine Keeps.comp ?_ ha_ hs_
  clear hs_ ha_; unfold execCompAck at h_
  try dsimp only at h_
  all_goals first | with_reducible exact Keeps.of_fault h_ | (with_reducible obtain rfl := Host.Outcome.next.inj h_) | skip
  repeat' first
    | with_reducible exact Keeps.refl _ _
    | with_reducible refine arrive_keeps (fun _ => ?_) ?_ ?_
    | with_reducible apply compAckAnswer_keeps
    | with_reducible refine whileAlive_keeps (fun _ => ?_) ?_
    | exact Or.inr (by decide)
    | with_reducible exact Or.inl rfl
    | (show (_ : List Area) ⊆ _; decide)
    | with_reducible apply Keeps.mk
    | dsimp only
    | exact Or.inl rfl

theorem execDatSnpS_keeps {A_ : List Area} {s_ t_ : State} {p : Fin 32} {m : Msg} {s : State} (h_ : execDatSnpS p m s = .next t_)
    (ha_ : [.streams, .reqs, .ports, .xpt, .dram, .dir] ⊆ A_) (hs_ : Keeps A_ s_ s) : Keeps A_ s_ t_ := by
  refine Keeps.comp ?_ ha_ hs_
  clear hs_ ha_; unfold execDatSnpS at h_
  try dsimp only at h_
  all_goals first | with_reducible exact Keeps.of_fault h_ | (with_reducible obtain rfl := Host.Outcome.next.inj h_) | skip
  repeat' first
    | with_reducible exact Keeps.refl _ _
    | with_reducible refine arrive_keeps (fun _ => ?_) ?_ ?_
    | with_reducible apply snoopAnswer_keeps
    | with_reducible refine whileAlive_keeps (fun _ => ?_) ?_
    | exact Or.inr (by decide)
    | with_reducible exact Or.inl rfl
    | (show (_ : List Area) ⊆ _; decide)
    | with_reducible apply Keeps.mk
    | dsimp only
    | exact Or.inl rfl

theorem execDatSnpI_keeps {A_ : List Area} {s_ t_ : State} {p : Fin 32} {m : Msg} {s : State} (h_ : execDatSnpI p m s = .next t_)
    (ha_ : [.streams, .reqs, .ports, .xpt, .dram, .dir] ⊆ A_) (hs_ : Keeps A_ s_ s) : Keeps A_ s_ t_ := by
  refine Keeps.comp ?_ ha_ hs_
  clear hs_ ha_; unfold execDatSnpI at h_
  try dsimp only at h_
  all_goals first | with_reducible exact Keeps.of_fault h_ | (with_reducible obtain rfl := Host.Outcome.next.inj h_) | skip
  repeat' first
    | with_reducible exact Keeps.refl _ _
    | with_reducible refine arrive_keeps (fun _ => ?_) ?_ ?_
    | with_reducible apply snoopAnswer_keeps
    | with_reducible refine whileAlive_keeps (fun _ => ?_) ?_
    | exact Or.inr (by decide)
    | with_reducible exact Or.inl rfl
    | (show (_ : List Area) ⊆ _; decide)
    | with_reducible apply Keeps.mk
    | dsimp only
    | exact Or.inl rfl

end Sys2Proof.Machine
end

