-- ==== Sys2Proof/Laws/Frame/Region.lean ====
section
/-! SUPPORT. The frame of every operation of Machine/Region.lean: the areas it may change, and that pool memory keeps its canonical form. -/

namespace Sys2Proof.Machine

set_option linter.unusedTactic false
set_option linter.unreachableTactic false
set_option linter.unusedVariables false

theorem putFrame_keeps {A_ : List Area} {s_ : State} {col : Nat} {f : Nat} {w : List Word} {s : State}
    (ha_ : [.arr] ⊆ A_) (hs_ : Keeps A_ s_ s) : Keeps A_ s_ (putFrame col f w s) := by
  refine Keeps.comp ?_ ha_ hs_
  clear hs_ ha_; unfold putFrame
  try dsimp only
  repeat' first
    | with_reducible exact Keeps.refl _ _
    | with_reducible refine Keeps.ite ?_ ?_
    | exact Or.inr (by decide)
    | with_reducible exact Or.inl rfl
    | (show (_ : List Area) ⊆ _; decide)
    | split
    | with_reducible apply Keeps.mk
    | dsimp only
    | exact Or.inl rfl

theorem putMap_keeps {A_ : List Area} {s_ : State} {col : Nat} {f : Nat} {w : List Word} {s : State}
    (ha_ : [.arr] ⊆ A_) (hs_ : Keeps A_ s_ s) : Keeps A_ s_ (putMap col f w s) := by
  refine Keeps.comp ?_ ha_ hs_
  clear hs_ ha_; unfold putMap
  try dsimp only
  repeat' first
    | with_reducible exact Keeps.refl _ _
    | with_reducible refine Keeps.ite ?_ ?_
    | exact Or.inr (by decide)
    | with_reducible exact Or.inl rfl
    | (show (_ : List Area) ⊆ _; decide)
    | split
    | with_reducible apply Keeps.mk
    | dsimp only
    | exact Or.inl rfl

theorem writeFrame_keeps {A_ : List Area} {s_ : State} {col : Nat} {f : Nat} {w : List Word} {s : State}
    (ha_ : [.arr] ⊆ A_) (hs_ : Keeps A_ s_ s) : Keeps A_ s_ (writeFrame col f w s) := by
  refine Keeps.comp ?_ ha_ hs_
  clear hs_ ha_; unfold writeFrame
  try dsimp only
  repeat' first
    | with_reducible exact Keeps.refl _ _
    | with_reducible apply putMap_keeps
    | with_reducible apply putFrame_keeps
    | exact Or.inr (by decide)
    | with_reducible exact Or.inl rfl
    | (show (_ : List Area) ⊆ _; decide)
    | with_reducible apply Keeps.mk
    | dsimp only
    | exact Or.inl rfl

theorem clearColumn_keeps {A_ : List Area} {s_ : State} {col : Nat} {s : State}
    (ha_ : [.arr] ⊆ A_) (hs_ : Keeps A_ s_ s) : Keeps A_ s_ (clearColumn col s) := by
  refine Keeps.comp ?_ ha_ hs_
  clear hs_ ha_; unfold clearColumn
  try dsimp only
  repeat' first
    | with_reducible exact Keeps.refl _ _
    | with_reducible apply writeFrame_keeps
    | with_reducible refine Keeps.foldl (fun _ _ => ?_) _ ?_
    | (show (_ : List Area) ⊆ _; decide)

theorem putLaunch_keeps {A_ : List Area} {s_ : State} {r : Launch} {s : State}
    (ha_ : [.arr] ⊆ A_) (hs_ : Keeps A_ s_ s) : Keeps A_ s_ (putLaunch r s) := by
  refine Keeps.comp ?_ ha_ hs_
  clear hs_ ha_; unfold putLaunch
  try dsimp only
  repeat' first
    | with_reducible exact Keeps.refl _ _
    | with_reducible refine Keeps.ite ?_ ?_
    | exact Or.inr (by decide)
    | with_reducible exact Or.inl rfl
    | (show (_ : List Area) ⊆ _; decide)
    | split
    | with_reducible apply Keeps.mk
    | dsimp only
    | exact Or.inl rfl

theorem putLoader_keeps {A_ : List Area} {s_ : State} {x : Loader} {s : State}
    (ha_ : [.arr] ⊆ A_) (hs_ : Keeps A_ s_ s) : Keeps A_ s_ (putLoader x s) := by
  refine Keeps.comp ?_ ha_ hs_
  clear hs_ ha_; unfold putLoader
  try dsimp only
  repeat' first
    | with_reducible exact Keeps.refl _ _
    | with_reducible refine Keeps.ite ?_ ?_
    | exact Or.inr (by decide)
    | with_reducible exact Or.inl rfl
    | (show (_ : List Area) ⊆ _; decide)
    | split
    | with_reducible apply Keeps.mk
    | dsimp only
    | exact Or.inl rfl

theorem dropLoader_keeps {A_ : List Area} {s_ : State} {l : LoaderId} {s : State}
    (ha_ : [.arr] ⊆ A_) (hs_ : Keeps A_ s_ s) : Keeps A_ s_ (dropLoader l s) := by
  refine Keeps.comp ?_ ha_ hs_
  clear hs_ ha_; unfold dropLoader
  try dsimp only
  repeat' first
    | with_reducible exact Keeps.refl _ _
    | exact Or.inr (by decide)
    | with_reducible exact Or.inl rfl
    | (show (_ : List Area) ⊆ _; decide)
    | with_reducible apply Keeps.mk
    | dsimp only
    | exact Or.inl rfl

theorem settleColumn_keeps {A_ : List Area} {s_ : State} {col : Nat} {s : State}
    (ha_ : [.arr] ⊆ A_) (hs_ : Keeps A_ s_ s) : Keeps A_ s_ (settleColumn col s) := by
  refine Keeps.comp ?_ ha_ hs_
  clear hs_ ha_; unfold settleColumn
  try dsimp only
  repeat' first
    | with_reducible exact Keeps.refl _ _
    | with_reducible apply State.setCol_keeps
    | with_reducible refine Keeps.ite ?_ ?_
    | exact Or.inr (by decide)
    | with_reducible exact Or.inl rfl
    | (show (_ : List Area) ⊆ _; decide)
    | split
    | with_reducible apply Keeps.mk
    | dsimp only
    | exact Or.inl rfl

theorem wipeColumn_keeps {A_ : List Area} {s_ : State} {col : Nat} {s : State}
    (ha_ : [.arr] ⊆ A_) (hs_ : Keeps A_ s_ s) : Keeps A_ s_ (wipeColumn col s) := by
  refine Keeps.comp ?_ ha_ hs_
  clear hs_ ha_; unfold wipeColumn
  try dsimp only
  repeat' first
    | with_reducible exact Keeps.refl _ _
    | with_reducible apply clearColumn_keeps
    | with_reducible apply State.setCol_keeps
    | exact Or.inr (by decide)
    | with_reducible exact Or.inl rfl
    | (show (_ : List Area) ⊆ _; decide)
    | with_reducible apply Keeps.mk
    | dsimp only
    | exact Or.inl rfl

theorem recordEnd_keeps {A_ : List Area} {s_ : State} {r : Launch} {cause : Nat} {unit : Nat} {st : Status} {s : State}
    (ha_ : [.arr] ⊆ A_) (hs_ : Keeps A_ s_ s) : Keeps A_ s_ (recordEnd r cause unit st s) := by
  refine Keeps.comp ?_ ha_ hs_
  clear hs_ ha_; unfold recordEnd
  try dsimp only
  repeat' first
    | with_reducible exact Keeps.refl _ _
    | with_reducible apply putLaunch_keeps
    | with_reducible refine Keeps.ite ?_ ?_
    | exact Or.inr (by decide)
    | with_reducible exact Or.inl rfl
    | (show (_ : List Area) ⊆ _; decide)
    | split
    | with_reducible apply Keeps.mk
    | dsimp only
    | exact Or.inl rfl

theorem resumeColumn_keeps {A_ : List Area} {s_ : State} {r : Launch} {col : Nat} {s : State}
    (ha_ : [.arr] ⊆ A_) (hs_ : Keeps A_ s_ s) : Keeps A_ s_ (resumeColumn r col s) := by
  refine Keeps.comp ?_ ha_ hs_
  clear hs_ ha_; unfold resumeColumn
  try dsimp only
  repeat' first
    | with_reducible exact Keeps.refl _ _
    | with_reducible apply recordEnd_keeps
    | with_reducible apply putLaunch_keeps
    | with_reducible apply State.setCol_keeps
    | exact Or.inr (by decide)
    | with_reducible exact Or.inl rfl
    | (show (_ : List Area) ⊆ _; decide)
    | split
    | with_reducible apply Keeps.mk
    | dsimp only
    | exact Or.inl rfl

theorem endSelfLoad_keeps {A_ : List Area} {s_ : State} {x : Loader} {st : Status} {s : State}
    (ha_ : [.arr] ⊆ A_) (hs_ : Keeps A_ s_ s) : Keeps A_ s_ (endSelfLoad x st s) := by
  refine Keeps.comp ?_ ha_ hs_
  clear hs_ ha_; unfold endSelfLoad
  try dsimp only
  repeat' first
    | with_reducible exact Keeps.refl _ _
    | with_reducible apply resumeColumn_keeps
    | with_reducible apply settleColumn_keeps
    | with_reducible apply putLoader_keeps
    | with_reducible refine Keeps.foldl (fun _ _ => ?_) _ ?_
    | with_reducible refine Keeps.ite ?_ ?_
    | exact Or.inr (by decide)
    | with_reducible exact Or.inl rfl
    | (show (_ : List Area) ⊆ _; decide)
    | split
    | with_reducible apply Keeps.mk
    | dsimp only
    | exact Or.inl rfl

theorem endRegionLoads_keeps {A_ : List Area} {s_ : State} {r : Launch} {s : State}
    (ha_ : [.arr] ⊆ A_) (hs_ : Keeps A_ s_ s) : Keeps A_ s_ (endRegionLoads r s) := by
  refine Keeps.comp ?_ ha_ hs_
  clear hs_ ha_; unfold endRegionLoads
  try dsimp only
  repeat' first
    | with_reducible exact Keeps.refl _ _
    | with_reducible apply endSelfLoad_keeps
    | with_reducible refine Keeps.foldl (fun _ _ => ?_) _ ?_
    | with_reducible refine Keeps.ite ?_ ?_
    | (show (_ : List Area) ⊆ _; decide)
    | split
    | dsimp only

theorem launchEnd_keeps {A_ : List Area} {s_ : State} {q : QId} {idx : BitVec 16} {cause : Nat} {unit : Nat} {st : Status} {s : State}
    (ha_ : [.arr] ⊆ A_) (hs_ : Keeps A_ s_ s) : Keeps A_ s_ (launchEnd q idx cause unit st s) := by
  refine Keeps.comp ?_ ha_ hs_
  clear hs_ ha_; unfold launchEnd
  try dsimp only
  repeat' first
    | with_reducible exact Keeps.refl _ _
    | with_reducible apply endRegionLoads_keeps
    | with_reducible apply recordEnd_keeps
    | (show (_ : List Area) ⊆ _; decide)
    | split
    | dsimp only

theorem stopHostLoad_keeps {A_ : List Area} {s_ : State} {q : QId} {idx : BitVec 16} {s : State}
    (ha_ : [.arr] ⊆ A_) (hs_ : Keeps A_ s_ s) : Keeps A_ s_ (stopHostLoad q idx s) := by
  refine Keeps.comp ?_ ha_ hs_
  clear hs_ ha_; unfold stopHostLoad
  try dsimp only
  repeat' first
    | with_reducible exact Keeps.refl _ _
    | with_reducible apply wipeColumn_keeps
    | with_reducible apply dropLoader_keeps
    | with_reducible refine Keeps.foldl (fun _ _ => ?_) _ ?_
    | (show (_ : List Area) ⊆ _; decide)
    | split
    | dsimp only

end Sys2Proof.Machine
end

