-- ==== Sys2Proof/Laws/Frame/Course.lean ====
section
/-! SUPPORT. The frame of every operation of Machine/Course.lean: the areas it may change, and that pool memory keeps its canonical form. -/

namespace Sys2Proof.Machine

set_option linter.unusedTactic false
set_option linter.unreachableTactic false
set_option linter.unusedVariables false

theorem setCmd_keeps {A_ : List Area} {s_ : State} {k : Nat} {c : Cmd} {s : State}
    (ha_ : [.eng] ⊆ A_) (hs_ : Keeps A_ s_ s) : Keeps A_ s_ (setCmd k c s) := by
  refine Keeps.comp ?_ ha_ hs_
  clear hs_ ha_; unfold setCmd
  try dsimp only
  repeat' first
    | with_reducible exact Keeps.refl _ _
    | with_reducible apply State.setQueue_keeps
    | with_reducible refine Keeps.ite ?_ ?_
    | exact Or.inr (by decide)
    | with_reducible exact Or.inl rfl
    | (show (_ : List Area) ⊆ _; decide)
    | split
    | with_reducible apply Keeps.mk
    | dsimp only
    | exact Or.inl rfl

theorem forgetFwd_keeps {A_ : List Area} {s_ : State} {q : Fin 32} {m : Msg} {s : State}
    (ha_ : [.xpt] ⊆ A_) (hs_ : Keeps A_ s_ s) : Keeps A_ s_ (forgetFwd q m s) := by
  refine Keeps.comp ?_ ha_ hs_
  clear hs_ ha_; unfold forgetFwd
  try dsimp only
  repeat' first
    | with_reducible exact Keeps.refl _ _
    | with_reducible refine Keeps.ite ?_ ?_
    | exact Or.inr (by decide)
    | with_reducible exact Or.inl rfl
    | (show (_ : List Area) ⊆ _; decide)
    | split
    | with_reducible apply Keeps.mk
    | dsimp only
    | exact Or.inl rfl

theorem staleItem_keeps {A_ : List Area} {s_ : State} {g : Nat × BitVec 16} {n : Nat} {it : TxItem} {s : State}
    (ha_ : [.ports, .xpt] ⊆ A_) (hs_ : Keeps A_ s_ s) : Keeps A_ s_ (staleItem g n it s) := by
  refine Keeps.comp ?_ ha_ hs_
  clear hs_ ha_; unfold staleItem
  try dsimp only
  repeat' first
    | with_reducible exact Keeps.refl _ _
    | with_reducible apply forgetFwd_keeps
    | with_reducible apply rawAnswer_keeps
    | with_reducible apply State.setPort_keeps
    | with_reducible refine Keeps.ite ?_ ?_
    | exact Or.inr (by decide)
    | with_reducible exact Or.inl rfl
    | (show (_ : List Area) ⊆ _; decide)
    | split
    | with_reducible apply Keeps.mk
    | dsimp only
    | exact Or.inl rfl

theorem staleRepeats_keeps {A_ : List Area} {s_ : State} {g : Nat × BitVec 16} {s : State}
    (ha_ : [.streams, .ports] ⊆ A_) (hs_ : Keeps A_ s_ s) : Keeps A_ s_ (staleRepeats g s) := by
  refine Keeps.comp ?_ ha_ hs_
  clear hs_ ha_; unfold staleRepeats
  try dsimp only
  repeat' first
    | with_reducible exact Keeps.refl _ _
    | with_reducible apply rawAnswer_keeps
    | with_reducible refine Keeps.foldl (fun _ _ => ?_) _ ?_
    | exact Or.inr (by decide)
    | with_reducible exact Or.inl rfl
    | (show (_ : List Area) ⊆ _; decide)
    | with_reducible apply Keeps.mk
    | dsimp only
    | exact Or.inl rfl

theorem staleCmd_keeps {A_ : List Area} {s_ : State} {k : Nat} {c : Cmd} {s : State}
    (ha_ : [.eng, .arr] ⊆ A_) (hs_ : Keeps A_ s_ s) : Keeps A_ s_ (staleCmd k c s) := by
  refine Keeps.comp ?_ ha_ hs_
  clear hs_ ha_; unfold staleCmd
  try dsimp only
  repeat' first
    | with_reducible exact Keeps.refl _ _
    | with_reducible apply setCmd_keeps
    | with_reducible apply wipeColumn_keeps
    | with_reducible apply dropLoader_keeps
    | with_reducible refine Keeps.foldl (fun _ _ => ?_) _ ?_
    | exact Or.inr (by decide)
    | with_reducible exact Or.inl rfl
    | (show (_ : List Area) ⊆ _; decide)
    | split
    | with_reducible apply Keeps.mk
    | dsimp only
    | exact Or.inl rfl

theorem staleStream_keeps {A_ : List Area} {s_ : State} {g : BitVec 16} {r : Launch} {k : Nat} {s : State}
    (ha_ : [.arr] ⊆ A_) (hs_ : Keeps A_ s_ s) : Keeps A_ s_ (staleStream g r k s) := by
  refine Keeps.comp ?_ ha_ hs_
  clear hs_ ha_; unfold staleStream
  try dsimp only
  repeat' first
    | with_reducible exact Keeps.refl _ _
    | with_reducible apply launchEnd_keeps
    | with_reducible apply putLaunch_keeps
    | exact Or.inr (by decide)
    | with_reducible exact Or.inl rfl
    | (show (_ : List Area) ⊆ _; decide)
    | split
    | with_reducible apply Keeps.mk
    | dsimp only
    | exact Or.inl rfl

theorem staleAll_keeps {A_ : List Area} {s_ : State} {g : Nat × BitVec 16} {s : State}
    (ha_ : [.streams, .reqs, .ports, .xpt, .dram, .dir, .eng, .arr] ⊆ A_) (hs_ : Keeps A_ s_ s) : Keeps A_ s_ (staleAll g s).2 := by
  refine Keeps.comp ?_ ha_ hs_
  clear hs_ ha_; unfold staleAll
  try dsimp only
  repeat' first
    | with_reducible exact Keeps.refl _ _
    | with_reducible apply staleStream_keeps
    | with_reducible apply staleCmd_keeps
    | with_reducible apply staleRepeats_keeps
    | with_reducible apply staleItem_keeps
    | with_reducible apply settle_keeps
    | with_reducible apply endReq_keeps
    | with_reducible refine Keeps.foldl (fun _ _ => ?_) _ ?_
    | (show (_ : List Area) ⊆ _; decide)

theorem dropRetired_keeps {A_ : List Area} {s_ : State} {i : Nat} {s : State}
    (ha_ : [.insts] ⊆ A_) (hs_ : Keeps A_ s_ s) : Keeps A_ s_ (dropRetired i s) := by
  refine Keeps.comp ?_ ha_ hs_
  clear hs_ ha_; unfold dropRetired
  try dsimp only
  repeat' first
    | with_reducible exact Keeps.refl _ _
    | with_reducible apply State.setInst_keeps
    | exact Or.inr (by decide)
    | with_reducible exact Or.inl rfl
    | (show (_ : List Area) ⊆ _; decide)
    | with_reducible apply Keeps.mk
    | dsimp only
    | exact Or.inl rfl

theorem genRelease_keeps {A_ : List Area} {s_ : State} {i : Nat} {s : State}
    (ha_ : [.insts] ⊆ A_) (hs_ : Keeps A_ s_ s) : Keeps A_ s_ (genRelease i s) := by
  refine Keeps.comp ?_ ha_ hs_
  clear hs_ ha_; unfold genRelease
  try dsimp only
  repeat' first
    | with_reducible exact Keeps.refl _ _
    | with_reducible apply dropRetired_keeps
    | with_reducible refine Keeps.ite ?_ ?_
    | (show (_ : List Area) ⊆ _; decide)
    | split
    | dsimp only

theorem genReleaseByAge_keeps {A_ : List Area} {s_ : State} {i : Nat} {s : State}
    (ha_ : [.crs, .insts, .streams, .reqs, .ports, .xpt, .dram, .dir, .eng, .arr] ⊆ A_) (hs_ : Keeps A_ s_ s) : Keeps A_ s_ (genReleaseByAge i s) := by
  refine Keeps.comp ?_ ha_ hs_
  clear hs_ ha_; unfold genReleaseByAge
  try dsimp only
  repeat' first
    | with_reducible exact Keeps.refl _ _
    | with_reducible apply dropRetired_keeps
    | with_reducible apply staleAll_keeps
    | with_reducible refine Keeps.pair1 (p := staleAll _ _) (by assumption) ?_
    | with_reducible refine Keeps.ite ?_ ?_
    | exact Or.inr (by decide)
    | with_reducible exact Or.inl rfl
    | (show (_ : List Area) ⊆ _; decide)
    | split
    | with_reducible apply Keeps.mk
    | dsimp only
    | exact Or.inl rfl

theorem postStale_keeps {A_ : List Area} {s_ : State} {o : StaleOwed} {s : State}
    (ha_ : [.hosts, .sbd, .out] ⊆ A_) (hs_ : Keeps A_ s_ s) : Keeps A_ s_ (postStale o s) := by
  refine Keeps.comp ?_ ha_ hs_
  clear hs_ ha_; unfold postStale
  try dsimp only
  repeat' first
    | with_reducible exact Keeps.refl _ _
    | with_reducible apply postBoth_keeps
    | with_reducible apply postAdmin_keeps
    | with_reducible refine Keeps.ite ?_ ?_
    | (show (_ : List Area) ⊆ _; decide)
    | split
    | dsimp only

theorem genStalePost_keeps {A_ : List Area} {s_ : State} {s : State}
    (ha_ : [.crs, .hosts, .sbd, .out] ⊆ A_) (hs_ : Keeps A_ s_ s) : Keeps A_ s_ (genStalePost s) := by
  refine Keeps.comp ?_ ha_ hs_
  clear hs_ ha_; unfold genStalePost
  try dsimp only
  repeat' first
    | with_reducible exact Keeps.refl _ _
    | with_reducible apply postStale_keeps
    | with_reducible refine Keeps.foldl (fun _ _ => ?_) _ ?_
    | with_reducible refine Keeps.ite ?_ ?_
    | exact Or.inr (by decide)
    | with_reducible exact Or.inl rfl
    | (show (_ : List Area) ⊆ _; decide)
    | split
    | with_reducible apply Keeps.mk
    | dsimp only
    | exact Or.inl rfl

theorem execGenStalePost_keeps {A_ : List Area} {s_ t_ : State} {s : State} (h_ : execGenStalePost s = .next t_)
    (ha_ : [.crs, .hosts, .sbd, .out] ⊆ A_) (hs_ : Keeps A_ s_ s) : Keeps A_ s_ t_ := by
  refine Keeps.comp ?_ ha_ hs_
  clear hs_ ha_; unfold execGenStalePost at h_
  try dsimp only at h_
  all_goals first | with_reducible exact Keeps.of_fault h_ | (with_reducible obtain rfl := Host.Outcome.next.inj h_) | skip
  repeat' first
    | with_reducible exact Keeps.refl _ _
    | with_reducible apply genStalePost_keeps
    | with_reducible refine whileAlive_keeps (fun _ => ?_) ?_
    | (show (_ : List Area) ⊆ _; decide)

theorem countSlip_keeps {A_ : List Area} {s_ : State} {p : Proc} {s : State}
    (ha_ : [.crs, .serialNo, .hosts, .sbd, .out] ⊆ A_) (hs_ : Keeps A_ s_ s) : Keeps A_ s_ (countSlip p s) := by
  refine Keeps.comp ?_ ha_ hs_
  clear hs_ ha_; unfold countSlip
  try dsimp only
  repeat' first
    | with_reducible exact Keeps.refl _ _
    | with_reducible apply postAdmin_keeps
    | with_reducible apply State.fresh_keeps
    | with_reducible refine Keeps.pair1 (p := State.fresh _) (by assumption) ?_
    | with_reducible apply State.setSlip_keeps
    | with_reducible refine Keeps.ite ?_ ?_
    | exact Or.inr (by decide)
    | with_reducible exact Or.inl rfl
    | (show (_ : List Area) ⊆ _; decide)
    | split
    | with_reducible apply Keeps.mk
    | dsimp only
    | exact Or.inl rfl

theorem courseSlip_keeps {A_ : List Area} {s_ : State} {p : Proc} {s : State}
    (ha_ : [.crs, .serialNo, .hosts, .sbd, .out] ⊆ A_) (hs_ : Keeps A_ s_ s) : Keeps A_ s_ (courseSlip p s) := by
  refine Keeps.comp ?_ ha_ hs_
  clear hs_ ha_; unfold courseSlip
  try dsimp only
  repeat' first
    | with_reducible exact Keeps.refl _ _
    | with_reducible apply countSlip_keeps
    | with_reducible refine Keeps.ite ?_ ?_
    | (show (_ : List Area) ⊆ _; decide)
    | split
    | dsimp only

theorem execCourseSlip_keeps {A_ : List Area} {s_ t_ : State} {p : Proc} {s : State} (h_ : execCourseSlip p s = .next t_)
    (ha_ : [.crs, .serialNo, .hosts, .sbd, .out] ⊆ A_) (hs_ : Keeps A_ s_ s) : Keeps A_ s_ t_ := by
  refine Keeps.comp ?_ ha_ hs_
  clear hs_ ha_; unfold execCourseSlip at h_
  try dsimp only at h_
  all_goals first | with_reducible exact Keeps.of_fault h_ | (with_reducible obtain rfl := Host.Outcome.next.inj h_) | skip
  repeat' first
    | with_reducible exact Keeps.refl _ _
    | with_reducible apply courseSlip_keeps
    | with_reducible refine whileAlive_keeps (fun _ => ?_) ?_
    | (show (_ : List Area) ⊆ _; decide)

theorem slipClear_keeps {A_ : List Area} {s_ : State} {v : Word} {slips : List Proc} {s : State}
    (ha_ : [.crs, .serialNo, .hosts, .sbd, .out] ⊆ A_) (hs_ : Keeps A_ s_ s) : Keeps A_ s_ (slipClear v slips s) := by
  refine Keeps.comp ?_ ha_ hs_
  clear hs_ ha_; unfold slipClear
  try dsimp only
  repeat' first
    | with_reducible exact Keeps.refl _ _
    | with_reducible apply courseSlip_keeps
    | with_reducible apply State.setSlip_keeps
    | with_reducible refine Keeps.foldl (fun _ _ => ?_) _ ?_
    | with_reducible refine Keeps.ite ?_ ?_
    | exact Or.inr (by decide)
    | with_reducible exact Or.inl rfl
    | (show (_ : List Area) ⊆ _; decide)
    | split
    | with_reducible apply Keeps.mk
    | dsimp only
    | exact Or.inl rfl

theorem coursePacketSend_keeps {A_ : List Area} {s_ : State} {s : State}
    (ha_ : [.clk, .out] ⊆ A_) (hs_ : Keeps A_ s_ s) : Keeps A_ s_ (coursePacketSend s) := by
  refine Keeps.comp ?_ ha_ hs_
  clear hs_ ha_; unfold coursePacketSend
  try dsimp only
  repeat' first
    | with_reducible exact Keeps.refl _ _
    | with_reducible apply State.emit_keeps
    | with_reducible refine Keeps.ite ?_ ?_
    | exact Or.inr (by decide)
    | with_reducible exact Or.inl rfl
    | (show (_ : List Area) ⊆ _; decide)
    | split
    | with_reducible apply Keeps.mk
    | dsimp only
    | exact Or.inl rfl

theorem execCoursePacketSend_keeps {A_ : List Area} {s_ t_ : State} {s : State} (h_ : execCoursePacketSend s = .next t_)
    (ha_ : [.clk, .out] ⊆ A_) (hs_ : Keeps A_ s_ s) : Keeps A_ s_ t_ := by
  refine Keeps.comp ?_ ha_ hs_
  clear hs_ ha_; unfold execCoursePacketSend at h_
  try dsimp only at h_
  all_goals first | with_reducible exact Keeps.of_fault h_ | (with_reducible obtain rfl := Host.Outcome.next.inj h_) | skip
  repeat' first
    | with_reducible exact Keeps.refl _ _
    | with_reducible apply coursePacketSend_keeps
    | with_reducible refine whileAlive_keeps (fun _ => ?_) ?_
    | (show (_ : List Area) ⊆ _; decide)

theorem execCourseClockLoss_keeps {A_ : List Area} {s_ t_ : State} {c : ClockLoss} {s : State} (h_ : execCourseClockLoss c s = .next t_)
    (ha_ : [.nid, .tenants, .ports, .flt, .sbd, .out] ⊆ A_) (hs_ : Keeps A_ s_ s) : Keeps A_ s_ t_ := by
  refine Keeps.comp ?_ ha_ hs_
  clear hs_ ha_; unfold execCourseClockLoss at h_
  try dsimp only at h_
  all_goals first | with_reducible exact Keeps.of_fault h_ | (with_reducible obtain rfl := Host.Outcome.next.inj h_) | skip
  repeat' first
    | with_reducible exact Keeps.refl _ _
    | with_reducible apply enterFatal_keeps
    | (show (_ : List Area) ⊆ _; decide)
    | split
    | dsimp only

end Sys2Proof.Machine
end

