-- ==== Sys2Proof/Laws/Frame/Queues.lean ====
section
/-! SUPPORT. The frame of every operation of Machine/Queues.lean: the areas it may change, and that pool memory keeps its canonical form. -/

namespace Sys2Proof.Machine

set_option linter.unusedTactic false
set_option linter.unreachableTactic false
set_option linter.unusedVariables false

/-- The state a result leads to. -/
def Acc.st {α : Type} : Acc α → Option State
  | .ok _ s => some s
  | .hold s => some s
  | .fail _ s => some s

theorem putCmd_keeps {A_ : List Area} {s_ : State} {q : QId} {c : Cmd} {s : State}
    (ha_ : [.eng] ⊆ A_) (hs_ : Keeps A_ s_ s) : Keeps A_ s_ (putCmd q c s) := by
  refine Keeps.comp ?_ ha_ hs_
  clear hs_ ha_; unfold putCmd
  try dsimp only
  repeat' first
    | with_reducible exact Keeps.refl _ _
    | with_reducible apply setCmd_keeps
    | (show (_ : List Area) ⊆ _; decide)

theorem stopCmd_keeps {A_ : List Area} {s_ : State} {q : QId} {c : Cmd} {st : Status} {count : Nat} {aux : Word} {s : State}
    (ha_ : [.eng] ⊆ A_) (hs_ : Keeps A_ s_ s) : Keeps A_ s_ (stopCmd q c st count aux s) := by
  refine Keeps.comp ?_ ha_ hs_
  clear hs_ ha_; unfold stopCmd
  try dsimp only
  repeat' first
    | with_reducible exact Keeps.refl _ _
    | with_reducible apply putCmd_keeps
    | exact Or.inr (by decide)
    | with_reducible exact Or.inl rfl
    | (show (_ : List Area) ⊆ _; decide)
    | with_reducible apply Keeps.mk
    | dsimp only
    | exact Or.inl rfl

theorem finishCmd_keeps {A_ : List Area} {s_ : State} {q : QId} {c : Cmd} {st : Status} {count : Nat} {aux : Word} {s : State}
    (ha_ : [.eng] ⊆ A_) (hs_ : Keeps A_ s_ s) : Keeps A_ s_ (finishCmd q c st count aux s) := by
  refine Keeps.comp ?_ ha_ hs_
  clear hs_ ha_; unfold finishCmd
  try dsimp only
  repeat' first
    | with_reducible exact Keeps.refl _ _
    | with_reducible apply putCmd_keeps
    | exact Or.inr (by decide)
    | with_reducible exact Or.inl rfl
    | (show (_ : List Area) ⊆ _; decide)
    | with_reducible apply Keeps.mk
    | dsimp only
    | exact Or.inl rfl

theorem queueError_keeps {A_ : List Area} {s_ : State} {q : QId} {cause : Nat} {s : State}
    (ha_ : [.eng, .hosts, .flt, .sbd, .out] ⊆ A_) (hs_ : Keeps A_ s_ s) : Keeps A_ s_ (queueError q cause s) := by
  refine Keeps.comp ?_ ha_ hs_
  clear hs_ ha_; unfold queueError
  try dsimp only
  repeat' first
    | with_reducible exact Keeps.refl _ _
    | with_reducible apply recordFault_keeps
    | with_reducible apply State.setQueue_keeps
    | with_reducible refine Keeps.ite ?_ ?_
    | exact Or.inr (by decide)
    | with_reducible exact Or.inl rfl
    | (show (_ : List Area) ⊆ _; decide)
    | split
    | with_reducible apply Keeps.mk
    | dsimp only
    | exact Or.inl rfl

theorem atGate_keeps {A_ : List Area} {s_ : State} {u : EngUse} {k : Nat} {s : State}
    (ha_ : [.til] ⊆ A_) (hs_ : Keeps A_ s_ s) : Keeps A_ s_ (atGate u k s) := by
  refine Keeps.comp ?_ ha_ hs_
  clear hs_ ha_; unfold atGate
  try dsimp only
  repeat' first
    | with_reducible exact Keeps.refl _ _
    | with_reducible apply State.setMig_keeps
    | exact Or.inr (by decide)
    | with_reducible exact Or.inl rfl
    | (show (_ : List Area) ⊆ _; decide)
    | with_reducible apply Keeps.mk
    | dsimp only
    | exact Or.inl rfl

theorem engReady_keeps {A_ : List Area} {s_ : State} {u : EngUse} {wr : Bool} {e : TileEnt} {l : Nat} {s : State}
    (ha_ : [.ports, .xpt, .til, .dir] ⊆ A_) (hs_ : Keeps A_ s_ s) : Keeps A_ s_ (engReady u wr e l s).2 := by
  refine Keeps.comp ?_ ha_ hs_
  clear hs_ ha_; unfold engReady
  try dsimp only
  repeat' first
    | with_reducible exact Keeps.refl _ _
    | with_reducible apply atGate_keeps
    | with_reducible apply engineLine_keeps
    | with_reducible refine Keeps.pair1 (p := engineLine _ _ _ _ _ _) (by assumption) ?_
    | with_reducible refine Keeps.ite ?_ ?_
    | (show (_ : List Area) ⊆ _; decide)
    | split
    | dsimp only

theorem engRead_keeps {A_ : List Area} {s_ t_ : State} {u : EngUse} {t : Nat} {g : BitVec 16} {hint : Nat} {va : Nat} {n : Nat} {s : State} (h_ : (engRead u t g hint va n s).st = some t_)
    (ha_ : [.ports, .xpt, .til, .dram, .dir] ⊆ A_) (hs_ : Keeps A_ s_ s) : Keeps A_ s_ t_ := by
  refine Keeps.comp ?_ ha_ hs_
  clear hs_ ha_; unfold engRead at h_
  try dsimp only at h_
  repeat' (split at h_)
  all_goals try dsimp only [Acc.st] at h_
  all_goals first | with_reducible exact Keeps.of_none h_ | (with_reducible obtain rfl := Option.some.inj h_) | skip
  repeat' first
    | with_reducible exact Keeps.refl _ _
    | with_reducible apply engReady_keeps
    | with_reducible refine Keeps.pair1 (p := engReady _ _ _ _ _) (by assumption) ?_
    | with_reducible apply touch_keeps
    | (show (_ : List Area) ⊆ _; decide)
    | split
    | dsimp only

theorem engWrite_keeps {A_ : List Area} {s_ t_ : State} {u : EngUse} {t : Nat} {g : BitVec 16} {hint : Nat} {va : Nat} {d : List Byte} {s : State} (h_ : (engWrite u t g hint va d s).st = some t_)
    (ha_ : [.ports, .xpt, .til, .dram, .dir] ⊆ A_) (hs_ : Keeps A_ s_ s) : Keeps A_ s_ t_ := by
  refine Keeps.comp ?_ ha_ hs_
  clear hs_ ha_; unfold engWrite at h_
  try dsimp only at h_
  repeat' (split at h_)
  all_goals try dsimp only [Acc.st] at h_
  all_goals first | with_reducible exact Keeps.of_none h_ | (with_reducible obtain rfl := Option.some.inj h_) | skip
  repeat' first
    | with_reducible exact Keeps.refl _ _
    | with_reducible apply engReady_keeps
    | with_reducible refine Keeps.pair1 (p := engReady _ _ _ _ _) (by assumption) ?_
    | with_reducible refine writeNow_keeps (by assumption) ?_ ?_
    | with_reducible apply touch_keeps
    | (show (_ : List Area) ⊆ _; decide)
    | split
    | dsimp only

theorem engReadAll_keeps {A_ : List Area} {u : EngUse} {t hint : Nat} (f : Nat) : ∀ {va n : Nat} {s_ s t_ : State}, (engReadAll u t hint f va n s).st = some t_ →
    [.ports, .xpt, .til, .dram, .dir] ⊆ A_ → Keeps A_ s_ s → Keeps A_ s_ t_ := by
  induction f with
  | zero => intro va n s_ s t_ h _ k; cases h; exact k
  | succ f ih =>
    intro va n s_ s t_ h ha k
    unfold engReadAll at h
    split at h
    · cases h; exact k
    · dsimp only at h
      split at h
      case _ x s1 e1 =>
        have k1 : Keeps A_ s_ s1 := engRead_keeps ((congrArg Acc.st e1).trans rfl) ha k
        split at h
        case _ y s2 e2 => cases h; exact ih ((congrArg Acc.st e2).trans rfl) ha k1
        case _ s2 e2 => cases h; exact ih ((congrArg Acc.st e2).trans rfl) ha k1
        case _ st s2 e2 => cases h; exact ih ((congrArg Acc.st e2).trans rfl) ha k1
      case _ s1 e1 => cases h; exact engRead_keeps ((congrArg Acc.st e1).trans rfl) ha k
      case _ st s1 e1 => cases h; exact engRead_keeps ((congrArg Acc.st e1).trans rfl) ha k

theorem engSpend_keeps {A_ : List Area} {s_ : State} {q : QId} {d : Desc} {s : State}
    (ha_ : [.eng] ⊆ A_) (hs_ : Keeps A_ s_ s) : Keeps A_ s_ (engSpend q d s) := by
  refine Keeps.comp ?_ ha_ hs_
  clear hs_ ha_; unfold engSpend
  try dsimp only
  repeat' first
    | with_reducible exact Keeps.refl _ _
    | exact Or.inr (by decide)
    | with_reducible exact Or.inl rfl
    | (show (_ : List Area) ⊆ _; decide)
    | with_reducible apply Keeps.mk
    | dsimp only
    | exact Or.inl rfl

theorem takeTurn_keeps {A_ : List Area} {s_ : State} {q : QId} {c : Cmd} {s : State}
    (ha_ : [.eng] ⊆ A_) (hs_ : Keeps A_ s_ s) : Keeps A_ s_ (takeTurn q c s) := by
  refine Keeps.comp ?_ ha_ hs_
  clear hs_ ha_; unfold takeTurn
  try dsimp only
  repeat' first
    | with_reducible exact Keeps.refl _ _
    | exact Or.inr (by decide)
    | with_reducible exact Or.inl rfl
    | (show (_ : List Area) ⊆ _; decide)
    | with_reducible apply Keeps.mk
    | dsimp only
    | exact Or.inl rfl

theorem runCmd_keeps {A_ : List Area} {s_ s : State} {q : QId} {idx : BitVec 16} {op : Nat} {check : Cmd → State → Option Status}
    {work : Cmd → State → State} (hw_ : ∀ c t, Keeps A_ t (work c t)) (ha_ : [.eng] ⊆ A_) (hs_ : Keeps A_ s_ s) :
    Keeps A_ s_ (runCmd q idx op check work s) := by
  refine Keeps.comp (B := A_) ?_ (List.Subset.refl _) hs_
  unfold runCmd
  split
  · exact Keeps.refl _ _
  · refine Keeps.ite (Keeps.refl _ _) (Keeps.ite (Keeps.ite (Keeps.refl _ _) (hw_ ..)) (Keeps.ite ?_ (Keeps.refl _ _)))
    have h1 : ∀ c d, Keeps A_ s (putCmd q c (takeTurn q d s)) := fun _ _ =>
      putCmd_keeps (List.Subset.trans (by decide) ha_) (takeTurn_keeps (List.Subset.trans (by decide) ha_) (Keeps.refl _ _))
    refine Keeps.ite (stopCmd_keeps (List.Subset.trans (by decide) ha_) (h1 _ _)) ?_
    split
    · exact stopCmd_keeps (List.Subset.trans (by decide) ha_) (h1 _ _)
    · exact Keeps.comp (hw_ ..) (List.Subset.refl _) (h1 _ _)

theorem commandFinish_keeps {A_ : List Area} {s_ : State} {q : QId} {idx : BitVec 16} {s : State}
    (ha_ : [.eng] ⊆ A_) (hs_ : Keeps A_ s_ s) : Keeps A_ s_ (commandFinish q idx s) := by
  refine Keeps.comp ?_ ha_ hs_
  clear hs_ ha_; unfold commandFinish
  try dsimp only
  repeat' first
    | with_reducible exact Keeps.refl _ _
    | with_reducible apply takeTurn_keeps
    | with_reducible apply finishCmd_keeps
    | with_reducible apply putCmd_keeps
    | with_reducible refine Keeps.ite ?_ ?_
    | exact Or.inr (by decide)
    | with_reducible exact Or.inl rfl
    | (show (_ : List Area) ⊆ _; decide)
    | split
    | with_reducible apply Keeps.mk
    | dsimp only
    | exact Or.inl rfl

theorem execCommandFinish_keeps {A_ : List Area} {s_ t_ : State} {q : QId} {idx : BitVec 16} {s : State} (h_ : execCommandFinish q idx s = .next t_)
    (ha_ : [.eng] ⊆ A_) (hs_ : Keeps A_ s_ s) : Keeps A_ s_ t_ := by
  refine Keeps.comp ?_ ha_ hs_
  clear hs_ ha_; unfold execCommandFinish at h_
  try dsimp only at h_
  all_goals first | with_reducible exact Keeps.of_fault h_ | (with_reducible obtain rfl := Host.Outcome.next.inj h_) | skip
  repeat' first
    | with_reducible exact Keeps.refl _ _
    | with_reducible apply commandFinish_keeps
    | with_reducible refine whileAlive_keeps (fun _ => ?_) ?_
    | (show (_ : List Area) ⊆ _; decide)

theorem qIllegal_keeps {A_ : List Area} {s_ : State} {q : QId} {s : State}
    (ha_ : [.eng] ⊆ A_) (hs_ : Keeps A_ s_ s) : Keeps A_ s_ (qIllegal q s) := by
  refine Keeps.comp ?_ ha_ hs_
  clear hs_ ha_; unfold qIllegal
  try dsimp only
  repeat' first
    | with_reducible exact Keeps.refl _ _
    | with_reducible apply State.setQueue_keeps
    | exact Or.inr (by decide)
    | with_reducible exact Or.inl rfl
    | (show (_ : List Area) ⊆ _; decide)
    | with_reducible apply Keeps.mk
    | dsimp only
    | exact Or.inl rfl

theorem writeSqTail_keeps {A_ : List Area} {s_ : State} {q : QId} {v : Word} {s : State}
    (ha_ : [.eng] ⊆ A_) (hs_ : Keeps A_ s_ s) : Keeps A_ s_ (writeSqTail q v s) := by
  refine Keeps.comp ?_ ha_ hs_
  clear hs_ ha_; unfold writeSqTail
  try dsimp only
  repeat' first
    | with_reducible exact Keeps.refl _ _
    | with_reducible apply qIllegal_keeps
    | with_reducible apply State.setQueue_keeps
    | with_reducible refine Keeps.ite ?_ ?_
    | exact Or.inr (by decide)
    | with_reducible exact Or.inl rfl
    | (show (_ : List Area) ⊆ _; decide)
    | split
    | with_reducible apply Keeps.mk
    | dsimp only
    | exact Or.inl rfl

theorem writeCqHead_keeps {A_ : List Area} {s_ : State} {q : QId} {v : Word} {s : State}
    (ha_ : [.eng] ⊆ A_) (hs_ : Keeps A_ s_ s) : Keeps A_ s_ (writeCqHead q v s) := by
  refine Keeps.comp ?_ ha_ hs_
  clear hs_ ha_; unfold writeCqHead
  try dsimp only
  repeat' first
    | with_reducible exact Keeps.refl _ _
    | with_reducible apply qIllegal_keeps
    | with_reducible apply State.setQueue_keeps
    | with_reducible refine Keeps.ite ?_ ?_
    | exact Or.inr (by decide)
    | with_reducible exact Or.inl rfl
    | (show (_ : List Area) ⊆ _; decide)
    | split
    | with_reducible apply Keeps.mk
    | dsimp only
    | exact Or.inl rfl

theorem takeDesc_keeps {A_ : List Area} {s_ : State} {q : QId} {b : List Byte} {s : State}
    (ha_ : [.eng] ⊆ A_) (hs_ : Keeps A_ s_ s) : Keeps A_ s_ (takeDesc q b s) := by
  refine Keeps.comp ?_ ha_ hs_
  clear hs_ ha_; unfold takeDesc
  try dsimp only
  repeat' first
    | with_reducible exact Keeps.refl _ _
    | with_reducible apply State.setQueue_keeps
    | with_reducible refine Keeps.ite ?_ ?_
    | exact Or.inr (by decide)
    | with_reducible exact Or.inl rfl
    | (show (_ : List Area) ⊆ _; decide)
    | split
    | with_reducible apply Keeps.mk
    | dsimp only
    | exact Or.inl rfl

theorem descriptorFetch_keeps {A_ : List Area} {s_ : State} {q : QId} {h : HostRead} {s : State}
    (ha_ : [.ports, .xpt, .til, .dram, .dir, .eng, .hosts, .flt, .sbd, .out] ⊆ A_) (hs_ : Keeps A_ s_ s) : Keeps A_ s_ (descriptorFetch q h s) := by
  refine Keeps.comp ?_ ha_ hs_
  clear hs_ ha_; unfold descriptorFetch
  try dsimp only
  repeat' first
    | with_reducible exact Keeps.refl _ _
    | with_reducible apply takeDesc_keeps
    | refine engRead_keeps ((congrArg Acc.st (by assumption)).trans rfl) ?_ ?_
    | with_reducible apply queueError_keeps
    | with_reducible refine Keeps.ite ?_ ?_
    | (show (_ : List Area) ⊆ _; decide)
    | split
    | dsimp only

theorem execDescriptorFetch_keeps {A_ : List Area} {s_ t_ : State} {q : QId} {h : HostRead} {s : State} (h_ : execDescriptorFetch q h s = .next t_)
    (ha_ : [.ports, .xpt, .til, .dram, .dir, .eng, .hosts, .flt, .sbd, .out] ⊆ A_) (hs_ : Keeps A_ s_ s) : Keeps A_ s_ t_ := by
  refine Keeps.comp ?_ ha_ hs_
  clear hs_ ha_; unfold execDescriptorFetch at h_
  try dsimp only at h_
  all_goals first | with_reducible exact Keeps.of_fault h_ | (with_reducible obtain rfl := Host.Outcome.next.inj h_) | skip
  repeat' first
    | with_reducible exact Keeps.refl _ _
    | with_reducible apply descriptorFetch_keeps
    | with_reducible refine whileAlive_keeps (fun _ => ?_) ?_
    | (show (_ : List Area) ⊆ _; decide)

theorem dropHead_keeps {A_ : List Area} {s_ : State} {q : QId} {adv : Bool} {s : State}
    (ha_ : [.eng] ⊆ A_) (hs_ : Keeps A_ s_ s) : Keeps A_ s_ (dropHead q adv s) := by
  refine Keeps.comp ?_ ha_ hs_
  clear hs_ ha_; unfold dropHead
  try dsimp only
  repeat' first
    | with_reducible exact Keeps.refl _ _
    | with_reducible apply State.setQueue_keeps
    | with_reducible refine Keeps.ite ?_ ?_
    | exact Or.inr (by decide)
    | with_reducible exact Or.inl rfl
    | (show (_ : List Area) ⊆ _; decide)
    | split
    | with_reducible apply Keeps.mk
    | dsimp only
    | exact Or.inl rfl

theorem complLost_keeps {A_ : List Area} {s_ : State} {q : QId} {s : State}
    (ha_ : [.eng] ⊆ A_) (hs_ : Keeps A_ s_ s) : Keeps A_ s_ (complLost q s) := by
  refine Keeps.comp ?_ ha_ hs_
  clear hs_ ha_; unfold complLost
  try dsimp only
  repeat' first
    | with_reducible exact Keeps.refl _ _
    | with_reducible apply State.setQueue_keeps
    | exact Or.inr (by decide)
    | with_reducible exact Or.inl rfl
    | (show (_ : List Area) ⊆ _; decide)
    | with_reducible apply Keeps.mk
    | dsimp only
    | exact Or.inl rfl

theorem complWritten_keeps {A_ : List Area} {s_ : State} {q : QId} {c : Cmd} {s : State}
    (ha_ : [.eng, .out] ⊆ A_) (hs_ : Keeps A_ s_ s) : Keeps A_ s_ (complWritten q c s) := by
  refine Keeps.comp ?_ ha_ hs_
  clear hs_ ha_; unfold complWritten
  try dsimp only
  repeat' first
    | with_reducible exact Keeps.refl _ _
    | with_reducible apply dropHead_keeps
    | with_reducible apply State.toHost_keeps
    | with_reducible apply State.emit_keeps
    | with_reducible refine Keeps.ite ?_ ?_
    | (show (_ : List Area) ⊆ _; decide)
    | split
    | dsimp only

theorem completionCommit_keeps {A_ : List Area} {s_ : State} {q : QId} {hostOk : Bool} {s : State}
    (ha_ : [.ports, .xpt, .til, .dram, .dir, .eng, .hosts, .flt, .sbd, .out] ⊆ A_) (hs_ : Keeps A_ s_ s) : Keeps A_ s_ (completionCommit q hostOk s) := by
  refine Keeps.comp ?_ ha_ hs_
  clear hs_ ha_; unfold completionCommit
  try dsimp only
  repeat' first
    | with_reducible exact Keeps.refl _ _
    | with_reducible apply complWritten_keeps
    | with_reducible apply complLost_keeps
    | with_reducible apply dropHead_keeps
    | refine engWrite_keeps ((congrArg Acc.st (by assumption)).trans rfl) ?_ ?_
    | with_reducible apply queueError_keeps
    | with_reducible refine Keeps.ite ?_ ?_
    | (show (_ : List Area) ⊆ _; decide)
    | split
    | dsimp only

theorem execCompletionCommit_keeps {A_ : List Area} {s_ t_ : State} {q : QId} {hostOk : Bool} {s : State} (h_ : execCompletionCommit q hostOk s = .next t_)
    (ha_ : [.ports, .xpt, .til, .dram, .dir, .eng, .hosts, .flt, .sbd, .out] ⊆ A_) (hs_ : Keeps A_ s_ s) : Keeps A_ s_ t_ := by
  refine Keeps.comp ?_ ha_ hs_
  clear hs_ ha_; unfold execCompletionCommit at h_
  try dsimp only at h_
  all_goals first | with_reducible exact Keeps.of_fault h_ | (with_reducible obtain rfl := Host.Outcome.next.inj h_) | skip
  repeat' first
    | with_reducible exact Keeps.refl _ _
    | with_reducible apply completionCommit_keeps
    | with_reducible refine whileAlive_keeps (fun _ => ?_) ?_
    | (show (_ : List Area) ⊆ _; decide)

end Sys2Proof.Machine
end

