-- ==== Sys2Proof/Laws/Frame/Tiles.lean ====
section
/-! SUPPORT. The frame of every operation of Machine/Tiles.lean: the areas it may change, and that pool memory keeps its canonical form. -/

namespace Sys2Proof.Machine

set_option linter.unusedTactic false
set_option linter.unreachableTactic false
set_option linter.unusedVariables false

theorem orFail_keeps {A_ : List Area} {s_ s : State} {o : Owed} {st : Option Status} {f : State → State}
    (hf_ : ∀ t, Keeps A_ t (f t)) (ha_ : [.hosts, .out] ⊆ A_) (hs_ : Keeps A_ s_ s) : Keeps A_ s_ (orFail o st f s) := by
  unfold orFail
  cases st with
  | none => exact Keeps.comp (hf_ _) (List.Subset.refl _) hs_
  | some st => exact answer_keeps ha_ hs_

theorem storeBusy_keeps {A_ : List Area} {s_ : State} {o : Owed} {s : State}
    (ha_ : [.til, .hosts, .out] ⊆ A_) (hs_ : Keeps A_ s_ s) : Keeps A_ s_ (storeBusy o s) := by
  refine Keeps.comp ?_ ha_ hs_
  clear hs_ ha_; unfold storeBusy
  try dsimp only
  repeat' first
    | with_reducible exact Keeps.refl _ _
    | with_reducible apply answer_keeps
    | exact Or.inr (by decide)
    | with_reducible exact Or.inl rfl
    | (show (_ : List Area) ⊆ _; decide)
    | with_reducible apply Keeps.mk
    | dsimp only
    | exact Or.inl rfl

theorem putTile_keeps {A_ : List Area} {s_ : State} {t : Nat} {tile : Nat} {e : TileEnt} {s : State}
    (ha_ : [.insts, .til] ⊆ A_) (hs_ : Keeps A_ s_ s) : Keeps A_ s_ (putTile t tile e s) := by
  refine Keeps.comp ?_ ha_ hs_
  clear hs_ ha_; unfold putTile
  try dsimp only
  repeat' first
    | with_reducible exact Keeps.refl _ _
    | with_reducible apply State.putShadow_keeps
    | with_reducible refine Keeps.ite ?_ ?_
    | exact Or.inr (by decide)
    | with_reducible exact Or.inl rfl
    | (show (_ : List Area) ⊆ _; decide)
    | split
    | with_reducible apply Keeps.mk
    | dsimp only
    | exact Or.inl rfl

theorem dropLag_keeps {A_ : List Area} {s_ : State} {s : State}
    (ha_ : [.til] ⊆ A_) (hs_ : Keeps A_ s_ s) : Keeps A_ s_ (dropLag s) := by
  refine Keeps.comp ?_ ha_ hs_
  clear hs_ ha_; unfold dropLag
  try dsimp only
  repeat' first
    | with_reducible exact Keeps.refl _ _
    | exact Or.inr (by decide)
    | with_reducible exact Or.inl rfl
    | (show (_ : List Area) ⊆ _; decide)
    | with_reducible apply Keeps.mk
    | dsimp only
    | exact Or.inl rfl

theorem dropMirror_keeps {A_ : List Area} {s_ : State} {g : Nat × Nat} {s : State}
    (ha_ : [.insts, .til] ⊆ A_) (hs_ : Keeps A_ s_ s) : Keeps A_ s_ (dropMirror g s) := by
  refine Keeps.comp ?_ ha_ hs_
  clear hs_ ha_; unfold dropMirror
  try dsimp only
  repeat' first
    | with_reducible exact Keeps.refl _ _
    | with_reducible apply putTile_keeps
    | with_reducible apply State.setCommit_keeps
    | exact Or.inr (by decide)
    | with_reducible exact Or.inl rfl
    | (show (_ : List Area) ⊆ _; decide)
    | with_reducible apply Keeps.mk
    | dsimp only
    | exact Or.inl rfl

theorem mapTiles_keeps {A_ : List Area} {tier : Tier} {t : Nat} {c r : Bool} (l : List Nat) : ∀ {s_ s : State}, [.insts, .parts, .serialNo, .til, .dram] ⊆ A_ → Keeps A_ s_ s →
    Keeps A_ s_ (mapTiles tier t c r l s) := by
  induction l with
  | nil => intro s_ s _ h; exact h
  | cons k l ih =>
    intro s_ s ha h
    unfold mapTiles
    split
    · exact h
    · exact ih ha (putTile_keeps (List.Subset.trans (by decide) ha) (takeTile_keeps (List.Subset.trans (by decide) ha) h))

theorem tileMapBody_keeps {A_ : List Area} {s_ : State} {o : Owed} {t : Nat} {tile : Nat} {n : Nat} {tier : Nat} {coherent : Bool} {ro : Bool} {s : State}
    (ha_ : [.insts, .parts, .serialNo, .til, .dram, .hosts, .out] ⊆ A_) (hs_ : Keeps A_ s_ s) : Keeps A_ s_ (tileMapBody o t tile n tier coherent ro s) := by
  refine Keeps.comp ?_ ha_ hs_
  clear hs_ ha_; unfold tileMapBody
  try dsimp only
  repeat' first
    | with_reducible exact Keeps.refl _ _
    | with_reducible apply mapTiles_keeps
    | with_reducible apply storeBusy_keeps
    | with_reducible refine orFail_keeps (fun _ => ?_) ?_ ?_
    | with_reducible apply answerAwake_keeps
    | with_reducible refine Keeps.ite ?_ ?_
    | (show (_ : List Area) ⊆ _; decide)
    | split
    | dsimp only

theorem execTileMap_keeps {A_ : List Area} {s_ t_ : State} {fn : Fn} {m : MbxHdr} {tenant : Byte} {tile : Word} {count : BitVec 16} {tier : Byte} {flags : Byte} {s : State} (h_ : execTileMap fn m tenant tile count tier flags s = .next t_)
    (ha_ : [.insts, .parts, .serialNo, .til, .dram, .hosts, .out] ⊆ A_) (hs_ : Keeps A_ s_ s) : Keeps A_ s_ t_ := by
  refine Keeps.comp ?_ ha_ hs_
  clear hs_ ha_; unfold execTileMap at h_
  try dsimp only at h_
  all_goals first | with_reducible exact Keeps.of_fault h_ | (with_reducible obtain rfl := Host.Outcome.next.inj h_) | skip
  repeat' first
    | with_reducible exact Keeps.refl _ _
    | with_reducible apply tileMapBody_keeps
    | with_reducible refine orFail_keeps (fun _ => ?_) ?_ ?_
    | with_reducible refine mailbox_keeps (fun _ _ => ?_) ?_ ?_
    | with_reducible apply answer_keeps
    | with_reducible refine Keeps.ite ?_ ?_
    | (show (_ : List Area) ⊆ _; decide)
    | split
    | dsimp only

theorem tileUnmapBody_keeps {A_ : List Area} {s_ : State} {o : Owed} {t : Nat} {tile : Nat} {n : Nat} {s : State}
    (ha_ : [.insts, .til, .hosts, .out] ⊆ A_) (hs_ : Keeps A_ s_ s) : Keeps A_ s_ (tileUnmapBody o t tile n s) := by
  refine Keeps.comp ?_ ha_ hs_
  clear hs_ ha_; unfold tileUnmapBody
  try dsimp only
  repeat' first
    | with_reducible exact Keeps.refl _ _
    | with_reducible apply dropMirror_keeps
    | with_reducible apply putTile_keeps
    | with_reducible refine orFail_keeps (fun _ => ?_) ?_ ?_
    | with_reducible apply answer_keeps
    | with_reducible refine Keeps.foldl (fun _ _ => ?_) _ ?_
    | (show (_ : List Area) ⊆ _; decide)

theorem execTileUnmap_keeps {A_ : List Area} {s_ t_ : State} {fn : Fn} {m : MbxHdr} {tenant : Byte} {tile : Word} {count : BitVec 16} {s : State} (h_ : execTileUnmap fn m tenant tile count s = .next t_)
    (ha_ : [.insts, .serialNo, .til, .hosts, .out] ⊆ A_) (hs_ : Keeps A_ s_ s) : Keeps A_ s_ t_ := by
  refine Keeps.comp ?_ ha_ hs_
  clear hs_ ha_; unfold execTileUnmap at h_
  try dsimp only at h_
  all_goals first | with_reducible exact Keeps.of_fault h_ | (with_reducible obtain rfl := Host.Outcome.next.inj h_) | skip
  repeat' first
    | with_reducible exact Keeps.refl _ _
    | with_reducible apply tileUnmapBody_keeps
    | with_reducible refine orFail_keeps (fun _ => ?_) ?_ ?_
    | with_reducible refine mailbox_keeps (fun _ _ => ?_) ?_ ?_
    | with_reducible apply answer_keeps
    | with_reducible refine Keeps.ite ?_ ?_
    | (show (_ : List Area) ⊆ _; decide)
    | split
    | dsimp only

theorem protectMirror_keeps {A_ : List Area} {s_ : State} {ro : Bool} {g : Nat × Nat} {s : State}
    (ha_ : [.insts, .til] ⊆ A_) (hs_ : Keeps A_ s_ s) : Keeps A_ s_ (protectMirror ro g s) := by
  refine Keeps.comp ?_ ha_ hs_
  clear hs_ ha_; unfold protectMirror
  try dsimp only
  repeat' first
    | with_reducible exact Keeps.refl _ _
    | with_reducible apply putTile_keeps
    | with_reducible apply State.setCommit_keeps
    | exact Or.inr (by decide)
    | with_reducible exact Or.inl rfl
    | (show (_ : List Area) ⊆ _; decide)
    | with_reducible apply Keeps.mk
    | dsimp only
    | exact Or.inl rfl

theorem tileProtectBody_keeps {A_ : List Area} {s_ : State} {o : Owed} {t : Nat} {tile : Nat} {n : Nat} {ro : Bool} {s : State}
    (ha_ : [.insts, .til, .hosts, .out] ⊆ A_) (hs_ : Keeps A_ s_ s) : Keeps A_ s_ (tileProtectBody o t tile n ro s) := by
  refine Keeps.comp ?_ ha_ hs_
  clear hs_ ha_; unfold tileProtectBody
  try dsimp only
  repeat' first
    | with_reducible exact Keeps.refl _ _
    | with_reducible apply protectMirror_keeps
    | with_reducible apply putTile_keeps
    | with_reducible refine orFail_keeps (fun _ => ?_) ?_ ?_
    | with_reducible apply answer_keeps
    | with_reducible refine Keeps.foldl (fun _ _ => ?_) _ ?_
    | exact Or.inr (by decide)
    | with_reducible exact Or.inl rfl
    | (show (_ : List Area) ⊆ _; decide)
    | with_reducible apply Keeps.mk
    | dsimp only
    | exact Or.inl rfl

theorem execTileProtect_keeps {A_ : List Area} {s_ t_ : State} {fn : Fn} {m : MbxHdr} {tenant : Byte} {tile : Word} {count : BitVec 16} {ro : Byte} {s : State} (h_ : execTileProtect fn m tenant tile count ro s = .next t_)
    (ha_ : [.insts, .serialNo, .til, .hosts, .out] ⊆ A_) (hs_ : Keeps A_ s_ s) : Keeps A_ s_ t_ := by
  refine Keeps.comp ?_ ha_ hs_
  clear hs_ ha_; unfold execTileProtect at h_
  try dsimp only at h_
  all_goals first | with_reducible exact Keeps.of_fault h_ | (with_reducible obtain rfl := Host.Outcome.next.inj h_) | skip
  repeat' first
    | with_reducible exact Keeps.refl _ _
    | with_reducible apply tileProtectBody_keeps
    | with_reducible refine orFail_keeps (fun _ => ?_) ?_ ?_
    | with_reducible refine mailbox_keeps (fun _ _ => ?_) ?_ ?_
    | with_reducible apply answer_keeps
    | with_reducible refine Keeps.ite ?_ ?_
    | (show (_ : List Area) ⊆ _; decide)
    | split
    | dsimp only

theorem putMirror_keeps {A_ : List Area} {s_ : State} {owner : Nat} {tile : Nat} {g : Nat} {gtile : Nat} {rw : Bool} {s : State}
    (ha_ : [.insts, .til] ⊆ A_) (hs_ : Keeps A_ s_ s) : Keeps A_ s_ (putMirror owner tile g gtile rw s) := by
  refine Keeps.comp ?_ ha_ hs_
  clear hs_ ha_; unfold putMirror
  try dsimp only
  repeat' first
    | with_reducible exact Keeps.refl _ _
    | with_reducible apply putTile_keeps
    | exact Or.inr (by decide)
    | with_reducible exact Or.inl rfl
    | (show (_ : List Area) ⊆ _; decide)
    | with_reducible apply Keeps.mk
    | dsimp only
    | exact Or.inl rfl

theorem tileGrantBody_keeps {A_ : List Area} {s_ : State} {o : Owed} {owner : Nat} {tile : Nat} {n : Nat} {g : Nat} {gtile : Nat} {rw : Bool} {s : State}
    (ha_ : [.insts, .til, .hosts, .out] ⊆ A_) (hs_ : Keeps A_ s_ s) : Keeps A_ s_ (tileGrantBody o owner tile n g gtile rw s) := by
  refine Keeps.comp ?_ ha_ hs_
  clear hs_ ha_; unfold tileGrantBody
  try dsimp only
  repeat' first
    | with_reducible exact Keeps.refl _ _
    | with_reducible apply putMirror_keeps
    | with_reducible apply storeBusy_keeps
    | with_reducible refine orFail_keeps (fun _ => ?_) ?_ ?_
    | with_reducible apply answer_keeps
    | with_reducible apply State.setCommit_keeps
    | with_reducible refine Keeps.foldl (fun _ _ => ?_) _ ?_
    | with_reducible refine Keeps.ite ?_ ?_
    | (show (_ : List Area) ⊆ _; decide)
    | split
    | dsimp only

theorem execTileGrant_keeps {A_ : List Area} {s_ t_ : State} {fn : Fn} {m : MbxHdr} {owner : Byte} {tile : Word} {count : BitVec 16} {grantee : Byte} {gtile : Word} {mode : Byte} {s : State} (h_ : execTileGrant fn m owner tile count grantee gtile mode s = .next t_)
    (ha_ : [.insts, .serialNo, .til, .hosts, .out] ⊆ A_) (hs_ : Keeps A_ s_ s) : Keeps A_ s_ t_ := by
  refine Keeps.comp ?_ ha_ hs_
  clear hs_ ha_; unfold execTileGrant at h_
  try dsimp only at h_
  all_goals first | with_reducible exact Keeps.of_fault h_ | (with_reducible obtain rfl := Host.Outcome.next.inj h_) | skip
  repeat' first
    | with_reducible exact Keeps.refl _ _
    | with_reducible apply tileGrantBody_keeps
    | with_reducible refine orFail_keeps (fun _ => ?_) ?_ ?_
    | with_reducible refine mailbox_keeps (fun _ _ => ?_) ?_ ?_
    | with_reducible apply answer_keeps
    | with_reducible refine Keeps.ite ?_ ?_
    | (show (_ : List Area) ⊆ _; decide)
    | split
    | dsimp only

theorem tileRevokeBody_keeps {A_ : List Area} {s_ : State} {fn : Fn} {o : Owed} {g : Nat} {gtile : Nat} {n : Nat} {s : State}
    (ha_ : [.insts, .til, .hosts, .out] ⊆ A_) (hs_ : Keeps A_ s_ s) : Keeps A_ s_ (tileRevokeBody fn o g gtile n s) := by
  refine Keeps.comp ?_ ha_ hs_
  clear hs_ ha_; unfold tileRevokeBody
  try dsimp only
  repeat' first
    | with_reducible exact Keeps.refl _ _
    | with_reducible apply dropMirror_keeps
    | with_reducible refine orFail_keeps (fun _ => ?_) ?_ ?_
    | with_reducible apply answer_keeps
    | with_reducible refine Keeps.foldl (fun _ _ => ?_) _ ?_
    | (show (_ : List Area) ⊆ _; decide)

theorem execTileRevoke_keeps {A_ : List Area} {s_ t_ : State} {fn : Fn} {m : MbxHdr} {grantee : Byte} {gtile : Word} {count : BitVec 16} {s : State} (h_ : execTileRevoke fn m grantee gtile count s = .next t_)
    (ha_ : [.insts, .serialNo, .til, .hosts, .out] ⊆ A_) (hs_ : Keeps A_ s_ s) : Keeps A_ s_ t_ := by
  refine Keeps.comp ?_ ha_ hs_
  clear hs_ ha_; unfold execTileRevoke at h_
  try dsimp only at h_
  all_goals first | with_reducible exact Keeps.of_fault h_ | (with_reducible obtain rfl := Host.Outcome.next.inj h_) | skip
  repeat' first
    | with_reducible exact Keeps.refl _ _
    | with_reducible apply tileRevokeBody_keeps
    | with_reducible refine orFail_keeps (fun _ => ?_) ?_ ?_
    | with_reducible refine mailbox_keeps (fun _ _ => ?_) ?_ ?_
    | with_reducible apply answer_keeps
    | with_reducible refine Keeps.ite ?_ ?_
    | (show (_ : List Area) ⊆ _; decide)
    | split
    | dsimp only

theorem migrateTile_keeps {A_ : List Area} {s_ s t_ : State} {t tile k_ : Nat} {dst : Tier} {cmd : Option (QId × BitVec 16)}
    (h_ : migrateTile t tile dst cmd s = .ok (k_, t_)) (ha_ : [.insts, .nid, .parts, .serialNo, .til, .dram, .hosts, .flt, .sbd, .out] ⊆ A_) (hs_ : Keeps A_ s_ s) : Keeps A_ s_ t_ := by
  unfold migrateTile at h_
  dsimp only at h_
  repeat' (split at h_)
  all_goals first
    | (cases h_; done)
    | (cases h_; exact startMig_keeps (List.Subset.trans (by decide) ha_) hs_)

theorem execTileMigrate_keeps {A_ : List Area} {s_ t_ : State} {fn : Fn} {m : MbxHdr} {tenant : Byte} {tile : Word} {tier : Byte} {s : State} (h_ : execTileMigrate fn m tenant tile tier s = .next t_)
    (ha_ : [.insts, .nid, .parts, .serialNo, .til, .dram, .hosts, .flt, .sbd, .out] ⊆ A_) (hs_ : Keeps A_ s_ s) : Keeps A_ s_ t_ := by
  refine Keeps.comp ?_ ha_ hs_
  clear hs_ ha_; unfold execTileMigrate at h_
  try dsimp only at h_
  all_goals first | with_reducible exact Keeps.of_fault h_ | (with_reducible obtain rfl := Host.Outcome.next.inj h_) | skip
  repeat' first
    | with_reducible exact Keeps.refl _ _
    | refine migrateTile_keeps (by assumption) ?_ ?_
    | with_reducible refine orFail_keeps (fun _ => ?_) ?_ ?_
    | with_reducible apply answerAwake_keeps
    | with_reducible refine mailbox_keeps (fun _ _ => ?_) ?_ ?_
    | with_reducible apply answer_keeps
    | with_reducible refine Keeps.ite ?_ ?_
    | (show (_ : List Area) ⊆ _; decide)
    | split
    | dsimp only

theorem remap_keeps {A_ : List Area} {s_ : State} {k : Nat} {s : State}
    (ha_ : [.insts, .til] ⊆ A_) (hs_ : Keeps A_ s_ s) : Keeps A_ s_ (remap k s) := by
  refine Keeps.comp ?_ ha_ hs_
  clear hs_ ha_; unfold remap
  try dsimp only
  repeat' first
    | with_reducible exact Keeps.refl _ _
    | with_reducible apply State.setMig_keeps
    | with_reducible apply State.setInst_keeps
    | with_reducible refine Keeps.foldl (fun _ _ => ?_) _ ?_
    | with_reducible refine Keeps.ite ?_ ?_
    | exact Or.inr (by decide)
    | with_reducible exact Or.inl rfl
    | (show (_ : List Area) ⊆ _; decide)
    | split
    | with_reducible apply Keeps.mk
    | dsimp only
    | exact Or.inl rfl

theorem migrationPassDone_keeps {A_ : List Area} {s_ : State} {k : Nat} {s : State}
    (ha_ : [.insts, .nid, .serialNo, .til, .dram, .hosts, .flt, .sbd, .out] ⊆ A_) (hs_ : Keeps A_ s_ s) : Keeps A_ s_ (migrationPassDone k s) := by
  refine Keeps.comp ?_ ha_ hs_
  clear hs_ ha_; unfold migrationPassDone
  try dsimp only
  repeat' first
    | with_reducible exact Keeps.refl _ _
    | with_reducible apply remap_keeps
    | with_reducible apply copyPass_keeps
    | with_reducible apply State.setMig_keeps
    | with_reducible refine Keeps.ite ?_ ?_
    | exact Or.inr (by decide)
    | with_reducible exact Or.inl rfl
    | (show (_ : List Area) ⊆ _; decide)
    | split
    | with_reducible apply Keeps.mk
    | dsimp only
    | exact Or.inl rfl

theorem execMigrationPassDone_keeps {A_ : List Area} {s_ t_ : State} {k : Fin 16} {s : State} (h_ : execMigrationPassDone k s = .next t_)
    (ha_ : [.insts, .nid, .serialNo, .til, .dram, .hosts, .flt, .sbd, .out] ⊆ A_) (hs_ : Keeps A_ s_ s) : Keeps A_ s_ t_ := by
  refine Keeps.comp ?_ ha_ hs_
  clear hs_ ha_; unfold execMigrationPassDone at h_
  try dsimp only at h_
  all_goals first | with_reducible exact Keeps.of_fault h_ | (with_reducible obtain rfl := Host.Outcome.next.inj h_) | skip
  repeat' first
    | with_reducible exact Keeps.refl _ _
    | with_reducible apply migrationPassDone_keeps
    | with_reducible refine whileAlive_keeps (fun _ => ?_) ?_
    | (show (_ : List Area) ⊆ _; decide)

theorem migFlip_keeps {A_ : List Area} {s_ : State} {t : Nat} {s : State}
    (ha_ : [.til] ⊆ A_) (hs_ : Keeps A_ s_ s) : Keeps A_ s_ (migFlip t s) := by
  refine Keeps.comp ?_ ha_ hs_
  clear hs_ ha_; unfold migFlip
  try dsimp only
  repeat' first
    | with_reducible exact Keeps.refl _ _
    | with_reducible apply State.setMig_keeps
    | with_reducible refine Keeps.foldl (fun _ _ => ?_) _ ?_
    | with_reducible refine Keeps.ite ?_ ?_
    | exact Or.inr (by decide)
    | with_reducible exact Or.inl rfl
    | (show (_ : List Area) ⊆ _; decide)
    | split
    | with_reducible apply Keeps.mk
    | dsimp only
    | exact Or.inl rfl

theorem retryRemaps_keeps {A_ : List Area} {s_ : State} {s : State}
    (ha_ : [.insts, .til] ⊆ A_) (hs_ : Keeps A_ s_ s) : Keeps A_ s_ (retryRemaps s) := by
  refine Keeps.comp ?_ ha_ hs_
  clear hs_ ha_; unfold retryRemaps
  try dsimp only
  repeat' first
    | with_reducible exact Keeps.refl _ _
    | with_reducible apply remap_keeps
    | with_reducible refine Keeps.foldl (fun _ _ => ?_) _ ?_
    | with_reducible refine Keeps.ite ?_ ?_
    | (show (_ : List Area) ⊆ _; decide)
    | split
    | dsimp only

theorem mrpWork_keeps {A_ : List Area} {s_ : State} {s : State}
    (ha_ : [.insts, .nid, .parts, .serialNo, .til, .dram, .hosts, .flt, .sbd, .out] ⊆ A_) (hs_ : Keeps A_ s_ s) : Keeps A_ s_ (mrpWork s) := by
  refine Keeps.comp ?_ ha_ hs_
  clear hs_ ha_; unfold mrpWork
  try dsimp only
  repeat' first
    | with_reducible exact Keeps.refl _ _
    | with_reducible apply retryRemaps_keeps
    | with_reducible apply retryBogs_keeps
    | with_reducible apply startParked_keeps
    | with_reducible refine Keeps.ite ?_ ?_
    | (show (_ : List Area) ⊆ _; decide)
    | split
    | dsimp only

theorem openGate_keeps {A_ : List Area} {s_ : State} {s : State}
    (ha_ : [.dram] ⊆ A_) (hs_ : Keeps A_ s_ s) : Keeps A_ s_ (openGate s) := by
  refine Keeps.comp ?_ ha_ hs_
  clear hs_ ha_; unfold openGate
  try dsimp only
  repeat' first
    | with_reducible exact Keeps.refl _ _
    | with_reducible refine Keeps.ite ?_ ?_
    | exact Or.inr (by decide)
    | with_reducible exact Or.inl rfl
    | (show (_ : List Area) ⊆ _; decide)
    | split
    | with_reducible apply Keeps.mk
    | dsimp only
    | exact Or.inl rfl

theorem migrationFinalPass_keeps {A_ : List Area} {s_ : State} {k : Nat} {s : State}
    (ha_ : [.streams, .reqs, .ports, .xpt, .til, .dram, .dir] ⊆ A_) (hs_ : Keeps A_ s_ s) : Keeps A_ s_ (migrationFinalPass k s) := by
  refine Keeps.comp ?_ ha_ hs_
  clear hs_ ha_; unfold migrationFinalPass
  try dsimp only
  repeat' first
    | with_reducible exact Keeps.refl _ _
    | with_reducible apply recallTile_keeps
    | with_reducible apply settle_keeps
    | with_reducible apply State.setMig_keeps
    | with_reducible refine Keeps.ite ?_ ?_
    | exact Or.inr (by decide)
    | with_reducible exact Or.inl rfl
    | (show (_ : List Area) ⊆ _; decide)
    | split
    | with_reducible apply Keeps.mk
    | dsimp only
    | exact Or.inl rfl

theorem execMigrationFinalPass_keeps {A_ : List Area} {s_ t_ : State} {k : Fin 16} {s : State} (h_ : execMigrationFinalPass k s = .next t_)
    (ha_ : [.streams, .reqs, .ports, .xpt, .til, .dram, .dir] ⊆ A_) (hs_ : Keeps A_ s_ s) : Keeps A_ s_ t_ := by
  refine Keeps.comp ?_ ha_ hs_
  clear hs_ ha_; unfold execMigrationFinalPass at h_
  try dsimp only at h_
  all_goals first | with_reducible exact Keeps.of_fault h_ | (with_reducible obtain rfl := Host.Outcome.next.inj h_) | skip
  repeat' first
    | with_reducible exact Keeps.refl _ _
    | with_reducible apply migrationFinalPass_keeps
    | with_reducible refine whileAlive_keeps (fun _ => ?_) ?_
    | (show (_ : List Area) ⊆ _; decide)

theorem migrationBlockCopied_keeps {A_ : List Area} {s_ : State} {k : Nat} {b : Nat} {s : State}
    (ha_ : [.nid, .serialNo, .til, .dram, .hosts, .flt, .sbd, .out] ⊆ A_) (hs_ : Keeps A_ s_ s) : Keeps A_ s_ (migrationBlockCopied k b s) := by
  refine Keeps.comp ?_ ha_ hs_
  clear hs_ ha_; unfold migrationBlockCopied
  try dsimp only
  repeat' first
    | with_reducible exact Keeps.refl _ _
    | with_reducible apply openGate_keeps
    | with_reducible apply copyPass_keeps
    | with_reducible apply State.setMig_keeps
    | with_reducible refine Keeps.ite ?_ ?_
    | exact Or.inr (by decide)
    | with_reducible exact Or.inl rfl
    | (show (_ : List Area) ⊆ _; decide)
    | split
    | with_reducible apply Keeps.mk
    | dsimp only
    | exact Or.inl rfl

theorem execMigrationBlockCopied_keeps {A_ : List Area} {s_ t_ : State} {k : Fin 16} {block : Fin 512} {s : State} (h_ : execMigrationBlockCopied k block s = .next t_)
    (ha_ : [.nid, .serialNo, .til, .dram, .hosts, .flt, .sbd, .out] ⊆ A_) (hs_ : Keeps A_ s_ s) : Keeps A_ s_ t_ := by
  refine Keeps.comp ?_ ha_ hs_
  clear hs_ ha_; unfold execMigrationBlockCopied at h_
  try dsimp only at h_
  all_goals first | with_reducible exact Keeps.of_fault h_ | (with_reducible obtain rfl := Host.Outcome.next.inj h_) | skip
  repeat' first
    | with_reducible exact Keeps.refl _ _
    | with_reducible apply migrationBlockCopied_keeps
    | with_reducible refine whileAlive_keeps (fun _ => ?_) ?_
    | (show (_ : List Area) ⊆ _; decide)

theorem postOwner_keeps {A_ : List Area} {s_ : State} {port : Fin 4} {e : Event} {s : State}
    (ha_ : [.hosts, .sbd, .out] ⊆ A_) (hs_ : Keeps A_ s_ s) : Keeps A_ s_ (postOwner port e s) := by
  refine Keeps.comp ?_ ha_ hs_
  clear hs_ ha_; unfold postOwner
  try dsimp only
  repeat' first
    | with_reducible exact Keeps.refl _ _
    | with_reducible apply postAdmin_keeps
    | with_reducible apply postRing_keeps
    | with_reducible refine Keeps.ite ?_ ?_
    | (show (_ : List Area) ⊆ _; decide)
    | split
    | dsimp only

theorem returnTile_keeps {A_ : List Area} {s_ : State} {t : Tier} {p : Nat} {retire : Bool} {s : State}
    (ha_ : [.insts, .nid, .parts, .serialNo, .til, .dram, .hosts, .flt, .sbd, .out] ⊆ A_) (hs_ : Keeps A_ s_ s) : Keeps A_ s_ (returnTile t p retire s) := by
  refine Keeps.comp ?_ ha_ hs_
  clear hs_ ha_; unfold returnTile
  try dsimp only
  repeat' first
    | with_reducible exact Keeps.refl _ _
    | with_reducible apply mrpWork_keeps
    | with_reducible apply dropUse_keeps
    | (show (_ : List Area) ⊆ _; decide)

theorem migrationRelease_keeps {A_ : List Area} {s_ : State} {k : Nat} {s : State}
    (ha_ : [.insts, .nid, .parts, .serialNo, .til, .dram, .eng, .hosts, .flt, .sbd, .out] ⊆ A_) (hs_ : Keeps A_ s_ s) : Keeps A_ s_ (migrationRelease k s) := by
  refine Keeps.comp ?_ ha_ hs_
  clear hs_ ha_; unfold migrationRelease
  try dsimp only
  repeat' first
    | with_reducible exact Keeps.refl _ _
    | with_reducible apply returnTile_keeps
    | with_reducible apply postOwner_keeps
    | with_reducible apply stopCmd_keeps
    | with_reducible apply mapBoth_keeps
    | with_reducible apply State.setMig_keeps
    | with_reducible refine Keeps.ite ?_ ?_
    | exact Or.inr (by decide)
    | with_reducible exact Or.inl rfl
    | (show (_ : List Area) ⊆ _; decide)
    | split
    | with_reducible apply Keeps.mk
    | dsimp only
    | exact Or.inl rfl

theorem execMigrationRelease_keeps {A_ : List Area} {s_ t_ : State} {k : Fin 16} {s : State} (h_ : execMigrationRelease k s = .next t_)
    (ha_ : [.insts, .nid, .parts, .serialNo, .til, .dram, .eng, .hosts, .flt, .sbd, .out] ⊆ A_) (hs_ : Keeps A_ s_ s) : Keeps A_ s_ t_ := by
  refine Keeps.comp ?_ ha_ hs_
  clear hs_ ha_; unfold execMigrationRelease at h_
  try dsimp only at h_
  all_goals first | with_reducible exact Keeps.of_fault h_ | (with_reducible obtain rfl := Host.Outcome.next.inj h_) | skip
  repeat' first
    | with_reducible exact Keeps.refl _ _
    | with_reducible apply migrationRelease_keeps
    | with_reducible refine Keeps.ite ?_ ?_
    | (show (_ : List Area) ⊆ _; decide)
    | split
    | dsimp only

theorem abortMig_keeps {A_ : List Area} {s_ : State} {k : Nat} {s : State}
    (ha_ : [.insts, .nid, .parts, .serialNo, .til, .dram, .hosts, .flt, .sbd, .out] ⊆ A_) (hs_ : Keeps A_ s_ s) : Keeps A_ s_ (abortMig k s) := by
  refine Keeps.comp ?_ ha_ hs_
  clear hs_ ha_; unfold abortMig
  try dsimp only
  repeat' first
    | with_reducible exact Keeps.refl _ _
    | with_reducible apply returnTile_keeps
    | with_reducible apply mapBoth_keeps
    | with_reducible apply State.setMig_keeps
    | exact Or.inr (by decide)
    | with_reducible exact Or.inl rfl
    | (show (_ : List Area) ⊆ _; decide)
    | with_reducible apply Keeps.mk
    | dsimp only
    | exact Or.inl rfl

theorem tileReturn_keeps {A_ : List Area} {s_ : State} {t : Tier} {p : Nat} {s : State}
    (ha_ : [.insts, .nid, .parts, .serialNo, .til, .dram, .hosts, .flt, .sbd, .out] ⊆ A_) (hs_ : Keeps A_ s_ s) : Keeps A_ s_ (tileReturn t p s) := by
  refine Keeps.comp ?_ ha_ hs_
  clear hs_ ha_; unfold tileReturn
  try dsimp only
  repeat' first
    | with_reducible exact Keeps.refl _ _
    | with_reducible apply returnTile_keeps
    | with_reducible refine Keeps.ite ?_ ?_
    | (show (_ : List Area) ⊆ _; decide)
    | split
    | dsimp only

theorem execTileReturn_keeps {A_ : List Area} {s_ t_ : State} {tier : Tier} {phys : BitVec 22} {s : State} (h_ : execTileReturn tier phys s = .next t_)
    (ha_ : [.insts, .nid, .parts, .serialNo, .til, .dram, .hosts, .flt, .sbd, .out] ⊆ A_) (hs_ : Keeps A_ s_ s) : Keeps A_ s_ t_ := by
  refine Keeps.comp ?_ ha_ hs_
  clear hs_ ha_; unfold execTileReturn at h_
  try dsimp only at h_
  all_goals first | with_reducible exact Keeps.of_fault h_ | (with_reducible obtain rfl := Host.Outcome.next.inj h_) | skip
  repeat' first
    | with_reducible exact Keeps.refl _ _
    | with_reducible apply tileReturn_keeps
    | with_reducible refine Keeps.ite ?_ ?_
    | (show (_ : List Area) ⊆ _; decide)
    | split
    | dsimp only

theorem migrateWork_keeps {A_ : List Area} {s_ : State} {q : QId} {c : Cmd} {s : State}
    (ha_ : [.insts, .nid, .parts, .serialNo, .til, .dram, .eng, .hosts, .flt, .sbd, .out] ⊆ A_) (hs_ : Keeps A_ s_ s) : Keeps A_ s_ (migrateWork q c s) := by
  refine Keeps.comp ?_ ha_ hs_
  clear hs_ ha_; unfold migrateWork
  try dsimp only
  repeat' first
    | with_reducible exact Keeps.refl _ _
    | refine migrateTile_keeps (by assumption) ?_ ?_
    | with_reducible apply stopCmd_keeps
    | with_reducible apply putCmd_keeps
    | with_reducible refine Keeps.ite ?_ ?_
    | exact Or.inr (by decide)
    | with_reducible exact Or.inl rfl
    | (show (_ : List Area) ⊆ _; decide)
    | split
    | with_reducible apply Keeps.mk
    | dsimp only
    | exact Or.inl rfl

theorem execMigrate_keeps {A_ : List Area} {s_ t_ : State} {q : QId} {idx : BitVec 16} {s : State} (h_ : execMigrate q idx s = .next t_)
    (ha_ : [.insts, .nid, .parts, .serialNo, .til, .dram, .eng, .hosts, .flt, .sbd, .out] ⊆ A_) (hs_ : Keeps A_ s_ s) : Keeps A_ s_ t_ := by
  refine Keeps.comp ?_ ha_ hs_
  clear hs_ ha_; unfold execMigrate at h_
  try dsimp only at h_
  all_goals first | with_reducible exact Keeps.of_fault h_ | (with_reducible obtain rfl := Host.Outcome.next.inj h_) | skip
  repeat' first
    | with_reducible exact Keeps.refl _ _
    | with_reducible apply migrateWork_keeps
    | with_reducible refine runCmd_keeps (fun _ _ => ?_) ?_ ?_
    | with_reducible refine whileAlive_keeps (fun _ => ?_) ?_
    | (show (_ : List Area) ⊆ _; decide)

end Sys2Proof.Machine
end

