-- ==== Sys2Proof/Laws/Frame/Move.lean ====
section
/-! SUPPORT. The frame of every operation of Machine/Move.lean: the areas it may change, and that pool memory keeps its canonical form. -/

namespace Sys2Proof.Machine

set_option linter.unusedTactic false
set_option linter.unreachableTactic false
set_option linter.unusedVariables false

/-- The state a piece of work leads to. -/
def Run.st : Run → State
  | .more _ s => s
  | .hold _ s => s
  | .stop _ _ s => s

theorem runLoop_keeps {A_ : List Area} {q : QId} {step : Cmd → State → Run} (hf_ : ∀ c t, Keeps A_ t (step c t).st) (ha_ : [.eng] ⊆ A_)
    (n : Nat) : ∀ {c : Cmd} {s_ s : State}, Keeps A_ s_ s → Keeps A_ s_ (runLoop q step n c s) := by
  induction n with
  | zero => intro c s_ s h; exact putCmd_keeps (List.Subset.trans (by decide) ha_) h
  | succ n ih =>
    intro c s_ s h
    have k := Keeps.comp (hf_ c s) (List.Subset.refl _) h
    unfold runLoop
    split
    case _ c1 s1 e => rw [e] at k; exact ih k
    case _ c1 s1 e => rw [e] at k; exact putCmd_keeps (List.Subset.trans (by decide) ha_) k
    case _ st c1 s1 e => rw [e] at k; exact stopCmd_keeps (List.Subset.trans (by decide) ha_) k

theorem readSide_keeps {A_ : List Area} {u : EngUse} {t hint : Nat} {sd : Side} (f : Nat) : ∀ {p n : Nat} {c : Cmd} {acc : List (Nat × Byte)} {s_ s : State}, [.ports, .xpt, .til, .dram, .dir] ⊆ A_ →
    Keeps A_ s_ s → Keeps A_ s_ (readSide u t hint sd f p n c acc s).2.2.2 := by
  induction f with
  | zero => intro p n c acc s_ s _ h; exact h
  | succ f ih =>
    intro p n c acc s_ s ha h
    unfold readSide
    split
    · exact h
    · dsimp only
      split
      case _ x s1 e => exact ih ha (engRead_keeps ((congrArg Acc.st e).trans rfl) ha h)
      case _ s1 e => exact engRead_keeps ((congrArg Acc.st e).trans rfl) ha h
      case _ st s1 e => exact engRead_keeps ((congrArg Acc.st e).trans rfl) ha h

theorem engOffer_keeps {A_ : List Area} {s_ : State} {e : TileEnt} {l : Nat} {slot : Nat} {a : Nat} {d : List Byte} {s : State}
    (ha_ : [.ports, .xpt, .dir] ⊆ A_) (hs_ : Keeps A_ s_ s) : Keeps A_ s_ (engOffer e l slot a d s) := by
  refine Keeps.comp ?_ ha_ hs_
  clear hs_ ha_; unfold engOffer
  try dsimp only
  repeat' first
    | with_reducible exact Keeps.refl _ _
    | with_reducible apply toAgent_keeps
    | with_reducible apply addTrk_keeps
    | (show (_ : List Area) ⊆ _; decide)

theorem writeSide_keeps {A_ : List Area} {s_ t_ s : State} {u : EngUse} {t : Nat} {g : BitVec 16} {c : Cmd} {va : Nat} {d : List Byte}
    (h_ : (writeSide u t g c va d s).st = some t_) (ha_ : [.ports, .xpt, .til, .dram, .dir] ⊆ A_) (hs_ : Keeps A_ s_ s) : Keeps A_ s_ t_ := by
  have up : ∀ {u : State}, Keeps A_ s_ u → Keeps A_ s_ { u with dir := { u.dir with declined := sat32 u.dir.declined 1 } } := by
    intro u k
    refine Keeps.comp (B := [.ports, .xpt, .til, .dram, .dir]) ?_ ha_ k
    with_reducible apply Keeps.mk
    all_goals first | exact Keeps.refl _ _ | with_reducible exact Or.inl rfl | exact Or.inr (by decide)
  have w : ∀ {g' : BitVec 16} {hint va' : Nat} {x : List Byte} {s1 v : State}, Keeps A_ s_ s1 → (engWrite u t g' hint va' x s1).st = some v →
      Keeps A_ s_ v := fun k e => engWrite_keeps e (List.Subset.trans (by decide) ha_) k
  unfold writeSide at h_
  dsimp only at h_
  split at h_
  · split at h_
    · cases h_; exact hs_
    · split at h_
      · exact w hs_ h_
      · split at h_
        · split at h_
          case _ x s1 e => cases h_; exact up (w hs_ ((congrArg Acc.st e).trans rfl))
          case _ => exact w hs_ h_
        · split at h_
          case _ s1 e => cases h_; exact Keeps.pair1 e (engReady_keeps (List.Subset.trans (by decide) ha_) hs_)
          case _ s1 e =>
            have k := Keeps.pair1 e (engReady_keeps (List.Subset.trans (by decide) ha_) hs_)
            split at h_
            · cases h_; exact k
            · split at h_
              case _ s2 e2 =>
                cases h_
                exact Keeps.of_eq ((congrArg WayRes.st e2).trans rfl) (takeWay_keeps (List.Subset.trans (by decide) ha_) k)
              case _ slot s2 e2 =>
                have k2 : Keeps A_ s_ s2 := Keeps.of_eq ((congrArg WayRes.st e2).trans rfl) (takeWay_keeps (List.Subset.trans (by decide) ha_) k)
                split at h_
                case _ x s3 e3 =>
                  cases h_
                  exact engOffer_keeps (List.Subset.trans (by decide) ha_) (w k2 ((congrArg Acc.st e3).trans rfl))
                case _ => exact w k2 h_
  · exact w hs_ h_

theorem readChunk_keeps {A_ : List Area} {s_ : State} {q : QId} {t n : Nat} {c : Cmd} {s : State} (ha_ : [.ports, .xpt, .til, .dram, .dir] ⊆ A_) (hs_ : Keeps A_ s_ s) :
    Keeps A_ s_ (readChunk q t n c s).2.2.2 := by
  unfold readChunk
  split
  · exact hs_
  · exact readSide_keeps _ ha_ hs_

theorem writeChunk_keeps {A_ : List Area} {s_ : State} {q : QId} {t : Nat} {a : Nat} {c : Cmd} {d : List Byte} {bad : Option (Option Status)} {s : State}
    (ha_ : [.ports, .xpt, .til, .dram, .dir, .eng] ⊆ A_) (hs_ : Keeps A_ s_ s) : Keeps A_ s_ (writeChunk q t a c d bad s).st := by
  refine Keeps.comp ?_ ha_ hs_
  clear hs_ ha_; unfold writeChunk
  try dsimp only
  repeat' split
  all_goals try dsimp only [Run.st]
  repeat' first
    | with_reducible exact Keeps.refl _ _
    | refine writeSide_keeps ((congrArg Acc.st (by assumption)).trans rfl) ?_ ?_
    | with_reducible apply engSpend_keeps
    | exact Or.inr (by decide)
    | with_reducible exact Or.inl rfl
    | (show (_ : List Area) ⊆ _; decide)
    | split
    | with_reducible apply Keeps.mk
    | dsimp only
    | exact Or.inl rfl

theorem moveStep_keeps {A_ : List Area} {s_ : State} {q : QId} {t : Nat} {c : Cmd} {s : State}
    (ha_ : [.serialNo, .ports, .xpt, .til, .dram, .dir, .eng] ⊆ A_) (hs_ : Keeps A_ s_ s) : Keeps A_ s_ (moveStep q t c s).st := by
  unfold moveStep
  dsimp only
  split
  · refine Keeps.comp (B := [.serialNo, .ports, .xpt, .til, .dram, .dir, .eng]) ?_ ha_ hs_
    dsimp only [Run.st]
    with_reducible apply Keeps.mk
    all_goals first | exact Keeps.refl _ _ | with_reducible exact Or.inl rfl | exact Or.inr (by decide)
  · split
    · exact hs_
    · have k := fun n => readChunk_keeps (q := q) (t := t) (n := n) (c := c) (List.Subset.trans (by decide) ha_) hs_
      split
      case _ c1 g1 s1 e => exact Keeps.pair3 e (k _)
      case _ c1 g1 b1 s1 _ e =>
        split
        · exact Keeps.pair3 e (k _)
        · exact writeChunk_keeps (List.Subset.trans (by decide) ha_) (Keeps.pair3 e (k _))

theorem moveWork_keeps {A_ : List Area} {s_ : State} {q : QId} {c : Cmd} {s : State}
    (ha_ : [.serialNo, .ports, .xpt, .til, .dram, .dir, .eng] ⊆ A_) (hs_ : Keeps A_ s_ s) : Keeps A_ s_ (moveWork q c s) := by
  refine Keeps.comp ?_ ha_ hs_
  clear hs_ ha_; unfold moveWork
  try dsimp only
  repeat' first
    | with_reducible exact Keeps.refl _ _
    | with_reducible apply moveStep_keeps
    | refine Keeps.of_eq ((congrArg Run.st (by assumption)).trans rfl) (moveStep_keeps ?_ ?_)
    | with_reducible refine runLoop_keeps (fun _ _ => ?_) ?_ _ ?_
    | (show (_ : List Area) ⊆ _; decide)
    | split
    | dsimp only

theorem readList_keeps {A_ : List Area} {s_ t_ : State} {q : QId} {c : Cmd} {s : State} (h_ : (readList q c s).st = some t_)
    (ha_ : [.ports, .xpt, .til, .dram, .dir] ⊆ A_) (hs_ : Keeps A_ s_ s) : Keeps A_ s_ t_ := by
  unfold readList at h_
  dsimp only at h_
  split at h_
  · cases h_; exact hs_
  · exact engReadAll_keeps _ h_ ha_ hs_

theorem listWork_keeps {A_ : List Area} {s_ : State} {q : QId} {wr : Bool} {c : Cmd} {s : State}
    (ha_ : [.serialNo, .ports, .xpt, .til, .dram, .dir, .eng] ⊆ A_) (hs_ : Keeps A_ s_ s) : Keeps A_ s_ (listWork q wr c s) := by
  refine Keeps.comp ?_ ha_ hs_
  clear hs_ ha_; unfold listWork
  try dsimp only
  repeat' first
    | with_reducible exact Keeps.refl _ _
    | refine readList_keeps ((congrArg Acc.st (by assumption)).trans rfl) ?_ ?_
    | with_reducible apply moveWork_keeps
    | with_reducible apply stopCmd_keeps
    | with_reducible apply putCmd_keeps
    | with_reducible refine Keeps.ite ?_ ?_
    | exact Or.inr (by decide)
    | with_reducible exact Or.inl rfl
    | (show (_ : List Area) ⊆ _; decide)
    | split
    | with_reducible apply Keeps.mk
    | dsimp only
    | exact Or.inl rfl

theorem execCopy_keeps {A_ : List Area} {s_ t_ : State} {q : QId} {idx : BitVec 16} {s : State} (h_ : execCopy q idx s = .next t_)
    (ha_ : [.serialNo, .ports, .xpt, .til, .dram, .dir, .eng] ⊆ A_) (hs_ : Keeps A_ s_ s) : Keeps A_ s_ t_ := by
  refine Keeps.comp ?_ ha_ hs_
  clear hs_ ha_; unfold execCopy at h_
  try dsimp only at h_
  all_goals first | with_reducible exact Keeps.of_fault h_ | (with_reducible obtain rfl := Host.Outcome.next.inj h_) | skip
  repeat' first
    | with_reducible exact Keeps.refl _ _
    | with_reducible apply moveWork_keeps
    | with_reducible refine runCmd_keeps (fun _ _ => ?_) ?_ ?_
    | with_reducible refine whileAlive_keeps (fun _ => ?_) ?_
    | (show (_ : List Area) ⊆ _; decide)

theorem execFill_keeps {A_ : List Area} {s_ t_ : State} {q : QId} {idx : BitVec 16} {s : State} (h_ : execFill q idx s = .next t_)
    (ha_ : [.serialNo, .ports, .xpt, .til, .dram, .dir, .eng] ⊆ A_) (hs_ : Keeps A_ s_ s) : Keeps A_ s_ t_ := by
  refine Keeps.comp ?_ ha_ hs_
  clear hs_ ha_; unfold execFill at h_
  try dsimp only at h_
  all_goals first | with_reducible exact Keeps.of_fault h_ | (with_reducible obtain rfl := Host.Outcome.next.inj h_) | skip
  repeat' first
    | with_reducible exact Keeps.refl _ _
    | with_reducible apply moveWork_keeps
    | with_reducible refine runCmd_keeps (fun _ _ => ?_) ?_ ?_
    | with_reducible refine whileAlive_keeps (fun _ => ?_) ?_
    | (show (_ : List Area) ⊆ _; decide)

theorem execGather_keeps {A_ : List Area} {s_ t_ : State} {q : QId} {idx : BitVec 16} {s : State} (h_ : execGather q idx s = .next t_)
    (ha_ : [.serialNo, .ports, .xpt, .til, .dram, .dir, .eng] ⊆ A_) (hs_ : Keeps A_ s_ s) : Keeps A_ s_ t_ := by
  refine Keeps.comp ?_ ha_ hs_
  clear hs_ ha_; unfold execGather at h_
  try dsimp only at h_
  all_goals first | with_reducible exact Keeps.of_fault h_ | (with_reducible obtain rfl := Host.Outcome.next.inj h_) | skip
  repeat' first
    | with_reducible exact Keeps.refl _ _
    | with_reducible apply listWork_keeps
    | with_reducible refine runCmd_keeps (fun _ _ => ?_) ?_ ?_
    | with_reducible refine whileAlive_keeps (fun _ => ?_) ?_
    | (show (_ : List Area) ⊆ _; decide)

theorem execScatter_keeps {A_ : List Area} {s_ t_ : State} {q : QId} {idx : BitVec 16} {s : State} (h_ : execScatter q idx s = .next t_)
    (ha_ : [.serialNo, .ports, .xpt, .til, .dram, .dir, .eng] ⊆ A_) (hs_ : Keeps A_ s_ s) : Keeps A_ s_ t_ := by
  refine Keeps.comp ?_ ha_ hs_
  clear hs_ ha_; unfold execScatter at h_
  try dsimp only at h_
  all_goals first | with_reducible exact Keeps.of_fault h_ | (with_reducible obtain rfl := Host.Outcome.next.inj h_) | skip
  repeat' first
    | with_reducible exact Keeps.refl _ _
    | with_reducible apply listWork_keeps
    | with_reducible refine runCmd_keeps (fun _ _ => ?_) ?_ ?_
    | with_reducible refine whileAlive_keeps (fun _ => ?_) ?_
    | (show (_ : List Area) ⊆ _; decide)

theorem pushStep_keeps {A_ : List Area} {s_ : State} {q : QId} {c : Cmd} {s : State}
    (ha_ : [.reqs, .ports, .xpt, .til, .dram, .dir, .eng] ⊆ A_) (hs_ : Keeps A_ s_ s) : Keeps A_ s_ (pushStep q c s).st := by
  refine Keeps.comp ?_ ha_ hs_
  clear hs_ ha_; unfold pushStep
  try dsimp only
  repeat' split
  all_goals try dsimp only [Run.st]
  repeat' first
    | with_reducible exact Keeps.refl _ _
    | with_reducible apply engSpend_keeps
    | refine engRead_keeps ((congrArg Acc.st (by assumption)).trans rfl) ?_ ?_
    | with_reducible apply putCmd_keeps
    | with_reducible apply mcastOut_keeps
    | with_reducible refine Keeps.ite ?_ ?_
    | exact Or.inr (by decide)
    | with_reducible exact Or.inl rfl
    | (show (_ : List Area) ⊆ _; decide)
    | split
    | with_reducible apply Keeps.mk
    | dsimp only
    | exact Or.inl rfl

theorem pushWork_keeps {A_ : List Area} {s_ : State} {q : QId} {c : Cmd} {s : State}
    (ha_ : [.reqs, .ports, .xpt, .til, .dram, .dir, .eng] ⊆ A_) (hs_ : Keeps A_ s_ s) : Keeps A_ s_ (pushWork q c s) := by
  refine Keeps.comp ?_ ha_ hs_
  clear hs_ ha_; unfold pushWork
  try dsimp only
  repeat' first
    | with_reducible exact Keeps.refl _ _
    | with_reducible apply pushStep_keeps
    | refine Keeps.of_eq ((congrArg Run.st (by assumption)).trans rfl) (pushStep_keeps ?_ ?_)
    | with_reducible refine runLoop_keeps (fun _ _ => ?_) ?_ _ ?_
    | with_reducible refine Keeps.ite ?_ ?_
    | exact Or.inr (by decide)
    | with_reducible exact Or.inl rfl
    | (show (_ : List Area) ⊆ _; decide)
    | split
    | with_reducible apply Keeps.mk
    | dsimp only
    | exact Or.inl rfl

theorem execMcastPush_keeps {A_ : List Area} {s_ t_ : State} {q : QId} {idx : BitVec 16} {s : State} (h_ : execMcastPush q idx s = .next t_)
    (ha_ : [.reqs, .ports, .xpt, .til, .dram, .dir, .eng] ⊆ A_) (hs_ : Keeps A_ s_ s) : Keeps A_ s_ t_ := by
  refine Keeps.comp ?_ ha_ hs_
  clear hs_ ha_; unfold execMcastPush at h_
  try dsimp only at h_
  all_goals first | with_reducible exact Keeps.of_fault h_ | (with_reducible obtain rfl := Host.Outcome.next.inj h_) | skip
  repeat' first
    | with_reducible exact Keeps.refl _ _
    | with_reducible apply pushWork_keeps
    | with_reducible refine runCmd_keeps (fun _ _ => ?_) ?_ ?_
    | with_reducible refine whileAlive_keeps (fun _ => ?_) ?_
    | (show (_ : List Area) ⊆ _; decide)

theorem scrubStep_keeps {A_ : List Area} {s_ : State} {q : QId} {errs : List (Nat × EccErr)} {c : Cmd} {s : State}
    (ha_ : [.insts, .nid, .parts, .serialNo, .til, .dram, .eng, .hosts, .flt, .sbd, .out] ⊆ A_) (hs_ : Keeps A_ s_ s) : Keeps A_ s_ (scrubStep q errs c s).st := by
  refine Keeps.comp ?_ ha_ hs_
  clear hs_ ha_; unfold scrubStep
  try dsimp only
  repeat' split
  all_goals try dsimp only [Run.st]
  repeat' first
    | with_reducible exact Keeps.refl _ _
    | with_reducible apply engSpend_keeps
    | with_reducible apply readCodeword_keeps
    | with_reducible refine Keeps.pair1 (p := readCodeword _ _ _ _ _) (by assumption) ?_
    | with_reducible apply touch_keeps
    | with_reducible refine Keeps.getD (fun _ _ => ?_) ?_
    | with_reducible refine Keeps.ite ?_ ?_
    | exact Or.inr (by decide)
    | with_reducible exact Or.inl rfl
    | (show (_ : List Area) ⊆ _; decide)
    | split
    | with_reducible apply Keeps.mk
    | dsimp only
    | exact Or.inl rfl

theorem putSummary_keeps {A_ : List Area} {q : QId} {t a : Nat} {b : List Byte} (f : Nat) : ∀ {c : Cmd} {s_ s : State}, [.ports, .xpt, .til, .dram, .dir, .eng] ⊆ A_ →
    Keeps A_ s_ s → Keeps A_ s_ (putSummary q t a b f c s) := by
  induction f with
  | zero => intro c s_ s ha h; exact putCmd_keeps (List.Subset.trans (by decide) ha) h
  | succ f ih =>
    intro c s_ s ha h
    unfold putSummary
    dsimp only
    refine Keeps.ite (stopCmd_keeps (List.Subset.trans (by decide) ha) h) ?_
    split
    case _ x s1 e => exact ih ha (engWrite_keeps ((congrArg Acc.st e).trans rfl) (List.Subset.trans (by decide) ha) h)
    case _ s1 e =>
      exact putCmd_keeps (List.Subset.trans (by decide) ha) (engWrite_keeps ((congrArg Acc.st e).trans rfl) (List.Subset.trans (by decide) ha) h)
    case _ st1 s1 e =>
      exact stopCmd_keeps (List.Subset.trans (by decide) ha) (engWrite_keeps ((congrArg Acc.st e).trans rfl) (List.Subset.trans (by decide) ha) h)

theorem scrubEnd_keeps {A_ : List Area} {s_ : State} {q : QId} {c : Cmd} {s : State}
    (ha_ : [.ports, .xpt, .til, .dram, .dir, .eng, .out] ⊆ A_) (hs_ : Keeps A_ s_ s) : Keeps A_ s_ (scrubEnd q c s) := by
  refine Keeps.comp ?_ ha_ hs_
  clear hs_ ha_; unfold scrubEnd
  try dsimp only
  repeat' first
    | with_reducible exact Keeps.refl _ _
    | with_reducible apply putSummary_keeps
    | with_reducible apply stopCmd_keeps
    | with_reducible apply State.toHost_keeps
    | with_reducible refine Keeps.getD (fun _ _ => ?_) ?_
    | (show (_ : List Area) ⊆ _; decide)
    | split
    | dsimp only

theorem scrubLoop_keeps {A_ : List Area} {q : QId} {errs : List (Nat × EccErr)} (n : Nat) : ∀ {c : Cmd} {s_ s : State}, [.insts, .nid, .parts, .serialNo, .ports, .xpt, .til, .dram, .dir, .eng, .hosts, .flt, .sbd, .out] ⊆ A_ →
    Keeps A_ s_ s → Keeps A_ s_ (scrubLoop q errs n c s) := by
  induction n with
  | zero => intro c s_ s ha h; exact putCmd_keeps (List.Subset.trans (by decide) ha) h
  | succ n ih =>
    intro c s_ s ha h
    have k : Keeps A_ s_ (scrubStep q errs c s).st := scrubStep_keeps (List.Subset.trans (by decide) ha) h
    unfold scrubLoop
    split
    case _ c1 s1 e => rw [e] at k; exact ih ha k
    case _ c1 s1 e => rw [e] at k; exact putCmd_keeps (List.Subset.trans (by decide) ha) k
    case _ st c1 s1 e => rw [e] at k; exact scrubEnd_keeps (List.Subset.trans (by decide) ha) k

theorem scrubWork_keeps {A_ : List Area} {s_ : State} {q : QId} {errs : List (Nat × EccErr)} {c : Cmd} {s : State}
    (ha_ : [.insts, .nid, .parts, .serialNo, .ports, .xpt, .til, .dram, .dir, .eng, .hosts, .flt, .sbd, .out] ⊆ A_) (hs_ : Keeps A_ s_ s) : Keeps A_ s_ (scrubWork q errs c s) := by
  refine Keeps.comp ?_ ha_ hs_
  clear hs_ ha_; unfold scrubWork
  try dsimp only
  repeat' first
    | with_reducible exact Keeps.refl _ _
    | with_reducible apply scrubLoop_keeps
    | with_reducible apply scrubEnd_keeps
    | with_reducible refine Keeps.ite ?_ ?_
    | exact Or.inr (by decide)
    | with_reducible exact Or.inl rfl
    | (show (_ : List Area) ⊆ _; decide)
    | split
    | with_reducible apply Keeps.mk
    | dsimp only
    | exact Or.inl rfl

theorem execScrub_keeps {A_ : List Area} {s_ t_ : State} {q : QId} {idx : BitVec 16} {errs : List (Nat × EccErr)} {s : State} (h_ : execScrub q idx errs s = .next t_)
    (ha_ : [.insts, .nid, .parts, .serialNo, .ports, .xpt, .til, .dram, .dir, .eng, .hosts, .flt, .sbd, .out] ⊆ A_) (hs_ : Keeps A_ s_ s) : Keeps A_ s_ t_ := by
  refine Keeps.comp ?_ ha_ hs_
  clear hs_ ha_; unfold execScrub at h_
  try dsimp only at h_
  all_goals first | with_reducible exact Keeps.of_fault h_ | (with_reducible obtain rfl := Host.Outcome.next.inj h_) | skip
  repeat' first
    | with_reducible exact Keeps.refl _ _
    | with_reducible apply scrubWork_keeps
    | with_reducible refine runCmd_keeps (fun _ _ => ?_) ?_ ?_
    | with_reducible refine whileAlive_keeps (fun _ => ?_) ?_
    | (show (_ : List Area) ⊆ _; decide)

end Sys2Proof.Machine
end

