-- ==== Sys2Proof/Laws/Frame/Array.lean ====
section
/-! SUPPORT. The frame of every operation of Machine/Array.lean: the areas it may change, and that pool memory keeps its canonical form. -/

namespace Sys2Proof.Machine

set_option linter.unusedTactic false
set_option linter.unreachableTactic false
set_option linter.unusedVariables false

theorem colSpend_keeps {A_ : List Area} {s_ : State} {col : Nat} {s : State}
    (ha_ : [.arr] ⊆ A_) (hs_ : Keeps A_ s_ s) : Keeps A_ s_ (colSpend col s) := by
  refine Keeps.comp ?_ ha_ hs_
  clear hs_ ha_; unfold colSpend
  try dsimp only
  repeat' first
    | with_reducible exact Keeps.refl _ _
    | with_reducible apply State.setCol_keeps
    | with_reducible refine Keeps.ite ?_ ?_
    | exact Or.inr (by decide)
    | with_reducible exact Or.inl rfl
    | (show (_ : List Area) ⊆ _; decide)
    | split
    | with_reducible apply Keeps.mk
    | dsimp only
    | exact Or.inl rfl

theorem fire_keeps {A_ : List Area} {s_ : State} {unit : Nat} {ins : List Nat} {outs : List (Nat × BitVec 1024)} {upd : Launch → Launch} {s : State}
    (ha_ : [.serialNo, .arr] ⊆ A_) (hs_ : Keeps A_ s_ s) : Keeps A_ s_ (fire unit ins outs upd s) := by
  refine Keeps.comp ?_ ha_ hs_
  clear hs_ ha_; unfold fire
  try dsimp only
  repeat' first
    | with_reducible exact Keeps.refl _ _
    | with_reducible apply colSpend_keeps
    | with_reducible apply putLaunch_keeps
    | with_reducible refine Keeps.foldl (fun _ _ => ?_) _ ?_
    | with_reducible refine Keeps.ite ?_ ?_
    | exact Or.inr (by decide)
    | with_reducible exact Or.inl rfl
    | (show (_ : List Area) ⊆ _; decide)
    | split
    | with_reducible apply Keeps.mk
    | dsimp only
    | exact Or.inl rfl

theorem computeFire_keeps {A_ : List Area} {s_ : State} {col : Nat} {cu : Nat} {s : State}
    (ha_ : [.serialNo, .arr] ⊆ A_) (hs_ : Keeps A_ s_ s) : Keeps A_ s_ (computeFire col cu s) := by
  refine Keeps.comp ?_ ha_ hs_
  clear hs_ ha_; unfold computeFire
  try dsimp only
  repeat' first
    | with_reducible exact Keeps.refl _ _
    | with_reducible apply fire_keeps
    | with_reducible refine Keeps.getD (fun _ _ => ?_) ?_
    | with_reducible refine Keeps.ite ?_ ?_
    | exact Or.inr (by decide)
    | with_reducible exact Or.inl rfl
    | (show (_ : List Area) ⊆ _; decide)
    | split
    | with_reducible apply Keeps.mk
    | dsimp only
    | exact Or.inl rfl

theorem execComputeUnitFire_keeps {A_ : List Area} {s_ t_ : State} {col : Fin 64} {cu : Fin 8} {s : State} (h_ : execComputeUnitFire col cu s = .next t_)
    (ha_ : [.serialNo, .arr] ⊆ A_) (hs_ : Keeps A_ s_ s) : Keeps A_ s_ t_ := by
  refine Keeps.comp ?_ ha_ hs_
  clear hs_ ha_; unfold execComputeUnitFire at h_
  try dsimp only at h_
  all_goals first | with_reducible exact Keeps.of_fault h_ | (with_reducible obtain rfl := Host.Outcome.next.inj h_) | skip
  repeat' first
    | with_reducible exact Keeps.refl _ _
    | with_reducible apply computeFire_keeps
    | with_reducible refine whileAlive_keeps (fun _ => ?_) ?_
    | (show (_ : List Area) ⊆ _; decide)

theorem steeringFire_keeps {A_ : List Area} {s_ : State} {col : Nat} {su : Nat} {s : State}
    (ha_ : [.serialNo, .arr] ⊆ A_) (hs_ : Keeps A_ s_ s) : Keeps A_ s_ (steeringFire col su s) := by
  refine Keeps.comp ?_ ha_ hs_
  clear hs_ ha_; unfold steeringFire
  try dsimp only
  repeat' first
    | with_reducible exact Keeps.refl _ _
    | with_reducible apply fire_keeps
    | with_reducible refine Keeps.ite ?_ ?_
    | exact Or.inr (by decide)
    | with_reducible exact Or.inl rfl
    | (show (_ : List Area) ⊆ _; decide)
    | split
    | with_reducible apply Keeps.mk
    | dsimp only
    | exact Or.inl rfl

theorem execSteeringUnitFire_keeps {A_ : List Area} {s_ t_ : State} {col : Fin 64} {su : Fin 3} {s : State} (h_ : execSteeringUnitFire col su s = .next t_)
    (ha_ : [.serialNo, .arr] ⊆ A_) (hs_ : Keeps A_ s_ s) : Keeps A_ s_ t_ := by
  refine Keeps.comp ?_ ha_ hs_
  clear hs_ ha_; unfold execSteeringUnitFire at h_
  try dsimp only at h_
  all_goals first | with_reducible exact Keeps.of_fault h_ | (with_reducible obtain rfl := Host.Outcome.next.inj h_) | skip
  repeat' first
    | with_reducible exact Keeps.refl _ _
    | with_reducible apply steeringFire_keeps
    | with_reducible refine whileAlive_keeps (fun _ => ?_) ?_
    | (show (_ : List Area) ⊆ _; decide)

theorem scalarFire_keeps {A_ : List Area} {s_ : State} {col : Nat} {s : State}
    (ha_ : [.serialNo, .arr] ⊆ A_) (hs_ : Keeps A_ s_ s) : Keeps A_ s_ (scalarFire col s) := by
  refine Keeps.comp ?_ ha_ hs_
  clear hs_ ha_; unfold scalarFire
  try dsimp only
  repeat' first
    | with_reducible exact Keeps.refl _ _
    | with_reducible apply fire_keeps
    | with_reducible refine Keeps.ite ?_ ?_
    | exact Or.inr (by decide)
    | with_reducible exact Or.inl rfl
    | (show (_ : List Area) ⊆ _; decide)
    | split
    | with_reducible apply Keeps.mk
    | dsimp only
    | exact Or.inl rfl

theorem execScalarUnitFire_keeps {A_ : List Area} {s_ t_ : State} {col : Fin 64} {s : State} (h_ : execScalarUnitFire col s = .next t_)
    (ha_ : [.serialNo, .arr] ⊆ A_) (hs_ : Keeps A_ s_ s) : Keeps A_ s_ t_ := by
  refine Keeps.comp ?_ ha_ hs_
  clear hs_ ha_; unfold execScalarUnitFire at h_
  try dsimp only at h_
  all_goals first | with_reducible exact Keeps.of_fault h_ | (with_reducible obtain rfl := Host.Outcome.next.inj h_) | skip
  repeat' first
    | with_reducible exact Keeps.refl _ _
    | with_reducible apply scalarFire_keeps
    | with_reducible refine whileAlive_keeps (fun _ => ?_) ?_
    | (show (_ : List Area) ⊆ _; decide)

theorem openSelf_keeps {A_ : List Area} {s_ : State} {r : Launch} {id : LoaderId} {s : State}
    (ha_ : [.arr] ⊆ A_) (hs_ : Keeps A_ s_ s) : Keeps A_ s_ (openSelf r id s) := by
  refine Keeps.comp ?_ ha_ hs_
  clear hs_ ha_; unfold openSelf
  try dsimp only
  repeat' first
    | with_reducible exact Keeps.refl _ _
    | exact Or.inr (by decide)
    | with_reducible exact Or.inl rfl
    | (show (_ : List Area) ⊆ _; decide)
    | split
    | with_reducible apply Keeps.mk
    | dsimp only
    | exact Or.inl rfl

theorem accessIssue_keeps {A_ : List Area} {s_ : State} {col : Nat} {mu : Nat} {st : Nat} {id : LoaderId} {s : State}
    (ha_ : [.serialNo, .arr] ⊆ A_) (hs_ : Keeps A_ s_ s) : Keeps A_ s_ (accessIssue col mu st id s) := by
  refine Keeps.comp ?_ ha_ hs_
  clear hs_ ha_; unfold accessIssue
  try dsimp only
  repeat' first
    | with_reducible exact Keeps.refl _ _
    | with_reducible apply openSelf_keeps
    | with_reducible apply colSpend_keeps
    | with_reducible apply launchEnd_keeps
    | with_reducible apply putLaunch_keeps
    | with_reducible refine Keeps.foldl (fun _ _ => ?_) _ ?_
    | with_reducible refine Keeps.ite ?_ ?_
    | exact Or.inr (by decide)
    | with_reducible exact Or.inl rfl
    | (show (_ : List Area) ⊆ _; decide)
    | split
    | with_reducible apply Keeps.mk
    | dsimp only
    | exact Or.inl rfl

theorem accessDone_keeps {A_ : List Area} {s_ : State} {col : Nat} {mu : Nat} {st : Nat} {f : Flight} {bytes : Nat} {out : Option (BitVec 1024)} {s : State}
    (ha_ : [.arr] ⊆ A_) (hs_ : Keeps A_ s_ s) : Keeps A_ s_ (accessDone col mu st f bytes out s) := by
  refine Keeps.comp ?_ ha_ hs_
  clear hs_ ha_; unfold accessDone
  try dsimp only
  repeat' first
    | with_reducible exact Keeps.refl _ _
    | with_reducible apply putLaunch_keeps
    | with_reducible refine Keeps.ite ?_ ?_
    | exact Or.inr (by decide)
    | with_reducible exact Or.inl rfl
    | (show (_ : List Area) ⊆ _; decide)
    | split
    | with_reducible apply Keeps.mk
    | dsimp only
    | exact Or.inl rfl

theorem feedSelf_keeps {A_ : List Area} {s_ : State} {id : LoaderId} {b : List Byte} {last : Bool} {s : State}
    (ha_ : [.arr] ⊆ A_) (hs_ : Keeps A_ s_ s) : Keeps A_ s_ (feedSelf id b last s) := by
  refine Keeps.comp ?_ ha_ hs_
  clear hs_ ha_; unfold feedSelf
  try dsimp only
  repeat' first
    | with_reducible exact Keeps.refl _ _
    | with_reducible apply putLoader_keeps
    | with_reducible refine Keeps.ite ?_ ?_
    | exact Or.inr (by decide)
    | with_reducible exact Or.inl rfl
    | (show (_ : List Area) ⊆ _; decide)
    | split
    | with_reducible apply Keeps.mk
    | dsimp only
    | exact Or.inl rfl

theorem selfReport_keeps {A_ : List Area} {s_ : State} {col : Nat} {mu : Nat} {st : Nat} {id : LoaderId} {s : State}
    (ha_ : [.arr] ⊆ A_) (hs_ : Keeps A_ s_ s) : Keeps A_ s_ (selfReport col mu st id s) := by
  refine Keeps.comp ?_ ha_ hs_
  clear hs_ ha_; unfold selfReport
  try dsimp only
  repeat' first
    | with_reducible exact Keeps.refl _ _
    | with_reducible apply putLoader_keeps
    | with_reducible apply putLaunch_keeps
    | with_reducible refine Keeps.ite ?_ ?_
    | exact Or.inr (by decide)
    | with_reducible exact Or.inl rfl
    | (show (_ : List Area) ⊆ _; decide)
    | split
    | with_reducible apply Keeps.mk
    | dsimp only
    | exact Or.inl rfl

theorem selfFailed_keeps {A_ : List Area} {s_ : State} {id : LoaderId} {s : State}
    (ha_ : [.arr] ⊆ A_) (hs_ : Keeps A_ s_ s) : Keeps A_ s_ (selfFailed id s) := by
  refine Keeps.comp ?_ ha_ hs_
  clear hs_ ha_; unfold selfFailed
  try dsimp only
  repeat' first
    | with_reducible exact Keeps.refl _ _
    | with_reducible refine Keeps.ite ?_ ?_
    | exact Or.inr (by decide)
    | with_reducible exact Or.inl rfl
    | (show (_ : List Area) ⊆ _; decide)
    | split
    | with_reducible apply Keeps.mk
    | dsimp only
    | exact Or.inl rfl

theorem accessComplete_keeps {A_ : List Area} {s_ : State} {col : Nat} {mu : Nat} {st : Nat} {id : LoaderId} {s : State}
    (ha_ : [.ports, .xpt, .til, .dram, .dir, .arr] ⊆ A_) (hs_ : Keeps A_ s_ s) : Keeps A_ s_ (accessComplete col mu st id s) := by
  refine Keeps.comp ?_ ha_ hs_
  clear hs_ ha_; unfold accessComplete
  try dsimp only
  repeat' first
    | with_reducible exact Keeps.refl _ _
    | with_reducible apply selfFailed_keeps
    | with_reducible apply selfReport_keeps
    | with_reducible apply feedSelf_keeps
    | with_reducible apply accessDone_keeps
    | refine engWrite_keeps ((congrArg Acc.st (by assumption)).trans rfl) ?_ ?_
    | refine engRead_keeps ((congrArg Acc.st (by assumption)).trans rfl) ?_ ?_
    | with_reducible apply launchEnd_keeps
    | with_reducible refine Keeps.ite ?_ ?_
    | (show (_ : List Area) ⊆ _; decide)
    | split
    | dsimp only

theorem execMemoryUnitAccess_keeps {A_ : List Area} {s_ t_ : State} {col : Fin 64} {mu : Fin 4} {stream : Fin 4} {ph : AccessPhase} {s : State} (h_ : execMemoryUnitAccess col mu stream ph s = .next t_)
    (ha_ : [.serialNo, .ports, .xpt, .til, .dram, .dir, .arr] ⊆ A_) (hs_ : Keeps A_ s_ s) : Keeps A_ s_ t_ := by
  refine Keeps.comp ?_ ha_ hs_
  clear hs_ ha_; unfold execMemoryUnitAccess at h_
  try dsimp only at h_
  all_goals first | with_reducible exact Keeps.of_fault h_ | (with_reducible obtain rfl := Host.Outcome.next.inj h_) | skip
  repeat' first
    | with_reducible exact Keeps.refl _ _
    | with_reducible apply accessComplete_keeps
    | with_reducible apply accessIssue_keeps
    | with_reducible refine whileAlive_keeps (fun _ => ?_) ?_
    | (show (_ : List Area) ⊆ _; decide)
    | split
    | dsimp only

theorem takePlace_keeps {A_ : List Area} {s_ : State} {q : QId} {c : Cmd} {s : State}
    (ha_ : [.serialNo, .eng] ⊆ A_) (hs_ : Keeps A_ s_ s) : Keeps A_ s_ (takePlace q c s) := by
  refine Keeps.comp ?_ ha_ hs_
  clear hs_ ha_; unfold takePlace
  try dsimp only
  repeat' first
    | with_reducible exact Keeps.refl _ _
    | with_reducible apply putCmd_keeps
    | with_reducible refine Keeps.ite ?_ ?_
    | exact Or.inr (by decide)
    | with_reducible exact Or.inl rfl
    | (show (_ : List Area) ⊆ _; decide)
    | split
    | with_reducible apply Keeps.mk
    | dsimp only
    | exact Or.inl rfl

theorem execLaunch_keeps {A_ : List Area} {s_ t_ : State} {q : QId} {idx : BitVec 16} {s : State} (h_ : execLaunch q idx s = .next t_)
    (ha_ : [.serialNo, .eng] ⊆ A_) (hs_ : Keeps A_ s_ s) : Keeps A_ s_ t_ := by
  refine Keeps.comp ?_ ha_ hs_
  clear hs_ ha_; unfold execLaunch at h_
  try dsimp only at h_
  all_goals first | with_reducible exact Keeps.of_fault h_ | (with_reducible obtain rfl := Host.Outcome.next.inj h_) | skip
  repeat' first
    | with_reducible exact Keeps.refl _ _
    | with_reducible apply takePlace_keeps
    | with_reducible refine runCmd_keeps (fun _ _ => ?_) ?_ ?_
    | with_reducible refine whileAlive_keeps (fun _ => ?_) ?_
    | (show (_ : List Area) ⊆ _; decide)

theorem execLoadFrames_keeps {A_ : List Area} {s_ t_ : State} {q : QId} {idx : BitVec 16} {s : State} (h_ : execLoadFrames q idx s = .next t_)
    (ha_ : [.serialNo, .eng] ⊆ A_) (hs_ : Keeps A_ s_ s) : Keeps A_ s_ t_ := by
  refine Keeps.comp ?_ ha_ hs_
  clear hs_ ha_; unfold execLoadFrames at h_
  try dsimp only at h_
  all_goals first | with_reducible exact Keeps.of_fault h_ | (with_reducible obtain rfl := Host.Outcome.next.inj h_) | skip
  repeat' first
    | with_reducible exact Keeps.refl _ _
    | with_reducible apply takePlace_keeps
    | with_reducible refine runCmd_keeps (fun _ _ => ?_) ?_ ?_
    | with_reducible refine whileAlive_keeps (fun _ => ?_) ?_
    | (show (_ : List Area) ⊆ _; decide)

theorem enableRegion_keeps {A_ : List Area} {s_ : State} {r : Launch} {timeout : Nat} {s : State}
    (ha_ : [.arr] ⊆ A_) (hs_ : Keeps A_ s_ s) : Keeps A_ s_ (enableRegion r timeout s) := by
  refine Keeps.comp ?_ ha_ hs_
  clear hs_ ha_; unfold enableRegion
  try dsimp only
  repeat' first
    | with_reducible exact Keeps.refl _ _
    | with_reducible apply launchEnd_keeps
    | with_reducible apply putLaunch_keeps
    | with_reducible refine Keeps.foldl (fun _ _ => ?_) _ ?_
    | with_reducible refine Keeps.ite ?_ ?_
    | exact Or.inr (by decide)
    | with_reducible exact Or.inl rfl
    | (show (_ : List Area) ⊆ _; decide)
    | split
    | with_reducible apply Keeps.mk
    | dsimp only
    | exact Or.inl rfl

theorem openLaunch_keeps {A_ : List Area} {s_ : State} {r : Launch} {s : State}
    (ha_ : [.arr] ⊆ A_) (hs_ : Keeps A_ s_ s) : Keeps A_ s_ (openLaunch r s) := by
  refine Keeps.comp ?_ ha_ hs_
  clear hs_ ha_; unfold openLaunch
  try dsimp only
  repeat' first
    | with_reducible exact Keeps.refl _ _
    | with_reducible apply State.setCol_keeps
    | with_reducible refine Keeps.foldl (fun _ _ => ?_) _ ?_
    | exact Or.inr (by decide)
    | with_reducible exact Or.inl rfl
    | (show (_ : List Area) ⊆ _; decide)
    | with_reducible apply Keeps.mk
    | dsimp only
    | exact Or.inl rfl

theorem launchStart_keeps {A_ : List Area} {s_ : State} {q : QId} {idx : BitVec 16} {s : State}
    (ha_ : [.serialNo, .ports, .xpt, .til, .dram, .dir, .eng, .arr] ⊆ A_) (hs_ : Keeps A_ s_ s) : Keeps A_ s_ (launchStart q idx s) := by
  refine Keeps.comp ?_ ha_ hs_
  clear hs_ ha_; unfold launchStart
  try dsimp only
  repeat' first
    | with_reducible exact Keeps.refl _ _
    | with_reducible apply openLaunch_keeps
    | with_reducible apply enableRegion_keeps
    | refine engReadAll_keeps _ ((congrArg Acc.st (by assumption)).trans rfl) ?_ ?_
    | with_reducible apply stopCmd_keeps
    | with_reducible apply launchEnd_keeps
    | with_reducible refine Keeps.ite ?_ ?_
    | exact Or.inr (by decide)
    | with_reducible exact Or.inl rfl
    | (show (_ : List Area) ⊆ _; decide)
    | split
    | with_reducible apply Keeps.mk
    | dsimp only
    | exact Or.inl rfl

theorem execLaunchStart_keeps {A_ : List Area} {s_ t_ : State} {q : QId} {idx : BitVec 16} {s : State} (h_ : execLaunchStart q idx s = .next t_)
    (ha_ : [.serialNo, .ports, .xpt, .til, .dram, .dir, .eng, .arr] ⊆ A_) (hs_ : Keeps A_ s_ s) : Keeps A_ s_ t_ := by
  refine Keeps.comp ?_ ha_ hs_
  clear hs_ ha_; unfold execLaunchStart at h_
  try dsimp only at h_
  all_goals first | with_reducible exact Keeps.of_fault h_ | (with_reducible obtain rfl := Host.Outcome.next.inj h_) | skip
  repeat' first
    | with_reducible exact Keeps.refl _ _
    | with_reducible apply launchStart_keeps
    | with_reducible refine whileAlive_keeps (fun _ => ?_) ?_
    | (show (_ : List Area) ⊆ _; decide)

theorem unstop_keeps {A_ : List Area} {s_ : State} {r : Launch} {s : State}
    (ha_ : [.eng] ⊆ A_) (hs_ : Keeps A_ s_ s) : Keeps A_ s_ (unstop r s) := by
  refine Keeps.comp ?_ ha_ hs_
  clear hs_ ha_; unfold unstop
  try dsimp only
  repeat' first
    | with_reducible exact Keeps.refl _ _
    | with_reducible apply putCmd_keeps
    | with_reducible refine Keeps.ite ?_ ?_
    | exact Or.inr (by decide)
    | with_reducible exact Or.inl rfl
    | (show (_ : List Area) ⊆ _; decide)
    | split
    | with_reducible apply Keeps.mk
    | dsimp only
    | exact Or.inl rfl

theorem unabort_keeps {A_ : List Area} {s_ : State} {r : Launch} {s : State}
    (ha_ : [.eng] ⊆ A_) (hs_ : Keeps A_ s_ s) : Keeps A_ s_ (unabort r s) := by
  refine Keeps.comp ?_ ha_ hs_
  clear hs_ ha_; unfold unabort
  try dsimp only
  repeat' first
    | with_reducible exact Keeps.refl _ _
    | with_reducible apply State.setQueue_keeps
    | with_reducible refine Keeps.ite ?_ ?_
    | exact Or.inr (by decide)
    | with_reducible exact Or.inl rfl
    | (show (_ : List Area) ⊆ _; decide)
    | split
    | with_reducible apply Keeps.mk
    | dsimp only
    | exact Or.inl rfl

theorem launchDone_keeps {A_ : List Area} {s_ : State} {col : Nat} {w : Word} {s : State}
    (ha_ : [.eng, .arr] ⊆ A_) (hs_ : Keeps A_ s_ s) : Keeps A_ s_ (launchDone col w s) := by
  refine Keeps.comp ?_ ha_ hs_
  clear hs_ ha_; unfold launchDone
  try dsimp only
  repeat' first
    | with_reducible exact Keeps.refl _ _
    | with_reducible apply unabort_keeps
    | with_reducible apply unstop_keeps
    | with_reducible apply endRegionLoads_keeps
    | with_reducible apply putLaunch_keeps
    | with_reducible refine Keeps.ite ?_ ?_
    | exact Or.inr (by decide)
    | with_reducible exact Or.inl rfl
    | (show (_ : List Area) ⊆ _; decide)
    | split
    | with_reducible apply Keeps.mk
    | dsimp only
    | exact Or.inl rfl

theorem execLaunchDone_keeps {A_ : List Area} {s_ t_ : State} {col : Fin 64} {word : Word} {s : State} (h_ : execLaunchDone col word s = .next t_)
    (ha_ : [.eng, .arr] ⊆ A_) (hs_ : Keeps A_ s_ s) : Keeps A_ s_ t_ := by
  refine Keeps.comp ?_ ha_ hs_
  clear hs_ ha_; unfold execLaunchDone at h_
  try dsimp only at h_
  all_goals first | with_reducible exact Keeps.of_fault h_ | (with_reducible obtain rfl := Host.Outcome.next.inj h_) | skip
  repeat' first
    | with_reducible exact Keeps.refl _ _
    | with_reducible apply launchDone_keeps
    | with_reducible refine whileAlive_keeps (fun _ => ?_) ?_
    | (show (_ : List Area) ⊆ _; decide)

theorem freeRegion_keeps {A_ : List Area} {s_ : State} {r : Launch} {s : State}
    (ha_ : [.arr] ⊆ A_) (hs_ : Keeps A_ s_ s) : Keeps A_ s_ (freeRegion r s) := by
  refine Keeps.comp ?_ ha_ hs_
  clear hs_ ha_; unfold freeRegion
  try dsimp only
  repeat' first
    | with_reducible exact Keeps.refl _ _
    | with_reducible apply State.setCol_keeps
    | with_reducible refine Keeps.foldl (fun _ _ => ?_) _ ?_
    | with_reducible refine Keeps.ite ?_ ?_
    | exact Or.inr (by decide)
    | with_reducible exact Or.inl rfl
    | (show (_ : List Area) ⊆ _; decide)
    | split
    | with_reducible apply Keeps.mk
    | dsimp only
    | exact Or.inl rfl

theorem launchCommit_keeps {A_ : List Area} {s_ : State} {q : QId} {idx : BitVec 16} {s : State}
    (ha_ : [.eng, .arr] ⊆ A_) (hs_ : Keeps A_ s_ s) : Keeps A_ s_ (launchCommit q idx s) := by
  refine Keeps.comp ?_ ha_ hs_
  clear hs_ ha_; unfold launchCommit
  try dsimp only
  repeat' first
    | with_reducible exact Keeps.refl _ _
    | with_reducible apply freeRegion_keeps
    | with_reducible apply finishCmd_keeps
    | with_reducible refine Keeps.ite ?_ ?_
    | exact Or.inr (by decide)
    | with_reducible exact Or.inl rfl
    | (show (_ : List Area) ⊆ _; decide)
    | split
    | with_reducible apply Keeps.mk
    | dsimp only
    | exact Or.inl rfl

theorem execLaunchCommit_keeps {A_ : List Area} {s_ t_ : State} {q : QId} {idx : BitVec 16} {s : State} (h_ : execLaunchCommit q idx s = .next t_)
    (ha_ : [.eng, .arr] ⊆ A_) (hs_ : Keeps A_ s_ s) : Keeps A_ s_ t_ := by
  refine Keeps.comp ?_ ha_ hs_
  clear hs_ ha_; unfold execLaunchCommit at h_
  try dsimp only at h_
  all_goals first | with_reducible exact Keeps.of_fault h_ | (with_reducible obtain rfl := Host.Outcome.next.inj h_) | skip
  repeat' first
    | with_reducible exact Keeps.refl _ _
    | with_reducible apply launchCommit_keeps
    | with_reducible refine whileAlive_keeps (fun _ => ?_) ?_
    | (show (_ : List Area) ⊆ _; decide)

theorem launchTimeout_keeps {A_ : List Area} {s_ : State} {q : QId} {idx : BitVec 16} {s : State}
    (ha_ : [.arr] ⊆ A_) (hs_ : Keeps A_ s_ s) : Keeps A_ s_ (launchTimeout q idx s) := by
  refine Keeps.comp ?_ ha_ hs_
  clear hs_ ha_; unfold launchTimeout
  try dsimp only
  repeat' first
    | with_reducible exact Keeps.refl _ _
    | with_reducible apply launchEnd_keeps
    | with_reducible refine Keeps.ite ?_ ?_
    | (show (_ : List Area) ⊆ _; decide)
    | split
    | dsimp only

theorem execLaunchTimeout_keeps {A_ : List Area} {s_ t_ : State} {q : QId} {idx : BitVec 16} {s : State} (h_ : execLaunchTimeout q idx s = .next t_)
    (ha_ : [.arr] ⊆ A_) (hs_ : Keeps A_ s_ s) : Keeps A_ s_ t_ := by
  refine Keeps.comp ?_ ha_ hs_
  clear hs_ ha_; unfold execLaunchTimeout at h_
  try dsimp only at h_
  all_goals first | with_reducible exact Keeps.of_fault h_ | (with_reducible obtain rfl := Host.Outcome.next.inj h_) | skip
  repeat' first
    | with_reducible exact Keeps.refl _ _
    | with_reducible apply launchTimeout_keeps
    | with_reducible refine Keeps.ite ?_ ?_
    | (show (_ : List Area) ⊆ _; decide)
    | split
    | dsimp only

theorem countStall_keeps {A_ : List Area} {s_ : State} {r : Launch} {s : State}
    (ha_ : [.arr] ⊆ A_) (hs_ : Keeps A_ s_ s) : Keeps A_ s_ (countStall r s) := by
  refine Keeps.comp ?_ ha_ hs_
  clear hs_ ha_; unfold countStall
  try dsimp only
  repeat' first
    | with_reducible exact Keeps.refl _ _
    | with_reducible apply putLaunch_keeps
    | with_reducible refine Keeps.ite ?_ ?_
    | exact Or.inr (by decide)
    | with_reducible exact Or.inl rfl
    | (show (_ : List Area) ⊆ _; decide)
    | split
    | with_reducible apply Keeps.mk
    | dsimp only
    | exact Or.inl rfl

theorem arrayStall_keeps {A_ : List Area} {s_ : State} {q : QId} {idx : BitVec 16} {s : State}
    (ha_ : [.arr] ⊆ A_) (hs_ : Keeps A_ s_ s) : Keeps A_ s_ (arrayStall q idx s) := by
  refine Keeps.comp ?_ ha_ hs_
  clear hs_ ha_; unfold arrayStall
  try dsimp only
  repeat' first
    | with_reducible exact Keeps.refl _ _
    | with_reducible apply launchEnd_keeps
    | with_reducible refine Keeps.ite ?_ ?_
    | (show (_ : List Area) ⊆ _; decide)
    | split
    | dsimp only

theorem execArrayStall_keeps {A_ : List Area} {s_ t_ : State} {q : QId} {idx : BitVec 16} {s : State} (h_ : execArrayStall q idx s = .next t_)
    (ha_ : [.arr] ⊆ A_) (hs_ : Keeps A_ s_ s) : Keeps A_ s_ t_ := by
  refine Keeps.comp ?_ ha_ hs_
  clear hs_ ha_; unfold execArrayStall at h_
  try dsimp only at h_
  all_goals first | with_reducible exact Keeps.of_fault h_ | (with_reducible obtain rfl := Host.Outcome.next.inj h_) | skip
  repeat' first
    | with_reducible exact Keeps.refl _ _
    | with_reducible apply arrayStall_keeps
    | with_reducible refine Keeps.ite ?_ ?_
    | (show (_ : List Area) ⊆ _; decide)
    | split
    | dsimp only

theorem stopWork_keeps {A_ : List Area} {s_ : State} {q : QId} {c : Cmd} {s : State}
    (ha_ : [.eng, .arr] ⊆ A_) (hs_ : Keeps A_ s_ s) : Keeps A_ s_ (stopWork q c s) := by
  refine Keeps.comp ?_ ha_ hs_
  clear hs_ ha_; unfold stopWork
  try dsimp only
  repeat' first
    | with_reducible exact Keeps.refl _ _
    | with_reducible apply stopCmd_keeps
    | with_reducible apply launchEnd_keeps
    | with_reducible apply putLaunch_keeps
    | with_reducible refine Keeps.getD (fun _ _ => ?_) ?_
    | with_reducible refine Keeps.ite ?_ ?_
    | exact Or.inr (by decide)
    | with_reducible exact Or.inl rfl
    | (show (_ : List Area) ⊆ _; decide)
    | split
    | with_reducible apply Keeps.mk
    | dsimp only
    | exact Or.inl rfl

theorem execStop_keeps {A_ : List Area} {s_ t_ : State} {q : QId} {idx : BitVec 16} {s : State} (h_ : execStop q idx s = .next t_)
    (ha_ : [.eng, .arr] ⊆ A_) (hs_ : Keeps A_ s_ s) : Keeps A_ s_ t_ := by
  refine Keeps.comp ?_ ha_ hs_
  clear hs_ ha_; unfold execStop at h_
  try dsimp only at h_
  all_goals first | with_reducible exact Keeps.of_fault h_ | (with_reducible obtain rfl := Host.Outcome.next.inj h_) | skip
  repeat' first
    | with_reducible exact Keeps.refl _ _
    | with_reducible apply stopWork_keeps
    | with_reducible refine runCmd_keeps (fun _ _ => ?_) ?_ ?_
    | with_reducible refine whileAlive_keeps (fun _ => ?_) ?_
    | (show (_ : List Area) ⊆ _; decide)

theorem readbackStep_keeps {A_ : List Area} {s_ : State} {q : QId} {c : Cmd} {s : State}
    (ha_ : [.ports, .xpt, .til, .dram, .dir] ⊆ A_) (hs_ : Keeps A_ s_ s) : Keeps A_ s_ (readbackStep q c s).st := by
  refine Keeps.comp ?_ ha_ hs_
  clear hs_ ha_; unfold readbackStep
  try dsimp only
  repeat' split
  all_goals try dsimp only [Run.st]
  repeat' first
    | with_reducible exact Keeps.refl _ _
    | refine engWrite_keeps ((congrArg Acc.st (by assumption)).trans rfl) ?_ ?_
    | with_reducible refine Keeps.ite ?_ ?_
    | exact Or.inr (by decide)
    | with_reducible exact Or.inl rfl
    | (show (_ : List Area) ⊆ _; decide)
    | split
    | with_reducible apply Keeps.mk
    | dsimp only
    | exact Or.inl rfl

theorem readbackWork_keeps {A_ : List Area} {s_ : State} {q : QId} {c : Cmd} {s : State}
    (ha_ : [.ports, .xpt, .til, .dram, .dir, .eng] ⊆ A_) (hs_ : Keeps A_ s_ s) : Keeps A_ s_ (readbackWork q c s) := by
  refine Keeps.comp ?_ ha_ hs_
  clear hs_ ha_; unfold readbackWork
  try dsimp only
  repeat' first
    | with_reducible exact Keeps.refl _ _
    | with_reducible apply readbackStep_keeps
    | refine Keeps.of_eq ((congrArg Run.st (by assumption)).trans rfl) (readbackStep_keeps ?_ ?_)
    | with_reducible refine runLoop_keeps (fun _ _ => ?_) ?_ _ ?_
    | with_reducible apply stopCmd_keeps
    | with_reducible refine Keeps.ite ?_ ?_
    | (show (_ : List Area) ⊆ _; decide)
    | split
    | dsimp only

theorem execReadback_keeps {A_ : List Area} {s_ t_ : State} {q : QId} {idx : BitVec 16} {s : State} (h_ : execReadback q idx s = .next t_)
    (ha_ : [.ports, .xpt, .til, .dram, .dir, .eng] ⊆ A_) (hs_ : Keeps A_ s_ s) : Keeps A_ s_ t_ := by
  refine Keeps.comp ?_ ha_ hs_
  clear hs_ ha_; unfold execReadback at h_
  try dsimp only at h_
  all_goals first | with_reducible exact Keeps.of_fault h_ | (with_reducible obtain rfl := Host.Outcome.next.inj h_) | skip
  repeat' first
    | with_reducible exact Keeps.refl _ _
    | with_reducible apply readbackWork_keeps
    | with_reducible refine runCmd_keeps (fun _ _ => ?_) ?_ ?_
    | with_reducible refine whileAlive_keeps (fun _ => ?_) ?_
    | (show (_ : List Area) ⊆ _; decide)

theorem execArrayQuery_keeps {A_ : List Area} {s_ t_ : State} {fn : Fn} {m : MbxHdr} {part : Byte} {s : State} (h_ : execArrayQuery fn m part s = .next t_)
    (ha_ : [.serialNo, .hosts, .out] ⊆ A_) (hs_ : Keeps A_ s_ s) : Keeps A_ s_ t_ := by
  refine Keeps.comp ?_ ha_ hs_
  clear hs_ ha_; unfold execArrayQuery at h_
  try dsimp only at h_
  all_goals first | with_reducible exact Keeps.of_fault h_ | (with_reducible obtain rfl := Host.Outcome.next.inj h_) | skip
  repeat' first
    | with_reducible exact Keeps.refl _ _
    | with_reducible refine mailbox_keeps (fun _ _ => ?_) ?_ ?_
    | with_reducible apply answer_keeps
    | (show (_ : List Area) ⊆ _; decide)

end Sys2Proof.Machine
end

