-- ==== Sys2Proof/Laws/Frame/Frames.lean ====
section
/-! SUPPORT. The frame of every operation of Machine/Frames.lean: the areas it may change, and that pool memory keeps its canonical form. -/

namespace Sys2Proof.Machine

set_option linter.unusedTactic false
set_option linter.unreachableTactic false
set_option linter.unusedVariables false

/-- The state that asking for words leads to. -/
def Got.st : Got → Option State
  | .words _ _ s => some s
  | .hold s => some s
  | .fail _ _ s => some s
  | .short => none

theorem nextWords_keeps {A_ : List Area} {s_ t_ : State} {x : Loader} {n : Nat} {s : State} (h_ : (nextWords x n s).st = some t_)
    (ha_ : [.ports, .xpt, .til, .dram, .dir, .eng] ⊆ A_) (hs_ : Keeps A_ s_ s) : Keeps A_ s_ t_ := by
  refine Keeps.comp ?_ ha_ hs_
  clear hs_ ha_; unfold nextWords at h_
  try dsimp only at h_
  repeat' (split at h_)
  all_goals try dsimp only [Got.st] at h_
  all_goals first | with_reducible exact Keeps.of_none h_ | (with_reducible obtain rfl := Option.some.inj h_) | skip
  repeat' first
    | with_reducible exact Keeps.refl _ _
    | with_reducible apply readSide_keeps
    | with_reducible refine Keeps.pair3 (by assumption) ?_
    | with_reducible apply putCmd_keeps
    | with_reducible refine Keeps.ite ?_ ?_
    | exact Or.inr (by decide)
    | with_reducible exact Or.inl rfl
    | (show (_ : List Area) ⊆ _; decide)
    | split
    | with_reducible apply Keeps.mk
    | dsimp only
    | exact Or.inl rfl

theorem endLoad_keeps {A_ : List Area} {s_ : State} {x : Loader} {st : Status} {s : State}
    (ha_ : [.eng, .arr] ⊆ A_) (hs_ : Keeps A_ s_ s) : Keeps A_ s_ (endLoad x st s) := by
  refine Keeps.comp ?_ ha_ hs_
  clear hs_ ha_; unfold endLoad
  try dsimp only
  repeat' first
    | with_reducible exact Keeps.refl _ _
    | with_reducible apply selfReport_keeps
    | with_reducible apply stopCmd_keeps
    | with_reducible apply endRegionLoads_keeps
    | with_reducible apply endSelfLoad_keeps
    | with_reducible apply wipeColumn_keeps
    | with_reducible apply settleColumn_keeps
    | with_reducible apply dropLoader_keeps
    | with_reducible apply putLoader_keeps
    | with_reducible refine Keeps.foldl (fun _ _ => ?_) _ ?_
    | with_reducible refine Keeps.ite ?_ ?_
    | exact Or.inr (by decide)
    | with_reducible exact Or.inl rfl
    | (show (_ : List Area) ⊆ _; decide)
    | split
    | with_reducible apply Keeps.mk
    | dsimp only
    | exact Or.inl rfl

theorem failLoad_keeps {A_ : List Area} {s_ : State} {x : Loader} {st : Status} {s : State}
    (ha_ : [.eng, .arr] ⊆ A_) (hs_ : Keeps A_ s_ s) : Keeps A_ s_ (failLoad x st s) := by
  refine Keeps.comp ?_ ha_ hs_
  clear hs_ ha_; unfold failLoad
  try dsimp only
  repeat' first
    | with_reducible exact Keeps.refl _ _
    | with_reducible apply endLoad_keeps
    | (show (_ : List Area) ⊆ _; decide)

theorem takeCol_keeps {A_ : List Area} {s_ : State} {x : Loader} {k : Nat} {s : State}
    (ha_ : [.arr] ⊆ A_) (hs_ : Keeps A_ s_ s) : Keeps A_ s_ (takeCol x k s) := by
  refine Keeps.comp ?_ ha_ hs_
  clear hs_ ha_; unfold takeCol
  try dsimp only
  repeat' first
    | with_reducible exact Keeps.refl _ _
    | with_reducible apply putLaunch_keeps
    | with_reducible apply State.setCol_keeps
    | with_reducible refine Keeps.ite ?_ ?_
    | exact Or.inr (by decide)
    | with_reducible exact Or.inl rfl
    | (show (_ : List Area) ⊆ _; decide)
    | split
    | with_reducible apply Keeps.mk
    | dsimp only
    | exact Or.inl rfl

theorem doClaim_keeps {A_ : List Area} {s_ : State} {x : Loader} {s : State}
    (ha_ : [.eng, .arr] ⊆ A_) (hs_ : Keeps A_ s_ s) : Keeps A_ s_ (doClaim x s) := by
  refine Keeps.comp ?_ ha_ hs_
  clear hs_ ha_; unfold doClaim
  try dsimp only
  repeat' first
    | with_reducible exact Keeps.refl _ _
    | with_reducible apply takeCol_keeps
    | with_reducible apply endLoad_keeps
    | with_reducible apply putLoader_keeps
    | with_reducible refine Keeps.foldl (fun _ _ => ?_) _ ?_
    | with_reducible refine Keeps.ite ?_ ?_
    | exact Or.inr (by decide)
    | with_reducible exact Or.inl rfl
    | (show (_ : List Area) ⊆ _; decide)
    | split
    | with_reducible apply Keeps.mk
    | dsimp only
    | exact Or.inl rfl

theorem writeBlock_keeps {A_ : List Area} {s_ : State} {maps : Bool} {w : List Word} {x : Loader} {s : State}
    (ha_ : [.arr] ⊆ A_) (hs_ : Keeps A_ s_ s) : Keeps A_ s_ (writeBlock maps w x s) := by
  refine Keeps.comp ?_ ha_ hs_
  clear hs_ ha_; unfold writeBlock
  try dsimp only
  repeat' first
    | with_reducible exact Keeps.refl _ _
    | with_reducible apply writeFrame_keeps
    | with_reducible apply putMap_keeps
    | with_reducible apply State.setCol_keeps
    | with_reducible refine Keeps.foldl (fun _ _ => ?_) _ ?_
    | with_reducible refine Keeps.ite ?_ ?_
    | exact Or.inr (by decide)
    | with_reducible exact Or.inl rfl
    | (show (_ : List Area) ⊆ _; decide)
    | split
    | with_reducible apply Keeps.mk
    | dsimp only
    | exact Or.inl rfl

theorem doBlocks_keeps {A_ : List Area} (f : Nat) : ∀ {x : Loader} {s_ s : State}, [.ports, .xpt, .til, .dram, .dir, .eng, .arr] ⊆ A_ → Keeps A_ s_ s → Keeps A_ s_ (doBlocks f x s) := by
  induction f with
  | zero => intro x s_ s ha h; exact putLoader_keeps (List.Subset.trans (by decide) ha) h
  | succ f ih =>
    intro x s_ s ha h
    unfold doBlocks
    split
    · exact putLoader_keeps (List.Subset.trans (by decide) ha) h
    · exact putLoader_keeps (List.Subset.trans (by decide) ha) h
    · split
      case _ s1 e => exact putLoader_keeps (List.Subset.trans (by decide) ha) (nextWords_keeps ((congrArg Got.st e).trans rfl) (List.Subset.trans (by decide) ha) h)
      case _ e => exact endLoad_keeps (List.Subset.trans (by decide) ha) h
      case _ st x1 s1 e => exact failLoad_keeps (List.Subset.trans (by decide) ha) (nextWords_keeps ((congrArg Got.st e).trans rfl) (List.Subset.trans (by decide) ha) h)
      case _ w x1 s1 e =>
        have k := nextWords_keeps (A_ := A_) ((congrArg Got.st e).trans rfl) (List.Subset.trans (by decide) ha) h
        exact Keeps.ite (endLoad_keeps (List.Subset.trans (by decide) ha) k) (ih ha (writeBlock_keeps (List.Subset.trans (by decide) ha) k))

theorem doClear_keeps {A_ : List Area} {s_ : State} {x : Loader} {s : State}
    (ha_ : [.eng, .arr] ⊆ A_) (hs_ : Keeps A_ s_ s) : Keeps A_ s_ (doClear x s) := by
  refine Keeps.comp ?_ ha_ hs_
  clear hs_ ha_; unfold doClear
  try dsimp only
  repeat' first
    | with_reducible exact Keeps.refl _ _
    | with_reducible apply endLoad_keeps
    | with_reducible apply putLoader_keeps
    | with_reducible apply clearColumn_keeps
    | with_reducible apply State.setCol_keeps
    | with_reducible refine Keeps.foldl (fun _ _ => ?_) _ ?_
    | with_reducible refine Keeps.ite ?_ ?_
    | exact Or.inr (by decide)
    | with_reducible exact Or.inl rfl
    | (show (_ : List Area) ⊆ _; decide)
    | split
    | with_reducible apply Keeps.mk
    | dsimp only
    | exact Or.inl rfl

theorem doSelect_keeps {A_ : List Area} {s_ : State} {x : Loader} {arg : Nat} {s : State}
    (ha_ : [.ports, .xpt, .til, .dram, .dir, .eng, .arr] ⊆ A_) (hs_ : Keeps A_ s_ s) : Keeps A_ s_ (doSelect x arg s) := by
  refine Keeps.comp ?_ ha_ hs_
  clear hs_ ha_; unfold doSelect
  try dsimp only
  repeat' first
    | with_reducible exact Keeps.refl _ _
    | with_reducible apply failLoad_keeps
    | with_reducible apply endLoad_keeps
    | refine nextWords_keeps ((congrArg Got.st (by assumption)).trans rfl) ?_ ?_
    | with_reducible apply putLoader_keeps
    | with_reducible refine Keeps.getD (fun _ _ => ?_) ?_
    | with_reducible refine Keeps.ite ?_ ?_
    | exact Or.inr (by decide)
    | with_reducible exact Or.inl rfl
    | (show (_ : List Area) ⊆ _; decide)
    | split
    | with_reducible apply Keeps.mk
    | dsimp only
    | exact Or.inl rfl

theorem doDirective_keeps {A_ : List Area} {s_ : State} {w : Nat} {x : Loader} {s : State}
    (ha_ : [.ports, .xpt, .til, .dram, .dir, .eng, .arr] ⊆ A_) (hs_ : Keeps A_ s_ s) : Keeps A_ s_ (doDirective w x s) := by
  refine Keeps.comp ?_ ha_ hs_
  clear hs_ ha_; unfold doDirective
  try dsimp only
  repeat' first
    | with_reducible exact Keeps.refl _ _
    | with_reducible apply doSelect_keeps
    | with_reducible apply doClear_keeps
    | with_reducible apply doBlocks_keeps
    | with_reducible apply doClaim_keeps
    | with_reducible apply endLoad_keeps
    | with_reducible apply putLoader_keeps
    | with_reducible refine Keeps.ite ?_ ?_
    | exact Or.inr (by decide)
    | with_reducible exact Or.inl rfl
    | (show (_ : List Area) ⊆ _; decide)
    | split
    | with_reducible apply Keeps.mk
    | dsimp only
    | exact Or.inl rfl

theorem takeDirective_keeps {A_ : List Area} {s_ : State} {kind : Nat} {x : Loader} {s : State}
    (ha_ : [.ports, .xpt, .til, .dram, .dir, .eng, .arr] ⊆ A_) (hs_ : Keeps A_ s_ s) : Keeps A_ s_ (takeDirective kind x s) := by
  refine Keeps.comp ?_ ha_ hs_
  clear hs_ ha_; unfold takeDirective
  try dsimp only
  repeat' first
    | with_reducible exact Keeps.refl _ _
    | with_reducible apply doDirective_keeps
    | with_reducible apply failLoad_keeps
    | with_reducible apply endLoad_keeps
    | refine nextWords_keeps ((congrArg Got.st (by assumption)).trans rfl) ?_ ?_
    | with_reducible refine Keeps.getD (fun _ _ => ?_) ?_
    | with_reducible refine Keeps.ite ?_ ?_
    | (show (_ : List Area) ⊆ _; decide)
    | split
    | dsimp only

theorem streamStep_keeps {A_ : List Area} {s_ : State} {l : LoaderId} {kind : Nat} {s : State}
    (ha_ : [.ports, .xpt, .til, .dram, .dir, .eng, .arr] ⊆ A_) (hs_ : Keeps A_ s_ s) : Keeps A_ s_ (streamStep l kind s) := by
  refine Keeps.comp ?_ ha_ hs_
  clear hs_ ha_; unfold streamStep
  try dsimp only
  repeat' first
    | with_reducible exact Keeps.refl _ _
    | with_reducible apply takeDirective_keeps
    | with_reducible apply doBlocks_keeps
    | with_reducible apply failLoad_keeps
    | with_reducible apply endLoad_keeps
    | refine nextWords_keeps ((congrArg Got.st (by assumption)).trans rfl) ?_ ?_
    | with_reducible apply putLoader_keeps
    | with_reducible refine Keeps.getD (fun _ _ => ?_) ?_
    | with_reducible refine Keeps.ite ?_ ?_
    | exact Or.inr (by decide)
    | with_reducible exact Or.inl rfl
    | (show (_ : List Area) ⊆ _; decide)
    | split
    | with_reducible apply Keeps.mk
    | dsimp only
    | exact Or.inl rfl

theorem execPad_keeps {A_ : List Area} {s_ t_ : State} {l : LoaderId} {s : State} (h_ : execPad l s = .next t_)
    (ha_ : [.ports, .xpt, .til, .dram, .dir, .eng, .arr] ⊆ A_) (hs_ : Keeps A_ s_ s) : Keeps A_ s_ t_ := by
  refine Keeps.comp ?_ ha_ hs_
  clear hs_ ha_; unfold execPad at h_
  try dsimp only at h_
  all_goals first | with_reducible exact Keeps.of_fault h_ | (with_reducible obtain rfl := Host.Outcome.next.inj h_) | skip
  repeat' first
    | with_reducible exact Keeps.refl _ _
    | with_reducible apply streamStep_keeps
    | with_reducible refine whileAlive_keeps (fun _ => ?_) ?_
    | (show (_ : List Area) ⊆ _; decide)

theorem execSelect_keeps {A_ : List Area} {s_ t_ : State} {l : LoaderId} {s : State} (h_ : execSelect l s = .next t_)
    (ha_ : [.ports, .xpt, .til, .dram, .dir, .eng, .arr] ⊆ A_) (hs_ : Keeps A_ s_ s) : Keeps A_ s_ t_ := by
  refine Keeps.comp ?_ ha_ hs_
  clear hs_ ha_; unfold execSelect at h_
  try dsimp only at h_
  all_goals first | with_reducible exact Keeps.of_fault h_ | (with_reducible obtain rfl := Host.Outcome.next.inj h_) | skip
  repeat' first
    | with_reducible exact Keeps.refl _ _
    | with_reducible apply streamStep_keeps
    | with_reducible refine whileAlive_keeps (fun _ => ?_) ?_
    | (show (_ : List Area) ⊆ _; decide)

theorem execClaimDirective_keeps {A_ : List Area} {s_ t_ : State} {l : LoaderId} {s : State} (h_ : execClaimDirective l s = .next t_)
    (ha_ : [.ports, .xpt, .til, .dram, .dir, .eng, .arr] ⊆ A_) (hs_ : Keeps A_ s_ s) : Keeps A_ s_ t_ := by
  refine Keeps.comp ?_ ha_ hs_
  clear hs_ ha_; unfold execClaimDirective at h_
  try dsimp only at h_
  all_goals first | with_reducible exact Keeps.of_fault h_ | (with_reducible obtain rfl := Host.Outcome.next.inj h_) | skip
  repeat' first
    | with_reducible exact Keeps.refl _ _
    | with_reducible apply streamStep_keeps
    | with_reducible refine whileAlive_keeps (fun _ => ?_) ?_
    | (show (_ : List Area) ⊆ _; decide)

theorem execFrames_keeps {A_ : List Area} {s_ t_ : State} {l : LoaderId} {s : State} (h_ : execFrames l s = .next t_)
    (ha_ : [.ports, .xpt, .til, .dram, .dir, .eng, .arr] ⊆ A_) (hs_ : Keeps A_ s_ s) : Keeps A_ s_ t_ := by
  refine Keeps.comp ?_ ha_ hs_
  clear hs_ ha_; unfold execFrames at h_
  try dsimp only at h_
  all_goals first | with_reducible exact Keeps.of_fault h_ | (with_reducible obtain rfl := Host.Outcome.next.inj h_) | skip
  repeat' first
    | with_reducible exact Keeps.refl _ _
    | with_reducible apply streamStep_keeps
    | with_reducible refine whileAlive_keeps (fun _ => ?_) ?_
    | (show (_ : List Area) ⊆ _; decide)

theorem execMaps_keeps {A_ : List Area} {s_ t_ : State} {l : LoaderId} {s : State} (h_ : execMaps l s = .next t_)
    (ha_ : [.ports, .xpt, .til, .dram, .dir, .eng, .arr] ⊆ A_) (hs_ : Keeps A_ s_ s) : Keeps A_ s_ t_ := by
  refine Keeps.comp ?_ ha_ hs_
  clear hs_ ha_; unfold execMaps at h_
  try dsimp only at h_
  all_goals first | with_reducible exact Keeps.of_fault h_ | (with_reducible obtain rfl := Host.Outcome.next.inj h_) | skip
  repeat' first
    | with_reducible exact Keeps.refl _ _
    | with_reducible apply streamStep_keeps
    | with_reducible refine whileAlive_keeps (fun _ => ?_) ?_
    | (show (_ : List Area) ⊆ _; decide)

theorem execClear_keeps {A_ : List Area} {s_ t_ : State} {l : LoaderId} {s : State} (h_ : execClear l s = .next t_)
    (ha_ : [.ports, .xpt, .til, .dram, .dir, .eng, .arr] ⊆ A_) (hs_ : Keeps A_ s_ s) : Keeps A_ s_ t_ := by
  refine Keeps.comp ?_ ha_ hs_
  clear hs_ ha_; unfold execClear at h_
  try dsimp only at h_
  all_goals first | with_reducible exact Keeps.of_fault h_ | (with_reducible obtain rfl := Host.Outcome.next.inj h_) | skip
  repeat' first
    | with_reducible exact Keeps.refl _ _
    | with_reducible apply streamStep_keeps
    | with_reducible refine whileAlive_keeps (fun _ => ?_) ?_
    | (show (_ : List Area) ⊆ _; decide)

theorem execEndStream_keeps {A_ : List Area} {s_ t_ : State} {l : LoaderId} {s : State} (h_ : execEndStream l s = .next t_)
    (ha_ : [.ports, .xpt, .til, .dram, .dir, .eng, .arr] ⊆ A_) (hs_ : Keeps A_ s_ s) : Keeps A_ s_ t_ := by
  refine Keeps.comp ?_ ha_ hs_
  clear hs_ ha_; unfold execEndStream at h_
  try dsimp only at h_
  all_goals first | with_reducible exact Keeps.of_fault h_ | (with_reducible obtain rfl := Host.Outcome.next.inj h_) | skip
  repeat' first
    | with_reducible exact Keeps.refl _ _
    | with_reducible apply streamStep_keeps
    | with_reducible refine whileAlive_keeps (fun _ => ?_) ?_
    | (show (_ : List Area) ⊆ _; decide)

theorem runStream_keeps {A_ : List Area} {l : LoaderId} (f : Nat) : ∀ {s_ s : State}, [.ports, .xpt, .til, .dram, .dir, .eng, .arr] ⊆ A_ → Keeps A_ s_ s → Keeps A_ s_ (runStream l f s) := by
  induction f with
  | zero => intro s_ s _ h; exact h
  | succ f ih =>
    intro s_ s ha h
    unfold runStream
    split
    · exact h
    · exact Keeps.ite h (ih ha (streamStep_keeps (List.Subset.trans (by decide) ha) h))

theorem loadStart_keeps {A_ : List Area} {s_ : State} {q : QId} {idx : BitVec 16} {s : State}
    (ha_ : [.arr] ⊆ A_) (hs_ : Keeps A_ s_ s) : Keeps A_ s_ (loadStart q idx s) := by
  refine Keeps.comp ?_ ha_ hs_
  clear hs_ ha_; unfold loadStart
  try dsimp only
  repeat' first
    | with_reducible exact Keeps.refl _ _
    | with_reducible apply State.setCol_keeps
    | with_reducible refine Keeps.foldl (fun _ _ => ?_) _ ?_
    | with_reducible refine Keeps.ite ?_ ?_
    | exact Or.inr (by decide)
    | with_reducible exact Or.inl rfl
    | (show (_ : List Area) ⊆ _; decide)
    | split
    | with_reducible apply Keeps.mk
    | dsimp only
    | exact Or.inl rfl

theorem execLoadStart_keeps {A_ : List Area} {s_ t_ : State} {q : QId} {idx : BitVec 16} {s : State} (h_ : execLoadStart q idx s = .next t_)
    (ha_ : [.arr] ⊆ A_) (hs_ : Keeps A_ s_ s) : Keeps A_ s_ t_ := by
  refine Keeps.comp ?_ ha_ hs_
  clear hs_ ha_; unfold execLoadStart at h_
  try dsimp only at h_
  all_goals first | with_reducible exact Keeps.of_fault h_ | (with_reducible obtain rfl := Host.Outcome.next.inj h_) | skip
  repeat' first
    | with_reducible exact Keeps.refl _ _
    | with_reducible apply loadStart_keeps
    | with_reducible refine whileAlive_keeps (fun _ => ?_) ?_
    | (show (_ : List Area) ⊆ _; decide)

theorem lastUpset_keeps {A_ : List Area} {s_ : State} {col : Nat} {f : Nat} {b : Option Nat} {s : State}
    (ha_ : [.arr] ⊆ A_) (hs_ : Keeps A_ s_ s) : Keeps A_ s_ (lastUpset col f b s) := by
  refine Keeps.comp ?_ ha_ hs_
  clear hs_ ha_; unfold lastUpset
  try dsimp only
  repeat' first
    | with_reducible exact Keeps.refl _ _
    | exact Or.inr (by decide)
    | with_reducible exact Or.inl rfl
    | (show (_ : List Area) ⊆ _; decide)
    | split
    | with_reducible apply Keeps.mk
    | dsimp only
    | exact Or.inl rfl

theorem haltColumn_keeps {A_ : List Area} {s_ : State} {col : Nat} {f : Nat} {s : State}
    (ha_ : [.serialNo, .arr, .hosts, .flt, .sbd, .out] ⊆ A_) (hs_ : Keeps A_ s_ s) : Keeps A_ s_ (haltColumn col f s) := by
  refine Keeps.comp ?_ ha_ hs_
  clear hs_ ha_; unfold haltColumn
  try dsimp only
  repeat' first
    | with_reducible exact Keeps.refl _ _
    | with_reducible apply launchEnd_keeps
    | with_reducible apply recordFault_keeps
    | with_reducible apply State.setCol_keeps
    | exact Or.inr (by decide)
    | with_reducible exact Or.inl rfl
    | (show (_ : List Area) ⊆ _; decide)
    | split
    | with_reducible apply Keeps.mk
    | dsimp only
    | exact Or.inl rfl

theorem checkFrame_keeps {A_ : List Area} {s_ : State} {col : Nat} {f : Nat} {s : State}
    (ha_ : [.serialNo, .arr, .hosts, .flt, .sbd, .out] ⊆ A_) (hs_ : Keeps A_ s_ s) : Keeps A_ s_ (checkFrame col f s) := by
  refine Keeps.comp ?_ ha_ hs_
  clear hs_ ha_; unfold checkFrame
  try dsimp only
  repeat' first
    | with_reducible exact Keeps.refl _ _
    | with_reducible apply haltColumn_keeps
    | with_reducible apply lastUpset_keeps
    | with_reducible apply putFrame_keeps
    | with_reducible refine Keeps.getD (fun _ _ => ?_) ?_
    | with_reducible refine Keeps.ite ?_ ?_
    | exact Or.inr (by decide)
    | with_reducible exact Or.inl rfl
    | (show (_ : List Area) ⊆ _; decide)
    | split
    | with_reducible apply Keeps.mk
    | dsimp only
    | exact Or.inl rfl

theorem readbackTick_keeps {A_ : List Area} {s_ : State} {ups : List Nat} {chk : BitVec 14} {s : State}
    (ha_ : [.serialNo, .arr, .hosts, .flt, .sbd, .out] ⊆ A_) (hs_ : Keeps A_ s_ s) : Keeps A_ s_ (readbackTick ups chk s) := by
  refine Keeps.comp ?_ ha_ hs_
  clear hs_ ha_; unfold readbackTick
  try dsimp only
  repeat' first
    | with_reducible exact Keeps.refl _ _
    | with_reducible apply checkFrame_keeps
    | with_reducible apply putFrame_keeps
    | with_reducible refine Keeps.foldl (fun _ _ => ?_) _ ?_
    | with_reducible refine Keeps.ite ?_ ?_
    | exact Or.inr (by decide)
    | with_reducible exact Or.inl rfl
    | (show (_ : List Area) ⊆ _; decide)
    | split
    | with_reducible apply Keeps.mk
    | dsimp only
    | exact Or.inl rfl

theorem execReadbackCheck_keeps {A_ : List Area} {s_ t_ : State} {upsets : List (Fin 2048)} {chk : BitVec 14} {s : State} (h_ : execReadbackCheck upsets chk s = .next t_)
    (ha_ : [.serialNo, .arr, .hosts, .flt, .sbd, .out] ⊆ A_) (hs_ : Keeps A_ s_ s) : Keeps A_ s_ t_ := by
  refine Keeps.comp ?_ ha_ hs_
  clear hs_ ha_; unfold execReadbackCheck at h_
  try dsimp only at h_
  all_goals first | with_reducible exact Keeps.of_fault h_ | (with_reducible obtain rfl := Host.Outcome.next.inj h_) | skip
  repeat' first
    | with_reducible exact Keeps.refl _ _
    | with_reducible apply readbackTick_keeps
    | with_reducible refine whileAlive_keeps (fun _ => ?_) ?_
    | (show (_ : List Area) ⊆ _; decide)

end Sys2Proof.Machine
end

