-- ==== Sys2Proof/Laws/Frame/Ends.lean ====
section
/-! SUPPORT. The frame of every operation of Machine/Ends.lean: the areas it may change, and that pool memory keeps its canonical form. -/

namespace Sys2Proof.Machine

set_option linter.unusedTactic false
set_option linter.unreachableTactic false
set_option linter.unusedVariables false

theorem endLaunchCmd_keeps {A_ : List Area} {s_ : State} {q : QId} {c : Cmd} {cause : Nat} {st : Status} {s : State}
    (ha_ : [.eng, .arr] ⊆ A_) (hs_ : Keeps A_ s_ s) : Keeps A_ s_ (endLaunchCmd q c cause st s) := by
  refine Keeps.comp ?_ ha_ hs_
  clear hs_ ha_; unfold endLaunchCmd
  try dsimp only
  repeat' first
    | with_reducible exact Keeps.refl _ _
    | with_reducible apply finishCmd_keeps
    | with_reducible apply launchEnd_keeps
    | (show (_ : List Area) ⊆ _; decide)
    | split
    | dsimp only

theorem endLoadCmd_keeps {A_ : List Area} {s_ : State} {q : QId} {c : Cmd} {st : Status} {s : State}
    (ha_ : [.eng, .arr] ⊆ A_) (hs_ : Keeps A_ s_ s) : Keeps A_ s_ (endLoadCmd q c st s) := by
  refine Keeps.comp ?_ ha_ hs_
  clear hs_ ha_; unfold endLoadCmd
  try dsimp only
  repeat' first
    | with_reducible exact Keeps.refl _ _
    | with_reducible apply finishCmd_keeps
    | with_reducible apply stopHostLoad_keeps
    | (show (_ : List Area) ⊆ _; decide)
    | split
    | dsimp only

theorem endMigrateCmd_keeps {A_ : List Area} {s_ : State} {q : QId} {c : Cmd} {st : Status} {s : State}
    (ha_ : [.insts, .nid, .parts, .serialNo, .til, .dram, .eng, .hosts, .flt, .sbd, .out] ⊆ A_) (hs_ : Keeps A_ s_ s) : Keeps A_ s_ (endMigrateCmd q c st s) := by
  refine Keeps.comp ?_ ha_ hs_
  clear hs_ ha_; unfold endMigrateCmd
  try dsimp only
  repeat' first
    | with_reducible exact Keeps.refl _ _
    | with_reducible apply abortMig_keeps
    | with_reducible apply finishCmd_keeps
    | with_reducible refine Keeps.ite ?_ ?_
    | (show (_ : List Area) ⊆ _; decide)
    | split
    | dsimp only

theorem endScrubCmd_keeps {A_ : List Area} {s_ : State} {q : QId} {c : Cmd} {st : Status} {s : State}
    (ha_ : [.ports, .xpt, .til, .dram, .dir, .eng, .out] ⊆ A_) (hs_ : Keeps A_ s_ s) : Keeps A_ s_ (endScrubCmd q c st s) := by
  refine Keeps.comp ?_ ha_ hs_
  clear hs_ ha_; unfold endScrubCmd
  try dsimp only
  repeat' first
    | with_reducible exact Keeps.refl _ _
    | with_reducible apply scrubEnd_keeps
    | with_reducible apply finishCmd_keeps
    | with_reducible refine Keeps.ite ?_ ?_
    | (show (_ : List Area) ⊆ _; decide)
    | split
    | dsimp only

theorem endCmd_keeps {A_ : List Area} {s_ : State} {q : QId} {c : Cmd} {cause : Nat} {st : Status} {s : State}
    (ha_ : [.insts, .nid, .parts, .serialNo, .ports, .xpt, .til, .dram, .dir, .eng, .arr, .hosts, .flt, .sbd, .out] ⊆ A_) (hs_ : Keeps A_ s_ s) : Keeps A_ s_ (endCmd q c cause st s) := by
  refine Keeps.comp ?_ ha_ hs_
  clear hs_ ha_; unfold endCmd
  try dsimp only
  repeat' first
    | with_reducible exact Keeps.refl _ _
    | with_reducible apply endScrubCmd_keeps
    | with_reducible apply endMigrateCmd_keeps
    | with_reducible apply endLoadCmd_keeps
    | with_reducible apply endLaunchCmd_keeps
    | with_reducible apply finishCmd_keeps
    | with_reducible apply putCmd_keeps
    | with_reducible refine Keeps.ite ?_ ?_
    | exact Or.inr (by decide)
    | with_reducible exact Or.inl rfl
    | (show (_ : List Area) ⊆ _; decide)
    | split
    | with_reducible apply Keeps.mk
    | dsimp only
    | exact Or.inl rfl

theorem abortResult_keeps {A_ : List Area} {s_ : State} {q : QId} {st : Status} {s : State}
    (ha_ : [.eng] ⊆ A_) (hs_ : Keeps A_ s_ s) : Keeps A_ s_ (abortResult q st s) := by
  refine Keeps.comp ?_ ha_ hs_
  clear hs_ ha_; unfold abortResult
  try dsimp only
  repeat' first
    | with_reducible exact Keeps.refl _ _
    | with_reducible apply State.setQueue_keeps
    | exact Or.inr (by decide)
    | with_reducible exact Or.inl rfl
    | (show (_ : List Area) ⊆ _; decide)
    | with_reducible apply Keeps.mk
    | dsimp only
    | exact Or.inl rfl

theorem abortGo_keeps {A_ : List Area} {s_ : State} {q : QId} {idx : BitVec 16} {s : State}
    (ha_ : [.insts, .nid, .parts, .serialNo, .ports, .xpt, .til, .dram, .dir, .eng, .arr, .hosts, .flt, .sbd, .out] ⊆ A_) (hs_ : Keeps A_ s_ s) : Keeps A_ s_ (abortGo q idx s) := by
  refine Keeps.comp ?_ ha_ hs_
  clear hs_ ha_; unfold abortGo
  try dsimp only
  repeat' first
    | with_reducible exact Keeps.refl _ _
    | with_reducible apply abortResult_keeps
    | with_reducible apply endCmd_keeps
    | with_reducible apply State.setQueue_keeps
    | with_reducible refine Keeps.ite ?_ ?_
    | exact Or.inr (by decide)
    | with_reducible exact Or.inl rfl
    | (show (_ : List Area) ⊆ _; decide)
    | split
    | with_reducible apply Keeps.mk
    | dsimp only
    | exact Or.inl rfl

theorem writeAbort_keeps {A_ : List Area} {s_ : State} {q : QId} {v : Word} {s : State}
    (ha_ : [.insts, .nid, .parts, .serialNo, .ports, .xpt, .til, .dram, .dir, .eng, .arr, .hosts, .flt, .sbd, .out] ⊆ A_) (hs_ : Keeps A_ s_ s) : Keeps A_ s_ (writeAbort q v s) := by
  refine Keeps.comp ?_ ha_ hs_
  clear hs_ ha_; unfold writeAbort
  try dsimp only
  repeat' first
    | with_reducible exact Keeps.refl _ _
    | with_reducible apply abortGo_keeps
    | with_reducible apply qIllegal_keeps
    | with_reducible apply State.setQueue_keeps
    | with_reducible refine Keeps.ite ?_ ?_
    | exact Or.inr (by decide)
    | with_reducible exact Or.inl rfl
    | (show (_ : List Area) ⊆ _; decide)
    | split
    | with_reducible apply Keeps.mk
    | dsimp only
    | exact Or.inl rfl

theorem markStopping_keeps {A_ : List Area} {s_ : State} {q : QId} {st : Status} {tiles : Bool} {host : Bool} {s : State}
    (ha_ : [.eng] ⊆ A_) (hs_ : Keeps A_ s_ s) : Keeps A_ s_ (markStopping q st tiles host s) := by
  refine Keeps.comp ?_ ha_ hs_
  clear hs_ ha_; unfold markStopping
  try dsimp only
  repeat' first
    | with_reducible exact Keeps.refl _ _
    | with_reducible apply State.setQueue_keeps
    | with_reducible refine Keeps.ite ?_ ?_
    | exact Or.inr (by decide)
    | with_reducible exact Or.inl rfl
    | (show (_ : List Area) ⊆ _; decide)
    | split
    | with_reducible apply Keeps.mk
    | dsimp only
    | exact Or.inl rfl

theorem sweepQueue_keeps {A_ : List Area} {s_ : State} {q : QId} {s : State}
    (ha_ : [.insts, .nid, .parts, .serialNo, .ports, .xpt, .til, .dram, .dir, .eng, .arr, .hosts, .flt, .sbd, .out] ⊆ A_) (hs_ : Keeps A_ s_ s) : Keeps A_ s_ (sweepQueue q s) := by
  refine Keeps.comp ?_ ha_ hs_
  clear hs_ ha_; unfold sweepQueue
  try dsimp only
  repeat' first
    | with_reducible exact Keeps.refl _ _
    | with_reducible apply endCmd_keeps
    | with_reducible apply putCmd_keeps
    | with_reducible refine Keeps.foldl (fun _ _ => ?_) _ ?_
    | with_reducible refine Keeps.ite ?_ ?_
    | exact Or.inr (by decide)
    | with_reducible exact Or.inl rfl
    | (show (_ : List Area) ⊆ _; decide)
    | split
    | with_reducible apply Keeps.mk
    | dsimp only
    | exact Or.inl rfl

theorem queueStopped_keeps {A_ : List Area} {s_ : State} {q : QId} {s : State}
    (ha_ : [.eng, .hosts, .out] ⊆ A_) (hs_ : Keeps A_ s_ s) : Keeps A_ s_ (queueStopped q s) := by
  refine Keeps.comp ?_ ha_ hs_
  clear hs_ ha_; unfold queueStopped
  try dsimp only
  repeat' first
    | with_reducible exact Keeps.refl _ _
    | with_reducible apply answer_keeps
    | with_reducible apply State.setQueue_keeps
    | with_reducible refine Keeps.foldl (fun _ _ => ?_) _ ?_
    | with_reducible refine Keeps.ite ?_ ?_
    | (show (_ : List Area) ⊆ _; decide)
    | split
    | dsimp only

theorem execQueueStopped_keeps {A_ : List Area} {s_ t_ : State} {q : QId} {s : State} (h_ : execQueueStopped q s = .next t_)
    (ha_ : [.eng, .hosts, .out] ⊆ A_) (hs_ : Keeps A_ s_ s) : Keeps A_ s_ t_ := by
  refine Keeps.comp ?_ ha_ hs_
  clear hs_ ha_; unfold execQueueStopped at h_
  try dsimp only at h_
  all_goals first | with_reducible exact Keeps.of_fault h_ | (with_reducible obtain rfl := Host.Outcome.next.inj h_) | skip
  repeat' first
    | with_reducible exact Keeps.refl _ _
    | with_reducible apply queueStopped_keeps
    | with_reducible refine whileAlive_keeps (fun _ => ?_) ?_
    | (show (_ : List Area) ⊆ _; decide)

theorem vfReset_keeps {A_ : List Area} {s_ : State} {hp : Fin 4} {vf : Nat} {s : State}
    (ha_ : [.insts, .nid, .parts, .serialNo, .ports, .xpt, .til, .dram, .dir, .eng, .arr, .hosts, .flt, .sbd, .out] ⊆ A_) (hs_ : Keeps A_ s_ s) : Keeps A_ s_ (vfReset hp vf s) := by
  refine Keeps.comp ?_ ha_ hs_
  clear hs_ ha_; unfold vfReset
  try dsimp only
  repeat' first
    | with_reducible exact Keeps.refl _ _
    | with_reducible apply sweepQueue_keeps
    | with_reducible apply markStopping_keeps
    | with_reducible refine Keeps.foldl (fun _ _ => ?_) _ ?_
    | (show (_ : List Area) ⊆ _; decide)
    | split
    | dsimp only

theorem execVfFlr_keeps {A_ : List Area} {s_ t_ : State} {hp : Fin 4} {vf : Nat} {s : State} (h_ : execVfFlr hp vf s = .next t_)
    (ha_ : [.insts, .nid, .parts, .serialNo, .ports, .xpt, .til, .dram, .dir, .eng, .arr, .hosts, .flt, .sbd, .out] ⊆ A_) (hs_ : Keeps A_ s_ s) : Keeps A_ s_ t_ := by
  refine Keeps.comp ?_ ha_ hs_
  clear hs_ ha_; unfold execVfFlr at h_
  try dsimp only at h_
  all_goals first | with_reducible exact Keeps.of_fault h_ | (with_reducible obtain rfl := Host.Outcome.next.inj h_) | skip
  repeat' first
    | with_reducible exact Keeps.refl _ _
    | with_reducible apply vfReset_keeps
    | with_reducible refine whileAlive_keeps (fun _ => ?_) ?_
    | with_reducible refine Keeps.ite ?_ ?_
    | (show (_ : List Area) ⊆ _; decide)
    | split
    | dsimp only

theorem execQueueCreate_keeps {A_ : List Area} {s_ t_ : State} {fn : Fn} {m : MbxHdr} {tenant : Byte} {queue : Byte} {cls : Byte} {n : Byte} {place : Byte} {inst : Byte} {vector : BitVec 16} {sqBase : BitVec 64} {cqBase : BitVec 64} {s : State} (h_ : execQueueCreate fn m tenant queue cls n place inst vector sqBase cqBase s = .next t_)
    (ha_ : [.serialNo, .msh, .eng, .hosts, .out] ⊆ A_) (hs_ : Keeps A_ s_ s) : Keeps A_ s_ t_ := by
  refine Keeps.comp ?_ ha_ hs_
  clear hs_ ha_; unfold execQueueCreate at h_
  try dsimp only at h_
  all_goals first | with_reducible exact Keeps.of_fault h_ | (with_reducible obtain rfl := Host.Outcome.next.inj h_) | skip
  repeat' first
    | with_reducible exact Keeps.refl _ _
    | with_reducible apply place_keeps
    | with_reducible refine Keeps.pair1 (p := place _ _ _ _ _ _) (by assumption) ?_
    | with_reducible refine orFail_keeps (fun _ => ?_) ?_ ?_
    | with_reducible refine mailbox_keeps (fun _ _ => ?_) ?_ ?_
    | with_reducible apply answer_keeps
    | with_reducible apply State.setQueue_keeps
    | with_reducible refine Keeps.getD (fun _ _ => ?_) ?_
    | with_reducible refine Keeps.ite ?_ ?_
    | (show (_ : List Area) ⊆ _; decide)
    | split
    | dsimp only

theorem execQueueDestroy_keeps {A_ : List Area} {s_ t_ : State} {fn : Fn} {m : MbxHdr} {tenant : Byte} {queue : Byte} {s : State} (h_ : execQueueDestroy fn m tenant queue s = .next t_)
    (ha_ : [.insts, .nid, .parts, .serialNo, .ports, .xpt, .til, .dram, .dir, .eng, .arr, .hosts, .flt, .sbd, .out] ⊆ A_) (hs_ : Keeps A_ s_ s) : Keeps A_ s_ t_ := by
  refine Keeps.comp ?_ ha_ hs_
  clear hs_ ha_; unfold execQueueDestroy at h_
  try dsimp only at h_
  all_goals first | with_reducible exact Keeps.of_fault h_ | (with_reducible obtain rfl := Host.Outcome.next.inj h_) | skip
  repeat' first
    | with_reducible exact Keeps.refl _ _
    | with_reducible apply sweepQueue_keeps
    | with_reducible apply markStopping_keeps
    | with_reducible refine orFail_keeps (fun _ => ?_) ?_ ?_
    | with_reducible refine mailbox_keeps (fun _ _ => ?_) ?_ ?_
    | with_reducible apply answer_keeps
    | with_reducible apply State.setQueue_keeps
    | with_reducible refine Keeps.ite ?_ ?_
    | exact Or.inr (by decide)
    | with_reducible exact Or.inl rfl
    | (show (_ : List Area) ⊆ _; decide)
    | split
    | with_reducible apply Keeps.mk
    | dsimp only
    | exact Or.inl rfl

theorem execQueueQuery_keeps {A_ : List Area} {s_ t_ : State} {fn : Fn} {m : MbxHdr} {tenant : Byte} {queue : Byte} {s : State} (h_ : execQueueQuery fn m tenant queue s = .next t_)
    (ha_ : [.serialNo, .hosts, .out] ⊆ A_) (hs_ : Keeps A_ s_ s) : Keeps A_ s_ t_ := by
  refine Keeps.comp ?_ ha_ hs_
  clear hs_ ha_; unfold execQueueQuery at h_
  try dsimp only at h_
  all_goals first | with_reducible exact Keeps.of_fault h_ | (with_reducible obtain rfl := Host.Outcome.next.inj h_) | skip
  repeat' first
    | with_reducible exact Keeps.refl _ _
    | with_reducible refine orFail_keeps (fun _ => ?_) ?_ ?_
    | with_reducible refine mailbox_keeps (fun _ _ => ?_) ?_ ?_
    | with_reducible apply answer_keeps
    | with_reducible refine Keeps.ite ?_ ?_
    | (show (_ : List Area) ⊆ _; decide)
    | split
    | dsimp only

end Sys2Proof.Machine
end

