-- ==== Sys2Proof/Laws/Frame/Tenants.lean ====
section
/-! SUPPORT. The frame of every operation of Machine/Tenants.lean: the areas it may change, and that pool memory keeps its canonical form. -/

namespace Sys2Proof.Machine

set_option linter.unusedTactic false
set_option linter.unreachableTactic false
set_option linter.unusedVariables false

theorem execTenantCreate_keeps {A_ : List Area} {s_ t_ : State} {fn : Fn} {m : MbxHdr} {part : Byte} {vf : Byte} {s : State} (h_ : execTenantCreate fn m part vf s = .next t_)
    (ha_ : [.tenants, .serialNo, .hosts, .out] ⊆ A_) (hs_ : Keeps A_ s_ s) : Keeps A_ s_ t_ := by
  refine Keeps.comp ?_ ha_ hs_
  clear hs_ ha_; unfold execTenantCreate at h_
  try dsimp only at h_
  all_goals first | with_reducible exact Keeps.of_fault h_ | (with_reducible obtain rfl := Host.Outcome.next.inj h_) | skip
  repeat' first
    | with_reducible exact Keeps.refl _ _
    | with_reducible refine orFail_keeps (fun _ => ?_) ?_ ?_
    | with_reducible refine mailbox_keeps (fun _ _ => ?_) ?_ ?_
    | with_reducible apply answer_keeps
    | with_reducible apply State.setTenant_keeps
    | (show (_ : List Area) ⊆ _; decide)
    | split
    | dsimp only

theorem tenantKeyReady_keeps {A_ : List Area} {s_ : State} {t : Nat} {s : State}
    (ha_ : [.insts, .tenants, .serialNo, .sec, .hosts, .out] ⊆ A_) (hs_ : Keeps A_ s_ s) : Keeps A_ s_ (tenantKeyReady t s) := by
  refine Keeps.comp ?_ ha_ hs_
  clear hs_ ha_; unfold tenantKeyReady
  try dsimp only
  repeat' first
    | with_reducible exact Keeps.refl _ _
    | with_reducible apply answer_keeps
    | with_reducible apply State.setTenant_keeps
    | with_reducible apply State.setInst_keeps
    | with_reducible refine Keeps.foldl (fun _ _ => ?_) _ ?_
    | with_reducible refine Keeps.ite ?_ ?_
    | exact Or.inr (by decide)
    | with_reducible exact Or.inl rfl
    | (show (_ : List Area) ⊆ _; decide)
    | split
    | with_reducible apply Keeps.mk
    | dsimp only
    | exact Or.inl rfl

theorem execTenantKeyReady_keeps {A_ : List Area} {s_ t_ : State} {t : Fin 128} {s : State} (h_ : execTenantKeyReady t s = .next t_)
    (ha_ : [.insts, .tenants, .serialNo, .sec, .hosts, .out] ⊆ A_) (hs_ : Keeps A_ s_ s) : Keeps A_ s_ t_ := by
  refine Keeps.comp ?_ ha_ hs_
  clear hs_ ha_; unfold execTenantKeyReady at h_
  try dsimp only at h_
  all_goals first | with_reducible exact Keeps.of_fault h_ | (with_reducible obtain rfl := Host.Outcome.next.inj h_) | skip
  repeat' first
    | with_reducible exact Keeps.refl _ _
    | with_reducible apply tenantKeyReady_keeps
    | with_reducible refine whileAlive_keeps (fun _ => ?_) ?_
    | (show (_ : List Area) ⊆ _; decide)

theorem beginDestroy_keeps {A_ : List Area} {s_ : State} {t : Nat} {b : Nat} {byReset : Bool} {owed : List Owed} {s : State}
    (ha_ : [.tenants, .eng] ⊆ A_) (hs_ : Keeps A_ s_ s) : Keeps A_ s_ (beginDestroy t b byReset owed s) := by
  refine Keeps.comp ?_ ha_ hs_
  clear hs_ ha_; unfold beginDestroy
  try dsimp only
  repeat' first
    | with_reducible exact Keeps.refl _ _
    | with_reducible apply markStopping_keeps
    | with_reducible apply State.setTenant_keeps
    | with_reducible refine Keeps.foldl (fun _ _ => ?_) _ ?_
    | with_reducible refine Keeps.getD (fun _ _ => ?_) ?_
    | exact Or.inr (by decide)
    | with_reducible exact Or.inl rfl
    | (show (_ : List Area) ⊆ _; decide)
    | with_reducible apply Keeps.mk
    | dsimp only
    | exact Or.inl rfl

theorem execTenantDestroy_keeps {A_ : List Area} {s_ t_ : State} {fn : Fn} {m : MbxHdr} {tenant : Byte} {s : State} (h_ : execTenantDestroy fn m tenant s = .next t_)
    (ha_ : [.tenants, .serialNo, .eng, .hosts, .out] ⊆ A_) (hs_ : Keeps A_ s_ s) : Keeps A_ s_ t_ := by
  refine Keeps.comp ?_ ha_ hs_
  clear hs_ ha_; unfold execTenantDestroy at h_
  try dsimp only at h_
  all_goals first | with_reducible exact Keeps.of_fault h_ | (with_reducible obtain rfl := Host.Outcome.next.inj h_) | skip
  repeat' first
    | with_reducible exact Keeps.refl _ _
    | with_reducible apply beginDestroy_keeps
    | with_reducible refine orFail_keeps (fun _ => ?_) ?_ ?_
    | with_reducible refine mailbox_keeps (fun _ _ => ?_) ?_ ?_
    | (show (_ : List Area) ⊆ _; decide)

theorem dropPending_keeps {A_ : List Area} {s_ : State} {k : Nat} {st : Status} {s : State}
    (ha_ : [.streams, .hosts, .out] ⊆ A_) (hs_ : Keeps A_ s_ s) : Keeps A_ s_ (dropPending k st s) := by
  refine Keeps.comp ?_ ha_ hs_
  clear hs_ ha_; unfold dropPending
  try dsimp only
  repeat' first
    | with_reducible exact Keeps.refl _ _
    | with_reducible apply answer_keeps
    | with_reducible apply State.setStream_keeps
    | with_reducible refine Keeps.foldl (fun _ _ => ?_) _ ?_
    | with_reducible refine Keeps.ite ?_ ?_
    | exact Or.inr (by decide)
    | with_reducible exact Or.inl rfl
    | (show (_ : List Area) ⊆ _; decide)
    | split
    | with_reducible apply Keeps.mk
    | dsimp only
    | exact Or.inl rfl

theorem withdrawStreams_keeps {A_ : List Area} {s_ : State} {t : Nat} {st : Status} {s : State}
    (ha_ : [.insts, .streams, .hosts, .out] ⊆ A_) (hs_ : Keeps A_ s_ s) : Keeps A_ s_ (withdrawStreams t st s) := by
  refine Keeps.comp ?_ ha_ hs_
  clear hs_ ha_; unfold withdrawStreams
  try dsimp only
  repeat' first
    | with_reducible exact Keeps.refl _ _
    | with_reducible apply dropPending_keeps
    | with_reducible apply State.putBoth_keeps
    | with_reducible refine Keeps.foldl (fun _ _ => ?_) _ ?_
    | with_reducible refine Keeps.ite ?_ ?_
    | (show (_ : List Area) ⊆ _; decide)
    | split
    | dsimp only

theorem withdrawMirrors_keeps {A_ : List Area} {s_ : State} {t : Nat} {s : State}
    (ha_ : [.insts] ⊆ A_) (hs_ : Keeps A_ s_ s) : Keeps A_ s_ (withdrawMirrors t s) := by
  refine Keeps.comp ?_ ha_ hs_
  clear hs_ ha_; unfold withdrawMirrors
  try dsimp only
  repeat' first
    | with_reducible exact Keeps.refl _ _
    | with_reducible refine Keeps.ite ?_ ?_
    | exact Or.inr (by decide)
    | with_reducible exact Or.inl rfl
    | (show (_ : List Area) ⊆ _; decide)
    | split
    | with_reducible apply Keeps.mk
    | dsimp only
    | exact Or.inl rfl

theorem withdrawInst_keeps {A_ : List Area} {s_ : State} {i : Nat} {s : State}
    (ha_ : [.insts] ⊆ A_) (hs_ : Keeps A_ s_ s) : Keeps A_ s_ (withdrawInst i s) := by
  refine Keeps.comp ?_ ha_ hs_
  clear hs_ ha_; unfold withdrawInst
  try dsimp only
  repeat' first
    | with_reducible exact Keeps.refl _ _
    | with_reducible apply State.setInst_keeps
    | exact Or.inr (by decide)
    | with_reducible exact Or.inl rfl
    | (show (_ : List Area) ⊆ _; decide)
    | with_reducible apply Keeps.mk
    | dsimp only
    | exact Or.inl rfl

theorem withdrawReqs_keeps {A_ : List Area} {s_ : State} {t : Nat} {byReset : Bool} {s : State}
    (ha_ : [.streams, .reqs, .ports, .dram, .dir] ⊆ A_) (hs_ : Keeps A_ s_ s) : Keeps A_ s_ (withdrawReqs t byReset s) := by
  refine Keeps.comp ?_ ha_ hs_
  clear hs_ ha_; unfold withdrawReqs
  try dsimp only
  repeat' first
    | with_reducible exact Keeps.refl _ _
    | with_reducible apply endReq_keeps
    | with_reducible refine Keeps.foldl (fun _ _ => ?_) _ ?_
    | with_reducible refine Keeps.ite ?_ ?_
    | exact Or.inr (by decide)
    | with_reducible exact Or.inl rfl
    | (show (_ : List Area) ⊆ _; decide)
    | split
    | with_reducible apply Keeps.mk
    | dsimp only
    | exact Or.inl rfl

theorem withdrawAnswers_keeps {A_ : List Area} {s_ : State} {t : Nat} {st : Status} {s : State}
    (ha_ : [.ports] ⊆ A_) (hs_ : Keeps A_ s_ s) : Keeps A_ s_ (withdrawAnswers t st s) := by
  refine Keeps.comp ?_ ha_ hs_
  clear hs_ ha_; unfold withdrawAnswers
  try dsimp only
  repeat' first
    | with_reducible exact Keeps.refl _ _
    | with_reducible refine Keeps.ite ?_ ?_
    | exact Or.inr (by decide)
    | with_reducible exact Or.inl rfl
    | (show (_ : List Area) ⊆ _; decide)
    | split
    | with_reducible apply Keeps.mk
    | dsimp only
    | exact Or.inl rfl

theorem endWaiter_keeps {A_ : List Area} {s_ : State} {byReset : Bool} {part : Nat} {u : EngUse} {s : State}
    (ha_ : [.insts, .nid, .parts, .serialNo, .ports, .xpt, .til, .dram, .dir, .eng, .arr, .hosts, .flt, .sbd, .out] ⊆ A_) (hs_ : Keeps A_ s_ s) : Keeps A_ s_ (endWaiter byReset part u s) := by
  refine Keeps.comp ?_ ha_ hs_
  clear hs_ ha_; unfold endWaiter
  try dsimp only
  repeat' first
    | with_reducible exact Keeps.refl _ _
    | with_reducible apply endCmd_keeps
    | with_reducible refine Keeps.ite ?_ ?_
    | (show (_ : List Area) ⊆ _; decide)
    | split
    | dsimp only

theorem withdrawMigs_keeps {A_ : List Area} {s_ : State} {t : Nat} {byReset : Bool} {s : State}
    (ha_ : [.insts, .nid, .parts, .serialNo, .ports, .xpt, .til, .dram, .dir, .eng, .arr, .hosts, .flt, .sbd, .out] ⊆ A_) (hs_ : Keeps A_ s_ s) : Keeps A_ s_ (withdrawMigs t byReset s) := by
  refine Keeps.comp ?_ ha_ hs_
  clear hs_ ha_; unfold withdrawMigs
  try dsimp only
  repeat' first
    | with_reducible exact Keeps.refl _ _
    | with_reducible apply endWaiter_keeps
    | with_reducible apply finishCmd_keeps
    | with_reducible apply State.setMig_keeps
    | with_reducible refine Keeps.foldl (fun _ _ => ?_) _ ?_
    | with_reducible refine Keeps.ite ?_ ?_
    | exact Or.inr (by decide)
    | with_reducible exact Or.inl rfl
    | (show (_ : List Area) ⊆ _; decide)
    | split
    | with_reducible apply Keeps.mk
    | dsimp only
    | exact Or.inl rfl

theorem withdrawTenant_keeps {A_ : List Area} {s_ : State} {t : Nat} {s : State}
    (ha_ : [.insts, .nid, .parts, .tenants, .streams, .reqs, .serialNo, .ports, .xpt, .til, .dram, .dir, .eng, .arr, .hosts, .flt, .sbd, .out] ⊆ A_) (hs_ : Keeps A_ s_ s) : Keeps A_ s_ (withdrawTenant t s) := by
  refine Keeps.comp ?_ ha_ hs_
  clear hs_ ha_; unfold withdrawTenant
  try dsimp only
  repeat' first
    | with_reducible exact Keeps.refl _ _
    | with_reducible apply withdrawMigs_keeps
    | with_reducible apply withdrawAnswers_keeps
    | with_reducible apply withdrawReqs_keeps
    | with_reducible apply withdrawInst_keeps
    | with_reducible apply withdrawMirrors_keeps
    | with_reducible apply withdrawStreams_keeps
    | with_reducible apply sweepQueue_keeps
    | with_reducible apply settle_keeps
    | with_reducible apply answer_keeps
    | with_reducible apply State.setTenant_keeps
    | with_reducible refine Keeps.foldl (fun _ _ => ?_) _ ?_
    | exact Or.inr (by decide)
    | with_reducible exact Or.inl rfl
    | (show (_ : List Area) ⊆ _; decide)
    | split
    | with_reducible apply Keeps.mk
    | dsimp only
    | exact Or.inl rfl

theorem execTenantWithdraw_keeps {A_ : List Area} {s_ t_ : State} {t : Fin 128} {s : State} (h_ : execTenantWithdraw t s = .next t_)
    (ha_ : [.insts, .nid, .parts, .tenants, .streams, .reqs, .serialNo, .ports, .xpt, .til, .dram, .dir, .eng, .arr, .hosts, .flt, .sbd, .out] ⊆ A_) (hs_ : Keeps A_ s_ s) : Keeps A_ s_ t_ := by
  refine Keeps.comp ?_ ha_ hs_
  clear hs_ ha_; unfold execTenantWithdraw at h_
  try dsimp only at h_
  all_goals first | with_reducible exact Keeps.of_fault h_ | (with_reducible obtain rfl := Host.Outcome.next.inj h_) | skip
  repeat' first
    | with_reducible exact Keeps.refl _ _
    | with_reducible apply withdrawTenant_keeps
    | with_reducible refine Keeps.ite ?_ ?_
    | (show (_ : List Area) ⊆ _; decide)
    | split
    | dsimp only

theorem tenantKeyZeroise_keeps {A_ : List Area} {s_ : State} {t : Nat} {s : State}
    (ha_ : [.tenants] ⊆ A_) (hs_ : Keeps A_ s_ s) : Keeps A_ s_ (tenantKeyZeroise t s) := by
  refine Keeps.comp ?_ ha_ hs_
  clear hs_ ha_; unfold tenantKeyZeroise
  try dsimp only
  repeat' first
    | with_reducible exact Keeps.refl _ _
    | with_reducible apply State.setTenant_keeps
    | with_reducible refine Keeps.ite ?_ ?_
    | exact Or.inr (by decide)
    | with_reducible exact Or.inl rfl
    | (show (_ : List Area) ⊆ _; decide)
    | split
    | with_reducible apply Keeps.mk
    | dsimp only
    | exact Or.inl rfl

theorem execTenantKeyZeroise_keeps {A_ : List Area} {s_ t_ : State} {t : Fin 128} {s : State} (h_ : execTenantKeyZeroise t s = .next t_)
    (ha_ : [.tenants] ⊆ A_) (hs_ : Keeps A_ s_ s) : Keeps A_ s_ t_ := by
  refine Keeps.comp ?_ ha_ hs_
  clear hs_ ha_; unfold execTenantKeyZeroise at h_
  try dsimp only at h_
  all_goals first | with_reducible exact Keeps.of_fault h_ | (with_reducible obtain rfl := Host.Outcome.next.inj h_) | skip
  repeat' first
    | with_reducible exact Keeps.refl _ _
    | with_reducible apply tenantKeyZeroise_keeps
    | with_reducible refine whileAlive_keeps (fun _ => ?_) ?_
    | (show (_ : List Area) ⊆ _; decide)

theorem returnTiles_keeps {A_ : List Area} {s_ : State} {t : Nat} {s : State}
    (ha_ : [.insts, .nid, .parts, .serialNo, .til, .dram, .hosts, .flt, .sbd, .out] ⊆ A_) (hs_ : Keeps A_ s_ s) : Keeps A_ s_ (returnTiles t s) := by
  refine Keeps.comp ?_ ha_ hs_
  clear hs_ ha_; unfold returnTiles
  try dsimp only
  repeat' first
    | with_reducible exact Keeps.refl _ _
    | with_reducible apply retryBogs_keeps
    | with_reducible apply dropUse_keeps
    | with_reducible refine Keeps.foldl (fun _ _ => ?_) _ ?_
    | (show (_ : List Area) ⊆ _; decide)
    | split
    | dsimp only

theorem tenantFree_keeps {A_ : List Area} {s_ : State} {t : Nat} {s : State}
    (ha_ : [.insts, .nid, .parts, .tenants, .serialNo, .til, .dram, .hosts, .flt, .sbd, .out] ⊆ A_) (hs_ : Keeps A_ s_ s) : Keeps A_ s_ (tenantFree t s) := by
  refine Keeps.comp ?_ ha_ hs_
  clear hs_ ha_; unfold tenantFree
  try dsimp only
  repeat' first
    | with_reducible exact Keeps.refl _ _
    | with_reducible apply returnTiles_keeps
    | with_reducible apply answer_keeps
    | with_reducible apply State.setTenant_keeps
    | with_reducible apply State.setInst_keeps
    | with_reducible refine Keeps.foldl (fun _ _ => ?_) _ ?_
    | with_reducible refine Keeps.ite ?_ ?_
    | (show (_ : List Area) ⊆ _; decide)
    | split
    | dsimp only

theorem execTenantFree_keeps {A_ : List Area} {s_ t_ : State} {t : Fin 128} {s : State} (h_ : execTenantFree t s = .next t_)
    (ha_ : [.insts, .nid, .parts, .tenants, .serialNo, .til, .dram, .hosts, .flt, .sbd, .out] ⊆ A_) (hs_ : Keeps A_ s_ s) : Keeps A_ s_ t_ := by
  refine Keeps.comp ?_ ha_ hs_
  clear hs_ ha_; unfold execTenantFree at h_
  try dsimp only at h_
  all_goals first | with_reducible exact Keeps.of_fault h_ | (with_reducible obtain rfl := Host.Outcome.next.inj h_) | skip
  repeat' first
    | with_reducible exact Keeps.refl _ _
    | with_reducible apply tenantFree_keeps
    | with_reducible refine Keeps.ite ?_ ?_
    | (show (_ : List Area) ⊆ _; decide)
    | split
    | dsimp only

theorem execTenantQuery_keeps {A_ : List Area} {s_ t_ : State} {fn : Fn} {m : MbxHdr} {tenant : Byte} {s : State} (h_ : execTenantQuery fn m tenant s = .next t_)
    (ha_ : [.serialNo, .hosts, .out] ⊆ A_) (hs_ : Keeps A_ s_ s) : Keeps A_ s_ t_ := by
  refine Keeps.comp ?_ ha_ hs_
  clear hs_ ha_; unfold execTenantQuery at h_
  try dsimp only at h_
  all_goals first | with_reducible exact Keeps.of_fault h_ | (with_reducible obtain rfl := Host.Outcome.next.inj h_) | skip
  repeat' first
    | with_reducible exact Keeps.refl _ _
    | with_reducible refine orFail_keeps (fun _ => ?_) ?_ ?_
    | with_reducible refine mailbox_keeps (fun _ _ => ?_) ?_ ?_
    | with_reducible apply answer_keeps
    | (show (_ : List Area) ⊆ _; decide)

theorem writeStream_keeps {A_ : List Area} {s_ : State} {k : Nat} {cfg : BitVec 64} {lim : BitVec 64} {s : State}
    (ha_ : [.insts] ⊆ A_) (hs_ : Keeps A_ s_ s) : Keeps A_ s_ (writeStream k cfg lim s) := by
  refine Keeps.comp ?_ ha_ hs_
  clear hs_ ha_; unfold writeStream
  try dsimp only
  repeat' first
    | with_reducible exact Keeps.refl _ _
    | with_reducible apply State.setCommit_keeps
    | with_reducible apply State.putShadow_keeps
    | (show (_ : List Area) ⊆ _; decide)

theorem waitFlip_keeps {A_ : List Area} {s_ : State} {k : Nat} {op : StreamOp} {o : Owed} {s : State}
    (ha_ : [.streams] ⊆ A_) (hs_ : Keeps A_ s_ s) : Keeps A_ s_ (waitFlip k op o s) := by
  refine Keeps.comp ?_ ha_ hs_
  clear hs_ ha_; unfold waitFlip
  try dsimp only
  repeat' first
    | with_reducible exact Keeps.refl _ _
    | with_reducible apply State.setStream_keeps
    | exact Or.inr (by decide)
    | with_reducible exact Or.inl rfl
    | (show (_ : List Area) ⊆ _; decide)
    | with_reducible apply Keeps.mk
    | dsimp only
    | exact Or.inl rfl

theorem execStreamOpen_keeps {A_ : List Area} {s_ t_ : State} {fn : Fn} {m : MbxHdr} {tenant : Byte} {endpoint : BitVec 16} {window : BitVec 16} {timeout : BitVec 16} {s : State} (h_ : execStreamOpen fn m tenant endpoint window timeout s = .next t_)
    (ha_ : [.insts, .streams, .serialNo, .hosts, .out] ⊆ A_) (hs_ : Keeps A_ s_ s) : Keeps A_ s_ t_ := by
  refine Keeps.comp ?_ ha_ hs_
  clear hs_ ha_; unfold execStreamOpen at h_
  try dsimp only at h_
  all_goals first | with_reducible exact Keeps.of_fault h_ | (with_reducible obtain rfl := Host.Outcome.next.inj h_) | skip
  repeat' first
    | with_reducible exact Keeps.refl _ _
    | with_reducible apply waitFlip_keeps
    | with_reducible apply writeStream_keeps
    | with_reducible refine orFail_keeps (fun _ => ?_) ?_ ?_
    | with_reducible refine mailbox_keeps (fun _ _ => ?_) ?_ ?_
    | with_reducible apply answer_keeps
    | with_reducible apply State.setStream_keeps
    | (show (_ : List Area) ⊆ _; decide)
    | split
    | dsimp only

theorem execStreamModify_keeps {A_ : List Area} {s_ t_ : State} {fn : Fn} {m : MbxHdr} {stream : BitVec 16} {window : BitVec 16} {timeout : BitVec 16} {s : State} (h_ : execStreamModify fn m stream window timeout s = .next t_)
    (ha_ : [.insts, .streams, .serialNo, .hosts, .out] ⊆ A_) (hs_ : Keeps A_ s_ s) : Keeps A_ s_ t_ := by
  refine Keeps.comp ?_ ha_ hs_
  clear hs_ ha_; unfold execStreamModify at h_
  try dsimp only at h_
  all_goals first | with_reducible exact Keeps.of_fault h_ | (with_reducible obtain rfl := Host.Outcome.next.inj h_) | skip
  repeat' first
    | with_reducible exact Keeps.refl _ _
    | with_reducible apply waitFlip_keeps
    | with_reducible apply writeStream_keeps
    | with_reducible refine orFail_keeps (fun _ => ?_) ?_ ?_
    | with_reducible refine mailbox_keeps (fun _ _ => ?_) ?_ ?_
    | (show (_ : List Area) ⊆ _; decide)

theorem execStreamClose_keeps {A_ : List Area} {s_ t_ : State} {fn : Fn} {m : MbxHdr} {stream : BitVec 16} {s : State} (h_ : execStreamClose fn m stream s = .next t_)
    (ha_ : [.insts, .streams, .serialNo, .hosts, .out] ⊆ A_) (hs_ : Keeps A_ s_ s) : Keeps A_ s_ t_ := by
  refine Keeps.comp ?_ ha_ hs_
  clear hs_ ha_; unfold execStreamClose at h_
  try dsimp only at h_
  all_goals first | with_reducible exact Keeps.of_fault h_ | (with_reducible obtain rfl := Host.Outcome.next.inj h_) | skip
  repeat' first
    | with_reducible exact Keeps.refl _ _
    | with_reducible apply waitFlip_keeps
    | with_reducible apply writeStream_keeps
    | with_reducible refine orFail_keeps (fun _ => ?_) ?_ ?_
    | with_reducible refine mailbox_keeps (fun _ _ => ?_) ?_ ?_
    | (show (_ : List Area) ⊆ _; decide)

theorem streamFlipOp_keeps {A_ : List Area} {s_ : State} {k : Nat} {op : StreamOp} {o : Owed} {s : State}
    (ha_ : [.streams, .hosts, .out] ⊆ A_) (hs_ : Keeps A_ s_ s) : Keeps A_ s_ (streamFlipOp k op o s) := by
  refine Keeps.comp ?_ ha_ hs_
  clear hs_ ha_; unfold streamFlipOp
  try dsimp only
  repeat' first
    | with_reducible exact Keeps.refl _ _
    | with_reducible apply answer_keeps
    | with_reducible apply State.setStream_keeps
    | with_reducible refine Keeps.ite ?_ ?_
    | exact Or.inr (by decide)
    | with_reducible exact Or.inl rfl
    | (show (_ : List Area) ⊆ _; decide)
    | split
    | with_reducible apply Keeps.mk
    | dsimp only
    | exact Or.inl rfl

theorem streamsFlip_keeps {A_ : List Area} {s_ : State} {s : State}
    (ha_ : [.streams, .hosts, .out] ⊆ A_) (hs_ : Keeps A_ s_ s) : Keeps A_ s_ (streamsFlip s) := by
  refine Keeps.comp ?_ ha_ hs_
  clear hs_ ha_; unfold streamsFlip
  try dsimp only
  repeat' first
    | with_reducible exact Keeps.refl _ _
    | with_reducible apply streamFlipOp_keeps
    | with_reducible apply State.setStream_keeps
    | with_reducible refine Keeps.foldl (fun _ _ => ?_) _ ?_
    | with_reducible refine Keeps.ite ?_ ?_
    | exact Or.inr (by decide)
    | with_reducible exact Or.inl rfl
    | (show (_ : List Area) ⊆ _; decide)
    | split
    | with_reducible apply Keeps.mk
    | dsimp only
    | exact Or.inl rfl

theorem streamIdFree_keeps {A_ : List Area} {s_ : State} {k : Nat} {s : State}
    (ha_ : [.streams] ⊆ A_) (hs_ : Keeps A_ s_ s) : Keeps A_ s_ (streamIdFree k s) := by
  refine Keeps.comp ?_ ha_ hs_
  clear hs_ ha_; unfold streamIdFree
  try dsimp only
  repeat' first
    | with_reducible exact Keeps.refl _ _
    | with_reducible apply State.setStream_keeps
    | with_reducible refine Keeps.ite ?_ ?_
    | (show (_ : List Area) ⊆ _; decide)
    | split
    | dsimp only

theorem execStreamIdFree_keeps {A_ : List Area} {s_ t_ : State} {sid : BitVec 12} {s : State} (h_ : execStreamIdFree sid s = .next t_)
    (ha_ : [.streams] ⊆ A_) (hs_ : Keeps A_ s_ s) : Keeps A_ s_ t_ := by
  refine Keeps.comp ?_ ha_ hs_
  clear hs_ ha_; unfold execStreamIdFree at h_
  try dsimp only at h_
  all_goals first | with_reducible exact Keeps.of_fault h_ | (with_reducible obtain rfl := Host.Outcome.next.inj h_) | skip
  repeat' first
    | with_reducible exact Keeps.refl _ _
    | with_reducible apply streamIdFree_keeps
    | with_reducible refine whileAlive_keeps (fun _ => ?_) ?_
    | (show (_ : List Area) ⊆ _; decide)

theorem windowRamp_keeps {A_ : List Area} {s_ : State} {k : Nat} {s : State}
    (ha_ : [.streams] ⊆ A_) (hs_ : Keeps A_ s_ s) : Keeps A_ s_ (windowRamp k s) := by
  refine Keeps.comp ?_ ha_ hs_
  clear hs_ ha_; unfold windowRamp
  try dsimp only
  repeat' first
    | with_reducible exact Keeps.refl _ _
    | with_reducible apply State.setStream_keeps
    | with_reducible refine Keeps.ite ?_ ?_
    | exact Or.inr (by decide)
    | with_reducible exact Or.inl rfl
    | (show (_ : List Area) ⊆ _; decide)
    | split
    | with_reducible apply Keeps.mk
    | dsimp only
    | exact Or.inl rfl

theorem execStreamWindowRamp_keeps {A_ : List Area} {s_ t_ : State} {sid : BitVec 12} {s : State} (h_ : execStreamWindowRamp sid s = .next t_)
    (ha_ : [.streams] ⊆ A_) (hs_ : Keeps A_ s_ s) : Keeps A_ s_ t_ := by
  refine Keeps.comp ?_ ha_ hs_
  clear hs_ ha_; unfold execStreamWindowRamp at h_
  try dsimp only at h_
  all_goals first | with_reducible exact Keeps.of_fault h_ | (with_reducible obtain rfl := Host.Outcome.next.inj h_) | skip
  repeat' first
    | with_reducible exact Keeps.refl _ _
    | with_reducible apply windowRamp_keeps
    | with_reducible refine Keeps.ite ?_ ?_
    | (show (_ : List Area) ⊆ _; decide)
    | split
    | dsimp only

theorem streamTimeout_keeps {A_ : List Area} {s_ : State} {k : Nat} {rseq : Nat} {s : State}
    (ha_ : [.streams, .reqs, .ports, .xpt, .dram, .dir] ⊆ A_) (hs_ : Keeps A_ s_ s) : Keeps A_ s_ (streamTimeout k rseq s) := by
  refine Keeps.comp ?_ ha_ hs_
  clear hs_ ha_; unfold streamTimeout
  try dsimp only
  repeat' first
    | with_reducible exact Keeps.refl _ _
    | with_reducible apply settle_keeps
    | with_reducible apply endReq_keeps
    | with_reducible refine Keeps.ite ?_ ?_
    | (show (_ : List Area) ⊆ _; decide)
    | split
    | dsimp only

theorem execStreamTimeout_keeps {A_ : List Area} {s_ t_ : State} {sid : BitVec 12} {rseq : BitVec 16} {s : State} (h_ : execStreamTimeout sid rseq s = .next t_)
    (ha_ : [.streams, .reqs, .ports, .xpt, .dram, .dir] ⊆ A_) (hs_ : Keeps A_ s_ s) : Keeps A_ s_ t_ := by
  refine Keeps.comp ?_ ha_ hs_
  clear hs_ ha_; unfold execStreamTimeout at h_
  try dsimp only at h_
  all_goals first | with_reducible exact Keeps.of_fault h_ | (with_reducible obtain rfl := Host.Outcome.next.inj h_) | skip
  repeat' first
    | with_reducible exact Keeps.refl _ _
    | with_reducible apply streamTimeout_keeps
    | with_reducible refine Keeps.ite ?_ ?_
    | (show (_ : List Area) ⊆ _; decide)
    | split
    | dsimp only

theorem triggerReset_keeps {A_ : List Area} {s_ : State} {p : Nat} {owed : List Owed} {s : State}
    (ha_ : [.parts, .tenants, .eng] ⊆ A_) (hs_ : Keeps A_ s_ s) : Keeps A_ s_ (triggerReset p owed s) := by
  refine Keeps.comp ?_ ha_ hs_
  clear hs_ ha_; unfold triggerReset
  try dsimp only
  repeat' first
    | with_reducible exact Keeps.refl _ _
    | with_reducible apply beginDestroy_keeps
    | with_reducible apply State.setPart_keeps
    | with_reducible refine Keeps.foldl (fun _ _ => ?_) _ ?_
    | with_reducible refine Keeps.ite ?_ ?_
    | exact Or.inr (by decide)
    | with_reducible exact Or.inl rfl
    | (show (_ : List Area) ⊆ _; decide)
    | split
    | with_reducible apply Keeps.mk
    | dsimp only
    | exact Or.inl rfl

theorem execPartReset_keeps {A_ : List Area} {s_ t_ : State} {fn : Fn} {m : MbxHdr} {part : Byte} {s : State} (h_ : execPartReset fn m part s = .next t_)
    (ha_ : [.parts, .tenants, .serialNo, .eng, .hosts, .out] ⊆ A_) (hs_ : Keeps A_ s_ s) : Keeps A_ s_ t_ := by
  refine Keeps.comp ?_ ha_ hs_
  clear hs_ ha_; unfold execPartReset at h_
  try dsimp only at h_
  all_goals first | with_reducible exact Keeps.of_fault h_ | (with_reducible obtain rfl := Host.Outcome.next.inj h_) | skip
  repeat' first
    | with_reducible exact Keeps.refl _ _
    | with_reducible apply triggerReset_keeps
    | with_reducible refine orFail_keeps (fun _ => ?_) ?_ ?_
    | with_reducible refine mailbox_keeps (fun _ _ => ?_) ?_ ?_
    | (show (_ : List Area) ⊆ _; decide)

theorem killLaunch_keeps {A_ : List Area} {s_ : State} {r : Launch} {s : State}
    (ha_ : [.eng, .arr] ⊆ A_) (hs_ : Keeps A_ s_ s) : Keeps A_ s_ (killLaunch r s) := by
  refine Keeps.comp ?_ ha_ hs_
  clear hs_ ha_; unfold killLaunch
  try dsimp only
  repeat' first
    | with_reducible exact Keeps.refl _ _
    | with_reducible apply finishCmd_keeps
    | with_reducible refine Keeps.ite ?_ ?_
    | exact Or.inr (by decide)
    | with_reducible exact Or.inl rfl
    | (show (_ : List Area) ⊆ _; decide)
    | split
    | with_reducible apply Keeps.mk
    | dsimp only
    | exact Or.inl rfl

theorem resetColumns_keeps {A_ : List Area} {s_ : State} {p : Nat} {s : State}
    (ha_ : [.eng, .arr] ⊆ A_) (hs_ : Keeps A_ s_ s) : Keeps A_ s_ (resetColumns p s) := by
  refine Keeps.comp ?_ ha_ hs_
  clear hs_ ha_; unfold resetColumns
  try dsimp only
  repeat' first
    | with_reducible exact Keeps.refl _ _
    | with_reducible apply killLaunch_keeps
    | with_reducible apply wipeColumn_keeps
    | with_reducible refine Keeps.foldl (fun _ _ => ?_) _ ?_
    | with_reducible refine Keeps.ite ?_ ?_
    | (show (_ : List Area) ⊆ _; decide)
    | split
    | dsimp only

theorem withdrawPartition_keeps {A_ : List Area} {s_ : State} {p : Nat} {s : State}
    (ha_ : [.insts, .nid, .parts, .tenants, .streams, .reqs, .serialNo, .ports, .xpt, .til, .dram, .dir, .eng, .arr, .hosts, .flt, .sbd, .out] ⊆ A_) (hs_ : Keeps A_ s_ s) : Keeps A_ s_ (withdrawPartition p s) := by
  refine Keeps.comp ?_ ha_ hs_
  clear hs_ ha_; unfold withdrawPartition
  try dsimp only
  repeat' first
    | with_reducible exact Keeps.refl _ _
    | with_reducible apply resetColumns_keeps
    | with_reducible apply withdrawTenant_keeps
    | with_reducible apply State.setPart_keeps
    | with_reducible refine Keeps.foldl (fun _ _ => ?_) _ ?_
    | with_reducible refine Keeps.ite ?_ ?_
    | exact Or.inr (by decide)
    | with_reducible exact Or.inl rfl
    | (show (_ : List Area) ⊆ _; decide)
    | split
    | with_reducible apply Keeps.mk
    | dsimp only
    | exact Or.inl rfl

theorem execPartitionResetWithdraw_keeps {A_ : List Area} {s_ t_ : State} {p : Fin 16} {s : State} (h_ : execPartitionResetWithdraw p s = .next t_)
    (ha_ : [.insts, .nid, .parts, .tenants, .streams, .reqs, .serialNo, .ports, .xpt, .til, .dram, .dir, .eng, .arr, .hosts, .flt, .sbd, .out] ⊆ A_) (hs_ : Keeps A_ s_ s) : Keeps A_ s_ t_ := by
  refine Keeps.comp ?_ ha_ hs_
  clear hs_ ha_; unfold execPartitionResetWithdraw at h_
  try dsimp only at h_
  all_goals first | with_reducible exact Keeps.of_fault h_ | (with_reducible obtain rfl := Host.Outcome.next.inj h_) | skip
  repeat' first
    | with_reducible exact Keeps.refl _ _
    | with_reducible apply withdrawPartition_keeps
    | with_reducible refine Keeps.ite ?_ ?_
    | (show (_ : List Area) ⊆ _; decide)
    | split
    | dsimp only

theorem resetComplete_keeps {A_ : List Area} {s_ : State} {p : Nat} {s : State}
    (ha_ : [.parts, .hosts, .out] ⊆ A_) (hs_ : Keeps A_ s_ s) : Keeps A_ s_ (resetComplete p s) := by
  refine Keeps.comp ?_ ha_ hs_
  clear hs_ ha_; unfold resetComplete
  try dsimp only
  repeat' first
    | with_reducible exact Keeps.refl _ _
    | with_reducible apply answer_keeps
    | with_reducible apply State.setPart_keeps
    | with_reducible refine Keeps.foldl (fun _ _ => ?_) _ ?_
    | with_reducible refine Keeps.ite ?_ ?_
    | exact Or.inr (by decide)
    | with_reducible exact Or.inl rfl
    | (show (_ : List Area) ⊆ _; decide)
    | split
    | with_reducible apply Keeps.mk
    | dsimp only
    | exact Or.inl rfl

theorem execPartitionResetComplete_keeps {A_ : List Area} {s_ t_ : State} {p : Fin 16} {s : State} (h_ : execPartitionResetComplete p s = .next t_)
    (ha_ : [.parts, .hosts, .out] ⊆ A_) (hs_ : Keeps A_ s_ s) : Keeps A_ s_ t_ := by
  refine Keeps.comp ?_ ha_ hs_
  clear hs_ ha_; unfold execPartitionResetComplete at h_
  try dsimp only at h_
  all_goals first | with_reducible exact Keeps.of_fault h_ | (with_reducible obtain rfl := Host.Outcome.next.inj h_) | skip
  repeat' first
    | with_reducible exact Keeps.refl _ _
    | with_reducible apply resetComplete_keeps
    | with_reducible refine whileAlive_keeps (fun _ => ?_) ?_
    | (show (_ : List Area) ⊆ _; decide)

theorem execPartQuery_keeps {A_ : List Area} {s_ t_ : State} {fn : Fn} {m : MbxHdr} {part : Byte} {s : State} (h_ : execPartQuery fn m part s = .next t_)
    (ha_ : [.serialNo, .hosts, .out] ⊆ A_) (hs_ : Keeps A_ s_ s) : Keeps A_ s_ t_ := by
  refine Keeps.comp ?_ ha_ hs_
  clear hs_ ha_; unfold execPartQuery at h_
  try dsimp only at h_
  all_goals first | with_reducible exact Keeps.of_fault h_ | (with_reducible obtain rfl := Host.Outcome.next.inj h_) | skip
  repeat' first
    | with_reducible exact Keeps.refl _ _
    | with_reducible refine orFail_keeps (fun _ => ?_) ?_ ?_
    | with_reducible refine mailbox_keeps (fun _ _ => ?_) ?_ ?_
    | with_reducible apply answer_keeps
    | (show (_ : List Area) ⊆ _; decide)

end Sys2Proof.Machine
end

