-- ==== Sys2Proof/Laws/Frame/Board.lean ====
section
/-! SUPPORT. The frame of every operation of Machine/Board.lean: the areas it may change, and that pool memory keeps its canonical form. -/

namespace Sys2Proof.Machine

set_option linter.unusedTactic false
set_option linter.unreachableTactic false
set_option linter.unusedVariables false

theorem drawEpochs_keeps {A_ : List Area} {s_ : State} {s : State}
    (ha_ : [.serialNo, .ports] ⊆ A_) (hs_ : Keeps A_ s_ s) : Keeps A_ s_ (drawEpochs s) := by
  refine Keeps.comp ?_ ha_ hs_
  clear hs_ ha_; unfold drawEpochs
  try dsimp only
  repeat' first
    | with_reducible exact Keeps.refl _ _
    | with_reducible apply State.setPort_keeps
    | with_reducible refine Keeps.foldl (fun _ _ => ?_) _ ?_
    | with_reducible refine Keeps.ite ?_ ?_
    | exact Or.inr (by decide)
    | with_reducible exact Or.inl rfl
    | (show (_ : List Area) ⊆ _; decide)
    | split
    | with_reducible apply Keeps.mk
    | dsimp only
    | exact Or.inl rfl

theorem porRise_keeps {A_ : List Area} {s_ : State} {straps : Straps} {s : State}
    (ha_ : [.nid, .serialNo, .ports, .sbd, .out] ⊆ A_) (hs_ : Keeps A_ s_ s) : Keeps A_ s_ (porRise straps s) := by
  refine Keeps.comp ?_ ha_ hs_
  clear hs_ ha_; unfold porRise
  try dsimp only
  repeat' first
    | with_reducible exact Keeps.refl _ _
    | with_reducible apply drawEpochs_keeps
    | with_reducible apply State.emit_keeps
    | with_reducible refine Keeps.ite ?_ ?_
    | exact Or.inr (by decide)
    | with_reducible exact Or.inl rfl
    | (show (_ : List Area) ⊆ _; decide)
    | split
    | with_reducible apply Keeps.mk
    | dsimp only
    | exact Or.inl rfl

theorem execPorNRise_keeps {A_ : List Area} {s_ t_ : State} {straps : Straps} {s : State} (h_ : execPorNRise straps s = .next t_)
    (ha_ : [.nid, .serialNo, .ports, .sbd, .out] ⊆ A_) (hs_ : Keeps A_ s_ s) : Keeps A_ s_ t_ := by
  refine Keeps.comp ?_ ha_ hs_
  clear hs_ ha_; unfold execPorNRise at h_
  try dsimp only at h_
  all_goals first | with_reducible exact Keeps.of_fault h_ | (with_reducible obtain rfl := Host.Outcome.next.inj h_) | skip
  repeat' first
    | with_reducible exact Keeps.refl _ _
    | with_reducible apply porRise_keeps
    | (show (_ : List Area) ⊆ _; decide)

theorem scrambleDram_wf (s : State) (h : memOk s) : Memory.wf (scrambleDram s).mem = true := by
  refine cellWfFrom_filterMap 0 _ ?_ _ 0 h
  intro c c' _ e
  dsimp only at e
  split at e
  · cases e
  · cases e
    exact ⟨rfl, by assumption⟩

theorem porFall_keeps {A_ : List Area} {s_ s : State} (ha_ : [.clk, .crs, .insts, .nid, .cfg, .parts, .tenants, .pttStatus, .streams, .reqs, .serialNo, .ports, .xpt, .msh, .til, .dram, .dir, .eng, .arr, .sec, .hosts, .pwr, .flt, .boot, .sbd] ⊆ A_) (hs_ : Keeps A_ s_ s) : Keeps A_ s_ (porFall s) := by
  refine Keeps.comp (B := [.clk, .crs, .insts, .nid, .cfg, .parts, .tenants, .pttStatus, .streams, .reqs, .serialNo, .ports, .xpt, .msh, .til, .dram, .dir, .eng, .arr, .sec, .hosts, .pwr, .flt, .boot, .sbd]) ?_ ha_ hs_
  have k : Keeps [.clk, .crs, .insts, .nid, .cfg, .parts, .tenants, .pttStatus, .streams, .reqs, .serialNo, .ports, .xpt, .msh, .til, .dram, .dir, .eng, .arr, .sec, .hosts, .pwr, .flt, .boot, .sbd] s (porFall s) := by
    unfold porFall
    refine ⟨?_, ?_⟩
    · intro a ha
      cases a with
      | pending => rfl
      | out => rfl
      | _ => exact absurd (by decide) ha
    · exact scrambleDram_wf s
  exact k

theorem execPorNFall_keeps {A_ : List Area} {s_ t_ : State} {s : State} (h_ : execPorNFall s = .next t_)
    (ha_ : [.clk, .crs, .insts, .nid, .cfg, .parts, .tenants, .pttStatus, .streams, .reqs, .serialNo, .ports, .xpt, .msh, .til, .dram, .dir, .eng, .arr, .sec, .hosts, .pwr, .flt, .boot, .sbd] ⊆ A_) (hs_ : Keeps A_ s_ s) : Keeps A_ s_ t_ := by
  refine Keeps.comp ?_ ha_ hs_
  clear hs_ ha_; unfold execPorNFall at h_
  try dsimp only at h_
  all_goals first | with_reducible exact Keeps.of_fault h_ | (with_reducible obtain rfl := Host.Outcome.next.inj h_) | skip
  repeat' first
    | with_reducible exact Keeps.refl _ _
    | with_reducible apply porFall_keeps
    | (show (_ : List Area) ⊆ _; decide)

theorem execPwrgoodFall_keeps {A_ : List Area} {s_ t_ : State} {s : State} (h_ : execPwrgoodFall s = .next t_)
    (ha_ : [.nid, .tenants, .ports, .flt, .sbd, .out] ⊆ A_) (hs_ : Keeps A_ s_ s) : Keeps A_ s_ t_ := by
  refine Keeps.comp ?_ ha_ hs_
  clear hs_ ha_; unfold execPwrgoodFall at h_
  try dsimp only at h_
  all_goals first | with_reducible exact Keeps.of_fault h_ | (with_reducible obtain rfl := Host.Outcome.next.inj h_) | skip
  repeat' first
    | with_reducible exact Keeps.refl _ _
    | with_reducible apply enterFatal_keeps
    | with_reducible refine Keeps.ite ?_ ?_
    | (show (_ : List Area) ⊆ _; decide)
    | split
    | dsimp only

theorem execRailOrderFault_keeps {A_ : List Area} {s_ t_ : State} {_r : RailOrder} {s : State} (h_ : execRailOrderFault _r s = .next t_)
    (ha_ : [.sbd] ⊆ A_) (hs_ : Keeps A_ s_ s) : Keeps A_ s_ t_ := by
  refine Keeps.comp ?_ ha_ hs_
  clear hs_ ha_; unfold execRailOrderFault at h_
  try dsimp only at h_
  all_goals first | with_reducible exact Keeps.of_fault h_ | (with_reducible obtain rfl := Host.Outcome.next.inj h_) | skip
  repeat' first
    | with_reducible exact Keeps.refl _ _
    | with_reducible refine Keeps.ite ?_ ?_
    | exact Or.inr (by decide)
    | with_reducible exact Or.inl rfl
    | (show (_ : List Area) ⊆ _; decide)
    | split
    | with_reducible apply Keeps.mk
    | dsimp only
    | exact Or.inl rfl

theorem execVddAuxRemoval_keeps {A_ : List Area} {s_ t_ : State} {s : State} (h_ : execVddAuxRemoval s = .next t_)
    (ha_ : [.clk, .crs, .insts, .nid, .cfg, .parts, .tenants, .pttStatus, .streams, .reqs, .serialNo, .ports, .xpt, .msh, .til, .dram, .dir, .eng, .arr, .sec, .hosts, .pwr, .flt, .boot, .sbd] ⊆ A_) (hs_ : Keeps A_ s_ s) : Keeps A_ s_ t_ := by
  refine Keeps.comp ?_ ha_ hs_
  clear hs_ ha_; unfold execVddAuxRemoval at h_
  try dsimp only at h_
  all_goals first | with_reducible exact Keeps.of_fault h_ | (with_reducible obtain rfl := Host.Outcome.next.inj h_) | skip
  repeat' first
    | with_reducible exact Keeps.refl _ _
    | with_reducible apply porFall_keeps
    | with_reducible refine Keeps.ite ?_ ?_
    | exact Or.inr (by decide)
    | with_reducible exact Or.inl rfl
    | (show (_ : List Area) ⊆ _; decide)
    | split
    | with_reducible apply Keeps.mk
    | dsimp only
    | exact Or.inl rfl

theorem execClockLock_keeps {A_ : List Area} {s_ t_ : State} {s : State} (h_ : execClockLock s = .next t_)
    (ha_ : [.clk] ⊆ A_) (hs_ : Keeps A_ s_ s) : Keeps A_ s_ t_ := by
  refine Keeps.comp ?_ ha_ hs_
  clear hs_ ha_; unfold execClockLock at h_
  try dsimp only at h_
  all_goals first | with_reducible exact Keeps.of_fault h_ | (with_reducible obtain rfl := Host.Outcome.next.inj h_) | skip
  repeat' first
    | with_reducible exact Keeps.refl _ _
    | with_reducible refine Keeps.ite ?_ ?_
    | exact Or.inr (by decide)
    | with_reducible exact Or.inl rfl
    | (show (_ : List Area) ⊆ _; decide)
    | split
    | with_reducible apply Keeps.mk
    | dsimp only
    | exact Or.inl rfl

theorem execThermtrip_keeps {A_ : List Area} {s_ t_ : State} {die : Fin 2} {t : BitVec 16} {s : State} (h_ : execThermtrip die t s = .next t_)
    (ha_ : [.nid, .tenants, .ports, .flt, .sbd, .out] ⊆ A_) (hs_ : Keeps A_ s_ s) : Keeps A_ s_ t_ := by
  refine Keeps.comp ?_ ha_ hs_
  clear hs_ ha_; unfold execThermtrip at h_
  try dsimp only at h_
  all_goals first | with_reducible exact Keeps.of_fault h_ | (with_reducible obtain rfl := Host.Outcome.next.inj h_) | skip
  repeat' first
    | with_reducible exact Keeps.refl _ _
    | with_reducible apply enterFatal_keeps
    | with_reducible refine Keeps.ite ?_ ?_
    | exact Or.inr (by decide)
    | with_reducible exact Or.inl rfl
    | (show (_ : List Area) ⊆ _; decide)
    | split
    | with_reducible apply Keeps.mk
    | dsimp only
    | exact Or.inl rfl

theorem execProchotAssert_keeps {A_ : List Area} {s_ t_ : State} {_die : Fin 2} {t : BitVec 16} {s : State} (h_ : execProchotAssert _die t s = .next t_)
    (ha_ : [.sbd] ⊆ A_) (hs_ : Keeps A_ s_ s) : Keeps A_ s_ t_ := by
  refine Keeps.comp ?_ ha_ hs_
  clear hs_ ha_; unfold execProchotAssert at h_
  try dsimp only at h_
  all_goals first | with_reducible exact Keeps.of_fault h_ | (with_reducible obtain rfl := Host.Outcome.next.inj h_) | skip
  repeat' first
    | with_reducible exact Keeps.refl _ _
    | with_reducible refine Keeps.ite ?_ ?_
    | exact Or.inr (by decide)
    | with_reducible exact Or.inl rfl
    | (show (_ : List Area) ⊆ _; decide)
    | split
    | with_reducible apply Keeps.mk
    | dsimp only
    | exact Or.inl rfl

theorem execProchotRelease_keeps {A_ : List Area} {s_ t_ : State} {t0 : BitVec 16} {t1 : BitVec 16} {s : State} (h_ : execProchotRelease t0 t1 s = .next t_)
    (ha_ : [.sbd] ⊆ A_) (hs_ : Keeps A_ s_ s) : Keeps A_ s_ t_ := by
  refine Keeps.comp ?_ ha_ hs_
  clear hs_ ha_; unfold execProchotRelease at h_
  try dsimp only at h_
  all_goals first | with_reducible exact Keeps.of_fault h_ | (with_reducible obtain rfl := Host.Outcome.next.inj h_) | skip
  repeat' first
    | with_reducible exact Keeps.refl _ _
    | with_reducible refine Keeps.ite ?_ ?_
    | exact Or.inr (by decide)
    | with_reducible exact Or.inl rfl
    | (show (_ : List Area) ⊆ _; decide)
    | split
    | with_reducible apply Keeps.mk
    | dsimp only
    | exact Or.inl rfl

theorem noteConflict_keeps {A_ : List Area} {s_ : State} {s : State}
    (ha_ : [.sbd] ⊆ A_) (hs_ : Keeps A_ s_ s) : Keeps A_ s_ (noteConflict s) := by
  refine Keeps.comp ?_ ha_ hs_
  clear hs_ ha_; unfold noteConflict
  try dsimp only
  repeat' first
    | with_reducible exact Keeps.refl _ _
    | with_reducible refine Keeps.ite ?_ ?_
    | exact Or.inr (by decide)
    | with_reducible exact Or.inl rfl
    | (show (_ : List Area) ⊆ _; decide)
    | split
    | with_reducible apply Keeps.mk
    | dsimp only
    | exact Or.inl rfl

theorem smbAnswer_keeps {A_ : List Area} {s_ : State} {code : Byte} {d : List Byte} {s : State}
    (ha_ : [.out] ⊆ A_) (hs_ : Keeps A_ s_ s) : Keeps A_ s_ (smbAnswer code d s) := by
  refine Keeps.comp ?_ ha_ hs_
  clear hs_ ha_; unfold smbAnswer
  try dsimp only
  repeat' first
    | with_reducible exact Keeps.refl _ _
    | with_reducible apply State.emit_keeps
    | (show (_ : List Area) ⊆ _; decide)

theorem popWord_keeps {A_ : List Area} {s_ : State} {s : State}
    (ha_ : [.sbd] ⊆ A_) (hs_ : Keeps A_ s_ s) : Keeps A_ s_ (popWord s) := by
  refine Keeps.comp ?_ ha_ hs_
  clear hs_ ha_; unfold popWord
  try dsimp only
  repeat' first
    | with_reducible exact Keeps.refl _ _
    | exact Or.inr (by decide)
    | with_reducible exact Or.inl rfl
    | (show (_ : List Area) ⊆ _; decide)
    | with_reducible apply Keeps.mk
    | dsimp only
    | exact Or.inl rfl

theorem dropNotify_keeps {A_ : List Area} {s_ : State} {code : Nat} {bitNo : Nat} {w : BitVec 16} {s : State}
    (ha_ : [.hosts, .flt, .sbd, .out] ⊆ A_) (hs_ : Keeps A_ s_ s) : Keeps A_ s_ (dropNotify code bitNo w s) := by
  refine Keeps.comp ?_ ha_ hs_
  clear hs_ ha_; unfold dropNotify
  try dsimp only
  repeat' first
    | with_reducible exact Keeps.refl _ _
    | with_reducible apply popWord_keeps
    | with_reducible apply recordFault_keeps
    | exact Or.inr (by decide)
    | with_reducible exact Or.inl rfl
    | (show (_ : List Area) ⊆ _; decide)
    | with_reducible apply Keeps.mk
    | dsimp only
    | exact Or.inl rfl

theorem failNotify_keeps {A_ : List Area} {s_ : State} {w : BitVec 16} {s : State}
    (ha_ : [.hosts, .flt, .sbd, .out] ⊆ A_) (hs_ : Keeps A_ s_ s) : Keeps A_ s_ (failNotify w s) := by
  refine Keeps.comp ?_ ha_ hs_
  clear hs_ ha_; unfold failNotify
  try dsimp only
  repeat' first
    | with_reducible exact Keeps.refl _ _
    | with_reducible apply dropNotify_keeps
    | with_reducible refine Keeps.ite ?_ ?_
    | exact Or.inr (by decide)
    | with_reducible exact Or.inl rfl
    | (show (_ : List Area) ⊆ _; decide)
    | split
    | with_reducible apply Keeps.mk
    | dsimp only
    | exact Or.inl rfl

theorem hostNotify_keeps {A_ : List Area} {s_ : State} {retry : Bool} {r : HnResult} {s : State}
    (ha_ : [.hosts, .flt, .sbd, .out] ⊆ A_) (hs_ : Keeps A_ s_ s) : Keeps A_ s_ (hostNotify retry r s) := by
  refine Keeps.comp ?_ ha_ hs_
  clear hs_ ha_; unfold hostNotify
  try dsimp only
  repeat' first
    | with_reducible exact Keeps.refl _ _
    | with_reducible apply failNotify_keeps
    | with_reducible apply dropNotify_keeps
    | with_reducible apply popWord_keeps
    | with_reducible apply State.emit_keeps
    | with_reducible refine Keeps.ite ?_ ?_
    | exact Or.inr (by decide)
    | with_reducible exact Or.inl rfl
    | (show (_ : List Area) ⊆ _; decide)
    | split
    | with_reducible apply Keeps.mk
    | dsimp only
    | exact Or.inl rfl

theorem execHostNotifySend_keeps {A_ : List Area} {s_ t_ : State} {r : HnResult} {s : State} (h_ : execHostNotifySend r s = .next t_)
    (ha_ : [.hosts, .flt, .sbd, .out] ⊆ A_) (hs_ : Keeps A_ s_ s) : Keeps A_ s_ t_ := by
  refine Keeps.comp ?_ ha_ hs_
  clear hs_ ha_; unfold execHostNotifySend at h_
  try dsimp only at h_
  all_goals first | with_reducible exact Keeps.of_fault h_ | (with_reducible obtain rfl := Host.Outcome.next.inj h_) | skip
  repeat' first
    | with_reducible exact Keeps.refl _ _
    | with_reducible apply hostNotify_keeps
    | (show (_ : List Area) ⊆ _; decide)

theorem execHostNotifyRetry_keeps {A_ : List Area} {s_ t_ : State} {r : HnResult} {s : State} (h_ : execHostNotifyRetry r s = .next t_)
    (ha_ : [.hosts, .flt, .sbd, .out] ⊆ A_) (hs_ : Keeps A_ s_ s) : Keeps A_ s_ t_ := by
  refine Keeps.comp ?_ ha_ hs_
  clear hs_ ha_; unfold execHostNotifyRetry at h_
  try dsimp only at h_
  all_goals first | with_reducible exact Keeps.of_fault h_ | (with_reducible obtain rfl := Host.Outcome.next.inj h_) | skip
  repeat' first
    | with_reducible exact Keeps.refl _ _
    | with_reducible apply hostNotify_keeps
    | (show (_ : List Area) ⊆ _; decide)

theorem execSmbAlertResponse_keeps {A_ : List Area} {s_ t_ : State} {s : State} (h_ : execSmbAlertResponse s = .next t_)
    (ha_ : [.sbd, .out] ⊆ A_) (hs_ : Keeps A_ s_ s) : Keeps A_ s_ t_ := by
  refine Keeps.comp ?_ ha_ hs_
  clear hs_ ha_; unfold execSmbAlertResponse at h_
  try dsimp only at h_
  all_goals first | with_reducible exact Keeps.of_fault h_ | (with_reducible obtain rfl := Host.Outcome.next.inj h_) | skip
  repeat' first
    | with_reducible exact Keeps.refl _ _
    | with_reducible apply State.emit_keeps
    | with_reducible refine Keeps.ite ?_ ?_
    | exact Or.inr (by decide)
    | with_reducible exact Or.inl rfl
    | (show (_ : List Area) ⊆ _; decide)
    | split
    | with_reducible apply Keeps.mk
    | dsimp only
    | exact Or.inl rfl

theorem execSmbSclTimeout_keeps {A_ : List Area} {s_ t_ : State} {s : State} (h_ : execSmbSclTimeout s = .next t_)
    (ha_ : [] ⊆ A_) (hs_ : Keeps A_ s_ s) : Keeps A_ s_ t_ := by
  refine Keeps.comp ?_ ha_ hs_
  clear hs_ ha_; unfold execSmbSclTimeout at h_
  try dsimp only at h_
  all_goals first | with_reducible exact Keeps.of_fault h_ | (with_reducible obtain rfl := Host.Outcome.next.inj h_) | skip
  repeat' first
    | with_reducible exact Keeps.refl _ _
    | (show (_ : List Area) ⊆ _; decide)

theorem pinsFlip_keeps {A_ : List Area} {s_ : State} {old : Tbl (BitVec 64)} {s : State}
    (ha_ : [.sbd] ⊆ A_) (hs_ : Keeps A_ s_ s) : Keeps A_ s_ (pinsFlip old s) := by
  refine Keeps.comp ?_ ha_ hs_
  clear hs_ ha_; unfold pinsFlip
  try dsimp only
  repeat' first
    | with_reducible exact Keeps.refl _ _
    | with_reducible apply noteConflict_keeps
    | with_reducible apply State.setPin_keeps
    | with_reducible refine Keeps.foldl (fun _ _ => ?_) _ ?_
    | with_reducible refine Keeps.ite ?_ ?_
    | exact Or.inr (by decide)
    | with_reducible exact Or.inl rfl
    | (show (_ : List Area) ⊆ _; decide)
    | split
    | with_reducible apply Keeps.mk
    | dsimp only
    | exact Or.inl rfl

theorem pinsStart_keeps {A_ : List Area} {s_ : State} {s : State}
    (ha_ : [.sbd] ⊆ A_) (hs_ : Keeps A_ s_ s) : Keeps A_ s_ (pinsStart s) := by
  refine Keeps.comp ?_ ha_ hs_
  clear hs_ ha_; unfold pinsStart
  try dsimp only
  repeat' first
    | with_reducible exact Keeps.refl _ _
    | with_reducible apply noteConflict_keeps
    | with_reducible apply State.setPin_keeps
    | with_reducible refine Keeps.foldl (fun _ _ => ?_) _ ?_
    | with_reducible refine Keeps.ite ?_ ?_
    | exact Or.inr (by decide)
    | with_reducible exact Or.inl rfl
    | (show (_ : List Area) ⊆ _; decide)
    | split
    | with_reducible apply Keeps.mk
    | dsimp only
    | exact Or.inl rfl

theorem ledTick_keeps {A_ : List Area} {s_ : State} {n : Nat} {s : State}
    (ha_ : [.sbd] ⊆ A_) (hs_ : Keeps A_ s_ s) : Keeps A_ s_ (ledTick n s) := by
  refine Keeps.comp ?_ ha_ hs_
  clear hs_ ha_; unfold ledTick
  try dsimp only
  repeat' first
    | with_reducible exact Keeps.refl _ _
    | with_reducible apply State.setPin_keeps
    | with_reducible refine Keeps.ite ?_ ?_
    | exact Or.inr (by decide)
    | with_reducible exact Or.inl rfl
    | (show (_ : List Area) ⊆ _; decide)
    | split
    | with_reducible apply Keeps.mk
    | dsimp only
    | exact Or.inl rfl

theorem guardEnd_keeps {A_ : List Area} {s_ : State} {n : Nat} {s : State}
    (ha_ : [.sbd] ⊆ A_) (hs_ : Keeps A_ s_ s) : Keeps A_ s_ (guardEnd n s) := by
  refine Keeps.comp ?_ ha_ hs_
  clear hs_ ha_; unfold guardEnd
  try dsimp only
  repeat' first
    | with_reducible exact Keeps.refl _ _
    | with_reducible apply ledTick_keeps
    | with_reducible apply State.setPin_keeps
    | with_reducible refine Keeps.ite ?_ ?_
    | exact Or.inr (by decide)
    | with_reducible exact Or.inl rfl
    | (show (_ : List Area) ⊆ _; decide)
    | split
    | with_reducible apply Keeps.mk
    | dsimp only
    | exact Or.inl rfl

theorem execPinGuardEnd_keeps {A_ : List Area} {s_ t_ : State} {n : Fin 16} {s : State} (h_ : execPinGuardEnd n s = .next t_)
    (ha_ : [.sbd] ⊆ A_) (hs_ : Keeps A_ s_ s) : Keeps A_ s_ t_ := by
  refine Keeps.comp ?_ ha_ hs_
  clear hs_ ha_; unfold execPinGuardEnd at h_
  try dsimp only at h_
  all_goals first | with_reducible exact Keeps.of_fault h_ | (with_reducible obtain rfl := Host.Outcome.next.inj h_) | skip
  repeat' first
    | with_reducible exact Keeps.refl _ _
    | with_reducible apply guardEnd_keeps
    | with_reducible refine Keeps.ite ?_ ?_
    | (show (_ : List Area) ⊆ _; decide)
    | split
    | dsimp only

theorem execTachEdge_keeps {A_ : List Area} {s_ t_ : State} {n : Fin 16} {long : Bool} {s : State} (h_ : execTachEdge n long s = .next t_)
    (ha_ : [.sbd] ⊆ A_) (hs_ : Keeps A_ s_ s) : Keeps A_ s_ t_ := by
  refine Keeps.comp ?_ ha_ hs_
  clear hs_ ha_; unfold execTachEdge at h_
  try dsimp only at h_
  all_goals first | with_reducible exact Keeps.of_fault h_ | (with_reducible obtain rfl := Host.Outcome.next.inj h_) | skip
  repeat' first
    | with_reducible exact Keeps.refl _ _
    | with_reducible apply State.setPin_keeps
    | with_reducible refine Keeps.ite ?_ ?_
    | exact Or.inr (by decide)
    | with_reducible exact Or.inl rfl
    | (show (_ : List Area) ⊆ _; decide)
    | split
    | with_reducible apply Keeps.mk
    | dsimp only
    | exact Or.inl rfl

theorem tachWindow_keeps {A_ : List Area} {s_ : State} {n : Nat} {s : State}
    (ha_ : [.sbd] ⊆ A_) (hs_ : Keeps A_ s_ s) : Keeps A_ s_ (tachWindow n s) := by
  refine Keeps.comp ?_ ha_ hs_
  clear hs_ ha_; unfold tachWindow
  try dsimp only
  repeat' first
    | with_reducible exact Keeps.refl _ _
    | with_reducible apply State.setPin_keeps
    | with_reducible refine Keeps.ite ?_ ?_
    | exact Or.inr (by decide)
    | with_reducible exact Or.inl rfl
    | (show (_ : List Area) ⊆ _; decide)
    | split
    | with_reducible apply Keeps.mk
    | dsimp only
    | exact Or.inl rfl

theorem execTachWindow_keeps {A_ : List Area} {s_ t_ : State} {n : Fin 16} {s : State} (h_ : execTachWindow n s = .next t_)
    (ha_ : [.sbd] ⊆ A_) (hs_ : Keeps A_ s_ s) : Keeps A_ s_ t_ := by
  refine Keeps.comp ?_ ha_ hs_
  clear hs_ ha_; unfold execTachWindow at h_
  try dsimp only at h_
  all_goals first | with_reducible exact Keeps.of_fault h_ | (with_reducible obtain rfl := Host.Outcome.next.inj h_) | skip
  repeat' first
    | with_reducible exact Keeps.refl _ _
    | with_reducible apply tachWindow_keeps
    | with_reducible refine Keeps.ite ?_ ?_
    | (show (_ : List Area) ⊆ _; decide)
    | split
    | dsimp only

theorem execLedPeriod_keeps {A_ : List Area} {s_ t_ : State} {n : Fin 16} {s : State} (h_ : execLedPeriod n s = .next t_)
    (ha_ : [.sbd] ⊆ A_) (hs_ : Keeps A_ s_ s) : Keeps A_ s_ t_ := by
  refine Keeps.comp ?_ ha_ hs_
  clear hs_ ha_; unfold execLedPeriod at h_
  try dsimp only at h_
  all_goals first | with_reducible exact Keeps.of_fault h_ | (with_reducible obtain rfl := Host.Outcome.next.inj h_) | skip
  repeat' first
    | with_reducible exact Keeps.refl _ _
    | with_reducible apply ledTick_keeps
    | with_reducible refine Keeps.ite ?_ ?_
    | (show (_ : List Area) ⊆ _; decide)
    | split
    | dsimp only

theorem pinsTick_keeps {A_ : List Area} {s_ : State} {s : State}
    (ha_ : [.sbd] ⊆ A_) (hs_ : Keeps A_ s_ s) : Keeps A_ s_ (pinsTick s) := by
  refine Keeps.comp ?_ ha_ hs_
  clear hs_ ha_; unfold pinsTick
  try dsimp only
  repeat' first
    | with_reducible exact Keeps.refl _ _
    | with_reducible apply tachWindow_keeps
    | with_reducible apply guardEnd_keeps
    | with_reducible apply ledTick_keeps
    | with_reducible refine Keeps.foldl (fun _ _ => ?_) _ ?_
    | (show (_ : List Area) ⊆ _; decide)

end Sys2Proof.Machine
end

