-- ==== Sys2Proof/Laws/Frame/Dram.lean ====
section
/-! SUPPORT. The frame of every operation of Machine/Dram.lean: the areas it may change, and that pool memory keeps its canonical form. -/

namespace Sys2Proof.Machine

set_option linter.unusedTactic false
set_option linter.unreachableTactic false
set_option linter.unusedVariables false

theorem refreshNow_keeps {A_ : List Area} {s_ : State} {ks : List Nat} {owed : List Nat} {s : State}
    (ha_ : [.dram] ⊆ A_) (hs_ : Keeps A_ s_ s) : Keeps A_ s_ (refreshNow ks owed s) := by
  refine Keeps.comp ?_ ha_ hs_
  clear hs_ ha_; unfold refreshNow
  try dsimp only
  repeat' first
    | with_reducible exact Keeps.refl _ _
    | with_reducible apply State.setBank_keeps
    | with_reducible refine Keeps.foldl (fun _ _ => ?_) _ ?_
    | exact Or.inr (by decide)
    | with_reducible exact Or.inl rfl
    | (show (_ : List Area) ⊆ _; decide)
    | with_reducible apply Keeps.mk
    | dsimp only
    | exact Or.inl rfl

theorem forceRefresh_keeps {A_ : List Area} {s_ : State} {t : Tier} {n : Nat} {ks : List Nat} {owed : List Nat} {s : State}
    (ha_ : [.dram] ⊆ A_) (hs_ : Keeps A_ s_ s) : Keeps A_ s_ (forceRefresh t n ks owed s) := by
  refine Keeps.comp ?_ ha_ hs_
  clear hs_ ha_; unfold forceRefresh
  try dsimp only
  repeat' first
    | with_reducible exact Keeps.refl _ _
    | with_reducible apply refreshNow_keeps
    | with_reducible apply State.setTier_keeps
    | exact Or.inr (by decide)
    | with_reducible exact Or.inl rfl
    | (show (_ : List Area) ⊆ _; decide)
    | with_reducible apply Keeps.mk
    | dsimp only
    | exact Or.inl rfl

theorem refreshDue_keeps {A_ : List Area} {s_ : State} {t : Tier} {ch : Nat} {bank : Nat} {s : State}
    (ha_ : [.dram] ⊆ A_) (hs_ : Keeps A_ s_ s) : Keeps A_ s_ (refreshDue t ch bank s) := by
  refine Keeps.comp ?_ ha_ hs_
  clear hs_ ha_; unfold refreshDue
  try dsimp only
  repeat' first
    | with_reducible exact Keeps.refl _ _
    | with_reducible apply forceRefresh_keeps
    | with_reducible apply refreshNow_keeps
    | with_reducible apply State.setBank_keeps
    | with_reducible refine Keeps.ite ?_ ?_
    | exact Or.inr (by decide)
    | with_reducible exact Or.inl rfl
    | (show (_ : List Area) ⊆ _; decide)
    | split
    | with_reducible apply Keeps.mk
    | dsimp only
    | exact Or.inl rfl

theorem refreshDebt_keeps {A_ : List Area} {s_ : State} {t : Tier} {ch : Nat} {bank : Nat} {s : State}
    (ha_ : [.dram] ⊆ A_) (hs_ : Keeps A_ s_ s) : Keeps A_ s_ (refreshDebt t ch bank s) := by
  refine Keeps.comp ?_ ha_ hs_
  clear hs_ ha_; unfold refreshDebt
  try dsimp only
  repeat' first
    | with_reducible exact Keeps.refl _ _
    | with_reducible apply forceRefresh_keeps
    | with_reducible refine Keeps.ite ?_ ?_
    | (show (_ : List Area) ⊆ _; decide)
    | split
    | dsimp only

theorem execRefreshDue_keeps {A_ : List Area} {s_ t_ : State} {tier : Tier} {ch : Nat} {bank : Nat} {s : State} (h_ : execRefreshDue tier ch bank s = .next t_)
    (ha_ : [.dram] ⊆ A_) (hs_ : Keeps A_ s_ s) : Keeps A_ s_ t_ := by
  refine Keeps.comp ?_ ha_ hs_
  clear hs_ ha_; unfold execRefreshDue at h_
  try dsimp only at h_
  split at h_
  all_goals first | with_reducible exact Keeps.of_fault h_ | (with_reducible obtain rfl := Host.Outcome.next.inj h_) | skip
  repeat' first
    | with_reducible exact Keeps.refl _ _
    | with_reducible apply refreshDue_keeps
    | with_reducible refine whileAlive_keeps (fun _ => ?_) ?_
    | with_reducible refine Keeps.ite ?_ ?_
    | (show (_ : List Area) ⊆ _; decide)
    | split
    | dsimp only

theorem execRefreshDebtExpire_keeps {A_ : List Area} {s_ t_ : State} {tier : Tier} {ch : Nat} {bank : Nat} {s : State} (h_ : execRefreshDebtExpire tier ch bank s = .next t_)
    (ha_ : [.dram] ⊆ A_) (hs_ : Keeps A_ s_ s) : Keeps A_ s_ t_ := by
  refine Keeps.comp ?_ ha_ hs_
  clear hs_ ha_; unfold execRefreshDebtExpire at h_
  try dsimp only at h_
  split at h_
  all_goals first | with_reducible exact Keeps.of_fault h_ | (with_reducible obtain rfl := Host.Outcome.next.inj h_) | skip
  repeat' first
    | with_reducible exact Keeps.refl _ _
    | with_reducible apply refreshDebt_keeps
    | with_reducible refine Keeps.ite ?_ ?_
    | (show (_ : List Area) ⊆ _; decide)
    | split
    | dsimp only

theorem closeRows_keeps {A_ : List Area} {s_ : State} {f : Nat → Bool} {s : State}
    (ha_ : [.dram] ⊆ A_) (hs_ : Keeps A_ s_ s) : Keeps A_ s_ (closeRows f s) := by
  refine Keeps.comp ?_ ha_ hs_
  clear hs_ ha_; unfold closeRows
  try dsimp only
  repeat' first
    | with_reducible exact Keeps.refl _ _
    | with_reducible refine Keeps.ite ?_ ?_
    | exact Or.inr (by decide)
    | with_reducible exact Or.inl rfl
    | (show (_ : List Area) ⊆ _; decide)
    | split
    | with_reducible apply Keeps.mk
    | dsimp only
    | exact Or.inl rfl

theorem rankDown_keeps {A_ : List Area} {s_ : State} {t : Tier} {ch : Nat} {rank : Nat} {s : State}
    (ha_ : [.dram] ⊆ A_) (hs_ : Keeps A_ s_ s) : Keeps A_ s_ (rankDown t ch rank s) := by
  refine Keeps.comp ?_ ha_ hs_
  clear hs_ ha_; unfold rankDown
  try dsimp only
  repeat' first
    | with_reducible exact Keeps.refl _ _
    | with_reducible apply closeRows_keeps
    | with_reducible apply State.setRank_keeps
    | with_reducible refine Keeps.ite ?_ ?_
    | exact Or.inr (by decide)
    | with_reducible exact Or.inl rfl
    | (show (_ : List Area) ⊆ _; decide)
    | split
    | with_reducible apply Keeps.mk
    | dsimp only
    | exact Or.inl rfl

theorem rankWake_keeps {A_ : List Area} {s_ : State} {t : Tier} {ch : Nat} {rank : Nat} {s : State}
    (ha_ : [.dram] ⊆ A_) (hs_ : Keeps A_ s_ s) : Keeps A_ s_ (rankWake t ch rank s) := by
  refine Keeps.comp ?_ ha_ hs_
  clear hs_ ha_; unfold rankWake
  try dsimp only
  repeat' first
    | with_reducible exact Keeps.refl _ _
    | with_reducible apply State.setRank_keeps
    | with_reducible refine Keeps.ite ?_ ?_
    | (show (_ : List Area) ⊆ _; decide)
    | split
    | dsimp only

theorem execRankPowerDown_keeps {A_ : List Area} {s_ t_ : State} {tier : Tier} {ch : Nat} {rank : Nat} {s : State} (h_ : execRankPowerDown tier ch rank s = .next t_)
    (ha_ : [.dram] ⊆ A_) (hs_ : Keeps A_ s_ s) : Keeps A_ s_ t_ := by
  refine Keeps.comp ?_ ha_ hs_
  clear hs_ ha_; unfold execRankPowerDown at h_
  try dsimp only at h_
  split at h_
  all_goals first | with_reducible exact Keeps.of_fault h_ | (with_reducible obtain rfl := Host.Outcome.next.inj h_) | skip
  repeat' first
    | with_reducible exact Keeps.refl _ _
    | with_reducible apply rankDown_keeps
    | with_reducible refine Keeps.ite ?_ ?_
    | (show (_ : List Area) ⊆ _; decide)
    | split
    | dsimp only

theorem execRankWake_keeps {A_ : List Area} {s_ t_ : State} {tier : Tier} {ch : Nat} {rank : Nat} {s : State} (h_ : execRankWake tier ch rank s = .next t_)
    (ha_ : [.dram] ⊆ A_) (hs_ : Keeps A_ s_ s) : Keeps A_ s_ t_ := by
  refine Keeps.comp ?_ ha_ hs_
  clear hs_ ha_; unfold execRankWake at h_
  try dsimp only at h_
  split at h_
  all_goals first | with_reducible exact Keeps.of_fault h_ | (with_reducible obtain rfl := Host.Outcome.next.inj h_) | skip
  repeat' first
    | with_reducible exact Keeps.refl _ _
    | with_reducible apply rankWake_keeps
    | with_reducible refine whileAlive_keeps (fun _ => ?_) ?_
    | with_reducible refine Keeps.ite ?_ ?_
    | (show (_ : List Area) ⊆ _; decide)
    | split
    | dsimp only

theorem selfRefresh_keeps {A_ : List Area} {s_ : State} {t : Tier} {s : State}
    (ha_ : [.dram] ⊆ A_) (hs_ : Keeps A_ s_ s) : Keeps A_ s_ (selfRefresh t s) := by
  refine Keeps.comp ?_ ha_ hs_
  clear hs_ ha_; unfold selfRefresh
  try dsimp only
  repeat' first
    | with_reducible exact Keeps.refl _ _
    | with_reducible refine Keeps.ite ?_ ?_
    | exact Or.inr (by decide)
    | with_reducible exact Or.inl rfl
    | (show (_ : List Area) ⊆ _; decide)
    | split
    | with_reducible apply Keeps.mk
    | dsimp only
    | exact Or.inl rfl

theorem tierSleep_keeps {A_ : List Area} {s_ : State} {t : Tier} {s : State}
    (ha_ : [.dram] ⊆ A_) (hs_ : Keeps A_ s_ s) : Keeps A_ s_ (tierSleep t s) := by
  refine Keeps.comp ?_ ha_ hs_
  clear hs_ ha_; unfold tierSleep
  try dsimp only
  repeat' first
    | with_reducible exact Keeps.refl _ _
    | with_reducible apply selfRefresh_keeps
    | with_reducible apply State.setTier_keeps
    | with_reducible refine Keeps.ite ?_ ?_
    | exact Or.inr (by decide)
    | with_reducible exact Or.inl rfl
    | (show (_ : List Area) ⊆ _; decide)
    | split
    | with_reducible apply Keeps.mk
    | dsimp only
    | exact Or.inl rfl

theorem execTierSleep_keeps {A_ : List Area} {s_ t_ : State} {fn : Fn} {tier : Tier} {s : State} (h_ : execTierSleep fn tier s = .next t_)
    (ha_ : [.dram, .hosts] ⊆ A_) (hs_ : Keeps A_ s_ s) : Keeps A_ s_ t_ := by
  refine Keeps.comp ?_ ha_ hs_
  clear hs_ ha_; unfold execTierSleep at h_
  try dsimp only at h_
  all_goals first | with_reducible exact Keeps.of_fault h_ | (with_reducible obtain rfl := Host.Outcome.next.inj h_) | skip
  repeat' first
    | with_reducible exact Keeps.refl _ _
    | with_reducible apply tierSleep_keeps
    | with_reducible refine adminWrite_keeps (fun _ => ?_) ?_ ?_
    | (show (_ : List Area) ⊆ _; decide)

theorem execTierWake_keeps {A_ : List Area} {s_ t_ : State} {fn : Option Fn} {tier : Tier} {s : State} (h_ : execTierWake fn tier s = .next t_)
    (ha_ : [.dram, .hosts] ⊆ A_) (hs_ : Keeps A_ s_ s) : Keeps A_ s_ t_ := by
  refine Keeps.comp ?_ ha_ hs_
  clear hs_ ha_; unfold execTierWake at h_
  try dsimp only at h_
  all_goals first | with_reducible exact Keeps.of_fault h_ | (with_reducible obtain rfl := Host.Outcome.next.inj h_) | skip
  repeat' first
    | with_reducible exact Keeps.refl _ _
    | with_reducible refine whileAlive_keeps (fun _ => ?_) ?_
    | with_reducible refine adminWrite_keeps (fun _ => ?_) ?_ ?_
    | with_reducible apply wakeTier_keeps
    | (show (_ : List Area) ⊆ _; decide)
    | split
    | dsimp only

theorem tierWakeDone_keeps {A_ : List Area} {s_ : State} {t : Tier} {s : State}
    (ha_ : [.insts, .nid, .parts, .serialNo, .til, .dram, .hosts, .flt, .sbd, .out] ⊆ A_) (hs_ : Keeps A_ s_ s) : Keeps A_ s_ (tierWakeDone t s) := by
  refine Keeps.comp ?_ ha_ hs_
  clear hs_ ha_; unfold tierWakeDone
  try dsimp only
  repeat' first
    | with_reducible exact Keeps.refl _ _
    | with_reducible apply mrpWork_keeps
    | with_reducible apply answer_keeps
    | with_reducible apply State.setTier_keeps
    | with_reducible refine Keeps.foldl (fun _ _ => ?_) _ ?_
    | with_reducible refine Keeps.ite ?_ ?_
    | exact Or.inr (by decide)
    | with_reducible exact Or.inl rfl
    | (show (_ : List Area) ⊆ _; decide)
    | split
    | with_reducible apply Keeps.mk
    | dsimp only
    | exact Or.inl rfl

theorem execTierWakeDone_keeps {A_ : List Area} {s_ t_ : State} {tier : Tier} {s : State} (h_ : execTierWakeDone tier s = .next t_)
    (ha_ : [.insts, .nid, .parts, .serialNo, .til, .dram, .hosts, .flt, .sbd, .out] ⊆ A_) (hs_ : Keeps A_ s_ s) : Keeps A_ s_ t_ := by
  refine Keeps.comp ?_ ha_ hs_
  clear hs_ ha_; unfold execTierWakeDone at h_
  try dsimp only at h_
  all_goals first | with_reducible exact Keeps.of_fault h_ | (with_reducible obtain rfl := Host.Outcome.next.inj h_) | skip
  repeat' first
    | with_reducible exact Keeps.refl _ _
    | with_reducible apply tierWakeDone_keeps
    | with_reducible refine whileAlive_keeps (fun _ => ?_) ?_
    | (show (_ : List Area) ⊆ _; decide)

theorem rateApply_keeps {A_ : List Area} {s_ : State} {s : State}
    (ha_ : [.dram] ⊆ A_) (hs_ : Keeps A_ s_ s) : Keeps A_ s_ (rateApply s) := by
  refine Keeps.comp ?_ ha_ hs_
  clear hs_ ha_; unfold rateApply
  try dsimp only
  repeat' first
    | with_reducible exact Keeps.refl _ _
    | with_reducible apply State.setTier_keeps
    | with_reducible refine Keeps.ite ?_ ?_
    | exact Or.inr (by decide)
    | with_reducible exact Or.inl rfl
    | (show (_ : List Area) ⊆ _; decide)
    | split
    | with_reducible apply Keeps.mk
    | dsimp only
    | exact Or.inl rfl

theorem execRateApply_keeps {A_ : List Area} {s_ t_ : State} {fn : Fn} {s : State} (h_ : execRateApply fn s = .next t_)
    (ha_ : [.dram, .hosts] ⊆ A_) (hs_ : Keeps A_ s_ s) : Keeps A_ s_ t_ := by
  refine Keeps.comp ?_ ha_ hs_
  clear hs_ ha_; unfold execRateApply at h_
  try dsimp only at h_
  all_goals first | with_reducible exact Keeps.of_fault h_ | (with_reducible obtain rfl := Host.Outcome.next.inj h_) | skip
  repeat' first
    | with_reducible exact Keeps.refl _ _
    | with_reducible apply rateApply_keeps
    | with_reducible refine adminWrite_keeps (fun _ => ?_) ?_ ?_
    | (show (_ : List Area) ⊆ _; decide)

theorem retrain_keeps {A_ : List Area} {s_ : State} {s : State}
    (ha_ : [.dram] ⊆ A_) (hs_ : Keeps A_ s_ s) : Keeps A_ s_ (retrain s) := by
  refine Keeps.comp ?_ ha_ hs_
  clear hs_ ha_; unfold retrain
  try dsimp only
  repeat' first
    | with_reducible exact Keeps.refl _ _
    | with_reducible apply State.setChan_keeps
    | with_reducible refine Keeps.foldl (fun _ _ => ?_) _ ?_
    | exact Or.inr (by decide)
    | with_reducible exact Or.inl rfl
    | (show (_ : List Area) ⊆ _; decide)
    | with_reducible apply Keeps.mk
    | dsimp only
    | exact Or.inl rfl

theorem rateApplyDone_keeps {A_ : List Area} {s_ : State} {ok : Bool} {s : State}
    (ha_ : [.insts, .nid, .parts, .serialNo, .til, .dram, .hosts, .flt, .sbd, .out] ⊆ A_) (hs_ : Keeps A_ s_ s) : Keeps A_ s_ (rateApplyDone ok s) := by
  refine Keeps.comp ?_ ha_ hs_
  clear hs_ ha_; unfold rateApplyDone
  try dsimp only
  repeat' first
    | with_reducible exact Keeps.refl _ _
    | with_reducible apply retrain_keeps
    | with_reducible apply selfRefresh_keeps
    | with_reducible apply mrpWork_keeps
    | with_reducible apply State.setTier_keeps
    | with_reducible refine Keeps.ite ?_ ?_
    | exact Or.inr (by decide)
    | with_reducible exact Or.inl rfl
    | (show (_ : List Area) ⊆ _; decide)
    | split
    | with_reducible apply Keeps.mk
    | dsimp only
    | exact Or.inl rfl

theorem execRateApplyDone_keeps {A_ : List Area} {s_ t_ : State} {ok : Bool} {s : State} (h_ : execRateApplyDone ok s = .next t_)
    (ha_ : [.insts, .nid, .parts, .serialNo, .til, .dram, .hosts, .flt, .sbd, .out] ⊆ A_) (hs_ : Keeps A_ s_ s) : Keeps A_ s_ t_ := by
  refine Keeps.comp ?_ ha_ hs_
  clear hs_ ha_; unfold execRateApplyDone at h_
  try dsimp only at h_
  all_goals first | with_reducible exact Keeps.of_fault h_ | (with_reducible obtain rfl := Host.Outcome.next.inj h_) | skip
  repeat' first
    | with_reducible exact Keeps.refl _ _
    | with_reducible apply rateApplyDone_keeps
    | with_reducible refine whileAlive_keeps (fun _ => ?_) ?_
    | (show (_ : List Area) ⊆ _; decide)

theorem ceWindow_keeps {A_ : List Area} {s_ : State} {s : State}
    (ha_ : [.dram] ⊆ A_) (hs_ : Keeps A_ s_ s) : Keeps A_ s_ (ceWindow s) := by
  refine Keeps.comp ?_ ha_ hs_
  clear hs_ ha_; unfold ceWindow
  try dsimp only
  repeat' first
    | with_reducible exact Keeps.refl _ _
    | exact Or.inr (by decide)
    | with_reducible exact Or.inl rfl
    | (show (_ : List Area) ⊆ _; decide)
    | with_reducible apply Keeps.mk
    | dsimp only
    | exact Or.inl rfl

theorem ceWindowStart_keeps {A_ : List Area} {s_ : State} {s : State}
    (ha_ : [.dram] ⊆ A_) (hs_ : Keeps A_ s_ s) : Keeps A_ s_ (ceWindowStart s) := by
  refine Keeps.comp ?_ ha_ hs_
  clear hs_ ha_; unfold ceWindowStart
  try dsimp only
  repeat' first
    | with_reducible exact Keeps.refl _ _
    | with_reducible apply ceWindow_keeps
    | with_reducible refine Keeps.ite ?_ ?_
    | (show (_ : List Area) ⊆ _; decide)
    | split
    | dsimp only

theorem execCeWindowStart_keeps {A_ : List Area} {s_ t_ : State} {s : State} (h_ : execCeWindowStart s = .next t_)
    (ha_ : [.dram] ⊆ A_) (hs_ : Keeps A_ s_ s) : Keeps A_ s_ t_ := by
  refine Keeps.comp ?_ ha_ hs_
  clear hs_ ha_; unfold execCeWindowStart at h_
  try dsimp only at h_
  all_goals first | with_reducible exact Keeps.of_fault h_ | (with_reducible obtain rfl := Host.Outcome.next.inj h_) | skip
  repeat' first
    | with_reducible exact Keeps.refl _ _
    | with_reducible apply ceWindowStart_keeps
    | with_reducible refine Keeps.ite ?_ ?_
    | (show (_ : List Area) ⊆ _; decide)
    | split
    | dsimp only

theorem suspectClear_keeps {A_ : List Area} {s_ : State} {t : Tier} {ch : Nat} {s : State}
    (ha_ : [.dram] ⊆ A_) (hs_ : Keeps A_ s_ s) : Keeps A_ s_ (suspectClear t ch s) := by
  refine Keeps.comp ?_ ha_ hs_
  clear hs_ ha_; unfold suspectClear
  try dsimp only
  repeat' first
    | with_reducible exact Keeps.refl _ _
    | with_reducible apply State.setChan_keeps
    | with_reducible refine Keeps.ite ?_ ?_
    | exact Or.inr (by decide)
    | with_reducible exact Or.inl rfl
    | (show (_ : List Area) ⊆ _; decide)
    | split
    | with_reducible apply Keeps.mk
    | dsimp only
    | exact Or.inl rfl

theorem execChSuspectClear_keeps {A_ : List Area} {s_ t_ : State} {fn : Fn} {tier : Tier} {w : SuspectWr} {s : State} (h_ : execChSuspectClear fn tier w s = .next t_)
    (ha_ : [.dram, .hosts] ⊆ A_) (hs_ : Keeps A_ s_ s) : Keeps A_ s_ t_ := by
  refine Keeps.comp ?_ ha_ hs_
  clear hs_ ha_; unfold execChSuspectClear at h_
  try dsimp only at h_
  split at h_
  all_goals first | with_reducible exact Keeps.of_fault h_ | (with_reducible obtain rfl := Host.Outcome.next.inj h_) | skip
  repeat' first
    | with_reducible exact Keeps.refl _ _
    | with_reducible apply suspectClear_keeps
    | with_reducible refine adminWrite_keeps (fun _ => ?_) ?_ ?_
    | with_reducible refine Keeps.ite ?_ ?_
    | (show (_ : List Area) ⊆ _; decide)
    | split
    | dsimp only

theorem setOrder_keeps {A_ : List Area} {s_ : State} {t : Tier} {s : State}
    (ha_ : [.dram] ⊆ A_) (hs_ : Keeps A_ s_ s) : Keeps A_ s_ (setOrder t s) := by
  refine Keeps.comp ?_ ha_ hs_
  clear hs_ ha_; unfold setOrder
  try dsimp only
  repeat' first
    | with_reducible exact Keeps.refl _ _
    | with_reducible apply State.setTier_keeps
    | exact Or.inr (by decide)
    | with_reducible exact Or.inl rfl
    | (show (_ : List Area) ⊆ _; decide)
    | with_reducible apply Keeps.mk
    | dsimp only
    | exact Or.inl rfl

theorem hbmChan_keeps {A_ : List Area} {s_ : State} {fails : List (Fin 256 × BitVec 2)} {s : State} {ch : Nat}
    (ha_ : [.dram] ⊆ A_) (hs_ : Keeps A_ s_ s) : Keeps A_ s_ (hbmChan fails s ch) := by
  refine Keeps.comp ?_ ha_ hs_
  clear hs_ ha_; unfold hbmChan
  try dsimp only
  repeat' first
    | with_reducible exact Keeps.refl _ _
    | with_reducible apply State.setChan_keeps
    | with_reducible refine Keeps.foldl (fun _ _ => ?_) _ ?_
    | with_reducible refine Keeps.ite ?_ ?_
    | exact Or.inr (by decide)
    | with_reducible exact Or.inl rfl
    | (show (_ : List Area) ⊆ _; decide)
    | split
    | with_reducible apply Keeps.mk
    | dsimp only
    | exact Or.inl rfl

theorem hbmTraining_keeps {A_ : List Area} {s_ : State} {fails : List (Fin 256 × BitVec 2)} {s : State}
    (ha_ : [.serialNo, .dram, .boot] ⊆ A_) (hs_ : Keeps A_ s_ s) : Keeps A_ s_ (hbmTraining fails s) := by
  refine Keeps.comp ?_ ha_ hs_
  clear hs_ ha_; unfold hbmTraining
  try dsimp only
  repeat' first
    | with_reducible exact Keeps.refl _ _
    | with_reducible apply hbmChan_keeps
    | with_reducible apply setOrder_keeps
    | with_reducible apply State.setTier_keeps
    | with_reducible refine Keeps.foldl (fun _ _ => ?_) _ ?_
    | with_reducible refine Keeps.ite ?_ ?_
    | exact Or.inr (by decide)
    | with_reducible exact Or.inl rfl
    | (show (_ : List Area) ⊆ _; decide)
    | split
    | with_reducible apply Keeps.mk
    | dsimp only
    | exact Or.inl rfl

theorem execHbmTraining_keeps {A_ : List Area} {s_ t_ : State} {fails : List (Fin 256 × BitVec 2)} {s : State} (h_ : execHbmTraining fails s = .next t_)
    (ha_ : [.serialNo, .dram, .boot] ⊆ A_) (hs_ : Keeps A_ s_ s) : Keeps A_ s_ t_ := by
  refine Keeps.comp ?_ ha_ hs_
  clear hs_ ha_; unfold execHbmTraining at h_
  try dsimp only at h_
  all_goals first | with_reducible exact Keeps.of_fault h_ | (with_reducible obtain rfl := Host.Outcome.next.inj h_) | skip
  repeat' first
    | with_reducible exact Keeps.refl _ _
    | with_reducible apply hbmTraining_keeps
    | with_reducible refine Keeps.ite ?_ ?_
    | (show (_ : List Area) ⊆ _; decide)
    | split
    | dsimp only

theorem ddrChan_keeps {A_ : List Area} {s_ : State} {dimms : List (List Dimm)} {fails : List (Fin 16)} {s : State} {ch : Nat}
    (ha_ : [.dram] ⊆ A_) (hs_ : Keeps A_ s_ s) : Keeps A_ s_ (ddrChan dimms fails s ch) := by
  refine Keeps.comp ?_ ha_ hs_
  clear hs_ ha_; unfold ddrChan
  try dsimp only
  repeat' first
    | with_reducible exact Keeps.refl _ _
    | with_reducible apply State.setChan_keeps
    | with_reducible refine Keeps.getD (fun _ _ => ?_) ?_
    | with_reducible refine Keeps.ite ?_ ?_
    | exact Or.inr (by decide)
    | with_reducible exact Or.inl rfl
    | (show (_ : List Area) ⊆ _; decide)
    | split
    | with_reducible apply Keeps.mk
    | dsimp only
    | exact Or.inl rfl

theorem ddrLayout_keeps {A_ : List Area} {s_ : State} {s : State}
    (ha_ : [.dram] ⊆ A_) (hs_ : Keeps A_ s_ s) : Keeps A_ s_ (ddrLayout s) := by
  refine Keeps.comp ?_ ha_ hs_
  clear hs_ ha_; unfold ddrLayout
  try dsimp only
  repeat' first
    | with_reducible exact Keeps.refl _ _
    | with_reducible apply State.setTier_keeps
    | with_reducible refine Keeps.foldl (fun _ _ => ?_) _ ?_
    | with_reducible refine Keeps.ite ?_ ?_
    | exact Or.inr (by decide)
    | with_reducible exact Or.inl rfl
    | (show (_ : List Area) ⊆ _; decide)
    | split
    | with_reducible apply Keeps.mk
    | dsimp only
    | exact Or.inl rfl

theorem ddrTraining_keeps {A_ : List Area} {s_ : State} {dimms : List (List Dimm)} {fails : List (Fin 16)} {s : State}
    (ha_ : [.serialNo, .dram, .boot] ⊆ A_) (hs_ : Keeps A_ s_ s) : Keeps A_ s_ (ddrTraining dimms fails s) := by
  refine Keeps.comp ?_ ha_ hs_
  clear hs_ ha_; unfold ddrTraining
  try dsimp only
  repeat' first
    | with_reducible exact Keeps.refl _ _
    | with_reducible apply ddrLayout_keeps
    | with_reducible apply ddrChan_keeps
    | with_reducible apply setOrder_keeps
    | with_reducible refine Keeps.foldl (fun _ _ => ?_) _ ?_
    | with_reducible refine Keeps.ite ?_ ?_
    | exact Or.inr (by decide)
    | with_reducible exact Or.inl rfl
    | (show (_ : List Area) ⊆ _; decide)
    | split
    | with_reducible apply Keeps.mk
    | dsimp only
    | exact Or.inl rfl

theorem execDdrTraining_keeps {A_ : List Area} {s_ t_ : State} {dimms : List (List Dimm)} {fails : List (Fin 16)} {s : State} (h_ : execDdrTraining dimms fails s = .next t_)
    (ha_ : [.serialNo, .dram, .boot] ⊆ A_) (hs_ : Keeps A_ s_ s) : Keeps A_ s_ t_ := by
  refine Keeps.comp ?_ ha_ hs_
  clear hs_ ha_; unfold execDdrTraining at h_
  try dsimp only at h_
  all_goals first | with_reducible exact Keeps.of_fault h_ | (with_reducible obtain rfl := Host.Outcome.next.inj h_) | skip
  repeat' first
    | with_reducible exact Keeps.refl _ _
    | with_reducible apply ddrTraining_keeps
    | with_reducible refine Keeps.ite ?_ ?_
    | (show (_ : List Area) ⊆ _; decide)
    | split
    | dsimp only

end Sys2Proof.Machine
end

