-- ==== Sys2Proof/Laws/Frame/Election.lean ====
section
/-! SUPPORT. The frame of every operation of Machine/Election.lean: the areas it may change, and that pool memory keeps its canonical form. -/

namespace Sys2Proof.Machine

set_option linter.unusedTactic false
set_option linter.unreachableTactic false
set_option linter.unusedVariables false

theorem flood_keeps {A_ : List Area} {s_ : State} {bs : List Byte} {except : Option Nat} {s : State}
    (ha_ : [.ports] ⊆ A_) (hs_ : Keeps A_ s_ s) : Keeps A_ s_ (flood bs except s) := by
  refine Keeps.comp ?_ ha_ hs_
  clear hs_ ha_; unfold flood
  try dsimp only
  repeat' first
    | with_reducible exact Keeps.refl _ _
    | with_reducible apply enqueue_keeps
    | with_reducible refine Keeps.foldl (fun _ _ => ?_) _ ?_
    | (show (_ : List Area) ⊆ _; decide)

theorem sendOn_keeps {A_ : List Area} {s_ : State} {n : Nat} {bs : List Byte} {s : State}
    (ha_ : [.ports] ⊆ A_) (hs_ : Keeps A_ s_ s) : Keeps A_ s_ (sendOn n bs s) := by
  refine Keeps.comp ?_ ha_ hs_
  clear hs_ ha_; unfold sendOn
  try dsimp only
  repeat' first
    | with_reducible exact Keeps.refl _ _
    | with_reducible apply enqueue_keeps
    | with_reducible refine Keeps.ite ?_ ?_
    | (show (_ : List Area) ⊆ _; decide)
    | split
    | dsimp only

theorem setElect_keeps {A_ : List Area} {s_ : State} {e : Elect} {s : State}
    (ha_ : [.xpt] ⊆ A_) (hs_ : Keeps A_ s_ s) : Keeps A_ s_ (setElect e s) := by
  refine Keeps.comp ?_ ha_ hs_
  clear hs_ ha_; unfold setElect
  try dsimp only
  repeat' first
    | with_reducible exact Keeps.refl _ _
    | exact Or.inr (by decide)
    | with_reducible exact Or.inl rfl
    | (show (_ : List Area) ⊆ _; decide)
    | with_reducible apply Keeps.mk
    | dsimp only
    | exact Or.inl rfl

theorem lmcIn_keeps {A_ : List Area} {s_ s : State} {p : Fin 32} {f : State → State} (hf_ : ∀ t, Keeps A_ t (f t)) (ha_ : [.ports] ⊆ A_)
    (hs_ : Keeps A_ s_ s) : Keeps A_ s_ (lmcIn p f s) := by
  unfold lmcIn
  exact Keeps.ite (Keeps.comp (hf_ _) (List.Subset.refl _) (rxFree_keeps ha_ hs_)) hs_

theorem conflictEnd_keeps {A_ : List Area} {s_ : State} {s : State}
    (ha_ : [.xpt, .hosts, .flt, .sbd, .out] ⊆ A_) (hs_ : Keeps A_ s_ s) : Keeps A_ s_ (conflictEnd s) := by
  refine Keeps.comp ?_ ha_ hs_
  clear hs_ ha_; unfold conflictEnd
  try dsimp only
  repeat' first
    | with_reducible exact Keeps.refl _ _
    | with_reducible apply setElect_keeps
    | with_reducible apply recordFault_keeps
    | exact Or.inr (by decide)
    | with_reducible exact Or.inl rfl
    | (show (_ : List Area) ⊆ _; decide)
    | with_reducible apply Keeps.mk
    | dsimp only
    | exact Or.inl rfl

theorem follow_keeps {A_ : List Area} {s_ : State} {via : Fin 32} {s : State}
    (ha_ : [.ports, .xpt, .hosts, .flt, .sbd, .out] ⊆ A_) (hs_ : Keeps A_ s_ s) : Keeps A_ s_ (follow via s) := by
  refine Keeps.comp ?_ ha_ hs_
  clear hs_ ha_; unfold follow
  try dsimp only
  repeat' first
    | with_reducible exact Keeps.refl _ _
    | with_reducible apply conflictEnd_keeps
    | with_reducible apply setElect_keeps
    | with_reducible apply sendOn_keeps
    | with_reducible refine Keeps.ite ?_ ?_
    | exact Or.inr (by decide)
    | with_reducible exact Or.inl rfl
    | (show (_ : List Area) ⊆ _; decide)
    | split
    | with_reducible apply Keeps.mk
    | dsimp only
    | exact Or.inl rfl

theorem armWindow_keeps {A_ : List Area} {s_ : State} {s : State}
    (ha_ : [.serialNo, .ports, .xpt, .hosts, .flt, .sbd, .out] ⊆ A_) (hs_ : Keeps A_ s_ s) : Keeps A_ s_ (armWindow s) := by
  refine Keeps.comp ?_ ha_ hs_
  clear hs_ ha_; unfold armWindow
  try dsimp only
  repeat' first
    | with_reducible exact Keeps.refl _ _
    | with_reducible apply follow_keeps
    | with_reducible apply setElect_keeps
    | with_reducible apply flood_keeps
    | with_reducible refine Keeps.ite ?_ ?_
    | exact Or.inr (by decide)
    | with_reducible exact Or.inl rfl
    | (show (_ : List Area) ⊆ _; decide)
    | split
    | with_reducible apply Keeps.mk
    | dsimp only
    | exact Or.inl rfl

theorem windowExpire_keeps {A_ : List Area} {s_ : State} {s : State}
    (ha_ : [.ports, .xpt, .hosts, .flt, .sbd, .out] ⊆ A_) (hs_ : Keeps A_ s_ s) : Keeps A_ s_ (windowExpire s) := by
  refine Keeps.comp ?_ ha_ hs_
  clear hs_ ha_; unfold windowExpire
  try dsimp only
  repeat' first
    | with_reducible exact Keeps.refl _ _
    | with_reducible apply conflictEnd_keeps
    | with_reducible apply setElect_keeps
    | with_reducible apply flood_keeps
    | with_reducible refine Keeps.ite ?_ ?_
    | exact Or.inr (by decide)
    | with_reducible exact Or.inl rfl
    | (show (_ : List Area) ⊆ _; decide)
    | split
    | with_reducible apply Keeps.mk
    | dsimp only
    | exact Or.inl rfl

theorem execClaimWindowExpire_keeps {A_ : List Area} {s_ t_ : State} {s : State} (h_ : execClaimWindowExpire s = .next t_)
    (ha_ : [.ports, .xpt, .hosts, .flt, .sbd, .out] ⊆ A_) (hs_ : Keeps A_ s_ s) : Keeps A_ s_ t_ := by
  refine Keeps.comp ?_ ha_ hs_
  clear hs_ ha_; unfold execClaimWindowExpire at h_
  try dsimp only at h_
  all_goals first | with_reducible exact Keeps.of_fault h_ | (with_reducible obtain rfl := Host.Outcome.next.inj h_) | skip
  repeat' first
    | with_reducible exact Keeps.refl _ _
    | with_reducible apply windowExpire_keeps
    | with_reducible refine Keeps.ite ?_ ?_
    | (show (_ : List Area) ⊆ _; decide)
    | split
    | dsimp only

theorem hearClaim_keeps {A_ : List Area} {s_ : State} {c : Claim} {s : State}
    (ha_ : [.xpt, .hosts, .flt, .sbd, .out] ⊆ A_) (hs_ : Keeps A_ s_ s) : Keeps A_ s_ (hearClaim c s) := by
  refine Keeps.comp ?_ ha_ hs_
  clear hs_ ha_; unfold hearClaim
  try dsimp only
  repeat' first
    | with_reducible exact Keeps.refl _ _
    | with_reducible apply conflictEnd_keeps
    | with_reducible apply setElect_keeps
    | with_reducible refine Keeps.ite ?_ ?_
    | exact Or.inr (by decide)
    | with_reducible exact Or.inl rfl
    | (show (_ : List Area) ⊆ _; decide)
    | split
    | with_reducible apply Keeps.mk
    | dsimp only
    | exact Or.inl rfl

theorem rxClaim_keeps {A_ : List Area} {s_ : State} {p : Fin 32} {c : Claim} {s : State}
    (ha_ : [.ports, .xpt, .hosts, .flt, .sbd, .out] ⊆ A_) (hs_ : Keeps A_ s_ s) : Keeps A_ s_ (rxClaim p c s) := by
  refine Keeps.comp ?_ ha_ hs_
  clear hs_ ha_; unfold rxClaim
  try dsimp only
  repeat' first
    | with_reducible exact Keeps.refl _ _
    | with_reducible apply hearClaim_keeps
    | with_reducible apply flood_keeps
    | with_reducible refine Keeps.ite ?_ ?_
    | (show (_ : List Area) ⊆ _; decide)
    | split
    | dsimp only

theorem execClaim_keeps {A_ : List Area} {s_ t_ : State} {p : Fin 32} {c : Claim} {s : State} (h_ : execClaim p c s = .next t_)
    (ha_ : [.ports, .xpt, .hosts, .flt, .sbd, .out] ⊆ A_) (hs_ : Keeps A_ s_ s) : Keeps A_ s_ t_ := by
  refine Keeps.comp ?_ ha_ hs_
  clear hs_ ha_; unfold execClaim at h_
  try dsimp only at h_
  all_goals first | with_reducible exact Keeps.of_fault h_ | (with_reducible obtain rfl := Host.Outcome.next.inj h_) | skip
  repeat' first
    | with_reducible exact Keeps.refl _ _
    | with_reducible apply rxClaim_keeps
    | with_reducible refine lmcIn_keeps (fun _ => ?_) ?_ ?_
    | (show (_ : List Area) ⊆ _; decide)

theorem rxAnnounce_keeps {A_ : List Area} {s_ : State} {p : Fin 32} {c : Claim} {s : State}
    (ha_ : [.ports, .xpt, .hosts, .flt, .sbd, .out] ⊆ A_) (hs_ : Keeps A_ s_ s) : Keeps A_ s_ (rxAnnounce p c s) := by
  refine Keeps.comp ?_ ha_ hs_
  clear hs_ ha_; unfold rxAnnounce
  try dsimp only
  repeat' first
    | with_reducible exact Keeps.refl _ _
    | with_reducible apply follow_keeps
    | with_reducible apply setElect_keeps
    | with_reducible apply sendOn_keeps
    | with_reducible apply flood_keeps
    | with_reducible refine Keeps.ite ?_ ?_
    | exact Or.inr (by decide)
    | with_reducible exact Or.inl rfl
    | (show (_ : List Area) ⊆ _; decide)
    | split
    | with_reducible apply Keeps.mk
    | dsimp only
    | exact Or.inl rfl

theorem execAnnounce_keeps {A_ : List Area} {s_ t_ : State} {p : Fin 32} {c : Claim} {s : State} (h_ : execAnnounce p c s = .next t_)
    (ha_ : [.ports, .xpt, .hosts, .flt, .sbd, .out] ⊆ A_) (hs_ : Keeps A_ s_ s) : Keeps A_ s_ t_ := by
  refine Keeps.comp ?_ ha_ hs_
  clear hs_ ha_; unfold execAnnounce at h_
  try dsimp only at h_
  all_goals first | with_reducible exact Keeps.of_fault h_ | (with_reducible obtain rfl := Host.Outcome.next.inj h_) | skip
  repeat' first
    | with_reducible exact Keeps.refl _ _
    | with_reducible apply rxAnnounce_keeps
    | with_reducible refine lmcIn_keeps (fun _ => ?_) ?_ ?_
    | (show (_ : List Area) ⊆ _; decide)

theorem writeRoute_keeps {A_ : List Area} {s_ : State} {d : Nat} {port : Nat} {alt : Option Nat} {withdraw : Bool} {s : State}
    (ha_ : [.insts] ⊆ A_) (hs_ : Keeps A_ s_ s) : Keeps A_ s_ (writeRoute d port alt withdraw s) := by
  refine Keeps.comp ?_ ha_ hs_
  clear hs_ ha_; unfold writeRoute
  try dsimp only
  repeat' first
    | with_reducible exact Keeps.refl _ _
    | with_reducible apply State.putShadow_keeps
    | with_reducible refine Keeps.ite ?_ ?_
    | (show (_ : List Area) ⊆ _; decide)
    | split
    | dsimp only

theorem commitRoutes_keeps {A_ : List Area} {s_ : State} {s : State}
    (ha_ : [.insts] ⊆ A_) (hs_ : Keeps A_ s_ s) : Keeps A_ s_ (commitRoutes s) := by
  refine Keeps.comp ?_ ha_ hs_
  clear hs_ ha_; unfold commitRoutes
  try dsimp only
  repeat' first
    | with_reducible exact Keeps.refl _ _
    | with_reducible apply State.setCommit_keeps
    | (show (_ : List Area) ⊆ _; decide)

theorem publishTo_keeps {A_ : List Area} {s_ : State} {x : Joined} {s : State}
    (ha_ : [.ports] ⊆ A_) (hs_ : Keeps A_ s_ s) : Keeps A_ s_ (publishTo x s) := by
  refine Keeps.comp ?_ ha_ hs_
  clear hs_ ha_; unfold publishTo
  try dsimp only
  repeat' first
    | with_reducible exact Keeps.refl _ _
    | with_reducible apply sendOn_keeps
    | with_reducible refine Keeps.foldl (fun _ _ => ?_) _ ?_
    | with_reducible refine Keeps.getD (fun _ _ => ?_) ?_
    | (show (_ : List Area) ⊆ _; decide)

theorem publish_keeps {A_ : List Area} {s_ : State} {s : State}
    (ha_ : [.insts, .ports] ⊆ A_) (hs_ : Keeps A_ s_ s) : Keeps A_ s_ (publish s) := by
  refine Keeps.comp ?_ ha_ hs_
  clear hs_ ha_; unfold publish
  try dsimp only
  repeat' first
    | with_reducible exact Keeps.refl _ _
    | with_reducible apply publishTo_keeps
    | with_reducible apply commitRoutes_keeps
    | with_reducible apply writeRoute_keeps
    | with_reducible refine Keeps.foldl (fun _ _ => ?_) _ ?_
    | with_reducible refine Keeps.ite ?_ ?_
    | (show (_ : List Area) ⊆ _; decide)
    | split
    | dsimp only

theorem assignJoin_keeps {A_ : List Area} {s_ : State} {p : Fin 32} {kind : Byte} {serial : BitVec 64} {s : State}
    (ha_ : [.insts, .ports, .xpt] ⊆ A_) (hs_ : Keeps A_ s_ s) : Keeps A_ s_ (assignJoin p kind serial s) := by
  refine Keeps.comp ?_ ha_ hs_
  clear hs_ ha_; unfold assignJoin
  try dsimp only
  repeat' first
    | with_reducible exact Keeps.refl _ _
    | with_reducible apply publish_keeps
    | with_reducible apply setElect_keeps
    | with_reducible apply sendOn_keeps
    | with_reducible refine Keeps.ite ?_ ?_
    | exact Or.inr (by decide)
    | with_reducible exact Or.inl rfl
    | (show (_ : List Area) ⊆ _; decide)
    | split
    | with_reducible apply Keeps.mk
    | dsimp only
    | exact Or.inl rfl

theorem rxJoin_keeps {A_ : List Area} {s_ : State} {p : Fin 32} {kind : Byte} {serial : BitVec 64} {s : State}
    (ha_ : [.insts, .ports, .xpt] ⊆ A_) (hs_ : Keeps A_ s_ s) : Keeps A_ s_ (rxJoin p kind serial s) := by
  refine Keeps.comp ?_ ha_ hs_
  clear hs_ ha_; unfold rxJoin
  try dsimp only
  repeat' first
    | with_reducible exact Keeps.refl _ _
    | with_reducible apply assignJoin_keeps
    | with_reducible apply setElect_keeps
    | with_reducible apply sendOn_keeps
    | with_reducible refine Keeps.ite ?_ ?_
    | (show (_ : List Area) ⊆ _; decide)
    | split
    | dsimp only

theorem execJoin_keeps {A_ : List Area} {s_ t_ : State} {p : Fin 32} {kind : Byte} {serial : BitVec 64} {s : State} (h_ : execJoin p kind serial s = .next t_)
    (ha_ : [.insts, .ports, .xpt] ⊆ A_) (hs_ : Keeps A_ s_ s) : Keeps A_ s_ t_ := by
  refine Keeps.comp ?_ ha_ hs_
  clear hs_ ha_; unfold execJoin at h_
  try dsimp only at h_
  all_goals first | with_reducible exact Keeps.of_fault h_ | (with_reducible obtain rfl := Host.Outcome.next.inj h_) | skip
  repeat' first
    | with_reducible exact Keeps.refl _ _
    | with_reducible apply rxJoin_keeps
    | with_reducible refine lmcIn_keeps (fun _ => ?_) ?_ ?_
    | with_reducible refine Keeps.ite ?_ ?_
    | (show (_ : List Area) ⊆ _; decide)
    | split
    | dsimp only

theorem relay_keeps {A_ : List Area} {s_ : State} {serial : BitVec 64} {bs : List Byte} {s : State}
    (ha_ : [.ports] ⊆ A_) (hs_ : Keeps A_ s_ s) : Keeps A_ s_ (relay serial bs s) := by
  refine Keeps.comp ?_ ha_ hs_
  clear hs_ ha_; unfold relay
  try dsimp only
  repeat' first
    | with_reducible exact Keeps.refl _ _
    | with_reducible apply sendOn_keeps
    | (show (_ : List Area) ⊆ _; decide)
    | split
    | dsimp only

theorem rxAssign_keeps {A_ : List Area} {s_ : State} {endpoint : BitVec 12} {serial : BitVec 64} {s : State}
    (ha_ : [.ports, .xpt] ⊆ A_) (hs_ : Keeps A_ s_ s) : Keeps A_ s_ (rxAssign endpoint serial s) := by
  refine Keeps.comp ?_ ha_ hs_
  clear hs_ ha_; unfold rxAssign
  try dsimp only
  repeat' first
    | with_reducible exact Keeps.refl _ _
    | with_reducible apply relay_keeps
    | with_reducible refine Keeps.ite ?_ ?_
    | exact Or.inr (by decide)
    | with_reducible exact Or.inl rfl
    | (show (_ : List Area) ⊆ _; decide)
    | split
    | with_reducible apply Keeps.mk
    | dsimp only
    | exact Or.inl rfl

theorem execAssign_keeps {A_ : List Area} {s_ t_ : State} {p : Fin 32} {endpoint : BitVec 12} {serial : BitVec 64} {s : State} (h_ : execAssign p endpoint serial s = .next t_)
    (ha_ : [.ports, .xpt] ⊆ A_) (hs_ : Keeps A_ s_ s) : Keeps A_ s_ t_ := by
  refine Keeps.comp ?_ ha_ hs_
  clear hs_ ha_; unfold execAssign at h_
  try dsimp only at h_
  all_goals first | with_reducible exact Keeps.of_fault h_ | (with_reducible obtain rfl := Host.Outcome.next.inj h_) | skip
  repeat' first
    | with_reducible exact Keeps.refl _ _
    | with_reducible apply rxAssign_keeps
    | with_reducible refine lmcIn_keeps (fun _ => ?_) ?_ ?_
    | (show (_ : List Area) ⊆ _; decide)

theorem rxRoutePub_keeps {A_ : List Area} {s_ : State} {dst : BitVec 12} {port : BitVec 5} {alt : BitVec 5} {altValid : Bool} {withdraw : Bool} {last : Bool} {serial : BitVec 64} {s : State}
    (ha_ : [.insts, .ports] ⊆ A_) (hs_ : Keeps A_ s_ s) : Keeps A_ s_ (rxRoutePub dst port alt altValid withdraw last serial s) := by
  refine Keeps.comp ?_ ha_ hs_
  clear hs_ ha_; unfold rxRoutePub
  try dsimp only
  repeat' first
    | with_reducible exact Keeps.refl _ _
    | with_reducible apply relay_keeps
    | with_reducible apply commitRoutes_keeps
    | with_reducible apply writeRoute_keeps
    | with_reducible refine Keeps.ite ?_ ?_
    | (show (_ : List Area) ⊆ _; decide)
    | split
    | dsimp only

theorem execRoutePub_keeps {A_ : List Area} {s_ t_ : State} {p : Fin 32} {dst : BitVec 12} {port : BitVec 5} {alt : BitVec 5} {altValid : Bool} {withdraw : Bool} {last : Bool} {serial : BitVec 64} {s : State} (h_ : execRoutePub p dst port alt altValid withdraw last serial s = .next t_)
    (ha_ : [.insts, .ports] ⊆ A_) (hs_ : Keeps A_ s_ s) : Keeps A_ s_ t_ := by
  refine Keeps.comp ?_ ha_ hs_
  clear hs_ ha_; unfold execRoutePub at h_
  try dsimp only at h_
  all_goals first | with_reducible exact Keeps.of_fault h_ | (with_reducible obtain rfl := Host.Outcome.next.inj h_) | skip
  repeat' first
    | with_reducible exact Keeps.refl _ _
    | with_reducible apply rxRoutePub_keeps
    | with_reducible refine lmcIn_keeps (fun _ => ?_) ?_ ?_
    | with_reducible refine Keeps.ite ?_ ?_
    | (show (_ : List Area) ⊆ _; decide)
    | split
    | dsimp only

end Sys2Proof.Machine
end

