-- ==== Sys2Proof/Laws/Frame/Boot.lean ====
section
/-! SUPPORT. The frame of every operation of Machine/Boot.lean: the areas it may change, and that pool memory keeps its canonical form. -/

namespace Sys2Proof.Machine

set_option linter.unusedTactic false
set_option linter.unreachableTactic false
set_option linter.unusedVariables false

theorem otpRead_keeps {A_ : List Area} {s_ : State} {o : Option Otp} {s : State}
    (ha_ : [.nid, .tenants, .ports, .flt, .boot, .sbd, .out] ⊆ A_) (hs_ : Keeps A_ s_ s) : Keeps A_ s_ (otpRead o s) := by
  refine Keeps.comp ?_ ha_ hs_
  clear hs_ ha_; unfold otpRead
  try dsimp only
  repeat' first
    | with_reducible exact Keeps.refl _ _
    | with_reducible apply enterFatal_keeps
    | with_reducible refine Keeps.ite ?_ ?_
    | exact Or.inr (by decide)
    | with_reducible exact Or.inl rfl
    | (show (_ : List Area) ⊆ _; decide)
    | split
    | with_reducible apply Keeps.mk
    | dsimp only
    | exact Or.inl rfl

theorem execOtpRead_keeps {A_ : List Area} {s_ t_ : State} {o : Option Otp} {s : State} (h_ : execOtpRead o s = .next t_)
    (ha_ : [.nid, .tenants, .ports, .flt, .boot, .sbd, .out] ⊆ A_) (hs_ : Keeps A_ s_ s) : Keeps A_ s_ t_ := by
  refine Keeps.comp ?_ ha_ hs_
  clear hs_ ha_; unfold execOtpRead at h_
  try dsimp only at h_
  all_goals first | with_reducible exact Keeps.of_fault h_ | (with_reducible obtain rfl := Host.Outcome.next.inj h_) | skip
  repeat' first
    | with_reducible exact Keeps.refl _ _
    | with_reducible apply otpRead_keeps
    | with_reducible refine whileAlive_keeps (fun _ => ?_) ?_
    | (show (_ : List Area) ⊆ _; decide)

theorem flashDiscovery_keeps {A_ : List Area} {s_ : State} {d : Option FlashDev} {s : State}
    (ha_ : [.boot, .sbd] ⊆ A_) (hs_ : Keeps A_ s_ s) : Keeps A_ s_ (flashDiscovery d s) := by
  refine Keeps.comp ?_ ha_ hs_
  clear hs_ ha_; unfold flashDiscovery
  try dsimp only
  repeat' first
    | with_reducible exact Keeps.refl _ _
    | with_reducible refine Keeps.ite ?_ ?_
    | exact Or.inr (by decide)
    | with_reducible exact Or.inl rfl
    | (show (_ : List Area) ⊆ _; decide)
    | split
    | with_reducible apply Keeps.mk
    | dsimp only
    | exact Or.inl rfl

theorem execFlashDiscovery_keeps {A_ : List Area} {s_ t_ : State} {d : Option FlashDev} {s : State} (h_ : execFlashDiscovery d s = .next t_)
    (ha_ : [.boot, .sbd] ⊆ A_) (hs_ : Keeps A_ s_ s) : Keeps A_ s_ t_ := by
  refine Keeps.comp ?_ ha_ hs_
  clear hs_ ha_; unfold execFlashDiscovery at h_
  try dsimp only at h_
  all_goals first | with_reducible exact Keeps.of_fault h_ | (with_reducible obtain rfl := Host.Outcome.next.inj h_) | skip
  repeat' first
    | with_reducible exact Keeps.refl _ _
    | with_reducible apply flashDiscovery_keeps
    | with_reducible refine whileAlive_keeps (fun _ => ?_) ?_
    | (show (_ : List Area) ⊆ _; decide)

theorem runSlot_keeps {A_ : List Area} {s_ : State} {d : FlashDev} {b : Bool} {st : Word} {cause : Word} {s : State}
    (ha_ : [.boot] ⊆ A_) (hs_ : Keeps A_ s_ s) : Keeps A_ s_ (runSlot d b st cause s) := by
  refine Keeps.comp ?_ ha_ hs_
  clear hs_ ha_; unfold runSlot
  try dsimp only
  repeat' first
    | with_reducible exact Keeps.refl _ _
    | exact Or.inr (by decide)
    | with_reducible exact Or.inl rfl
    | (show (_ : List Area) ⊆ _; decide)
    | with_reducible apply Keeps.mk
    | dsimp only
    | exact Or.inl rfl

theorem slotChoice_keeps {A_ : List Area} {s_ : State} {s : State}
    (ha_ : [.boot] ⊆ A_) (hs_ : Keeps A_ s_ s) : Keeps A_ s_ (slotChoice s) := by
  refine Keeps.comp ?_ ha_ hs_
  clear hs_ ha_; unfold slotChoice
  try dsimp only
  repeat' first
    | with_reducible exact Keeps.refl _ _
    | with_reducible apply runSlot_keeps
    | with_reducible refine Keeps.ite ?_ ?_
    | exact Or.inr (by decide)
    | with_reducible exact Or.inl rfl
    | (show (_ : List Area) ⊆ _; decide)
    | split
    | with_reducible apply Keeps.mk
    | dsimp only
    | exact Or.inl rfl

theorem execSlotChoice_keeps {A_ : List Area} {s_ t_ : State} {s : State} (h_ : execSlotChoice s = .next t_)
    (ha_ : [.boot] ⊆ A_) (hs_ : Keeps A_ s_ s) : Keeps A_ s_ t_ := by
  refine Keeps.comp ?_ ha_ hs_
  clear hs_ ha_; unfold execSlotChoice at h_
  try dsimp only at h_
  all_goals first | with_reducible exact Keeps.of_fault h_ | (with_reducible obtain rfl := Host.Outcome.next.inj h_) | skip
  repeat' first
    | with_reducible exact Keeps.refl _ _
    | with_reducible apply slotChoice_keeps
    | with_reducible refine whileAlive_keeps (fun _ => ?_) ?_
    | (show (_ : List Area) ⊆ _; decide)

theorem processorStart_keeps {A_ : List Area} {s_ : State} {s : State}
    (ha_ : [.nid, .flt] ⊆ A_) (hs_ : Keeps A_ s_ s) : Keeps A_ s_ (processorStart s) := by
  refine Keeps.comp ?_ ha_ hs_
  clear hs_ ha_; unfold processorStart
  try dsimp only
  repeat' first
    | with_reducible exact Keeps.refl _ _
    | with_reducible apply State.setWd_keeps
    | with_reducible refine Keeps.foldl (fun _ _ => ?_) _ ?_
    | with_reducible refine Keeps.ite ?_ ?_
    | exact Or.inr (by decide)
    | with_reducible exact Or.inl rfl
    | (show (_ : List Area) ⊆ _; decide)
    | split
    | with_reducible apply Keeps.mk
    | dsimp only
    | exact Or.inl rfl

theorem execProcessorStart_keeps {A_ : List Area} {s_ t_ : State} {s : State} (h_ : execProcessorStart s = .next t_)
    (ha_ : [.nid, .flt] ⊆ A_) (hs_ : Keeps A_ s_ s) : Keeps A_ s_ t_ := by
  refine Keeps.comp ?_ ha_ hs_
  clear hs_ ha_; unfold execProcessorStart at h_
  try dsimp only at h_
  all_goals first | with_reducible exact Keeps.of_fault h_ | (with_reducible obtain rfl := Host.Outcome.next.inj h_) | skip
  repeat' first
    | with_reducible exact Keeps.refl _ _
    | with_reducible apply processorStart_keeps
    | with_reducible refine whileAlive_keeps (fun _ => ?_) ?_
    | (show (_ : List Area) ⊆ _; decide)

theorem toTraining_keeps {A_ : List Area} {s_ : State} {s : State}
    (ha_ : [.nid, .sbd] ⊆ A_) (hs_ : Keeps A_ s_ s) : Keeps A_ s_ (toTraining s) := by
  refine Keeps.comp ?_ ha_ hs_
  clear hs_ ha_; unfold toTraining
  try dsimp only
  repeat' first
    | with_reducible exact Keeps.refl _ _
    | with_reducible apply pinsStart_keeps
    | with_reducible refine Keeps.ite ?_ ?_
    | exact Or.inr (by decide)
    | with_reducible exact Or.inl rfl
    | (show (_ : List Area) ⊆ _; decide)
    | split
    | with_reducible apply Keeps.mk
    | dsimp only
    | exact Or.inl rfl

theorem inSelftest_keeps {A_ : List Area} {s_ s : State} {d : State → Bool} {f : State → State} (hf_ : ∀ t, Keeps A_ t (f t)) (ha_ : [.nid, .sbd] ⊆ A_)
    (hs_ : Keeps A_ s_ s) : Keeps A_ s_ (inSelftest d f s) := by
  unfold inSelftest
  exact Keeps.ite (toTraining_keeps (List.Subset.trans (by decide) ha_) (Keeps.comp (hf_ _) (List.Subset.refl _) hs_)) hs_

theorem applyBody_keeps {A_ : List Area} {s_ : State} {b : SetBody} {s : State}
    (ha_ : [.dram, .sec] ⊆ A_) (hs_ : Keeps A_ s_ s) : Keeps A_ s_ (applyBody b s) := by
  refine Keeps.comp ?_ ha_ hs_
  clear hs_ ha_; unfold applyBody
  try dsimp only
  repeat' first
    | with_reducible exact Keeps.refl _ _
    | with_reducible apply State.setTier_keeps
    | with_reducible apply State.setSecPort_keeps
    | with_reducible refine Keeps.foldl (fun _ _ => ?_) _ ?_
    | exact Or.inr (by decide)
    | with_reducible exact Or.inl rfl
    | (show (_ : List Area) ⊆ _; decide)
    | with_reducible apply Keeps.mk
    | dsimp only
    | exact Or.inl rfl

theorem settingsRead_keeps {A_ : List Area} {s_ : State} {s : State}
    (ha_ : [.dram, .sec, .boot] ⊆ A_) (hs_ : Keeps A_ s_ s) : Keeps A_ s_ (settingsRead s) := by
  refine Keeps.comp ?_ ha_ hs_
  clear hs_ ha_; unfold settingsRead
  try dsimp only
  repeat' first
    | with_reducible exact Keeps.refl _ _
    | with_reducible apply applyBody_keeps
    | with_reducible refine Keeps.getD (fun _ _ => ?_) ?_
    | exact Or.inr (by decide)
    | with_reducible exact Or.inl rfl
    | (show (_ : List Area) ⊆ _; decide)
    | split
    | with_reducible apply Keeps.mk
    | dsimp only
    | exact Or.inl rfl

theorem execSettingsRead_keeps {A_ : List Area} {s_ t_ : State} {s : State} (h_ : execSettingsRead s = .next t_)
    (ha_ : [.nid, .dram, .sec, .boot, .sbd] ⊆ A_) (hs_ : Keeps A_ s_ s) : Keeps A_ s_ t_ := by
  refine Keeps.comp ?_ ha_ hs_
  clear hs_ ha_; unfold execSettingsRead at h_
  try dsimp only at h_
  all_goals first | with_reducible exact Keeps.of_fault h_ | (with_reducible obtain rfl := Host.Outcome.next.inj h_) | skip
  repeat' first
    | with_reducible exact Keeps.refl _ _
    | with_reducible apply settingsRead_keeps
    | with_reducible refine inSelftest_keeps (fun _ => ?_) ?_ ?_
    | with_reducible refine whileAlive_keeps (fun _ => ?_) ?_
    | (show (_ : List Area) ⊆ _; decide)

theorem settingsErase_keeps {A_ : List Area} {s_ : State} {d : FlashDev} {s : State}
    (ha_ : [.sec, .boot] ⊆ A_) (hs_ : Keeps A_ s_ s) : Keeps A_ s_ (settingsErase d s) := by
  refine Keeps.comp ?_ ha_ hs_
  clear hs_ ha_; unfold settingsErase
  try dsimp only
  repeat' first
    | with_reducible exact Keeps.refl _ _
    | with_reducible refine Keeps.getD (fun _ _ => ?_) ?_
    | with_reducible refine Keeps.ite ?_ ?_
    | exact Or.inr (by decide)
    | with_reducible exact Or.inl rfl
    | (show (_ : List Area) ⊆ _; decide)
    | split
    | with_reducible apply Keeps.mk
    | dsimp only
    | exact Or.inl rfl

theorem settingsProgram_keeps {A_ : List Area} {s_ : State} {d : FlashDev} {o : Otp} {k : Fin 2} {seq : Word} {s : State}
    (ha_ : [.serialNo, .sec, .boot] ⊆ A_) (hs_ : Keeps A_ s_ s) : Keeps A_ s_ (settingsProgram d o k seq s) := by
  refine Keeps.comp ?_ ha_ hs_
  clear hs_ ha_; unfold settingsProgram
  try dsimp only
  repeat' first
    | with_reducible exact Keeps.refl _ _
    | exact Or.inr (by decide)
    | with_reducible exact Or.inl rfl
    | (show (_ : List Area) ⊆ _; decide)
    | with_reducible apply Keeps.mk
    | dsimp only
    | exact Or.inl rfl

theorem settingsWrite_keeps {A_ : List Area} {s_ : State} {s : State}
    (ha_ : [.serialNo, .sec, .boot] ⊆ A_) (hs_ : Keeps A_ s_ s) : Keeps A_ s_ (settingsWrite s) := by
  refine Keeps.comp ?_ ha_ hs_
  clear hs_ ha_; unfold settingsWrite
  try dsimp only
  repeat' first
    | with_reducible exact Keeps.refl _ _
    | with_reducible apply settingsProgram_keeps
    | with_reducible apply settingsErase_keeps
    | (show (_ : List Area) ⊆ _; decide)
    | split
    | dsimp only

theorem execSettingsWrite_keeps {A_ : List Area} {s_ t_ : State} {s : State} (h_ : execSettingsWrite s = .next t_)
    (ha_ : [.serialNo, .sec, .boot] ⊆ A_) (hs_ : Keeps A_ s_ s) : Keeps A_ s_ t_ := by
  refine Keeps.comp ?_ ha_ hs_
  clear hs_ ha_; unfold execSettingsWrite at h_
  try dsimp only at h_
  all_goals first | with_reducible exact Keeps.of_fault h_ | (with_reducible obtain rfl := Host.Outcome.next.inj h_) | skip
  repeat' first
    | with_reducible exact Keeps.refl _ _
    | with_reducible apply settingsWrite_keeps
    | with_reducible refine whileAlive_keeps (fun _ => ?_) ?_
    | (show (_ : List Area) ⊆ _; decide)

theorem eccSelftest_keeps {A_ : List Area} {s_ : State} {replies : List EccReply} {s : State}
    (ha_ : [.nid, .tenants, .ports, .dram, .flt, .boot, .sbd, .out] ⊆ A_) (hs_ : Keeps A_ s_ s) : Keeps A_ s_ (eccSelftest replies s) := by
  refine Keeps.comp ?_ ha_ hs_
  clear hs_ ha_; unfold eccSelftest
  try dsimp only
  repeat' first
    | with_reducible exact Keeps.refl _ _
    | with_reducible apply enterFatal_keeps
    | with_reducible apply State.setChan_keeps
    | with_reducible refine Keeps.foldl (fun _ _ => ?_) _ ?_
    | exact Or.inr (by decide)
    | with_reducible exact Or.inl rfl
    | (show (_ : List Area) ⊆ _; decide)
    | split
    | with_reducible apply Keeps.mk
    | dsimp only
    | exact Or.inl rfl

theorem execEccSelftest_keeps {A_ : List Area} {s_ t_ : State} {hbm : List (Fin 256 × EccPattern × EccResult)} {ddr : List (Fin 16 × EccPattern × EccResult)}
    {sram : List (Nat × EccPattern × EccResult)} {s : State} (h_ : execEccSelftest hbm ddr sram s = .next t_)
    (ha_ : [.nid, .tenants, .ports, .dram, .flt, .boot, .sbd, .out] ⊆ A_) (hs_ : Keeps A_ s_ s) : Keeps A_ s_ t_ := by
  refine Keeps.comp ?_ ha_ hs_
  clear hs_ ha_; unfold execEccSelftest at h_
  try dsimp only at h_
  all_goals first | with_reducible exact Keeps.of_fault h_ | (with_reducible obtain rfl := Host.Outcome.next.inj h_) | skip
  repeat' first
    | with_reducible exact Keeps.refl _ _
    | with_reducible apply eccSelftest_keeps
    | with_reducible refine inSelftest_keeps (fun _ => ?_) ?_ ?_
    | with_reducible refine whileAlive_keeps (fun _ => ?_) ?_
    | with_reducible refine Keeps.ite ?_ ?_
    | (show (_ : List Area) ⊆ _; decide)
    | split
    | dsimp only

theorem calibrationApply_keeps {A_ : List Area} {s_ : State} {s : State}
    (ha_ : [.boot] ⊆ A_) (hs_ : Keeps A_ s_ s) : Keeps A_ s_ (calibrationApply s) := by
  refine Keeps.comp ?_ ha_ hs_
  clear hs_ ha_; unfold calibrationApply
  try dsimp only
  repeat' first
    | with_reducible exact Keeps.refl _ _
    | with_reducible refine Keeps.foldl (fun _ _ => ?_) _ ?_
    | with_reducible refine Keeps.ite ?_ ?_
    | exact Or.inr (by decide)
    | with_reducible exact Or.inl rfl
    | (show (_ : List Area) ⊆ _; decide)
    | split
    | with_reducible apply Keeps.mk
    | dsimp only
    | exact Or.inl rfl

theorem execCalibrationApply_keeps {A_ : List Area} {s_ t_ : State} {s : State} (h_ : execCalibrationApply s = .next t_)
    (ha_ : [.nid, .boot, .sbd] ⊆ A_) (hs_ : Keeps A_ s_ s) : Keeps A_ s_ t_ := by
  refine Keeps.comp ?_ ha_ hs_
  clear hs_ ha_; unfold execCalibrationApply at h_
  try dsimp only at h_
  all_goals first | with_reducible exact Keeps.of_fault h_ | (with_reducible obtain rfl := Host.Outcome.next.inj h_) | skip
  repeat' first
    | with_reducible exact Keeps.refl _ _
    | with_reducible apply calibrationApply_keeps
    | with_reducible refine inSelftest_keeps (fun _ => ?_) ?_ ?_
    | with_reducible refine whileAlive_keeps (fun _ => ?_) ?_
    | with_reducible refine Keeps.ite ?_ ?_
    | (show (_ : List Area) ⊆ _; decide)
    | split
    | dsimp only

theorem giveColumns_keeps {A_ : List Area} {s_ : State} {p : Nat} {x : Part} {s : State}
    (ha_ : [.arr] ⊆ A_) (hs_ : Keeps A_ s_ s) : Keeps A_ s_ (giveColumns p x s) := by
  refine Keeps.comp ?_ ha_ hs_
  clear hs_ ha_; unfold giveColumns
  try dsimp only
  repeat' first
    | with_reducible exact Keeps.refl _ _
    | with_reducible apply State.setCol_keeps
    | with_reducible refine Keeps.foldl (fun _ _ => ?_) _ ?_
    | with_reducible refine Keeps.ite ?_ ?_
    | exact Or.inr (by decide)
    | with_reducible exact Or.inl rfl
    | (show (_ : List Area) ⊆ _; decide)
    | split
    | with_reducible apply Keeps.mk
    | dsimp only
    | exact Or.inl rfl

theorem partitionLoad_keeps {A_ : List Area} {s_ : State} {s : State}
    (ha_ : [.nid, .cfg, .parts, .ports, .arr, .pwr] ⊆ A_) (hs_ : Keeps A_ s_ s) : Keeps A_ s_ (partitionLoad s) := by
  refine Keeps.comp ?_ ha_ hs_
  clear hs_ ha_; unfold partitionLoad
  try dsimp only
  repeat' first
    | with_reducible exact Keeps.refl _ _
    | with_reducible apply giveColumns_keeps
    | with_reducible apply State.setCol_keeps
    | with_reducible apply State.setPort_keeps
    | with_reducible apply State.setPart_keeps
    | with_reducible refine Keeps.foldl (fun _ _ => ?_) _ ?_
    | with_reducible refine Keeps.ite ?_ ?_
    | exact Or.inr (by decide)
    | with_reducible exact Or.inl rfl
    | (show (_ : List Area) ⊆ _; decide)
    | split
    | with_reducible apply Keeps.mk
    | dsimp only
    | exact Or.inl rfl

theorem execPartitionLoad_keeps {A_ : List Area} {s_ t_ : State} {s : State} (h_ : execPartitionLoad s = .next t_)
    (ha_ : [.nid, .cfg, .parts, .ports, .arr, .pwr, .sbd] ⊆ A_) (hs_ : Keeps A_ s_ s) : Keeps A_ s_ t_ := by
  refine Keeps.comp ?_ ha_ hs_
  clear hs_ ha_; unfold execPartitionLoad at h_
  try dsimp only at h_
  all_goals first | with_reducible exact Keeps.of_fault h_ | (with_reducible obtain rfl := Host.Outcome.next.inj h_) | skip
  repeat' first
    | with_reducible exact Keeps.refl _ _
    | with_reducible apply partitionLoad_keeps
    | with_reducible refine inSelftest_keeps (fun _ => ?_) ?_ ?_
    | with_reducible refine whileAlive_keeps (fun _ => ?_) ?_
    | with_reducible refine Keeps.ite ?_ ?_
    | (show (_ : List Area) ⊆ _; decide)
    | split
    | dsimp only

theorem loadPair_keeps {A_ : List Area} {s_ : State} {p : Nat × Word} {s : State}
    (ha_ : [.insts, .streams] ⊆ A_) (hs_ : Keeps A_ s_ s) : Keeps A_ s_ (loadPair p s) := by
  refine Keeps.comp ?_ ha_ hs_
  clear hs_ ha_; unfold loadPair
  try dsimp only
  repeat' first
    | with_reducible exact Keeps.refl _ _
    | with_reducible apply State.putBoth_keeps
    | with_reducible apply State.setStream_keeps
    | with_reducible refine Keeps.ite ?_ ?_
    | exact Or.inr (by decide)
    | with_reducible exact Or.inl rfl
    | (show (_ : List Area) ⊆ _; decide)
    | split
    | with_reducible apply Keeps.mk
    | dsimp only
    | exact Or.inl rfl

theorem tablesLoad_keeps {A_ : List Area} {s_ : State} {s : State}
    (ha_ : [.insts, .streams, .boot] ⊆ A_) (hs_ : Keeps A_ s_ s) : Keeps A_ s_ (tablesLoad s) := by
  refine Keeps.comp ?_ ha_ hs_
  clear hs_ ha_; unfold tablesLoad
  try dsimp only
  repeat' first
    | with_reducible exact Keeps.refl _ _
    | with_reducible apply loadPair_keeps
    | with_reducible refine Keeps.foldl (fun _ _ => ?_) _ ?_
    | exact Or.inr (by decide)
    | with_reducible exact Or.inl rfl
    | (show (_ : List Area) ⊆ _; decide)
    | with_reducible apply Keeps.mk
    | dsimp only
    | exact Or.inl rfl

theorem execTablesLoad_keeps {A_ : List Area} {s_ t_ : State} {s : State} (h_ : execTablesLoad s = .next t_)
    (ha_ : [.insts, .nid, .streams, .boot, .sbd] ⊆ A_) (hs_ : Keeps A_ s_ s) : Keeps A_ s_ t_ := by
  refine Keeps.comp ?_ ha_ hs_
  clear hs_ ha_; unfold execTablesLoad at h_
  try dsimp only at h_
  all_goals first | with_reducible exact Keeps.of_fault h_ | (with_reducible obtain rfl := Host.Outcome.next.inj h_) | skip
  repeat' first
    | with_reducible exact Keeps.refl _ _
    | with_reducible apply tablesLoad_keeps
    | with_reducible refine inSelftest_keeps (fun _ => ?_) ?_ ?_
    | with_reducible refine whileAlive_keeps (fun _ => ?_) ?_
    | (show (_ : List Area) ⊆ _; decide)

theorem portsOpen_keeps {A_ : List Area} {s_ : State} {ms : Nat} {s : State}
    (ha_ : [.ports, .boot] ⊆ A_) (hs_ : Keeps A_ s_ s) : Keeps A_ s_ (portsOpen ms s) := by
  refine Keeps.comp ?_ ha_ hs_
  clear hs_ ha_; unfold portsOpen
  try dsimp only
  repeat' first
    | with_reducible exact Keeps.refl _ _
    | with_reducible apply toDetect_keeps
    | with_reducible apply State.setPort_keeps
    | with_reducible refine Keeps.foldl (fun _ _ => ?_) _ ?_
    | with_reducible refine Keeps.ite ?_ ?_
    | exact Or.inr (by decide)
    | with_reducible exact Or.inl rfl
    | (show (_ : List Area) ⊆ _; decide)
    | split
    | with_reducible apply Keeps.mk
    | dsimp only
    | exact Or.inl rfl

theorem execPortsOpen_keeps {A_ : List Area} {s_ t_ : State} {ms : Nat} {s : State} (h_ : execPortsOpen ms s = .next t_)
    (ha_ : [.ports, .boot] ⊆ A_) (hs_ : Keeps A_ s_ s) : Keeps A_ s_ t_ := by
  refine Keeps.comp ?_ ha_ hs_
  clear hs_ ha_; unfold execPortsOpen at h_
  try dsimp only at h_
  all_goals first | with_reducible exact Keeps.of_fault h_ | (with_reducible obtain rfl := Host.Outcome.next.inj h_) | skip
  repeat' first
    | with_reducible exact Keeps.refl _ _
    | with_reducible apply portsOpen_keeps
    | with_reducible refine Keeps.ite ?_ ?_
    | (show (_ : List Area) ⊆ _; decide)
    | split
    | dsimp only

theorem designFailed_keeps {A_ : List Area} {s_ : State} {cols : List Nat} {s : State}
    (ha_ : [.arr, .boot] ⊆ A_) (hs_ : Keeps A_ s_ s) : Keeps A_ s_ (designFailed cols s) := by
  refine Keeps.comp ?_ ha_ hs_
  clear hs_ ha_; unfold designFailed
  try dsimp only
  repeat' first
    | with_reducible exact Keeps.refl _ _
    | with_reducible apply wipeColumn_keeps
    | with_reducible apply dropLoader_keeps
    | with_reducible refine Keeps.foldl (fun _ _ => ?_) _ ?_
    | with_reducible refine Keeps.ite ?_ ?_
    | exact Or.inr (by decide)
    | with_reducible exact Or.inl rfl
    | (show (_ : List Area) ⊆ _; decide)
    | split
    | with_reducible apply Keeps.mk
    | dsimp only
    | exact Or.inl rfl

theorem designLoad_keeps {A_ : List Area} {s_ : State} {s : State}
    (ha_ : [.ports, .xpt, .til, .dram, .dir, .eng, .arr, .boot] ⊆ A_) (hs_ : Keeps A_ s_ s) : Keeps A_ s_ (designLoad s) := by
  refine Keeps.comp ?_ ha_ hs_
  clear hs_ ha_; unfold designLoad
  try dsimp only
  repeat' first
    | with_reducible exact Keeps.refl _ _
    | with_reducible apply designFailed_keeps
    | with_reducible apply runStream_keeps
    | with_reducible apply dropLoader_keeps
    | with_reducible apply State.setCol_keeps
    | with_reducible refine Keeps.foldl (fun _ _ => ?_) _ ?_
    | with_reducible refine Keeps.ite ?_ ?_
    | exact Or.inr (by decide)
    | with_reducible exact Or.inl rfl
    | (show (_ : List Area) ⊆ _; decide)
    | split
    | with_reducible apply Keeps.mk
    | dsimp only
    | exact Or.inl rfl

theorem execSedgeDesignLoad_keeps {A_ : List Area} {s_ t_ : State} {s : State} (h_ : execSedgeDesignLoad s = .next t_)
    (ha_ : [.ports, .xpt, .til, .dram, .dir, .eng, .arr, .boot] ⊆ A_) (hs_ : Keeps A_ s_ s) : Keeps A_ s_ t_ := by
  refine Keeps.comp ?_ ha_ hs_
  clear hs_ ha_; unfold execSedgeDesignLoad at h_
  try dsimp only at h_
  all_goals first | with_reducible exact Keeps.of_fault h_ | (with_reducible obtain rfl := Host.Outcome.next.inj h_) | skip
  repeat' first
    | with_reducible exact Keeps.refl _ _
    | with_reducible apply designLoad_keeps
    | with_reducible refine whileAlive_keeps (fun _ => ?_) ?_
    | with_reducible refine Keeps.ite ?_ ?_
    | (show (_ : List Area) ⊆ _; decide)
    | split
    | dsimp only

theorem recordMapouts_keeps {A_ : List Area} {s_ : State} {s : State}
    (ha_ : [.hosts, .flt, .sbd, .out] ⊆ A_) (hs_ : Keeps A_ s_ s) : Keeps A_ s_ (recordMapouts s) := by
  refine Keeps.comp ?_ ha_ hs_
  clear hs_ ha_; unfold recordMapouts
  try dsimp only
  repeat' first
    | with_reducible exact Keeps.refl _ _
    | with_reducible apply recordFault_keeps
    | with_reducible refine Keeps.foldl (fun _ _ => ?_) _ ?_
    | with_reducible refine Keeps.ite ?_ ?_
    | (show (_ : List Area) ⊆ _; decide)
    | split
    | dsimp only

theorem openCredits_keeps {A_ : List Area} {s_ : State} {s : State}
    (ha_ : [.ports] ⊆ A_) (hs_ : Keeps A_ s_ s) : Keeps A_ s_ (openCredits s) := by
  refine Keeps.comp ?_ ha_ hs_
  clear hs_ ha_; unfold openCredits
  try dsimp only
  repeat' first
    | with_reducible exact Keeps.refl _ _
    | with_reducible apply State.setPort_keeps
    | with_reducible refine Keeps.foldl (fun _ _ => ?_) _ ?_
    | with_reducible refine Keeps.ite ?_ ?_
    | exact Or.inr (by decide)
    | with_reducible exact Or.inl rfl
    | (show (_ : List Area) ⊆ _; decide)
    | split
    | with_reducible apply Keeps.mk
    | dsimp only
    | exact Or.inl rfl

theorem startRamps_keeps {A_ : List Area} {s_ : State} {s : State}
    (ha_ : [.streams] ⊆ A_) (hs_ : Keeps A_ s_ s) : Keeps A_ s_ (startRamps s) := by
  refine Keeps.comp ?_ ha_ hs_
  clear hs_ ha_; unfold startRamps
  try dsimp only
  repeat' first
    | with_reducible exact Keeps.refl _ _
    | with_reducible refine Keeps.ite ?_ ?_
    | exact Or.inr (by decide)
    | with_reducible exact Or.inl rfl
    | (show (_ : List Area) ⊆ _; decide)
    | split
    | with_reducible apply Keeps.mk
    | dsimp only
    | exact Or.inl rfl

theorem endRetry_keeps {A_ : List Area} {s_ : State} {s : State}
    (ha_ : [.hosts] ⊆ A_) (hs_ : Keeps A_ s_ s) : Keeps A_ s_ (endRetry s) := by
  refine Keeps.comp ?_ ha_ hs_
  clear hs_ ha_; unfold endRetry
  try dsimp only
  repeat' first
    | with_reducible exact Keeps.refl _ _
    | with_reducible apply State.setHost_keeps
    | with_reducible refine Keeps.foldl (fun _ _ => ?_) _ ?_
    | with_reducible refine Keeps.ite ?_ ?_
    | exact Or.inr (by decide)
    | with_reducible exact Or.inl rfl
    | (show (_ : List Area) ⊆ _; decide)
    | split
    | with_reducible apply Keeps.mk
    | dsimp only
    | exact Or.inl rfl

theorem enterService_keeps {A_ : List Area} {s_ : State} {ms : Nat} {s : State}
    (ha_ : [.nid, .streams, .serialNo, .ports, .xpt, .til, .sec, .hosts, .flt, .boot, .sbd, .out] ⊆ A_) (hs_ : Keeps A_ s_ s) : Keeps A_ s_ (enterService ms s) := by
  refine Keeps.comp ?_ ha_ hs_
  clear hs_ ha_; unfold enterService
  try dsimp only
  repeat' first
    | with_reducible exact Keeps.refl _ _
    | with_reducible apply endRetry_keeps
    | with_reducible apply startRamps_keeps
    | with_reducible apply openCredits_keeps
    | with_reducible apply recordMapouts_keeps
    | with_reducible apply armWindow_keeps
    | with_reducible refine Keeps.ite ?_ ?_
    | exact Or.inr (by decide)
    | with_reducible exact Or.inl rfl
    | (show (_ : List Area) ⊆ _; decide)
    | split
    | with_reducible apply Keeps.mk
    | dsimp only
    | exact Or.inl rfl

theorem execEnterService_keeps {A_ : List Area} {s_ t_ : State} {ms : Nat} {s : State} (h_ : execEnterService ms s = .next t_)
    (ha_ : [.nid, .streams, .serialNo, .ports, .xpt, .til, .sec, .hosts, .flt, .boot, .sbd, .out] ⊆ A_) (hs_ : Keeps A_ s_ s) : Keeps A_ s_ t_ := by
  refine Keeps.comp ?_ ha_ hs_
  clear hs_ ha_; unfold execEnterService at h_
  try dsimp only at h_
  all_goals first | with_reducible exact Keeps.of_fault h_ | (with_reducible obtain rfl := Host.Outcome.next.inj h_) | skip
  repeat' first
    | with_reducible exact Keeps.refl _ _
    | with_reducible apply enterService_keeps
    | with_reducible refine Keeps.ite ?_ ?_
    | (show (_ : List Area) ⊆ _; decide)
    | split
    | dsimp only

theorem healthPass_keeps {A_ : List Area} {s_ : State} {s : State}
    (ha_ : [.boot] ⊆ A_) (hs_ : Keeps A_ s_ s) : Keeps A_ s_ (healthPass s) := by
  refine Keeps.comp ?_ ha_ hs_
  clear hs_ ha_; unfold healthPass
  try dsimp only
  repeat' first
    | with_reducible exact Keeps.refl _ _
    | with_reducible refine Keeps.ite ?_ ?_
    | exact Or.inr (by decide)
    | with_reducible exact Or.inl rfl
    | (show (_ : List Area) ⊆ _; decide)
    | split
    | with_reducible apply Keeps.mk
    | dsimp only
    | exact Or.inl rfl

theorem execHealthCheckPass_keeps {A_ : List Area} {s_ t_ : State} {s : State} (h_ : execHealthCheckPass s = .next t_)
    (ha_ : [.boot] ⊆ A_) (hs_ : Keeps A_ s_ s) : Keeps A_ s_ t_ := by
  refine Keeps.comp ?_ ha_ hs_
  clear hs_ ha_; unfold execHealthCheckPass at h_
  try dsimp only at h_
  all_goals first | with_reducible exact Keeps.of_fault h_ | (with_reducible obtain rfl := Host.Outcome.next.inj h_) | skip
  repeat' first
    | with_reducible exact Keeps.refl _ _
    | with_reducible apply healthPass_keeps
    | with_reducible refine whileAlive_keeps (fun _ => ?_) ?_
    | (show (_ : List Area) ⊆ _; decide)

theorem execConfigRetryEnd_keeps {A_ : List Area} {s_ t_ : State} {hp : Fin 4} {s : State} (h_ : execConfigRetryEnd hp s = .next t_)
    (ha_ : [.hosts] ⊆ A_) (hs_ : Keeps A_ s_ s) : Keeps A_ s_ t_ := by
  refine Keeps.comp ?_ ha_ hs_
  clear hs_ ha_; unfold execConfigRetryEnd at h_
  try dsimp only at h_
  all_goals first | with_reducible exact Keeps.of_fault h_ | (with_reducible obtain rfl := Host.Outcome.next.inj h_) | skip
  repeat' first
    | with_reducible exact Keeps.refl _ _
    | with_reducible apply State.setHost_keeps
    | with_reducible refine Keeps.ite ?_ ?_
    | exact Or.inr (by decide)
    | with_reducible exact Or.inl rfl
    | (show (_ : List Area) ⊆ _; decide)
    | split
    | with_reducible apply Keeps.mk
    | dsimp only
    | exact Or.inl rfl

end Sys2Proof.Machine
end

