-- ==== Sys2Proof/Laws/Frame/Flags.lean ====
section
/-! SUPPORT. The frame of every operation of Machine/Flags.lean: the areas it may change, and that pool memory keeps its canonical form. -/

namespace Sys2Proof.Machine

set_option linter.unusedTactic false
set_option linter.unreachableTactic false
set_option linter.unusedVariables false

theorem mbxIllegal_keeps {A_ : List Area} {s_ : State} {hp : Fin 4} {s : State}
    (ha_ : [.hosts] ⊆ A_) (hs_ : Keeps A_ s_ s) : Keeps A_ s_ (mbxIllegal hp s) := by
  refine Keeps.comp ?_ ha_ hs_
  clear hs_ ha_; unfold mbxIllegal
  try dsimp only
  repeat' first
    | with_reducible exact Keeps.refl _ _
    | with_reducible apply State.setHost_keeps
    | exact Or.inr (by decide)
    | with_reducible exact Or.inl rfl
    | (show (_ : List Area) ⊆ _; decide)
    | with_reducible apply Keeps.mk
    | dsimp only
    | exact Or.inl rfl

theorem illegal_keeps {A_ : List Area} {s_ : State} {hp : Fin 4} {b : Blk} {s : State}
    (ha_ : [.crs, .nid, .pttStatus, .ports, .xpt, .msh, .til, .dram, .dir, .eng, .arr, .sec, .hosts, .flt, .boot, .sbd] ⊆ A_) (hs_ : Keeps A_ s_ s) : Keeps A_ s_ (illegal hp b s) := by
  refine Keeps.comp ?_ ha_ hs_
  clear hs_ ha_; unfold illegal
  try dsimp only
  repeat' first
    | with_reducible exact Keeps.refl _ _
    | with_reducible apply mbxIllegal_keeps
    | with_reducible apply portEv_keeps
    | with_reducible apply State.setTier_keeps
    | exact Or.inr (by decide)
    | with_reducible exact Or.inl rfl
    | (show (_ : List Area) ⊆ _; decide)
    | split
    | with_reducible apply Keeps.mk
    | dsimp only
    | exact Or.inl rfl

end Sys2Proof.Machine
end

