-- ==== Sys2Proof/Laws/Frame/Mesh.lean ====
section
/-! SUPPORT. The frame of every operation of Machine/Mesh.lean: the areas it may change, and that pool memory keeps its canonical form. -/

namespace Sys2Proof.Machine

set_option linter.unusedTactic false
set_option linter.unreachableTactic false
set_option linter.unusedVariables false

theorem meshSelftest_keeps {A_ : List Area} {s_ : State} {failed : List (Fin 192)} {repeater : Bool} {s : State}
    (ha_ : [.nid, .tenants, .ports, .msh, .flt, .boot, .sbd, .out] ⊆ A_) (hs_ : Keeps A_ s_ s) : Keeps A_ s_ (meshSelftest failed repeater s) := by
  refine Keeps.comp ?_ ha_ hs_
  clear hs_ ha_; unfold meshSelftest
  try dsimp only
  repeat' first
    | with_reducible exact Keeps.refl _ _
    | with_reducible apply enterFatal_keeps
    | with_reducible refine Keeps.ite ?_ ?_
    | exact Or.inr (by decide)
    | with_reducible exact Or.inl rfl
    | (show (_ : List Area) ⊆ _; decide)
    | split
    | with_reducible apply Keeps.mk
    | dsimp only
    | exact Or.inl rfl

theorem execMeshSelftest_keeps {A_ : List Area} {s_ t_ : State} {failed : List (Fin 192)} {repeater : Bool} {s : State} (h_ : execMeshSelftest failed repeater s = .next t_)
    (ha_ : [.nid, .tenants, .ports, .msh, .flt, .boot, .sbd, .out] ⊆ A_) (hs_ : Keeps A_ s_ s) : Keeps A_ s_ t_ := by
  refine Keeps.comp ?_ ha_ hs_
  clear hs_ ha_; unfold execMeshSelftest at h_
  try dsimp only at h_
  all_goals first | with_reducible exact Keeps.of_fault h_ | (with_reducible obtain rfl := Host.Outcome.next.inj h_) | skip
  repeat' first
    | with_reducible exact Keeps.refl _ _
    | with_reducible apply meshSelftest_keeps
    | with_reducible refine inSelftest_keeps (fun _ => ?_) ?_ ?_
    | with_reducible refine whileAlive_keeps (fun _ => ?_) ?_
    | (show (_ : List Area) ⊆ _; decide)

theorem unthrottle_keeps {A_ : List Area} {s_ : State} {k : Nat} {s : State}
    (ha_ : [.msh] ⊆ A_) (hs_ : Keeps A_ s_ s) : Keeps A_ s_ (unthrottle k s) := by
  refine Keeps.comp ?_ ha_ hs_
  clear hs_ ha_; unfold unthrottle
  try dsimp only
  repeat' first
    | with_reducible exact Keeps.refl _ _
    | with_reducible refine Keeps.ite ?_ ?_
    | exact Or.inr (by decide)
    | with_reducible exact Or.inl rfl
    | (show (_ : List Area) ⊆ _; decide)
    | split
    | with_reducible apply Keeps.mk
    | dsimp only
    | exact Or.inl rfl

theorem countDefl_keeps {A_ : List Area} {s_ : State} {st : Nat} {pl : Plane} {s : State}
    (ha_ : [.msh] ⊆ A_) (hs_ : Keeps A_ s_ s) : Keeps A_ s_ (countDefl st pl s) := by
  refine Keeps.comp ?_ ha_ hs_
  clear hs_ ha_; unfold countDefl
  try dsimp only
  repeat' first
    | with_reducible exact Keeps.refl _ _
    | with_reducible apply unthrottle_keeps
    | with_reducible refine Keeps.ite ?_ ?_
    | exact Or.inr (by decide)
    | with_reducible exact Or.inl rfl
    | (show (_ : List Area) ⊆ _; decide)
    | split
    | with_reducible apply Keeps.mk
    | dsimp only
    | exact Or.inl rfl

theorem setThrottle_keeps {A_ : List Area} {s_ : State} {w : Word} {s : State}
    (ha_ : [.msh] ⊆ A_) (hs_ : Keeps A_ s_ s) : Keeps A_ s_ (setThrottle w s) := by
  refine Keeps.comp ?_ ha_ hs_
  clear hs_ ha_; unfold setThrottle
  try dsimp only
  repeat' first
    | with_reducible exact Keeps.refl _ _
    | with_reducible apply unthrottle_keeps
    | with_reducible refine Keeps.foldl (fun _ _ => ?_) _ ?_
    | exact Or.inr (by decide)
    | with_reducible exact Or.inl rfl
    | (show (_ : List Area) ⊆ _; decide)
    | with_reducible apply Keeps.mk
    | dsimp only
    | exact Or.inl rfl

theorem sendLink_keeps {A_ : List Area} {s_ : State} {st : Fin 192} {pl : Plane} {d : Dir} {p : MeshPkt} {s : State}
    (ha_ : [.msh, .out] ⊆ A_) (hs_ : Keeps A_ s_ s) : Keeps A_ s_ (sendLink st pl d p s) := by
  refine Keeps.comp ?_ ha_ hs_
  clear hs_ ha_; unfold sendLink
  try dsimp only
  repeat' first
    | with_reducible exact Keeps.refl _ _
    | with_reducible apply State.emit_keeps
    | with_reducible refine Keeps.ite ?_ ?_
    | exact Or.inr (by decide)
    | with_reducible exact Or.inl rfl
    | (show (_ : List Area) ⊆ _; decide)
    | split
    | with_reducible apply Keeps.mk
    | dsimp only
    | exact Or.inl rfl

theorem place_keeps {A_ : List Area} {s_ : State} {st : Fin 192} {pl : Plane} {count : Bool} {p : MeshPkt} {links : List Dir} {s : State}
    (ha_ : [.serialNo, .msh, .out] ⊆ A_) (hs_ : Keeps A_ s_ s) : Keeps A_ s_ (place st pl count p links s).2 := by
  refine Keeps.comp ?_ ha_ hs_
  clear hs_ ha_; unfold place
  try dsimp only
  repeat' first
    | with_reducible exact Keeps.refl _ _
    | with_reducible apply sendLink_keeps
    | with_reducible apply countDefl_keeps
    | with_reducible refine Keeps.ite ?_ ?_
    | exact Or.inr (by decide)
    | with_reducible exact Or.inl rfl
    | (show (_ : List Area) ⊆ _; decide)
    | split
    | with_reducible apply Keeps.mk
    | dsimp only
    | exact Or.inl rfl

theorem drainEarly_keeps {A_ : List Area} {st : Fin 192} {pl : Plane} {src : Fin 192} (n : Nat) : ∀ {s_ s : State}, [.msh, .out] ⊆ A_ → Keeps A_ s_ s →
    Keeps A_ s_ (drainEarly st pl src n s) := by
  induction n with
  | zero => intro s_ s _ h; exact h
  | succ n ih =>
    intro s_ s ha h
    unfold drainEarly
    dsimp only
    split
    · exact h
    · refine ih ha (State.emit_keeps (List.Subset.trans (by decide) ha) ?_)
      refine Keeps.comp (B := [.msh, .out]) ?_ ha h
      with_reducible apply Keeps.mk
      all_goals first | exact Keeps.refl _ _ | with_reducible exact Or.inl rfl | exact Or.inr (by decide)

theorem eject_keeps {A_ : List Area} {s_ t_ : State} {st : Fin 192} {pl : Plane} {full : Bool} {p : MeshPkt} {s : State} (h_ : eject st pl full p s = some t_)
    (ha_ : [.msh, .out] ⊆ A_) (hs_ : Keeps A_ s_ s) : Keeps A_ s_ t_ := by
  refine Keeps.comp ?_ ha_ hs_
  clear hs_ ha_; unfold eject at h_
  try dsimp only at h_
  repeat' (split at h_)
  all_goals first | with_reducible exact Keeps.of_none h_ | (with_reducible obtain rfl := Option.some.inj h_) | skip
  repeat' first
    | with_reducible exact Keeps.refl _ _
    | with_reducible apply drainEarly_keeps
    | with_reducible apply State.emit_keeps
    | with_reducible refine Keeps.ite ?_ ?_
    | exact Or.inr (by decide)
    | with_reducible exact Or.inl rfl
    | (show (_ : List Area) ⊆ _; decide)
    | split
    | with_reducible apply Keeps.mk
    | dsimp only
    | exact Or.inl rfl

theorem checkPkt_keeps {A_ : List Area} {s_ : State} {m : MeshIn} {s : State}
    (ha_ : [.msh] ⊆ A_) (hs_ : Keeps A_ s_ s) : Keeps A_ s_ (checkPkt m s).2 := by
  refine Keeps.comp ?_ ha_ hs_
  clear hs_ ha_; unfold checkPkt
  try dsimp only
  repeat' first
    | with_reducible exact Keeps.refl _ _
    | with_reducible refine Keeps.ite ?_ ?_
    | exact Or.inr (by decide)
    | with_reducible exact Or.inl rfl
    | (show (_ : List Area) ⊆ _; decide)
    | split
    | with_reducible apply Keeps.mk
    | dsimp only
    | exact Or.inl rfl

theorem ejectCopy_keeps {A_ : List Area} {s_ : State} {st : Fin 192} {m : MeshPkt} {s : State}
    (ha_ : [.out] ⊆ A_) (hs_ : Keeps A_ s_ s) : Keeps A_ s_ (ejectCopy st m s) := by
  refine Keeps.comp ?_ ha_ hs_
  clear hs_ ha_; unfold ejectCopy
  try dsimp only
  repeat' first
    | with_reducible exact Keeps.refl _ _
    | with_reducible apply State.emit_keeps
    | with_reducible refine Keeps.ite ?_ ?_
    | (show (_ : List Area) ⊆ _; decide)
    | split
    | dsimp only

theorem passMulti_keeps {A_ : List Area} {s_ : State} {st : Fin 192} {pl : Plane} {m : MeshPkt} {links : List Dir} {s : State}
    (ha_ : [.msh, .out] ⊆ A_) (hs_ : Keeps A_ s_ s) : Keeps A_ s_ (passMulti st pl m links s).2 := by
  refine Keeps.comp ?_ ha_ hs_
  clear hs_ ha_; unfold passMulti
  try dsimp only
  repeat' first
    | with_reducible exact Keeps.refl _ _
    | with_reducible apply ejectCopy_keeps
    | with_reducible apply sendLink_keeps
    | with_reducible refine Keeps.ite ?_ ?_
    | (show (_ : List Area) ⊆ _; decide)
    | split
    | dsimp only

theorem passCourse_keeps {A_ : List Area} {s_ : State} {st : Fin 192} {m : MeshPkt} {links : List Dir} {s : State}
    (ha_ : [.msh, .out] ⊆ A_) (hs_ : Keeps A_ s_ s) : Keeps A_ s_ (passCourse st m links s).2 := by
  have go : ∀ (l : List Dir) (x : List Dir × State), Keeps A_ s_ x.2 → Keeps A_ s_ (l.foldl (fun x d =>
      (x.1.erase d, sendLink st .dat d { m with age := m.age + BitVec.ofNat 16 (if courseRelay st.val d then 1 else 0) } x.2)) x).2 := by
    intro l
    induction l with
    | nil => intro x h; exact h
    | cons d r ih => intro x h; exact ih _ (sendLink_keeps (List.Subset.trans (by decide) ha_) h)
  exact go _ _ (ejectCopy_keeps (List.Subset.trans (by decide) ha_) hs_)

theorem routeOne_keeps {A_ : List Area} {st : Fin 192} {pl : Plane} {m : MeshIn} {x : List Dir × Nat × State} {s_ : State}
    (ha_ : [.serialNo, .msh, .out] ⊆ A_) (hs_ : Keeps A_ s_ x.2.2) : Keeps A_ s_ (routeOne st pl m x).2.2 := by
  obtain ⟨links, loc, s⟩ := x
  have k := checkPkt_keeps (m := m) (List.Subset.trans (by decide) ha_) hs_
  unfold routeOne
  dsimp only at k ⊢
  split
  · dsimp only
    split
    · exact passCourse_keeps (List.Subset.trans (by decide) ha_) k
    · exact passMulti_keeps (List.Subset.trans (by decide) ha_) k
  · split
    case _ s1 e =>
      split at e
      · exact eject_keeps e (List.Subset.trans (by decide) ha_) k
      · cases e
    case _ e => exact place_keeps (List.Subset.trans (by decide) ha_) k

theorem meshArrive_keeps {A_ : List Area} {s_ : State} {st : Fin 192} {pl : Plane} {ps : List MeshIn} {s : State}
    (ha_ : [.nid, .tenants, .serialNo, .ports, .msh, .flt, .sbd, .out] ⊆ A_) (hs_ : Keeps A_ s_ s) : Keeps A_ s_ (meshArrive st pl ps s) := by
  have go : ∀ (l : List MeshIn) (x : List Dir × Nat × State), Keeps A_ s_ x.2.2 →
      Keeps A_ s_ (l.foldl (fun x m => routeOne st pl m x) x).2.2 := by
    intro l
    induction l with
    | nil => intro x h; exact h
    | cons m r ih => intro x h; exact ih _ (routeOne_keeps (List.Subset.trans (by decide) ha_) h)
  unfold meshArrive
  exact Keeps.ite (enterFatal_keeps (List.Subset.trans (by decide) ha_) hs_) (Keeps.ite hs_ (go _ _ hs_))

theorem execMeshPacketArrive_keeps {A_ : List Area} {s_ t_ : State} {st : Fin 192} {pl : Plane} {ps : List MeshIn} {s : State} (h_ : execMeshPacketArrive st pl ps s = .next t_)
    (ha_ : [.nid, .tenants, .serialNo, .ports, .msh, .flt, .sbd, .out] ⊆ A_) (hs_ : Keeps A_ s_ s) : Keeps A_ s_ t_ := by
  refine Keeps.comp ?_ ha_ hs_
  clear hs_ ha_; unfold execMeshPacketArrive at h_
  try dsimp only at h_
  split at h_
  all_goals first | with_reducible exact Keeps.of_fault h_ | (with_reducible obtain rfl := Host.Outcome.next.inj h_) | skip
  repeat' first
    | with_reducible exact Keeps.refl _ _
    | with_reducible apply meshArrive_keeps
    | with_reducible refine Keeps.ite ?_ ?_
    | (show (_ : List Area) ⊆ _; decide)
    | split
    | dsimp only

theorem meshMulticast_keeps {A_ : List Area} {s_ : State} {row : Bool} {line : Fin 16} {mask : BitVec 16} {p : MeshPkt} {s : State}
    (ha_ : [.msh, .out] ⊆ A_) (hs_ : Keeps A_ s_ s) : Keeps A_ s_ (meshMulticast row line mask p s) := by
  refine Keeps.comp ?_ ha_ hs_
  clear hs_ ha_; unfold meshMulticast
  try dsimp only
  repeat' first
    | with_reducible exact Keeps.refl _ _
    | with_reducible apply ejectCopy_keeps
    | with_reducible refine Keeps.foldl (fun _ _ => ?_) _ ?_
    | with_reducible refine Keeps.ite ?_ ?_
    | exact Or.inr (by decide)
    | with_reducible exact Or.inl rfl
    | (show (_ : List Area) ⊆ _; decide)
    | split
    | with_reducible apply Keeps.mk
    | dsimp only
    | exact Or.inl rfl

theorem execMeshMulticast_keeps {A_ : List Area} {s_ t_ : State} {row : Bool} {line : Fin 16} {mask : BitVec 16} {pkt : MeshPkt} {s : State} (h_ : execMeshMulticast row line mask pkt s = .next t_)
    (ha_ : [.msh, .out] ⊆ A_) (hs_ : Keeps A_ s_ s) : Keeps A_ s_ t_ := by
  refine Keeps.comp ?_ ha_ hs_
  clear hs_ ha_; unfold execMeshMulticast at h_
  try dsimp only at h_
  split at h_
  all_goals first | with_reducible exact Keeps.of_fault h_ | (with_reducible obtain rfl := Host.Outcome.next.inj h_) | skip
  repeat' first
    | with_reducible exact Keeps.refl _ _
    | with_reducible apply meshMulticast_keeps
    | with_reducible refine whileAlive_keeps (fun _ => ?_) ?_
    | with_reducible refine Keeps.ite ?_ ?_
    | (show (_ : List Area) ⊆ _; decide)
    | split
    | dsimp only

theorem newHeader_keeps {A_ : List Area} {s_ : State} {st : Fin 192} {pl : Plane} {p : MeshPkt} {s : State}
    (ha_ : [.msh] ⊆ A_) (hs_ : Keeps A_ s_ s) : Keeps A_ s_ (newHeader st pl p s).2 := by
  refine Keeps.comp ?_ ha_ hs_
  clear hs_ ha_; unfold newHeader
  try dsimp only
  repeat' first
    | with_reducible exact Keeps.refl _ _
    | exact Or.inr (by decide)
    | with_reducible exact Or.inl rfl
    | (show (_ : List Area) ⊆ _; decide)
    | with_reducible apply Keeps.mk
    | dsimp only
    | exact Or.inl rfl

theorem meshInject_keeps {A_ : List Area} {s_ : State} {st : Fin 192} {pl : Plane} {free : List Dir} {p : MeshPkt} {s : State}
    (ha_ : [.serialNo, .msh, .out] ⊆ A_) (hs_ : Keeps A_ s_ s) : Keeps A_ s_ (meshInject st pl free p s) := by
  refine Keeps.comp ?_ ha_ hs_
  clear hs_ ha_; unfold meshInject
  try dsimp only
  repeat' first
    | with_reducible exact Keeps.refl _ _
    | with_reducible apply newHeader_keeps
    | with_reducible refine Keeps.pair1 (p := newHeader _ _ _ _) (by assumption) ?_
    | with_reducible apply meshMulticast_keeps
    | with_reducible apply place_keeps
    | with_reducible refine Keeps.pair1 (p := place _ _ _ _ _ _) (by assumption) ?_
    | with_reducible apply unthrottle_keeps
    | with_reducible refine Keeps.ite ?_ ?_
    | exact Or.inr (by decide)
    | with_reducible exact Or.inl rfl
    | (show (_ : List Area) ⊆ _; decide)
    | split
    | with_reducible apply Keeps.mk
    | dsimp only
    | exact Or.inl rfl

theorem execMeshInject_keeps {A_ : List Area} {s_ t_ : State} {st : Fin 192} {pl : Plane} {free : List Dir} {pkt : MeshPkt} {s : State} (h_ : execMeshInject st pl free pkt s = .next t_)
    (ha_ : [.serialNo, .msh, .out] ⊆ A_) (hs_ : Keeps A_ s_ s) : Keeps A_ s_ t_ := by
  refine Keeps.comp ?_ ha_ hs_
  clear hs_ ha_; unfold execMeshInject at h_
  try dsimp only at h_
  split at h_
  all_goals first | with_reducible exact Keeps.of_fault h_ | (with_reducible obtain rfl := Host.Outcome.next.inj h_) | skip
  repeat' first
    | with_reducible exact Keeps.refl _ _
    | with_reducible apply meshInject_keeps
    | with_reducible refine whileAlive_keeps (fun _ => ?_) ?_
    | with_reducible refine Keeps.ite ?_ ?_
    | (show (_ : List Area) ⊆ _; decide)
    | split
    | dsimp only

end Sys2Proof.Machine
end

