-- ==== Sys2Proof/Laws/Frame/Faults.lean ====
section
/-! SUPPORT. The frame of every operation of Machine/Faults.lean: the areas it may change, and that pool memory keeps its canonical form. -/

namespace Sys2Proof.Machine

set_option linter.unusedTactic false
set_option linter.unreachableTactic false
set_option linter.unusedVariables false

theorem undoCreates_keeps {A_ : List Area} {s_ : State} {s : State}
    (ha_ : [.tenants, .hosts, .out] ⊆ A_) (hs_ : Keeps A_ s_ s) : Keeps A_ s_ (undoCreates s) := by
  refine Keeps.comp ?_ ha_ hs_
  clear hs_ ha_; unfold undoCreates
  try dsimp only
  repeat' first
    | with_reducible exact Keeps.refl _ _
    | with_reducible apply answer_keeps
    | with_reducible apply State.setTenant_keeps
    | with_reducible refine Keeps.foldl (fun _ _ => ?_) _ ?_
    | with_reducible refine Keeps.ite ?_ ?_
    | (show (_ : List Area) ⊆ _; decide)
    | split
    | dsimp only

theorem spoilSlot_keeps {A_ : List Area} {s_ : State} {a : Nat} {s : State}
    (ha_ : [.serialNo, .boot] ⊆ A_) (hs_ : Keeps A_ s_ s) : Keeps A_ s_ (spoilSlot a s) := by
  refine Keeps.comp ?_ ha_ hs_
  clear hs_ ha_; unfold spoilSlot
  try dsimp only
  repeat' first
    | with_reducible exact Keeps.refl _ _
    | exact Or.inr (by decide)
    | with_reducible exact Or.inl rfl
    | (show (_ : List Area) ⊆ _; decide)
    | split
    | with_reducible apply Keeps.mk
    | dsimp only
    | exact Or.inl rfl

theorem failImageWrite_keeps {A_ : List Area} {s_ : State} {st : Status} {s : State}
    (ha_ : [.serialNo, .hosts, .boot, .out] ⊆ A_) (hs_ : Keeps A_ s_ s) : Keeps A_ s_ (failImageWrite st s) := by
  refine Keeps.comp ?_ ha_ hs_
  clear hs_ ha_; unfold failImageWrite
  try dsimp only
  repeat' first
    | with_reducible exact Keeps.refl _ _
    | with_reducible apply spoilSlot_keeps
    | with_reducible apply answer_keeps
    | exact Or.inr (by decide)
    | with_reducible exact Or.inl rfl
    | (show (_ : List Area) ⊆ _; decide)
    | split
    | with_reducible apply Keeps.mk
    | dsimp only
    | exact Or.inl rfl

theorem dropWork_keeps {A_ : List Area} {s_ : State} {p : Proc} {s : State}
    (ha_ : [.tenants, .serialNo, .hosts, .boot, .out] ⊆ A_) (hs_ : Keeps A_ s_ s) : Keeps A_ s_ (dropWork p s) := by
  refine Keeps.comp ?_ ha_ hs_
  clear hs_ ha_; unfold dropWork
  try dsimp only
  repeat' first
    | with_reducible exact Keeps.refl _ _
    | with_reducible apply failImageWrite_keeps
    | with_reducible apply undoCreates_keeps
    | with_reducible refine Keeps.foldl (fun _ _ => ?_) _ ?_
    | (show (_ : List Area) ⊆ _; decide)
    | split
    | dsimp only

theorem watchdogRestart_keeps {A_ : List Area} {s_ : State} {p : Proc} {hashOk : Bool} {s : State}
    (ha_ : [.tenants, .serialNo, .hosts, .flt, .boot, .sbd, .out] ⊆ A_) (hs_ : Keeps A_ s_ s) : Keeps A_ s_ (watchdogRestart p hashOk s) := by
  refine Keeps.comp ?_ ha_ hs_
  clear hs_ ha_; unfold watchdogRestart
  try dsimp only
  repeat' first
    | with_reducible exact Keeps.refl _ _
    | with_reducible apply dropWork_keeps
    | with_reducible apply recordFault_keeps
    | with_reducible apply State.setWd_keeps
    | with_reducible refine Keeps.ite ?_ ?_
    | exact Or.inr (by decide)
    | with_reducible exact Or.inl rfl
    | (show (_ : List Area) ⊆ _; decide)
    | split
    | with_reducible apply Keeps.mk
    | dsimp only
    | exact Or.inl rfl

theorem execWatchdogExpire_keeps {A_ : List Area} {s_ t_ : State} {p : Proc} {hashOk : Bool} {s : State} (h_ : execWatchdogExpire p hashOk s = .next t_)
    (ha_ : [.tenants, .serialNo, .hosts, .flt, .boot, .sbd, .out] ⊆ A_) (hs_ : Keeps A_ s_ s) : Keeps A_ s_ t_ := by
  refine Keeps.comp ?_ ha_ hs_
  clear hs_ ha_; unfold execWatchdogExpire at h_
  try dsimp only at h_
  all_goals first | with_reducible exact Keeps.of_fault h_ | (with_reducible obtain rfl := Host.Outcome.next.inj h_) | skip
  repeat' first
    | with_reducible exact Keeps.refl _ _
    | with_reducible apply watchdogRestart_keeps
    | with_reducible refine Keeps.ite ?_ ?_
    | (show (_ : List Area) ⊆ _; decide)
    | split
    | dsimp only

theorem restartDone_keeps {A_ : List Area} {s_ : State} {p : Proc} {s : State}
    (ha_ : [.crs, .serialNo, .hosts, .flt, .sbd, .out] ⊆ A_) (hs_ : Keeps A_ s_ s) : Keeps A_ s_ (restartDone p s) := by
  refine Keeps.comp ?_ ha_ hs_
  clear hs_ ha_; unfold restartDone
  try dsimp only
  repeat' first
    | with_reducible exact Keeps.refl _ _
    | with_reducible apply courseSlip_keeps
    | with_reducible apply State.setWd_keeps
    | with_reducible refine Keeps.ite ?_ ?_
    | exact Or.inr (by decide)
    | with_reducible exact Or.inl rfl
    | (show (_ : List Area) ⊆ _; decide)
    | split
    | with_reducible apply Keeps.mk
    | dsimp only
    | exact Or.inl rfl

theorem execProcessorRestartDone_keeps {A_ : List Area} {s_ t_ : State} {p : Proc} {s : State} (h_ : execProcessorRestartDone p s = .next t_)
    (ha_ : [.crs, .serialNo, .hosts, .flt, .sbd, .out] ⊆ A_) (hs_ : Keeps A_ s_ s) : Keeps A_ s_ t_ := by
  refine Keeps.comp ?_ ha_ hs_
  clear hs_ ha_; unfold execProcessorRestartDone at h_
  try dsimp only at h_
  all_goals first | with_reducible exact Keeps.of_fault h_ | (with_reducible obtain rfl := Host.Outcome.next.inj h_) | skip
  repeat' first
    | with_reducible exact Keeps.refl _ _
    | with_reducible apply restartDone_keeps
    | with_reducible refine whileAlive_keeps (fun _ => ?_) ?_
    | (show (_ : List Area) ⊆ _; decide)

theorem partFault_keeps {A_ : List Area} {s_ : State} {t : Nat} {object : Nat} {detail : Nat} {s : State}
    (ha_ : [.parts, .tenants, .eng, .hosts, .flt, .sbd, .out] ⊆ A_) (hs_ : Keeps A_ s_ s) : Keeps A_ s_ (partFault t object detail s) := by
  refine Keeps.comp ?_ ha_ hs_
  clear hs_ ha_; unfold partFault
  try dsimp only
  repeat' first
    | with_reducible exact Keeps.refl _ _
    | with_reducible apply triggerReset_keeps
    | with_reducible apply recordFault_keeps
    | with_reducible refine Keeps.ite ?_ ?_
    | (show (_ : List Area) ⊆ _; decide)
    | split
    | dsimp only

theorem tableFault_keeps {A_ : List Area} {s_ : State} {i : Nat} {k : Nat} {kind : Nat} {entry : Nat} {s : State}
    (ha_ : [.insts, .hosts, .flt, .sbd, .out] ⊆ A_) (hs_ : Keeps A_ s_ s) : Keeps A_ s_ (tableFault i k kind entry s) := by
  refine Keeps.comp ?_ ha_ hs_
  clear hs_ ha_; unfold tableFault
  try dsimp only
  repeat' first
    | with_reducible exact Keeps.refl _ _
    | with_reducible apply recordFault_keeps
    | with_reducible apply State.setInst_keeps
    | exact Or.inr (by decide)
    | with_reducible exact Or.inl rfl
    | (show (_ : List Area) ⊆ _; decide)
    | with_reducible apply Keeps.mk
    | dsimp only
    | exact Or.inl rfl

theorem dirFault_keeps {A_ : List Area} {s_ : State} {slot : Nat} {s : State}
    (ha_ : [.streams, .reqs, .ports, .xpt, .dram, .dir, .hosts, .flt, .sbd, .out] ⊆ A_) (hs_ : Keeps A_ s_ s) : Keeps A_ s_ (dirFault slot s) := by
  refine Keeps.comp ?_ ha_ hs_
  clear hs_ ha_; unfold dirFault
  try dsimp only
  repeat' first
    | with_reducible exact Keeps.refl _ _
    | with_reducible apply settle_keeps
    | with_reducible apply toAgent_keeps
    | with_reducible apply addTrk_keeps
    | with_reducible apply State.setEnt_keeps
    | with_reducible apply recordFault_keeps
    | with_reducible refine Keeps.foldl (fun _ _ => ?_) _ ?_
    | with_reducible refine Keeps.ite ?_ ?_
    | exact Or.inr (by decide)
    | with_reducible exact Or.inl rfl
    | (show (_ : List Area) ⊆ _; decide)
    | split
    | with_reducible apply Keeps.mk
    | dsimp only
    | exact Or.inl rfl

theorem replayFault_keeps {A_ : List Area} {s_ : State} {n : Fin 32} {s : State}
    (ha_ : [.streams, .reqs, .ports, .xpt, .eng, .hosts, .flt, .sbd, .out] ⊆ A_) (hs_ : Keeps A_ s_ s) : Keeps A_ s_ (replayFault n s) := by
  refine Keeps.comp ?_ ha_ hs_
  clear hs_ ha_; unfold replayFault
  try dsimp only
  repeat' first
    | with_reducible exact Keeps.refl _ _
    | with_reducible apply leaveUp_keeps
    | with_reducible refine Keeps.ite ?_ ?_
    | (show (_ : List Area) ⊆ _; decide)
    | split
    | dsimp only

theorem sramFault_keeps {A_ : List Area} {s_ : State} {f : SramFault} {s : State}
    (ha_ : [.insts, .parts, .tenants, .streams, .reqs, .serialNo, .ports, .xpt, .til, .dram, .dir, .eng, .hosts, .flt, .boot, .sbd, .out] ⊆ A_) (hs_ : Keeps A_ s_ s) : Keeps A_ s_ (sramFault f s) := by
  refine Keeps.comp ?_ ha_ hs_
  clear hs_ ha_; unfold sramFault
  try dsimp only
  repeat' first
    | with_reducible exact Keeps.refl _ _
    | with_reducible apply replayFault_keeps
    | with_reducible apply dirFault_keeps
    | with_reducible apply tableFault_keeps
    | with_reducible apply partFault_keeps
    | with_reducible apply watchdogRestart_keeps
    | with_reducible apply bogLost_keeps
    | with_reducible refine Keeps.ite ?_ ?_
    | exact Or.inr (by decide)
    | with_reducible exact Or.inl rfl
    | (show (_ : List Area) ⊆ _; decide)
    | split
    | with_reducible apply Keeps.mk
    | dsimp only
    | exact Or.inl rfl

theorem execSramUncorrectable_keeps {A_ : List Area} {s_ t_ : State} {f : SramFault} {s : State} (h_ : execSramUncorrectable f s = .next t_)
    (ha_ : [.insts, .parts, .tenants, .streams, .reqs, .serialNo, .ports, .xpt, .til, .dram, .dir, .eng, .hosts, .flt, .boot, .sbd, .out] ⊆ A_) (hs_ : Keeps A_ s_ s) : Keeps A_ s_ t_ := by
  refine Keeps.comp ?_ ha_ hs_
  clear hs_ ha_; unfold execSramUncorrectable at h_
  try dsimp only at h_
  all_goals first | with_reducible exact Keeps.of_fault h_ | (with_reducible obtain rfl := Host.Outcome.next.inj h_) | skip
  repeat' first
    | with_reducible exact Keeps.refl _ _
    | with_reducible apply sramFault_keeps
    | with_reducible refine whileAlive_keeps (fun _ => ?_) ?_
    | (show (_ : List Area) ⊆ _; decide)

end Sys2Proof.Machine
end

