-- ==== Sys2Proof/Laws/Frame/Security.lean ====
section
/-! SUPPORT. The frame of every operation of Machine/Security.lean: the areas it may change, and that pool memory keeps its canonical form. -/

namespace Sys2Proof.Machine

set_option linter.unusedTactic false
set_option linter.unreachableTactic false
set_option linter.unusedVariables false

theorem countTest_keeps {A_ : List Area} {s_ : State} {t : TrngTest} {s : State}
    (ha_ : [.sec] ⊆ A_) (hs_ : Keeps A_ s_ s) : Keeps A_ s_ (countTest t s) := by
  refine Keeps.comp ?_ ha_ hs_
  clear hs_ ha_; unfold countTest
  try dsimp only
  repeat' first
    | with_reducible exact Keeps.refl _ _
    | with_reducible refine Keeps.ite ?_ ?_
    | exact Or.inr (by decide)
    | with_reducible exact Or.inl rfl
    | (show (_ : List Area) ⊆ _; decide)
    | split
    | with_reducible apply Keeps.mk
    | dsimp only
    | exact Or.inl rfl

theorem trngDown_keeps {A_ : List Area} {s_ : State} {s : State}
    (ha_ : [.streams, .reqs, .ports, .xpt, .eng, .sec, .hosts, .flt, .sbd, .out] ⊆ A_) (hs_ : Keeps A_ s_ s) : Keeps A_ s_ (trngDown s) := by
  refine Keeps.comp ?_ ha_ hs_
  clear hs_ ha_; unfold trngDown
  try dsimp only
  repeat' first
    | with_reducible exact Keeps.refl _ _
    | with_reducible apply hsFail_keeps
    | with_reducible apply recordFault_keeps
    | with_reducible refine Keeps.foldl (fun _ _ => ?_) _ ?_
    | with_reducible refine Keeps.ite ?_ ?_
    | exact Or.inr (by decide)
    | with_reducible exact Or.inl rfl
    | (show (_ : List Area) ⊆ _; decide)
    | split
    | with_reducible apply Keeps.mk
    | dsimp only
    | exact Or.inl rfl

theorem trngTestFail_keeps {A_ : List Area} {s_ : State} {t : TrngTest} {again : Bool} {s : State}
    (ha_ : [.streams, .reqs, .ports, .xpt, .eng, .sec, .hosts, .flt, .sbd, .out] ⊆ A_) (hs_ : Keeps A_ s_ s) : Keeps A_ s_ (trngTestFail t again s) := by
  refine Keeps.comp ?_ ha_ hs_
  clear hs_ ha_; unfold trngTestFail
  try dsimp only
  repeat' first
    | with_reducible exact Keeps.refl _ _
    | with_reducible apply trngDown_keeps
    | with_reducible apply countTest_keeps
    | with_reducible refine Keeps.ite ?_ ?_
    | (show (_ : List Area) ⊆ _; decide)
    | split
    | dsimp only

theorem execTrngTestFail_keeps {A_ : List Area} {s_ t_ : State} {t : TrngTest} {again : Bool} {s : State} (h_ : execTrngTestFail t again s = .next t_)
    (ha_ : [.streams, .reqs, .ports, .xpt, .eng, .sec, .hosts, .flt, .sbd, .out] ⊆ A_) (hs_ : Keeps A_ s_ s) : Keeps A_ s_ t_ := by
  refine Keeps.comp ?_ ha_ hs_
  clear hs_ ha_; unfold execTrngTestFail at h_
  try dsimp only at h_
  all_goals first | with_reducible exact Keeps.of_fault h_ | (with_reducible obtain rfl := Host.Outcome.next.inj h_) | skip
  repeat' first
    | with_reducible exact Keeps.refl _ _
    | with_reducible apply trngTestFail_keeps
    | with_reducible refine whileAlive_keeps (fun _ => ?_) ?_
    | (show (_ : List Area) ⊆ _; decide)

theorem drbgReseed_keeps {A_ : List Area} {s_ : State} {s : State}
    (ha_ : [.sec] ⊆ A_) (hs_ : Keeps A_ s_ s) : Keeps A_ s_ (drbgReseed s) := by
  refine Keeps.comp ?_ ha_ hs_
  clear hs_ ha_; unfold drbgReseed
  try dsimp only
  repeat' first
    | with_reducible exact Keeps.refl _ _
    | with_reducible refine Keeps.ite ?_ ?_
    | exact Or.inr (by decide)
    | with_reducible exact Or.inl rfl
    | (show (_ : List Area) ⊆ _; decide)
    | split
    | with_reducible apply Keeps.mk
    | dsimp only
    | exact Or.inl rfl

theorem execDrbgReseed_keeps {A_ : List Area} {s_ t_ : State} {s : State} (h_ : execDrbgReseed s = .next t_)
    (ha_ : [.sec] ⊆ A_) (hs_ : Keeps A_ s_ s) : Keeps A_ s_ t_ := by
  refine Keeps.comp ?_ ha_ hs_
  clear hs_ ha_; unfold execDrbgReseed at h_
  try dsimp only at h_
  all_goals first | with_reducible exact Keeps.of_fault h_ | (with_reducible obtain rfl := Host.Outcome.next.inj h_) | skip
  repeat' first
    | with_reducible exact Keeps.refl _ _
    | with_reducible apply drbgReseed_keeps
    | with_reducible refine whileAlive_keeps (fun _ => ?_) ?_
    | (show (_ : List Area) ⊆ _; decide)

theorem tamper_keeps {A_ : List Area} {s_ : State} {x : TamperSensor} {s : State}
    (ha_ : [.nid, .tenants, .ports, .sec, .flt, .sbd, .out] ⊆ A_) (hs_ : Keeps A_ s_ s) : Keeps A_ s_ (tamper x s) := by
  refine Keeps.comp ?_ ha_ hs_
  clear hs_ ha_; unfold tamper
  try dsimp only
  repeat' first
    | with_reducible exact Keeps.refl _ _
    | with_reducible apply enterFatal_keeps
    | with_reducible refine Keeps.ite ?_ ?_
    | exact Or.inr (by decide)
    | with_reducible exact Or.inl rfl
    | (show (_ : List Area) ⊆ _; decide)
    | split
    | with_reducible apply Keeps.mk
    | dsimp only
    | exact Or.inl rfl

theorem execTamper_keeps {A_ : List Area} {s_ t_ : State} {x : TamperSensor} {s : State} (h_ : execTamper x s = .next t_)
    (ha_ : [.nid, .tenants, .ports, .sec, .flt, .sbd, .out] ⊆ A_) (hs_ : Keeps A_ s_ s) : Keeps A_ s_ t_ := by
  refine Keeps.comp ?_ ha_ hs_
  clear hs_ ha_; unfold execTamper at h_
  try dsimp only at h_
  all_goals first | with_reducible exact Keeps.of_fault h_ | (with_reducible obtain rfl := Host.Outcome.next.inj h_) | skip
  repeat' first
    | with_reducible exact Keeps.refl _ _
    | with_reducible apply tamper_keeps
    | (show (_ : List Area) ⊆ _; decide)

theorem spdmAnswer_keeps {A_ : List Area} {s_ : State} {hp : Fin 4} {code : Byte} {bytes : List Byte} {s : State}
    (ha_ : [.sec, .out] ⊆ A_) (hs_ : Keeps A_ s_ s) : Keeps A_ s_ (spdmAnswer hp code bytes s) := by
  refine Keeps.comp ?_ ha_ hs_
  clear hs_ ha_; unfold spdmAnswer
  try dsimp only
  repeat' first
    | with_reducible exact Keeps.refl _ _
    | with_reducible apply State.emit_keeps
    | exact Or.inr (by decide)
    | with_reducible exact Or.inl rfl
    | (show (_ : List Area) ⊆ _; decide)
    | with_reducible apply Keeps.mk
    | dsimp only
    | exact Or.inl rfl

theorem spdmError_keeps {A_ : List Area} {s_ : State} {hp : Fin 4} {e : Byte} {s : State}
    (ha_ : [.sec, .out] ⊆ A_) (hs_ : Keeps A_ s_ s) : Keeps A_ s_ (spdmError hp e s) := by
  refine Keeps.comp ?_ ha_ hs_
  clear hs_ ha_; unfold spdmError
  try dsimp only
  repeat' first
    | with_reducible exact Keeps.refl _ _
    | with_reducible apply spdmAnswer_keeps
    | exact Or.inr (by decide)
    | with_reducible exact Or.inl rfl
    | (show (_ : List Area) ⊆ _; decide)
    | with_reducible apply Keeps.mk
    | dsimp only
    | exact Or.inl rfl

theorem spdm_keeps {A_ : List Area} {s_ s : State} {hp : Fin 4} {needs : Bool} {f : State → State} (hf_ : ∀ t, Keeps A_ t (f t)) (ha_ : [.sec, .out] ⊆ A_)
    (hs_ : Keeps A_ s_ s) : Keeps A_ s_ (spdm hp needs f s) := by
  unfold spdm
  exact Keeps.ite hs_ (Keeps.ite (spdmError_keeps (List.Subset.trans (by decide) ha_) hs_) (Keeps.ite hs_
    (Keeps.ite (spdmError_keeps (List.Subset.trans (by decide) ha_) hs_) (Keeps.comp (hf_ _) (List.Subset.refl _) hs_))))

theorem execGetVersion_keeps {A_ : List Area} {s_ t_ : State} {hp : Fin 4} {s : State} (h_ : execGetVersion hp s = .next t_)
    (ha_ : [.sec, .out] ⊆ A_) (hs_ : Keeps A_ s_ s) : Keeps A_ s_ t_ := by
  refine Keeps.comp ?_ ha_ hs_
  clear hs_ ha_; unfold execGetVersion at h_
  try dsimp only at h_
  all_goals first | with_reducible exact Keeps.of_fault h_ | (with_reducible obtain rfl := Host.Outcome.next.inj h_) | skip
  repeat' first
    | with_reducible exact Keeps.refl _ _
    | with_reducible refine spdm_keeps (fun _ => ?_) ?_ ?_
    | with_reducible apply spdmAnswer_keeps
    | (show (_ : List Area) ⊆ _; decide)

theorem execGetCapabilities_keeps {A_ : List Area} {s_ t_ : State} {hp : Fin 4} {s : State} (h_ : execGetCapabilities hp s = .next t_)
    (ha_ : [.sec, .out] ⊆ A_) (hs_ : Keeps A_ s_ s) : Keeps A_ s_ t_ := by
  refine Keeps.comp ?_ ha_ hs_
  clear hs_ ha_; unfold execGetCapabilities at h_
  try dsimp only at h_
  all_goals first | with_reducible exact Keeps.of_fault h_ | (with_reducible obtain rfl := Host.Outcome.next.inj h_) | skip
  repeat' first
    | with_reducible exact Keeps.refl _ _
    | with_reducible refine spdm_keeps (fun _ => ?_) ?_ ?_
    | with_reducible apply spdmAnswer_keeps
    | (show (_ : List Area) ⊆ _; decide)

theorem execNegotiateAlgorithms_keeps {A_ : List Area} {s_ t_ : State} {hp : Fin 4} {s : State} (h_ : execNegotiateAlgorithms hp s = .next t_)
    (ha_ : [.sec, .out] ⊆ A_) (hs_ : Keeps A_ s_ s) : Keeps A_ s_ t_ := by
  refine Keeps.comp ?_ ha_ hs_
  clear hs_ ha_; unfold execNegotiateAlgorithms at h_
  try dsimp only at h_
  all_goals first | with_reducible exact Keeps.of_fault h_ | (with_reducible obtain rfl := Host.Outcome.next.inj h_) | skip
  repeat' first
    | with_reducible exact Keeps.refl _ _
    | with_reducible refine spdm_keeps (fun _ => ?_) ?_ ?_
    | with_reducible apply spdmAnswer_keeps
    | (show (_ : List Area) ⊆ _; decide)

theorem execGetDigests_keeps {A_ : List Area} {s_ t_ : State} {hp : Fin 4} {s : State} (h_ : execGetDigests hp s = .next t_)
    (ha_ : [.sec, .out] ⊆ A_) (hs_ : Keeps A_ s_ s) : Keeps A_ s_ t_ := by
  refine Keeps.comp ?_ ha_ hs_
  clear hs_ ha_; unfold execGetDigests at h_
  try dsimp only at h_
  all_goals first | with_reducible exact Keeps.of_fault h_ | (with_reducible obtain rfl := Host.Outcome.next.inj h_) | skip
  repeat' first
    | with_reducible exact Keeps.refl _ _
    | with_reducible refine spdm_keeps (fun _ => ?_) ?_ ?_
    | with_reducible apply spdmAnswer_keeps
    | (show (_ : List Area) ⊆ _; decide)

theorem getCertificate_keeps {A_ : List Area} {s_ : State} {hp : Fin 4} {slot : Byte} {offset : Nat} {length : Nat} {s : State}
    (ha_ : [.sec, .out] ⊆ A_) (hs_ : Keeps A_ s_ s) : Keeps A_ s_ (getCertificate hp slot offset length s) := by
  refine Keeps.comp ?_ ha_ hs_
  clear hs_ ha_; unfold getCertificate
  try dsimp only
  repeat' first
    | with_reducible exact Keeps.refl _ _
    | with_reducible apply spdmError_keeps
    | with_reducible apply spdmAnswer_keeps
    | with_reducible refine Keeps.ite ?_ ?_
    | (show (_ : List Area) ⊆ _; decide)
    | split
    | dsimp only

theorem execGetCertificate_keeps {A_ : List Area} {s_ t_ : State} {hp : Fin 4} {slot : Byte} {offset : BitVec 16} {length : BitVec 16} {s : State} (h_ : execGetCertificate hp slot offset length s = .next t_)
    (ha_ : [.sec, .out] ⊆ A_) (hs_ : Keeps A_ s_ s) : Keeps A_ s_ t_ := by
  refine Keeps.comp ?_ ha_ hs_
  clear hs_ ha_; unfold execGetCertificate at h_
  try dsimp only at h_
  all_goals first | with_reducible exact Keeps.of_fault h_ | (with_reducible obtain rfl := Host.Outcome.next.inj h_) | skip
  repeat' first
    | with_reducible exact Keeps.refl _ _
    | with_reducible apply getCertificate_keeps
    | with_reducible refine spdm_keeps (fun _ => ?_) ?_ ?_
    | (show (_ : List Area) ⊆ _; decide)

theorem draw_keeps {A_ : List Area} {s_ : State} {s : State}
    (ha_ : [.serialNo, .sec] ⊆ A_) (hs_ : Keeps A_ s_ s) : Keeps A_ s_ (draw s).2 := by
  refine Keeps.comp ?_ ha_ hs_
  clear hs_ ha_; unfold draw
  try dsimp only
  repeat' first
    | with_reducible exact Keeps.refl _ _
    | exact Or.inr (by decide)
    | with_reducible exact Or.inl rfl
    | (show (_ : List Area) ⊆ _; decide)
    | with_reducible apply Keeps.mk
    | dsimp only
    | exact Or.inl rfl

theorem challenge_keeps {A_ : List Area} {s_ : State} {hp : Fin 4} {slot : Byte} {summary : Byte} {nonce : List Byte} {s : State}
    (ha_ : [.serialNo, .sec, .out] ⊆ A_) (hs_ : Keeps A_ s_ s) : Keeps A_ s_ (challenge hp slot summary nonce s) := by
  refine Keeps.comp ?_ ha_ hs_
  clear hs_ ha_; unfold challenge
  try dsimp only
  repeat' first
    | with_reducible exact Keeps.refl _ _
    | with_reducible apply draw_keeps
    | with_reducible refine Keeps.pair1 (p := draw _) (by assumption) ?_
    | with_reducible apply spdmError_keeps
    | with_reducible apply spdmAnswer_keeps
    | with_reducible refine Keeps.ite ?_ ?_
    | (show (_ : List Area) ⊆ _; decide)
    | split
    | dsimp only

theorem execChallenge_keeps {A_ : List Area} {s_ t_ : State} {hp : Fin 4} {slot : Byte} {summary : Byte} {nonce : List Byte} {s : State} (h_ : execChallenge hp slot summary nonce s = .next t_)
    (ha_ : [.serialNo, .sec, .out] ⊆ A_) (hs_ : Keeps A_ s_ s) : Keeps A_ s_ t_ := by
  refine Keeps.comp ?_ ha_ hs_
  clear hs_ ha_; unfold execChallenge at h_
  try dsimp only at h_
  all_goals first | with_reducible exact Keeps.of_fault h_ | (with_reducible obtain rfl := Host.Outcome.next.inj h_) | skip
  repeat' first
    | with_reducible exact Keeps.refl _ _
    | with_reducible apply challenge_keeps
    | with_reducible refine spdm_keeps (fun _ => ?_) ?_ ?_
    | (show (_ : List Area) ⊆ _; decide)

theorem getMeasurements_keeps {A_ : List Area} {s_ : State} {hp : Fin 4} {index : Byte} {signed : Bool} {nonce : List Byte} {s : State}
    (ha_ : [.serialNo, .sec, .out] ⊆ A_) (hs_ : Keeps A_ s_ s) : Keeps A_ s_ (getMeasurements hp index signed nonce s) := by
  refine Keeps.comp ?_ ha_ hs_
  clear hs_ ha_; unfold getMeasurements
  try dsimp only
  repeat' first
    | with_reducible exact Keeps.refl _ _
    | with_reducible apply draw_keeps
    | with_reducible refine Keeps.pair1 (p := draw _) (by assumption) ?_
    | with_reducible apply spdmError_keeps
    | with_reducible apply spdmAnswer_keeps
    | with_reducible refine Keeps.ite ?_ ?_
    | (show (_ : List Area) ⊆ _; decide)
    | split
    | dsimp only

theorem execGetMeasurements_keeps {A_ : List Area} {s_ t_ : State} {hp : Fin 4} {index : Byte} {signed : Bool} {nonce : List Byte} {s : State} (h_ : execGetMeasurements hp index signed nonce s = .next t_)
    (ha_ : [.serialNo, .sec, .out] ⊆ A_) (hs_ : Keeps A_ s_ s) : Keeps A_ s_ t_ := by
  refine Keeps.comp ?_ ha_ hs_
  clear hs_ ha_; unfold execGetMeasurements at h_
  try dsimp only at h_
  all_goals first | with_reducible exact Keeps.of_fault h_ | (with_reducible obtain rfl := Host.Outcome.next.inj h_) | skip
  repeat' first
    | with_reducible exact Keeps.refl _ _
    | with_reducible apply getMeasurements_keeps
    | with_reducible refine spdm_keeps (fun _ => ?_) ?_ ?_
    | (show (_ : List Area) ⊆ _; decide)

theorem execSpdmUnsupportedRequest_keeps {A_ : List Area} {s_ t_ : State} {hp : Fin 4} {_code : Byte} {s : State} (h_ : execSpdmUnsupportedRequest hp _code s = .next t_)
    (ha_ : [.sec, .out] ⊆ A_) (hs_ : Keeps A_ s_ s) : Keeps A_ s_ t_ := by
  refine Keeps.comp ?_ ha_ hs_
  clear hs_ ha_; unfold execSpdmUnsupportedRequest at h_
  try dsimp only at h_
  all_goals first | with_reducible exact Keeps.of_fault h_ | (with_reducible obtain rfl := Host.Outcome.next.inj h_) | skip
  repeat' first
    | with_reducible exact Keeps.refl _ _
    | with_reducible refine spdm_keeps (fun _ => ?_) ?_ ?_
    | with_reducible apply spdmError_keeps
    | (show (_ : List Area) ⊆ _; decide)

theorem doeDiscovery_keeps {A_ : List Area} {s_ : State} {hp : Fin 4} {index : Byte} {s : State}
    (ha_ : [.out] ⊆ A_) (hs_ : Keeps A_ s_ s) : Keeps A_ s_ (doeDiscovery hp index s) := by
  refine Keeps.comp ?_ ha_ hs_
  clear hs_ ha_; unfold doeDiscovery
  try dsimp only
  repeat' first
    | with_reducible exact Keeps.refl _ _
    | with_reducible apply State.emit_keeps
    | with_reducible refine Keeps.ite ?_ ?_
    | (show (_ : List Area) ⊆ _; decide)
    | split
    | dsimp only

theorem execDoeDiscovery_keeps {A_ : List Area} {s_ t_ : State} {hp : Fin 4} {index : Byte} {s : State} (h_ : execDoeDiscovery hp index s = .next t_)
    (ha_ : [.out] ⊆ A_) (hs_ : Keeps A_ s_ s) : Keeps A_ s_ t_ := by
  refine Keeps.comp ?_ ha_ hs_
  clear hs_ ha_; unfold execDoeDiscovery at h_
  try dsimp only at h_
  all_goals first | with_reducible exact Keeps.of_fault h_ | (with_reducible obtain rfl := Host.Outcome.next.inj h_) | skip
  repeat' first
    | with_reducible exact Keeps.refl _ _
    | with_reducible apply doeDiscovery_keeps
    | (show (_ : List Area) ⊆ _; decide)

theorem inHandshake_keeps {A_ : List Area} {s_ s : State} {n : Fin 32} {f : State → State} (hf_ : ∀ t, Keeps A_ t (f t)) (ha_ : [.ports] ⊆ A_)
    (hs_ : Keeps A_ s_ s) : Keeps A_ s_ (inHandshake n f s) := by
  unfold inHandshake
  exact Keeps.ite hs_ (Keeps.ite (rxFree_keeps ha_ hs_) (Keeps.ite (Keeps.comp (hf_ _) (List.Subset.refl _) hs_) hs_))

theorem takeUpSig_keeps {A_ : List Area} {s_ : State} {n : Nat} {s : State}
    (ha_ : [.sec] ⊆ A_) (hs_ : Keeps A_ s_ s) : Keeps A_ s_ (takeUpSig n s) := by
  refine Keeps.comp ?_ ha_ hs_
  clear hs_ ha_; unfold takeUpSig
  repeat' first
    | with_reducible exact Keeps.refl _ _
    | exact Or.inr (by decide)
    | with_reducible exact Or.inl rfl
    | (show (_ : List Area) ⊆ _; decide)
    | with_reducible apply Keeps.mk
    | dsimp only
    | exact Or.inl rfl

theorem chainDone_keeps {A_ : List Area} {s_ : State} {n : Fin 32} {p : Hello} {s : State}
    (ha_ : [.streams, .reqs, .ports, .xpt, .eng, .sec, .hosts, .flt, .sbd, .out] ⊆ A_) (hs_ : Keeps A_ s_ s) : Keeps A_ s_ (chainDone n p s) := by
  refine Keeps.comp ?_ ha_ hs_
  clear hs_ ha_; unfold chainDone
  try dsimp only
  repeat' first
    | with_reducible exact Keeps.refl _ _
    | with_reducible apply takeUpSig_keeps
    | with_reducible apply hsFail_keeps
    | with_reducible apply State.setPort_keeps
    | with_reducible refine Keeps.ite ?_ ?_
    | exact Or.inr (by decide)
    | with_reducible exact Or.inl rfl
    | (show (_ : List Area) ⊆ _; decide)
    | split
    | with_reducible apply Keeps.mk
    | dsimp only
    | exact Or.inl rfl

theorem rxHello_keeps {A_ : List Area} {s_ : State} {n : Fin 32} {x : Hello} {s : State}
    (ha_ : [.streams, .reqs, .ports, .xpt, .eng, .sec, .hosts, .flt, .sbd, .out] ⊆ A_) (hs_ : Keeps A_ s_ s) : Keeps A_ s_ (rxHello n x s) := by
  refine Keeps.comp ?_ ha_ hs_
  clear hs_ ha_; unfold rxHello
  try dsimp only
  repeat' first
    | with_reducible exact Keeps.refl _ _
    | with_reducible apply chainDone_keeps
    | with_reducible apply hsFail_keeps
    | with_reducible apply hsSend_keeps
    | with_reducible apply State.setPort_keeps
    | with_reducible refine Keeps.ite ?_ ?_
    | exact Or.inr (by decide)
    | with_reducible exact Or.inl rfl
    | (show (_ : List Area) ⊆ _; decide)
    | split
    | with_reducible apply Keeps.mk
    | dsimp only
    | exact Or.inl rfl

theorem execHello_keeps {A_ : List Area} {s_ t_ : State} {p : Fin 32} {h : Hello} {s : State} (h_ : execHello p h s = .next t_)
    (ha_ : [.streams, .reqs, .ports, .xpt, .eng, .sec, .hosts, .flt, .sbd, .out] ⊆ A_) (hs_ : Keeps A_ s_ s) : Keeps A_ s_ t_ := by
  refine Keeps.comp ?_ ha_ hs_
  clear hs_ ha_; unfold execHello at h_
  try dsimp only at h_
  all_goals first | with_reducible exact Keeps.of_fault h_ | (with_reducible obtain rfl := Host.Outcome.next.inj h_) | skip
  repeat' first
    | with_reducible exact Keeps.refl _ _
    | with_reducible apply rxHello_keeps
    | with_reducible refine inHandshake_keeps (fun _ => ?_) ?_ ?_
    | (show (_ : List Area) ⊆ _; decide)

theorem rxCert_keeps {A_ : List Area} {s_ : State} {n : Fin 32} {off : Nat} {bs : List Byte} {s : State}
    (ha_ : [.streams, .reqs, .ports, .xpt, .eng, .sec, .hosts, .flt, .sbd, .out] ⊆ A_) (hs_ : Keeps A_ s_ s) : Keeps A_ s_ (rxCert n off bs s) := by
  refine Keeps.comp ?_ ha_ hs_
  clear hs_ ha_; unfold rxCert
  try dsimp only
  repeat' first
    | with_reducible exact Keeps.refl _ _
    | with_reducible apply chainDone_keeps
    | with_reducible apply hsFail_keeps
    | with_reducible apply State.setPort_keeps
    | with_reducible refine Keeps.ite ?_ ?_
    | exact Or.inr (by decide)
    | with_reducible exact Or.inl rfl
    | (show (_ : List Area) ⊆ _; decide)
    | split
    | with_reducible apply Keeps.mk
    | dsimp only
    | exact Or.inl rfl

theorem execHsCert_keeps {A_ : List Area} {s_ t_ : State} {p : Fin 32} {offset : BitVec 16} {bytes : List Byte} {s : State} (h_ : execHsCert p offset bytes s = .next t_)
    (ha_ : [.streams, .reqs, .ports, .xpt, .eng, .sec, .hosts, .flt, .sbd, .out] ⊆ A_) (hs_ : Keeps A_ s_ s) : Keeps A_ s_ t_ := by
  refine Keeps.comp ?_ ha_ hs_
  clear hs_ ha_; unfold execHsCert at h_
  try dsimp only at h_
  all_goals first | with_reducible exact Keeps.of_fault h_ | (with_reducible obtain rfl := Host.Outcome.next.inj h_) | skip
  repeat' first
    | with_reducible exact Keeps.refl _ _
    | with_reducible apply rxCert_keeps
    | with_reducible refine inHandshake_keeps (fun _ => ?_) ?_ ?_
    | (show (_ : List Area) ⊆ _; decide)

theorem signatureDone_keeps {A_ : List Area} {s_ : State} {n : Fin 32} {s : State}
    (ha_ : [.ports, .out] ⊆ A_) (hs_ : Keeps A_ s_ s) : Keeps A_ s_ (signatureDone n s) := by
  refine Keeps.comp ?_ ha_ hs_
  clear hs_ ha_; unfold signatureDone
  try dsimp only
  repeat' first
    | with_reducible exact Keeps.refl _ _
    | with_reducible apply hsSend_keeps
    | with_reducible apply State.setPort_keeps
    | with_reducible refine Keeps.ite ?_ ?_
    | exact Or.inr (by decide)
    | with_reducible exact Or.inl rfl
    | (show (_ : List Area) ⊆ _; decide)
    | split
    | with_reducible apply Keeps.mk
    | dsimp only
    | exact Or.inl rfl

theorem execHsSignatureDone_keeps {A_ : List Area} {s_ t_ : State} {p : Fin 32} {s : State} (h_ : execHsSignatureDone p s = .next t_)
    (ha_ : [.ports, .out] ⊆ A_) (hs_ : Keeps A_ s_ s) : Keeps A_ s_ t_ := by
  refine Keeps.comp ?_ ha_ hs_
  clear hs_ ha_; unfold execHsSignatureDone at h_
  try dsimp only at h_
  all_goals first | with_reducible exact Keeps.of_fault h_ | (with_reducible obtain rfl := Host.Outcome.next.inj h_) | skip
  repeat' first
    | with_reducible exact Keeps.refl _ _
    | with_reducible apply signatureDone_keeps
    | with_reducible refine inHandshake_keeps (fun _ => ?_) ?_ ?_
    | (show (_ : List Area) ⊆ _; decide)

theorem rxVerify_keeps {A_ : List Area} {s_ : State} {n : Fin 32} {sig : List Byte} {s : State}
    (ha_ : [.streams, .reqs, .ports, .xpt, .eng, .sec, .hosts, .flt, .sbd, .out] ⊆ A_) (hs_ : Keeps A_ s_ s) : Keeps A_ s_ (rxVerify n sig s) := by
  refine Keeps.comp ?_ ha_ hs_
  clear hs_ ha_; unfold rxVerify
  try dsimp only
  repeat' first
    | with_reducible exact Keeps.refl _ _
    | with_reducible apply hsFail_keeps
    | with_reducible apply hsSend_keeps
    | with_reducible apply State.setPort_keeps
    | with_reducible refine Keeps.ite ?_ ?_
    | exact Or.inr (by decide)
    | with_reducible exact Or.inl rfl
    | (show (_ : List Area) ⊆ _; decide)
    | split
    | with_reducible apply Keeps.mk
    | dsimp only
    | exact Or.inl rfl

theorem execVerify_keeps {A_ : List Area} {s_ t_ : State} {p : Fin 32} {sig : List Byte} {s : State} (h_ : execVerify p sig s = .next t_)
    (ha_ : [.streams, .reqs, .ports, .xpt, .eng, .sec, .hosts, .flt, .sbd, .out] ⊆ A_) (hs_ : Keeps A_ s_ s) : Keeps A_ s_ t_ := by
  refine Keeps.comp ?_ ha_ hs_
  clear hs_ ha_; unfold execVerify at h_
  try dsimp only at h_
  all_goals first | with_reducible exact Keeps.of_fault h_ | (with_reducible obtain rfl := Host.Outcome.next.inj h_) | skip
  repeat' first
    | with_reducible exact Keeps.refl _ _
    | with_reducible apply rxVerify_keeps
    | with_reducible refine inHandshake_keeps (fun _ => ?_) ?_ ?_
    | (show (_ : List Area) ⊆ _; decide)

theorem rxFinish_keeps {A_ : List Area} {s_ : State} {n : Fin 32} {mac : List Byte} {s : State}
    (ha_ : [.streams, .reqs, .ports, .xpt, .eng, .sec, .hosts, .flt, .sbd, .out] ⊆ A_) (hs_ : Keeps A_ s_ s) : Keeps A_ s_ (rxFinish n mac s) := by
  refine Keeps.comp ?_ ha_ hs_
  clear hs_ ha_; unfold rxFinish
  try dsimp only
  repeat' first
    | with_reducible exact Keeps.refl _ _
    | with_reducible apply hsFail_keeps
    | with_reducible apply attemptSuccess_keeps
    | with_reducible apply State.setSecPort_keeps
    | with_reducible apply State.setPort_keeps
    | with_reducible refine Keeps.ite ?_ ?_
    | exact Or.inr (by decide)
    | with_reducible exact Or.inl rfl
    | (show (_ : List Area) ⊆ _; decide)
    | split
    | with_reducible apply Keeps.mk
    | dsimp only
    | exact Or.inl rfl

theorem execFinish_keeps {A_ : List Area} {s_ t_ : State} {p : Fin 32} {mac : List Byte} {s : State} (h_ : execFinish p mac s = .next t_)
    (ha_ : [.streams, .reqs, .ports, .xpt, .eng, .sec, .hosts, .flt, .sbd, .out] ⊆ A_) (hs_ : Keeps A_ s_ s) : Keeps A_ s_ t_ := by
  refine Keeps.comp ?_ ha_ hs_
  clear hs_ ha_; unfold execFinish at h_
  try dsimp only at h_
  all_goals first | with_reducible exact Keeps.of_fault h_ | (with_reducible obtain rfl := Host.Outcome.next.inj h_) | skip
  repeat' first
    | with_reducible exact Keeps.refl _ _
    | with_reducible apply rxFinish_keeps
    | with_reducible refine inHandshake_keeps (fun _ => ?_) ?_ ?_
    | (show (_ : List Area) ⊆ _; decide)

theorem execHsAbort_keeps {A_ : List Area} {s_ t_ : State} {p : Fin 32} {_cause : Byte} {s : State} (h_ : execHsAbort p _cause s = .next t_)
    (ha_ : [.streams, .reqs, .ports, .xpt, .eng, .sec, .hosts, .flt, .sbd, .out] ⊆ A_) (hs_ : Keeps A_ s_ s) : Keeps A_ s_ t_ := by
  refine Keeps.comp ?_ ha_ hs_
  clear hs_ ha_; unfold execHsAbort at h_
  try dsimp only at h_
  all_goals first | with_reducible exact Keeps.of_fault h_ | (with_reducible obtain rfl := Host.Outcome.next.inj h_) | skip
  repeat' first
    | with_reducible exact Keeps.refl _ _
    | with_reducible refine inHandshake_keeps (fun _ => ?_) ?_ ?_
    | with_reducible apply hsFail_keeps
    | (show (_ : List Area) ⊆ _; decide)

theorem hsResend_keeps {A_ : List Area} {s_ : State} {n : Fin 32} {s : State}
    (ha_ : [.ports, .out] ⊆ A_) (hs_ : Keeps A_ s_ s) : Keeps A_ s_ (hsResend n s) := by
  refine Keeps.comp ?_ ha_ hs_
  clear hs_ ha_; unfold hsResend
  try dsimp only
  repeat' first
    | with_reducible exact Keeps.refl _ _
    | with_reducible apply sendLmc_keeps
    | with_reducible refine Keeps.foldl (fun _ _ => ?_) _ ?_
    | with_reducible refine Keeps.ite ?_ ?_
    | (show (_ : List Area) ⊆ _; decide)
    | split
    | dsimp only

theorem execHsResend_keeps {A_ : List Area} {s_ t_ : State} {p : Fin 32} {s : State} (h_ : execHsResend p s = .next t_)
    (ha_ : [.ports, .out] ⊆ A_) (hs_ : Keeps A_ s_ s) : Keeps A_ s_ t_ := by
  refine Keeps.comp ?_ ha_ hs_
  clear hs_ ha_; unfold execHsResend at h_
  try dsimp only at h_
  all_goals first | with_reducible exact Keeps.of_fault h_ | (with_reducible obtain rfl := Host.Outcome.next.inj h_) | skip
  repeat' first
    | with_reducible exact Keeps.refl _ _
    | with_reducible apply hsResend_keeps
    | with_reducible refine whileAlive_keeps (fun _ => ?_) ?_
    | (show (_ : List Area) ⊆ _; decide)

theorem hsTimeout_keeps {A_ : List Area} {s_ : State} {n : Fin 32} {s : State}
    (ha_ : [.streams, .reqs, .ports, .xpt, .eng, .sec, .hosts, .flt, .sbd, .out] ⊆ A_) (hs_ : Keeps A_ s_ s) : Keeps A_ s_ (hsTimeout n s) := by
  refine Keeps.comp ?_ ha_ hs_
  clear hs_ ha_; unfold hsTimeout
  try dsimp only
  repeat' first
    | with_reducible exact Keeps.refl _ _
    | with_reducible apply hsFail_keeps
    | with_reducible refine Keeps.ite ?_ ?_
    | (show (_ : List Area) ⊆ _; decide)
    | split
    | dsimp only

theorem execHsTimeout_keeps {A_ : List Area} {s_ t_ : State} {p : Fin 32} {s : State} (h_ : execHsTimeout p s = .next t_)
    (ha_ : [.streams, .reqs, .ports, .xpt, .eng, .sec, .hosts, .flt, .sbd, .out] ⊆ A_) (hs_ : Keeps A_ s_ s) : Keeps A_ s_ t_ := by
  refine Keeps.comp ?_ ha_ hs_
  clear hs_ ha_; unfold execHsTimeout at h_
  try dsimp only at h_
  all_goals first | with_reducible exact Keeps.of_fault h_ | (with_reducible obtain rfl := Host.Outcome.next.inj h_) | skip
  repeat' first
    | with_reducible exact Keeps.refl _ _
    | with_reducible apply hsTimeout_keeps
    | with_reducible refine whileAlive_keeps (fun _ => ?_) ?_
    | (show (_ : List Area) ⊆ _; decide)

theorem attest_keeps {A_ : List Area} {s_ : State} {n : Fin 32} {kind : Byte} {off : Nat} {nonce : List Byte} {s : State}
    (ha_ : [.ports] ⊆ A_) (hs_ : Keeps A_ s_ s) : Keeps A_ s_ (attest n kind off nonce s) := by
  refine Keeps.comp ?_ ha_ hs_
  clear hs_ ha_; unfold attest
  try dsimp only
  repeat' first
    | with_reducible exact Keeps.refl _ _
    | with_reducible apply rxFree_keeps
    | with_reducible apply enqueue_keeps
    | with_reducible refine Keeps.ite ?_ ?_
    | (show (_ : List Area) ⊆ _; decide)
    | split
    | dsimp only

theorem execAttestReq_keeps {A_ : List Area} {s_ t_ : State} {p : Fin 32} {kind : Byte} {offset : BitVec 16} {nonce : List Byte} {s : State} (h_ : execAttestReq p kind offset nonce s = .next t_)
    (ha_ : [.ports] ⊆ A_) (hs_ : Keeps A_ s_ s) : Keeps A_ s_ t_ := by
  refine Keeps.comp ?_ ha_ hs_
  clear hs_ ha_; unfold execAttestReq at h_
  try dsimp only at h_
  all_goals first | with_reducible exact Keeps.of_fault h_ | (with_reducible obtain rfl := Host.Outcome.next.inj h_) | skip
  repeat' first
    | with_reducible exact Keeps.refl _ _
    | with_reducible apply attest_keeps
    | (show (_ : List Area) ⊆ _; decide)

theorem linkPin_keeps {A_ : List Area} {s_ : State} {port : Byte} {action : Byte} {hash : List Byte} {o : Owed} {s : State}
    (ha_ : [.sec, .hosts, .boot, .out] ⊆ A_) (hs_ : Keeps A_ s_ s) : Keeps A_ s_ (linkPin port action hash o s) := by
  refine Keeps.comp ?_ ha_ hs_
  clear hs_ ha_; unfold linkPin
  try dsimp only
  repeat' first
    | with_reducible exact Keeps.refl _ _
    | with_reducible refine orFail_keeps (fun _ => ?_) ?_ ?_
    | with_reducible apply answer_keeps
    | with_reducible apply State.setSecPort_keeps
    | with_reducible refine Keeps.ite ?_ ?_
    | exact Or.inr (by decide)
    | with_reducible exact Or.inl rfl
    | (show (_ : List Area) ⊆ _; decide)
    | split
    | with_reducible apply Keeps.mk
    | dsimp only
    | exact Or.inl rfl

theorem execLinkPin_keeps {A_ : List Area} {s_ t_ : State} {fn : Fn} {m : MbxHdr} {port : Byte} {action : Byte} {hash : List Byte} {s : State} (h_ : execLinkPin fn m port action hash s = .next t_)
    (ha_ : [.serialNo, .sec, .hosts, .boot, .out] ⊆ A_) (hs_ : Keeps A_ s_ s) : Keeps A_ s_ t_ := by
  refine Keeps.comp ?_ ha_ hs_
  clear hs_ ha_; unfold execLinkPin at h_
  try dsimp only at h_
  all_goals first | with_reducible exact Keeps.of_fault h_ | (with_reducible obtain rfl := Host.Outcome.next.inj h_) | skip
  repeat' first
    | with_reducible exact Keeps.refl _ _
    | with_reducible apply linkPin_keeps
    | with_reducible refine mailbox_keeps (fun _ _ => ?_) ?_ ?_
    | (show (_ : List Area) ⊆ _; decide)

end Sys2Proof.Machine
end

