-- ==== Sys2Proof/Laws/Frame/Regs.lean ====
section
/-! SUPPORT. The frame of every operation of Machine/Regs.lean: the areas it may change, and that pool memory keeps its canonical form. -/

namespace Sys2Proof.Machine

set_option linter.unusedTactic false
set_option linter.unreachableTactic false
set_option linter.unusedVariables false

theorem readPort_keeps {A_ : List Area} {s_ : State} {slot : Nat} {fn : Fn} {off : Nat} {size : Nat} {s : State}
    (ha_ : [.dir, .hosts] ⊆ A_) (hs_ : Keeps A_ s_ s) : Keeps A_ s_ (readPort slot fn off size s).2 := by
  refine Keeps.comp ?_ ha_ hs_
  clear hs_ ha_; unfold readPort
  try dsimp only
  repeat' first
    | with_reducible exact Keeps.refl _ _
    | with_reducible apply State.setHost_keeps
    | with_reducible refine Keeps.ite ?_ ?_
    | exact Or.inr (by decide)
    | with_reducible exact Or.inl rfl
    | (show (_ : List Area) ⊆ _; decide)
    | split
    | with_reducible apply Keeps.mk
    | dsimp only
    | exact Or.inl rfl

theorem busRead_keeps {A_ : List Area} {s_ : State} {fn : Fn} {off : Nat} {size : Nat} {s : State}
    (ha_ : [.dir, .hosts, .out] ⊆ A_) (hs_ : Keeps A_ s_ s) : Keeps A_ s_ (busRead fn off size s) := by
  refine Keeps.comp ?_ ha_ hs_
  clear hs_ ha_; unfold busRead
  try dsimp only
  repeat' first
    | with_reducible exact Keeps.refl _ _
    | with_reducible apply readPort_keeps
    | with_reducible refine Keeps.pair1 (p := readPort _ _ _ _ _) (by assumption) ?_
    | with_reducible apply State.emit_keeps
    | with_reducible refine Keeps.ite ?_ ?_
    | (show (_ : List Area) ⊆ _; decide)
    | split
    | dsimp only

theorem writeQ_keeps {A_ : List Area} {s_ : State} {q : QId} {r : Nat} {v : Word} {s : State}
    (ha_ : [.crs, .insts, .nid, .parts, .pttStatus, .serialNo, .ports, .xpt, .msh, .til, .dram, .dir, .eng, .arr, .sec, .hosts, .flt, .boot, .sbd, .out] ⊆ A_) (hs_ : Keeps A_ s_ s) : Keeps A_ s_ (writeQ q r v s) := by
  refine Keeps.comp ?_ ha_ hs_
  clear hs_ ha_; unfold writeQ
  try dsimp only
  repeat' first
    | with_reducible exact Keeps.refl _ _
    | with_reducible apply illegal_keeps
    | with_reducible apply writeAbort_keeps
    | with_reducible apply writeCqHead_keeps
    | with_reducible apply writeSqTail_keeps
    | with_reducible apply State.setQueue_keeps
    | with_reducible refine Keeps.ite ?_ ?_
    | exact Or.inr (by decide)
    | with_reducible exact Or.inl rfl
    | (show (_ : List Area) ⊆ _; decide)
    | split
    | with_reducible apply Keeps.mk
    | dsimp only
    | exact Or.inl rfl

theorem writeGenctl_keeps {A_ : List Area} {s_ : State} {i : Nat} {v : Word} {s : State}
    (ha_ : [.crs, .insts, .nid, .pttStatus, .ports, .xpt, .msh, .til, .dram, .dir, .eng, .arr, .sec, .hosts, .flt, .boot, .sbd] ⊆ A_) (hs_ : Keeps A_ s_ s) : Keeps A_ s_ (writeGenctl i v s) := by
  refine Keeps.comp ?_ ha_ hs_
  clear hs_ ha_; unfold writeGenctl
  try dsimp only
  repeat' first
    | with_reducible exact Keeps.refl _ _
    | with_reducible apply illegal_keeps
    | with_reducible apply State.setCommit_keeps
    | with_reducible refine Keeps.ite ?_ ?_
    | (show (_ : List Area) ⊆ _; decide)
    | split
    | dsimp only

theorem writeSlot_keeps {A_ : List Area} {s_ : State} {hp : Fin 4} {off : Nat} {i : Nat} {k : Nat} {v : Word} {s : State}
    (ha_ : [.crs, .insts, .nid, .pttStatus, .ports, .xpt, .msh, .til, .dram, .dir, .eng, .arr, .sec, .hosts, .flt, .boot, .sbd] ⊆ A_) (hs_ : Keeps A_ s_ s) : Keeps A_ s_ (writeSlot hp off i k v s) := by
  refine Keeps.comp ?_ ha_ hs_
  clear hs_ ha_; unfold writeSlot
  try dsimp only
  repeat' first
    | with_reducible exact Keeps.refl _ _
    | with_reducible apply illegal_keeps
    | with_reducible apply State.putShadow_keeps
    | with_reducible refine Keeps.ite ?_ ?_
    | (show (_ : List Area) ⊆ _; decide)
    | split
    | dsimp only

theorem writeLnk_keeps {A_ : List Area} {s_ t_ : State} {n : Fin 32} {o : Nat} {v : Word} {s : State} (h_ : writeLnk n o v s = some t_)
    (ha_ : [.streams, .reqs, .ports, .xpt, .eng, .hosts, .flt, .sbd, .out] ⊆ A_) (hs_ : Keeps A_ s_ s) : Keeps A_ s_ t_ := by
  refine Keeps.comp ?_ ha_ hs_
  clear hs_ ha_; unfold writeLnk at h_
  try dsimp only at h_
  repeat' (split at h_)
  all_goals first | with_reducible exact Keeps.of_none h_ | (with_reducible obtain rfl := Option.some.inj h_) | skip
  repeat' first
    | with_reducible exact Keeps.refl _ _
    | with_reducible apply lnkDisable_keeps
    | with_reducible apply lnkEnable_keeps
    | with_reducible apply lnkRetrain_keeps
    | with_reducible apply State.setPort_keeps
    | with_reducible refine Keeps.ite ?_ ?_
    | exact Or.inr (by decide)
    | with_reducible exact Or.inl rfl
    | (show (_ : List Area) ⊆ _; decide)
    | split
    | with_reducible apply Keeps.mk
    | dsimp only
    | exact Or.inl rfl

theorem writeTier_keeps {A_ : List Area} {s_ t_ : State} {t : Tier} {o : Nat} {v : Word} {s : State} (h_ : writeTier t o v s = some t_)
    (ha_ : [.dram, .hosts, .flt, .boot, .sbd, .out] ⊆ A_) (hs_ : Keeps A_ s_ s) : Keeps A_ s_ t_ := by
  refine Keeps.comp ?_ ha_ hs_
  clear hs_ ha_; unfold writeTier at h_
  try dsimp only at h_
  repeat' (split at h_)
  all_goals first | with_reducible exact Keeps.of_none h_ | (with_reducible obtain rfl := Option.some.inj h_) | skip
  repeat' first
    | with_reducible exact Keeps.refl _ _
    | with_reducible apply suspectClear_keeps
    | with_reducible apply rateApply_keeps
    | with_reducible apply tierSleep_keeps
    | with_reducible apply suspectCheck_keeps
    | with_reducible apply wakeTier_keeps
    | with_reducible apply State.setTier_keeps
    | with_reducible refine Keeps.foldl (fun _ _ => ?_) _ ?_
    | with_reducible refine Keeps.ite ?_ ?_
    | exact Or.inr (by decide)
    | with_reducible exact Or.inl rfl
    | (show (_ : List Area) ⊆ _; decide)
    | split
    | with_reducible apply Keeps.mk
    | dsimp only
    | exact Or.inl rfl

theorem writeEvCfg_keeps {A_ : List Area} {s_ t_ : State} {hp : Fin 4} {v : Word} {s : State} (h_ : writeEvCfg hp v s = some t_)
    (ha_ : [.hosts, .out] ⊆ A_) (hs_ : Keeps A_ s_ s) : Keeps A_ s_ t_ := by
  refine Keeps.comp ?_ ha_ hs_
  clear hs_ ha_; unfold writeEvCfg at h_
  try dsimp only at h_
  repeat' (split at h_)
  all_goals first | with_reducible exact Keeps.of_none h_ | (with_reducible obtain rfl := Option.some.inj h_) | skip
  repeat' first
    | with_reducible exact Keeps.refl _ _
    | with_reducible apply drainRing_keeps
    | with_reducible apply State.setHost_keeps
    | with_reducible refine Keeps.ite ?_ ?_
    | exact Or.inr (by decide)
    | with_reducible exact Or.inl rfl
    | (show (_ : List Area) ⊆ _; decide)
    | split
    | with_reducible apply Keeps.mk
    | dsimp only
    | exact Or.inl rfl

theorem writeEvHead_keeps {A_ : List Area} {s_ t_ : State} {hp : Fin 4} {v : Word} {s : State} (h_ : writeEvHead hp v s = some t_)
    (ha_ : [.hosts, .out] ⊆ A_) (hs_ : Keeps A_ s_ s) : Keeps A_ s_ t_ := by
  refine Keeps.comp ?_ ha_ hs_
  clear hs_ ha_; unfold writeEvHead at h_
  try dsimp only at h_
  repeat' (split at h_)
  all_goals first | with_reducible exact Keeps.of_none h_ | (with_reducible obtain rfl := Option.some.inj h_) | skip
  repeat' first
    | with_reducible exact Keeps.refl _ _
    | with_reducible apply drainRing_keeps
    | with_reducible apply State.setHost_keeps
    | with_reducible refine Keeps.ite ?_ ?_
    | exact Or.inr (by decide)
    | with_reducible exact Or.inl rfl
    | (show (_ : List Area) ⊆ _; decide)
    | split
    | with_reducible apply Keeps.mk
    | dsimp only
    | exact Or.inl rfl

theorem writeMbx_keeps {A_ : List Area} {s_ t_ : State} {hp : Fin 4} {o : Nat} {v : Word} {s : State} (h_ : writeMbx hp o v s = some t_)
    (ha_ : [.hosts, .out] ⊆ A_) (hs_ : Keeps A_ s_ s) : Keeps A_ s_ t_ := by
  refine Keeps.comp ?_ ha_ hs_
  clear hs_ ha_; unfold writeMbx at h_
  try dsimp only at h_
  repeat' (split at h_)
  all_goals first | with_reducible exact Keeps.of_none h_ | (with_reducible obtain rfl := Option.some.inj h_) | skip
  repeat' first
    | with_reducible exact Keeps.refl _ _
    | with_reducible refine writeEvHead_keeps (by assumption) ?_ ?_
    | with_reducible refine writeEvCfg_keeps (by assumption) ?_ ?_
    | with_reducible apply State.setHost_keeps
    | with_reducible refine Keeps.ite ?_ ?_
    | exact Or.inr (by decide)
    | with_reducible exact Or.inl rfl
    | (show (_ : List Area) ⊆ _; decide)
    | split
    | with_reducible apply Keeps.mk
    | dsimp only
    | exact Or.inl rfl

theorem writeCrs_keeps {A_ : List Area} {s_ t_ : State} {o : Nat} {v : Word} {s : State} (h_ : writeCrs o v s = some t_)
    (ha_ : [.crs, .serialNo, .hosts, .sbd, .out] ⊆ A_) (hs_ : Keeps A_ s_ s) : Keeps A_ s_ t_ := by
  refine Keeps.comp ?_ ha_ hs_
  clear hs_ ha_; unfold writeCrs at h_
  try dsimp only at h_
  repeat' (split at h_)
  all_goals first | with_reducible exact Keeps.of_none h_ | (with_reducible obtain rfl := Option.some.inj h_) | skip
  repeat' first
    | with_reducible exact Keeps.refl _ _
    | with_reducible apply slipClear_keeps
    | exact Or.inr (by decide)
    | with_reducible exact Or.inl rfl
    | (show (_ : List Area) ⊆ _; decide)
    | split
    | with_reducible apply Keeps.mk
    | dsimp only
    | exact Or.inl rfl

theorem writeMsh_keeps {A_ : List Area} {s_ t_ : State} {o : Nat} {v : Word} {s : State} (h_ : writeMsh o v s = some t_)
    (ha_ : [.msh] ⊆ A_) (hs_ : Keeps A_ s_ s) : Keeps A_ s_ t_ := by
  refine Keeps.comp ?_ ha_ hs_
  clear hs_ ha_; unfold writeMsh at h_
  try dsimp only at h_
  repeat' (split at h_)
  all_goals first | with_reducible exact Keeps.of_none h_ | (with_reducible obtain rfl := Option.some.inj h_) | skip
  repeat' first
    | with_reducible exact Keeps.refl _ _
    | with_reducible apply setThrottle_keeps
    | with_reducible refine Keeps.ite ?_ ?_
    | exact Or.inr (by decide)
    | with_reducible exact Or.inl rfl
    | (show (_ : List Area) ⊆ _; decide)
    | split
    | with_reducible apply Keeps.mk
    | dsimp only
    | exact Or.inl rfl

theorem writeTil_keeps {A_ : List Area} {s_ t_ : State} {hp : Fin 4} {o : Nat} {v : Word} {s : State} (h_ : writeTil hp o v s = some t_)
    (ha_ : [.til, .hosts] ⊆ A_) (hs_ : Keeps A_ s_ s) : Keeps A_ s_ t_ := by
  refine Keeps.comp ?_ ha_ hs_
  clear hs_ ha_; unfold writeTil at h_
  try dsimp only at h_
  repeat' (split at h_)
  all_goals first | with_reducible exact Keeps.of_none h_ | (with_reducible obtain rfl := Option.some.inj h_) | skip
  repeat' first
    | with_reducible exact Keeps.refl _ _
    | with_reducible apply State.setHost_keeps
    | exact Or.inr (by decide)
    | with_reducible exact Or.inl rfl
    | (show (_ : List Area) ⊆ _; decide)
    | split
    | with_reducible apply Keeps.mk
    | dsimp only
    | exact Or.inl rfl

theorem writeDir_keeps {A_ : List Area} {s_ t_ : State} {o : Nat} {v : Word} {s : State} (h_ : writeDir o v s = some t_)
    (ha_ : [.dir] ⊆ A_) (hs_ : Keeps A_ s_ s) : Keeps A_ s_ t_ := by
  refine Keeps.comp ?_ ha_ hs_
  clear hs_ ha_; unfold writeDir at h_
  try dsimp only at h_
  repeat' (split at h_)
  all_goals first | with_reducible exact Keeps.of_none h_ | (with_reducible obtain rfl := Option.some.inj h_) | skip
  repeat' first
    | with_reducible exact Keeps.refl _ _
    | with_reducible refine Keeps.ite ?_ ?_
    | exact Or.inr (by decide)
    | with_reducible exact Or.inl rfl
    | (show (_ : List Area) ⊆ _; decide)
    | split
    | with_reducible apply Keeps.mk
    | dsimp only
    | exact Or.inl rfl

theorem writeArr_keeps {A_ : List Area} {s_ t_ : State} {o : Nat} {v : Word} {s : State} (h_ : writeArr o v s = some t_)
    (ha_ : [.arr] ⊆ A_) (hs_ : Keeps A_ s_ s) : Keeps A_ s_ t_ := by
  refine Keeps.comp ?_ ha_ hs_
  clear hs_ ha_; unfold writeArr at h_
  try dsimp only at h_
  repeat' (split at h_)
  all_goals first | with_reducible exact Keeps.of_none h_ | (with_reducible obtain rfl := Option.some.inj h_) | skip
  repeat' first
    | with_reducible exact Keeps.refl _ _
    | exact Or.inr (by decide)
    | with_reducible exact Or.inl rfl
    | (show (_ : List Area) ⊆ _; decide)
    | split
    | with_reducible apply Keeps.mk
    | dsimp only
    | exact Or.inl rfl

theorem writeCfg_keeps {A_ : List Area} {s_ t_ : State} {o : Nat} {v : Word} {s : State} (h_ : writeCfg o v s = some t_)
    (ha_ : [.arr] ⊆ A_) (hs_ : Keeps A_ s_ s) : Keeps A_ s_ t_ := by
  refine Keeps.comp ?_ ha_ hs_
  clear hs_ ha_; unfold writeCfg at h_
  try dsimp only at h_
  repeat' (split at h_)
  all_goals first | with_reducible exact Keeps.of_none h_ | (with_reducible obtain rfl := Option.some.inj h_) | skip
  repeat' first
    | with_reducible exact Keeps.refl _ _
    | exact Or.inr (by decide)
    | with_reducible exact Or.inl rfl
    | (show (_ : List Area) ⊆ _; decide)
    | split
    | with_reducible apply Keeps.mk
    | dsimp only
    | exact Or.inl rfl

theorem writeSbd_keeps {A_ : List Area} {s_ t_ : State} {o : Nat} {v : Word} {s : State} (h_ : writeSbd o v s = some t_)
    (ha_ : [.sbd] ⊆ A_) (hs_ : Keeps A_ s_ s) : Keeps A_ s_ t_ := by
  refine Keeps.comp ?_ ha_ hs_
  clear hs_ ha_; unfold writeSbd at h_
  try dsimp only at h_
  repeat' (split at h_)
  all_goals first | with_reducible exact Keeps.of_none h_ | (with_reducible obtain rfl := Option.some.inj h_) | skip
  repeat' first
    | with_reducible exact Keeps.refl _ _
    | exact Or.inr (by decide)
    | with_reducible exact Or.inl rfl
    | (show (_ : List Area) ⊆ _; decide)
    | split
    | with_reducible apply Keeps.mk
    | dsimp only
    | exact Or.inl rfl

theorem writePwr_keeps {A_ : List Area} {s_ t_ : State} {off : Nat} {v : Word} {s : State} (h_ : writePwr off v s = some t_)
    (ha_ : [.pwr] ⊆ A_) (hs_ : Keeps A_ s_ s) : Keeps A_ s_ t_ := by
  refine Keeps.comp ?_ ha_ hs_
  clear hs_ ha_; unfold writePwr at h_
  try dsimp only at h_
  repeat' (split at h_)
  all_goals first | with_reducible exact Keeps.of_none h_ | (with_reducible obtain rfl := Option.some.inj h_) | skip
  repeat' first
    | with_reducible exact Keeps.refl _ _
    | with_reducible refine Keeps.ite ?_ ?_
    | exact Or.inr (by decide)
    | with_reducible exact Or.inl rfl
    | (show (_ : List Area) ⊆ _; decide)
    | split
    | with_reducible apply Keeps.mk
    | dsimp only
    | exact Or.inl rfl

theorem writeBootStatus_keeps {A_ : List Area} {s_ : State} {v : Word} {s : State}
    (ha_ : [.boot] ⊆ A_) (hs_ : Keeps A_ s_ s) : Keeps A_ s_ (writeBootStatus v s) := by
  refine Keeps.comp ?_ ha_ hs_
  clear hs_ ha_; unfold writeBootStatus
  try dsimp only
  repeat' first
    | with_reducible exact Keeps.refl _ _
    | with_reducible refine Keeps.ite ?_ ?_
    | exact Or.inr (by decide)
    | with_reducible exact Or.inl rfl
    | (show (_ : List Area) ⊆ _; decide)
    | split
    | with_reducible apply Keeps.mk
    | dsimp only
    | exact Or.inl rfl

theorem writeBlk_keeps {A_ : List Area} {s_ t_ : State} {fn : Fn} {off : Nat} {v : Word} {s : State} (h_ : writeBlk fn off v s = some t_)
    (ha_ : [.crs, .nid, .pttStatus, .streams, .reqs, .serialNo, .ports, .xpt, .msh, .til, .dram, .dir, .eng, .arr, .sec, .hosts, .pwr, .flt, .boot, .sbd, .out] ⊆ A_) (hs_ : Keeps A_ s_ s) : Keeps A_ s_ t_ := by
  refine Keeps.comp ?_ ha_ hs_
  clear hs_ ha_; unfold writeBlk at h_
  try dsimp only at h_
  repeat' (split at h_)
  all_goals first | with_reducible exact Keeps.of_none h_ | (with_reducible obtain rfl := Option.some.inj h_) | skip
  repeat' first
    | with_reducible exact Keeps.refl _ _
    | with_reducible apply writeBootStatus_keeps
    | with_reducible refine writePwr_keeps (by assumption) ?_ ?_
    | with_reducible refine writeSbd_keeps (by assumption) ?_ ?_
    | with_reducible refine writeCfg_keeps (by assumption) ?_ ?_
    | with_reducible refine writeArr_keeps (by assumption) ?_ ?_
    | with_reducible refine writeDir_keeps (by assumption) ?_ ?_
    | with_reducible refine writeTil_keeps (by assumption) ?_ ?_
    | with_reducible refine writeMsh_keeps (by assumption) ?_ ?_
    | with_reducible refine writeCrs_keeps (by assumption) ?_ ?_
    | with_reducible refine writeMbx_keeps (by assumption) ?_ ?_
    | with_reducible refine writeTier_keeps (by assumption) ?_ ?_
    | with_reducible refine writeLnk_keeps (by assumption) ?_ ?_
    | with_reducible refine Keeps.ite ?_ ?_
    | exact Or.inr (by decide)
    | with_reducible exact Or.inl rfl
    | (show (_ : List Area) ⊆ _; decide)
    | split
    | with_reducible apply Keeps.mk
    | dsimp only
    | exact Or.inl rfl

theorem writeLow_keeps {A_ : List Area} {s_ t_ : State} {fn : Fn} {off : Nat} {v : Word} {s : State} (h_ : writeLow fn off v s = some t_)
    (ha_ : [.hosts] ⊆ A_) (hs_ : Keeps A_ s_ s) : Keeps A_ s_ t_ := by
  refine Keeps.comp ?_ ha_ hs_
  clear hs_ ha_; unfold writeLow at h_
  try dsimp only at h_
  repeat' (split at h_)
  all_goals first | with_reducible exact Keeps.of_none h_ | (with_reducible obtain rfl := Option.some.inj h_) | skip
  repeat' first
    | with_reducible exact Keeps.refl _ _
    | with_reducible apply State.setHost_keeps
    | with_reducible refine Keeps.ite ?_ ?_
    | exact Or.inr (by decide)
    | with_reducible exact Or.inl rfl
    | (show (_ : List Area) ⊆ _; decide)
    | split
    | with_reducible apply Keeps.mk
    | dsimp only
    | exact Or.inl rfl

theorem writeHigh_keeps {A_ : List Area} {s_ t_ : State} {fn : Fn} {off : Nat} {v : Word} {s : State} (h_ : writeHigh fn off v s = some t_)
    (ha_ : [.insts, .dir, .hosts] ⊆ A_) (hs_ : Keeps A_ s_ s) : Keeps A_ s_ t_ := by
  refine Keeps.comp ?_ ha_ hs_
  clear hs_ ha_; unfold writeHigh at h_
  try dsimp only at h_
  repeat' (split at h_)
  all_goals first | with_reducible exact Keeps.of_none h_ | (with_reducible obtain rfl := Option.some.inj h_) | skip
  repeat' first
    | with_reducible exact Keeps.refl _ _
    | with_reducible apply State.putShadow_keeps
    | with_reducible apply State.setHost_keeps
    | with_reducible refine Keeps.getD (fun _ _ => ?_) ?_
    | with_reducible refine Keeps.ite ?_ ?_
    | exact Or.inr (by decide)
    | with_reducible exact Or.inl rfl
    | (show (_ : List Area) ⊆ _; decide)
    | split
    | with_reducible apply Keeps.mk
    | dsimp only
    | exact Or.inl rfl

theorem writeReg_keeps {A_ : List Area} {s_ : State} {fn : Fn} {off : Nat} {v : Word} {s : State}
    (ha_ : [.crs, .insts, .nid, .parts, .pttStatus, .streams, .reqs, .serialNo, .ports, .xpt, .msh, .til, .dram, .dir, .eng, .arr, .sec, .hosts, .pwr, .flt, .boot, .sbd, .out] ⊆ A_) (hs_ : Keeps A_ s_ s) : Keeps A_ s_ (writeReg fn off v s) := by
  have bad : ∀ b, Keeps A_ s_ (illegal fn.port b s) := fun _ => illegal_keeps (List.Subset.trans (by decide) ha_) hs_
  unfold writeReg
  split
  · exact writeQ_keeps (List.Subset.trans (by decide) ha_) hs_
  · refine Keeps.ite hs_ ?_
    split
    · refine Keeps.getD (fun t e => ?_) (bad _)
      split at e
      · exact writeLow_keeps e (List.Subset.trans (by decide) ha_) hs_
      · exact writeHigh_keeps e (List.Subset.trans (by decide) ha_) hs_
    · split
      · exact Keeps.ite (bad _) (writeGenctl_keeps (List.Subset.trans (by decide) ha_) hs_)
      · split
        · exact writeSlot_keeps (List.Subset.trans (by decide) ha_) hs_
        · exact Keeps.ite hs_ (Keeps.getD (fun t e => writeBlk_keeps e (List.Subset.trans (by decide) ha_) hs_) (bad _))

theorem badWrite_keeps {A_ : List Area} {s_ : State} {fn : Fn} {off : Nat} {s : State}
    (ha_ : [.crs, .nid, .pttStatus, .ports, .xpt, .msh, .til, .dram, .dir, .eng, .arr, .sec, .hosts, .flt, .boot, .sbd] ⊆ A_) (hs_ : Keeps A_ s_ s) : Keeps A_ s_ (badWrite fn off s) := by
  refine Keeps.comp ?_ ha_ hs_
  clear hs_ ha_; unfold badWrite
  try dsimp only
  repeat' first
    | with_reducible exact Keeps.refl _ _
    | with_reducible apply illegal_keeps
    | with_reducible apply qIllegal_keeps
    | with_reducible refine Keeps.ite ?_ ?_
    | (show (_ : List Area) ⊆ _; decide)
    | split
    | dsimp only

theorem busWrite_keeps {A_ : List Area} {s_ : State} {fn : Fn} {w : RegWr} {s : State}
    (ha_ : [.crs, .insts, .nid, .parts, .pttStatus, .streams, .reqs, .serialNo, .ports, .xpt, .msh, .til, .dram, .dir, .eng, .arr, .sec, .hosts, .pwr, .flt, .boot, .sbd, .out] ⊆ A_) (hs_ : Keeps A_ s_ s) : Keeps A_ s_ (busWrite fn w s) := by
  refine Keeps.comp ?_ ha_ hs_
  clear hs_ ha_; unfold busWrite
  try dsimp only
  repeat' first
    | with_reducible exact Keeps.refl _ _
    | with_reducible apply badWrite_keeps
    | with_reducible apply writeReg_keeps
    | with_reducible apply illegal_keeps
    | with_reducible apply mbxIllegal_keeps
    | with_reducible refine Keeps.ite ?_ ?_
    | (show (_ : List Area) ⊆ _; decide)
    | split
    | dsimp only

theorem execRegisterPairWrite_keeps {A_ : List Area} {s_ t_ : State} {fn : Fn} {w : RegWr} {s : State} (h_ : execRegisterPairWrite fn w s = .next t_)
    (ha_ : [.crs, .insts, .nid, .parts, .pttStatus, .streams, .reqs, .serialNo, .ports, .xpt, .msh, .til, .dram, .dir, .eng, .arr, .sec, .hosts, .pwr, .flt, .boot, .sbd, .out] ⊆ A_) (hs_ : Keeps A_ s_ s) : Keeps A_ s_ t_ := by
  refine Keeps.comp ?_ ha_ hs_
  clear hs_ ha_; unfold execRegisterPairWrite at h_
  try dsimp only at h_
  all_goals first | with_reducible exact Keeps.of_fault h_ | (with_reducible obtain rfl := Host.Outcome.next.inj h_) | skip
  repeat' first
    | with_reducible exact Keeps.refl _ _
    | with_reducible apply busWrite_keeps
    | (show (_ : List Area) ⊆ _; decide)

theorem execRegisterPairLowRead_keeps {A_ : List Area} {s_ t_ : State} {fn : Fn} {off : Nat} {size : Nat} {s : State} (h_ : execRegisterPairLowRead fn off size s = .next t_)
    (ha_ : [.dir, .hosts, .out] ⊆ A_) (hs_ : Keeps A_ s_ s) : Keeps A_ s_ t_ := by
  refine Keeps.comp ?_ ha_ hs_
  clear hs_ ha_; unfold execRegisterPairLowRead at h_
  try dsimp only at h_
  all_goals first | with_reducible exact Keeps.of_fault h_ | (with_reducible obtain rfl := Host.Outcome.next.inj h_) | skip
  repeat' first
    | with_reducible exact Keeps.refl _ _
    | with_reducible apply busRead_keeps
    | (show (_ : List Area) ⊆ _; decide)

theorem execShadowWrite_keeps {A_ : List Area} {s_ t_ : State} {fn : Fn} {w : RegWr} {s : State} (h_ : execShadowWrite fn w s = .next t_)
    (ha_ : [.crs, .insts, .nid, .parts, .pttStatus, .streams, .reqs, .serialNo, .ports, .xpt, .msh, .til, .dram, .dir, .eng, .arr, .sec, .hosts, .pwr, .flt, .boot, .sbd, .out] ⊆ A_) (hs_ : Keeps A_ s_ s) : Keeps A_ s_ t_ := by
  refine Keeps.comp ?_ ha_ hs_
  clear hs_ ha_; unfold execShadowWrite at h_
  try dsimp only at h_
  all_goals first | with_reducible exact Keeps.of_fault h_ | (with_reducible obtain rfl := Host.Outcome.next.inj h_) | skip
  repeat' first
    | with_reducible exact Keeps.refl _ _
    | with_reducible apply busWrite_keeps
    | (show (_ : List Area) ⊆ _; decide)

theorem execGenctlCommit_keeps {A_ : List Area} {s_ t_ : State} {fn : Fn} {w : RegWr} {s : State} (h_ : execGenctlCommit fn w s = .next t_)
    (ha_ : [.crs, .insts, .nid, .parts, .pttStatus, .streams, .reqs, .serialNo, .ports, .xpt, .msh, .til, .dram, .dir, .eng, .arr, .sec, .hosts, .pwr, .flt, .boot, .sbd, .out] ⊆ A_) (hs_ : Keeps A_ s_ s) : Keeps A_ s_ t_ := by
  refine Keeps.comp ?_ ha_ hs_
  clear hs_ ha_; unfold execGenctlCommit at h_
  try dsimp only at h_
  all_goals first | with_reducible exact Keeps.of_fault h_ | (with_reducible obtain rfl := Host.Outcome.next.inj h_) | skip
  repeat' first
    | with_reducible exact Keeps.refl _ _
    | with_reducible apply busWrite_keeps
    | (show (_ : List Area) ⊆ _; decide)

theorem execDirLkEntryRead_keeps {A_ : List Area} {s_ t_ : State} {fn : Fn} {s : State} (h_ : execDirLkEntryRead fn s = .next t_)
    (ha_ : [.dir, .hosts, .out] ⊆ A_) (hs_ : Keeps A_ s_ s) : Keeps A_ s_ t_ := by
  refine Keeps.comp ?_ ha_ hs_
  clear hs_ ha_; unfold execDirLkEntryRead at h_
  try dsimp only at h_
  all_goals first | with_reducible exact Keeps.of_fault h_ | (with_reducible obtain rfl := Host.Outcome.next.inj h_) | skip
  repeat' first
    | with_reducible exact Keeps.refl _ _
    | with_reducible apply busRead_keeps
    | (show (_ : List Area) ⊆ _; decide)

theorem execSlipClr_keeps {A_ : List Area} {s_ t_ : State} {fn : Fn} {w : RegWr} {slips : List Proc} {s : State} (h_ : execSlipClr fn w slips s = .next t_)
    (ha_ : [.crs, .insts, .nid, .parts, .pttStatus, .streams, .reqs, .serialNo, .ports, .xpt, .msh, .til, .dram, .dir, .eng, .arr, .sec, .hosts, .pwr, .flt, .boot, .sbd, .out] ⊆ A_) (hs_ : Keeps A_ s_ s) : Keeps A_ s_ t_ := by
  refine Keeps.comp ?_ ha_ hs_
  clear hs_ ha_; unfold execSlipClr at h_
  try dsimp only at h_
  all_goals first | with_reducible exact Keeps.of_fault h_ | (with_reducible obtain rfl := Host.Outcome.next.inj h_) | skip
  repeat' first
    | with_reducible exact Keeps.refl _ _
    | with_reducible apply busWrite_keeps
    | with_reducible apply courseSlip_keeps
    | with_reducible refine whileAlive_keeps (fun _ => ?_) ?_
    | with_reducible refine Keeps.foldl (fun _ _ => ?_) _ ?_
    | (show (_ : List Area) ⊆ _; decide)

theorem execReadbackEnable_keeps {A_ : List Area} {s_ t_ : State} {fn : Fn} {w : RegWr} {s : State} (h_ : execReadbackEnable fn w s = .next t_)
    (ha_ : [.crs, .insts, .nid, .parts, .pttStatus, .streams, .reqs, .serialNo, .ports, .xpt, .msh, .til, .dram, .dir, .eng, .arr, .sec, .hosts, .pwr, .flt, .boot, .sbd, .out] ⊆ A_) (hs_ : Keeps A_ s_ s) : Keeps A_ s_ t_ := by
  refine Keeps.comp ?_ ha_ hs_
  clear hs_ ha_; unfold execReadbackEnable at h_
  try dsimp only at h_
  all_goals first | with_reducible exact Keeps.of_fault h_ | (with_reducible obtain rfl := Host.Outcome.next.inj h_) | skip
  repeat' first
    | with_reducible exact Keeps.refl _ _
    | with_reducible apply busWrite_keeps
    | (show (_ : List Area) ⊆ _; decide)

theorem execEvRingEnable_keeps {A_ : List Area} {s_ t_ : State} {fn : Fn} {w : RegWr} {s : State} (h_ : execEvRingEnable fn w s = .next t_)
    (ha_ : [.crs, .insts, .nid, .parts, .pttStatus, .streams, .reqs, .serialNo, .ports, .xpt, .msh, .til, .dram, .dir, .eng, .arr, .sec, .hosts, .pwr, .flt, .boot, .sbd, .out] ⊆ A_) (hs_ : Keeps A_ s_ s) : Keeps A_ s_ t_ := by
  refine Keeps.comp ?_ ha_ hs_
  clear hs_ ha_; unfold execEvRingEnable at h_
  try dsimp only at h_
  all_goals first | with_reducible exact Keeps.of_fault h_ | (with_reducible obtain rfl := Host.Outcome.next.inj h_) | skip
  repeat' first
    | with_reducible exact Keeps.refl _ _
    | with_reducible apply busWrite_keeps
    | (show (_ : List Area) ⊆ _; decide)

theorem execEvRingDisable_keeps {A_ : List Area} {s_ t_ : State} {fn : Fn} {w : RegWr} {s : State} (h_ : execEvRingDisable fn w s = .next t_)
    (ha_ : [.crs, .insts, .nid, .parts, .pttStatus, .streams, .reqs, .serialNo, .ports, .xpt, .msh, .til, .dram, .dir, .eng, .arr, .sec, .hosts, .pwr, .flt, .boot, .sbd, .out] ⊆ A_) (hs_ : Keeps A_ s_ s) : Keeps A_ s_ t_ := by
  refine Keeps.comp ?_ ha_ hs_
  clear hs_ ha_; unfold execEvRingDisable at h_
  try dsimp only at h_
  all_goals first | with_reducible exact Keeps.of_fault h_ | (with_reducible obtain rfl := Host.Outcome.next.inj h_) | skip
  repeat' first
    | with_reducible exact Keeps.refl _ _
    | with_reducible apply busWrite_keeps
    | (show (_ : List Area) ⊆ _; decide)

theorem execEvHeadWrite_keeps {A_ : List Area} {s_ t_ : State} {fn : Fn} {w : RegWr} {s : State} (h_ : execEvHeadWrite fn w s = .next t_)
    (ha_ : [.crs, .insts, .nid, .parts, .pttStatus, .streams, .reqs, .serialNo, .ports, .xpt, .msh, .til, .dram, .dir, .eng, .arr, .sec, .hosts, .pwr, .flt, .boot, .sbd, .out] ⊆ A_) (hs_ : Keeps A_ s_ s) : Keeps A_ s_ t_ := by
  refine Keeps.comp ?_ ha_ hs_
  clear hs_ ha_; unfold execEvHeadWrite at h_
  try dsimp only at h_
  all_goals first | with_reducible exact Keeps.of_fault h_ | (with_reducible obtain rfl := Host.Outcome.next.inj h_) | skip
  repeat' first
    | with_reducible exact Keeps.refl _ _
    | with_reducible apply busWrite_keeps
    | (show (_ : List Area) ⊆ _; decide)

theorem execPwrCapWrite_keeps {A_ : List Area} {s_ t_ : State} {fn : Fn} {w : RegWr} {s : State} (h_ : execPwrCapWrite fn w s = .next t_)
    (ha_ : [.crs, .insts, .nid, .parts, .pttStatus, .streams, .reqs, .serialNo, .ports, .xpt, .msh, .til, .dram, .dir, .eng, .arr, .sec, .hosts, .pwr, .flt, .boot, .sbd, .out] ⊆ A_) (hs_ : Keeps A_ s_ s) : Keeps A_ s_ t_ := by
  refine Keeps.comp ?_ ha_ hs_
  clear hs_ ha_; unfold execPwrCapWrite at h_
  try dsimp only at h_
  all_goals first | with_reducible exact Keeps.of_fault h_ | (with_reducible obtain rfl := Host.Outcome.next.inj h_) | skip
  repeat' first
    | with_reducible exact Keeps.refl _ _
    | with_reducible apply busWrite_keeps
    | (show (_ : List Area) ⊆ _; decide)

theorem queueWrite_keeps {A_ : List Area} {s_ : State} {fn : Fn} {q : QId} {r : Nat} {v : Word} {s : State}
    (ha_ : [.crs, .insts, .nid, .parts, .pttStatus, .streams, .reqs, .serialNo, .ports, .xpt, .msh, .til, .dram, .dir, .eng, .arr, .sec, .hosts, .pwr, .flt, .boot, .sbd, .out] ⊆ A_) (hs_ : Keeps A_ s_ s) : Keeps A_ s_ (queueWrite fn q r v s) := by
  refine Keeps.comp ?_ ha_ hs_
  clear hs_ ha_; unfold queueWrite
  try dsimp only
  repeat' first
    | with_reducible exact Keeps.refl _ _
    | with_reducible apply busWrite_keeps
    | (show (_ : List Area) ⊆ _; decide)
    | split
    | dsimp only

theorem execSqDoorbell_keeps {A_ : List Area} {s_ t_ : State} {fn : Fn} {q : QId} {v : Word} {s : State} (h_ : execSqDoorbell fn q v s = .next t_)
    (ha_ : [.crs, .insts, .nid, .parts, .pttStatus, .streams, .reqs, .serialNo, .ports, .xpt, .msh, .til, .dram, .dir, .eng, .arr, .sec, .hosts, .pwr, .flt, .boot, .sbd, .out] ⊆ A_) (hs_ : Keeps A_ s_ s) : Keeps A_ s_ t_ := by
  refine Keeps.comp ?_ ha_ hs_
  clear hs_ ha_; unfold execSqDoorbell at h_
  try dsimp only at h_
  all_goals first | with_reducible exact Keeps.of_fault h_ | (with_reducible obtain rfl := Host.Outcome.next.inj h_) | skip
  repeat' first
    | with_reducible exact Keeps.refl _ _
    | with_reducible apply queueWrite_keeps
    | (show (_ : List Area) ⊆ _; decide)

theorem execCqHeadWrite_keeps {A_ : List Area} {s_ t_ : State} {fn : Fn} {q : QId} {v : Word} {s : State} (h_ : execCqHeadWrite fn q v s = .next t_)
    (ha_ : [.crs, .insts, .nid, .parts, .pttStatus, .streams, .reqs, .serialNo, .ports, .xpt, .msh, .til, .dram, .dir, .eng, .arr, .sec, .hosts, .pwr, .flt, .boot, .sbd, .out] ⊆ A_) (hs_ : Keeps A_ s_ s) : Keeps A_ s_ t_ := by
  refine Keeps.comp ?_ ha_ hs_
  clear hs_ ha_; unfold execCqHeadWrite at h_
  try dsimp only at h_
  all_goals first | with_reducible exact Keeps.of_fault h_ | (with_reducible obtain rfl := Host.Outcome.next.inj h_) | skip
  repeat' first
    | with_reducible exact Keeps.refl _ _
    | with_reducible apply queueWrite_keeps
    | (show (_ : List Area) ⊆ _; decide)

theorem execQAbort_keeps {A_ : List Area} {s_ t_ : State} {fn : Fn} {q : QId} {v : Word} {s : State} (h_ : execQAbort fn q v s = .next t_)
    (ha_ : [.crs, .insts, .nid, .parts, .pttStatus, .streams, .reqs, .serialNo, .ports, .xpt, .msh, .til, .dram, .dir, .eng, .arr, .sec, .hosts, .pwr, .flt, .boot, .sbd, .out] ⊆ A_) (hs_ : Keeps A_ s_ s) : Keeps A_ s_ t_ := by
  refine Keeps.comp ?_ ha_ hs_
  clear hs_ ha_; unfold execQAbort at h_
  try dsimp only at h_
  all_goals first | with_reducible exact Keeps.of_fault h_ | (with_reducible obtain rfl := Host.Outcome.next.inj h_) | skip
  repeat' first
    | with_reducible exact Keeps.refl _ _
    | with_reducible apply queueWrite_keeps
    | (show (_ : List Area) ⊆ _; decide)

end Sys2Proof.Machine
end

