-- ==== Sys2Proof/Laws/Frame/Host.lean ====
section
/-! SUPPORT. The frame of every operation of Machine/Host.lean: the areas it may change, and that pool memory keeps its canonical form. -/

namespace Sys2Proof.Machine

set_option linter.unusedTactic false
set_option linter.unreachableTactic false
set_option linter.unusedVariables false

theorem perstAssert_keeps {A_ : List Area} {s_ : State} {hp : Fin 4} {s : State}
    (ha_ : [.parts, .tenants, .dir, .eng, .hosts] ⊆ A_) (hs_ : Keeps A_ s_ s) : Keeps A_ s_ (perstAssert hp s) := by
  refine Keeps.comp ?_ ha_ hs_
  clear hs_ ha_; unfold perstAssert
  try dsimp only
  repeat' first
    | with_reducible exact Keeps.refl _ _
    | with_reducible apply triggerReset_keeps
    | with_reducible apply State.setHost_keeps
    | with_reducible refine Keeps.foldl (fun _ _ => ?_) _ ?_
    | with_reducible refine Keeps.ite ?_ ?_
    | exact Or.inr (by decide)
    | with_reducible exact Or.inl rfl
    | (show (_ : List Area) ⊆ _; decide)
    | split
    | with_reducible apply Keeps.mk
    | dsimp only
    | exact Or.inl rfl

theorem execPerstNAssert_keeps {A_ : List Area} {s_ t_ : State} {hp : Fin 4} {s : State} (h_ : execPerstNAssert hp s = .next t_)
    (ha_ : [.parts, .tenants, .dir, .eng, .hosts] ⊆ A_) (hs_ : Keeps A_ s_ s) : Keeps A_ s_ t_ := by
  refine Keeps.comp ?_ ha_ hs_
  clear hs_ ha_; unfold execPerstNAssert at h_
  try dsimp only at h_
  all_goals first | with_reducible exact Keeps.of_fault h_ | (with_reducible obtain rfl := Host.Outcome.next.inj h_) | skip
  repeat' first
    | with_reducible exact Keeps.refl _ _
    | with_reducible apply perstAssert_keeps
    | with_reducible refine Keeps.ite ?_ ?_
    | (show (_ : List Area) ⊆ _; decide)
    | split
    | dsimp only

theorem execPerstNDeassert_keeps {A_ : List Area} {s_ t_ : State} {hp : Fin 4} {s : State} (h_ : execPerstNDeassert hp s = .next t_)
    (ha_ : [.hosts] ⊆ A_) (hs_ : Keeps A_ s_ s) : Keeps A_ s_ t_ := by
  refine Keeps.comp ?_ ha_ hs_
  clear hs_ ha_; unfold execPerstNDeassert at h_
  try dsimp only at h_
  all_goals first | with_reducible exact Keeps.of_fault h_ | (with_reducible obtain rfl := Host.Outcome.next.inj h_) | skip
  repeat' first
    | with_reducible exact Keeps.refl _ _
    | with_reducible apply State.setHost_keeps
    | with_reducible refine Keeps.ite ?_ ?_
    | exact Or.inr (by decide)
    | with_reducible exact Or.inl rfl
    | (show (_ : List Area) ⊆ _; decide)
    | split
    | with_reducible apply Keeps.mk
    | dsimp only
    | exact Or.inl rfl

theorem vfsReset_keeps {A_ : List Area} {s_ : State} {hp : Fin 4} {s : State}
    (ha_ : [.insts, .nid, .parts, .serialNo, .ports, .xpt, .til, .dram, .dir, .eng, .arr, .hosts, .flt, .sbd, .out] ⊆ A_) (hs_ : Keeps A_ s_ s) : Keeps A_ s_ (vfsReset hp s) := by
  refine Keeps.comp ?_ ha_ hs_
  clear hs_ ha_; unfold vfsReset
  try dsimp only
  repeat' first
    | with_reducible exact Keeps.refl _ _
    | with_reducible apply vfReset_keeps
    | with_reducible refine Keeps.foldl (fun _ _ => ?_) _ ?_
    | (show (_ : List Area) ⊆ _; decide)

theorem pfFlr_keeps {A_ : List Area} {s_ : State} {hp : Fin 4} {s : State}
    (ha_ : [.insts, .nid, .parts, .serialNo, .ports, .xpt, .til, .dram, .dir, .eng, .arr, .hosts, .flt, .sbd, .out] ⊆ A_) (hs_ : Keeps A_ s_ s) : Keeps A_ s_ (pfFlr hp s) := by
  refine Keeps.comp ?_ ha_ hs_
  clear hs_ ha_; unfold pfFlr
  try dsimp only
  repeat' first
    | with_reducible exact Keeps.refl _ _
    | with_reducible apply vfsReset_keeps
    | with_reducible apply State.setHost_keeps
    | exact Or.inr (by decide)
    | with_reducible exact Or.inl rfl
    | (show (_ : List Area) ⊆ _; decide)
    | with_reducible apply Keeps.mk
    | dsimp only
    | exact Or.inl rfl

theorem execPfFlr_keeps {A_ : List Area} {s_ t_ : State} {hp : Fin 4} {s : State} (h_ : execPfFlr hp s = .next t_)
    (ha_ : [.insts, .nid, .parts, .serialNo, .ports, .xpt, .til, .dram, .dir, .eng, .arr, .hosts, .flt, .sbd, .out] ⊆ A_) (hs_ : Keeps A_ s_ s) : Keeps A_ s_ t_ := by
  refine Keeps.comp ?_ ha_ hs_
  clear hs_ ha_; unfold execPfFlr at h_
  try dsimp only at h_
  all_goals first | with_reducible exact Keeps.of_fault h_ | (with_reducible obtain rfl := Host.Outcome.next.inj h_) | skip
  repeat' first
    | with_reducible exact Keeps.refl _ _
    | with_reducible apply pfFlr_keeps
    | with_reducible refine Keeps.ite ?_ ?_
    | (show (_ : List Area) ⊆ _; decide)
    | split
    | dsimp only

theorem execVfEnableClear_keeps {A_ : List Area} {s_ t_ : State} {hp : Fin 4} {s : State} (h_ : execVfEnableClear hp s = .next t_)
    (ha_ : [.insts, .nid, .parts, .serialNo, .ports, .xpt, .til, .dram, .dir, .eng, .arr, .hosts, .flt, .sbd, .out] ⊆ A_) (hs_ : Keeps A_ s_ s) : Keeps A_ s_ t_ := by
  refine Keeps.comp ?_ ha_ hs_
  clear hs_ ha_; unfold execVfEnableClear at h_
  try dsimp only at h_
  all_goals first | with_reducible exact Keeps.of_fault h_ | (with_reducible obtain rfl := Host.Outcome.next.inj h_) | skip
  repeat' first
    | with_reducible exact Keeps.refl _ _
    | with_reducible apply vfsReset_keeps
    | with_reducible refine Keeps.ite ?_ ?_
    | (show (_ : List Area) ⊆ _; decide)
    | split
    | dsimp only

theorem unknownOpcode_keeps {A_ : List Area} {s_ : State} {fn : Fn} {opcode : Nat} {m : MbxHdr} {s : State}
    (ha_ : [.serialNo, .hosts, .out] ⊆ A_) (hs_ : Keeps A_ s_ s) : Keeps A_ s_ (unknownOpcode fn opcode m s) := by
  refine Keeps.comp ?_ ha_ hs_
  clear hs_ ha_; unfold unknownOpcode
  try dsimp only
  repeat' first
    | with_reducible exact Keeps.refl _ _
    | with_reducible apply mbxIllegal_keeps
    | with_reducible apply mbxAccept_keeps
    | with_reducible refine Keeps.pair1 (p := mbxAccept _ _ _ _ _) (by assumption) ?_
    | with_reducible apply answer_keeps
    | with_reducible refine Keeps.ite ?_ ?_
    | (show (_ : List Area) ⊆ _; decide)
    | split
    | dsimp only

theorem execMbxUnknownOpcode_keeps {A_ : List Area} {s_ t_ : State} {fn : Fn} {m : MbxHdr} {opcode : BitVec 16} {s : State} (h_ : execMbxUnknownOpcode fn m opcode s = .next t_)
    (ha_ : [.serialNo, .hosts, .out] ⊆ A_) (hs_ : Keeps A_ s_ s) : Keeps A_ s_ t_ := by
  refine Keeps.comp ?_ ha_ hs_
  clear hs_ ha_; unfold execMbxUnknownOpcode at h_
  try dsimp only at h_
  all_goals first | with_reducible exact Keeps.of_fault h_ | (with_reducible obtain rfl := Host.Outcome.next.inj h_) | skip
  repeat' first
    | with_reducible exact Keeps.refl _ _
    | with_reducible apply unknownOpcode_keeps
    | (show (_ : List Area) ⊆ _; decide)

theorem imageWrite_keeps {A_ : List Area} {s_ : State} {slot : Nat} {offset : Nat} {length : Nat} {h : HostRead} {o : Owed} {s : State}
    (ha_ : [.serialNo, .hosts, .boot, .out] ⊆ A_) (hs_ : Keeps A_ s_ s) : Keeps A_ s_ (imageWrite slot offset length h o s) := by
  refine Keeps.comp ?_ ha_ hs_
  clear hs_ ha_; unfold imageWrite
  try dsimp only
  repeat' first
    | with_reducible exact Keeps.refl _ _
    | with_reducible apply answer_keeps
    | with_reducible refine Keeps.ite ?_ ?_
    | exact Or.inr (by decide)
    | with_reducible exact Or.inl rfl
    | (show (_ : List Area) ⊆ _; decide)
    | split
    | with_reducible apply Keeps.mk
    | dsimp only
    | exact Or.inl rfl

theorem execImageWrite_keeps {A_ : List Area} {s_ t_ : State} {fn : Fn} {m : MbxHdr} {slot : Byte} {offset : Word} {length : Word} {addr : BitVec 64} {h : HostRead} {s : State} (h_ : execImageWrite fn m slot offset length addr h s = .next t_)
    (ha_ : [.serialNo, .hosts, .boot, .out] ⊆ A_) (hs_ : Keeps A_ s_ s) : Keeps A_ s_ t_ := by
  refine Keeps.comp ?_ ha_ hs_
  clear hs_ ha_; unfold execImageWrite at h_
  try dsimp only at h_
  all_goals first | with_reducible exact Keeps.of_fault h_ | (with_reducible obtain rfl := Host.Outcome.next.inj h_) | skip
  repeat' first
    | with_reducible exact Keeps.refl _ _
    | with_reducible apply imageWrite_keeps
    | with_reducible refine mailbox_keeps (fun _ _ => ?_) ?_ ?_
    | (show (_ : List Area) ⊆ _; decide)

theorem imageWriteDone_keeps {A_ : List Area} {s_ : State} {ok : Bool} {s : State}
    (ha_ : [.serialNo, .hosts, .boot, .out] ⊆ A_) (hs_ : Keeps A_ s_ s) : Keeps A_ s_ (imageWriteDone ok s) := by
  refine Keeps.comp ?_ ha_ hs_
  clear hs_ ha_; unfold imageWriteDone
  try dsimp only
  repeat' first
    | with_reducible exact Keeps.refl _ _
    | with_reducible apply failImageWrite_keeps
    | with_reducible apply answer_keeps
    | with_reducible refine Keeps.ite ?_ ?_
    | exact Or.inr (by decide)
    | with_reducible exact Or.inl rfl
    | (show (_ : List Area) ⊆ _; decide)
    | split
    | with_reducible apply Keeps.mk
    | dsimp only
    | exact Or.inl rfl

theorem execImageWriteDone_keeps {A_ : List Area} {s_ t_ : State} {ok : Bool} {s : State} (h_ : execImageWriteDone ok s = .next t_)
    (ha_ : [.serialNo, .hosts, .boot, .out] ⊆ A_) (hs_ : Keeps A_ s_ s) : Keeps A_ s_ t_ := by
  refine Keeps.comp ?_ ha_ hs_
  clear hs_ ha_; unfold execImageWriteDone at h_
  try dsimp only at h_
  all_goals first | with_reducible exact Keeps.of_fault h_ | (with_reducible obtain rfl := Host.Outcome.next.inj h_) | skip
  repeat' first
    | with_reducible exact Keeps.refl _ _
    | with_reducible apply imageWriteDone_keeps
    | with_reducible refine whileAlive_keeps (fun _ => ?_) ?_
    | (show (_ : List Area) ⊆ _; decide)

theorem execTelemetryRead_keeps {A_ : List Area} {s_ t_ : State} {fn : Fn} {m : MbxHdr} {s : State} (h_ : execTelemetryRead fn m s = .next t_)
    (ha_ : [.serialNo, .hosts, .out] ⊆ A_) (hs_ : Keeps A_ s_ s) : Keeps A_ s_ t_ := by
  refine Keeps.comp ?_ ha_ hs_
  clear hs_ ha_; unfold execTelemetryRead at h_
  try dsimp only at h_
  all_goals first | with_reducible exact Keeps.of_fault h_ | (with_reducible obtain rfl := Host.Outcome.next.inj h_) | skip
  repeat' first
    | with_reducible exact Keeps.refl _ _
    | with_reducible refine mailbox_keeps (fun _ _ => ?_) ?_ ?_
    | with_reducible apply answer_keeps
    | (show (_ : List Area) ⊆ _; decide)

theorem faultLogRead_keeps {A_ : List Area} {s_ : State} {fn : Fn} {seq : Word} {count : Byte} {o : Owed} {s : State}
    (ha_ : [.hosts, .out] ⊆ A_) (hs_ : Keeps A_ s_ s) : Keeps A_ s_ (faultLogRead fn seq count o s) := by
  refine Keeps.comp ?_ ha_ hs_
  clear hs_ ha_; unfold faultLogRead
  try dsimp only
  repeat' first
    | with_reducible exact Keeps.refl _ _
    | with_reducible apply answer_keeps
    | with_reducible refine Keeps.ite ?_ ?_
    | (show (_ : List Area) ⊆ _; decide)
    | split
    | dsimp only

theorem execFaultLogRead_keeps {A_ : List Area} {s_ t_ : State} {fn : Fn} {m : MbxHdr} {seq : Word} {count : Byte} {s : State} (h_ : execFaultLogRead fn m seq count s = .next t_)
    (ha_ : [.serialNo, .hosts, .out] ⊆ A_) (hs_ : Keeps A_ s_ s) : Keeps A_ s_ t_ := by
  refine Keeps.comp ?_ ha_ hs_
  clear hs_ ha_; unfold execFaultLogRead at h_
  try dsimp only at h_
  all_goals first | with_reducible exact Keeps.of_fault h_ | (with_reducible obtain rfl := Host.Outcome.next.inj h_) | skip
  repeat' first
    | with_reducible exact Keeps.refl _ _
    | with_reducible apply faultLogRead_keeps
    | with_reducible refine mailbox_keeps (fun _ _ => ?_) ?_ ?_
    | (show (_ : List Area) ⊆ _; decide)

theorem capStep_keeps {A_ : List Area} {s_ : State} {s : State}
    (ha_ : [.pwr] ⊆ A_) (hs_ : Keeps A_ s_ s) : Keeps A_ s_ (capStep s) := by
  refine Keeps.comp ?_ ha_ hs_
  clear hs_ ha_; unfold capStep
  try dsimp only
  repeat' first
    | with_reducible exact Keeps.refl _ _
    | exact Or.inr (by decide)
    | with_reducible exact Or.inl rfl
    | (show (_ : List Area) ⊆ _; decide)
    | with_reducible apply Keeps.mk
    | dsimp only
    | exact Or.inl rfl

theorem tokenAllocation_keeps {A_ : List Area} {s_ : State} {fixed : Nat} {ds : List Demand} {s : State}
    (ha_ : [.pwr] ⊆ A_) (hs_ : Keeps A_ s_ s) : Keeps A_ s_ (tokenAllocation fixed ds s) := by
  refine Keeps.comp ?_ ha_ hs_
  clear hs_ ha_; unfold tokenAllocation
  try dsimp only
  repeat' first
    | with_reducible exact Keeps.refl _ _
    | with_reducible refine Keeps.ite ?_ ?_
    | exact Or.inr (by decide)
    | with_reducible exact Or.inl rfl
    | (show (_ : List Area) ⊆ _; decide)
    | split
    | with_reducible apply Keeps.mk
    | dsimp only
    | exact Or.inl rfl

theorem execPowerTokenAllocation_keeps {A_ : List Area} {s_ t_ : State} {fixed : Nat} {ds : List Demand} {s : State} (h_ : execPowerTokenAllocation fixed ds s = .next t_)
    (ha_ : [.pwr] ⊆ A_) (hs_ : Keeps A_ s_ s) : Keeps A_ s_ t_ := by
  refine Keeps.comp ?_ ha_ hs_
  clear hs_ ha_; unfold execPowerTokenAllocation at h_
  try dsimp only at h_
  all_goals first | with_reducible exact Keeps.of_fault h_ | (with_reducible obtain rfl := Host.Outcome.next.inj h_) | skip
  repeat' first
    | with_reducible exact Keeps.refl _ _
    | with_reducible apply tokenAllocation_keeps
    | with_reducible refine whileAlive_keeps (fun _ => ?_) ?_
    | with_reducible refine Keeps.ite ?_ ?_
    | (show (_ : List Area) ⊆ _; decide)
    | split
    | dsimp only

theorem thermalStep_keeps {A_ : List Area} {s_ : State} {t0 : BitVec 16} {t1 : BitVec 16} {s : State}
    (ha_ : [.hosts, .pwr, .sbd, .out] ⊆ A_) (hs_ : Keeps A_ s_ s) : Keeps A_ s_ (thermalStep t0 t1 s) := by
  refine Keeps.comp ?_ ha_ hs_
  clear hs_ ha_; unfold thermalStep
  try dsimp only
  repeat' first
    | with_reducible exact Keeps.refl _ _
    | with_reducible apply capStep_keeps
    | with_reducible apply postAdmin_keeps
    | with_reducible refine Keeps.ite ?_ ?_
    | exact Or.inr (by decide)
    | with_reducible exact Or.inl rfl
    | (show (_ : List Area) ⊆ _; decide)
    | split
    | with_reducible apply Keeps.mk
    | dsimp only
    | exact Or.inl rfl

theorem execThermalStep_keeps {A_ : List Area} {s_ t_ : State} {t0 : BitVec 16} {t1 : BitVec 16} {s : State} (h_ : execThermalStep t0 t1 s = .next t_)
    (ha_ : [.hosts, .pwr, .sbd, .out] ⊆ A_) (hs_ : Keeps A_ s_ s) : Keeps A_ s_ t_ := by
  refine Keeps.comp ?_ ha_ hs_
  clear hs_ ha_; unfold execThermalStep at h_
  try dsimp only at h_
  all_goals first | with_reducible exact Keeps.of_fault h_ | (with_reducible obtain rfl := Host.Outcome.next.inj h_) | skip
  repeat' first
    | with_reducible exact Keeps.refl _ _
    | with_reducible apply thermalStep_keeps
    | with_reducible refine Keeps.ite ?_ ?_
    | (show (_ : List Area) ⊆ _; decide)
    | split
    | dsimp only

theorem telemetryRefresh_keeps {A_ : List Area} {s_ : State} {x : TelSample} {s : State}
    (ha_ : [.pwr] ⊆ A_) (hs_ : Keeps A_ s_ s) : Keeps A_ s_ (telemetryRefresh x s) := by
  refine Keeps.comp ?_ ha_ hs_
  clear hs_ ha_; unfold telemetryRefresh
  try dsimp only
  repeat' first
    | with_reducible exact Keeps.refl _ _
    | exact Or.inr (by decide)
    | with_reducible exact Or.inl rfl
    | (show (_ : List Area) ⊆ _; decide)
    | with_reducible apply Keeps.mk
    | dsimp only
    | exact Or.inl rfl

theorem execTelemetryRefresh_keeps {A_ : List Area} {s_ t_ : State} {x : TelSample} {s : State} (h_ : execTelemetryRefresh x s = .next t_)
    (ha_ : [.pwr] ⊆ A_) (hs_ : Keeps A_ s_ s) : Keeps A_ s_ t_ := by
  refine Keeps.comp ?_ ha_ hs_
  clear hs_ ha_; unfold execTelemetryRefresh at h_
  try dsimp only at h_
  all_goals first | with_reducible exact Keeps.of_fault h_ | (with_reducible obtain rfl := Host.Outcome.next.inj h_) | skip
  repeat' first
    | with_reducible exact Keeps.refl _ _
    | with_reducible apply telemetryRefresh_keeps
    | with_reducible refine whileAlive_keeps (fun _ => ?_) ?_
    | with_reducible refine Keeps.ite ?_ ?_
    | (show (_ : List Area) ⊆ _; decide)
    | split
    | dsimp only

theorem smbCode_keeps {A_ : List Area} {s_ s : State} {a b c : Bool} {f : State → State} (hf_ : ∀ t, Keeps A_ t (f t)) (ha_ : [.out] ⊆ A_)
    (hs_ : Keeps A_ s_ s) : Keeps A_ s_ (smbCode a b c f s) := by
  unfold smbCode
  exact Keeps.ite hs_ (Keeps.ite (State.emit_keeps ha_ hs_) (Keeps.comp (hf_ _) (List.Subset.refl _) hs_))

theorem smbReads_keeps {A_ : List Area} {s_ s : State} {a b c : Bool} {code : Byte} {f : State → List Byte} (ha_ : [.out] ⊆ A_)
    (hs_ : Keeps A_ s_ s) : Keeps A_ s_ (smbReads a b c code f s) := by
  unfold smbReads
  exact smbCode_keeps (fun _ => smbAnswer_keeps ha_ (Keeps.refl _ _)) ha_ hs_

theorem execSmbState_keeps {A_ : List Area} {s_ t_ : State} {wr : OnBus Bool} {s : State} (h_ : execSmbState wr s = .next t_)
    (ha_ : [.out] ⊆ A_) (hs_ : Keeps A_ s_ s) : Keeps A_ s_ t_ := by
  refine Keeps.comp ?_ ha_ hs_
  clear hs_ ha_; unfold execSmbState at h_
  try dsimp only at h_
  all_goals first | with_reducible exact Keeps.of_fault h_ | (with_reducible obtain rfl := Host.Outcome.next.inj h_) | skip
  repeat' first
    | with_reducible exact Keeps.refl _ _
    | with_reducible refine smbReads_keeps ?_ ?_
    | (show (_ : List Area) ⊆ _; decide)

theorem execSmbTemp_keeps {A_ : List Area} {s_ t_ : State} {wr : OnBus Bool} {s : State} (h_ : execSmbTemp wr s = .next t_)
    (ha_ : [.out] ⊆ A_) (hs_ : Keeps A_ s_ s) : Keeps A_ s_ t_ := by
  refine Keeps.comp ?_ ha_ hs_
  clear hs_ ha_; unfold execSmbTemp at h_
  try dsimp only at h_
  all_goals first | with_reducible exact Keeps.of_fault h_ | (with_reducible obtain rfl := Host.Outcome.next.inj h_) | skip
  repeat' first
    | with_reducible exact Keeps.refl _ _
    | with_reducible refine smbReads_keeps ?_ ?_
    | (show (_ : List Area) ⊆ _; decide)

theorem execSmbPower_keeps {A_ : List Area} {s_ t_ : State} {wr : OnBus Bool} {s : State} (h_ : execSmbPower wr s = .next t_)
    (ha_ : [.out] ⊆ A_) (hs_ : Keeps A_ s_ s) : Keeps A_ s_ t_ := by
  refine Keeps.comp ?_ ha_ hs_
  clear hs_ ha_; unfold execSmbPower at h_
  try dsimp only at h_
  all_goals first | with_reducible exact Keeps.of_fault h_ | (with_reducible obtain rfl := Host.Outcome.next.inj h_) | skip
  repeat' first
    | with_reducible exact Keeps.refl _ _
    | with_reducible refine smbReads_keeps ?_ ?_
    | (show (_ : List Area) ⊆ _; decide)

theorem execSmbBmcCapRead_keeps {A_ : List Area} {s_ t_ : State} {s : State} (h_ : execSmbBmcCapRead s = .next t_)
    (ha_ : [.out] ⊆ A_) (hs_ : Keeps A_ s_ s) : Keeps A_ s_ t_ := by
  refine Keeps.comp ?_ ha_ hs_
  clear hs_ ha_; unfold execSmbBmcCapRead at h_
  try dsimp only at h_
  all_goals first | with_reducible exact Keeps.of_fault h_ | (with_reducible obtain rfl := Host.Outcome.next.inj h_) | skip
  repeat' first
    | with_reducible exact Keeps.refl _ _
    | with_reducible refine smbReads_keeps ?_ ?_
    | (show (_ : List Area) ⊆ _; decide)

theorem bmcCapWrite_keeps {A_ : List Area} {s_ : State} {w : Nat} {pec : Option Byte} {s : State}
    (ha_ : [.pwr, .out] ⊆ A_) (hs_ : Keeps A_ s_ s) : Keeps A_ s_ (bmcCapWrite w pec s) := by
  refine Keeps.comp ?_ ha_ hs_
  clear hs_ ha_; unfold bmcCapWrite
  try dsimp only
  repeat' first
    | with_reducible exact Keeps.refl _ _
    | with_reducible apply State.emit_keeps
    | with_reducible refine Keeps.ite ?_ ?_
    | exact Or.inr (by decide)
    | with_reducible exact Or.inl rfl
    | (show (_ : List Area) ⊆ _; decide)
    | split
    | with_reducible apply Keeps.mk
    | dsimp only
    | exact Or.inl rfl

theorem execSmbBmcCapWrite_keeps {A_ : List Area} {s_ t_ : State} {watts : OnBus (BitVec 16)} {pec : Option Byte} {s : State} (h_ : execSmbBmcCapWrite watts pec s = .next t_)
    (ha_ : [.pwr, .out] ⊆ A_) (hs_ : Keeps A_ s_ s) : Keeps A_ s_ t_ := by
  refine Keeps.comp ?_ ha_ hs_
  clear hs_ ha_; unfold execSmbBmcCapWrite at h_
  try dsimp only at h_
  all_goals first | with_reducible exact Keeps.of_fault h_ | (with_reducible obtain rfl := Host.Outcome.next.inj h_) | skip
  repeat' first
    | with_reducible exact Keeps.refl _ _
    | with_reducible apply bmcCapWrite_keeps
    | with_reducible refine smbCode_keeps (fun _ => ?_) ?_ ?_
    | (show (_ : List Area) ⊆ _; decide)

theorem smbEvent_keeps {A_ : List Area} {s_ : State} {s : State}
    (ha_ : [.sbd, .out] ⊆ A_) (hs_ : Keeps A_ s_ s) : Keeps A_ s_ (smbEvent s) := by
  refine Keeps.comp ?_ ha_ hs_
  clear hs_ ha_; unfold smbEvent
  try dsimp only
  repeat' first
    | with_reducible exact Keeps.refl _ _
    | with_reducible apply popWord_keeps
    | with_reducible apply smbAnswer_keeps
    | (show (_ : List Area) ⊆ _; decide)
    | split
    | dsimp only

theorem execSmbEvent_keeps {A_ : List Area} {s_ t_ : State} {wr : OnBus Bool} {s : State} (h_ : execSmbEvent wr s = .next t_)
    (ha_ : [.sbd, .out] ⊆ A_) (hs_ : Keeps A_ s_ s) : Keeps A_ s_ t_ := by
  refine Keeps.comp ?_ ha_ hs_
  clear hs_ ha_; unfold execSmbEvent at h_
  try dsimp only at h_
  all_goals first | with_reducible exact Keeps.of_fault h_ | (with_reducible obtain rfl := Host.Outcome.next.inj h_) | skip
  repeat' first
    | with_reducible exact Keeps.refl _ _
    | with_reducible apply smbEvent_keeps
    | with_reducible refine smbCode_keeps (fun _ => ?_) ?_ ?_
    | (show (_ : List Area) ⊆ _; decide)

theorem execSmbSerial_keeps {A_ : List Area} {s_ t_ : State} {wr : OnBus Bool} {s : State} (h_ : execSmbSerial wr s = .next t_)
    (ha_ : [.out] ⊆ A_) (hs_ : Keeps A_ s_ s) : Keeps A_ s_ t_ := by
  refine Keeps.comp ?_ ha_ hs_
  clear hs_ ha_; unfold execSmbSerial at h_
  try dsimp only at h_
  all_goals first | with_reducible exact Keeps.of_fault h_ | (with_reducible obtain rfl := Host.Outcome.next.inj h_) | skip
  repeat' first
    | with_reducible exact Keeps.refl _ _
    | with_reducible refine smbReads_keeps ?_ ?_
    | (show (_ : List Area) ⊆ _; decide)

theorem execSmbFwVersion_keeps {A_ : List Area} {s_ t_ : State} {wr : OnBus Bool} {s : State} (h_ : execSmbFwVersion wr s = .next t_)
    (ha_ : [.out] ⊆ A_) (hs_ : Keeps A_ s_ s) : Keeps A_ s_ t_ := by
  refine Keeps.comp ?_ ha_ hs_
  clear hs_ ha_; unfold execSmbFwVersion at h_
  try dsimp only at h_
  all_goals first | with_reducible exact Keeps.of_fault h_ | (with_reducible obtain rfl := Host.Outcome.next.inj h_) | skip
  repeat' first
    | with_reducible exact Keeps.refl _ _
    | with_reducible refine smbReads_keeps ?_ ?_
    | (show (_ : List Area) ⊆ _; decide)

theorem execSmbUnknownCode_keeps {A_ : List Area} {s_ t_ : State} {code : OnBus Byte} {s : State} (h_ : execSmbUnknownCode code s = .next t_)
    (ha_ : [.out] ⊆ A_) (hs_ : Keeps A_ s_ s) : Keeps A_ s_ t_ := by
  refine Keeps.comp ?_ ha_ hs_
  clear hs_ ha_; unfold execSmbUnknownCode at h_
  try dsimp only at h_
  all_goals first | with_reducible exact Keeps.of_fault h_ | (with_reducible obtain rfl := Host.Outcome.next.inj h_) | skip
  repeat' first
    | with_reducible exact Keeps.refl _ _
    | with_reducible refine smbCode_keeps (fun _ => ?_) ?_ ?_
    | (show (_ : List Area) ⊆ _; decide)

theorem monReply_keeps {A_ : List Area} {s_ : State} {o : Out} {s : State}
    (ha_ : [.out] ⊆ A_) (hs_ : Keeps A_ s_ s) : Keeps A_ s_ (monReply o s) := by
  refine Keeps.comp ?_ ha_ hs_
  clear hs_ ha_; unfold monReply
  try dsimp only
  repeat' first
    | with_reducible exact Keeps.refl _ _
    | with_reducible apply State.emit_keeps
    | (show (_ : List Area) ⊆ _; decide)

theorem monLine_keeps {A_ : List Area} {s_ s : State}  {f : State → State} (hf_ : ∀ t, Keeps A_ t (f t))
    (hs_ : Keeps A_ s_ s) : Keeps A_ s_ (monLine f s) := by
  unfold monLine
  exact Keeps.ite (Keeps.comp (hf_ _) (List.Subset.refl _) hs_) hs_

theorem monFull_keeps {A_ : List Area} {s_ s : State}  {f : State → State} (hf_ : ∀ t, Keeps A_ t (f t)) (ha_ : [.out] ⊆ A_)
    (hs_ : Keeps A_ s_ s) : Keeps A_ s_ (monFull f s) := by
  unfold monFull
  exact Keeps.ite (Keeps.comp (hf_ _) (List.Subset.refl _) hs_) (monReply_keeps ha_ hs_)

theorem execMonitorVer_keeps {A_ : List Area} {s_ t_ : State} {s : State} (h_ : execMonitorVer s = .next t_)
    (ha_ : [.out] ⊆ A_) (hs_ : Keeps A_ s_ s) : Keeps A_ s_ t_ := by
  refine Keeps.comp ?_ ha_ hs_
  clear hs_ ha_; unfold execMonitorVer at h_
  try dsimp only at h_
  all_goals first | with_reducible exact Keeps.of_fault h_ | (with_reducible obtain rfl := Host.Outcome.next.inj h_) | skip
  repeat' first
    | with_reducible exact Keeps.refl _ _
    | with_reducible refine monLine_keeps (fun _ => ?_) ?_
    | with_reducible apply monReply_keeps
    | (show (_ : List Area) ⊆ _; decide)

theorem execMonitorState_keeps {A_ : List Area} {s_ t_ : State} {s : State} (h_ : execMonitorState s = .next t_)
    (ha_ : [.out] ⊆ A_) (hs_ : Keeps A_ s_ s) : Keeps A_ s_ t_ := by
  refine Keeps.comp ?_ ha_ hs_
  clear hs_ ha_; unfold execMonitorState at h_
  try dsimp only at h_
  all_goals first | with_reducible exact Keeps.of_fault h_ | (with_reducible obtain rfl := Host.Outcome.next.inj h_) | skip
  repeat' first
    | with_reducible exact Keeps.refl _ _
    | with_reducible refine monLine_keeps (fun _ => ?_) ?_
    | with_reducible apply monReply_keeps
    | (show (_ : List Area) ⊆ _; decide)

theorem monRd_keeps {A_ : List Area} (n : Nat) : ∀ {off : Nat} {s_ s : State}, [.dir, .hosts] ⊆ A_ → Keeps A_ s_ s → Keeps A_ s_ (monRd off n s).2 := by
  induction n with
  | zero => intro off s_ s _ h; exact h
  | succ n ih =>
    intro off s_ s ha h
    unfold monRd
    dsimp only
    refine ih ha ?_
    refine Keeps.comp (B := [.dir, .hosts]) ?_ ha h
    refine Keeps.comp (B := [.dir, .hosts]) (t := (readPort monSlot (adminFn s) off 4 s).2) ?_ (List.Subset.refl _) (readPort_keeps (by decide) (Keeps.refl _ _))
    with_reducible apply Keeps.mk
    all_goals first | exact Keeps.refl _ _ | with_reducible exact Or.inl rfl | exact Or.inr (by decide)

theorem monitorRd_keeps {A_ : List Area} {s_ : State} {off : Nat} {n : Nat} {s : State}
    (ha_ : [.dir, .hosts, .out] ⊆ A_) (hs_ : Keeps A_ s_ s) : Keeps A_ s_ (monitorRd off n s) := by
  refine Keeps.comp ?_ ha_ hs_
  clear hs_ ha_; unfold monitorRd
  try dsimp only
  repeat' first
    | with_reducible exact Keeps.refl _ _
    | with_reducible apply monRd_keeps
    | with_reducible refine Keeps.pair1 (by assumption) ?_
    | with_reducible apply monReply_keeps
    | with_reducible refine Keeps.ite ?_ ?_
    | (show (_ : List Area) ⊆ _; decide)
    | split
    | dsimp only

theorem execMonitorRd_keeps {A_ : List Area} {s_ t_ : State} {off : Nat} {n : Nat} {s : State} (h_ : execMonitorRd off n s = .next t_)
    (ha_ : [.dir, .hosts, .out] ⊆ A_) (hs_ : Keeps A_ s_ s) : Keeps A_ s_ t_ := by
  refine Keeps.comp ?_ ha_ hs_
  clear hs_ ha_; unfold execMonitorRd at h_
  try dsimp only at h_
  all_goals first | with_reducible exact Keeps.of_fault h_ | (with_reducible obtain rfl := Host.Outcome.next.inj h_) | skip
  repeat' first
    | with_reducible exact Keeps.refl _ _
    | with_reducible apply monitorRd_keeps
    | with_reducible refine monLine_keeps (fun _ => ?_) ?_
    | (show (_ : List Area) ⊆ _; decide)

theorem execMonitorLog_keeps {A_ : List Area} {s_ t_ : State} {n : Nat} {s : State} (h_ : execMonitorLog n s = .next t_)
    (ha_ : [.out] ⊆ A_) (hs_ : Keeps A_ s_ s) : Keeps A_ s_ t_ := by
  refine Keeps.comp ?_ ha_ hs_
  clear hs_ ha_; unfold execMonitorLog at h_
  try dsimp only at h_
  all_goals first | with_reducible exact Keeps.of_fault h_ | (with_reducible obtain rfl := Host.Outcome.next.inj h_) | skip
  repeat' first
    | with_reducible exact Keeps.refl _ _
    | with_reducible refine monLine_keeps (fun _ => ?_) ?_
    | with_reducible apply monReply_keeps
    | with_reducible refine Keeps.ite ?_ ?_
    | (show (_ : List Area) ⊆ _; decide)
    | split
    | dsimp only

theorem execMonitorTel_keeps {A_ : List Area} {s_ t_ : State} {s : State} (h_ : execMonitorTel s = .next t_)
    (ha_ : [.out] ⊆ A_) (hs_ : Keeps A_ s_ s) : Keeps A_ s_ t_ := by
  refine Keeps.comp ?_ ha_ hs_
  clear hs_ ha_; unfold execMonitorTel at h_
  try dsimp only at h_
  all_goals first | with_reducible exact Keeps.of_fault h_ | (with_reducible obtain rfl := Host.Outcome.next.inj h_) | skip
  repeat' first
    | with_reducible exact Keeps.refl _ _
    | with_reducible refine monFull_keeps (fun _ => ?_) ?_ ?_
    | with_reducible refine monLine_keeps (fun _ => ?_) ?_
    | with_reducible apply monReply_keeps
    | (show (_ : List Area) ⊆ _; decide)

theorem execMonitorLinks_keeps {A_ : List Area} {s_ t_ : State} {s : State} (h_ : execMonitorLinks s = .next t_)
    (ha_ : [.out] ⊆ A_) (hs_ : Keeps A_ s_ s) : Keeps A_ s_ t_ := by
  refine Keeps.comp ?_ ha_ hs_
  clear hs_ ha_; unfold execMonitorLinks at h_
  try dsimp only at h_
  all_goals first | with_reducible exact Keeps.of_fault h_ | (with_reducible obtain rfl := Host.Outcome.next.inj h_) | skip
  repeat' first
    | with_reducible exact Keeps.refl _ _
    | with_reducible refine monFull_keeps (fun _ => ?_) ?_ ?_
    | with_reducible refine monLine_keeps (fun _ => ?_) ?_
    | with_reducible apply monReply_keeps
    | (show (_ : List Area) ⊆ _; decide)

theorem execMonitorHelp_keeps {A_ : List Area} {s_ t_ : State} {s : State} (h_ : execMonitorHelp s = .next t_)
    (ha_ : [.out] ⊆ A_) (hs_ : Keeps A_ s_ s) : Keeps A_ s_ t_ := by
  refine Keeps.comp ?_ ha_ hs_
  clear hs_ ha_; unfold execMonitorHelp at h_
  try dsimp only at h_
  all_goals first | with_reducible exact Keeps.of_fault h_ | (with_reducible obtain rfl := Host.Outcome.next.inj h_) | skip
  repeat' first
    | with_reducible exact Keeps.refl _ _
    | with_reducible refine monLine_keeps (fun _ => ?_) ?_
    | with_reducible apply monReply_keeps
    | (show (_ : List Area) ⊆ _; decide)

theorem execMonitorBadLine_keeps {A_ : List Area} {s_ t_ : State} {chars : Nat} {s : State} (h_ : execMonitorBadLine chars s = .next t_)
    (ha_ : [.out] ⊆ A_) (hs_ : Keeps A_ s_ s) : Keeps A_ s_ t_ := by
  refine Keeps.comp ?_ ha_ hs_
  clear hs_ ha_; unfold execMonitorBadLine at h_
  try dsimp only at h_
  all_goals first | with_reducible exact Keeps.of_fault h_ | (with_reducible obtain rfl := Host.Outcome.next.inj h_) | skip
  repeat' first
    | with_reducible exact Keeps.refl _ _
    | with_reducible refine monLine_keeps (fun _ => ?_) ?_
    | with_reducible apply monReply_keeps
    | with_reducible refine Keeps.ite ?_ ?_
    | (show (_ : List Area) ⊆ _; decide)
    | split
    | dsimp only

end Sys2Proof.Machine
end

