-- ==== Sys2Proof/Laws/Frame/Boundary.lean ====
section
/-! SUPPORT. The frame of every operation of Machine/Boundary.lean: the areas it may change, and that pool memory keeps its canonical form. -/

namespace Sys2Proof.Machine

set_option linter.unusedTactic false
set_option linter.unreachableTactic false
set_option linter.unusedVariables false

theorem afterFlip_keeps {A_ : List Area} {s_ : State} {i : Nat} {old : Tbl (BitVec 64)} {s : State}
    (ha_ : [.streams, .til, .hosts, .sbd, .out] ⊆ A_) (hs_ : Keeps A_ s_ s) : Keeps A_ s_ (afterFlip i old s) := by
  refine Keeps.comp ?_ ha_ hs_
  clear hs_ ha_; unfold afterFlip
  try dsimp only
  repeat' first
    | with_reducible exact Keeps.refl _ _
    | with_reducible apply pinsFlip_keeps
    | with_reducible apply streamsFlip_keeps
    | with_reducible apply migFlip_keeps
    | with_reducible refine Keeps.ite ?_ ?_
    | (show (_ : List Area) ⊆ _; decide)
    | split
    | dsimp only

theorem flip_keeps {A_ : List Area} {s_ : State} {i : Nat} {s : State}
    (ha_ : [.insts, .streams, .til, .hosts, .sbd, .out] ⊆ A_) (hs_ : Keeps A_ s_ s) : Keeps A_ s_ (flip i s) := by
  refine Keeps.comp ?_ ha_ hs_
  clear hs_ ha_; unfold flip
  try dsimp only
  repeat' first
    | with_reducible exact Keeps.refl _ _
    | with_reducible apply afterFlip_keeps
    | with_reducible apply State.setInst_keeps
    | with_reducible refine Keeps.ite ?_ ?_
    | (show (_ : List Area) ⊆ _; decide)
    | split
    | dsimp only

theorem restartSlips_keeps {A_ : List Area} {s_ : State} {s : State}
    (ha_ : [.crs, .serialNo, .hosts, .sbd, .out] ⊆ A_) (hs_ : Keeps A_ s_ s) : Keeps A_ s_ (restartSlips s) := by
  refine Keeps.comp ?_ ha_ hs_
  clear hs_ ha_; unfold restartSlips
  try dsimp only
  repeat' first
    | with_reducible exact Keeps.refl _ _
    | with_reducible apply courseSlip_keeps
    | with_reducible refine Keeps.foldl (fun _ _ => ?_) _ ?_
    | with_reducible refine Keeps.ite ?_ ?_
    | (show (_ : List Area) ⊆ _; decide)
    | split
    | dsimp only

theorem stepCount_keeps {A_ : List Area} {s_ : State} {s : State}
    (ha_ : [.clk, .crs, .insts, .nid, .parts, .tenants, .streams, .reqs, .serialNo, .ports, .xpt, .til, .dram, .dir, .eng, .arr, .hosts, .flt, .sbd, .out] ⊆ A_) (hs_ : Keeps A_ s_ s) : Keeps A_ s_ (stepCount s) := by
  refine Keeps.comp ?_ ha_ hs_
  clear hs_ ha_; unfold stepCount
  try dsimp only
  repeat' first
    | with_reducible exact Keeps.refl _ _
    | with_reducible apply withdrawPartition_keeps
    | with_reducible apply withdrawTenant_keeps
    | with_reducible refine Keeps.foldl (fun _ _ => ?_) _ ?_
    | with_reducible refine Keeps.ite ?_ ?_
    | exact Or.inr (by decide)
    | with_reducible exact Or.inl rfl
    | (show (_ : List Area) ⊆ _; decide)
    | split
    | with_reducible apply Keeps.mk
    | dsimp only
    | exact Or.inl rfl

theorem streamTimers_keeps {A_ : List Area} {s_ : State} {s : State}
    (ha_ : [.streams, .reqs, .ports, .xpt, .dram, .dir] ⊆ A_) (hs_ : Keeps A_ s_ s) : Keeps A_ s_ (streamTimers s) := by
  refine Keeps.comp ?_ ha_ hs_
  clear hs_ ha_; unfold streamTimers
  try dsimp only
  repeat' first
    | with_reducible exact Keeps.refl _ _
    | with_reducible apply streamTimeout_keeps
    | with_reducible refine Keeps.foldl (fun _ _ => ?_) _ ?_
    | (show (_ : List Area) ⊆ _; decide)

theorem launchTimers_keeps {A_ : List Area} {s_ : State} {s : State}
    (ha_ : [.arr] ⊆ A_) (hs_ : Keeps A_ s_ s) : Keeps A_ s_ (launchTimers s) := by
  refine Keeps.comp ?_ ha_ hs_
  clear hs_ ha_; unfold launchTimers
  try dsimp only
  repeat' first
    | with_reducible exact Keeps.refl _ _
    | with_reducible apply arrayStall_keeps
    | with_reducible apply countStall_keeps
    | with_reducible apply launchTimeout_keeps
    | with_reducible refine Keeps.foldl (fun _ _ => ?_) _ ?_
    | (show (_ : List Area) ⊆ _; decide)

theorem dramTimers_keeps {A_ : List Area} {s_ : State} {s : State}
    (ha_ : [.dram] ⊆ A_) (hs_ : Keeps A_ s_ s) : Keeps A_ s_ (dramTimers s) := by
  refine Keeps.comp ?_ ha_ hs_
  clear hs_ ha_; unfold dramTimers
  try dsimp only
  repeat' first
    | with_reducible exact Keeps.refl _ _
    | with_reducible apply ceWindowStart_keeps
    | with_reducible apply rankDown_keeps
    | with_reducible apply refreshDebt_keeps
    | with_reducible refine Keeps.foldl (fun _ _ => ?_) _ ?_
    | with_reducible refine Keeps.ite ?_ ?_
    | (show (_ : List Area) ⊆ _; decide)
    | split
    | dsimp only

theorem snoopTimers_keeps {A_ : List Area} {s_ : State} {s : State}
    (ha_ : [.streams, .reqs, .ports, .xpt, .til, .dram, .dir, .hosts, .flt, .sbd, .out] ⊆ A_) (hs_ : Keeps A_ s_ s) : Keeps A_ s_ (snoopTimers s) := by
  refine Keeps.comp ?_ ha_ hs_
  clear hs_ ha_; unfold snoopTimers
  try dsimp only
  repeat' first
    | with_reducible exact Keeps.refl _ _
    | with_reducible apply snoopTimeoutAt_keeps
    | with_reducible refine Keeps.foldl (fun _ _ => ?_) _ ?_
    | (show (_ : List Area) ⊆ _; decide)

theorem stepTimers_keeps {A_ : List Area} {s_ : State} {s : State}
    (ha_ : [.streams, .reqs, .ports, .xpt, .til, .dram, .dir, .arr, .hosts, .flt, .sbd, .out] ⊆ A_) (hs_ : Keeps A_ s_ s) : Keeps A_ s_ (stepTimers s) := by
  refine Keeps.comp ?_ ha_ hs_
  clear hs_ ha_; unfold stepTimers
  try dsimp only
  repeat' first
    | with_reducible exact Keeps.refl _ _
    | with_reducible apply snoopTimers_keeps
    | with_reducible apply dramTimers_keeps
    | with_reducible apply launchTimers_keeps
    | with_reducible apply streamTimers_keeps
    | with_reducible apply windowExpire_keeps
    | with_reducible refine Keeps.ite ?_ ?_
    | (show (_ : List Area) ⊆ _; decide)
    | split
    | dsimp only

theorem ageInst_keeps {A_ : List Area} {s_ : State} {s : State} {i : Nat}
    (ha_ : [.insts] ⊆ A_) (hs_ : Keeps A_ s_ s) : Keeps A_ s_ (ageInst s i) := by
  refine Keeps.comp ?_ ha_ hs_
  clear hs_ ha_; unfold ageInst
  try dsimp only
  repeat' first
    | with_reducible exact Keeps.refl _ _
    | with_reducible apply State.setInst_keeps
    | with_reducible refine Keeps.ite ?_ ?_
    | exact Or.inr (by decide)
    | with_reducible exact Or.inl rfl
    | (show (_ : List Area) ⊆ _; decide)
    | split
    | with_reducible apply Keeps.mk
    | dsimp only
    | exact Or.inl rfl

theorem ageAll_keeps {A_ : List Area} {s_ : State} {s : State}
    (ha_ : [.insts] ⊆ A_) (hs_ : Keeps A_ s_ s) : Keeps A_ s_ (ageAll s) := by
  refine Keeps.comp ?_ ha_ hs_
  clear hs_ ha_; unfold ageAll
  try dsimp only
  repeat' first
    | with_reducible exact Keeps.refl _ _
    | with_reducible apply ageInst_keeps
    | with_reducible refine Keeps.foldl (fun _ _ => ?_) _ ?_
    | (show (_ : List Area) ⊆ _; decide)

theorem stepRelease_keeps {A_ : List Area} {s_ : State} {s : State}
    (ha_ : [.crs, .insts, .streams, .reqs, .ports, .xpt, .dram, .dir, .eng, .arr] ⊆ A_) (hs_ : Keeps A_ s_ s) : Keeps A_ s_ (stepRelease s) := by
  refine Keeps.comp ?_ ha_ hs_
  clear hs_ ha_; unfold stepRelease
  try dsimp only
  repeat' first
    | with_reducible exact Keeps.refl _ _
    | with_reducible apply ageAll_keeps
    | with_reducible apply genReleaseByAge_keeps
    | with_reducible apply genRelease_keeps
    | with_reducible refine Keeps.foldl (fun _ _ => ?_) _ ?_
    | (show (_ : List Area) ⊆ _; decide)

theorem stepFlip_keeps {A_ : List Area} {s_ : State} {s : State}
    (ha_ : [.insts, .streams, .til, .hosts, .sbd, .out] ⊆ A_) (hs_ : Keeps A_ s_ s) : Keeps A_ s_ (stepFlip s) := by
  refine Keeps.comp ?_ ha_ hs_
  clear hs_ ha_; unfold stepFlip
  try dsimp only
  repeat' first
    | with_reducible exact Keeps.refl _ _
    | with_reducible apply flip_keeps
    | with_reducible refine Keeps.foldl (fun _ _ => ?_) _ ?_
    | (show (_ : List Area) ⊆ _; decide)

theorem tokensUnspent_keeps {A_ : List Area} {s_ : State} {s : State}
    (ha_ : [.dram, .eng, .arr] ⊆ A_) (hs_ : Keeps A_ s_ s) : Keeps A_ s_ (tokensUnspent s) := by
  refine Keeps.comp ?_ ha_ hs_
  clear hs_ ha_; unfold tokensUnspent
  try dsimp only
  repeat' first
    | with_reducible exact Keeps.refl _ _
    | exact Or.inr (by decide)
    | with_reducible exact Or.inl rfl
    | (show (_ : List Area) ⊆ _; decide)
    | with_reducible apply Keeps.mk
    | dsimp only
    | exact Or.inl rfl

theorem stepTokens_keeps {A_ : List Area} {s_ : State} {s : State}
    (ha_ : [.dram, .eng, .arr, .pwr] ⊆ A_) (hs_ : Keeps A_ s_ s) : Keeps A_ s_ (stepTokens s) := by
  refine Keeps.comp ?_ ha_ hs_
  clear hs_ ha_; unfold stepTokens
  try dsimp only
  repeat' first
    | with_reducible exact Keeps.refl _ _
    | with_reducible apply tokensUnspent_keeps
    | with_reducible apply capStep_keeps
    | with_reducible refine Keeps.getD (fun _ _ => ?_) ?_
    | with_reducible refine Keeps.ite ?_ ?_
    | exact Or.inr (by decide)
    | with_reducible exact Or.inl rfl
    | (show (_ : List Area) ⊆ _; decide)
    | split
    | with_reducible apply Keeps.mk
    | dsimp only
    | exact Or.inl rfl

theorem stepRamps_keeps {A_ : List Area} {s_ : State} {s : State}
    (ha_ : [.streams] ⊆ A_) (hs_ : Keeps A_ s_ s) : Keeps A_ s_ (stepRamps s) := by
  refine Keeps.comp ?_ ha_ hs_
  clear hs_ ha_; unfold stepRamps
  try dsimp only
  repeat' first
    | with_reducible exact Keeps.refl _ _
    | with_reducible apply windowRamp_keeps
    | with_reducible refine Keeps.foldl (fun _ _ => ?_) _ ?_
    | (show (_ : List Area) ⊆ _; decide)

theorem showAborts_keeps {A_ : List Area} {s_ : State} {s : State}
    (ha_ : [.eng] ⊆ A_) (hs_ : Keeps A_ s_ s) : Keeps A_ s_ (showAborts s) := by
  refine Keeps.comp ?_ ha_ hs_
  clear hs_ ha_; unfold showAborts
  try dsimp only
  repeat' first
    | with_reducible exact Keeps.refl _ _
    | exact Or.inr (by decide)
    | with_reducible exact Or.inl rfl
    | (show (_ : List Area) ⊆ _; decide)
    | with_reducible apply Keeps.mk
    | dsimp only
    | exact Or.inl rfl

theorem toAgeing_keeps {A_ : List Area} {s_ : State} {s : State}
    (ha_ : [.clk, .crs, .insts, .nid, .parts, .tenants, .streams, .reqs, .serialNo, .ports, .xpt, .til, .dram, .dir, .eng, .arr, .hosts, .flt, .sbd, .out] ⊆ A_) (hs_ : Keeps A_ s_ s) : Keeps A_ s_ (toAgeing s) := by
  refine Keeps.comp ?_ ha_ hs_
  clear hs_ ha_; unfold toAgeing
  try dsimp only
  repeat' first
    | with_reducible exact Keeps.refl _ _
    | with_reducible apply ageAll_keeps
    | with_reducible apply stepTimers_keeps
    | with_reducible apply stepCount_keeps
    | with_reducible apply restartSlips_keeps
    | with_reducible apply coursePacketSend_keeps
    | (show (_ : List Area) ⊆ _; decide)

theorem toFlips_keeps {A_ : List Area} {s_ : State} {s : State}
    (ha_ : [.clk, .crs, .insts, .nid, .parts, .tenants, .streams, .reqs, .serialNo, .ports, .xpt, .til, .dram, .dir, .eng, .arr, .hosts, .flt, .sbd, .out] ⊆ A_) (hs_ : Keeps A_ s_ s) : Keeps A_ s_ (toFlips s) := by
  refine Keeps.comp ?_ ha_ hs_
  clear hs_ ha_; unfold toFlips
  try dsimp only
  repeat' first
    | with_reducible exact Keeps.refl _ _
    | with_reducible apply stepRelease_keeps
    | with_reducible apply stepTimers_keeps
    | with_reducible apply stepCount_keeps
    | with_reducible apply restartSlips_keeps
    | with_reducible apply coursePacketSend_keeps
    | (show (_ : List Area) ⊆ _; decide)

theorem stepBudgets_keeps {A_ : List Area} {s_ : State} {s : State}
    (ha_ : [.insts, .nid, .parts, .serialNo, .til, .dram, .hosts, .flt, .sbd, .out] ⊆ A_) (hs_ : Keeps A_ s_ s) : Keeps A_ s_ (stepBudgets s) := by
  refine Keeps.comp ?_ ha_ hs_
  clear hs_ ha_; unfold stepBudgets
  try dsimp only
  repeat' first
    | with_reducible exact Keeps.refl _ _
    | with_reducible apply mrpWork_keeps
    | with_reducible apply dropLag_keeps
    | (show (_ : List Area) ⊆ _; decide)

theorem boundary_keeps {A_ : List Area} {s_ : State} {s : State}
    (ha_ : [.clk, .crs, .insts, .nid, .parts, .tenants, .streams, .reqs, .serialNo, .ports, .xpt, .til, .dram, .dir, .eng, .arr, .hosts, .pwr, .flt, .sbd, .out] ⊆ A_) (hs_ : Keeps A_ s_ s) : Keeps A_ s_ (boundary s) := by
  refine Keeps.comp ?_ ha_ hs_
  clear hs_ ha_; unfold boundary
  try dsimp only
  repeat' first
    | with_reducible exact Keeps.refl _ _
    | with_reducible apply stepBudgets_keeps
    | with_reducible apply toFlips_keeps
    | with_reducible apply showAborts_keeps
    | with_reducible apply stepRamps_keeps
    | with_reducible apply stepTokens_keeps
    | with_reducible apply stepFlip_keeps
    | with_reducible apply pinsTick_keeps
    | with_reducible apply settle_keeps
    | (show (_ : List Area) ⊆ _; decide)

theorem execCourseBoundary_keeps {A_ : List Area} {s_ t_ : State} {s : State} (h_ : execCourseBoundary s = .next t_)
    (ha_ : [.clk, .crs, .insts, .nid, .parts, .tenants, .streams, .reqs, .serialNo, .ports, .xpt, .til, .dram, .dir, .eng, .arr, .hosts, .pwr, .flt, .sbd, .out] ⊆ A_) (hs_ : Keeps A_ s_ s) : Keeps A_ s_ t_ := by
  refine Keeps.comp ?_ ha_ hs_
  clear hs_ ha_; unfold execCourseBoundary at h_
  try dsimp only at h_
  all_goals first | with_reducible exact Keeps.of_fault h_ | (with_reducible obtain rfl := Host.Outcome.next.inj h_) | skip
  repeat' first
    | with_reducible exact Keeps.refl _ _
    | with_reducible apply boundary_keeps
    | with_reducible refine Keeps.ite ?_ ?_
    | (show (_ : List Area) ⊆ _; decide)
    | split
    | dsimp only

theorem execGenRelease_keeps {A_ : List Area} {s_ t_ : State} {i : Fin 261} {s : State} (h_ : execGenRelease i s = .next t_)
    (ha_ : [.clk, .crs, .insts, .nid, .parts, .tenants, .streams, .reqs, .serialNo, .ports, .xpt, .til, .dram, .dir, .eng, .arr, .hosts, .pwr, .flt, .sbd, .out] ⊆ A_) (hs_ : Keeps A_ s_ s) : Keeps A_ s_ t_ := by
  refine Keeps.comp ?_ ha_ hs_
  clear hs_ ha_; unfold execGenRelease at h_
  try dsimp only at h_
  all_goals first | with_reducible exact Keeps.of_fault h_ | (with_reducible obtain rfl := Host.Outcome.next.inj h_) | skip
  repeat' first
    | with_reducible exact Keeps.refl _ _
    | with_reducible apply boundary_keeps
    | with_reducible apply toFlips_keeps
    | with_reducible refine Keeps.ite ?_ ?_
    | (show (_ : List Area) ⊆ _; decide)
    | split
    | dsimp only

theorem execGenReleaseByAge_keeps {A_ : List Area} {s_ t_ : State} {i : Fin 261} {s : State} (h_ : execGenReleaseByAge i s = .next t_)
    (ha_ : [.clk, .crs, .insts, .nid, .parts, .tenants, .streams, .reqs, .serialNo, .ports, .xpt, .til, .dram, .dir, .eng, .arr, .hosts, .pwr, .flt, .sbd, .out] ⊆ A_) (hs_ : Keeps A_ s_ s) : Keeps A_ s_ t_ := by
  refine Keeps.comp ?_ ha_ hs_
  clear hs_ ha_; unfold execGenReleaseByAge at h_
  try dsimp only at h_
  all_goals first | with_reducible exact Keeps.of_fault h_ | (with_reducible obtain rfl := Host.Outcome.next.inj h_) | skip
  repeat' first
    | with_reducible exact Keeps.refl _ _
    | with_reducible apply boundary_keeps
    | with_reducible apply toAgeing_keeps
    | with_reducible refine Keeps.ite ?_ ?_
    | (show (_ : List Area) ⊆ _; decide)
    | split
    | dsimp only

theorem execGenFlip_keeps {A_ : List Area} {s_ t_ : State} {i : Fin 261} {s : State} (h_ : execGenFlip i s = .next t_)
    (ha_ : [.clk, .crs, .insts, .nid, .parts, .tenants, .streams, .reqs, .serialNo, .ports, .xpt, .til, .dram, .dir, .eng, .arr, .hosts, .pwr, .flt, .sbd, .out] ⊆ A_) (hs_ : Keeps A_ s_ s) : Keeps A_ s_ t_ := by
  refine Keeps.comp ?_ ha_ hs_
  clear hs_ ha_; unfold execGenFlip at h_
  try dsimp only at h_
  all_goals first | with_reducible exact Keeps.of_fault h_ | (with_reducible obtain rfl := Host.Outcome.next.inj h_) | skip
  repeat' first
    | with_reducible exact Keeps.refl _ _
    | with_reducible apply boundary_keeps
    | with_reducible apply toFlips_keeps
    | with_reducible refine Keeps.ite ?_ ?_
    | (show (_ : List Area) ⊆ _; decide)
    | split
    | dsimp only

end Sys2Proof.Machine
end

