-- ==== Sys2Proof/Laws/Frame/Rows.lean ====
section
/-! SUPPORT. The frame of every operation of Machine/Rows.lean: the areas it may change, and that pool memory keeps its canonical form. -/

namespace Sys2Proof.Machine

set_option linter.unusedTactic false
set_option linter.unreachableTactic false
set_option linter.unusedVariables false

theorem ran_keeps {A_ : List Area} {s_ s : State} {o : Host.Outcome State Fault Refusal} (h_ : ∀ t, o = .next t → Keeps A_ s_ t)
    (hs_ : Keeps A_ s_ s) : Keeps A_ s_ (ran o s) := by
  cases o with
  | next t => exact h_ t rfl
  | fault r => exact hs_
  | refused r => exact hs_

theorem ringDoorbell_keeps {A_ : List Area} {s_ s : State} {fn : Fn} (ha_ : [.insts, .nid, .parts, .tenants, .streams, .serialNo, .ports, .xpt, .msh, .til, .dram, .dir, .eng, .arr, .sec, .hosts, .flt, .boot, .sbd, .out] ⊆ A_) (hs_ : Keeps A_ s_ s) :
    Keeps A_ s_ (ringDoorbell fn s) := by
  unfold ringDoorbell
  dsimp only
  split
  · exact ran_keeps (fun _ e => execTenantCreate_keeps e (List.Subset.trans (by decide) ha_) hs_) hs_
  · exact ran_keeps (fun _ e => execTenantDestroy_keeps e (List.Subset.trans (by decide) ha_) hs_) hs_
  · exact ran_keeps (fun _ e => execTenantQuery_keeps e (List.Subset.trans (by decide) ha_) hs_) hs_
  · exact ran_keeps (fun _ e => execStreamOpen_keeps e (List.Subset.trans (by decide) ha_) hs_) hs_
  · exact ran_keeps (fun _ e => execStreamModify_keeps e (List.Subset.trans (by decide) ha_) hs_) hs_
  · exact ran_keeps (fun _ e => execStreamClose_keeps e (List.Subset.trans (by decide) ha_) hs_) hs_
  · exact ran_keeps (fun _ e => execPartReset_keeps e (List.Subset.trans (by decide) ha_) hs_) hs_
  · exact ran_keeps (fun _ e => execPartQuery_keeps e (List.Subset.trans (by decide) ha_) hs_) hs_
  · exact ran_keeps (fun _ e => execTileMap_keeps e (List.Subset.trans (by decide) ha_) hs_) hs_
  · exact ran_keeps (fun _ e => execTileUnmap_keeps e (List.Subset.trans (by decide) ha_) hs_) hs_
  · exact ran_keeps (fun _ e => execTileProtect_keeps e (List.Subset.trans (by decide) ha_) hs_) hs_
  · exact ran_keeps (fun _ e => execTileGrant_keeps e (List.Subset.trans (by decide) ha_) hs_) hs_
  · exact ran_keeps (fun _ e => execTileRevoke_keeps e (List.Subset.trans (by decide) ha_) hs_) hs_
  · exact ran_keeps (fun _ e => execTileMigrate_keeps e (List.Subset.trans (by decide) ha_) hs_) hs_
  · exact ran_keeps (fun _ e => execAgentRelease_keeps e (List.Subset.trans (by decide) ha_) hs_) hs_
  · exact ran_keeps (fun _ e => execQueueCreate_keeps e (List.Subset.trans (by decide) ha_) hs_) hs_
  · exact ran_keeps (fun _ e => execQueueDestroy_keeps e (List.Subset.trans (by decide) ha_) hs_) hs_
  · exact ran_keeps (fun _ e => execQueueQuery_keeps e (List.Subset.trans (by decide) ha_) hs_) hs_
  · exact ran_keeps (fun _ e => execArrayQuery_keeps e (List.Subset.trans (by decide) ha_) hs_) hs_
  · exact ran_keeps (fun _ e => execLinkPin_keeps e (List.Subset.trans (by decide) ha_) hs_) hs_
  · exact ran_keeps (fun _ e => execImageWrite_keeps e (List.Subset.trans (by decide) ha_) hs_) hs_
  · exact ran_keeps (fun _ e => execTelemetryRead_keeps e (List.Subset.trans (by decide) ha_) hs_) hs_
  · exact ran_keeps (fun _ e => execFaultLogRead_keeps e (List.Subset.trans (by decide) ha_) hs_) hs_
  · exact unknownOpcode_keeps (List.Subset.trans (by decide) ha_) hs_

theorem execRegisterWrite_keeps {A_ : List Area} {s_ s t_ : State} {fn : Fn} {w : RegWrSet}
    (h_ : execRegisterWrite fn w s = .next t_)
    (ha_ : [.crs, .insts, .nid, .parts, .tenants, .pttStatus, .streams, .reqs, .serialNo, .ports, .xpt, .msh, .til, .dram, .dir, .eng, .arr, .sec, .hosts, .pwr, .flt, .boot, .sbd, .out] ⊆ A_) (hs_ : Keeps A_ s_ s) : Keeps A_ s_ t_ := by
  obtain rfl := Host.Outcome.next.inj h_
  exact Keeps.ite (ringDoorbell_keeps (List.Subset.trans (by decide) ha_) hs_) (busWrite_keeps (List.Subset.trans (by decide) ha_) hs_)

end Sys2Proof.Machine
end

