-- ==== Sys2Proof/Laws/Frame/Voxel.lean ====
section
/-! SUPPORT. The frame of every operation of Machine/Voxel.lean: the areas it may change, and that pool memory keeps its canonical form. -/

namespace Sys2Proof.Machine

set_option linter.unusedTactic false
set_option linter.unreachableTactic false
set_option linter.unusedVariables false

theorem voxCount_keeps {A_ : List Area} {s_ : State} {q : QId} {read : Nat} {drops : Nat} {pairs : Nat} {s : State}
    (ha_ : [.eng] ⊆ A_) (hs_ : Keeps A_ s_ s) : Keeps A_ s_ (voxCount q read drops pairs s) := by
  refine Keeps.comp ?_ ha_ hs_
  clear hs_ ha_; unfold voxCount
  try dsimp only
  repeat' first
    | with_reducible exact Keeps.refl _ _
    | exact Or.inr (by decide)
    | with_reducible exact Or.inl rfl
    | (show (_ : List Area) ⊆ _; decide)
    | split
    | with_reducible apply Keeps.mk
    | dsimp only
    | exact Or.inl rfl

theorem voxEnd_keeps {A_ : List Area} {s_ : State} {q : QId} {c : Cmd} {st : Status} {count : Nat} {aux : Nat} {s : State}
    (ha_ : [.eng] ⊆ A_) (hs_ : Keeps A_ s_ s) : Keeps A_ s_ (voxEnd q c st count aux s) := by
  refine Keeps.comp ?_ ha_ hs_
  clear hs_ ha_; unfold voxEnd
  try dsimp only
  repeat' first
    | with_reducible exact Keeps.refl _ _
    | with_reducible apply stopCmd_keeps
    | with_reducible refine Keeps.ite ?_ ?_
    | exact Or.inr (by decide)
    | with_reducible exact Or.inl rfl
    | (show (_ : List Area) ⊆ _; decide)
    | split
    | with_reducible apply Keeps.mk
    | dsimp only
    | exact Or.inl rfl

theorem readSome_keeps {A_ : List Area} {q : QId} {side : Nat} (f : Nat) : ∀ {va n : Nat} {acc : List Byte} {c : Cmd} {s_ s : State}, [.ports, .xpt, .til, .dram, .dir, .eng] ⊆ A_ →
    Keeps A_ s_ s → Keeps A_ s_ (readSome q side f va n acc c s).2.2.2 := by
  induction f with
  | zero => intro va n acc c s_ s _ h; exact h
  | succ f ih =>
    intro va n acc c s_ s ha h
    unfold readSome
    split
    · exact h
    · split
      · exact h
      · dsimp only
        split
        case _ x s1 e =>
          exact ih ha (engSpend_keeps (List.Subset.trans (by decide) ha) (engRead_keeps ((congrArg Acc.st e).trans rfl) (List.Subset.trans (by decide) ha) h))
        case _ s1 e => exact engRead_keeps ((congrArg Acc.st e).trans rfl) (List.Subset.trans (by decide) ha) h
        case _ st s1 e => exact engRead_keeps ((congrArg Acc.st e).trans rfl) (List.Subset.trans (by decide) ha) h

theorem writeSome_keeps {A_ : List Area} {q : QId} {side : Nat} (f : Nat) : ∀ {va k : Nat} {d : List Byte} {c : Cmd} {s_ s : State}, [.ports, .xpt, .til, .dram, .dir, .eng] ⊆ A_ →
    Keeps A_ s_ s → Keeps A_ s_ (writeSome q side f va d k c s).2.2.2 := by
  induction f with
  | zero => intro va k d c s_ s _ h; exact h
  | succ f ih =>
    intro va k d c s_ s ha h
    unfold writeSome
    split
    · exact h
    · split
      · exact h
      · dsimp only
        split
        case _ x s1 e =>
          exact ih ha (engSpend_keeps (List.Subset.trans (by decide) ha) (engWrite_keeps ((congrArg Acc.st e).trans rfl) (List.Subset.trans (by decide) ha) h))
        case _ s1 e => exact engWrite_keeps ((congrArg Acc.st e).trans rfl) (List.Subset.trans (by decide) ha) h
        case _ st s1 e => exact engWrite_keeps ((congrArg Acc.st e).trans rfl) (List.Subset.trans (by decide) ha) h

theorem withScratch_keeps {A_ : List Area} {q : QId} {c : Cmd} {f : Cmd → State → State} {s_ s : State} (hf_ : ∀ c t, Keeps A_ t (f c t))
    (ha_ : [.serialNo, .ports, .xpt, .til, .dram, .dir, .eng] ⊆ A_) (hs_ : Keeps A_ s_ s) : Keeps A_ s_ (withScratch q c f s) := by
  unfold withScratch
  dsimp only
  refine Keeps.ite (Keeps.comp (hf_ ..) (List.Subset.refl _) hs_) ?_
  have h : Keeps A_ s_ { s with serialNo := s.serialNo + 1 } := by
    refine Keeps.comp (B := [.serialNo, .ports, .xpt, .til, .dram, .dir, .eng]) ?_ ha_ hs_
    with_reducible apply Keeps.mk
    all_goals first | exact Keeps.refl _ _ | with_reducible exact Or.inl rfl | exact Or.inr (by decide)
  have k := fun f va d k c => writeSome_keeps (q := q) (side := 2) f (va := va) (d := d) (k := k) (c := c) (List.Subset.trans (by decide) ha_) h
  split
  exact Keeps.comp (hf_ ..) (List.Subset.refl _) (k ..)
  exact putCmd_keeps (List.Subset.trans (by decide) ha_) (k ..)
  exact voxEnd_keeps (List.Subset.trans (by decide) ha_) (k ..)

theorem voxOut_keeps {A_ : List Area} {q : QId} {out : List Byte} {c : Cmd} {f : Cmd → State → State} {s_ s : State}
    (hf_ : ∀ c t, Keeps A_ t (f c t)) (ha_ : [.ports, .xpt, .til, .dram, .dir, .eng] ⊆ A_) (hs_ : Keeps A_ s_ s) : Keeps A_ s_ (voxOut q out c f s) := by
  unfold voxOut
  dsimp only
  have k := fun f va d k c => writeSome_keeps (q := q) (side := 1) f (va := va) (d := d) (k := k) (c := c) (List.Subset.trans (by decide) ha_) hs_
  split
  exact Keeps.comp (hf_ ..) (List.Subset.refl _) (k ..)
  exact putCmd_keeps (List.Subset.trans (by decide) ha_) (k ..)
  exact voxEnd_keeps (List.Subset.trans (by decide) ha_) (k ..)

theorem voxRead_keeps {A_ : List Area} {s_ : State} {q : QId} {stride : Nat} {c : Cmd} {s : State}
    (ha_ : [.ports, .xpt, .til, .dram, .dir, .eng] ⊆ A_) (hs_ : Keeps A_ s_ s) : Keeps A_ s_ (voxRead q stride c s).2.2 := by
  refine Keeps.comp ?_ ha_ hs_
  clear hs_ ha_; unfold voxRead
  try dsimp only
  repeat' first
    | with_reducible exact Keeps.refl _ _
    | with_reducible apply readSome_keeps
    | with_reducible refine Keeps.pair3 (by assumption) ?_
    | with_reducible apply voxCount_keeps
    | exact Or.inr (by decide)
    | with_reducible exact Or.inl rfl
    | (show (_ : List Area) ⊆ _; decide)
    | split
    | with_reducible apply Keeps.mk
    | dsimp only
    | exact Or.inl rfl

theorem withTable_keeps {A_ : List Area} {q : QId} {c : Cmd} {f : State → State} {s_ s : State} (hf_ : ∀ t, Keeps A_ t (f t))
    (ha_ : [.serialNo, .eng] ⊆ A_) (hs_ : Keeps A_ s_ s) : Keeps A_ s_ (withTable q c f s) := by
  unfold withTable
  refine Keeps.ite (voxEnd_keeps (List.Subset.trans (by decide) ha_) hs_) (Keeps.comp (hf_ _) (List.Subset.refl _) ?_)
  refine Keeps.comp (B := [.serialNo, .eng]) ?_ ha_ hs_
  with_reducible apply Keeps.mk
  all_goals first | exact Keeps.refl _ _ | with_reducible exact Or.inl rfl | exact Or.inr (by decide)

theorem sampleWork_keeps {A_ : List Area} {s_ : State} {q : QId} {c : Cmd} {s : State}
    (ha_ : [.serialNo, .ports, .xpt, .til, .dram, .dir, .eng] ⊆ A_) (hs_ : Keeps A_ s_ s) : Keeps A_ s_ (sampleWork q c s) := by
  refine Keeps.comp ?_ ha_ hs_
  clear hs_ ha_; unfold sampleWork
  try dsimp only
  repeat' first
    | with_reducible exact Keeps.refl _ _
    | with_reducible refine withTable_keeps (fun _ => ?_) ?_ ?_
    | with_reducible apply voxRead_keeps
    | with_reducible refine Keeps.pair2 (p := voxRead _ _ _ _) (by assumption) ?_
    | with_reducible refine voxOut_keeps (fun _ _ => ?_) ?_ ?_
    | with_reducible refine withScratch_keeps (fun _ _ => ?_) ?_ ?_
    | with_reducible apply voxEnd_keeps
    | with_reducible apply voxCount_keeps
    | with_reducible apply putCmd_keeps
    | with_reducible refine Keeps.ite ?_ ?_
    | (show (_ : List Area) ⊆ _; decide)
    | split
    | dsimp only

theorem rulebookOut_keeps {A_ : List Area} {s_ : State} {q : QId} {outs : List Site} {ps : List (List (Nat × Nat))} {miss : Nat} {c : Cmd} {s : State}
    (ha_ : [.ports, .xpt, .til, .dram, .dir, .eng] ⊆ A_) (hs_ : Keeps A_ s_ s) : Keeps A_ s_ (rulebookOut q outs ps miss c s) := by
  refine Keeps.comp ?_ ha_ hs_
  clear hs_ ha_; unfold rulebookOut
  try dsimp only
  repeat' first
    | with_reducible exact Keeps.refl _ _
    | with_reducible apply writeSome_keeps
    | with_reducible refine Keeps.pair3 (by assumption) ?_
    | with_reducible apply voxEnd_keeps
    | with_reducible apply voxCount_keeps
    | with_reducible apply putCmd_keeps
    | with_reducible refine Keeps.ite ?_ ?_
    | exact Or.inr (by decide)
    | with_reducible exact Or.inl rfl
    | (show (_ : List Area) ⊆ _; decide)
    | split
    | with_reducible apply Keeps.mk
    | dsimp only
    | exact Or.inl rfl

theorem rulebookWork_keeps {A_ : List Area} {s_ : State} {q : QId} {c : Cmd} {s : State}
    (ha_ : [.serialNo, .ports, .xpt, .til, .dram, .dir, .eng] ⊆ A_) (hs_ : Keeps A_ s_ s) : Keeps A_ s_ (rulebookWork q c s) := by
  refine Keeps.comp ?_ ha_ hs_
  clear hs_ ha_; unfold rulebookWork
  try dsimp only
  repeat' first
    | with_reducible exact Keeps.refl _ _
    | with_reducible apply rulebookOut_keeps
    | with_reducible refine withTable_keeps (fun _ => ?_) ?_ ?_
    | with_reducible apply voxRead_keeps
    | with_reducible refine Keeps.pair2 (p := voxRead _ _ _ _) (by assumption) ?_
    | with_reducible refine withScratch_keeps (fun _ _ => ?_) ?_ ?_
    | with_reducible apply voxEnd_keeps
    | with_reducible apply putCmd_keeps
    | with_reducible refine Keeps.ite ?_ ?_
    | (show (_ : List Area) ⊆ _; decide)
    | split
    | dsimp only

theorem lookupWork_keeps {A_ : List Area} {s_ : State} {q : QId} {c : Cmd} {s : State}
    (ha_ : [.serialNo, .ports, .xpt, .til, .dram, .dir, .eng] ⊆ A_) (hs_ : Keeps A_ s_ s) : Keeps A_ s_ (lookupWork q c s) := by
  refine Keeps.comp ?_ ha_ hs_
  clear hs_ ha_; unfold lookupWork
  try dsimp only
  repeat' first
    | with_reducible exact Keeps.refl _ _
    | with_reducible refine withTable_keeps (fun _ => ?_) ?_ ?_
    | with_reducible apply voxRead_keeps
    | with_reducible refine Keeps.pair2 (p := voxRead _ _ _ _) (by assumption) ?_
    | with_reducible refine voxOut_keeps (fun _ _ => ?_) ?_ ?_
    | with_reducible refine withScratch_keeps (fun _ _ => ?_) ?_ ?_
    | with_reducible apply readSome_keeps
    | with_reducible refine Keeps.pair3 (by assumption) ?_
    | with_reducible apply voxEnd_keeps
    | with_reducible apply putCmd_keeps
    | with_reducible refine Keeps.getD (fun _ _ => ?_) ?_
    | with_reducible refine Keeps.ite ?_ ?_
    | exact Or.inr (by decide)
    | with_reducible exact Or.inl rfl
    | (show (_ : List Area) ⊆ _; decide)
    | split
    | with_reducible apply Keeps.mk
    | dsimp only
    | exact Or.inl rfl

theorem execVoxelSample_keeps {A_ : List Area} {s_ t_ : State} {q : QId} {idx : BitVec 16} {s : State} (h_ : execVoxelSample q idx s = .next t_)
    (ha_ : [.serialNo, .ports, .xpt, .til, .dram, .dir, .eng] ⊆ A_) (hs_ : Keeps A_ s_ s) : Keeps A_ s_ t_ := by
  refine Keeps.comp ?_ ha_ hs_
  clear hs_ ha_; unfold execVoxelSample at h_
  try dsimp only at h_
  all_goals first | with_reducible exact Keeps.of_fault h_ | (with_reducible obtain rfl := Host.Outcome.next.inj h_) | skip
  repeat' first
    | with_reducible exact Keeps.refl _ _
    | with_reducible apply sampleWork_keeps
    | with_reducible refine runCmd_keeps (fun _ _ => ?_) ?_ ?_
    | with_reducible refine whileAlive_keeps (fun _ => ?_) ?_
    | (show (_ : List Area) ⊆ _; decide)

theorem execRulebookBuild_keeps {A_ : List Area} {s_ t_ : State} {q : QId} {idx : BitVec 16} {s : State} (h_ : execRulebookBuild q idx s = .next t_)
    (ha_ : [.serialNo, .ports, .xpt, .til, .dram, .dir, .eng] ⊆ A_) (hs_ : Keeps A_ s_ s) : Keeps A_ s_ t_ := by
  refine Keeps.comp ?_ ha_ hs_
  clear hs_ ha_; unfold execRulebookBuild at h_
  try dsimp only at h_
  all_goals first | with_reducible exact Keeps.of_fault h_ | (with_reducible obtain rfl := Host.Outcome.next.inj h_) | skip
  repeat' first
    | with_reducible exact Keeps.refl _ _
    | with_reducible apply rulebookWork_keeps
    | with_reducible refine runCmd_keeps (fun _ _ => ?_) ?_ ?_
    | with_reducible refine whileAlive_keeps (fun _ => ?_) ?_
    | (show (_ : List Area) ⊆ _; decide)

theorem execSiteLookup_keeps {A_ : List Area} {s_ t_ : State} {q : QId} {idx : BitVec 16} {s : State} (h_ : execSiteLookup q idx s = .next t_)
    (ha_ : [.serialNo, .ports, .xpt, .til, .dram, .dir, .eng] ⊆ A_) (hs_ : Keeps A_ s_ s) : Keeps A_ s_ t_ := by
  refine Keeps.comp ?_ ha_ hs_
  clear hs_ ha_; unfold execSiteLookup at h_
  try dsimp only at h_
  all_goals first | with_reducible exact Keeps.of_fault h_ | (with_reducible obtain rfl := Host.Outcome.next.inj h_) | skip
  repeat' first
    | with_reducible exact Keeps.refl _ _
    | with_reducible apply lookupWork_keeps
    | with_reducible refine runCmd_keeps (fun _ _ => ?_) ?_ ?_
    | with_reducible refine whileAlive_keeps (fun _ => ?_) ?_
    | (show (_ : List Area) ⊆ _; decide)

end Sys2Proof.Machine
end

