-- ==== Sys2Proof/Laws/State.lean ====
section
/-! SUPPORT. One lemma for each field under each update of the state, and what each indexed piece of state reads after a write. -/

namespace Sys2Proof.Machine

/-! ### setInst -/
@[simp] theorem State.setInst_pending (s : State) (i : Nat) (x : Inst) : (s.setInst i x).pending = s.pending := rfl
@[simp] theorem State.setInst_clk (s : State) (i : Nat) (x : Inst) : (s.setInst i x).clk = s.clk := rfl
@[simp] theorem State.setInst_crs (s : State) (i : Nat) (x : Inst) : (s.setInst i x).crs = s.crs := rfl
@[simp] theorem State.setInst_nid (s : State) (i : Nat) (x : Inst) : (s.setInst i x).nid = s.nid := rfl
@[simp] theorem State.setInst_cfg (s : State) (i : Nat) (x : Inst) : (s.setInst i x).cfg = s.cfg := rfl
@[simp] theorem State.setInst_parts (s : State) (i : Nat) (x : Inst) : (s.setInst i x).parts = s.parts := rfl
@[simp] theorem State.setInst_tenants (s : State) (i : Nat) (x : Inst) : (s.setInst i x).tenants = s.tenants := rfl
@[simp] theorem State.setInst_pttStatus (s : State) (i : Nat) (x : Inst) : (s.setInst i x).pttStatus = s.pttStatus := rfl
@[simp] theorem State.setInst_streams (s : State) (i : Nat) (x : Inst) : (s.setInst i x).streams = s.streams := rfl
@[simp] theorem State.setInst_reqs (s : State) (i : Nat) (x : Inst) : (s.setInst i x).reqs = s.reqs := rfl
@[simp] theorem State.setInst_serialNo (s : State) (i : Nat) (x : Inst) : (s.setInst i x).serialNo = s.serialNo := rfl
@[simp] theorem State.setInst_ports (s : State) (i : Nat) (x : Inst) : (s.setInst i x).ports = s.ports := rfl
@[simp] theorem State.setInst_xpt (s : State) (i : Nat) (x : Inst) : (s.setInst i x).xpt = s.xpt := rfl
@[simp] theorem State.setInst_msh (s : State) (i : Nat) (x : Inst) : (s.setInst i x).msh = s.msh := rfl
@[simp] theorem State.setInst_til (s : State) (i : Nat) (x : Inst) : (s.setInst i x).til = s.til := rfl
@[simp] theorem State.setInst_dram (s : State) (i : Nat) (x : Inst) : (s.setInst i x).dram = s.dram := rfl
@[simp] theorem State.setInst_dir (s : State) (i : Nat) (x : Inst) : (s.setInst i x).dir = s.dir := rfl
@[simp] theorem State.setInst_eng (s : State) (i : Nat) (x : Inst) : (s.setInst i x).eng = s.eng := rfl
@[simp] theorem State.setInst_arr (s : State) (i : Nat) (x : Inst) : (s.setInst i x).arr = s.arr := rfl
@[simp] theorem State.setInst_sec (s : State) (i : Nat) (x : Inst) : (s.setInst i x).sec = s.sec := rfl
@[simp] theorem State.setInst_hosts (s : State) (i : Nat) (x : Inst) : (s.setInst i x).hosts = s.hosts := rfl
@[simp] theorem State.setInst_pwr (s : State) (i : Nat) (x : Inst) : (s.setInst i x).pwr = s.pwr := rfl
@[simp] theorem State.setInst_flt (s : State) (i : Nat) (x : Inst) : (s.setInst i x).flt = s.flt := rfl
@[simp] theorem State.setInst_boot (s : State) (i : Nat) (x : Inst) : (s.setInst i x).boot = s.boot := rfl
@[simp] theorem State.setInst_sbd (s : State) (i : Nat) (x : Inst) : (s.setInst i x).sbd = s.sbd := rfl
@[simp] theorem State.setInst_out (s : State) (i : Nat) (x : Inst) : (s.setInst i x).out = s.out := rfl

/-! ### setPart -/
@[simp] theorem State.setPart_pending (s : State) (p : Nat) (x : Part) : (s.setPart p x).pending = s.pending := rfl
@[simp] theorem State.setPart_clk (s : State) (p : Nat) (x : Part) : (s.setPart p x).clk = s.clk := rfl
@[simp] theorem State.setPart_crs (s : State) (p : Nat) (x : Part) : (s.setPart p x).crs = s.crs := rfl
@[simp] theorem State.setPart_insts (s : State) (p : Nat) (x : Part) : (s.setPart p x).insts = s.insts := rfl
@[simp] theorem State.setPart_nid (s : State) (p : Nat) (x : Part) : (s.setPart p x).nid = s.nid := rfl
@[simp] theorem State.setPart_cfg (s : State) (p : Nat) (x : Part) : (s.setPart p x).cfg = s.cfg := rfl
@[simp] theorem State.setPart_tenants (s : State) (p : Nat) (x : Part) : (s.setPart p x).tenants = s.tenants := rfl
@[simp] theorem State.setPart_pttStatus (s : State) (p : Nat) (x : Part) : (s.setPart p x).pttStatus = s.pttStatus := rfl
@[simp] theorem State.setPart_streams (s : State) (p : Nat) (x : Part) : (s.setPart p x).streams = s.streams := rfl
@[simp] theorem State.setPart_reqs (s : State) (p : Nat) (x : Part) : (s.setPart p x).reqs = s.reqs := rfl
@[simp] theorem State.setPart_serialNo (s : State) (p : Nat) (x : Part) : (s.setPart p x).serialNo = s.serialNo := rfl
@[simp] theorem State.setPart_ports (s : State) (p : Nat) (x : Part) : (s.setPart p x).ports = s.ports := rfl
@[simp] theorem State.setPart_xpt (s : State) (p : Nat) (x : Part) : (s.setPart p x).xpt = s.xpt := rfl
@[simp] theorem State.setPart_msh (s : State) (p : Nat) (x : Part) : (s.setPart p x).msh = s.msh := rfl
@[simp] theorem State.setPart_til (s : State) (p : Nat) (x : Part) : (s.setPart p x).til = s.til := rfl
@[simp] theorem State.setPart_dram (s : State) (p : Nat) (x : Part) : (s.setPart p x).dram = s.dram := rfl
@[simp] theorem State.setPart_dir (s : State) (p : Nat) (x : Part) : (s.setPart p x).dir = s.dir := rfl
@[simp] theorem State.setPart_eng (s : State) (p : Nat) (x : Part) : (s.setPart p x).eng = s.eng := rfl
@[simp] theorem State.setPart_arr (s : State) (p : Nat) (x : Part) : (s.setPart p x).arr = s.arr := rfl
@[simp] theorem State.setPart_sec (s : State) (p : Nat) (x : Part) : (s.setPart p x).sec = s.sec := rfl
@[simp] theorem State.setPart_hosts (s : State) (p : Nat) (x : Part) : (s.setPart p x).hosts = s.hosts := rfl
@[simp] theorem State.setPart_pwr (s : State) (p : Nat) (x : Part) : (s.setPart p x).pwr = s.pwr := rfl
@[simp] theorem State.setPart_flt (s : State) (p : Nat) (x : Part) : (s.setPart p x).flt = s.flt := rfl
@[simp] theorem State.setPart_boot (s : State) (p : Nat) (x : Part) : (s.setPart p x).boot = s.boot := rfl
@[simp] theorem State.setPart_sbd (s : State) (p : Nat) (x : Part) : (s.setPart p x).sbd = s.sbd := rfl
@[simp] theorem State.setPart_out (s : State) (p : Nat) (x : Part) : (s.setPart p x).out = s.out := rfl

/-! ### setTenant -/
@[simp] theorem State.setTenant_pending (s : State) (t : Nat) (x : Tenant) : (s.setTenant t x).pending = s.pending := rfl
@[simp] theorem State.setTenant_clk (s : State) (t : Nat) (x : Tenant) : (s.setTenant t x).clk = s.clk := rfl
@[simp] theorem State.setTenant_crs (s : State) (t : Nat) (x : Tenant) : (s.setTenant t x).crs = s.crs := rfl
@[simp] theorem State.setTenant_insts (s : State) (t : Nat) (x : Tenant) : (s.setTenant t x).insts = s.insts := rfl
@[simp] theorem State.setTenant_nid (s : State) (t : Nat) (x : Tenant) : (s.setTenant t x).nid = s.nid := rfl
@[simp] theorem State.setTenant_cfg (s : State) (t : Nat) (x : Tenant) : (s.setTenant t x).cfg = s.cfg := rfl
@[simp] theorem State.setTenant_parts (s : State) (t : Nat) (x : Tenant) : (s.setTenant t x).parts = s.parts := rfl
@[simp] theorem State.setTenant_pttStatus (s : State) (t : Nat) (x : Tenant) : (s.setTenant t x).pttStatus = s.pttStatus := rfl
@[simp] theorem State.setTenant_streams (s : State) (t : Nat) (x : Tenant) : (s.setTenant t x).streams = s.streams := rfl
@[simp] theorem State.setTenant_reqs (s : State) (t : Nat) (x : Tenant) : (s.setTenant t x).reqs = s.reqs := rfl
@[simp] theorem State.setTenant_serialNo (s : State) (t : Nat) (x : Tenant) : (s.setTenant t x).serialNo = s.serialNo := rfl
@[simp] theorem State.setTenant_ports (s : State) (t : Nat) (x : Tenant) : (s.setTenant t x).ports = s.ports := rfl
@[simp] theorem State.setTenant_xpt (s : State) (t : Nat) (x : Tenant) : (s.setTenant t x).xpt = s.xpt := rfl
@[simp] theorem State.setTenant_msh (s : State) (t : Nat) (x : Tenant) : (s.setTenant t x).msh = s.msh := rfl
@[simp] theorem State.setTenant_til (s : State) (t : Nat) (x : Tenant) : (s.setTenant t x).til = s.til := rfl
@[simp] theorem State.setTenant_dram (s : State) (t : Nat) (x : Tenant) : (s.setTenant t x).dram = s.dram := rfl
@[simp] theorem State.setTenant_dir (s : State) (t : Nat) (x : Tenant) : (s.setTenant t x).dir = s.dir := rfl
@[simp] theorem State.setTenant_eng (s : State) (t : Nat) (x : Tenant) : (s.setTenant t x).eng = s.eng := rfl
@[simp] theorem State.setTenant_arr (s : State) (t : Nat) (x : Tenant) : (s.setTenant t x).arr = s.arr := rfl
@[simp] theorem State.setTenant_sec (s : State) (t : Nat) (x : Tenant) : (s.setTenant t x).sec = s.sec := rfl
@[simp] theorem State.setTenant_hosts (s : State) (t : Nat) (x : Tenant) : (s.setTenant t x).hosts = s.hosts := rfl
@[simp] theorem State.setTenant_pwr (s : State) (t : Nat) (x : Tenant) : (s.setTenant t x).pwr = s.pwr := rfl
@[simp] theorem State.setTenant_flt (s : State) (t : Nat) (x : Tenant) : (s.setTenant t x).flt = s.flt := rfl
@[simp] theorem State.setTenant_boot (s : State) (t : Nat) (x : Tenant) : (s.setTenant t x).boot = s.boot := rfl
@[simp] theorem State.setTenant_sbd (s : State) (t : Nat) (x : Tenant) : (s.setTenant t x).sbd = s.sbd := rfl
@[simp] theorem State.setTenant_out (s : State) (t : Nat) (x : Tenant) : (s.setTenant t x).out = s.out := rfl

/-! ### setStream -/
@[simp] theorem State.setStream_pending (s : State) (k : Nat) (x : Stream) : (s.setStream k x).pending = s.pending := rfl
@[simp] theorem State.setStream_clk (s : State) (k : Nat) (x : Stream) : (s.setStream k x).clk = s.clk := rfl
@[simp] theorem State.setStream_crs (s : State) (k : Nat) (x : Stream) : (s.setStream k x).crs = s.crs := rfl
@[simp] theorem State.setStream_insts (s : State) (k : Nat) (x : Stream) : (s.setStream k x).insts = s.insts := rfl
@[simp] theorem State.setStream_nid (s : State) (k : Nat) (x : Stream) : (s.setStream k x).nid = s.nid := rfl
@[simp] theorem State.setStream_cfg (s : State) (k : Nat) (x : Stream) : (s.setStream k x).cfg = s.cfg := rfl
@[simp] theorem State.setStream_parts (s : State) (k : Nat) (x : Stream) : (s.setStream k x).parts = s.parts := rfl
@[simp] theorem State.setStream_tenants (s : State) (k : Nat) (x : Stream) : (s.setStream k x).tenants = s.tenants := rfl
@[simp] theorem State.setStream_pttStatus (s : State) (k : Nat) (x : Stream) : (s.setStream k x).pttStatus = s.pttStatus := rfl
@[simp] theorem State.setStream_reqs (s : State) (k : Nat) (x : Stream) : (s.setStream k x).reqs = s.reqs := rfl
@[simp] theorem State.setStream_serialNo (s : State) (k : Nat) (x : Stream) : (s.setStream k x).serialNo = s.serialNo := rfl
@[simp] theorem State.setStream_ports (s : State) (k : Nat) (x : Stream) : (s.setStream k x).ports = s.ports := rfl
@[simp] theorem State.setStream_xpt (s : State) (k : Nat) (x : Stream) : (s.setStream k x).xpt = s.xpt := rfl
@[simp] theorem State.setStream_msh (s : State) (k : Nat) (x : Stream) : (s.setStream k x).msh = s.msh := rfl
@[simp] theorem State.setStream_til (s : State) (k : Nat) (x : Stream) : (s.setStream k x).til = s.til := rfl
@[simp] theorem State.setStream_dram (s : State) (k : Nat) (x : Stream) : (s.setStream k x).dram = s.dram := rfl
@[simp] theorem State.setStream_dir (s : State) (k : Nat) (x : Stream) : (s.setStream k x).dir = s.dir := rfl
@[simp] theorem State.setStream_eng (s : State) (k : Nat) (x : Stream) : (s.setStream k x).eng = s.eng := rfl
@[simp] theorem State.setStream_arr (s : State) (k : Nat) (x : Stream) : (s.setStream k x).arr = s.arr := rfl
@[simp] theorem State.setStream_sec (s : State) (k : Nat) (x : Stream) : (s.setStream k x).sec = s.sec := rfl
@[simp] theorem State.setStream_hosts (s : State) (k : Nat) (x : Stream) : (s.setStream k x).hosts = s.hosts := rfl
@[simp] theorem State.setStream_pwr (s : State) (k : Nat) (x : Stream) : (s.setStream k x).pwr = s.pwr := rfl
@[simp] theorem State.setStream_flt (s : State) (k : Nat) (x : Stream) : (s.setStream k x).flt = s.flt := rfl
@[simp] theorem State.setStream_boot (s : State) (k : Nat) (x : Stream) : (s.setStream k x).boot = s.boot := rfl
@[simp] theorem State.setStream_sbd (s : State) (k : Nat) (x : Stream) : (s.setStream k x).sbd = s.sbd := rfl
@[simp] theorem State.setStream_out (s : State) (k : Nat) (x : Stream) : (s.setStream k x).out = s.out := rfl

/-! ### setPort -/
@[simp] theorem State.setPort_pending (s : State) (p : Nat) (x : Port) : (s.setPort p x).pending = s.pending := rfl
@[simp] theorem State.setPort_clk (s : State) (p : Nat) (x : Port) : (s.setPort p x).clk = s.clk := rfl
@[simp] theorem State.setPort_crs (s : State) (p : Nat) (x : Port) : (s.setPort p x).crs = s.crs := rfl
@[simp] theorem State.setPort_insts (s : State) (p : Nat) (x : Port) : (s.setPort p x).insts = s.insts := rfl
@[simp] theorem State.setPort_nid (s : State) (p : Nat) (x : Port) : (s.setPort p x).nid = s.nid := rfl
@[simp] theorem State.setPort_cfg (s : State) (p : Nat) (x : Port) : (s.setPort p x).cfg = s.cfg := rfl
@[simp] theorem State.setPort_parts (s : State) (p : Nat) (x : Port) : (s.setPort p x).parts = s.parts := rfl
@[simp] theorem State.setPort_tenants (s : State) (p : Nat) (x : Port) : (s.setPort p x).tenants = s.tenants := rfl
@[simp] theorem State.setPort_pttStatus (s : State) (p : Nat) (x : Port) : (s.setPort p x).pttStatus = s.pttStatus := rfl
@[simp] theorem State.setPort_streams (s : State) (p : Nat) (x : Port) : (s.setPort p x).streams = s.streams := rfl
@[simp] theorem State.setPort_reqs (s : State) (p : Nat) (x : Port) : (s.setPort p x).reqs = s.reqs := rfl
@[simp] theorem State.setPort_serialNo (s : State) (p : Nat) (x : Port) : (s.setPort p x).serialNo = s.serialNo := rfl
@[simp] theorem State.setPort_xpt (s : State) (p : Nat) (x : Port) : (s.setPort p x).xpt = s.xpt := rfl
@[simp] theorem State.setPort_msh (s : State) (p : Nat) (x : Port) : (s.setPort p x).msh = s.msh := rfl
@[simp] theorem State.setPort_til (s : State) (p : Nat) (x : Port) : (s.setPort p x).til = s.til := rfl
@[simp] theorem State.setPort_dram (s : State) (p : Nat) (x : Port) : (s.setPort p x).dram = s.dram := rfl
@[simp] theorem State.setPort_dir (s : State) (p : Nat) (x : Port) : (s.setPort p x).dir = s.dir := rfl
@[simp] theorem State.setPort_eng (s : State) (p : Nat) (x : Port) : (s.setPort p x).eng = s.eng := rfl
@[simp] theorem State.setPort_arr (s : State) (p : Nat) (x : Port) : (s.setPort p x).arr = s.arr := rfl
@[simp] theorem State.setPort_sec (s : State) (p : Nat) (x : Port) : (s.setPort p x).sec = s.sec := rfl
@[simp] theorem State.setPort_hosts (s : State) (p : Nat) (x : Port) : (s.setPort p x).hosts = s.hosts := rfl
@[simp] theorem State.setPort_pwr (s : State) (p : Nat) (x : Port) : (s.setPort p x).pwr = s.pwr := rfl
@[simp] theorem State.setPort_flt (s : State) (p : Nat) (x : Port) : (s.setPort p x).flt = s.flt := rfl
@[simp] theorem State.setPort_boot (s : State) (p : Nat) (x : Port) : (s.setPort p x).boot = s.boot := rfl
@[simp] theorem State.setPort_sbd (s : State) (p : Nat) (x : Port) : (s.setPort p x).sbd = s.sbd := rfl
@[simp] theorem State.setPort_out (s : State) (p : Nat) (x : Port) : (s.setPort p x).out = s.out := rfl

/-! ### setHost -/
@[simp] theorem State.setHost_pending (s : State) (p : Nat) (x : HostPort) : (s.setHost p x).pending = s.pending := rfl
@[simp] theorem State.setHost_clk (s : State) (p : Nat) (x : HostPort) : (s.setHost p x).clk = s.clk := rfl
@[simp] theorem State.setHost_crs (s : State) (p : Nat) (x : HostPort) : (s.setHost p x).crs = s.crs := rfl
@[simp] theorem State.setHost_insts (s : State) (p : Nat) (x : HostPort) : (s.setHost p x).insts = s.insts := rfl
@[simp] theorem State.setHost_nid (s : State) (p : Nat) (x : HostPort) : (s.setHost p x).nid = s.nid := rfl
@[simp] theorem State.setHost_cfg (s : State) (p : Nat) (x : HostPort) : (s.setHost p x).cfg = s.cfg := rfl
@[simp] theorem State.setHost_parts (s : State) (p : Nat) (x : HostPort) : (s.setHost p x).parts = s.parts := rfl
@[simp] theorem State.setHost_tenants (s : State) (p : Nat) (x : HostPort) : (s.setHost p x).tenants = s.tenants := rfl
@[simp] theorem State.setHost_pttStatus (s : State) (p : Nat) (x : HostPort) : (s.setHost p x).pttStatus = s.pttStatus := rfl
@[simp] theorem State.setHost_streams (s : State) (p : Nat) (x : HostPort) : (s.setHost p x).streams = s.streams := rfl
@[simp] theorem State.setHost_reqs (s : State) (p : Nat) (x : HostPort) : (s.setHost p x).reqs = s.reqs := rfl
@[simp] theorem State.setHost_serialNo (s : State) (p : Nat) (x : HostPort) : (s.setHost p x).serialNo = s.serialNo := rfl
@[simp] theorem State.setHost_ports (s : State) (p : Nat) (x : HostPort) : (s.setHost p x).ports = s.ports := rfl
@[simp] theorem State.setHost_xpt (s : State) (p : Nat) (x : HostPort) : (s.setHost p x).xpt = s.xpt := rfl
@[simp] theorem State.setHost_msh (s : State) (p : Nat) (x : HostPort) : (s.setHost p x).msh = s.msh := rfl
@[simp] theorem State.setHost_til (s : State) (p : Nat) (x : HostPort) : (s.setHost p x).til = s.til := rfl
@[simp] theorem State.setHost_dram (s : State) (p : Nat) (x : HostPort) : (s.setHost p x).dram = s.dram := rfl
@[simp] theorem State.setHost_dir (s : State) (p : Nat) (x : HostPort) : (s.setHost p x).dir = s.dir := rfl
@[simp] theorem State.setHost_eng (s : State) (p : Nat) (x : HostPort) : (s.setHost p x).eng = s.eng := rfl
@[simp] theorem State.setHost_arr (s : State) (p : Nat) (x : HostPort) : (s.setHost p x).arr = s.arr := rfl
@[simp] theorem State.setHost_sec (s : State) (p : Nat) (x : HostPort) : (s.setHost p x).sec = s.sec := rfl
@[simp] theorem State.setHost_pwr (s : State) (p : Nat) (x : HostPort) : (s.setHost p x).pwr = s.pwr := rfl
@[simp] theorem State.setHost_flt (s : State) (p : Nat) (x : HostPort) : (s.setHost p x).flt = s.flt := rfl
@[simp] theorem State.setHost_boot (s : State) (p : Nat) (x : HostPort) : (s.setHost p x).boot = s.boot := rfl
@[simp] theorem State.setHost_sbd (s : State) (p : Nat) (x : HostPort) : (s.setHost p x).sbd = s.sbd := rfl
@[simp] theorem State.setHost_out (s : State) (p : Nat) (x : HostPort) : (s.setHost p x).out = s.out := rfl

/-! ### setMig -/
@[simp] theorem State.setMig_pending (s : State) (k : Nat) (x : Mig) : (s.setMig k x).pending = s.pending := rfl
@[simp] theorem State.setMig_clk (s : State) (k : Nat) (x : Mig) : (s.setMig k x).clk = s.clk := rfl
@[simp] theorem State.setMig_crs (s : State) (k : Nat) (x : Mig) : (s.setMig k x).crs = s.crs := rfl
@[simp] theorem State.setMig_insts (s : State) (k : Nat) (x : Mig) : (s.setMig k x).insts = s.insts := rfl
@[simp] theorem State.setMig_nid (s : State) (k : Nat) (x : Mig) : (s.setMig k x).nid = s.nid := rfl
@[simp] theorem State.setMig_cfg (s : State) (k : Nat) (x : Mig) : (s.setMig k x).cfg = s.cfg := rfl
@[simp] theorem State.setMig_parts (s : State) (k : Nat) (x : Mig) : (s.setMig k x).parts = s.parts := rfl
@[simp] theorem State.setMig_tenants (s : State) (k : Nat) (x : Mig) : (s.setMig k x).tenants = s.tenants := rfl
@[simp] theorem State.setMig_pttStatus (s : State) (k : Nat) (x : Mig) : (s.setMig k x).pttStatus = s.pttStatus := rfl
@[simp] theorem State.setMig_streams (s : State) (k : Nat) (x : Mig) : (s.setMig k x).streams = s.streams := rfl
@[simp] theorem State.setMig_reqs (s : State) (k : Nat) (x : Mig) : (s.setMig k x).reqs = s.reqs := rfl
@[simp] theorem State.setMig_serialNo (s : State) (k : Nat) (x : Mig) : (s.setMig k x).serialNo = s.serialNo := rfl
@[simp] theorem State.setMig_ports (s : State) (k : Nat) (x : Mig) : (s.setMig k x).ports = s.ports := rfl
@[simp] theorem State.setMig_xpt (s : State) (k : Nat) (x : Mig) : (s.setMig k x).xpt = s.xpt := rfl
@[simp] theorem State.setMig_msh (s : State) (k : Nat) (x : Mig) : (s.setMig k x).msh = s.msh := rfl
@[simp] theorem State.setMig_dram (s : State) (k : Nat) (x : Mig) : (s.setMig k x).dram = s.dram := rfl
@[simp] theorem State.setMig_dir (s : State) (k : Nat) (x : Mig) : (s.setMig k x).dir = s.dir := rfl
@[simp] theorem State.setMig_eng (s : State) (k : Nat) (x : Mig) : (s.setMig k x).eng = s.eng := rfl
@[simp] theorem State.setMig_arr (s : State) (k : Nat) (x : Mig) : (s.setMig k x).arr = s.arr := rfl
@[simp] theorem State.setMig_sec (s : State) (k : Nat) (x : Mig) : (s.setMig k x).sec = s.sec := rfl
@[simp] theorem State.setMig_hosts (s : State) (k : Nat) (x : Mig) : (s.setMig k x).hosts = s.hosts := rfl
@[simp] theorem State.setMig_pwr (s : State) (k : Nat) (x : Mig) : (s.setMig k x).pwr = s.pwr := rfl
@[simp] theorem State.setMig_flt (s : State) (k : Nat) (x : Mig) : (s.setMig k x).flt = s.flt := rfl
@[simp] theorem State.setMig_boot (s : State) (k : Nat) (x : Mig) : (s.setMig k x).boot = s.boot := rfl
@[simp] theorem State.setMig_sbd (s : State) (k : Nat) (x : Mig) : (s.setMig k x).sbd = s.sbd := rfl
@[simp] theorem State.setMig_out (s : State) (k : Nat) (x : Mig) : (s.setMig k x).out = s.out := rfl

/-! ### setUse -/
@[simp] theorem State.setUse_pending (s : State) (k : Nat) (x : TileUse) : (s.setUse k x).pending = s.pending := rfl
@[simp] theorem State.setUse_clk (s : State) (k : Nat) (x : TileUse) : (s.setUse k x).clk = s.clk := rfl
@[simp] theorem State.setUse_crs (s : State) (k : Nat) (x : TileUse) : (s.setUse k x).crs = s.crs := rfl
@[simp] theorem State.setUse_insts (s : State) (k : Nat) (x : TileUse) : (s.setUse k x).insts = s.insts := rfl
@[simp] theorem State.setUse_nid (s : State) (k : Nat) (x : TileUse) : (s.setUse k x).nid = s.nid := rfl
@[simp] theorem State.setUse_cfg (s : State) (k : Nat) (x : TileUse) : (s.setUse k x).cfg = s.cfg := rfl
@[simp] theorem State.setUse_parts (s : State) (k : Nat) (x : TileUse) : (s.setUse k x).parts = s.parts := rfl
@[simp] theorem State.setUse_tenants (s : State) (k : Nat) (x : TileUse) : (s.setUse k x).tenants = s.tenants := rfl
@[simp] theorem State.setUse_pttStatus (s : State) (k : Nat) (x : TileUse) : (s.setUse k x).pttStatus = s.pttStatus := rfl
@[simp] theorem State.setUse_streams (s : State) (k : Nat) (x : TileUse) : (s.setUse k x).streams = s.streams := rfl
@[simp] theorem State.setUse_reqs (s : State) (k : Nat) (x : TileUse) : (s.setUse k x).reqs = s.reqs := rfl
@[simp] theorem State.setUse_serialNo (s : State) (k : Nat) (x : TileUse) : (s.setUse k x).serialNo = s.serialNo := rfl
@[simp] theorem State.setUse_ports (s : State) (k : Nat) (x : TileUse) : (s.setUse k x).ports = s.ports := rfl
@[simp] theorem State.setUse_xpt (s : State) (k : Nat) (x : TileUse) : (s.setUse k x).xpt = s.xpt := rfl
@[simp] theorem State.setUse_msh (s : State) (k : Nat) (x : TileUse) : (s.setUse k x).msh = s.msh := rfl
@[simp] theorem State.setUse_dram (s : State) (k : Nat) (x : TileUse) : (s.setUse k x).dram = s.dram := rfl
@[simp] theorem State.setUse_dir (s : State) (k : Nat) (x : TileUse) : (s.setUse k x).dir = s.dir := rfl
@[simp] theorem State.setUse_eng (s : State) (k : Nat) (x : TileUse) : (s.setUse k x).eng = s.eng := rfl
@[simp] theorem State.setUse_arr (s : State) (k : Nat) (x : TileUse) : (s.setUse k x).arr = s.arr := rfl
@[simp] theorem State.setUse_sec (s : State) (k : Nat) (x : TileUse) : (s.setUse k x).sec = s.sec := rfl
@[simp] theorem State.setUse_hosts (s : State) (k : Nat) (x : TileUse) : (s.setUse k x).hosts = s.hosts := rfl
@[simp] theorem State.setUse_pwr (s : State) (k : Nat) (x : TileUse) : (s.setUse k x).pwr = s.pwr := rfl
@[simp] theorem State.setUse_flt (s : State) (k : Nat) (x : TileUse) : (s.setUse k x).flt = s.flt := rfl
@[simp] theorem State.setUse_boot (s : State) (k : Nat) (x : TileUse) : (s.setUse k x).boot = s.boot := rfl
@[simp] theorem State.setUse_sbd (s : State) (k : Nat) (x : TileUse) : (s.setUse k x).sbd = s.sbd := rfl
@[simp] theorem State.setUse_out (s : State) (k : Nat) (x : TileUse) : (s.setUse k x).out = s.out := rfl

/-! ### setChan -/
@[simp] theorem State.setChan_pending (s : State) (k : Nat) (x : Chan) : (s.setChan k x).pending = s.pending := rfl
@[simp] theorem State.setChan_clk (s : State) (k : Nat) (x : Chan) : (s.setChan k x).clk = s.clk := rfl
@[simp] theorem State.setChan_crs (s : State) (k : Nat) (x : Chan) : (s.setChan k x).crs = s.crs := rfl
@[simp] theorem State.setChan_insts (s : State) (k : Nat) (x : Chan) : (s.setChan k x).insts = s.insts := rfl
@[simp] theorem State.setChan_nid (s : State) (k : Nat) (x : Chan) : (s.setChan k x).nid = s.nid := rfl
@[simp] theorem State.setChan_cfg (s : State) (k : Nat) (x : Chan) : (s.setChan k x).cfg = s.cfg := rfl
@[simp] theorem State.setChan_parts (s : State) (k : Nat) (x : Chan) : (s.setChan k x).parts = s.parts := rfl
@[simp] theorem State.setChan_tenants (s : State) (k : Nat) (x : Chan) : (s.setChan k x).tenants = s.tenants := rfl
@[simp] theorem State.setChan_pttStatus (s : State) (k : Nat) (x : Chan) : (s.setChan k x).pttStatus = s.pttStatus := rfl
@[simp] theorem State.setChan_streams (s : State) (k : Nat) (x : Chan) : (s.setChan k x).streams = s.streams := rfl
@[simp] theorem State.setChan_reqs (s : State) (k : Nat) (x : Chan) : (s.setChan k x).reqs = s.reqs := rfl
@[simp] theorem State.setChan_serialNo (s : State) (k : Nat) (x : Chan) : (s.setChan k x).serialNo = s.serialNo := rfl
@[simp] theorem State.setChan_ports (s : State) (k : Nat) (x : Chan) : (s.setChan k x).ports = s.ports := rfl
@[simp] theorem State.setChan_xpt (s : State) (k : Nat) (x : Chan) : (s.setChan k x).xpt = s.xpt := rfl
@[simp] theorem State.setChan_msh (s : State) (k : Nat) (x : Chan) : (s.setChan k x).msh = s.msh := rfl
@[simp] theorem State.setChan_til (s : State) (k : Nat) (x : Chan) : (s.setChan k x).til = s.til := rfl
@[simp] theorem State.setChan_dir (s : State) (k : Nat) (x : Chan) : (s.setChan k x).dir = s.dir := rfl
@[simp] theorem State.setChan_eng (s : State) (k : Nat) (x : Chan) : (s.setChan k x).eng = s.eng := rfl
@[simp] theorem State.setChan_arr (s : State) (k : Nat) (x : Chan) : (s.setChan k x).arr = s.arr := rfl
@[simp] theorem State.setChan_sec (s : State) (k : Nat) (x : Chan) : (s.setChan k x).sec = s.sec := rfl
@[simp] theorem State.setChan_hosts (s : State) (k : Nat) (x : Chan) : (s.setChan k x).hosts = s.hosts := rfl
@[simp] theorem State.setChan_pwr (s : State) (k : Nat) (x : Chan) : (s.setChan k x).pwr = s.pwr := rfl
@[simp] theorem State.setChan_flt (s : State) (k : Nat) (x : Chan) : (s.setChan k x).flt = s.flt := rfl
@[simp] theorem State.setChan_boot (s : State) (k : Nat) (x : Chan) : (s.setChan k x).boot = s.boot := rfl
@[simp] theorem State.setChan_sbd (s : State) (k : Nat) (x : Chan) : (s.setChan k x).sbd = s.sbd := rfl
@[simp] theorem State.setChan_out (s : State) (k : Nat) (x : Chan) : (s.setChan k x).out = s.out := rfl

/-! ### setQueue -/
@[simp] theorem State.setQueue_pending (s : State) (k : Nat) (x : Queue) : (s.setQueue k x).pending = s.pending := rfl
@[simp] theorem State.setQueue_clk (s : State) (k : Nat) (x : Queue) : (s.setQueue k x).clk = s.clk := rfl
@[simp] theorem State.setQueue_crs (s : State) (k : Nat) (x : Queue) : (s.setQueue k x).crs = s.crs := rfl
@[simp] theorem State.setQueue_insts (s : State) (k : Nat) (x : Queue) : (s.setQueue k x).insts = s.insts := rfl
@[simp] theorem State.setQueue_nid (s : State) (k : Nat) (x : Queue) : (s.setQueue k x).nid = s.nid := rfl
@[simp] theorem State.setQueue_cfg (s : State) (k : Nat) (x : Queue) : (s.setQueue k x).cfg = s.cfg := rfl
@[simp] theorem State.setQueue_parts (s : State) (k : Nat) (x : Queue) : (s.setQueue k x).parts = s.parts := rfl
@[simp] theorem State.setQueue_tenants (s : State) (k : Nat) (x : Queue) : (s.setQueue k x).tenants = s.tenants := rfl
@[simp] theorem State.setQueue_pttStatus (s : State) (k : Nat) (x : Queue) : (s.setQueue k x).pttStatus = s.pttStatus := rfl
@[simp] theorem State.setQueue_streams (s : State) (k : Nat) (x : Queue) : (s.setQueue k x).streams = s.streams := rfl
@[simp] theorem State.setQueue_reqs (s : State) (k : Nat) (x : Queue) : (s.setQueue k x).reqs = s.reqs := rfl
@[simp] theorem State.setQueue_serialNo (s : State) (k : Nat) (x : Queue) : (s.setQueue k x).serialNo = s.serialNo := rfl
@[simp] theorem State.setQueue_ports (s : State) (k : Nat) (x : Queue) : (s.setQueue k x).ports = s.ports := rfl
@[simp] theorem State.setQueue_xpt (s : State) (k : Nat) (x : Queue) : (s.setQueue k x).xpt = s.xpt := rfl
@[simp] theorem State.setQueue_msh (s : State) (k : Nat) (x : Queue) : (s.setQueue k x).msh = s.msh := rfl
@[simp] theorem State.setQueue_til (s : State) (k : Nat) (x : Queue) : (s.setQueue k x).til = s.til := rfl
@[simp] theorem State.setQueue_dram (s : State) (k : Nat) (x : Queue) : (s.setQueue k x).dram = s.dram := rfl
@[simp] theorem State.setQueue_dir (s : State) (k : Nat) (x : Queue) : (s.setQueue k x).dir = s.dir := rfl
@[simp] theorem State.setQueue_arr (s : State) (k : Nat) (x : Queue) : (s.setQueue k x).arr = s.arr := rfl
@[simp] theorem State.setQueue_sec (s : State) (k : Nat) (x : Queue) : (s.setQueue k x).sec = s.sec := rfl
@[simp] theorem State.setQueue_hosts (s : State) (k : Nat) (x : Queue) : (s.setQueue k x).hosts = s.hosts := rfl
@[simp] theorem State.setQueue_pwr (s : State) (k : Nat) (x : Queue) : (s.setQueue k x).pwr = s.pwr := rfl
@[simp] theorem State.setQueue_flt (s : State) (k : Nat) (x : Queue) : (s.setQueue k x).flt = s.flt := rfl
@[simp] theorem State.setQueue_boot (s : State) (k : Nat) (x : Queue) : (s.setQueue k x).boot = s.boot := rfl
@[simp] theorem State.setQueue_sbd (s : State) (k : Nat) (x : Queue) : (s.setQueue k x).sbd = s.sbd := rfl
@[simp] theorem State.setQueue_out (s : State) (k : Nat) (x : Queue) : (s.setQueue k x).out = s.out := rfl

/-! ### setCol -/
@[simp] theorem State.setCol_pending (s : State) (k : Nat) (x : Col) : (s.setCol k x).pending = s.pending := rfl
@[simp] theorem State.setCol_clk (s : State) (k : Nat) (x : Col) : (s.setCol k x).clk = s.clk := rfl
@[simp] theorem State.setCol_crs (s : State) (k : Nat) (x : Col) : (s.setCol k x).crs = s.crs := rfl
@[simp] theorem State.setCol_insts (s : State) (k : Nat) (x : Col) : (s.setCol k x).insts = s.insts := rfl
@[simp] theorem State.setCol_nid (s : State) (k : Nat) (x : Col) : (s.setCol k x).nid = s.nid := rfl
@[simp] theorem State.setCol_cfg (s : State) (k : Nat) (x : Col) : (s.setCol k x).cfg = s.cfg := rfl
@[simp] theorem State.setCol_parts (s : State) (k : Nat) (x : Col) : (s.setCol k x).parts = s.parts := rfl
@[simp] theorem State.setCol_tenants (s : State) (k : Nat) (x : Col) : (s.setCol k x).tenants = s.tenants := rfl
@[simp] theorem State.setCol_pttStatus (s : State) (k : Nat) (x : Col) : (s.setCol k x).pttStatus = s.pttStatus := rfl
@[simp] theorem State.setCol_streams (s : State) (k : Nat) (x : Col) : (s.setCol k x).streams = s.streams := rfl
@[simp] theorem State.setCol_reqs (s : State) (k : Nat) (x : Col) : (s.setCol k x).reqs = s.reqs := rfl
@[simp] theorem State.setCol_serialNo (s : State) (k : Nat) (x : Col) : (s.setCol k x).serialNo = s.serialNo := rfl
@[simp] theorem State.setCol_ports (s : State) (k : Nat) (x : Col) : (s.setCol k x).ports = s.ports := rfl
@[simp] theorem State.setCol_xpt (s : State) (k : Nat) (x : Col) : (s.setCol k x).xpt = s.xpt := rfl
@[simp] theorem State.setCol_msh (s : State) (k : Nat) (x : Col) : (s.setCol k x).msh = s.msh := rfl
@[simp] theorem State.setCol_til (s : State) (k : Nat) (x : Col) : (s.setCol k x).til = s.til := rfl
@[simp] theorem State.setCol_dram (s : State) (k : Nat) (x : Col) : (s.setCol k x).dram = s.dram := rfl
@[simp] theorem State.setCol_dir (s : State) (k : Nat) (x : Col) : (s.setCol k x).dir = s.dir := rfl
@[simp] theorem State.setCol_eng (s : State) (k : Nat) (x : Col) : (s.setCol k x).eng = s.eng := rfl
@[simp] theorem State.setCol_sec (s : State) (k : Nat) (x : Col) : (s.setCol k x).sec = s.sec := rfl
@[simp] theorem State.setCol_hosts (s : State) (k : Nat) (x : Col) : (s.setCol k x).hosts = s.hosts := rfl
@[simp] theorem State.setCol_pwr (s : State) (k : Nat) (x : Col) : (s.setCol k x).pwr = s.pwr := rfl
@[simp] theorem State.setCol_flt (s : State) (k : Nat) (x : Col) : (s.setCol k x).flt = s.flt := rfl
@[simp] theorem State.setCol_boot (s : State) (k : Nat) (x : Col) : (s.setCol k x).boot = s.boot := rfl
@[simp] theorem State.setCol_sbd (s : State) (k : Nat) (x : Col) : (s.setCol k x).sbd = s.sbd := rfl
@[simp] theorem State.setCol_out (s : State) (k : Nat) (x : Col) : (s.setCol k x).out = s.out := rfl

/-! ### setPin -/
@[simp] theorem State.setPin_pending (s : State) (n : Nat) (x : Pin) : (s.setPin n x).pending = s.pending := rfl
@[simp] theorem State.setPin_clk (s : State) (n : Nat) (x : Pin) : (s.setPin n x).clk = s.clk := rfl
@[simp] theorem State.setPin_crs (s : State) (n : Nat) (x : Pin) : (s.setPin n x).crs = s.crs := rfl
@[simp] theorem State.setPin_insts (s : State) (n : Nat) (x : Pin) : (s.setPin n x).insts = s.insts := rfl
@[simp] theorem State.setPin_nid (s : State) (n : Nat) (x : Pin) : (s.setPin n x).nid = s.nid := rfl
@[simp] theorem State.setPin_cfg (s : State) (n : Nat) (x : Pin) : (s.setPin n x).cfg = s.cfg := rfl
@[simp] theorem State.setPin_parts (s : State) (n : Nat) (x : Pin) : (s.setPin n x).parts = s.parts := rfl
@[simp] theorem State.setPin_tenants (s : State) (n : Nat) (x : Pin) : (s.setPin n x).tenants = s.tenants := rfl
@[simp] theorem State.setPin_pttStatus (s : State) (n : Nat) (x : Pin) : (s.setPin n x).pttStatus = s.pttStatus := rfl
@[simp] theorem State.setPin_streams (s : State) (n : Nat) (x : Pin) : (s.setPin n x).streams = s.streams := rfl
@[simp] theorem State.setPin_reqs (s : State) (n : Nat) (x : Pin) : (s.setPin n x).reqs = s.reqs := rfl
@[simp] theorem State.setPin_serialNo (s : State) (n : Nat) (x : Pin) : (s.setPin n x).serialNo = s.serialNo := rfl
@[simp] theorem State.setPin_ports (s : State) (n : Nat) (x : Pin) : (s.setPin n x).ports = s.ports := rfl
@[simp] theorem State.setPin_xpt (s : State) (n : Nat) (x : Pin) : (s.setPin n x).xpt = s.xpt := rfl
@[simp] theorem State.setPin_msh (s : State) (n : Nat) (x : Pin) : (s.setPin n x).msh = s.msh := rfl
@[simp] theorem State.setPin_til (s : State) (n : Nat) (x : Pin) : (s.setPin n x).til = s.til := rfl
@[simp] theorem State.setPin_dram (s : State) (n : Nat) (x : Pin) : (s.setPin n x).dram = s.dram := rfl
@[simp] theorem State.setPin_dir (s : State) (n : Nat) (x : Pin) : (s.setPin n x).dir = s.dir := rfl
@[simp] theorem State.setPin_eng (s : State) (n : Nat) (x : Pin) : (s.setPin n x).eng = s.eng := rfl
@[simp] theorem State.setPin_arr (s : State) (n : Nat) (x : Pin) : (s.setPin n x).arr = s.arr := rfl
@[simp] theorem State.setPin_sec (s : State) (n : Nat) (x : Pin) : (s.setPin n x).sec = s.sec := rfl
@[simp] theorem State.setPin_hosts (s : State) (n : Nat) (x : Pin) : (s.setPin n x).hosts = s.hosts := rfl
@[simp] theorem State.setPin_pwr (s : State) (n : Nat) (x : Pin) : (s.setPin n x).pwr = s.pwr := rfl
@[simp] theorem State.setPin_flt (s : State) (n : Nat) (x : Pin) : (s.setPin n x).flt = s.flt := rfl
@[simp] theorem State.setPin_boot (s : State) (n : Nat) (x : Pin) : (s.setPin n x).boot = s.boot := rfl
@[simp] theorem State.setPin_out (s : State) (n : Nat) (x : Pin) : (s.setPin n x).out = s.out := rfl

/-! ### setSlip -/
@[simp] theorem State.setSlip_pending (s : State) (k : Nat) (x : Slip) : (s.setSlip k x).pending = s.pending := rfl
@[simp] theorem State.setSlip_clk (s : State) (k : Nat) (x : Slip) : (s.setSlip k x).clk = s.clk := rfl
@[simp] theorem State.setSlip_insts (s : State) (k : Nat) (x : Slip) : (s.setSlip k x).insts = s.insts := rfl
@[simp] theorem State.setSlip_nid (s : State) (k : Nat) (x : Slip) : (s.setSlip k x).nid = s.nid := rfl
@[simp] theorem State.setSlip_cfg (s : State) (k : Nat) (x : Slip) : (s.setSlip k x).cfg = s.cfg := rfl
@[simp] theorem State.setSlip_parts (s : State) (k : Nat) (x : Slip) : (s.setSlip k x).parts = s.parts := rfl
@[simp] theorem State.setSlip_tenants (s : State) (k : Nat) (x : Slip) : (s.setSlip k x).tenants = s.tenants := rfl
@[simp] theorem State.setSlip_pttStatus (s : State) (k : Nat) (x : Slip) : (s.setSlip k x).pttStatus = s.pttStatus := rfl
@[simp] theorem State.setSlip_streams (s : State) (k : Nat) (x : Slip) : (s.setSlip k x).streams = s.streams := rfl
@[simp] theorem State.setSlip_reqs (s : State) (k : Nat) (x : Slip) : (s.setSlip k x).reqs = s.reqs := rfl
@[simp] theorem State.setSlip_serialNo (s : State) (k : Nat) (x : Slip) : (s.setSlip k x).serialNo = s.serialNo := rfl
@[simp] theorem State.setSlip_ports (s : State) (k : Nat) (x : Slip) : (s.setSlip k x).ports = s.ports := rfl
@[simp] theorem State.setSlip_xpt (s : State) (k : Nat) (x : Slip) : (s.setSlip k x).xpt = s.xpt := rfl
@[simp] theorem State.setSlip_msh (s : State) (k : Nat) (x : Slip) : (s.setSlip k x).msh = s.msh := rfl
@[simp] theorem State.setSlip_til (s : State) (k : Nat) (x : Slip) : (s.setSlip k x).til = s.til := rfl
@[simp] theorem State.setSlip_dram (s : State) (k : Nat) (x : Slip) : (s.setSlip k x).dram = s.dram := rfl
@[simp] theorem State.setSlip_dir (s : State) (k : Nat) (x : Slip) : (s.setSlip k x).dir = s.dir := rfl
@[simp] theorem State.setSlip_eng (s : State) (k : Nat) (x : Slip) : (s.setSlip k x).eng = s.eng := rfl
@[simp] theorem State.setSlip_arr (s : State) (k : Nat) (x : Slip) : (s.setSlip k x).arr = s.arr := rfl
@[simp] theorem State.setSlip_sec (s : State) (k : Nat) (x : Slip) : (s.setSlip k x).sec = s.sec := rfl
@[simp] theorem State.setSlip_hosts (s : State) (k : Nat) (x : Slip) : (s.setSlip k x).hosts = s.hosts := rfl
@[simp] theorem State.setSlip_pwr (s : State) (k : Nat) (x : Slip) : (s.setSlip k x).pwr = s.pwr := rfl
@[simp] theorem State.setSlip_flt (s : State) (k : Nat) (x : Slip) : (s.setSlip k x).flt = s.flt := rfl
@[simp] theorem State.setSlip_boot (s : State) (k : Nat) (x : Slip) : (s.setSlip k x).boot = s.boot := rfl
@[simp] theorem State.setSlip_sbd (s : State) (k : Nat) (x : Slip) : (s.setSlip k x).sbd = s.sbd := rfl
@[simp] theorem State.setSlip_out (s : State) (k : Nat) (x : Slip) : (s.setSlip k x).out = s.out := rfl

/-! ### setWd -/
@[simp] theorem State.setWd_pending (s : State) (k : Nat) (x : Wd) : (s.setWd k x).pending = s.pending := rfl
@[simp] theorem State.setWd_clk (s : State) (k : Nat) (x : Wd) : (s.setWd k x).clk = s.clk := rfl
@[simp] theorem State.setWd_crs (s : State) (k : Nat) (x : Wd) : (s.setWd k x).crs = s.crs := rfl
@[simp] theorem State.setWd_insts (s : State) (k : Nat) (x : Wd) : (s.setWd k x).insts = s.insts := rfl
@[simp] theorem State.setWd_nid (s : State) (k : Nat) (x : Wd) : (s.setWd k x).nid = s.nid := rfl
@[simp] theorem State.setWd_cfg (s : State) (k : Nat) (x : Wd) : (s.setWd k x).cfg = s.cfg := rfl
@[simp] theorem State.setWd_parts (s : State) (k : Nat) (x : Wd) : (s.setWd k x).parts = s.parts := rfl
@[simp] theorem State.setWd_tenants (s : State) (k : Nat) (x : Wd) : (s.setWd k x).tenants = s.tenants := rfl
@[simp] theorem State.setWd_pttStatus (s : State) (k : Nat) (x : Wd) : (s.setWd k x).pttStatus = s.pttStatus := rfl
@[simp] theorem State.setWd_streams (s : State) (k : Nat) (x : Wd) : (s.setWd k x).streams = s.streams := rfl
@[simp] theorem State.setWd_reqs (s : State) (k : Nat) (x : Wd) : (s.setWd k x).reqs = s.reqs := rfl
@[simp] theorem State.setWd_serialNo (s : State) (k : Nat) (x : Wd) : (s.setWd k x).serialNo = s.serialNo := rfl
@[simp] theorem State.setWd_ports (s : State) (k : Nat) (x : Wd) : (s.setWd k x).ports = s.ports := rfl
@[simp] theorem State.setWd_xpt (s : State) (k : Nat) (x : Wd) : (s.setWd k x).xpt = s.xpt := rfl
@[simp] theorem State.setWd_msh (s : State) (k : Nat) (x : Wd) : (s.setWd k x).msh = s.msh := rfl
@[simp] theorem State.setWd_til (s : State) (k : Nat) (x : Wd) : (s.setWd k x).til = s.til := rfl
@[simp] theorem State.setWd_dram (s : State) (k : Nat) (x : Wd) : (s.setWd k x).dram = s.dram := rfl
@[simp] theorem State.setWd_dir (s : State) (k : Nat) (x : Wd) : (s.setWd k x).dir = s.dir := rfl
@[simp] theorem State.setWd_eng (s : State) (k : Nat) (x : Wd) : (s.setWd k x).eng = s.eng := rfl
@[simp] theorem State.setWd_arr (s : State) (k : Nat) (x : Wd) : (s.setWd k x).arr = s.arr := rfl
@[simp] theorem State.setWd_sec (s : State) (k : Nat) (x : Wd) : (s.setWd k x).sec = s.sec := rfl
@[simp] theorem State.setWd_hosts (s : State) (k : Nat) (x : Wd) : (s.setWd k x).hosts = s.hosts := rfl
@[simp] theorem State.setWd_pwr (s : State) (k : Nat) (x : Wd) : (s.setWd k x).pwr = s.pwr := rfl
@[simp] theorem State.setWd_boot (s : State) (k : Nat) (x : Wd) : (s.setWd k x).boot = s.boot := rfl
@[simp] theorem State.setWd_sbd (s : State) (k : Nat) (x : Wd) : (s.setWd k x).sbd = s.sbd := rfl
@[simp] theorem State.setWd_out (s : State) (k : Nat) (x : Wd) : (s.setWd k x).out = s.out := rfl

/-! ### setSecPort -/
@[simp] theorem State.setSecPort_pending (s : State) (k : Nat) (x : SecPort) : (s.setSecPort k x).pending = s.pending := rfl
@[simp] theorem State.setSecPort_clk (s : State) (k : Nat) (x : SecPort) : (s.setSecPort k x).clk = s.clk := rfl
@[simp] theorem State.setSecPort_crs (s : State) (k : Nat) (x : SecPort) : (s.setSecPort k x).crs = s.crs := rfl
@[simp] theorem State.setSecPort_insts (s : State) (k : Nat) (x : SecPort) : (s.setSecPort k x).insts = s.insts := rfl
@[simp] theorem State.setSecPort_nid (s : State) (k : Nat) (x : SecPort) : (s.setSecPort k x).nid = s.nid := rfl
@[simp] theorem State.setSecPort_cfg (s : State) (k : Nat) (x : SecPort) : (s.setSecPort k x).cfg = s.cfg := rfl
@[simp] theorem State.setSecPort_parts (s : State) (k : Nat) (x : SecPort) : (s.setSecPort k x).parts = s.parts := rfl
@[simp] theorem State.setSecPort_tenants (s : State) (k : Nat) (x : SecPort) : (s.setSecPort k x).tenants = s.tenants := rfl
@[simp] theorem State.setSecPort_pttStatus (s : State) (k : Nat) (x : SecPort) : (s.setSecPort k x).pttStatus = s.pttStatus := rfl
@[simp] theorem State.setSecPort_streams (s : State) (k : Nat) (x : SecPort) : (s.setSecPort k x).streams = s.streams := rfl
@[simp] theorem State.setSecPort_reqs (s : State) (k : Nat) (x : SecPort) : (s.setSecPort k x).reqs = s.reqs := rfl
@[simp] theorem State.setSecPort_serialNo (s : State) (k : Nat) (x : SecPort) : (s.setSecPort k x).serialNo = s.serialNo := rfl
@[simp] theorem State.setSecPort_ports (s : State) (k : Nat) (x : SecPort) : (s.setSecPort k x).ports = s.ports := rfl
@[simp] theorem State.setSecPort_xpt (s : State) (k : Nat) (x : SecPort) : (s.setSecPort k x).xpt = s.xpt := rfl
@[simp] theorem State.setSecPort_msh (s : State) (k : Nat) (x : SecPort) : (s.setSecPort k x).msh = s.msh := rfl
@[simp] theorem State.setSecPort_til (s : State) (k : Nat) (x : SecPort) : (s.setSecPort k x).til = s.til := rfl
@[simp] theorem State.setSecPort_dram (s : State) (k : Nat) (x : SecPort) : (s.setSecPort k x).dram = s.dram := rfl
@[simp] theorem State.setSecPort_dir (s : State) (k : Nat) (x : SecPort) : (s.setSecPort k x).dir = s.dir := rfl
@[simp] theorem State.setSecPort_eng (s : State) (k : Nat) (x : SecPort) : (s.setSecPort k x).eng = s.eng := rfl
@[simp] theorem State.setSecPort_arr (s : State) (k : Nat) (x : SecPort) : (s.setSecPort k x).arr = s.arr := rfl
@[simp] theorem State.setSecPort_hosts (s : State) (k : Nat) (x : SecPort) : (s.setSecPort k x).hosts = s.hosts := rfl
@[simp] theorem State.setSecPort_pwr (s : State) (k : Nat) (x : SecPort) : (s.setSecPort k x).pwr = s.pwr := rfl
@[simp] theorem State.setSecPort_flt (s : State) (k : Nat) (x : SecPort) : (s.setSecPort k x).flt = s.flt := rfl
@[simp] theorem State.setSecPort_boot (s : State) (k : Nat) (x : SecPort) : (s.setSecPort k x).boot = s.boot := rfl
@[simp] theorem State.setSecPort_sbd (s : State) (k : Nat) (x : SecPort) : (s.setSecPort k x).sbd = s.sbd := rfl
@[simp] theorem State.setSecPort_out (s : State) (k : Nat) (x : SecPort) : (s.setSecPort k x).out = s.out := rfl

/-! ### setTier -/
@[simp] theorem State.setTier_pending (s : State) (t : Tier) (x : TierSt) : (s.setTier t x).pending = s.pending := by cases t <;> rfl
@[simp] theorem State.setTier_clk (s : State) (t : Tier) (x : TierSt) : (s.setTier t x).clk = s.clk := by cases t <;> rfl
@[simp] theorem State.setTier_crs (s : State) (t : Tier) (x : TierSt) : (s.setTier t x).crs = s.crs := by cases t <;> rfl
@[simp] theorem State.setTier_insts (s : State) (t : Tier) (x : TierSt) : (s.setTier t x).insts = s.insts := by cases t <;> rfl
@[simp] theorem State.setTier_nid (s : State) (t : Tier) (x : TierSt) : (s.setTier t x).nid = s.nid := by cases t <;> rfl
@[simp] theorem State.setTier_cfg (s : State) (t : Tier) (x : TierSt) : (s.setTier t x).cfg = s.cfg := by cases t <;> rfl
@[simp] theorem State.setTier_parts (s : State) (t : Tier) (x : TierSt) : (s.setTier t x).parts = s.parts := by cases t <;> rfl
@[simp] theorem State.setTier_tenants (s : State) (t : Tier) (x : TierSt) : (s.setTier t x).tenants = s.tenants := by cases t <;> rfl
@[simp] theorem State.setTier_pttStatus (s : State) (t : Tier) (x : TierSt) : (s.setTier t x).pttStatus = s.pttStatus := by cases t <;> rfl
@[simp] theorem State.setTier_streams (s : State) (t : Tier) (x : TierSt) : (s.setTier t x).streams = s.streams := by cases t <;> rfl
@[simp] theorem State.setTier_reqs (s : State) (t : Tier) (x : TierSt) : (s.setTier t x).reqs = s.reqs := by cases t <;> rfl
@[simp] theorem State.setTier_serialNo (s : State) (t : Tier) (x : TierSt) : (s.setTier t x).serialNo = s.serialNo := by cases t <;> rfl
@[simp] theorem State.setTier_ports (s : State) (t : Tier) (x : TierSt) : (s.setTier t x).ports = s.ports := by cases t <;> rfl
@[simp] theorem State.setTier_xpt (s : State) (t : Tier) (x : TierSt) : (s.setTier t x).xpt = s.xpt := by cases t <;> rfl
@[simp] theorem State.setTier_msh (s : State) (t : Tier) (x : TierSt) : (s.setTier t x).msh = s.msh := by cases t <;> rfl
@[simp] theorem State.setTier_til (s : State) (t : Tier) (x : TierSt) : (s.setTier t x).til = s.til := by cases t <;> rfl
@[simp] theorem State.setTier_dir (s : State) (t : Tier) (x : TierSt) : (s.setTier t x).dir = s.dir := by cases t <;> rfl
@[simp] theorem State.setTier_eng (s : State) (t : Tier) (x : TierSt) : (s.setTier t x).eng = s.eng := by cases t <;> rfl
@[simp] theorem State.setTier_arr (s : State) (t : Tier) (x : TierSt) : (s.setTier t x).arr = s.arr := by cases t <;> rfl
@[simp] theorem State.setTier_sec (s : State) (t : Tier) (x : TierSt) : (s.setTier t x).sec = s.sec := by cases t <;> rfl
@[simp] theorem State.setTier_hosts (s : State) (t : Tier) (x : TierSt) : (s.setTier t x).hosts = s.hosts := by cases t <;> rfl
@[simp] theorem State.setTier_pwr (s : State) (t : Tier) (x : TierSt) : (s.setTier t x).pwr = s.pwr := by cases t <;> rfl
@[simp] theorem State.setTier_flt (s : State) (t : Tier) (x : TierSt) : (s.setTier t x).flt = s.flt := by cases t <;> rfl
@[simp] theorem State.setTier_boot (s : State) (t : Tier) (x : TierSt) : (s.setTier t x).boot = s.boot := by cases t <;> rfl
@[simp] theorem State.setTier_sbd (s : State) (t : Tier) (x : TierSt) : (s.setTier t x).sbd = s.sbd := by cases t <;> rfl
@[simp] theorem State.setTier_out (s : State) (t : Tier) (x : TierSt) : (s.setTier t x).out = s.out := by cases t <;> rfl

/-! ### emit -/
@[simp] theorem State.emit_pending (s : State) (o : Out) : (s.emit o).pending = s.pending := rfl
@[simp] theorem State.emit_clk (s : State) (o : Out) : (s.emit o).clk = s.clk := rfl
@[simp] theorem State.emit_crs (s : State) (o : Out) : (s.emit o).crs = s.crs := rfl
@[simp] theorem State.emit_insts (s : State) (o : Out) : (s.emit o).insts = s.insts := rfl
@[simp] theorem State.emit_nid (s : State) (o : Out) : (s.emit o).nid = s.nid := rfl
@[simp] theorem State.emit_cfg (s : State) (o : Out) : (s.emit o).cfg = s.cfg := rfl
@[simp] theorem State.emit_parts (s : State) (o : Out) : (s.emit o).parts = s.parts := rfl
@[simp] theorem State.emit_tenants (s : State) (o : Out) : (s.emit o).tenants = s.tenants := rfl
@[simp] theorem State.emit_pttStatus (s : State) (o : Out) : (s.emit o).pttStatus = s.pttStatus := rfl
@[simp] theorem State.emit_streams (s : State) (o : Out) : (s.emit o).streams = s.streams := rfl
@[simp] theorem State.emit_reqs (s : State) (o : Out) : (s.emit o).reqs = s.reqs := rfl
@[simp] theorem State.emit_serialNo (s : State) (o : Out) : (s.emit o).serialNo = s.serialNo := rfl
@[simp] theorem State.emit_ports (s : State) (o : Out) : (s.emit o).ports = s.ports := rfl
@[simp] theorem State.emit_xpt (s : State) (o : Out) : (s.emit o).xpt = s.xpt := rfl
@[simp] theorem State.emit_msh (s : State) (o : Out) : (s.emit o).msh = s.msh := rfl
@[simp] theorem State.emit_til (s : State) (o : Out) : (s.emit o).til = s.til := rfl
@[simp] theorem State.emit_dram (s : State) (o : Out) : (s.emit o).dram = s.dram := rfl
@[simp] theorem State.emit_dir (s : State) (o : Out) : (s.emit o).dir = s.dir := rfl
@[simp] theorem State.emit_eng (s : State) (o : Out) : (s.emit o).eng = s.eng := rfl
@[simp] theorem State.emit_arr (s : State) (o : Out) : (s.emit o).arr = s.arr := rfl
@[simp] theorem State.emit_sec (s : State) (o : Out) : (s.emit o).sec = s.sec := rfl
@[simp] theorem State.emit_hosts (s : State) (o : Out) : (s.emit o).hosts = s.hosts := rfl
@[simp] theorem State.emit_pwr (s : State) (o : Out) : (s.emit o).pwr = s.pwr := rfl
@[simp] theorem State.emit_flt (s : State) (o : Out) : (s.emit o).flt = s.flt := rfl
@[simp] theorem State.emit_boot (s : State) (o : Out) : (s.emit o).boot = s.boot := rfl
@[simp] theorem State.emit_sbd (s : State) (o : Out) : (s.emit o).sbd = s.sbd := rfl

/-! ### putShadow -/
@[simp] theorem State.putShadow_pending (s : State) (i : Nat) (k : Nat) (v : BitVec 64) : (s.putShadow i k v).pending = s.pending := rfl
@[simp] theorem State.putShadow_clk (s : State) (i : Nat) (k : Nat) (v : BitVec 64) : (s.putShadow i k v).clk = s.clk := rfl
@[simp] theorem State.putShadow_crs (s : State) (i : Nat) (k : Nat) (v : BitVec 64) : (s.putShadow i k v).crs = s.crs := rfl
@[simp] theorem State.putShadow_nid (s : State) (i : Nat) (k : Nat) (v : BitVec 64) : (s.putShadow i k v).nid = s.nid := rfl
@[simp] theorem State.putShadow_cfg (s : State) (i : Nat) (k : Nat) (v : BitVec 64) : (s.putShadow i k v).cfg = s.cfg := rfl
@[simp] theorem State.putShadow_parts (s : State) (i : Nat) (k : Nat) (v : BitVec 64) : (s.putShadow i k v).parts = s.parts := rfl
@[simp] theorem State.putShadow_tenants (s : State) (i : Nat) (k : Nat) (v : BitVec 64) : (s.putShadow i k v).tenants = s.tenants := rfl
@[simp] theorem State.putShadow_pttStatus (s : State) (i : Nat) (k : Nat) (v : BitVec 64) : (s.putShadow i k v).pttStatus = s.pttStatus := rfl
@[simp] theorem State.putShadow_streams (s : State) (i : Nat) (k : Nat) (v : BitVec 64) : (s.putShadow i k v).streams = s.streams := rfl
@[simp] theorem State.putShadow_reqs (s : State) (i : Nat) (k : Nat) (v : BitVec 64) : (s.putShadow i k v).reqs = s.reqs := rfl
@[simp] theorem State.putShadow_serialNo (s : State) (i : Nat) (k : Nat) (v : BitVec 64) : (s.putShadow i k v).serialNo = s.serialNo := rfl
@[simp] theorem State.putShadow_ports (s : State) (i : Nat) (k : Nat) (v : BitVec 64) : (s.putShadow i k v).ports = s.ports := rfl
@[simp] theorem State.putShadow_xpt (s : State) (i : Nat) (k : Nat) (v : BitVec 64) : (s.putShadow i k v).xpt = s.xpt := rfl
@[simp] theorem State.putShadow_msh (s : State) (i : Nat) (k : Nat) (v : BitVec 64) : (s.putShadow i k v).msh = s.msh := rfl
@[simp] theorem State.putShadow_til (s : State) (i : Nat) (k : Nat) (v : BitVec 64) : (s.putShadow i k v).til = s.til := rfl
@[simp] theorem State.putShadow_dram (s : State) (i : Nat) (k : Nat) (v : BitVec 64) : (s.putShadow i k v).dram = s.dram := rfl
@[simp] theorem State.putShadow_dir (s : State) (i : Nat) (k : Nat) (v : BitVec 64) : (s.putShadow i k v).dir = s.dir := rfl
@[simp] theorem State.putShadow_eng (s : State) (i : Nat) (k : Nat) (v : BitVec 64) : (s.putShadow i k v).eng = s.eng := rfl
@[simp] theorem State.putShadow_arr (s : State) (i : Nat) (k : Nat) (v : BitVec 64) : (s.putShadow i k v).arr = s.arr := rfl
@[simp] theorem State.putShadow_sec (s : State) (i : Nat) (k : Nat) (v : BitVec 64) : (s.putShadow i k v).sec = s.sec := rfl
@[simp] theorem State.putShadow_hosts (s : State) (i : Nat) (k : Nat) (v : BitVec 64) : (s.putShadow i k v).hosts = s.hosts := rfl
@[simp] theorem State.putShadow_pwr (s : State) (i : Nat) (k : Nat) (v : BitVec 64) : (s.putShadow i k v).pwr = s.pwr := rfl
@[simp] theorem State.putShadow_flt (s : State) (i : Nat) (k : Nat) (v : BitVec 64) : (s.putShadow i k v).flt = s.flt := rfl
@[simp] theorem State.putShadow_boot (s : State) (i : Nat) (k : Nat) (v : BitVec 64) : (s.putShadow i k v).boot = s.boot := rfl
@[simp] theorem State.putShadow_sbd (s : State) (i : Nat) (k : Nat) (v : BitVec 64) : (s.putShadow i k v).sbd = s.sbd := rfl
@[simp] theorem State.putShadow_out (s : State) (i : Nat) (k : Nat) (v : BitVec 64) : (s.putShadow i k v).out = s.out := rfl

/-! ### putBoth -/
@[simp] theorem State.putBoth_pending (s : State) (i : Nat) (k : Nat) (v : BitVec 64) : (s.putBoth i k v).pending = s.pending := rfl
@[simp] theorem State.putBoth_clk (s : State) (i : Nat) (k : Nat) (v : BitVec 64) : (s.putBoth i k v).clk = s.clk := rfl
@[simp] theorem State.putBoth_crs (s : State) (i : Nat) (k : Nat) (v : BitVec 64) : (s.putBoth i k v).crs = s.crs := rfl
@[simp] theorem State.putBoth_nid (s : State) (i : Nat) (k : Nat) (v : BitVec 64) : (s.putBoth i k v).nid = s.nid := rfl
@[simp] theorem State.putBoth_cfg (s : State) (i : Nat) (k : Nat) (v : BitVec 64) : (s.putBoth i k v).cfg = s.cfg := rfl
@[simp] theorem State.putBoth_parts (s : State) (i : Nat) (k : Nat) (v : BitVec 64) : (s.putBoth i k v).parts = s.parts := rfl
@[simp] theorem State.putBoth_tenants (s : State) (i : Nat) (k : Nat) (v : BitVec 64) : (s.putBoth i k v).tenants = s.tenants := rfl
@[simp] theorem State.putBoth_pttStatus (s : State) (i : Nat) (k : Nat) (v : BitVec 64) : (s.putBoth i k v).pttStatus = s.pttStatus := rfl
@[simp] theorem State.putBoth_streams (s : State) (i : Nat) (k : Nat) (v : BitVec 64) : (s.putBoth i k v).streams = s.streams := rfl
@[simp] theorem State.putBoth_reqs (s : State) (i : Nat) (k : Nat) (v : BitVec 64) : (s.putBoth i k v).reqs = s.reqs := rfl
@[simp] theorem State.putBoth_serialNo (s : State) (i : Nat) (k : Nat) (v : BitVec 64) : (s.putBoth i k v).serialNo = s.serialNo := rfl
@[simp] theorem State.putBoth_ports (s : State) (i : Nat) (k : Nat) (v : BitVec 64) : (s.putBoth i k v).ports = s.ports := rfl
@[simp] theorem State.putBoth_xpt (s : State) (i : Nat) (k : Nat) (v : BitVec 64) : (s.putBoth i k v).xpt = s.xpt := rfl
@[simp] theorem State.putBoth_msh (s : State) (i : Nat) (k : Nat) (v : BitVec 64) : (s.putBoth i k v).msh = s.msh := rfl
@[simp] theorem State.putBoth_til (s : State) (i : Nat) (k : Nat) (v : BitVec 64) : (s.putBoth i k v).til = s.til := rfl
@[simp] theorem State.putBoth_dram (s : State) (i : Nat) (k : Nat) (v : BitVec 64) : (s.putBoth i k v).dram = s.dram := rfl
@[simp] theorem State.putBoth_dir (s : State) (i : Nat) (k : Nat) (v : BitVec 64) : (s.putBoth i k v).dir = s.dir := rfl
@[simp] theorem State.putBoth_eng (s : State) (i : Nat) (k : Nat) (v : BitVec 64) : (s.putBoth i k v).eng = s.eng := rfl
@[simp] theorem State.putBoth_arr (s : State) (i : Nat) (k : Nat) (v : BitVec 64) : (s.putBoth i k v).arr = s.arr := rfl
@[simp] theorem State.putBoth_sec (s : State) (i : Nat) (k : Nat) (v : BitVec 64) : (s.putBoth i k v).sec = s.sec := rfl
@[simp] theorem State.putBoth_hosts (s : State) (i : Nat) (k : Nat) (v : BitVec 64) : (s.putBoth i k v).hosts = s.hosts := rfl
@[simp] theorem State.putBoth_pwr (s : State) (i : Nat) (k : Nat) (v : BitVec 64) : (s.putBoth i k v).pwr = s.pwr := rfl
@[simp] theorem State.putBoth_flt (s : State) (i : Nat) (k : Nat) (v : BitVec 64) : (s.putBoth i k v).flt = s.flt := rfl
@[simp] theorem State.putBoth_boot (s : State) (i : Nat) (k : Nat) (v : BitVec 64) : (s.putBoth i k v).boot = s.boot := rfl
@[simp] theorem State.putBoth_sbd (s : State) (i : Nat) (k : Nat) (v : BitVec 64) : (s.putBoth i k v).sbd = s.sbd := rfl
@[simp] theorem State.putBoth_out (s : State) (i : Nat) (k : Nat) (v : BitVec 64) : (s.putBoth i k v).out = s.out := rfl

/-! ### setCommit -/
@[simp] theorem State.setCommit_pending (s : State) (i : Nat) : (s.setCommit i).pending = s.pending := rfl
@[simp] theorem State.setCommit_clk (s : State) (i : Nat) : (s.setCommit i).clk = s.clk := rfl
@[simp] theorem State.setCommit_crs (s : State) (i : Nat) : (s.setCommit i).crs = s.crs := rfl
@[simp] theorem State.setCommit_nid (s : State) (i : Nat) : (s.setCommit i).nid = s.nid := rfl
@[simp] theorem State.setCommit_cfg (s : State) (i : Nat) : (s.setCommit i).cfg = s.cfg := rfl
@[simp] theorem State.setCommit_parts (s : State) (i : Nat) : (s.setCommit i).parts = s.parts := rfl
@[simp] theorem State.setCommit_tenants (s : State) (i : Nat) : (s.setCommit i).tenants = s.tenants := rfl
@[simp] theorem State.setCommit_pttStatus (s : State) (i : Nat) : (s.setCommit i).pttStatus = s.pttStatus := rfl
@[simp] theorem State.setCommit_streams (s : State) (i : Nat) : (s.setCommit i).streams = s.streams := rfl
@[simp] theorem State.setCommit_reqs (s : State) (i : Nat) : (s.setCommit i).reqs = s.reqs := rfl
@[simp] theorem State.setCommit_serialNo (s : State) (i : Nat) : (s.setCommit i).serialNo = s.serialNo := rfl
@[simp] theorem State.setCommit_ports (s : State) (i : Nat) : (s.setCommit i).ports = s.ports := rfl
@[simp] theorem State.setCommit_xpt (s : State) (i : Nat) : (s.setCommit i).xpt = s.xpt := rfl
@[simp] theorem State.setCommit_msh (s : State) (i : Nat) : (s.setCommit i).msh = s.msh := rfl
@[simp] theorem State.setCommit_til (s : State) (i : Nat) : (s.setCommit i).til = s.til := rfl
@[simp] theorem State.setCommit_dram (s : State) (i : Nat) : (s.setCommit i).dram = s.dram := rfl
@[simp] theorem State.setCommit_dir (s : State) (i : Nat) : (s.setCommit i).dir = s.dir := rfl
@[simp] theorem State.setCommit_eng (s : State) (i : Nat) : (s.setCommit i).eng = s.eng := rfl
@[simp] theorem State.setCommit_arr (s : State) (i : Nat) : (s.setCommit i).arr = s.arr := rfl
@[simp] theorem State.setCommit_sec (s : State) (i : Nat) : (s.setCommit i).sec = s.sec := rfl
@[simp] theorem State.setCommit_hosts (s : State) (i : Nat) : (s.setCommit i).hosts = s.hosts := rfl
@[simp] theorem State.setCommit_pwr (s : State) (i : Nat) : (s.setCommit i).pwr = s.pwr := rfl
@[simp] theorem State.setCommit_flt (s : State) (i : Nat) : (s.setCommit i).flt = s.flt := rfl
@[simp] theorem State.setCommit_boot (s : State) (i : Nat) : (s.setCommit i).boot = s.boot := rfl
@[simp] theorem State.setCommit_sbd (s : State) (i : Nat) : (s.setCommit i).sbd = s.sbd := rfl
@[simp] theorem State.setCommit_out (s : State) (i : Nat) : (s.setCommit i).out = s.out := rfl

/-! ### setBank -/
@[simp] theorem State.setBank_pending (s : State) (k : Nat) (x : Bank) : (s.setBank k x).pending = s.pending := rfl
@[simp] theorem State.setBank_clk (s : State) (k : Nat) (x : Bank) : (s.setBank k x).clk = s.clk := rfl
@[simp] theorem State.setBank_crs (s : State) (k : Nat) (x : Bank) : (s.setBank k x).crs = s.crs := rfl
@[simp] theorem State.setBank_insts (s : State) (k : Nat) (x : Bank) : (s.setBank k x).insts = s.insts := rfl
@[simp] theorem State.setBank_nid (s : State) (k : Nat) (x : Bank) : (s.setBank k x).nid = s.nid := rfl
@[simp] theorem State.setBank_cfg (s : State) (k : Nat) (x : Bank) : (s.setBank k x).cfg = s.cfg := rfl
@[simp] theorem State.setBank_parts (s : State) (k : Nat) (x : Bank) : (s.setBank k x).parts = s.parts := rfl
@[simp] theorem State.setBank_tenants (s : State) (k : Nat) (x : Bank) : (s.setBank k x).tenants = s.tenants := rfl
@[simp] theorem State.setBank_pttStatus (s : State) (k : Nat) (x : Bank) : (s.setBank k x).pttStatus = s.pttStatus := rfl
@[simp] theorem State.setBank_streams (s : State) (k : Nat) (x : Bank) : (s.setBank k x).streams = s.streams := rfl
@[simp] theorem State.setBank_reqs (s : State) (k : Nat) (x : Bank) : (s.setBank k x).reqs = s.reqs := rfl
@[simp] theorem State.setBank_serialNo (s : State) (k : Nat) (x : Bank) : (s.setBank k x).serialNo = s.serialNo := rfl
@[simp] theorem State.setBank_ports (s : State) (k : Nat) (x : Bank) : (s.setBank k x).ports = s.ports := rfl
@[simp] theorem State.setBank_xpt (s : State) (k : Nat) (x : Bank) : (s.setBank k x).xpt = s.xpt := rfl
@[simp] theorem State.setBank_msh (s : State) (k : Nat) (x : Bank) : (s.setBank k x).msh = s.msh := rfl
@[simp] theorem State.setBank_til (s : State) (k : Nat) (x : Bank) : (s.setBank k x).til = s.til := rfl
@[simp] theorem State.setBank_dir (s : State) (k : Nat) (x : Bank) : (s.setBank k x).dir = s.dir := rfl
@[simp] theorem State.setBank_eng (s : State) (k : Nat) (x : Bank) : (s.setBank k x).eng = s.eng := rfl
@[simp] theorem State.setBank_arr (s : State) (k : Nat) (x : Bank) : (s.setBank k x).arr = s.arr := rfl
@[simp] theorem State.setBank_sec (s : State) (k : Nat) (x : Bank) : (s.setBank k x).sec = s.sec := rfl
@[simp] theorem State.setBank_hosts (s : State) (k : Nat) (x : Bank) : (s.setBank k x).hosts = s.hosts := rfl
@[simp] theorem State.setBank_pwr (s : State) (k : Nat) (x : Bank) : (s.setBank k x).pwr = s.pwr := rfl
@[simp] theorem State.setBank_flt (s : State) (k : Nat) (x : Bank) : (s.setBank k x).flt = s.flt := rfl
@[simp] theorem State.setBank_boot (s : State) (k : Nat) (x : Bank) : (s.setBank k x).boot = s.boot := rfl
@[simp] theorem State.setBank_sbd (s : State) (k : Nat) (x : Bank) : (s.setBank k x).sbd = s.sbd := rfl
@[simp] theorem State.setBank_out (s : State) (k : Nat) (x : Bank) : (s.setBank k x).out = s.out := rfl

/-! ### setRank -/
@[simp] theorem State.setRank_pending (s : State) (k : Nat) (x : Rank) : (s.setRank k x).pending = s.pending := rfl
@[simp] theorem State.setRank_clk (s : State) (k : Nat) (x : Rank) : (s.setRank k x).clk = s.clk := rfl
@[simp] theorem State.setRank_crs (s : State) (k : Nat) (x : Rank) : (s.setRank k x).crs = s.crs := rfl
@[simp] theorem State.setRank_insts (s : State) (k : Nat) (x : Rank) : (s.setRank k x).insts = s.insts := rfl
@[simp] theorem State.setRank_nid (s : State) (k : Nat) (x : Rank) : (s.setRank k x).nid = s.nid := rfl
@[simp] theorem State.setRank_cfg (s : State) (k : Nat) (x : Rank) : (s.setRank k x).cfg = s.cfg := rfl
@[simp] theorem State.setRank_parts (s : State) (k : Nat) (x : Rank) : (s.setRank k x).parts = s.parts := rfl
@[simp] theorem State.setRank_tenants (s : State) (k : Nat) (x : Rank) : (s.setRank k x).tenants = s.tenants := rfl
@[simp] theorem State.setRank_pttStatus (s : State) (k : Nat) (x : Rank) : (s.setRank k x).pttStatus = s.pttStatus := rfl
@[simp] theorem State.setRank_streams (s : State) (k : Nat) (x : Rank) : (s.setRank k x).streams = s.streams := rfl
@[simp] theorem State.setRank_reqs (s : State) (k : Nat) (x : Rank) : (s.setRank k x).reqs = s.reqs := rfl
@[simp] theorem State.setRank_serialNo (s : State) (k : Nat) (x : Rank) : (s.setRank k x).serialNo = s.serialNo := rfl
@[simp] theorem State.setRank_ports (s : State) (k : Nat) (x : Rank) : (s.setRank k x).ports = s.ports := rfl
@[simp] theorem State.setRank_xpt (s : State) (k : Nat) (x : Rank) : (s.setRank k x).xpt = s.xpt := rfl
@[simp] theorem State.setRank_msh (s : State) (k : Nat) (x : Rank) : (s.setRank k x).msh = s.msh := rfl
@[simp] theorem State.setRank_til (s : State) (k : Nat) (x : Rank) : (s.setRank k x).til = s.til := rfl
@[simp] theorem State.setRank_dir (s : State) (k : Nat) (x : Rank) : (s.setRank k x).dir = s.dir := rfl
@[simp] theorem State.setRank_eng (s : State) (k : Nat) (x : Rank) : (s.setRank k x).eng = s.eng := rfl
@[simp] theorem State.setRank_arr (s : State) (k : Nat) (x : Rank) : (s.setRank k x).arr = s.arr := rfl
@[simp] theorem State.setRank_sec (s : State) (k : Nat) (x : Rank) : (s.setRank k x).sec = s.sec := rfl
@[simp] theorem State.setRank_hosts (s : State) (k : Nat) (x : Rank) : (s.setRank k x).hosts = s.hosts := rfl
@[simp] theorem State.setRank_pwr (s : State) (k : Nat) (x : Rank) : (s.setRank k x).pwr = s.pwr := rfl
@[simp] theorem State.setRank_flt (s : State) (k : Nat) (x : Rank) : (s.setRank k x).flt = s.flt := rfl
@[simp] theorem State.setRank_boot (s : State) (k : Nat) (x : Rank) : (s.setRank k x).boot = s.boot := rfl
@[simp] theorem State.setRank_sbd (s : State) (k : Nat) (x : Rank) : (s.setRank k x).sbd = s.sbd := rfl
@[simp] theorem State.setRank_out (s : State) (k : Nat) (x : Rank) : (s.setRank k x).out = s.out := rfl

/-! ### putStored -/
@[simp] theorem State.putStored_pending (s : State) (t : Tier) (l : Nat) (x : Line) : (s.putStored t l x).pending = s.pending := rfl
@[simp] theorem State.putStored_clk (s : State) (t : Tier) (l : Nat) (x : Line) : (s.putStored t l x).clk = s.clk := rfl
@[simp] theorem State.putStored_crs (s : State) (t : Tier) (l : Nat) (x : Line) : (s.putStored t l x).crs = s.crs := rfl
@[simp] theorem State.putStored_insts (s : State) (t : Tier) (l : Nat) (x : Line) : (s.putStored t l x).insts = s.insts := rfl
@[simp] theorem State.putStored_nid (s : State) (t : Tier) (l : Nat) (x : Line) : (s.putStored t l x).nid = s.nid := rfl
@[simp] theorem State.putStored_cfg (s : State) (t : Tier) (l : Nat) (x : Line) : (s.putStored t l x).cfg = s.cfg := rfl
@[simp] theorem State.putStored_parts (s : State) (t : Tier) (l : Nat) (x : Line) : (s.putStored t l x).parts = s.parts := rfl
@[simp] theorem State.putStored_tenants (s : State) (t : Tier) (l : Nat) (x : Line) : (s.putStored t l x).tenants = s.tenants := rfl
@[simp] theorem State.putStored_pttStatus (s : State) (t : Tier) (l : Nat) (x : Line) : (s.putStored t l x).pttStatus = s.pttStatus := rfl
@[simp] theorem State.putStored_streams (s : State) (t : Tier) (l : Nat) (x : Line) : (s.putStored t l x).streams = s.streams := rfl
@[simp] theorem State.putStored_reqs (s : State) (t : Tier) (l : Nat) (x : Line) : (s.putStored t l x).reqs = s.reqs := rfl
@[simp] theorem State.putStored_serialNo (s : State) (t : Tier) (l : Nat) (x : Line) : (s.putStored t l x).serialNo = s.serialNo := rfl
@[simp] theorem State.putStored_ports (s : State) (t : Tier) (l : Nat) (x : Line) : (s.putStored t l x).ports = s.ports := rfl
@[simp] theorem State.putStored_xpt (s : State) (t : Tier) (l : Nat) (x : Line) : (s.putStored t l x).xpt = s.xpt := rfl
@[simp] theorem State.putStored_msh (s : State) (t : Tier) (l : Nat) (x : Line) : (s.putStored t l x).msh = s.msh := rfl
@[simp] theorem State.putStored_til (s : State) (t : Tier) (l : Nat) (x : Line) : (s.putStored t l x).til = s.til := rfl
@[simp] theorem State.putStored_dir (s : State) (t : Tier) (l : Nat) (x : Line) : (s.putStored t l x).dir = s.dir := rfl
@[simp] theorem State.putStored_eng (s : State) (t : Tier) (l : Nat) (x : Line) : (s.putStored t l x).eng = s.eng := rfl
@[simp] theorem State.putStored_arr (s : State) (t : Tier) (l : Nat) (x : Line) : (s.putStored t l x).arr = s.arr := rfl
@[simp] theorem State.putStored_sec (s : State) (t : Tier) (l : Nat) (x : Line) : (s.putStored t l x).sec = s.sec := rfl
@[simp] theorem State.putStored_hosts (s : State) (t : Tier) (l : Nat) (x : Line) : (s.putStored t l x).hosts = s.hosts := rfl
@[simp] theorem State.putStored_pwr (s : State) (t : Tier) (l : Nat) (x : Line) : (s.putStored t l x).pwr = s.pwr := rfl
@[simp] theorem State.putStored_flt (s : State) (t : Tier) (l : Nat) (x : Line) : (s.putStored t l x).flt = s.flt := rfl
@[simp] theorem State.putStored_boot (s : State) (t : Tier) (l : Nat) (x : Line) : (s.putStored t l x).boot = s.boot := rfl
@[simp] theorem State.putStored_sbd (s : State) (t : Tier) (l : Nat) (x : Line) : (s.putStored t l x).sbd = s.sbd := rfl
@[simp] theorem State.putStored_out (s : State) (t : Tier) (l : Nat) (x : Line) : (s.putStored t l x).out = s.out := rfl

/-! ### setPoison -/
@[simp] theorem State.setPoison_pending (s : State) (t : Tier) (l : Nat) (b : Bool) : (s.setPoison t l b).pending = s.pending := rfl
@[simp] theorem State.setPoison_clk (s : State) (t : Tier) (l : Nat) (b : Bool) : (s.setPoison t l b).clk = s.clk := rfl
@[simp] theorem State.setPoison_crs (s : State) (t : Tier) (l : Nat) (b : Bool) : (s.setPoison t l b).crs = s.crs := rfl
@[simp] theorem State.setPoison_insts (s : State) (t : Tier) (l : Nat) (b : Bool) : (s.setPoison t l b).insts = s.insts := rfl
@[simp] theorem State.setPoison_nid (s : State) (t : Tier) (l : Nat) (b : Bool) : (s.setPoison t l b).nid = s.nid := rfl
@[simp] theorem State.setPoison_cfg (s : State) (t : Tier) (l : Nat) (b : Bool) : (s.setPoison t l b).cfg = s.cfg := rfl
@[simp] theorem State.setPoison_parts (s : State) (t : Tier) (l : Nat) (b : Bool) : (s.setPoison t l b).parts = s.parts := rfl
@[simp] theorem State.setPoison_tenants (s : State) (t : Tier) (l : Nat) (b : Bool) : (s.setPoison t l b).tenants = s.tenants := rfl
@[simp] theorem State.setPoison_pttStatus (s : State) (t : Tier) (l : Nat) (b : Bool) : (s.setPoison t l b).pttStatus = s.pttStatus := rfl
@[simp] theorem State.setPoison_streams (s : State) (t : Tier) (l : Nat) (b : Bool) : (s.setPoison t l b).streams = s.streams := rfl
@[simp] theorem State.setPoison_reqs (s : State) (t : Tier) (l : Nat) (b : Bool) : (s.setPoison t l b).reqs = s.reqs := rfl
@[simp] theorem State.setPoison_serialNo (s : State) (t : Tier) (l : Nat) (b : Bool) : (s.setPoison t l b).serialNo = s.serialNo := rfl
@[simp] theorem State.setPoison_ports (s : State) (t : Tier) (l : Nat) (b : Bool) : (s.setPoison t l b).ports = s.ports := rfl
@[simp] theorem State.setPoison_xpt (s : State) (t : Tier) (l : Nat) (b : Bool) : (s.setPoison t l b).xpt = s.xpt := rfl
@[simp] theorem State.setPoison_msh (s : State) (t : Tier) (l : Nat) (b : Bool) : (s.setPoison t l b).msh = s.msh := rfl
@[simp] theorem State.setPoison_til (s : State) (t : Tier) (l : Nat) (b : Bool) : (s.setPoison t l b).til = s.til := rfl
@[simp] theorem State.setPoison_dir (s : State) (t : Tier) (l : Nat) (b : Bool) : (s.setPoison t l b).dir = s.dir := rfl
@[simp] theorem State.setPoison_eng (s : State) (t : Tier) (l : Nat) (b : Bool) : (s.setPoison t l b).eng = s.eng := rfl
@[simp] theorem State.setPoison_arr (s : State) (t : Tier) (l : Nat) (b : Bool) : (s.setPoison t l b).arr = s.arr := rfl
@[simp] theorem State.setPoison_sec (s : State) (t : Tier) (l : Nat) (b : Bool) : (s.setPoison t l b).sec = s.sec := rfl
@[simp] theorem State.setPoison_hosts (s : State) (t : Tier) (l : Nat) (b : Bool) : (s.setPoison t l b).hosts = s.hosts := rfl
@[simp] theorem State.setPoison_pwr (s : State) (t : Tier) (l : Nat) (b : Bool) : (s.setPoison t l b).pwr = s.pwr := rfl
@[simp] theorem State.setPoison_flt (s : State) (t : Tier) (l : Nat) (b : Bool) : (s.setPoison t l b).flt = s.flt := rfl
@[simp] theorem State.setPoison_boot (s : State) (t : Tier) (l : Nat) (b : Bool) : (s.setPoison t l b).boot = s.boot := rfl
@[simp] theorem State.setPoison_sbd (s : State) (t : Tier) (l : Nat) (b : Bool) : (s.setPoison t l b).sbd = s.sbd := rfl
@[simp] theorem State.setPoison_out (s : State) (t : Tier) (l : Nat) (b : Bool) : (s.setPoison t l b).out = s.out := rfl

/-! ### setReq -/
@[simp] theorem State.setReq_pending (s : State) (r : OReq) : (s.setReq r).pending = s.pending := rfl
@[simp] theorem State.setReq_clk (s : State) (r : OReq) : (s.setReq r).clk = s.clk := rfl
@[simp] theorem State.setReq_crs (s : State) (r : OReq) : (s.setReq r).crs = s.crs := rfl
@[simp] theorem State.setReq_insts (s : State) (r : OReq) : (s.setReq r).insts = s.insts := rfl
@[simp] theorem State.setReq_nid (s : State) (r : OReq) : (s.setReq r).nid = s.nid := rfl
@[simp] theorem State.setReq_cfg (s : State) (r : OReq) : (s.setReq r).cfg = s.cfg := rfl
@[simp] theorem State.setReq_parts (s : State) (r : OReq) : (s.setReq r).parts = s.parts := rfl
@[simp] theorem State.setReq_tenants (s : State) (r : OReq) : (s.setReq r).tenants = s.tenants := rfl
@[simp] theorem State.setReq_pttStatus (s : State) (r : OReq) : (s.setReq r).pttStatus = s.pttStatus := rfl
@[simp] theorem State.setReq_streams (s : State) (r : OReq) : (s.setReq r).streams = s.streams := rfl
@[simp] theorem State.setReq_serialNo (s : State) (r : OReq) : (s.setReq r).serialNo = s.serialNo := rfl
@[simp] theorem State.setReq_ports (s : State) (r : OReq) : (s.setReq r).ports = s.ports := rfl
@[simp] theorem State.setReq_xpt (s : State) (r : OReq) : (s.setReq r).xpt = s.xpt := rfl
@[simp] theorem State.setReq_msh (s : State) (r : OReq) : (s.setReq r).msh = s.msh := rfl
@[simp] theorem State.setReq_til (s : State) (r : OReq) : (s.setReq r).til = s.til := rfl
@[simp] theorem State.setReq_dram (s : State) (r : OReq) : (s.setReq r).dram = s.dram := rfl
@[simp] theorem State.setReq_dir (s : State) (r : OReq) : (s.setReq r).dir = s.dir := rfl
@[simp] theorem State.setReq_eng (s : State) (r : OReq) : (s.setReq r).eng = s.eng := rfl
@[simp] theorem State.setReq_arr (s : State) (r : OReq) : (s.setReq r).arr = s.arr := rfl
@[simp] theorem State.setReq_sec (s : State) (r : OReq) : (s.setReq r).sec = s.sec := rfl
@[simp] theorem State.setReq_hosts (s : State) (r : OReq) : (s.setReq r).hosts = s.hosts := rfl
@[simp] theorem State.setReq_pwr (s : State) (r : OReq) : (s.setReq r).pwr = s.pwr := rfl
@[simp] theorem State.setReq_flt (s : State) (r : OReq) : (s.setReq r).flt = s.flt := rfl
@[simp] theorem State.setReq_boot (s : State) (r : OReq) : (s.setReq r).boot = s.boot := rfl
@[simp] theorem State.setReq_sbd (s : State) (r : OReq) : (s.setReq r).sbd = s.sbd := rfl
@[simp] theorem State.setReq_out (s : State) (r : OReq) : (s.setReq r).out = s.out := rfl

/-! ### dropReq -/
@[simp] theorem State.dropReq_pending (s : State) (id : Nat) : (s.dropReq id).pending = s.pending := rfl
@[simp] theorem State.dropReq_clk (s : State) (id : Nat) : (s.dropReq id).clk = s.clk := rfl
@[simp] theorem State.dropReq_crs (s : State) (id : Nat) : (s.dropReq id).crs = s.crs := rfl
@[simp] theorem State.dropReq_insts (s : State) (id : Nat) : (s.dropReq id).insts = s.insts := rfl
@[simp] theorem State.dropReq_nid (s : State) (id : Nat) : (s.dropReq id).nid = s.nid := rfl
@[simp] theorem State.dropReq_cfg (s : State) (id : Nat) : (s.dropReq id).cfg = s.cfg := rfl
@[simp] theorem State.dropReq_parts (s : State) (id : Nat) : (s.dropReq id).parts = s.parts := rfl
@[simp] theorem State.dropReq_tenants (s : State) (id : Nat) : (s.dropReq id).tenants = s.tenants := rfl
@[simp] theorem State.dropReq_pttStatus (s : State) (id : Nat) : (s.dropReq id).pttStatus = s.pttStatus := rfl
@[simp] theorem State.dropReq_streams (s : State) (id : Nat) : (s.dropReq id).streams = s.streams := rfl
@[simp] theorem State.dropReq_serialNo (s : State) (id : Nat) : (s.dropReq id).serialNo = s.serialNo := rfl
@[simp] theorem State.dropReq_ports (s : State) (id : Nat) : (s.dropReq id).ports = s.ports := rfl
@[simp] theorem State.dropReq_xpt (s : State) (id : Nat) : (s.dropReq id).xpt = s.xpt := rfl
@[simp] theorem State.dropReq_msh (s : State) (id : Nat) : (s.dropReq id).msh = s.msh := rfl
@[simp] theorem State.dropReq_til (s : State) (id : Nat) : (s.dropReq id).til = s.til := rfl
@[simp] theorem State.dropReq_dram (s : State) (id : Nat) : (s.dropReq id).dram = s.dram := rfl
@[simp] theorem State.dropReq_dir (s : State) (id : Nat) : (s.dropReq id).dir = s.dir := rfl
@[simp] theorem State.dropReq_eng (s : State) (id : Nat) : (s.dropReq id).eng = s.eng := rfl
@[simp] theorem State.dropReq_arr (s : State) (id : Nat) : (s.dropReq id).arr = s.arr := rfl
@[simp] theorem State.dropReq_sec (s : State) (id : Nat) : (s.dropReq id).sec = s.sec := rfl
@[simp] theorem State.dropReq_hosts (s : State) (id : Nat) : (s.dropReq id).hosts = s.hosts := rfl
@[simp] theorem State.dropReq_pwr (s : State) (id : Nat) : (s.dropReq id).pwr = s.pwr := rfl
@[simp] theorem State.dropReq_flt (s : State) (id : Nat) : (s.dropReq id).flt = s.flt := rfl
@[simp] theorem State.dropReq_boot (s : State) (id : Nat) : (s.dropReq id).boot = s.boot := rfl
@[simp] theorem State.dropReq_sbd (s : State) (id : Nat) : (s.dropReq id).sbd = s.sbd := rfl
@[simp] theorem State.dropReq_out (s : State) (id : Nat) : (s.dropReq id).out = s.out := rfl

/-! ### What is read after a write, at every index -/
theorem State.inst_setInst (s : State) (i j : Nat) (x : Inst) : (s.setInst i x).inst j = if j = i then x else s.inst j := Tbl.get_put ..
@[simp] theorem State.inst_setInst_same (s : State) (i : Nat) (x : Inst) : (s.setInst i x).inst i = x := Tbl.get_put_same ..
theorem State.part_setPart (s : State) (i j : Nat) (x : Part) : (s.setPart i x).part j = if j = i then x else s.part j := Tbl.get_put ..
@[simp] theorem State.part_setPart_same (s : State) (i : Nat) (x : Part) : (s.setPart i x).part i = x := Tbl.get_put_same ..
theorem State.tenant_setTenant (s : State) (i j : Nat) (x : Tenant) : (s.setTenant i x).tenant j = if j = i then x else s.tenant j := Tbl.get_put ..
@[simp] theorem State.tenant_setTenant_same (s : State) (i : Nat) (x : Tenant) : (s.setTenant i x).tenant i = x := Tbl.get_put_same ..
theorem State.stream_setStream (s : State) (i j : Nat) (x : Stream) : (s.setStream i x).stream j = if j = i then x else s.stream j := Tbl.get_put ..
@[simp] theorem State.stream_setStream_same (s : State) (i : Nat) (x : Stream) : (s.setStream i x).stream i = x := Tbl.get_put_same ..
theorem State.port_setPort (s : State) (i j : Nat) (x : Port) : (s.setPort i x).port j = if j = i then x else s.port j := Tbl.get_put ..
@[simp] theorem State.port_setPort_same (s : State) (i : Nat) (x : Port) : (s.setPort i x).port i = x := Tbl.get_put_same ..
theorem State.host_setHost (s : State) (i j : Nat) (x : HostPort) : (s.setHost i x).host j = if j = i then x else s.host j := Tbl.get_put ..
@[simp] theorem State.host_setHost_same (s : State) (i : Nat) (x : HostPort) : (s.setHost i x).host i = x := Tbl.get_put_same ..
theorem State.mig_setMig (s : State) (i j : Nat) (x : Mig) : (s.setMig i x).mig j = if j = i then x else s.mig j := Tbl.get_put ..
@[simp] theorem State.mig_setMig_same (s : State) (i : Nat) (x : Mig) : (s.setMig i x).mig i = x := Tbl.get_put_same ..
theorem State.use_setUse (s : State) (i j : Nat) (x : TileUse) : (s.setUse i x).use j = if j = i then x else s.use j := Tbl.get_put ..
@[simp] theorem State.use_setUse_same (s : State) (i : Nat) (x : TileUse) : (s.setUse i x).use i = x := Tbl.get_put_same ..
theorem State.chan_setChan (s : State) (i j : Nat) (x : Chan) : (s.setChan i x).chan j = if j = i then x else s.chan j := Tbl.get_put ..
@[simp] theorem State.chan_setChan_same (s : State) (i : Nat) (x : Chan) : (s.setChan i x).chan i = x := Tbl.get_put_same ..
theorem State.queue_setQueue (s : State) (i j : Nat) (x : Queue) : (s.setQueue i x).queue j = if j = i then x else s.queue j := Tbl.get_put ..
@[simp] theorem State.queue_setQueue_same (s : State) (i : Nat) (x : Queue) : (s.setQueue i x).queue i = x := Tbl.get_put_same ..
theorem State.col_setCol (s : State) (i j : Nat) (x : Col) : (s.setCol i x).col j = if j = i then x else s.col j := Tbl.get_put ..
@[simp] theorem State.col_setCol_same (s : State) (i : Nat) (x : Col) : (s.setCol i x).col i = x := Tbl.get_put_same ..
theorem State.pin_setPin (s : State) (i j : Nat) (x : Pin) : (s.setPin i x).pin j = if j = i then x else s.pin j := Tbl.get_put ..
@[simp] theorem State.pin_setPin_same (s : State) (i : Nat) (x : Pin) : (s.setPin i x).pin i = x := Tbl.get_put_same ..
theorem State.slip_setSlip (s : State) (i j : Nat) (x : Slip) : (s.setSlip i x).slip j = if j = i then x else s.slip j := Tbl.get_put ..
@[simp] theorem State.slip_setSlip_same (s : State) (i : Nat) (x : Slip) : (s.setSlip i x).slip i = x := Tbl.get_put_same ..
theorem State.wd_setWd (s : State) (i j : Nat) (x : Wd) : (s.setWd i x).wd j = if j = i then x else s.wd j := Tbl.get_put ..
@[simp] theorem State.wd_setWd_same (s : State) (i : Nat) (x : Wd) : (s.setWd i x).wd i = x := Tbl.get_put_same ..
theorem State.secPort_setSecPort (s : State) (i j : Nat) (x : SecPort) : (s.setSecPort i x).secPort j = if j = i then x else s.secPort j := Tbl.get_put ..
@[simp] theorem State.secPort_setSecPort_same (s : State) (i : Nat) (x : SecPort) : (s.setSecPort i x).secPort i = x := Tbl.get_put_same ..
theorem State.bank_setBank (s : State) (i j : Nat) (x : Bank) : (s.setBank i x).bank j = if j = i then x else s.bank j := Tbl.get_put ..
@[simp] theorem State.bank_setBank_same (s : State) (i : Nat) (x : Bank) : (s.setBank i x).bank i = x := Tbl.get_put_same ..
theorem State.rank_setRank (s : State) (i j : Nat) (x : Rank) : (s.setRank i x).rank j = if j = i then x else s.rank j := Tbl.get_put ..
@[simp] theorem State.rank_setRank_same (s : State) (i : Nat) (x : Rank) : (s.setRank i x).rank i = x := Tbl.get_put_same ..

@[simp] theorem State.tier_setTier (s : State) (t : Tier) (x : TierSt) : (s.setTier t x).tier t = x := by cases t <;> rfl

end Sys2Proof.Machine
end

