-- ==== Sys2Proof/Laws/Shared.lean ====
section
/-! SUPPORT. What the shared operations do, once each: FATAL, the mailbox and its answers, register writes of the administrator. -/

namespace Sys2Proof.Machine

/-- A property of every value a mapped table reads. -/
theorem mapTbl_get {α : Type} [DecidableEq α] (d : α) (f : Nat → α → α) (t : Tbl α) (k : Nat) (P : α → Prop) (hd : P d)
    (hf : ∀ k x, P (f k x)) : P (Tbl.get d (mapTbl d f t) k) := by
  induction t with
  | nil => exact hd
  | cons e r ih =>
    obtain ⟨i, v⟩ := e
    unfold mapTbl at ih ⊢
    simp only [List.filterMap_cons]
    by_cases h : f i v = d
    · simp only [h, if_true]
      exact ih
    · simp only [h, if_false, Tbl.get]
      split
      · exact hf _ _
      · exact ih

/-- FATAL as R395 and R396 describe it: the state, the latched causes and course, the keys cleared, the sideband driven. -/
theorem enterFatal_spec (cs : List Nat) (o : BitVec 16) (d : BitVec 64) (s : State) (h : s.alive = true) :
    let t := enterFatal cs o d s
    t.nid = { s.nid with state := .fatal } ∧ t.flt.fatal = true ∧ t.flt.first = cs.foldl min 6 ∧
    t.flt.all = cs.foldl (fun a c => a ||| 2 ^ (c - 1)) 0 ∧ t.flt.course = s.course.toNat ∧
    t.sbd = { s.sbd with nodeFault := true, alert := true } ∧ (∀ k, (t.tenant k).key = none) ∧ (∀ k, (t.port k).sess = none) := by
  have hf : ∀ (l : List (Fin 4)) (u : State), Keeps [.out] u (l.foldl (fun s p => s.emit (.msix p 0 1)) u) := fun l u =>
    Keeps.foldl (fun t x => State.emit_keeps (List.Subset.refl _) (Keeps.refl _ _)) l (Keeps.refl _ _)
  unfold enterFatal
  simp only [h, if_true]
  have key : ∀ k, (Tbl.get {} (zeroiseAll s).tenants k).key = none := by
    intro k
    show (Tbl.get {} (mapTbl {} (fun _ t => { t with key := none }) s.tenants) k).key = none
    exact mapTbl_get _ _ _ _ (fun x : Tenant => x.key = none) rfl fun _ _ => rfl
  have ses : ∀ k, (Tbl.get {} (zeroiseAll s).ports k).sess = none := by
    intro k
    show (Tbl.get {} (mapTbl {} (fun _ p => { p with hs := {}, sess := none }) s.ports) k).sess = none
    exact mapTbl_get _ _ _ _ (fun x : Port => x.sess = none) rfl fun _ _ => rfl
  generalize hu : pushFault _ _ = u
  have k := hf (hostsUp u) u
  have e : ∀ a, a ∉ [Area.out] → a.same u _ := k.1
  have hn := e .nid (by decide)
  have hl := e .flt (by decide)
  have hs := e .sbd (by decide)
  have ht := e .tenants (by decide)
  have hp := e .ports (by decide)
  simp only [Area.same] at hn hl hs ht hp
  rw [hn, hl, hs]
  have hut : u.tenants = (zeroiseAll s).tenants := by
    subst hu
    exact (pushFault_keeps (List.Subset.refl _) (Keeps.refl _ _)).1 .tenants (by decide)
  have hup : u.ports = (zeroiseAll s).ports := by
    subst hu
    exact (pushFault_keeps (List.Subset.refl _) (Keeps.refl _ _)).1 .ports (by decide)
  simp only [State.tenant, State.port, ht, hp, hut, hup]
  refine ⟨?_, ?_, ?_, ?_, ?_, ?_, key, ses⟩ <;>
    (subst hu; unfold pushFault; dsimp only; repeat' (first | rfl | split))

/-! ## The mailbox -/

@[simp] theorem mbxAccept_owed (fn : Fn) (op : Nat) (m : MbxHdr) (f : List Byte) (s : State) :
    (mbxAccept fn op m f s).1 = { port := fn.port, id := s.serialNo, opcode := BitVec.ofNat 16 op, tag := m.tag } := rfl

@[simp] theorem mbxAccept_nid (fn : Fn) (op : Nat) (m : MbxHdr) (f : List Byte) (s : State) : (mbxAccept fn op m f s).2.nid = s.nid := rfl

/-- After the doorbell BUSY is set, DONE clear, and the answer is owed under the command's number (R374). -/
theorem mbxAccept_host (fn : Fn) (op : Nat) (m : MbxHdr) (f : List Byte) (s : State) (p : Nat) :
    (mbxAccept fn op m f s).2.host p = if p = fn.port.val then
      { s.host fn.port with busy := true, done := false, cur := some s.serialNo, cmd := cmdWords (s.host fn.port).cmd op m f } else s.host p :=
  State.host_setHost ..

/-- A command that the mailbox takes, whose length, node state and right are in order, is carried out (R375). -/
theorem mailbox_runs {s : State} {fn : Fn} {m : MbxHdr} {op : Nat} {f : List Byte} {any : Bool} {right : State → Bool}
    {body : Owed → State → State} (h : mbxReady s fn m f.length) (hr : right (mbxAccept fn op m f s).2 = true) :
    mailbox fn op m f any right body s = body (mbxAccept fn op m f s).1 (mbxAccept fn op m f s).2 := by
  obtain ⟨⟨h1, h2, h3, h4, h5⟩, h6⟩ := h
  unfold mailbox
  simp [h1, h2, h3, h4, h5, h6, hr]

/-- An answer that is still owed is written: BUSY falls, DONE rises, the answer is sent (R374). -/
theorem answer_spec (o : Owed) (st : Status) (f : List Byte) (s : State) (h : s.alive = true) (hc : (s.host o.port).cur = some o.id) :
    (∀ p : Nat, (answer o st f s).host p = if p = o.port.val then { s.host o.port with
        ans := leBytes 2 o.opcode.toNat ++ [BitVec.ofNat 8 st.code, 0] ++ leBytes 4 o.tag.toNat ++ leBytes 4 f.length ++ leBytes 4 0 ++ f
        busy := false, done := true, cur := none } else s.host p) ∧
    (answer o st f s).out = .msix o.port 0 0 :: .answer o.port o.opcode st o.tag f :: s.out := by
  unfold answer
  simp only [h, hc, decide_true, Bool.and_true, if_true]
  exact ⟨fun p => State.host_setHost .., rfl⟩

/-- The answer of a command that is carried out at once. -/
theorem answered_now {s : State} {fn : Fn} {op : Nat} {m : MbxHdr} {f g : List Byte} {st : Status} (ha : s.alive = true) :
    answered s (answer (mbxAccept fn op m f s).1 st g (mbxAccept fn op m f s).2) fn op m st g := by
  have h1 : (mbxAccept fn op m f s).2.alive = true := ha
  have h2 : ((mbxAccept fn op m f s).2.host (mbxAccept fn op m f s).1.port).cur = some (mbxAccept fn op m f s).1.id := by
    simp [mbxAccept_host]
  have k := (answer_spec (mbxAccept fn op m f s).1 st g (mbxAccept fn op m f s).2 h1 h2).1
  refine ⟨?_, fun p hp => ?_⟩
  · unfold answeredFor
    rw [k]
    simp
  · have e := k p
    rw [if_neg (show ¬ p = (mbxAccept fn op m f s).1.port.val from hp)] at e
    rw [e, mbxAccept_host, if_neg hp]

/-! ## A line written reads back (R208, R227) -/

/-- The stored bytes of a line just replaced. -/
theorem State.stored_putStored (s : State) (t : Tier) (l : Nat) (x : Line) : (s.putStored t l x).stored t l = x := by
  ext i hi
  have h : (lineKey t l * 128 ≤ lineKey t l * 128 + i ∧ lineKey t l * 128 + i < lineKey t l * 128 + x.toList.length) := by simp; omega
  simp only [State.stored, State.putStored, Vector.getElem_ofFn, cellGet_write, if_pos h]
  simp [List.getD, hi]

@[simp] theorem markDirty_dram (t : Tier) (l : Nat) (s : State) : (markDirty t l s).dram = s.dram := rfl

@[simp] theorem forgetPassed_mem (t : Tier) (l : Nat) (s : State) : (forgetPassed t l s).dram.mem = s.dram.mem := rfl

@[simp] theorem setPoison_mem (s : State) (t : Tier) (l : Nat) (b : Bool) : (s.setPoison t l b).dram.mem = s.dram.mem := rfl

@[simp] theorem markDirty_tenants (t : Tier) (l : Nat) (s : State) : (markDirty t l s).tenants = s.tenants := rfl

@[simp] theorem forgetPassed_tenants (t : Tier) (l : Nat) (s : State) : (forgetPassed t l s).tenants = s.tenants := rfl

/-- Pool memory after a full write of a line: the line's ciphertext in its place. -/
theorem writeLine_mem (kt : Nat) (t : Tier) (l : Nat) (x : Line) (s : State) :
    (writeLine kt t l x s).dram.mem = (s.putStored t l (xts (s.keyOf kt) (tweak t l) x)).dram.mem := by
  unfold writeLine
  simp only [markDirty_dram, forgetPassed_mem, setPoison_mem]

theorem writeLine_tenants (kt : Nat) (t : Tier) (l : Nat) (x : Line) (s : State) : (writeLine kt t l x s).tenants = s.tenants := by
  unfold writeLine
  simp only [markDirty_tenants, forgetPassed_tenants, State.setPoison_tenants, State.putStored_tenants]

/-- A line written under a key slot is that plaintext under it. -/
theorem plain_writeLine (kt : Nat) (t : Tier) (l : Nat) (x : Line) (s : State) : (writeLine kt t l x s).plain kt t l = x := by
  have k : (writeLine kt t l x s).keyOf kt = s.keyOf kt := by rw [State.keyOf, State.keyOf, State.tenant, State.tenant, writeLine_tenants]
  have h : (writeLine kt t l x s).stored t l = (s.putStored t l (xts (s.keyOf kt) (tweak t l) x)).stored t l := by
    rw [State.stored, State.stored, writeLine_mem]
  rw [State.plain, k, h, State.stored_putStored, Equiv.symm_apply_apply]

end Sys2Proof.Machine
end

