-- ==== Sys2Proof/WellFormed.lean ====
section
/-! DEFINITION. Which terms of Instr are commands a sender can form: functions and register writes that PCIe can carry, messages of the
row's own opcode, frames of 256 payload bytes, hashes and nonces of their length, and channels, banks and ranks that the node has. The
meanings are total: they do not rely on these checks, except that a channel, bank or rank the node has not is a fault. -/

namespace Sys2Proof

/-- A function is a physical function or one of its 32 virtual functions (R366). -/
def Fn.wf (fn : Fn) : Bool := decide (fn.vf ≤ 32)

/-- A size in which a host reads or writes. -/
def sizeOk (n : Nat) : Bool := decide (n = 1 ∨ n = 2 ∨ n = 4 ∨ n = 8)

/-- A write lies in the 64 MiB of BAR0 (Table 17.1). -/
def RegWr.wf (w : RegWr) : Bool := decide (w.off < 2 ^ 26) && sizeOk w.size

/-- What host memory returns has the length asked for. -/
def HostRead.hasLength (h : HostRead) (n : Nat) : Bool :=
  match h with
  | .data b => decide (b.length = n)
  | .error => true

/-- A message carries at most 8 data flits (R157), and a REQ ten bytes of operation arguments at most (Table 7.1). -/
def Msg.wf (m : Msg) : Bool := decide (m.data.length ≤ 128) && decide (m.opargs.length ≤ 10)

/-- A well-formed message of one opcode. -/
def Msg.hasOp (m : Msg) (op : BitVec 8) : Bool := m.wf && decide (m.opcode = op)

/-- An opcode is defined for a class (Tables 7.3, 11.2). -/
def opOfClass (c : MsgClass) (op : Nat) : Bool :=
  match c with
  | .req => decide (1 ≤ op ∧ op ≤ 9)
  | .snp => decide (0x20 ≤ op ∧ op ≤ 0x22)
  | .rsp => decide (0x40 ≤ op ∧ op ≤ 0x45)
  | .dat => decide (0x60 ≤ op ∧ op ≤ 0x68)

/-- A frame carries 256 payload bytes (R138). -/
def Frame.wf (f : Frame) : Bool := decide (f.payload.length = 256)

/-- RANDOM has 32 bytes and the ephemeral key 97 (Table 16.4). -/
def Hello.wf (h : Hello) : Bool := decide (h.random.length = 32) && decide (h.pubKey.length = 97)

/-- The hashes of OTP are SHA-384 hashes (R104). -/
def Otp.wf (o : Otp) : Bool := decide (o.idHash.length = 48) && decide (o.fwKeyHash.length = 48)

/-- A flash device's density is a power of two up to 2^32 bytes, and its cells lie in it. -/
def FlashDev.wf (d : FlashDev) : Bool := decide (d.log2 ≤ 32) && d.cells.all fun c => decide (c.1 < 2 ^ d.log2)

/-- A miscorrection is one of a line that the decoder took for another. -/
def EccErr.wf (e : EccErr) : Bool := e.garbled.isSome || !e.miscorrected

/-- A mesh packet carries at most the 512 bits of the DAT plane (Table 8.2). -/
def MeshPkt.wf (p : MeshPkt) (pl : Plane) : Bool :=
  decide (p.payload.length ≤ pl.bytes) && (decide (pl = .dat) || (!p.multi && !p.course))

/-- Channels of a tier (Table 10.1). -/
def channelsOf : Tier → Nat
  | .near => 256
  | .bulk => 16

/-- Refresh banks of a channel: banks of every stack ID, or of every rank. -/
def banksOf : Tier → Nat
  | .near => 64
  | .bulk => 32

/-- Stack IDs or ranks of a channel. -/
def ranksOf : Tier → Nat
  | .near => 4
  | .bulk => 8

/-- An opcode of the mailbox (Table 17.5). -/
def mailboxOpcode (o : Nat) : Bool :=
  decide (o ∈ [0x0101, 0x0102, 0x0103, 0x0110, 0x0111, 0x0112, 0x0120, 0x0121, 0x0201, 0x0202, 0x0203, 0x0204, 0x0205, 0x0206, 0x0301,
    0x0401, 0x0402, 0x0403, 0x0501, 0x0601, 0x0701, 0x0702, 0x0801])

/-- A command code of the SMBus target (Table 17.9). -/
def smbCode (c : Byte) : Bool := decide (c.toNat ≤ 6)

/-- The term is a command a sender can form. -/
def Instr.wf (i : Instr) : Bool :=
  match i with
  | .registerWrite fn w => fn.wf && w.toRegWr.wf
  | .registerPairWrite fn w => fn.wf && w.wf
  | .registerPairLowRead fn off size => fn.wf && decide (off < 2 ^ 26) && sizeOk size
  | .shadowWrite fn w => fn.wf && w.wf
  | .genctlCommit fn w => fn.wf && w.wf
  | .coursePacketSend => true
  | .courseClockLoss _ => true
  | .courseBoundary => true
  | .genRelease _ => true
  | .genReleaseByAge _ => true
  | .genFlip _ => true
  | .genStalePost => true
  | .courseSlip _ => true
  | .slipClr fn w slips => fn.wf && w.wf && decide (w.off = 0x10014) && decide slips.Nodup
  | .tenantCreate fn _ _ _ => fn.wf
  | .tenantKeyReady _ => true
  | .tenantDestroy fn _ _ => fn.wf
  | .tenantWithdraw _ => true
  | .tenantKeyZeroise _ => true
  | .tenantFree _ => true
  | .tenantQuery fn _ _ => fn.wf
  | .streamOpen fn _ _ _ _ _ => fn.wf
  | .streamModify fn _ _ _ _ => fn.wf
  | .streamClose fn _ _ => fn.wf
  | .streamIdFree _ => true
  | .streamWindowRamp _ => true
  | .streamTimeout _ _ => true
  | .partReset fn _ _ => fn.wf
  | .partitionResetWithdraw _ => true
  | .partitionResetComplete _ => true
  | .partQuery fn _ _ => fn.wf
  | .vfFlr _ vf => decide (1 ≤ vf ∧ vf ≤ 32)
  | .porNRise _ => true
  | .porNFall => true
  | .pwrgoodFall => true
  | .railOrderFault _ => true
  | .vddAuxRemoval => true
  | .perstNAssert _ => true
  | .perstNDeassert _ => true
  | .thermtrip _ _ => true
  | .prochotAssert _ _ => true
  | .prochotRelease _ _ => true
  | .refclkLost _ => true
  | .refclkReturn _ => true
  | .hostNotifySend _ => true
  | .hostNotifyRetry _ => true
  | .smbAlertResponse => true
  | .smbSclTimeout => true
  | .pinGuardEnd _ => true
  | .tachWindow _ => true
  | .ledPeriod _ => true
  | .clockLock => true
  | .otpRead o => o.all Otp.wf
  | .flashDiscovery d => d.all FlashDev.wf
  | .slotChoice => true
  | .processorStart => true
  | .settingsRead => true
  | .eccSelftest _ _ _ => true
  | .meshSelftest _ _ => true
  | .calibrationApply => true
  | .partitionLoad => true
  | .tablesLoad => true
  | .hbmTraining fails => decide ((fails.map Prod.fst).Nodup)
  | .ddrTraining dimms fails => decide (dimms.length = 16) && decide (fails.Nodup)
  | .portsOpen _ => true
  | .sedgeDesignLoad => true
  | .enterService _ => true
  | .healthCheckPass => true
  | .settingsWrite => true
  | .configRetryEnd _ => true
  | .trainingAdmit => true
  | .attemptSuccess _ => true
  | .attemptFail _ _ => true
  | .attemptTimeout _ _ _ => true
  | .failedRetry _ => true
  | .lnkRetrain fn _ => fn.wf
  | .lnkEnable fn _ => fn.wf
  | .lnkDisable fn _ => fn.wf
  | .params _ _ => true
  | .paramsAck _ => true
  | .paramsResend _ => true
  | .retrainReq _ f _ _ => f.wf
  | .data _ f _ => f.wf
  | .leanFrameReceive _ f _ _ => f.wf
  | .idle _ f => f.wf
  | .replayReq _ f => f.wf
  | .frameSend _ _ => true
  | .idleSend _ _ => true
  | .replayTimer _ => true
  | .replayResend _ _ => true
  | .laneLockLoss _ => true
  | .rdShared _ m => m.hasOp 0x01
  | .rdUnique _ m => m.hasOp 0x02
  | .rdOnce _ m => m.hasOp 0x03
  | .wrFull _ m => m.hasOp 0x04
  | .wrStash _ m => m.hasOp 0x05
  | .wbDirty _ m => m.hasOp 0x06
  | .evictClean _ m => m.hasOp 0x07
  | .atOp _ m => m.hasOp 0x08
  | .mcastRead _ m => m.hasOp 0x09
  | .mcastReadComplete _ _ => true
  | .reqReserved _ m => m.wf && decide (0x0A ≤ m.opcode.toNat ∧ m.opcode.toNat ≤ 0x1F)
  | .forward _ cls m => m.wf && opOfClass cls m.opcode.toNat
  | .datWrite _ m => m.hasOp 0x61
  | .mcastData _ m => m.hasOp 0x62
  | .snpAckInv _ m => m.hasOp 0x41
  | .snpAckShared _ m => m.hasOp 0x42
  | .stashAccept _ m => m.hasOp 0x43
  | .stashDecline _ m => m.hasOp 0x44
  | .compAck _ m => m.hasOp 0x45
  | .datSnpS _ m => m.hasOp 0x66
  | .datSnpI _ m => m.hasOp 0x67
  | .claim _ _ => true
  | .announce _ _ => true
  | .join _ _ _ => true
  | .assign _ _ _ => true
  | .routePub _ _ _ _ _ _ _ _ => true
  | .claimWindowExpire => true
  | .meshPacketArrive _ pl ps => ps.all (fun x => x.pkt.wf pl) && decide ((ps.map MeshIn.inPort).Nodup)
  | .meshInject _ pl free pkt => pkt.wf pl && decide (free.Nodup)
  | .meshMulticast _ _ _ pkt => pkt.wf .dat && pkt.multi
  | .tileMap fn _ _ _ _ _ _ => fn.wf
  | .tileUnmap fn _ _ _ _ => fn.wf
  | .tileProtect fn _ _ _ _ _ => fn.wf
  | .tileGrant fn _ _ _ _ _ _ _ => fn.wf
  | .tileRevoke fn _ _ _ _ => fn.wf
  | .tileMigrate fn _ _ _ _ => fn.wf
  | .tileReturn _ _ => true
  | .migrationPassDone _ => true
  | .migrationFinalPass _ => true
  | .migrationBlockCopied _ _ => true
  | .migrationRelease _ => true
  | .dramReadComplete _ _ e => e.wf
  | .dramWriteComplete _ _ e => e.wf
  | .refreshDue tier ch bank => decide (ch < channelsOf tier ∧ bank < banksOf tier)
  | .refreshDebtExpire tier ch bank => decide (ch < channelsOf tier ∧ bank < banksOf tier)
  | .rankPowerDown tier ch rank => decide (ch < channelsOf tier ∧ rank < ranksOf tier)
  | .rankWake tier ch rank => decide (ch < channelsOf tier ∧ rank < ranksOf tier)
  | .tierSleep fn _ => fn.wf
  | .tierWake fn _ => (match fn with | some f => f.wf | none => true)
  | .tierWakeDone _ => true
  | .rateApply fn => fn.wf
  | .rateApplyDone _ => true
  | .ceWindowStart => true
  | .chSuspectClear fn tier w => fn.wf && decide (w.ch < channelsOf tier)
  | .agentRelease fn _ _ => fn.wf
  | .agentSweepDone _ => true
  | .snoopTimeout _ => true
  | .tileRecall _ _ _ => true
  | .dirLkEntryRead fn => fn.wf
  | .queueCreate fn _ _ _ _ _ _ _ _ _ _ => fn.wf
  | .queueDestroy fn _ _ _ => fn.wf
  | .queueQuery fn _ _ _ => fn.wf
  | .sqDoorbell fn _ _ => fn.wf
  | .cqHeadWrite fn _ _ => fn.wf
  | .qAbort fn _ _ => fn.wf
  | .descriptorFetch _ h => h.hasLength 64
  | .copy _ _ => true
  | .fill _ _ => true
  | .gather _ _ => true
  | .scatter _ _ => true
  | .mcastPush _ _ => true
  | .migrate _ _ => true
  | .scrub _ _ errs => errs.all (fun e => e.2.wf)
  | .voxelSample _ _ => true
  | .rulebookBuild _ _ => true
  | .siteLookup _ _ => true
  | .launch _ _ => true
  | .loadFrames _ _ => true
  | .readback _ _ => true
  | .stop _ _ => true
  | .commandFinish _ _ => true
  | .completionCommit _ _ => true
  | .queueStopped _ => true
  | .launchStart _ _ => true
  | .computeUnitFire _ _ => true
  | .steeringUnitFire _ _ => true
  | .scalarUnitFire _ => true
  | .memoryUnitAccess _ _ _ _ => true
  | .launchDone _ _ => true
  | .launchCommit _ _ => true
  | .launchTimeout _ _ => true
  | .arrayStall _ _ => true
  | .arrayQuery fn _ _ => fn.wf
  | .loadStart _ _ => true
  | .select _ => true
  | .claimDirective _ => true
  | .frames _ => true
  | .maps _ => true
  | .clear _ => true
  | .pad _ => true
  | .endStream _ => true
  | .readbackCheck upsets _ => decide upsets.Nodup
  | .readbackEnable fn w => fn.wf && w.wf && decide (w.off = 0x840004)
  | .trngTestFail _ _ => true
  | .drbgReseed => true
  | .tamper _ => true
  | .getVersion _ => true
  | .getCapabilities _ => true
  | .negotiateAlgorithms _ => true
  | .getDigests _ => true
  | .getCertificate _ _ _ _ => true
  | .challenge _ _ _ nonce => decide (nonce.length = 32)
  | .getMeasurements _ _ _ nonce => decide (nonce.length = 32)
  | .spdmUnsupportedRequest _ _ => true
  | .hello _ h => h.wf
  | .hsCert _ _ bytes => decide (1 ≤ bytes.length ∧ bytes.length ≤ 240)
  | .verify _ sig => decide (sig.length = 96)
  | .finish _ mac => decide (mac.length = 48)
  | .hsAbort _ _ => true
  | .attestReq _ _ _ nonce => decide (nonce.length = 32)
  | .hsSignatureDone _ => true
  | .hsResend _ => true
  | .hsTimeout _ => true
  | .linkPin fn _ _ _ hash => fn.wf && decide (hash.length = 48)
  | .mbxUnknownOpcode fn _ opcode => fn.wf && !mailboxOpcode opcode.toNat
  | .imageWrite fn _ _ _ length _ h => fn.wf && h.hasLength length.toNat
  | .telemetryRead fn _ => fn.wf
  | .faultLogRead fn _ _ _ => fn.wf
  | .evRingEnable fn w => fn.wf && w.wf && decide (w.off = 0xF00018) && bit w.val 31
  | .evRingDisable fn w => fn.wf && w.wf && decide (w.off = 0xF00018) && !bit w.val 31
  | .evHeadWrite fn w => fn.wf && w.wf && decide (w.off = 0xF00020)
  | .pfFlr _ => true
  | .vfEnableClear _ => true
  | .pwrCapWrite fn w => fn.wf && w.wf && decide (w.off = 0xF80000)
  | .powerTokenAllocation _ ds => decide ((ds.map Demand.consumer).Nodup)
  | .thermalStep _ _ => true
  | .telemetryRefresh _ => true
  | .smbState _ => true
  | .smbTemp _ => true
  | .smbPower _ => true
  | .smbBmcCapRead => true
  | .smbBmcCapWrite _ _ => true
  | .smbEvent _ => true
  | .smbSerial _ => true
  | .smbFwVersion _ => true
  | .smbUnknownCode code => !smbCode code.val
  | .monitorVer => true
  | .monitorState => true
  | .monitorRd _ _ => true
  | .monitorLog _ => true
  | .monitorTel => true
  | .monitorLinks => true
  | .monitorHelp => true
  | .monitorBadLine _ => true
  | .sramUncorrectable _ => true
  | .watchdogExpire _ _ => true
  | .processorRestartDone _ => true
  | .tachEdge _ _ => true
  | .symbolLock _ _ => true
  | .reservedOpcodeDiscard _ cls m => m.wf && !opOfClass cls m.opcode.toNat && decide (cls ≠ .req)
  | .imageWriteDone _ => true
  | .doeDiscovery _ _ => true

end Sys2Proof
end

