-- ==== Sys2Proof/Tests/Slice0.lean ====
section
/-! SUPPORT. The tests: terms that WellFormed refuses, the spec's worked examples, and for every statement with hypotheses a state and
operands that meet them together (one theorem a statement, one conjunct a clause). -/

namespace Sys2Proof.Machine

section
-- One thread: the kernel evaluations below would otherwise each take a thread of their own.
set_option Elab.async false

/-! ## Small states and operands -/

/-- The entry of a VALID near tile of tenant 1. -/
def tileW (phys : Nat) : BitVec 64 := tileEntWord { keyT := 1, phys }

/-- A node in service: partition 0 of host port 0 with tenant 1 live on virtual function 1, two tiles, a stream, an EFP port UP to endpoint 9. -/
def sv : State := { State.reset with
  clk := { locked := true, now := 1000 }, nid := { state := .ready, serial := 7 }, cfg := { loaded := true }
  parts := [(0, { valid := true, tenantQuota := 4, colCount := 4, streamQuota := 4, nearQuota := 8, bulkQuota := 8, qMove := 4, qScrub := 4
                  qVoxel := 4, qArray := 4, nearUsed := 2 })]
  tenants := [(1, { state := .live, vf := 1, key := some 5 })]
  insts := [(1, { shadow := [(0, tileW 3), (1, tileW 4)], active := [(0, tileW 3), (1, tileW 4)] }), (129, { active := [(0, 0x80000009)] }),
            (257, { active := [(18, 1), (19, 0x80000000)] }),
            (259, { shadow := [(10, strCfgWord 1 9), (11, strLimWord 4 100)], active := [(10, strCfgWord 1 9), (11, strLimWord 4 100)] })]
  streams := [(5, { alloc := true, tenant := 1, windowNow := 2, rampBase := 984 })]
  ports := [(0, { state := .up })], xpt := { endpoint := 1 }
  til := { uses := [(3, .owned 1 0), (4, .owned 1 0)], nearAll := 16, bulkAll := 16 }
  hosts := [(0, { retry := false })] }

def fn0 : Fn := { port := 0 }
def mb (n : Nat) : MbxHdr := { tag := 1, length := BitVec.ofNat 32 n }

/-- A request of tenant 1 for two bytes of its first tile, accepted and being served. -/
def rqMsg : Msg := { opcode := 0x03, dst := 1, src := 9, tenant := 1, stream := 5, rseq := 1, len := 2 }
def rq : OReq := { id := 0, port := 0, msg := rqMsg, expiry := some 1000, keyT := 1, phys := 3 }

/-- A fresh flash device: a boot log with one attempt on slot 0, the rest erased. -/
def fl : FlashDev := { cells := [(15728640, 0x3C)] }
/-- The same with a valid header in settings slot 0. -/
def hdr0 : SetSlot := { version := 1, sequence := 1, length := 16, aad := setHead 1 1 16 0, nonce := List.replicate 12 0, tag := List.replicate 16 0 }
def flSet : FlashDev :=
  let h := hdr0.aad ++ List.replicate 40 0
  { fl with cells := fl.cells ++ (h ++ leBytes 4 (crc32 h).toNat).mapIdx fun i b => (setBase fl 0 + i, b) }
def otp0 : Otp := { serial := 7, idHash := [], fwKeyHash := [] }
/-- A node in BOOT, SELFTEST or TRAINING after its core clock has locked. -/
def st (x : NodeState) : State := { State.reset with
  nid := { state := x }, clk := { locked := true }, boot := { State.reset.boot with otp := some otp0, flash := some fl, meshDone := true } }
/-- The node in service with its SMBus controller up and one event word waiting. -/
def nt (tries : Nat) (lost : Bool) : State := { sv with sbd := { sv.sbd with smbCfg := 2, fifo := [5], hnTries := tries, hnLost := lost, alert := true } }
def pn (x : Pin) (f : BitVec 64) : State := { sv with sbd := { sv.sbd with pins := [(3, x)] }, insts := [(260, { active := [(3, f)] })] }

/-- A frame of zeros with its CRC; a node in service whose port 0 is as given. -/
def fr (ft : BitVec 4) (q : BitVec 12) : Frame := sealFrame { hdr := { ftype := ft, seq := q, vc := if ft = 0 then 0 else 4 }, payload := List.replicate 256 0 }
def pt (x : Port) : State := { sv with ports := [(0, x)] }
def pr0 : Params := { modeReq := 0, window := 64, epoch := 3, rxNext := 0, isSealed := 0 }
def tx0 : TxItem := { vc := 0, bytes := [1, 2] }

/-- The node in service with another first tile, and with a directory entry of that tile's first line held by agents 0 (endpoint 9) and 1. -/
def te : TileEnt := { keyT := 1, phys := 3 }
def teC : TileEnt := { keyT := 1, phys := 3, coherent := true }
def svi (e : TileEnt) : State := { sv with insts := (1, { shadow := [(0, tileEntWord e), (1, tileW 4)], active := [(0, tileEntWord e), (1, tileW 4)] }) :: sv.insts.tail }
def svd (st : DirSt) (ptrs : List Nat) (trks : List Trk) : State := { svi teC with
  dir := { agents := [(0, some 9), (1, some 8)], ents := [(24576, { st, line := 49152, ptrs, keyT := 1 })], trks } }
def tk (st : TrkSt) (as : List Nat) : Trk := { slot := some 24576, st, tier := .near, line := 49152, waits := as.map fun a => { agent := a, expiry := 1100 }, keyT := 1 }
/-- Messages of tenant 1's stream: a line request, and an answer with the entry's handle. -/
def rqLine : Msg := { rqMsg with len := 128 }
def m61 : Msg := { rqMsg with opcode := 0x61, dst := 7 }
def hdl : Msg := { opcode := 0x41, dst := 1, src := 9, len := 24576 }
def clm (n : Word) (k : BitVec 64) : Claim := { prio := 3, nonce := n, serial := k }
def el (e : Elect) : State := { sv with xpt := { sv.xpt with elect := e } }
def mp (d : Fin 192) : MeshPkt := { dest := d, src := 20 }

def dr (q : List MemOp) : State := { sv with dram := { sv.dram with queue := q, near := { sv.dram.near with order := [0] }, bulk := { sv.dram.bulk with order := [0] } } }
def sv2 : State := { sv with tenants := [(1, { state := .live, vf := 1, key := some 5 }), (2, { state := .live, vf := 2, key := some 6 })]
                             insts := sv.insts.take 1 ++ [(2, { shadow := [(5, tileEntWord { te with shared := true })] })] ++ sv.insts.drop 1 }
def mg (m : Mig) : State := { sv with til := { sv.til with migs := [(0, m)] } }

/-- The node in service with one engine queue as given. -/
def qd (k : Nat) (x : Queue) : State := { sv with eng := { sv.eng with queues := [(k, x)] } }
/-- A queue of tenant 1's second tile: an ACTIVE ring of 16 entries with these commands. -/
def q1 (cls : Nat) (cs : List Cmd) : Queue := { state := 1, cls, n := 4, sqBase := 0x200000, cqBase := 0x201000, cmds := cs }
def cm (op len src dst : Nat) (ops : List Byte) : Cmd := { idx := 0, desc := { opcode := op, len, src, dst, ops } }

/-- Column 0 of the array in a state, with tenant 1's queue, launches and loaders. -/
def ar (x : ColSt) (cs : List Cmd) (rs : List Launch) (ls : List Loader) : State :=
  { qd 8 (q1 3 cs) with arr := { sv.arr with cols := [(0, { state := x, tenant := 1, count := 1 })], runs := rs, loaders := ls } }
/-- A launch on column 0, with an entry on every input of one unit. -/
def ln (unit : Nat) : Launch := { q := .tenant 1 0, idx := 0, tenant := 1, part := 0, first := 0, count := 1
                                  queues := (List.range 16).map fun p => (inKey unit p, [1]) }
/-- A design loader with words delivered. -/
def ld (leader : Bool) (ws : List Word) : Loader := { id := .design, tenant := 0xFF, words := ws, leader }
def accB (a : Acc (List Byte)) : List Byte := match a with
  | .ok b _ => b
  | _ => []
def accS (a : Acc (List Byte)) (s : State) : State := match a with
  | .ok _ t => t
  | _ => s

/-- A node in service whose port 0 is in a handshake; one whose monitor is on and whose processors have started. -/
def hs (h : Hs) : State := { sv with flt := { sv.flt with wd := [(0, { started := true }), (1, { started := true }), (2, { started := true }), (3, { started := true }), (4, { started := true })] }
                                     ports := [(0, { state := .train, attempting := true, cfg := 0x0888004A, use := 0x0888004A, ackSent := true, ackGot := true
                                                     peer := some { pr0 with isSealed := 1 }, hs := { h with active := true } })] }
def he0 : Hello := { version := 1, chainLen := 4, random := List.replicate 32 1, pubKey := List.replicate 97 4 }
def mn : State := { hs {} with sbd := { sv.sbd with straps := { monitorEn := true } } }

/-- A sealed frame of 256 payload bytes passes its CRC. -/
theorem crcOk_seal (f : Frame) (h : f.payload.length = 256) : crcOk (sealFrame f) = true := by
  simp [crcOk, sealFrame, frameBytes, h]
theorem crcOk_fr (ft : BitVec 4) (q : BitVec 12) : crcOk (fr ft q) = true := crcOk_seal _ (List.length_replicate)
theorem crcOk_with (ft : BitVec 4) (q : BitVec 12) (h : FrameHdr) : crcOk (sealFrame { fr ft q with hdr := h }) = true := crcOk_seal _ (List.length_replicate)

/-- A voxel command of 16 bytes on tenant 1's queue, what clearing its scratch and reading its source give. -/
def vc (op : Nat) (ops : List Byte) : Cmd := cm op 16 0 4096 (leBytes 8 (8192 + 12) ++ ops)
def vst (c : Cmd) : State := qd 8 { q1 2 [c] with inst := 1 }
def vtk (c : Cmd) : State := tookUp (vst c) (.tenant 1 0) c
def vcl (c : Cmd) : Nat × Reach × Cmd × State :=
  writeSome (.tenant 1 0) 2 (2 ^ voxLog c.desc) (voxBase c.desc) ((List.range (2 ^ voxLog c.desc)).map fun i => Config.scratchByte (vtk c).serialNo i) 0
    { c with phase := .running } { vtk c with serialNo := (vtk c).serialNo + 1 }
def vclC (c : Cmd) : Cmd := leaveTiles { (vcl c).2.2.1 with vox := { (vcl c).2.2.1.vox with cleared := (vcl c).1 } }
def vrd (n : Nat) (c : Cmd) : Reach × Cmd × State := voxRead (.tenant 1 0) n (vclC c) (vcl c).2.2.2
def vsample : Cmd := vc 0x20 (leBytes 8 16 ++ leBytes 8 0 ++ leBytes 4 0x3F800000 ++ leBytes 4 0x3F800000 ++ leBytes 4 0x3F800000)
def vrules : Cmd := vc 0x21 (leBytes 4 4096 ++ [1, 1, 1, 0, 8, 1])
def vlook : Cmd := vc 0x22 (leBytes 4 16 ++ leBytes 8 16384 ++ leBytes 4 2 ++ [8])
def vrd2 : List Byte × Reach × Cmd × State :=
  readSome (.tenant 1 0) 0 (8 * descOp vlook.desc 0x2C 4) (descOp vlook.desc 0x24 8) (8 * descOp vlook.desc 0x2C 4) []
    (leaveTiles (vrd 8 vlook).2.1) (vrd 8 vlook).2.2
def reachDone : Reach → Bool
  | .done => true
  | _ => false
theorem pair_eq {α : Type} (x : Reach × α) (h : reachDone x.1 = true) : x = (.done, x.2) := by
  obtain ⟨r, y⟩ := x
  cases r <;> simp_all [reachDone]
theorem triple_eq {α β : Type} (x : β × Reach × α) (h : reachDone x.2.1 = true) : x = (x.1, .done, x.2.2) := Prod.ext rfl (pair_eq x.2 h)

theorem quad_eq {α β γ : Type} (x : β × Reach × α × γ) (h : reachDone x.2.1 = true) : x = (x.1, .done, x.2.2.1, x.2.2.2) := triple_eq x h
theorem vcl_cleared (c : Cmd) (h : reachDone (vcl c).2.1 = true) :
    scratchCleared (vtk c) (.tenant 1 0) { c with phase := .running } (vcl c).2.2.2 (vclC c) :=
  ⟨(vcl c).1, (vcl c).2.2.1, triple_eq (vcl c) h, rfl⟩

theorem vrd_done (n : Nat) (c : Cmd) (h : reachDone (vrd n c).1 = true) :
    voxRead (.tenant 1 0) n (vclC c) (vcl c).2.2.2 = (.done, (vrd n c).2.1, (vrd n c).2.2) := pair_eq (vrd n c) h
theorem vrd2_done (h : reachDone vrd2.2.1 = true) :
    readSome (.tenant 1 0) 0 (8 * descOp vlook.desc 0x2C 4) (descOp vlook.desc 0x24 8) (8 * descOp vlook.desc 0x2C 4) []
      (leaveTiles (vrd 8 vlook).2.1) (vrd 8 vlook).2.2 = (vrd2.1, .done, vrd2.2.2.1, vrd2.2.2.2) := quad_eq vrd2 h

/-- A launch command taken up, and what reading its arguments gives. -/
def claunch : Cmd := { cm 0x30 16 0 0 [0, 1] with phase := .running, turn := some 1 }
def lread : Acc (List Byte) := engReadAll (.cmd (.tenant 1 0) 0) 1 0 256 0 16 (ar .loaded [claunch] [] [])
def lrun : Launch := { q := .tenant 1 0, idx := 0, tenant := qTen (.tenant 1 0), part := qPart (ar .loaded [claunch] [] []) (qNum (.tenant 1 0))
                       first := colFirst claunch, count := colCount claunch
                       args := wordsOf (accB lread) ++ List.replicate (64 - (wordsOf (accB lread)).length) 0 }
def accOk (a : Acc (List Byte)) : Bool := match a with
  | .ok _ _ => true
  | _ => false
theorem acc_ok {a : Acc (List Byte)} (s : State) (h : accOk a = true) : a = .ok (accB a) (accS a s) := by
  cases a <;> simp_all [accOk, accB, accS]

/-- The first 16 bytes of tenant 1's first tile, just written. -/
theorem bytesAt_writeLine (x : Line) (s : State) : bytesAt (writeLine 1 .near 49152 x s) te 0 16 = (x.toList.drop 0).take 16 := by
  have h : lineAt te 0 = 49152 := by decide
  rw [bytesAt, h]
  exact congrArg (fun y : Line => (y.toList.drop 0).take 16) (plain_writeLine 1 .near 49152 x s)

/-- With an entry of group 1 in the multicast table that writes to tenant 1's first tile. -/
def mcS (s : State) : State := { s with insts := s.insts.take 3 ++ [(258, { active := [(17, 0xC0000001), (18, 0), (19, 0)] })] ++ s.insts.drop 3 }

/-! ## Terms that the checks of WellFormed refuse, one for each check -/

def wr (off : Nat) (size : Nat) : RegWr := { off, size, val := 0 }
def badFn : Fn := { port := 0, vf := 33 }
def longMsg : Msg := { rqMsg with opcode := 1, data := List.replicate 129 0 }
def pkt64 : MeshPkt := { dest := 1, src := 0, payload := List.replicate 64 0 }

theorem test_wf_refuses_functions_and_writes :
    ([.tenantQuery badFn (mb 1) 0, .tierWake (some badFn) .near, .registerWrite fn0 { toRegWr := wr (2 ^ 26) 4 }, .registerWrite fn0 { toRegWr := wr 0 3 },
      .registerPairLowRead fn0 (2 ^ 26) 4, .registerPairLowRead fn0 0 16, .slipClr fn0 (wr 0 4) [], .readbackEnable fn0 (wr 0 4),
      .evRingEnable fn0 (wr 0xF00018 4), .evRingEnable fn0 (wr 0 4), .evRingDisable fn0 (wr 0 4), .evHeadWrite fn0 (wr 0 4),
      .pwrCapWrite fn0 (wr 0 4), .vfFlr 0 0, .vfFlr 0 33, .mbxUnknownOpcode fn0 (mb 0) 0x0101] : List Instr).all (fun i => !i.wf) = true := by
  decide +kernel

theorem test_wf_refuses_messages_and_frames :
    ([.rdShared 0 longMsg, .rdUnique 0 rqMsg, .atOp 0 { rqMsg with opcode := 8, opargs := List.replicate 11 0 }, .reqReserved 0 rqMsg,
      .forward 0 .rsp rqMsg, .reservedOpcodeDiscard 0 .rsp { rqMsg with opcode := 0x41 }, .reservedOpcodeDiscard 0 .req { rqMsg with opcode := 0xFF },
      .data 0 { hdr := { ftype := 0 }, payload := [0] } true, .replayReq 0 { hdr := { ftype := 0 }, payload := [0] }] : List Instr).all (fun i => !i.wf) = true := by
  decide +kernel

theorem test_wf_refuses_lengths :
    ([.hello 0 { he0 with random := [] }, .hello 0 { he0 with pubKey := [] }, .hsCert 0 0 [], .hsCert 0 0 (List.replicate 241 0), .verify 0 [],
      .finish 0 [], .linkPin fn0 (mb 0) 0 0 [], .challenge 0 0 0 [], .getMeasurements 0 0 0 [], .attestReq 0 0 0 [], .descriptorFetch (.admin 0) (.data []),
      .imageWrite fn0 (mb 0) 0 0 4 0 (.data []), .flashDiscovery (some { log2 := 33 }), .flashDiscovery (some { log2 := 24, cells := [(2 ^ 24, 0)] }), .otpRead (some otp0),
      .ddrTraining [] []] : List Instr).map Instr.wf = List.replicate 16 false := by
  decide +kernel

theorem test_wf_refuses_numbers_the_node_has_not :
    ([.refreshDue .near 256 0, .refreshDue .bulk 0 32, .refreshDebtExpire .near 0 64, .rankPowerDown .near 0 4, .rankWake .bulk 16 0,
      .chSuspectClear fn0 .bulk { ch := 16 }, .smbUnknownCode ⟨false, 6⟩, .dramReadComplete .near 0 { miscorrected := true }] : List Instr).all (fun i => !i.wf) = true := by
  decide +kernel

theorem test_wf_refuses_repeats_and_packets :
    ([.slipClr fn0 (wr 0x10014 4) [.fmp, .fmp], .hbmTraining [(0, 1), (0, 2)], .readbackCheck [1, 1] 0, .meshInject 0 .dat [.xPlus, .xPlus] pkt64,
      .meshInject 0 .dat [] { pkt64 with payload := List.replicate 65 0 }, .meshPacketArrive 0 .dat [⟨pkt64, 1, .clean, false, false⟩, ⟨pkt64, 1, .clean, false, false⟩],
      .meshMulticast true 0 0 pkt64, .meshInject 0 .req [] pkt64, .meshInject 0 .req [] { dest := 1, src := 0, multi := true }, .powerTokenAllocation 0 [⟨1, 0, 0⟩, ⟨1, 5, 5⟩]] : List Instr).all (fun i => !i.wf) = true := by
  decide +kernel

theorem test_wf_accepts :
    ([.registerWrite fn0 { toRegWr := wr 0 4 }, .rdShared 0 { rqMsg with opcode := 1 }, .hello 0 he0, .refreshDue .near 255 63, .forward 0 .req rqMsg,
      .meshInject 0 .dat [.xPlus] pkt64, .meshMulticast true 0 1 { pkt64 with multi := true }, .vfFlr 3 32] : List Instr).all Instr.wf = true := by
  decide +kernel

/-! ## The spec's worked examples, and two published values -/

/-- Chapter 1, one tenant read: the tile number and the line of address 0x0003_2A40_0180. -/
theorem test_address_split : tileOf 0x00032A400180 = 0x1952 ∧ lineIdx 0x00032A400180 = 3 := by decide

def near256 : State := { State.reset with dram := { State.reset.dram with near := { State.reset.dram.near with order := fullOrder .near } } }
def near255 : State :=
  { near256 with dram := { near256.dram with near := { near256.dram.near with order := (fullOrder .near).filter (· ≠ 172) } } }

/-- Chapter 10, one line placed: channel 0, row 6,080, bank group 0, bank 2, stack ID 3. -/
theorem test_line_placed : placeLine near256 .near 1594064899 = (0, 6226819) ∧ locate near256 .near 1594064899 = (3, 3 * 32 + 8, 6080) := by
  decide +kernel

/-- Chapter 10: without stack 5 channel 12 the line falls on channel 11 of stack 4. -/
theorem test_line_placed_on_255_channels : (placeLine near255 .near 1594064899).1 = 4 * 32 + 11 := by decide +kernel

/-- Chapter 8, a station fused off: from (12, 5) the packet first goes Y− to its waypoint, then X−. -/
theorem test_waypoint :
    let s : State := { State.reset with msh := { State.reset.msh with disabled := [91] } }
    productive s 92 { dest := 89, src := 92, waypoint := some 76 } = [.yMinus] ∧ productive s 76 { dest := 89, src := 92 } = [.xMinus, .yPlus] := by
  decide +kernel

/-- Table 13.7: the quantised coordinates of 1.2, 0.9, 1.5, 0.0 and −20,000.0 at a size of 0.5. -/
theorem test_quantisation :
    [0x3F99999A, 0x3F666666, 0x3FC00000, 0, 0xC69C4000].map (fun p => voxCoord p 0 0x3F000000) = [some 2, some 1, some 3, some 0, none] := by
  decide +kernel

/-- The sites A to D of chapter 13's example. -/
def sites4 : List Site := [(2, 0, 0), (1, 0, 0), (3, 0, 0), (1, 1, 0)]

/-- Table 13.8: the pairs of layer 1. -/
theorem test_layer1_pairs :
    (kernel (3, 3, 1)).map (pairsAt (1, 1, 1) (firsts sites4 0 []) sites4) =
      [[], [(1, 3)], [(0, 3)], [(0, 2), (1, 0)], [(0, 0), (1, 1), (2, 2), (3, 3)], [(0, 1), (2, 0)], [(3, 0)], [(3, 1)], []] := by
  decide +kernel

/-- Chapter 13, layer 2: the output sites in the order found, and the pairs. -/
theorem test_layer2_outputs :
    let outs : List Site := [(1, 0, 0), (0, 0, 0), (2, 0, 0), (1, 1, 0), (0, 1, 0)]
    findOutputs 2048 (2, 2, 1) sites4 (sites4.flatMap fun i => (kernel (3, 3, 1)).map fun k => (i, k)) [] 0 = some (outs, 0) ∧
      (kernel (3, 3, 1)).map (pairsAt (2, 2, 1) (firsts sites4 0 []) outs) =
        [[(3, 3)], [], [(3, 4)], [(1, 0), (2, 2)], [(0, 0)], [(1, 1), (2, 0)], [(3, 0)], [], [(3, 1)]] := by
  decide +kernel

/-- The catalogued check value of the CRC-64 with this polynomial, seed and final complement, over the digits 1 to 9. -/
theorem test_crc64 : crc64 [0x31, 0x32, 0x33, 0x34, 0x35, 0x36, 0x37, 0x38, 0x39] = 0x62EC59E3F1A4F00A := by decide +kernel

/-- IEEE 754: 1.5 + 2.25 = 3.75, 1.0 / 3.0 rounded to nearest even. -/
theorem test_fp32 : fpSub fp32 0x3FC00000 0xC0100000 = some 0x40700000 ∧ fpDiv fp32 0x3F800000 0x40400000 = some 0x3EAAAAAB := by decide +kernel

/-! ## Witnesses: states and operands that meet the hypotheses of each statement -/

/-- A node in FATAL. -/
def fatalS : State := { sv with nid := { sv.nid with state := .fatal } }

theorem test_commands_stay_in_their_areas : ∃ (c : Instr) (s t : State), exec c s = .next t := ⟨.porNFall, sv, _, rfl⟩
theorem test_pool_memory_form_is_kept : ∃ s t : State, memOk s ∧ step s = .next t :=
  ⟨{ sv with dram := { sv.dram with mem := [(128, 7)] }, pending := [.porNFall] }, _, by unfold memOk; decide +kernel, rfl⟩
theorem test_fatal_holds_until_por_n :
    (∃ (c : Instr) (s t : State), s.nid.state = .fatal ∧ c ≠ .porNFall ∧ c ≠ .vddAuxRemoval ∧ exec c s = .next t) ∧
    (∃ s : State, s.latching = true) :=
  ⟨⟨.courseBoundary, fatalS, _, by decide +kernel, nofun, nofun, rfl⟩,
   { fatalS with flt := { fatalS.flt with fatalAt := some (ageNow fatalS) } }, by decide +kernel⟩
theorem test_request_numbers_stay_fresh : ∃ s t : State, reqsFresh s ∧ step s = .next t :=
  ⟨{ sv with serialNo := 1, reqs := [rq], pending := [.porNFall] }, _, by decide +kernel, rfl⟩

/-! ## Ciphers and digests by their published vectors -/

/-- The key 00 01 … 1F of FIPS 197, appendix C.3. -/
def key32 : BitVec 256 := BitVec.ofNat 256 (ofLeBytes ((List.range 32).map (BitVec.ofNat 8)))

/-- FIPS 197, appendix C.3: AES-256 of the block 00 11 … FF. -/
theorem test_aes256 : (List.range 16).map ((aesWith (roundKeys key32)) (mkBlk fun i => BitVec.ofNat 8 (17 * i))).byte =
    beBytes 16 0x8ea2b7ca516745bfeafc49904b496089 := by decide +kernel

/-- FIPS 180-4's SHA-384 of "abc". -/
theorem test_sha384 : sha384 [0x61, 0x62, 0x63] =
    beBytes 48 0xcb00753f45a35e8bb5a03d699ac65007272c32ab0eded1631a8b605a43ff5bed8086072ba1e7cc2358baeca134c825a7 := by decide +kernel

/-- GCM's published cases 13 and 14: the tag of nothing, the text and the tag of one zero block, under the zero key and nonce. -/
theorem test_gcm : gcmTag (roundKeys 0) 0 [] = beBytes 16 0x530f8afbc74536b9a963b4f1c4cb738b ∧
    gcmXor (roundKeys 0) 0 (List.replicate 16 0) = beBytes 16 0xcea7403d4d606b6e074ec5d3baf39d18 ∧
    gcmTag (roundKeys 0) 0 (beBytes 16 0xcea7403d4d606b6e074ec5d3baf39d18) = beBytes 16 0xd0d1c8a799996bf0265b98b5d48ab919 := by
  decide +kernel

theorem test_step_runs_front_command :
    (∃ (s : State), (s.pending = [])) :=
  ⟨sv, by decide +kernel⟩

theorem test_mis_sized_access_is_discarded :
    (∃ (s : State) (fn : Fn) (w : RegWr), hostUp s fn = true ∧ s.takesHost = true ∧ mayWrite s fn w.off = true ∧ fn.vf = 0 ∧ ((w.size ≠ 4 ∨ w.off % 4 ≠ 0)) ∧ (queueAt s fn (w.off / 4 * 4) = none)) ∧
    (∃ (s : State) (fn : Fn) (w : RegWr) (q : QId) (r : Nat), hostUp s fn = true ∧ s.takesHost = true ∧ mayWrite s fn w.off = true ∧ ((w.size ≠ 4 ∨ w.off % 4 ≠ 0)) ∧ (queueAt s fn (w.off / 4 * 4) = some (q, r))) ∧
    (∃ (s : State) (fn : Fn) (off : Nat) (size : Nat), hostUp s fn = true ∧ ((size ≠ 4 ∨ off % 4 ≠ 0))) :=
  ⟨⟨sv, fn0, { off := 0x10011, size := 4, val := 0 }, by decide +kernel⟩,
   ⟨sv, fn0, { off := 0x710204, size := 2, val := 0 }, .tenant 1 0, 4, by decide +kernel⟩,
   ⟨sv, fn0, 0x10, 8, by decide +kernel⟩⟩

theorem test_status_bits_clear_by_writing_one :
    (∃ (s : State) (fn : Fn), (adminBus s fn)) :=
  ⟨sv, fn0, by decide +kernel⟩

theorem test_writable_registers_take_their_defined_bits :
    (∃ (s : State) (fn : Fn), (adminBus s fn)) :=
  ⟨sv, fn0, by decide +kernel⟩

theorem test_register_pairs_move_together :
    (∃ (s : State) (fn : Fn) (v : Word), (adminBus s fn) ∧ ((s.host fn.port).evOn = false) ∧ bits v 11 0 = 0) ∧
    (∃ (s : State) (fn : Fn), (adminBus s fn) ∧ ((s.host fn.port).evOn = false)) ∧
    (∃ (s : State) (fn : Fn) (off : Nat), hostUp s fn = true ∧ (off % 4 = 0) ∧ pairLow s fn off = true ∧ answers s fn off = true) ∧
    (∃ (s : State) (fn : Fn) (off : Nat), hostUp s fn = true ∧ answers s fn off = false) ∧
    (∃ (s : State) (fn : Fn) (off : Nat) (w : Word), hostUp s fn = true ∧ (off % 4 = 0) ∧ pairLow s fn off = true ∧ (pairLow s fn (off + 4) = false) ∧ (answers s fn (off + 4) = true) ∧ (Tbl.get none (s.host fn.port).capture (pairKey fn off) = some w)) :=
  ⟨⟨sv, fn0, 0x12345000, by decide +kernel⟩,
   ⟨sv, fn0, by decide +kernel⟩,
   ⟨sv, fn0, 0x10000, by decide +kernel⟩,
   ⟨{ sv with nid := { sv.nid with state := .fatal } }, fn0, 0x10000, by decide +kernel⟩,
   ⟨{ sv with hosts := [(0, { retry := false, capture := [(0x10000, some 9)] })] }, fn0, 0x10000, 9, by decide +kernel⟩⟩

theorem test_table_writes_go_to_the_shadow :
    (∃ (s : State) (fn : Fn) (off : Nat) (i : Nat) (k : Nat) (v : Word), (adminBus s fn) ∧ (tableSlot off = some (i, k)) ∧ pairWritable s fn off = none ∧ (i ≠ streamInst) ∧ ((128 ≤ i ∧ i < 256 → (s.tenant (i - 128)).state = .live)) ∧ slotOk i k v = true) ∧
    (∃ (s : State) (fn : Fn) (off : Nat) (i : Nat) (k : Nat) (v : Word), (adminBus s fn) ∧ (tableSlot off = some (i, k)) ∧ pairWritable s fn off = none ∧ (i = streamInst ∨ ((128 ≤ i ∧ i < 256 → (s.tenant (i - 128)).state = .live) ∧ slotOk i k v = false))) ∧
    (∃ (s : State) (fn : Fn) (off : Nat) (i : Nat) (v : Word), (adminBus s fn) ∧ (genWordAt off = some (i, false)) ∧ bit v 31 = true ∧ ((128 ≤ i ∧ i < 256 → (s.tenant (i - 128)).state = .live))) ∧
    (∃ (s : State) (fn : Fn) (off : Nat) (t : Nat) (k : Nat), hostUp s fn = true ∧ s.takesHost = true ∧ mayWrite s fn off = true ∧ fn.vf = 0 ∧ (t < 128) ∧ (tableSlot off = some (128 + t, k)) ∧ ((s.tenant t).state ≠ .live)) ∧
    (∃ (s : State) (fn : Fn) (off : Nat) (t : Nat) (d : Bool), hostUp s fn = true ∧ s.takesHost = true ∧ mayWrite s fn off = true ∧ fn.vf = 0 ∧ (t < 128) ∧ (genWordAt off = some (128 + t, d)) ∧ ((s.tenant t).state ≠ .live)) :=
  ⟨⟨sv, fn0, 0x204000, 256, 0, 0x80000001, by decide +kernel⟩,
   ⟨sv, fn0, 0xB00040, 260, 0, 0xF, by decide +kernel⟩,
   ⟨sv, fn0, 0x401008, 1, 0x80000000, by decide +kernel⟩,
   ⟨sv, fn0, 0x28A00, 5, 0, by decide +kernel⟩,
   ⟨sv, fn0, 0x28B00, 5, false, by decide +kernel⟩⟩

theorem test_course_clock_events :
    (∃ (s : State), s.alive = true ∧ s.clk.locked = true ∧ s.clk.packetSent = false) ∧
    (∃ (s : State), s.alive = true) ∧
    (∃ (s : State), s.alive = true ∧ s.clk.locked = true) :=
  ⟨⟨sv, by decide +kernel⟩,
   ⟨sv, by decide +kernel⟩,
   ⟨sv, by decide +kernel⟩⟩

theorem test_generations_flip_and_release :
    (∃ (s : State) (i : Fin 261), s.alive = true ∧ s.clk.locked = true ∧ ((s.inst i).retired = true) ∧ (((toFlips s).inst i).retired = false)) ∧
    (∃ (s : State) (i : Fin 261), s.alive = true ∧ s.clk.locked = true ∧ (heldAtAge (toAgeing s) i = true)) ∧
    (∃ (s : State) (i : Fin 261), s.alive = true ∧ s.clk.locked = true ∧ (canFlip (toFlips s) i = true)) ∧
    (∃ (s : State) (i : Fin 261), ((s.inst i).retired = true) ∧ inflight s i = 0) ∧
    (∃ (s : State) (i : Fin 261), heldAtAge s i = true) ∧
    (∃ (s : State) (i : Fin 261), canFlip s i = true) ∧
    (∃ (s : State), s.alive = true ∧ procWorks s .bcp = true) ∧
    (∃ (s : State), s.alive = true ∧ procWorks s .bcp = false) :=
  ⟨⟨{ sv with insts := [(258, { retired := true, old := [(1, 1)] })] }, 258, by decide +kernel⟩,
   ⟨{ sv with insts := [(258, { retired := true, flipped := true, age := 255, gen := 1, old := [(1, 1)] })], reqs := [{ rq with tags := [(258, 0)], expiry := some 2000 }] }, 258, by decide +kernel⟩,
   ⟨{ sv with insts := [(258, { commit := true, shadow := [(1, 0x80000000)] })] }, 258, by decide +kernel⟩,
   ⟨{ sv with insts := [(258, { retired := true, old := [(1, 1)] })] }, 258, by decide +kernel⟩,
   ⟨{ sv with insts := [(258, { retired := true, flipped := true, age := 256, gen := 1, old := [(1, 1)] })], reqs := [{ rq with tags := [(258, 0)], expiry := some 2000 }] }, 258, by decide +kernel⟩,
   ⟨{ sv with insts := [(258, { commit := true, shadow := [(1, 0x80000000)] })] }, 258, by decide +kernel⟩,
   ⟨{ sv with crs := { sv.crs with owed := [{ inst := 1, ops := 2 }] }, flt := { sv.flt with wd := [(0, { started := true })] } }, by decide +kernel⟩,
   ⟨{ sv with flt := { sv.flt with wd := [(0, { started := true, restarting := true })] } }, by decide +kernel⟩⟩

theorem test_slips_count_and_clear :
    (∃ (s : State) (p : Proc), s.alive = true ∧ (p ∉ s.crs.slipped) ∧ ((s.wd p.idx).held = false)) ∧
    (∃ (s : State) (fn : Fn), (adminBus s fn)) ∧
    (∃ (s : State) (fn : Fn) (v : Word) (p : Proc), (adminBus s fn) ∧ bit v p.idx = true ∧ (p ∉ s.crs.slipped) ∧ ((s.wd p.idx).held = false)) :=
  ⟨⟨sv, .fmp, by decide +kernel⟩,
   ⟨sv, fn0, by decide +kernel⟩,
   ⟨sv, fn0, 2, .fmp, by decide +kernel⟩⟩

theorem test_tenants_are_created :
    (∃ (s : State) (fn : Fn) (m : MbxHdr) (part : Byte) (vf : Byte) (t : Nat), (mbxReady s fn m 2) ∧ (part.toNat < 16) ∧ (vf.toNat ≤ 32) ∧ s.owns fn part.toNat = true ∧ ((s.part part.toNat).reset = none) ∧ vfTaken s fn.port vf.toNat = false ∧ s.trngFail = false ∧ ((tenantsIn s part.toNat).length < (s.part part.toNat).tenantQuota) ∧ (freeTenant s = some t)) ∧
    (∃ (s : State) (t : Fin 128), s.alive = true ∧ ((s.tenant t).state = .creating) ∧ procWorks s .sep = true) :=
  ⟨⟨sv, fn0, mb 2, 0, 2, 0, by decide +kernel⟩,
   ⟨{ sv with tenants := [(1, { state := .creating, owed := [{ port := 0, id := 3, opcode := 0x101, tag := 4 }] })], hosts := [(0, { retry := false, cur := some 3, busy := true })] }, 1, by decide +kernel⟩⟩

theorem test_tenants_are_destroyed :
    (∃ (s : State) (fn : Fn) (m : MbxHdr) (tenant : Byte), (mbxReady s fn m 1) ∧ tenantCheck s fn tenant.toNat false = none ∧ ((s.tenant tenant.toNat).b = none)) ∧
    (∃ (s : State) (t : Fin 128), atBoundary s = true ∧ withdrawDue s t = true) ∧
    (∃ (s : State) (t : Fin 128), s.alive = true ∧ ((s.tenant t).state = .destroying) ∧ ((s.tenant t).withdrawn = true) ∧ procWorks s .sep = true) ∧
    (∃ (s : State) (t : Fin 128) (b : Nat), atBoundary s = true ∧ ((s.tenant t).state = .destroying) ∧ ((s.tenant t).withdrawn = true) ∧ ((s.tenant t).key = none) ∧ (tenantQueues s t = []) ∧ ((s.tenant t).b = some b) ∧ (b + 1 ≤ s.clk.now)) :=
  ⟨⟨sv, fn0, mb 1, 1, by decide +kernel⟩,
   ⟨{ sv with tenants := [(1, { state := .destroying, b := some 1000 })] }, 1, by decide +kernel⟩,
   ⟨{ sv with tenants := [(1, { state := .destroying, withdrawn := true, key := some 5 })] }, 1, by decide +kernel⟩,
   ⟨{ sv with tenants := [(1, { state := .destroying, withdrawn := true, b := some 999, owed := [{ port := 0, id := 3, opcode := 0x102, tag := 4 }] })], hosts := [(0, { retry := false, cur := some 3, busy := true })] }, 1, 999, by decide +kernel⟩⟩

theorem test_queries_answer_at_once :
    (∃ (s : State) (fn : Fn) (m : MbxHdr) (tenant : Byte), (mbxTakes s fn m 1) ∧ tenantCheck s fn tenant.toNat true = none) ∧
    (∃ (s : State) (fn : Fn) (m : MbxHdr) (part : Byte), (mbxTakes s fn m 1) ∧ (part.toNat ≤ 15) ∧ (s.owns fn part.toNat = true ∨ s.isAdmin fn = true)) ∧
    (∃ (s : State) (fn : Fn) (m : MbxHdr) (part : Byte), (mbxTakes s fn m 1) ∧ (15 < part.toNat)) :=
  ⟨⟨sv, fn0, mb 1, 1, by decide +kernel⟩,
   ⟨sv, fn0, mb 1, 15, by decide +kernel⟩,
   ⟨sv, fn0, mb 1, 16, by decide +kernel⟩⟩

theorem test_stream_commands_wait_for_their_flip :
    (∃ (s : State) (fn : Fn) (m : MbxHdr) (tenant : Byte) (endpoint : BitVec 16) (window : BitVec 16) (timeout : BitVec 16) (k : Nat), (mbxReady s fn m 7) ∧ badLimits window timeout = false ∧ (endpoint.toNat ≤ 0xFFF) ∧ tenantCheck s fn tenant.toNat false = none ∧ s.admitted tenant.toNat endpoint.toNat = true ∧ ((streamsWhere s fun x => decide (x.part = (s.tenant tenant.toNat).part)) < (s.part (s.tenant tenant.toNat).part).streamQuota) ∧ (((List.range 4096).find? fun k => !(s.stream k).alloc) = some k)) ∧
    (∃ (s : State) (fn : Fn) (m : MbxHdr) (stream : BitVec 16) (window : BitVec 16) (timeout : BitVec 16), (mbxReady s fn m 6) ∧ badLimits window timeout = false ∧ streamCheck s fn stream.toNat = none) ∧
    (∃ (s : State) (fn : Fn) (m : MbxHdr) (stream : BitVec 16), (mbxReady s fn m 2) ∧ streamCheck s fn stream.toNat = none) :=
  ⟨⟨sv, fn0, mb 7, 1, 9, 256, 4095, 0, by decide +kernel⟩,
   ⟨sv, fn0, mb 6, 5, 1, 0, by decide +kernel⟩,
   ⟨sv, fn0, mb 2, 5, by decide +kernel⟩⟩

theorem test_streams_ramp_expire_and_free :
    (∃ (s : State) (k : BitVec 12), atBoundary s = true ∧ ((s.strCfg k.toNat).getLsbD 31 = true) ∧ ((s.stream k.toNat).alloc = true) ∧ ((s.stream k.toNat).rampAt < s.clk.now) ∧ ((s.clk.now - (s.stream k.toNat).rampBase) % 16 = 0) ∧ ((s.stream k.toNat).windowNow < s.strWindow k.toNat)) ∧
    (∃ (s : State) (k : BitVec 12) (rseq : BitVec 16) (r : OReq) (b : Nat), atBoundary s = true ∧ ((s.reqs.find? fun r => decide (r.msg.stream.toNat = k.toNat) && decide (r.msg.rseq.toNat = rseq.toNat) && r.expiry.isSome) = some r) ∧ (r.expiry = some b) ∧ (b ≤ s.clk.now)) ∧
    (∃ (s : State) (k : BitVec 12), s.alive = true ∧ ((s.stream k.toNat).alloc = true) ∧ ((s.stream k.toNat).closed = true) ∧ ((∀ r ∈ s.reqs, r.msg.stream.toNat = k.toNat → r.silent = true))) :=
  ⟨⟨sv, 5, by decide +kernel⟩,
   ⟨{ sv with reqs := [rq] }, 5, 1, rq, 1000, by decide +kernel⟩,
   ⟨{ sv with streams := [(5, { alloc := true, closed := true, tenant := 1 })] }, 5, by decide +kernel⟩⟩

theorem test_partitions_reset :
    (∃ (s : State) (fn : Fn) (m : MbxHdr) (part : Byte), (mbxReady s fn m 1) ∧ (part.toNat ≤ 15) ∧ ((s.part part.toNat).valid = true) ∧ (s.owns fn part.toNat = true ∨ s.isAdmin fn = true) ∧ ((s.part part.toNat).reset = none)) ∧
    (∃ (s : State) (p : Fin 16), atBoundary s = true ∧ partDue s p = true) ∧
    (∃ (s : State) (p : Fin 16) (r : PartReset), s.alive = true ∧ ((s.part p).reset = some r) ∧ r.withdrawn = true ∧ (r.b + 1 ≤ s.clk.now) ∧ (tenantsIn s p = [])) ∧
    (∃ (s : State) (hp : Fin 4) (vf : Nat) (t : Fin 128), s.alive = true ∧ (hostUp s { port := hp, vf } = true) ∧ (tenantOfVf s hp vf = some t.val)) :=
  ⟨⟨sv, fn0, mb 1, 0, by decide +kernel⟩,
   ⟨{ sv with parts := [(0, { valid := true, reset := some { b := 1000 } })] }, 0, by decide +kernel⟩,
   ⟨{ sv with tenants := [], hosts := [(0, { retry := false, cur := some 3, busy := true })], parts := [(0, { valid := true, reset := some { b := 999, withdrawn := true, owed := [{ port := 0, id := 3, opcode := 0x120, tag := 4 }] } })] }, 0, { b := 999, withdrawn := true, owed := [{ port := 0, id := 3, opcode := 0x120, tag := 4 }] }, by decide +kernel⟩,
   ⟨{ sv with eng := { queues := [(8, { state := 1 })] } }, 0, 1, 1, by decide +kernel⟩⟩

theorem test_power_signals_start_and_stop_the_node :
    (∃ (s : State), atRise s = true ∧ s.sbd.orderFault = false) ∧
    (∃ (s : State), (atRise s = false ∨ s.sbd.orderFault = true)) ∧
    (∃ (s : State), s.alive = true ∧ s.sbd.porN = true) ∧
    (∃ (s : State), s.nid.state = .off) :=
  ⟨⟨{ sv with nid := { state := .off } }, by decide +kernel⟩,
   ⟨sv, by decide +kernel⟩,
   ⟨sv, by decide +kernel⟩,
   ⟨{ sv with nid := { state := .off } }, by decide +kernel⟩⟩

theorem test_clock_and_thermal_signals :
    (∃ (s : State), s.alive = true ∧ s.clk.locked = false) ∧
    (∃ (s : State), s.alive = true) ∧
    (∃ (s : State), s.alive = true) ∧
    (∃ (s : State) (x : BitVec 16), s.alive = true ∧ (460 ≤ x.toInt)) ∧
    (∃ (s : State) (x : BitVec 16), (s.nid.state ≠ .off) ∧ (400 ≤ x.toInt)) ∧
    (∃ (x : BitVec 16) (y : BitVec 16), (x.toInt ≤ 388) ∧ (y.toInt ≤ 388)) :=
  ⟨⟨State.reset, by decide +kernel⟩,
   ⟨sv, by decide +kernel⟩,
   ⟨sv, by decide +kernel⟩,
   ⟨sv, 500, by decide +kernel⟩,
   ⟨sv, 404, by decide +kernel⟩,
   ⟨300, 388, by decide +kernel⟩⟩

theorem test_perst_resets_one_port :
    (∃ (s : State) (hp : Fin 4), s.alive = true ∧ ((s.host hp).perst = true)) ∧
    (∃ (s : State) (hp : Fin 4), ((s.host hp).perst = false)) ∧
    (∃ (s : State) (hp : Fin 4), (s.nid.state ≠ .off) ∧ ((s.host hp).perst = true)) :=
  ⟨⟨sv, 0, by decide +kernel⟩,
   ⟨{ sv with hosts := [(0, { perst := false })] }, 0, by decide +kernel⟩,
   ⟨sv, 0, by decide +kernel⟩⟩

theorem test_smbus_notifies_and_answers_alerts :
    (∃ (s : State) (w : BitVec 16) (r : List (BitVec 16)), s.alive = true ∧ smbUp false s = true ∧ bit s.sbd.smbCfg 1 = true ∧ (s.sbd.fifo = w :: r) ∧ (s.sbd.hnTries = 0 ∨ s.sbd.hnLost = true)) ∧
    (∃ (s : State) (w : BitVec 16) (r : List (BitVec 16)), s.alive = true ∧ smbUp false s = true ∧ bit s.sbd.smbCfg 1 = true ∧ (s.sbd.fifo = w :: r) ∧ s.sbd.hnTries = 0) ∧
    (∃ (s : State) (w : BitVec 16) (r : List (BitVec 16)), s.alive = true ∧ smbUp false s = true ∧ bit s.sbd.smbCfg 1 = true ∧ (s.sbd.fifo = w :: r) ∧ (s.sbd.hnTries = 0 ∨ s.sbd.hnLost = true) ∧ (s.sbd.hnArb < 15)) ∧
    (∃ (s : State) (w : BitVec 16) (r : List (BitVec 16)), s.alive = true ∧ smbUp false s = true ∧ bit s.sbd.smbCfg 1 = true ∧ (s.sbd.fifo = w :: r) ∧ (0 < s.sbd.hnTries) ∧ s.sbd.hnLost = false) ∧
    (∃ (s : State) (w : BitVec 16) (r : List (BitVec 16)), s.alive = true ∧ smbUp false s = true ∧ bit s.sbd.smbCfg 1 = true ∧ (s.sbd.fifo = w :: r) ∧ s.sbd.hnTries = 3 ∧ s.sbd.hnLost = false) ∧
    (∃ (s : State), smbUp false s = true ∧ s.sbd.alert = true) ∧
    (∃ (s : State), (smbUp false s = false ∨ s.sbd.alert = false)) :=
  ⟨⟨nt 0 false, 5, [], by decide +kernel⟩,
   ⟨nt 0 false, 5, [], by decide +kernel⟩,
   ⟨nt 0 false, 5, [], by decide +kernel⟩,
   ⟨nt 1 false, 5, [], by decide +kernel⟩,
   ⟨nt 3 false, 5, [], by decide +kernel⟩,
   ⟨nt 0 false, by decide +kernel⟩,
   ⟨sv, by decide +kernel⟩⟩

theorem test_pins_guard_count_and_blink :
    (∃ (s : State) (n : Fin 16) (a : Nat), atBoundary s = true ∧ ((s.pin n).phase = .guard a) ∧ (a ≤ s.clk.now)) ∧
    (∃ (s : State) (n : Fin 16), s.alive = true ∧ tachOn s n = true) ∧
    (∃ (s : State) (n : Fin 16), atBoundary s = true ∧ tachOn s n = true ∧ ((s.pin n).winAt + 65536 ≤ s.clk.now)) ∧
    (∃ (s : State) (n : Fin 16), atBoundary s = true ∧ ((s.pin n).phase = .active) ∧ (pinEff (pinTable s) n = 9)) :=
  ⟨⟨pn { phase := .guard 1000 } 8, 3, 1000, by decide +kernel⟩,
   ⟨{ pn {} 8 with sbd := { sv.sbd with pins := [(12, { phase := .active })] }, insts := [(260, { active := [(12, 8)] })] }, 12, by decide +kernel⟩,
   ⟨{ pn {} 8 with clk := { locked := true, now := 65536 }, sbd := { sv.sbd with pins := [(12, { phase := .active })] }, insts := [(260, { active := [(12, 8)] })] }, 12, by decide +kernel⟩,
   ⟨pn { phase := .active } 9, 3, by decide +kernel⟩⟩

theorem test_boot_finds_an_image :
    (∃ (s : State), s.nid.state = .boot ∧ s.clk.locked = true ∧ s.boot.otp = none) ∧
    (∃ (s : State), s.nid.state = .boot ∧ s.clk.locked = true ∧ s.boot.otp = none) ∧
    (∃ (s : State) (x : Option FlashDev) (d : FlashDev), s.nid.state = .boot ∧ s.boot.otp.isSome = true ∧ s.boot.flash = none ∧ (x.or s.sbd.flash = some d)) ∧
    (∃ (s : State) (o : Otp) (d : FlashDev), s.nid.state = .boot ∧ (s.boot.otp = some o) ∧ (s.boot.flash = some d) ∧ bit s.boot.status 0 = false ∧ bit s.boot.status 9 = false ∧ (logCorrupt (bootLog d) = false)) ∧
    (∃ (s : State) (d : FlashDev), s.nid.state = .boot ∧ slotChosen s = true ∧ (s.boot.flash = some d)) :=
  ⟨⟨{ st .boot with boot := {} }, by decide +kernel⟩,
   ⟨{ st .boot with boot := {} }, by decide +kernel⟩,
   ⟨{ st .boot with boot := { otp := some otp0 } }, some fl, fl, by decide +kernel⟩,
   ⟨st .boot, otp0, fl, by decide +kernel⟩,
   ⟨{ st .boot with boot := { (st .boot).boot with status := 1 } }, fl, by decide +kernel⟩⟩

theorem test_selftest_does_its_works :
    (∃ (s : State), s.nid.state = .selftest ∧ s.boot.settingsDone = false) ∧
    (∃ (s : State) (failed : List (Fin 192)) (dis : List Nat), s.nid.state = .selftest ∧ s.boot.meshDone = false ∧ (dis = ((match s.boot.otp with | some o => o.fused | none => []) ++ failed).eraseDups.map Fin.val) ∧ disabledOk dis = true) ∧
    (∃ (s : State), s.nid.state = .selftest ∧ s.boot.meshDone = false) ∧
    (∃ (s : State) (a : List (Fin 256 × EccPattern × EccResult)) (b : List (Fin 16 × EccPattern × EccResult)) (c : List (Nat × EccPattern × EccResult)) (l : List EccReply), (l = eccReplies a b c) ∧ s.nid.state = .selftest ∧ s.boot.meshDone = true ∧ s.boot.eccDone = false ∧ ((∀ k, EccUnit.sram k ∉ eccFailed l))) ∧
    (∃ (s : State) (a : List (Fin 256 × EccPattern × EccResult)) (b : List (Fin 16 × EccPattern × EccResult)) (c : List (Nat × EccPattern × EccResult)) (l : List EccReply) (k : Nat), (l = eccReplies a b c) ∧ s.nid.state = .selftest ∧ s.boot.meshDone = true ∧ s.boot.eccDone = false ∧ (EccUnit.sram k ∈ eccFailed l)) ∧
    (∃ (s : State), s.nid.state = .selftest ∧ s.boot.settingsDone = true ∧ s.boot.calDone = false) :=
  ⟨⟨st .selftest, by decide +kernel⟩,
   ⟨{ st .selftest with boot := { (st .selftest).boot with meshDone := false } }, [], [], by decide +kernel⟩,
   ⟨{ st .selftest with boot := { (st .selftest).boot with meshDone := false } }, by decide +kernel⟩,
   by refine ⟨st .selftest, [(2, .clean, .corrected 0)], [], [], [⟨.hbm 2, .clean, .corrected 0⟩], ?_, ?_, ?_, ?_, fun k h => by rw [show eccFailed [⟨.hbm 2, .clean, .corrected 0⟩] = [EccUnit.hbm 2] by decide +kernel] at h; simp at h⟩ <;> decide +kernel,
   ⟨st .selftest, [], [], [(3, .clean, .corrected 0)], [⟨.sram 3, .clean, .corrected 0⟩], 3, by decide +kernel⟩,
   ⟨{ st .selftest with boot := { (st .selftest).boot with settingsDone := true } }, by decide +kernel⟩⟩

theorem test_image_and_training_set_the_node_up :
    (∃ (s : State) (c : List Byte), s.nid.state = .selftest ∧ s.boot.meshDone = true ∧ s.cfg.loaded = false ∧ (c = bootBytes s s.boot.config)) ∧
    (∃ (s : State), s.nid.state = .selftest ∧ s.boot.tablesDone = false) ∧
    (∃ (s : State), s.nid.state = .training ∧ procRuns s .mrp = true ∧ s.boot.hbmDone = false) ∧
    (∃ (s : State), s.nid.state = .training ∧ procRuns s .mrp = true ∧ s.boot.ddrDone = false) :=
  ⟨⟨st .selftest, [], by decide +kernel⟩,
   ⟨st .selftest, by decide +kernel⟩,
   ⟨st .training, by decide +kernel⟩,
   ⟨st .training, by decide +kernel⟩⟩

theorem test_node_enters_service :
    (∃ (s : State), atBoundary s = true ∧ s.nid.state = .training ∧ s.boot.hbmDone = true ∧ s.boot.portsOpened = false) ∧
    (∃ (s : State), designNext s = true) ∧
    (∃ (s : State), atBoundary s = true ∧ s.nid.state = .training ∧ s.boot.hbmDone = true ∧ s.boot.ddrDone = true ∧ s.boot.portsOpened = true ∧ ((s.boot.design.isSome = true → s.boot.designDone = true))) ∧
    (∃ (s : State) (b : Nat) (d : FlashDev), (s.boot.healthAt = some b) ∧ (s.boot.flash = some d) ∧ s.nid.state.serving = true ∧ (b < s.clk.now ∨ (b = s.clk.now ∧ s.clk.cycle ≠ 0)) ∧ s.boot.healthBad = false ∧ bit s.boot.status 6 = false) ∧
    (∃ (s : State) (d : FlashDev) (o : Otp) (k : Fin 2) (j : Fin 2) (x : SetSlot), s.alive = true ∧ (s.boot.flash = some d) ∧ (s.boot.otp = some o) ∧ s.boot.setWriting = none ∧ s.boot.writeDue = true ∧ (s.boot.writing = []) ∧ s.boot.settingsDone = true ∧ s.trngFail = false ∧ (s.boot.ownSlot = some k) ∧ (newestHdr s = some (j, x))) ∧
    (∃ (s : State) (d : FlashDev) (o : Otp) (k : Fin 2) (seq : Word), s.alive = true ∧ (s.boot.flash = some d) ∧ (s.boot.otp = some o) ∧ (s.boot.setWriting = some (k, seq))) :=
  ⟨⟨{ st .training with boot := { (st .training).boot with hbmDone := true } }, by decide +kernel⟩,
   ⟨{ st .training with boot := { (st .training).boot with hbmDone := true, ddrDone := true, portsOpened := true, design := some { off := 0, len := 0 } } }, by decide +kernel⟩,
   ⟨{ st .training with boot := { (st .training).boot with hbmDone := true, ddrDone := true, portsOpened := true } }, by decide +kernel⟩,
   ⟨{ sv with clk := { sv.clk with now := 1001 }, boot := { sv.boot with flash := some fl, healthAt := some 1000 } }, 1000, fl, by decide +kernel⟩,
   ⟨{ sv with boot := { sv.boot with flash := some flSet, otp := some otp0, writeDue := true, settingsDone := true, ownSlot := some 0 } }, flSet, otp0, 0, 0, hdr0, by decide +kernel⟩,
   ⟨{ sv with boot := { sv.boot with flash := some flSet, otp := some otp0, writeDue := true, settingsDone := true, setWriting := some (0, 2) } }, flSet, otp0, 0, 2, by decide +kernel⟩⟩

theorem test_ports_train_rung_by_rung :
    (∃ (s : State) (p : Fin 32), s.alive = true ∧ ((s.port p).state = .detect) ∧ (bit (s.port p).ev 5 = false)) ∧
    (∃ (s : State) (n : Nat) (r : Nat), s.alive = true ∧ procWorks s .fmp = true ∧ (s.clk.admits < 8) ∧ (n < 32) ∧ mayAdmit s n = true ∧ ((∀ k < 32, mayAdmit s k = true → k = n)) ∧ (nextRung (s.port n).cfg (if (s.port n).state = .detect then 0 else (s.port n).pos) = some r)) ∧
    (∃ (s : State), s.alive = true ∧ (8 ≤ s.clk.admits)) ∧
    (∃ (s : State) (p : Fin 32) (q : Params), s.alive = true ∧ (bit (s.port p).ev 5 = false) ∧ (paramsDone (s.port p) = some q) ∧ (resumes (s.port p) q = false) ∧ ((needsHandshake (s.port p) q = true → (s.port p).hs.sentFinish = true ∧ (s.port p).hs.gotFinish = true))) ∧
    (∃ (s : State) (p : Fin 32) (q : Params), s.alive = true ∧ (bit (s.port p).ev 5 = false) ∧ (paramsDone (s.port p) = some q) ∧ (resumes (s.port p) q = true)) ∧
    (∃ (s : State) (p : Fin 32) (r : Nat), s.alive = true ∧ (tries (s.port p) = true) ∧ (nextRung (s.port p).cfg (s.port p).pos = some r)) ∧
    (∃ (s : State) (p : Fin 32) (r : Nat), s.alive = true ∧ (tries (s.port p) = true) ∧ ((s.port p).hs.active = false) ∧ (nextRung (s.port p).cfg (s.port p).pos = some r)) ∧
    (∃ (s : State) (p : Fin 32) (e : AttemptErr) (a : Byte) (b : Byte) (c : Instr), (c ∈ [Instr.attemptFail p e, .attemptTimeout p a b]) ∧ s.alive = true ∧ (tries (s.port p) = true) ∧ ((s.port p).hs.active = false) ∧ (nextRung (s.port p).cfg (s.port p).pos = none)) ∧
    (∃ (s : State) (p : Fin 32) (t : Nat), s.alive = true ∧ procRuns s .fmp = true ∧ ((s.port p).state = .failed) ∧ ((s.port p).retryAt = some t) ∧ ((s.port p).retries < 4) ∧ (t ≤ s.clk.now)) ∧
    (∃ (s : State) (p : Fin 32) (q : Params), s.alive = true ∧ (tries (s.port p) = true) ∧ (q.modeReq.toNat ≤ 1) ∧ (q.window ≠ 0) ∧ (q.window.toNat ≤ 2048) ∧ q.isSealed = 0 ∧ (bit (s.port p).use 6 = false)) ∧
    (∃ (s : State) (p : Fin 32) (q : Params) (r : Nat), s.alive = true ∧ (tries (s.port p) = true) ∧ ((1 < q.modeReq.toNat ∨ q.window = 0 ∨ 2048 < q.window.toNat ∨ 1 < q.isSealed.toNat)) ∧ (nextRung (s.port p).cfg (s.port p).pos = some r)) ∧
    (∃ (s : State) (p : Fin 32) (q : Params), s.alive = true ∧ (tries (s.port p) = true) ∧ (q.modeReq.toNat ≤ 1) ∧ (q.window ≠ 0) ∧ (q.window.toNat ≤ 2048) ∧ (q.isSealed.toNat ≤ 1) ∧ (bit (s.port p).use 6 ≠ decide (q.isSealed = 1))) ∧
    (∃ (s : State) (p : Fin 32), s.alive = true ∧ (tries (s.port p) = true) ∧ (bit (s.port p).use 6 = false)) ∧
    (∃ (s : State) (p : Fin 32), s.alive = true ∧ (tries (s.port p) = true) ∧ (¬ ((s.port p).peer.isSome = true ∧ (s.port p).ackSent = true))) ∧
    (∃ (s : State) (fn : Fn) (p : Fin 32), (adminBus s fn) ∧ ((s.port p).state = .up)) ∧
    (∃ (s : State) (fn : Fn) (p : Fin 32), (adminBus s fn) ∧ ((s.port p).state = .failed)) ∧
    (∃ (s : State) (fn : Fn) (p : Fin 32), (adminBus s fn) ∧ ((s.port p).state = .disabled) ∧ (stationDown s (portStation p) = false)) ∧
    (∃ (s : State) (fn : Fn) (p : Fin 32), (adminBus s fn) ∧ ((s.port p).state ≠ .disabled)) :=
  ⟨⟨pt { state := .detect }, 0, by decide +kernel⟩,
   ⟨pt { state := .train, waiting := some 4, pos := 5 }, 0, 6, by decide +kernel⟩,
   ⟨{ sv with clk := { sv.clk with admits := 8 } }, by decide +kernel⟩,
   ⟨pt { state := .train, attempting := true, ackSent := true, ackGot := true, peer := some pr0 }, 0, pr0, by decide +kernel⟩,
   ⟨pt { state := .retrain, attempting := true, ackSent := true, ackGot := true, peer := some pr0, kept := true, epochPeer := 3 }, 0, pr0, by decide +kernel⟩,
   ⟨pt { state := .train, attempting := true, pos := 5 }, 0, 6, by decide +kernel⟩,
   ⟨pt { state := .train, attempting := true, pos := 5 }, 0, 6, by decide +kernel⟩,
   ⟨pt { state := .train, attempting := true, pos := 12 }, 0, .prbs, 3, 3, .attemptTimeout 0 3 3, by decide +kernel⟩,
   ⟨pt { state := .failed, retryAt := some 1000 }, 0, 1000, by decide +kernel⟩,
   ⟨pt { state := .train, attempting := true }, 0, pr0, by decide +kernel⟩,
   ⟨pt { state := .train, attempting := true }, 0, { pr0 with window := 0 }, 1, by decide +kernel⟩,
   ⟨pt { state := .train, attempting := true }, 0, { pr0 with isSealed := 1 }, by decide +kernel⟩,
   ⟨pt { state := .train, attempting := true }, 0, by decide +kernel⟩,
   ⟨pt { state := .train, attempting := true }, 0, by decide +kernel⟩,
   ⟨sv, fn0, 0, by decide +kernel⟩,
   ⟨pt { state := .failed }, fn0, 0, by decide +kernel⟩,
   ⟨pt { state := .disabled }, fn0, 0, by decide +kernel⟩,
   ⟨sv, fn0, 0, by decide +kernel⟩⟩

theorem test_frames_are_taken_in_order :
    (∃ (s : State) (p : Fin 32) (f : Frame) (b : List Byte), (frameGood s p f) ∧ sequenced f.hdr = true ∧ (goodAck (s.port p) f.hdr) ∧ (f.hdr.seq = (s.port p).rxNext) ∧ (0 < (s.port p).window) ∧ (openPayload (s.port p) 0 f = some b)) ∧
    (∃ (s : State) (p : Fin 32) (f : Frame), (frameGood s p f) ∧ sequenced f.hdr = true ∧ (goodAck (s.port p) f.hdr) ∧ (bit (s.port p).ev 5 = false) ∧ ((openPayload (s.port p) (f.hdr.seq - (s.port p).rxNext).toNat f).isSome = true) ∧ (0 < (f.hdr.seq - (s.port p).rxNext).toNat) ∧ ((f.hdr.seq - (s.port p).rxNext).toNat < (s.port p).window) ∧ ((f.hdr.seq - (s.port p).rxNext).toNat ≤ 2047) ∧ ((s.port p).gap = false)) ∧
    (∃ (s : State) (p : Fin 32) (f : Frame), (frameGood s p f) ∧ sequenced f.hdr = true ∧ (goodAck (s.port p) f.hdr) ∧ (bit (s.port p).ev 5 = false) ∧ ((openPayload (s.port p) (f.hdr.seq - (s.port p).rxNext).toNat f).isSome = true) ∧ (2048 ≤ (f.hdr.seq - (s.port p).rxNext).toNat) ∧ ((s.port p).window ≤ 2048)) ∧
    (∃ (s : State) (p : Fin 32) (f : Frame), (frameGood s p f) ∧ sequenced f.hdr = true ∧ ((s.port p).window ≤ (f.hdr.seq - (s.port p).rxNext).toNat) ∧ ((f.hdr.seq - (s.port p).rxNext).toNat ≤ 2047)) ∧
    (∃ (s : State) (p : Fin 32) (f : Frame), (frameGood s p f) ∧ sequenced f.hdr = true ∧ (¬ ((s.port p).window ≤ (f.hdr.seq - (s.port p).rxNext).toNat ∧ (f.hdr.seq - (s.port p).rxNext).toNat ≤ 2047)) ∧ (openPayload (s.port p) (f.hdr.seq - (s.port p).rxNext).toNat f = none)) ∧
    (∃ (s : State) (p : Fin 32) (f : Frame) (alt : Bool) (c : Instr), (c ∈ [Instr.data p f alt, .idle p f, .replayReq p f]) ∧ s.alive = true ∧ sureUp s p = true ∧ ((crcOk f = false ∨ malformed f.hdr = true))) ∧
    (∃ (s : State) (p : Fin 32) (f : Frame), (frameGood s p f) ∧ (goodAck (s.port p) f.hdr)) ∧
    (∃ (s : State) (p : Fin 32) (f : Frame), (frameGood s p f) ∧ (¬ goodAck (s.port p) f.hdr)) ∧
    (∃ (s : State) (p : Fin 32) (f : Frame), (frameGood s p f) ∧ (goodAck (s.port p) f.hdr) ∧ f.hdr.ackValid = true) ∧
    (∃ (s : State) (p : Fin 32) (f : Frame), s.alive = true ∧ ((s.port p).state = .up) ∧ ((s.port p).lean = true) ∧ malformed f.hdr = false ∧ f.trailer = 0 ∧ ((sequenced f.hdr = true → f.hdr.seq = (s.port p).rxNext ∧ (openPayload (s.port p) 0 f).isSome = true))) ∧
    (∃ (s : State) (p : Fin 32) (f : Frame) (lockLost : Bool) (parity : Bool), s.alive = true ∧ ((s.port p).state = .up) ∧ ((s.port p).lean = true) ∧ ((lockLost = true ∨ parity = true ∨ malformed f.hdr = true ∨ f.trailer ≠ 0 ∨ (sequenced f.hdr = true ∧ (f.hdr.seq ≠ (s.port p).rxNext ∨ openPayload (s.port p) 0 f = none))))) ∧
    (∃ (s : State) (p : Fin 32) (f : Frame), (frameGood s p f) ∧ (goodAck (s.port p) f.hdr)) ∧
    (∃ (s : State) (p : Fin 32) (f : Frame), s.alive = true ∧ ((s.port p).state = .up) ∧ ((s.port p).lean = true) ∧ malformed f.hdr = false ∧ f.trailer = 0) ∧
    (∃ (s : State) (p : Fin 32), s.alive = true ∧ ((s.port p).state = .up)) :=
  ⟨⟨sv, 0, fr 0 0, List.replicate 16 0, ⟨by decide +kernel, by decide +kernel, crcOk_fr _ _, by decide +kernel⟩, by decide +kernel⟩,
   ⟨sv, 0, fr 0 5, ⟨by decide +kernel, by decide +kernel, crcOk_fr _ _, by decide +kernel⟩, by decide +kernel⟩,
   ⟨sv, 0, fr 0 0xFF0, ⟨by decide +kernel, by decide +kernel, crcOk_fr _ _, by decide +kernel⟩, by decide +kernel⟩,
   ⟨pt { state := .up, window := 4 }, 0, fr 0 5, ⟨by decide +kernel, by decide +kernel, crcOk_fr _ _, by decide +kernel⟩, by decide +kernel⟩,
   ⟨pt { state := .up, isSealed := true, sess := some { keyOwn := 1, keyPeer := 2, number := 3 } }, 0, fr 0 0, ⟨by decide +kernel, by decide +kernel, crcOk_fr _ _, by decide +kernel⟩, by decide +kernel⟩,
   ⟨sv, 0, { hdr := { ftype := 0 } }, true, .replayReq 0 { hdr := { ftype := 0 } }, by decide +kernel⟩,
   ⟨sv, 0, fr 2 0, ⟨by decide +kernel, by decide +kernel, crcOk_fr _ _, by decide +kernel⟩, by decide +kernel⟩,
   ⟨sv, 0, sealFrame { fr 2 0 with hdr := { (fr 2 0).hdr with ackValid := true, ack := 9 } }, ⟨by decide +kernel, by decide +kernel, crcOk_with _ _ _, by decide +kernel⟩, by decide +kernel⟩,
   ⟨sv, 0, sealFrame { fr 3 0 with hdr := { (fr 3 0).hdr with ackValid := true, ack := 0xFFF } }, ⟨by decide +kernel, by decide +kernel, crcOk_with _ _ _, by decide +kernel⟩, by decide +kernel⟩,
   ⟨pt { state := .up, lean := true }, 0, { fr 0 0 with trailer := 0 }, by decide +kernel⟩,
   ⟨pt { state := .up, lean := true }, 0, { fr 0 0 with trailer := 0 }, true, false, by decide +kernel⟩,
   ⟨sv, 0, fr 1 0, ⟨by decide +kernel, by decide +kernel, crcOk_fr _ _, by decide +kernel⟩, by decide +kernel⟩,
   ⟨pt { state := .up, lean := true }, 0, { fr 1 0 with trailer := 0 }, by decide +kernel⟩,
   ⟨sv, 0, by decide +kernel⟩⟩

theorem test_frames_are_sent_and_replayed :
    (∃ (s : State) (p : Fin 32) (vc : Fin 5) (it : TxItem) (q : List TxItem), s.alive = true ∧ ((s.port p).state = .up) ∧ (bit (s.port p).ev 5 = false) ∧ ((s.port p).replay = none) ∧ (((s.port p).lean = true ∨ (s.port p).held.length < (s.port p).window)) ∧ (0 < ((s.port p).credit vc.val).have_) ∧ (takeMsg vc.val (Tbl.get 32 (s.port p).turn vc.val) (s.port p).txq = some (it, q))) ∧
    (∃ (s : State) (p : Fin 32), s.alive = true ∧ ((s.port p).state = .up) ∧ (bit (s.port p).ev 5 = false)) ∧
    (∃ (s : State) (p : Fin 32) (vc : Fin 5) (crdVc : Fin 5) (c : Instr), (c ∈ [Instr.frameSend p vc, .idleSend p crdVc, .replayResend p crdVc]) ∧ (bit (s.port p).ev 5 = true)) ∧
    (∃ (s : State) (p : Fin 32), s.alive = true ∧ sureUp s p = true ∧ ((s.port p).timer = true) ∧ ((s.port p).held ≠ []) ∧ ((s.port p).held.length < 4096) ∧ ((s.port p).replayCount + 1 ≠ bits (s.port p).use 23 20)) ∧
    (∃ (s : State) (p : Fin 32), s.alive = true ∧ sureUp s p = true ∧ ((s.port p).timer = true) ∧ ((s.port p).held ≠ []) ∧ ((s.port p).replayCount + 1 = bits (s.port p).use 23 20)) ∧
    (∃ (s : State) (p : Fin 32) (ptr : BitVec 12) (h : Held), s.alive = true ∧ ((s.port p).state = .up) ∧ (bit (s.port p).ev 5 = false) ∧ ((s.port p).replay = some ptr) ∧ ((s.port p).held[(ptr - (s.port p).txOldest).toNat]? = some h)) :=
  ⟨⟨pt { state := .up, credits := [(0, { have_ := 3 })], txq := [tx0] }, 0, 0, tx0, [], by decide +kernel⟩,
   ⟨sv, 0, by decide +kernel⟩,
   ⟨pt { state := .up, ev := 32 }, 0, 0, 2, .idleSend 0 2, by decide +kernel⟩,
   ⟨pt { state := .up, timer := true, txNext := 1, held := [{ frame := fr 0 0, item := tx0 }] }, 0, by decide +kernel⟩,
   ⟨pt { state := .up, timer := true, txNext := 1, replayCount := 7, held := [{ frame := fr 0 0, item := tx0 }] }, 0, by decide +kernel⟩,
   by refine ⟨pt { state := .up, txNext := 1, replay := some 0, held := [{ frame := fr 0 0, item := tx0 }] }, 0, 0, { frame := fr 0 0, item := tx0 }, ?_, ?_, ?_, ?_, rfl⟩ <;> decide +kernel⟩

theorem test_reads_are_queued_at_their_controller :
    (∃ (s : State) (p : Fin 32) (m : Msg) (e : TileEnt) (c : Instr) (n : BitVec 8), ((c, n) ∈ [(Instr.rdShared p m, 1), (.rdUnique p m, 2), (.rdOnce p m, 3), (.mcastRead p m, 9)]) ∧ (reqPasses s p { m with opcode := n } e) ∧ (inTurn s { m with opcode := n } = true) ∧ e.coherent = false) ∧
    (∃ (s : State) (p : Fin 32) (m : Msg) (e : TileEnt) (c : Instr) (n : BitVec 8), ((c, n) ∈ [(Instr.rdShared p m, 1), (.rdUnique p m, 2), (.rdOnce p m, 3), (.evictClean p m, 7), (.mcastRead p m, 9)]) ∧ (reqPasses s p { m with opcode := n } e) ∧ (inTurn s { m with opcode := n } = false) ∧ ((n = 1 ∨ n = 2 → e.coherent = true → (registerAgent m.src s).isSome = true))) ∧
    (∃ (s : State) (p : Fin 32) (m : Msg) (e : TileEnt) (c : Instr) (n : BitVec 8), ((c, n) ∈ [(Instr.rdShared p m, 1), (.rdUnique p m, 2), (.rdOnce p m, 3), (.mcastRead p m, 9)]) ∧ (reqPasses s p { m with opcode := n } e) ∧ (inTurn s { m with opcode := n } = true) ∧ e.coherent = true ∧ (recallOwed s e.tier (reqFirstLine m e) = false) ∧ (s.dir.pend = []) ∧ (trkAt s e.tier (reqFirstLine m e) = none) ∧ (trkFree s (reqFirstLine m e) = true) ∧ (findEnt s e.tier (reqFirstLine m e) = none) ∧ ((n = 1 ∨ n = 2 → (registerAgent m.src s).isSome = true ∧ ∃ w ∈ setSlots (reqFirstLine m e), (s.ent w).st = .i ∧ ∀ k ∈ s.dir.trks, k.slot ≠ some w))) ∧
    (∃ (s : State) (p : Fin 32) (m : Msg) (e : TileEnt) (c : Instr) (n : BitVec 8) (slot : Nat) (a : Nat) (b : Nat), ((c, n) ∈ [(Instr.rdShared p m, 1), (.rdUnique p m, 2)]) ∧ (reqPasses s p { m with opcode := n } e) ∧ (inTurn s { m with opcode := n } = true) ∧ e.coherent = true ∧ (recallOwed s e.tier (reqFirstLine m e) = false) ∧ (s.dir.pend = []) ∧ (trkAt s e.tier (reqFirstLine m e) = none) ∧ (trkFree s (reqFirstLine m e) = true) ∧ (findEnt s e.tier (reqFirstLine m e) = some slot) ∧ (entLive s (s.ent slot) = true) ∧ (((s.ent slot).st = .e ∨ (s.ent slot).st = .m)) ∧ ((s.ent slot).ptrs = [b]) ∧ (agentOf s m.src = some a) ∧ (a ≠ b)) :=
  ⟨⟨sv, 0, rqMsg, te, .rdOnce 0 rqMsg, 3, by decide +kernel⟩,
   ⟨{ sv with serialNo := 2, reqs := [{ rq with id := 1, phase := .data, msg := { rqLine with opcode := 4, rseq := 2 } }] }, 0, rqMsg, te, .rdOnce 0 rqMsg, 3, by decide +kernel⟩,
   ⟨svi teC, 0, rqLine, teC, .rdShared 0 rqLine, 1, by decide +kernel⟩,
   ⟨svd .e [1] [], 0, rqLine, teC, .rdUnique 0 rqLine, 2, 24576, 0, 1, by decide +kernel⟩⟩

theorem test_writes_await_data_and_start :
    (∃ (s : State) (p : Fin 32) (m : Msg) (e : TileEnt) (c : Instr) (n : BitVec 8), ((c, n) ∈ [(Instr.wrFull p m, 4), (.wrStash p m, 5), (.wbDirty p m, 6), (.atOp p m, 8)]) ∧ (reqPasses s p { m with opcode := n } e)) ∧
    (∃ (s : State) (p : Fin 32) (m : Msg) (e : TileEnt), (reqPasses s p { m with opcode := 7 } e) ∧ (inTurn s { m with opcode := 7 } = true) ∧ e.coherent = false) ∧
    (∃ (s : State) (p : Fin 32) (m : Msg) (e : TileEnt) (a : Nat) (slot : Nat), (reqPasses s p { m with opcode := 7 } e) ∧ (inTurn s { m with opcode := 7 } = true) ∧ e.coherent = true ∧ (agentOf s m.src = some a) ∧ (awaitedOn s e.tier (reqFirstLine m e) a = none) ∧ (findEnt s e.tier (reqFirstLine m e) = some slot) ∧ (a ∈ (s.ent slot).ptrs)) ∧
    (∃ (s : State) (p : Fin 32) (m : Msg) (r : OReq), (comesIn s p m) ∧ (reqsFresh s) ∧ ((s.reqs.find? fun r => decide (r.phase = .data) && decide (r.msg.src = m.src) && decide (r.msg.stream = m.stream) && decide (r.msg.rseq = m.rseq)) = some r) ∧ (r.got.length + (trimMsg m).data.length < msgDataLen r.msg)) ∧
    (∃ (s : State) (p : Fin 32) (m : Msg) (r : OReq), (comesIn s p m) ∧ (reqsFresh s) ∧ ((s.reqs.find? fun r => decide (r.phase = .data) && decide (r.msg.src = m.src) && decide (r.msg.stream = m.stream) && decide (r.msg.rseq = m.rseq)) = some r) ∧ (msgDataLen r.msg ≤ r.got.length + (trimMsg m).data.length) ∧ ((r.msg.opcode = 4 ∨ r.msg.opcode = 5 ∨ r.msg.opcode = 6 ∨ r.msg.opcode = 8)) ∧ r.coh = false ∧ orderBlocked s r = false) ∧
    (∃ (s : State) (p : Fin 32) (m : Msg) (r : OReq), (comesIn s p m) ∧ (reqsFresh s) ∧ ((s.reqs.find? fun r => decide (r.phase = .data) && decide (r.msg.src = m.src) && decide (r.msg.stream = m.stream) && decide (r.msg.rseq = m.rseq)) = some r) ∧ (msgDataLen r.msg ≤ r.got.length + (trimMsg m).data.length) ∧ orderBlocked s r = true) :=
  ⟨⟨sv, 0, rqLine, te, .wrFull 0 rqLine, 4, by decide +kernel⟩,
   ⟨sv, 0, rqLine, te, by decide +kernel⟩,
   ⟨svd .s [0, 1] [], 0, rqLine, teC, 0, 24576, by decide +kernel⟩,
   ⟨{ sv with serialNo := 1, reqs := [{ rq with msg := { rqLine with opcode := 4 }, phase := .data }] }, 0, { rqMsg with data := List.replicate 64 7 }, { rq with msg := { rqLine with opcode := 4 }, phase := .data }, by decide +kernel⟩,
   ⟨{ sv with serialNo := 1, reqs := [{ rq with msg := { rqLine with opcode := 4 }, phase := .data }] }, 0, { rqMsg with data := List.replicate 128 7 }, { rq with msg := { rqLine with opcode := 4 }, phase := .data }, by decide +kernel⟩,
   ⟨{ sv with serialNo := 2, reqs := [{ rq with id := 1, msg := { rqLine with opcode := 4, rseq := 2 } }, { rq with msg := { rqLine with opcode := 4 }, phase := .data }] }, 0, { rqMsg with data := List.replicate 128 7 }, { rq with msg := { rqLine with opcode := 4 }, phase := .data }, by decide +kernel⟩⟩

theorem test_messages_are_answered_or_passed_on :
    (∃ (s : State) (p : Fin 32) (m : Msg), (comesIn s p m) ∧ (¬ (1 ≤ m.opcode.toNat ∧ m.opcode.toNat ≤ 9))) ∧
    (∃ (s : State) (p : Fin 32) (m : Msg) (st : Status) (c : Instr) (n : BitVec 8), ((c, n) ∈ [(Instr.rdShared p m, 1), (.rdUnique p m, 2), (.rdOnce p m, 3), (.wrFull p m, 4), (.wrStash p m, 5), (.wbDirty p m, 6), (.evictClean p m, 7), (.atOp p m, 8), (.mcastRead p m, 9)]) ∧ (comesIn s p m) ∧ (checks2to5 s { m with opcode := n } = some st)) ∧
    (∃ (s : State) (p : Fin 32) (cls : MsgClass) (m : Msg) (q : Nat), s.alive = true ∧ delivers s p.val = true ∧ s.bound m.src.toNat p.val = true ∧ isLocal s m = false ∧ (egressTo s m.dst.toNat = some q) ∧ (((cls = .req ∧ m.dst ≠ 0xFFF) ∨ (cls ≠ .req ∧ opReserved cls m.opcode.toNat = false ∧ forStale s p cls m = false)))) ∧
    (∃ (s : State) (p : Fin 32) (m : Msg) (q : Nat), s.alive = true ∧ delivers s p.val = true ∧ s.bound m.src.toNat p.val = true ∧ isLocal s m = false ∧ (egressTo s m.dst.toNat = some q) ∧ forStale s p .dat m = true) ∧
    (∃ (s : State) (p : Fin 32) (cls : MsgClass) (m : Msg), s.alive = true ∧ delivers s p.val = true ∧ s.bound m.src.toNat p.val = true ∧ (cls ≠ .req) ∧ opReserved cls m.opcode.toNat = true) ∧
    (∃ (s : State) (p : Fin 32) (m : Msg), s.alive = true ∧ delivers s p.val = true ∧ s.bound m.src.toNat p.val = true ∧ s.mcValid m.aux.toNat = true ∧ (((s.mcWord m.aux.toNat 1).testBit 30 = false ∨ m.data = []))) ∧
    (∃ (s : State) (p : Fin 32) (m : Msg) (e : TileEnt) (va : Nat), s.alive = true ∧ delivers s p.val = true ∧ (reqsFresh s) ∧ s.bound m.src.toNat p.val = true ∧ s.mcValid m.aux.toNat = true ∧ ((s.mcWord m.aux.toNat 1).testBit 30 = true) ∧ (m.data ≠ []) ∧ (va = ((s.mcWord m.aux.toNat 3 % 65536) * 2 ^ 32 + s.mcWord m.aux.toNat 2 / 128 * 128 + m.len.toNat) % 2 ^ 48) ∧ (va % 128 + m.data.length ≤ 128) ∧ ((s.tenant (s.mcWord m.aux.toNat 1 % 128)).state = .live) ∧ (translate s (s.mcWord m.aux.toNat 1 % 128) va true = .ok e) ∧ e.coherent = false) ∧
    (∃ (s : State) (k : BitVec 12) (rseq : BitVec 16) (r : OReq), s.alive = true ∧ (reqsFresh s) ∧ ((s.reqs.find? fun r => decide (r.msg.stream = k) && decide (r.msg.rseq = rseq) && r.endSt.isSome && decide (r.toHand = 0) && decide (r.phase = .run)) = some r) ∧ r.msg.opcode = 9 ∧ r.silent = false ∧ portUsable s r.port.val = true) :=
  ⟨⟨sv, 0, { rqMsg with opcode := 0x30 }, by decide +kernel⟩,
   ⟨sv, 0, { rqMsg with tenant := 5 }, .noGrant, .rdOnce 0 { rqMsg with tenant := 5 }, 3, by decide +kernel⟩,
   ⟨{ sv with insts := sv.insts.take 2 ++ [(256, { active := [(7, 0x80000000)] })] ++ sv.insts.drop 2 }, 0, .req, { rqMsg with dst := 7 }, 0, by decide +kernel⟩,
   ⟨{ sv with insts := sv.insts.take 2 ++ [(256, { active := [(7, 0x80000000)] })] ++ sv.insts.drop 2, xpt := { sv.xpt with staleFwd := [fwdKey 0 m61] } }, 0, m61, 0, by decide +kernel⟩,
   ⟨sv, 0, .rsp, { rqMsg with opcode := 0x4F }, by decide +kernel⟩,
   ⟨{ sv with insts := sv.insts.take 3 ++ [(258, { active := [(17, 0x81000000)] })] ++ sv.insts.drop 3 }, 0, { rqMsg with aux := 1 }, by decide +kernel⟩,
   ⟨mcS sv, 0, { rqMsg with aux := 1, len := 0, data := [1, 2] }, te, 0, by decide +kernel⟩,
   ⟨{ sv with serialNo := 1, reqs := [{ rq with msg := { rqMsg with opcode := 9 }, endSt := some .ok }] }, 5, 1, { rq with msg := { rqMsg with opcode := 9 }, endSt := some .ok }, by decide +kernel⟩⟩

theorem test_agents_answer_the_directory :
    (∃ (s : State) (p : Fin 32) (m : Msg) (a : Nat) (k : Trk) (c : Instr) (kept : Bool), ((c, kept) ∈ [(Instr.snpAckInv p m, k.kept), (.snpAckShared p m, true)]) ∧ (comesIn s p m) ∧ (agentOf s m.src = some a) ∧ (awaited s m.len.toNat a [.sd, .rc] = some k) ∧ ((k.waits.filter fun w => decide (w.agent ≠ a)) ≠ [])) ∧
    (∃ (s : State) (p : Fin 32) (m : Msg) (a : Nat) (k : Trk) (c : Instr) (kept : Bool), ((c, kept) ∈ [(Instr.datSnpS p m, true), (.datSnpI p m, k.kept)]) ∧ (comesIn s p m) ∧ (agentOf s m.src = some a) ∧ (awaited s m.len.toNat a [.sd, .rc] = some k) ∧ ((k.waits.filter fun w => decide (w.agent ≠ a)) ≠ []) ∧ k.drop = false) ∧
    (∃ (s : State) (p : Fin 32) (m : Msg) (a : Nat) (k : Trk) (slot : Nat) (c : Instr), (c ∈ [Instr.snpAckInv p m, .snpAckShared p m, .datSnpS p m, .datSnpI p m]) ∧ (comesIn s p m) ∧ (agentOf s m.src = some a) ∧ (awaited s m.len.toNat a [.sd, .rc] = some k) ∧ ((k.waits.filter fun w => decide (w.agent ≠ a)) = []) ∧ k.st = .rc ∧ (k.slot = some slot)) ∧
    (∃ (s : State) (p : Fin 32) (m : Msg) (a : Nat) (k : Trk) (slot : Nat) (r : OReq) (c : Instr) (kept : Bool), ((c, kept) ∈ [(Instr.snpAckInv p m, k.kept), (.snpAckShared p m, true)]) ∧ (comesIn s p m) ∧ (agentOf s m.src = some a) ∧ (awaited s m.len.toNat a [.sd, .rc] = some k) ∧ ((k.waits.filter fun w => decide (w.agent ≠ a)) = []) ∧ k.st = .sd ∧ (k.slot = some slot) ∧ k.engine = none ∧ (k.req = some r.id) ∧ (s.req r.id = some r) ∧ ((r.msg.opcode = 1 ∨ r.msg.opcode = 3))) ∧
    (∃ (s : State) (p : Fin 32) (m : Msg) (a : Nat) (k : Trk), (comesIn s p m) ∧ (agentOf s m.src = some a) ∧ (awaited s m.len.toNat a [.ga] = some k)) ∧
    (∃ (s : State) (p : Fin 32) (m : Msg) (a : Nat) (k : Trk) (slot : Nat), (comesIn s p m) ∧ (agentOf s m.src = some a) ∧ (awaited s m.len.toNat a [.so] = some k) ∧ (k.slot = some slot)) ∧
    (∃ (s : State) (p : Fin 32) (m : Msg) (c : Instr), (c ∈ [Instr.snpAckInv p m, .snpAckShared p m, .datSnpS p m, .datSnpI p m, .stashAccept p m, .stashDecline p m, .compAck p m]) ∧ (comesIn s p m) ∧ agentOf s m.src = none) :=
  ⟨⟨svd .s [0, 1] [tk .sd [0, 1]], 0, hdl, 0, tk .sd [0, 1], .snpAckInv 0 hdl, false, by decide +kernel⟩,
   ⟨svd .s [0, 1] [tk .sd [0, 1]], 0, hdl, 0, tk .sd [0, 1], .datSnpS 0 hdl, true, by decide +kernel⟩,
   ⟨svd .s [0] [tk .rc [0]], 0, hdl, 0, tk .rc [0], 24576, .datSnpI 0 hdl, by decide +kernel⟩,
   ⟨{ svd .s [0] [{ tk .sd [0] with req := some 0 }] with serialNo := 1, reqs := [{ rq with msg := { rqLine with opcode := 1 }, coh := true }] }, 0, hdl, 0, { tk .sd [0] with req := some 0 }, 24576, { rq with msg := { rqLine with opcode := 1 }, coh := true }, .snpAckShared 0 hdl, true, by decide +kernel⟩,
   ⟨svd .e [0] [tk .ga [0]], 0, hdl, 0, tk .ga [0], by decide +kernel⟩,
   ⟨svd .i [] [tk .so [0]], 0, hdl, 0, tk .so [0], 24576, by decide +kernel⟩,
   ⟨sv, 0, hdl, .compAck 0 hdl, by decide +kernel⟩⟩

theorem test_election_follows_the_best_claim :
    (∃ (s : State) (p : Fin 32) (c : Claim) (e : Elect), (lmcReady s p) ∧ isEcho s.xpt.elect c = false ∧ ((∀ x ∈ s.xpt.elect.own.toList ++ s.xpt.elect.heard, x.serial = c.serial → x.nonce = c.nonce)) ∧ (e = { s.xpt.elect with heard := if s.xpt.elect.heard.contains c then s.xpt.elect.heard else s.xpt.elect.heard ++ [c] })) ∧
    (∃ (s : State) (p : Fin 32) (c : Claim) (x : Claim), (lmcReady s p) ∧ isEcho s.xpt.elect c = false ∧ (x ∈ s.xpt.elect.own.toList ++ s.xpt.elect.heard) ∧ x.serial = c.serial ∧ (x.nonce ≠ c.nonce) ∧ c.serial = s.nid.serial) ∧
    (∃ (s : State) (p : Fin 32) (c : Claim), (lmcReady s p) ∧ isEcho s.xpt.elect c = false ∧ ((s.xpt.elect.state = 1 ∨ s.xpt.elect.state = 3 ∨ s.xpt.elect.state = 4)) ∧ ((s.xpt.elect.expiry.isSome = true → beatsOwn s.xpt.elect c = true))) ∧
    (∃ (s : State) (p : Fin 32) (c : Claim), (lmcReady s p) ∧ isEcho s.xpt.elect c = false ∧ s.xpt.elect.state = 5 ∧ s.xpt.elect.expiry.isSome = true ∧ beatsOwn s.xpt.elect c = true) ∧
    (∃ (s : State) (p : Fin 32) (c : Claim), (lmcReady s p) ∧ isEcho s.xpt.elect c = false ∧ s.xpt.elect.state = 2 ∧ beatsOwn s.xpt.elect c = true) ∧
    (∃ (s : State) (b : Nat) (c : Claim), atBoundary s = true ∧ procRuns s .fmp = true ∧ (s.xpt.elect.expiry = some b) ∧ (b ≤ s.clk.now) ∧ (s.xpt.elect.state ≠ 5) ∧ (s.xpt.elect.best = some c)) ∧
    (∃ (s : State) (b : Nat), atBoundary s = true ∧ procRuns s .fmp = true ∧ (s.xpt.elect.expiry = some b) ∧ (b ≤ s.clk.now) ∧ (s.xpt.elect.state ≠ 5) ∧ s.xpt.elect.best = none) ∧
    (∃ (s : State) (b : Nat), atBoundary s = true ∧ procRuns s .fmp = true ∧ (s.xpt.elect.expiry = some b) ∧ (b ≤ s.clk.now) ∧ s.xpt.elect.state = 5) :=
  ⟨⟨el { state := 1, own := some (clm 1 7) }, 0, clm 2 5, { state := 1, own := some (clm 1 7), heard := [clm 2 5] }, by decide +kernel⟩,
   ⟨el { state := 1, own := some (clm 1 7) }, 0, clm 2 7, clm 1 7, by decide +kernel⟩,
   ⟨el { state := 1, own := some (clm 1 7) }, 0, clm 2 5, by decide +kernel⟩,
   ⟨el { state := 5, expiry := some 1100, own := some (clm 1 7) }, 0, clm 2 5, by decide +kernel⟩,
   ⟨el { state := 2, own := some (clm 1 7) }, 0, clm 2 5, by decide +kernel⟩,
   ⟨el { state := 1, expiry := some 1000, own := some (clm 1 7) }, 1000, clm 1 7, by decide +kernel⟩,
   ⟨el { state := 1, expiry := some 1000 }, 1000, by decide +kernel⟩,
   ⟨el { state := 5, expiry := some 1000 }, 1000, by decide +kernel⟩⟩

theorem test_endpoints_and_routes_are_given_out :
    (∃ (s : State) (p : Fin 32) (kind : Byte) (serial : BitVec 64), (lmcReady s p) ∧ procWorks s .fmp = true ∧ (kind.toNat < 3) ∧ s.xpt.elect.state = 2 ∧ ((∀ x ∈ s.xpt.elect.joined, x.serial ≠ serial)) ∧ (s.xpt.elect.nextId ≤ 0xFFE)) ∧
    (∃ (s : State) (p : Fin 32) (v : Fin 32) (kind : Byte), (lmcReady s p) ∧ (kind.toNat < 3) ∧ (s.xpt.elect.state ≠ 2) ∧ (s.xpt.elect.coordVia = some v) ∧ portUsable s v.val = true) ∧
    (∃ (s : State) (p : Fin 32), (lmcReady s p)) ∧
    (∃ (s : State) (p : Fin 32) (dst : BitVec 12), (lmcReady s p) ∧ procWorks s .fmp = true ∧ ((s.shadowAt routeInst dst.toNat).getLsbD 30 = false) ∧ ((s.shadowAt bindInst (2 * dst.toNat + 1)).getLsbD 30 = false)) ∧
    (∃ (s : State) (p : Fin 32) (dst : BitVec 12), (lmcReady s p) ∧ procWorks s .fmp = true ∧ ((s.shadowAt routeInst dst.toNat).getLsbD 30 = true) ∧ ((s.shadowAt bindInst (2 * dst.toNat + 1)).getLsbD 30 = true)) ∧
    (∃ (s : State) (p : Fin 32) (dst : BitVec 12), (lmcReady s p) ∧ procWorks s .fmp = true ∧ ((s.shadowAt routeInst dst.toNat).getLsbD 30 = true) ∧ ((s.shadowAt bindInst (2 * dst.toNat + 1)).getLsbD 30 = false)) ∧
    (∃ (s : State) (p : Fin 32) (v : Fin 32) (serial : BitVec 64), (lmcReady s p) ∧ procWorks s .fmp = true ∧ (serial ≠ s.nid.serial) ∧ (viaOf s.xpt.elect serial = some v) ∧ portUsable s v.val = true) :=
  ⟨⟨el { state := 2, own := some (clm 1 7) }, 0, 0, 9, by decide +kernel⟩,
   ⟨el { state := 3, coordVia := some 0 }, 0, 0, 0, by decide +kernel⟩,
   ⟨sv, 0, by decide +kernel⟩,
   ⟨sv, 0, 4, by decide +kernel⟩,
   ⟨{ sv with insts := sv.insts.take 2 ++ [(256, { shadow := [(4, 0x40000000)] }), (257, { shadow := [(9, 0x40000000)] })] ++ sv.insts.drop 3 }, 0, 4, by decide +kernel⟩,
   ⟨{ sv with insts := sv.insts.take 2 ++ [(256, { shadow := [(4, 0x40000000)] }), (257, { shadow := [(9, 0)] })] ++ sv.insts.drop 3 }, 0, 4, by decide +kernel⟩,
   ⟨el { state := 3, via := [(9, 0)] }, 0, 0, 9, by decide +kernel⟩⟩

theorem test_mesh_packets_move_and_arrive :
    (∃ (s : State) (st : Fin 192) (pl : Plane) (m : MeshIn), s.alive = true ∧ fitsPlane pl m.pkt = true ∧ stationDown s st.val = false ∧ m.hdr = .clean ∧ m.payBad = false ∧ m.pkt.multi = false ∧ m.pkt.course = false ∧ m.pkt.dest = st ∧ m.pkt.waypoint = none ∧ m.unitFull = false ∧ (s.msh.early = []) ∧ (m.pkt.pseq.toNat = Tbl.get 0 s.msh.expect (expectKey st.val m.pkt.src.val pl))) ∧
    (∃ (s : State) (st : Fin 192) (pl : Plane) (m : MeshIn) (d : Dir), s.alive = true ∧ fitsPlane pl m.pkt = true ∧ stationDown s st.val = false ∧ ((m.hdr = .clean ∨ m.hdr = .corrected)) ∧ m.payBad = false ∧ m.pkt.multi = false ∧ m.pkt.course = false ∧ (m.pkt.dest ≠ st) ∧ ((productive s st.val m.pkt).find? (freeLinks s st.val).contains = some d)) ∧
    (∃ (s : State) (st : Fin 192) (pl : Plane) (m : MeshIn), s.alive = true ∧ fitsPlane pl m.pkt = true ∧ stationDown s st.val = false ∧ m.hdr = .clean ∧ m.payBad = false ∧ m.pkt.multi = false ∧ m.pkt.course = false ∧ (m.pkt.dest ≠ st) ∧ (freeLinks s st.val ≠ []) ∧ ((productive s st.val m.pkt).find? (freeLinks s st.val).contains = none)) ∧
    (∃ (s : State) (pl : Plane) (ps : List MeshIn) (m : MeshIn), s.alive = true ∧ ((∀ x ∈ ps, fitsPlane pl x.pkt = true)) ∧ (m ∈ ps) ∧ m.hdr = .uncorrectable) ∧
    (∃ (s : State) (st : Fin 192) (pl : Plane) (free : List Dir) (p : MeshPkt), s.alive = true ∧ fitsPlane pl p = true ∧ stationDown s st.val = false ∧ ((∃ d ∈ free, linkOn s st.val d = true)) ∧ (planeKey st.val pl ∉ s.msh.throttled) ∧ p.multi = false ∧ p.course = false) ∧
    (∃ (s : State) (st : Fin 192) (pl : Plane) (p : MeshPkt), s.alive = true ∧ fitsPlane pl p = true ∧ p.multi = false ∧ p.course = false ∧ (planeKey st.val pl ∈ s.msh.throttled) ∧ (bits s.msh.throttle 15 8 ≤ (recentDefl s (planeKey st.val pl)).length) ∧ (cycleNow s < Tbl.get 0 s.msh.lastInj (planeKey st.val pl) + bits s.msh.throttle 3 0)) ∧
    (∃ (s : State) (row : Bool) (line : Fin 16) (p : MeshPkt), s.alive = true ∧ fitsPlane .dat p = true ∧ p.multi = true ∧ onLine row line.val p.src.val = true ∧ ((p.course = true ∨ (blackout s = false ∧ multiBusy s row line.val = false)))) ∧
    (∃ (s : State) (row : Bool) (line : Fin 16) (p : MeshPkt), s.alive = true ∧ fitsPlane .dat p = true ∧ p.multi = true ∧ ((onLine row line.val p.src.val = false ∨ (p.course = false ∧ (blackout s = true ∨ multiBusy s row line.val = true))))) ∧
    (∃ (s : State) (st : Fin 192) (m : MeshIn), s.alive = true ∧ fitsPlane .dat m.pkt = true ∧ stationDown s st.val = false ∧ m.hdr = .clean ∧ m.payBad = false ∧ m.pkt.course = true) ∧
    (∃ (s : State) (st : Fin 192) (m : MeshIn), s.alive = true ∧ fitsPlane .dat m.pkt = true ∧ stationDown s st.val = false ∧ m.hdr = .clean ∧ m.payBad = false ∧ m.pkt.course = false ∧ m.pkt.multi = true) :=
  ⟨⟨sv, 40, .req, { pkt := mp 40, inPort := 0 }, by decide +kernel⟩,
   ⟨sv, 40, .req, { pkt := mp 47, inPort := 0 }, .xPlus, by decide +kernel⟩,
   ⟨{ sv with msh := { sv.msh with disabled := [24, 41, 56] } }, 40, .req, { pkt := mp 47, inPort := 0 }, by decide +kernel⟩,
   ⟨sv, .req, [{ pkt := mp 41, inPort := 0, hdr := .uncorrectable }], { pkt := mp 41, inPort := 0, hdr := .uncorrectable }, by decide +kernel⟩,
   ⟨sv, 40, .req, [.xPlus], mp 47, by decide +kernel⟩,
   ⟨{ sv with msh := { sv.msh with throttled := [planeKey 40 .req], stamps := [(planeKey 40 .req, List.replicate 32 8192000)], lastInj := [(planeKey 40 .req, 8191999)] } }, 40, .req, mp 47, by decide +kernel⟩,
   ⟨{ sv with clk := { sv.clk with cycle := 0 } }, true, 3, { mp 47 with src := 48, multi := true }, by decide +kernel⟩,
   ⟨sv, true, 5, { mp 47 with src := 48, multi := true }, by decide +kernel⟩,
   ⟨sv, 40, { pkt := { mp 47 with course := true, multi := true }, inPort := 0 }, by decide +kernel⟩,
   ⟨sv, 50, { pkt := { mp 47 with src := 48, multi := true, payload := [0xFF, 0xFF] }, inPort := 0 }, by decide +kernel⟩⟩

theorem test_tile_map_takes_free_tiles :
    (∃ (s : State) (fn : Fn) (m : MbxHdr) (tenant : Byte) (tile : Word) (count : BitVec 16) (tier : Byte) (a : Nat) (b : Nat), (mbxReady s fn m 9) ∧ badCount count = false ∧ (tier.toNat ≤ 2) ∧ tenantCheck s fn tenant.toNat false = none ∧ (splitTiers s (s.tenant tenant.toNat).part count.toNat tier.toNat = (a, b)) ∧ (tile.toNat + count.toNat ≤ 2 ^ 27) ∧ ((a ≠ 0 → (s.part (s.tenant tenant.toNat).part).nearUsed + a ≤ (s.part (s.tenant tenant.toNat).part).nearQuota)) ∧ ((b ≠ 0 → (s.part (s.tenant tenant.toNat).part).bulkUsed + b ≤ (s.part (s.tenant tenant.toNat).part).bulkQuota)) ∧ mapCommit s tenant.toNat = false ∧ ((∀ k ∈ tilesFrom tile.toNat count.toNat, (s.tileShadow tenant.toNat k).valid = false)) ∧ (a ≤ freeCount s .near) ∧ (b ≤ freeCount s .bulk) ∧ (storeFull s tenant.toNat (tilesFrom tile.toNat count.toNat) = false)) :=
  ⟨sv, fn0, mb 9, 1, 2, 1, 0, 1, 0, by decide +kernel⟩

theorem test_tile_commands_change_shadows :
    (∃ (s : State) (fn : Fn) (m : MbxHdr) (tenant : Byte) (tile : Word) (count : BitVec 16), (mbxReady s fn m 7) ∧ badCount count = false ∧ tenantCheck s fn tenant.toNat false = none ∧ notOwned s tenant.toNat tile.toNat count.toNat = false ∧ anyMigrating s tenant.toNat tile.toNat count.toNat = false ∧ mapCommit s tenant.toNat = false ∧ ((∀ g ∈ mirrorsOfTiles s tenant.toNat (tilesFrom tile.toNat count.toNat), mapCommit s g.1 = false))) ∧
    (∃ (s : State) (fn : Fn) (m : MbxHdr) (tenant : Byte) (tile : Word) (count : BitVec 16) (ro : Byte), (mbxReady s fn m 8) ∧ badCount count = false ∧ (ro.toNat ≤ 1) ∧ tenantCheck s fn tenant.toNat false = none ∧ notOwned s tenant.toNat tile.toNat count.toNat = false ∧ anyMigrating s tenant.toNat tile.toNat count.toNat = false ∧ mapCommit s tenant.toNat = false ∧ ((∀ g ∈ mirrorsOfTiles s tenant.toNat (tilesFrom tile.toNat count.toNat), mapCommit s g.1 = false))) ∧
    (∃ (s : State) (fn : Fn) (m : MbxHdr) (owner : Byte) (tile : Word) (count : BitVec 16) (grantee : Byte) (gtile : Word) (mode : Byte), (mbxReady s fn m 13) ∧ badCount count = false ∧ (mode.toNat ≤ 1) ∧ grantCheck s fn owner.toNat grantee.toNat = none ∧ (gtile.toNat + count.toNat ≤ 2 ^ 27) ∧ notOwned s owner.toNat tile.toNat count.toNat = false ∧ ((∀ k ∈ tilesFrom tile.toNat count.toNat, (mirrorsOf s (s.tileShadow owner.toNat k).tier (s.tileShadow owner.toNat k).phys).length < 16)) ∧ mapCommit s grantee.toNat = false ∧ ((∀ k ∈ tilesFrom gtile.toNat count.toNat, (s.tileShadow grantee.toNat k).valid = false)) ∧ (storeFull s grantee.toNat (tilesFrom gtile.toNat count.toNat) = false) ∧ anyMigrating s owner.toNat tile.toNat count.toNat = false) ∧
    (∃ (s : State) (fn : Fn) (m : MbxHdr) (grantee : Byte) (gtile : Word) (count : BitVec 16), (mbxReady s fn m 7) ∧ badCount count = false ∧ tenantCheck s fn grantee.toNat true = none ∧ (gtile.toNat + count.toNat ≤ 2 ^ 27) ∧ ((∀ k ∈ tilesFrom gtile.toNat count.toNat, (s.tileShadow grantee.toNat k).valid = true ∧ (s.tileShadow grantee.toNat k).shared = true ∧ mayGrant s fn (s.tileShadow grantee.toNat k).keyT grantee.toNat = true)) ∧ anyMigrating s grantee.toNat gtile.toNat count.toNat = false ∧ mapCommit s grantee.toNat = false) :=
  ⟨⟨sv, fn0, mb 7, 1, 0, 2, by decide +kernel⟩,
   ⟨sv, fn0, mb 8, 1, 0, 2, 1, by decide +kernel⟩,
   ⟨sv2, fn0, mb 13, 1, 1, 1, 2, 8, 0, by decide +kernel⟩,
   ⟨sv2, fn0, mb 7, 2, 5, 1, by decide +kernel⟩⟩

theorem test_migrations_run_their_steps :
    (∃ (s : State) (fn : Fn) (m : MbxHdr) (tenant : Byte) (tile : Word) (tier : Byte) (dst : Tier) (k : Nat), (mbxReady s fn m 6) ∧ (tier.toNat ≤ 1) ∧ (dst = Tier.ofBit (decide (tier = 1))) ∧ tenantCheck s fn tenant.toNat false = none ∧ (tile.toNat < 2 ^ 27) ∧ ((s.tileShadow tenant.toNat tile.toNat).valid = true) ∧ ((s.tileShadow tenant.toNat tile.toNat).shared = false) ∧ (s.tileAt tenant.toNat tile.toNat = s.tileShadow tenant.toNat tile.toNat) ∧ ((s.tileShadow tenant.toNat tile.toNat).migrating = false) ∧ (freeMig s = some k) ∧ (dst ≠ (s.tileShadow tenant.toNat tile.toNat).tier) ∧ ((match dst with | .near => (s.part (s.tenant tenant.toNat).part).nearUsed < (s.part (s.tenant tenant.toNat).part).nearQuota | .bulk => (s.part (s.tenant tenant.toNat).part).bulkUsed < (s.part (s.tenant tenant.toNat).part).bulkQuota)) ∧ (0 < freeCount s dst)) ∧
    (∃ (s : State), (mrpIdle s)) ∧
    (∃ (s : State) (t : Tier) (p : BitVec 22) (a : Nat) (b : Nat), atBoundary s = true ∧ (s.use (tileKey t p.toNat) = .owned a b) ∧ namedActive s t p.toNat = false ∧ namedShadow s t p.toNat = false ∧ inMigration s t p.toNat = false) ∧
    (∃ (s : State) (t : Tier) (p : BitVec 22), ((atBoundary s = false ∨ namedActive s t p.toNat = true ∨ namedShadow s t p.toNat = true ∨ inMigration s t p.toNat = true ∨ s.use (tileKey t p.toNat) = .free))) ∧
    (∃ (s : State) (k : Fin 16), s.alive = true ∧ ((s.mig k).state = 1) ∧ ((s.mig k).waiting = false) ∧ ((s.mig k).parked = false) ∧ migStep k s = true ∧ (8 < (s.mig k).dirty.length) ∧ ((s.mig k).passes + 1 < 8)) ∧
    (∃ (s : State) (k : Fin 16), s.alive = true ∧ ((s.mig k).state = 1) ∧ ((s.mig k).waiting = false) ∧ ((s.mig k).parked = false) ∧ migStep k s = true ∧ (¬ (8 < (s.mig k).dirty.length ∧ (s.mig k).passes + 1 < 8))) ∧
    (∃ (s : State) (k : Fin 16) (b : Fin 512) (c : Instr), (c ∈ [Instr.migrationPassDone k, .migrationFinalPass k, .migrationBlockCopied k b]) ∧ migStep k s = false) ∧
    (∃ (s : State) (k : Fin 16), s.alive = true ∧ ((s.mig k).state = 3) ∧ (namedActive s (s.mig k).srcTier (s.mig k).src = false) ∧ migStep k s = true) ∧
    (∃ (s : State) (k : Fin 16) (b : Fin 512), s.alive = true ∧ ((s.mig k).state = 4) ∧ (b.val ∈ (s.mig k).dirty) ∧ migStep k s = true) ∧
    (∃ (s : State) (k : Fin 16) (b : Nat), atBoundary s = true ∧ ((s.mig k).state = 4) ∧ ((s.mig k).dirty = []) ∧ ((s.mig k).relAt = some b) ∧ (b ≤ s.clk.now) ∧ procWorks s .mrp = true) :=
  ⟨⟨sv, fn0, mb 6, 1, 0, 1, .bulk, 0, by decide +kernel⟩,
   ⟨sv, ⟨rfl, by decide +kernel⟩⟩,
   ⟨{ sv with til := { sv.til with uses := [(7, .owned 1 0)] } }, .near, 7, 1, 0, by decide +kernel⟩,
   ⟨sv, .near, 9, by decide +kernel⟩,
   ⟨mg { state := 1, tenant := 1, src := 9, dstTier := .bulk, dst := 1, dirty := List.range 9 }, 0, by decide +kernel⟩,
   ⟨mg { state := 1, tenant := 1, src := 3, dstTier := .bulk, dst := 1 }, 0, by decide +kernel⟩,
   ⟨{ mg { state := 1, tenant := 1, src := 9, dstTier := .bulk, dst := 1 } with flt := { sv.flt with wd := [(Proc.mrp.idx, { restarting := true })] } }, 0, 3, .migrationFinalPass 0, by decide +kernel⟩,
   ⟨mg { state := 3, tenant := 1, src := 9, dstTier := .bulk, dst := 1 }, 0, by decide +kernel⟩,
   ⟨mg { state := 4, tenant := 1, src := 9, dstTier := .bulk, dst := 1, dirty := [5] }, 0, 5, by decide +kernel⟩,
   ⟨mg { state := 4, tenant := 1, src := 9, dstTier := .bulk, dst := 1, relAt := some 1000 }, 0, 1000, by decide +kernel⟩⟩

theorem test_dram_serves_reads_and_writes :
    (∃ (s : State) (t : Tier) (l : BitVec 36) (o : MemOp), s.alive = true ∧ ((s.dram.queue.filter fun o => decide (o.tier = t) && decide (o.line = l.toNat)).head? = some o) ∧ o.write = false ∧ mayServe s o = true ∧ s.poisoned t l.toNat = false) ∧
    (∃ (s : State) (t : Tier) (l : BitVec 36) (o : MemOp) (w : MemOp) (r : List MemOp), s.alive = true ∧ ((s.dram.queue.filter fun o => decide (o.tier = t) && decide (o.line = l.toNat)) = w :: o :: r) ∧ w.write = true ∧ fullWrite w = true ∧ w.bad = false ∧ o.write = false ∧ mayServe s o = true) ∧
    (∃ (s : State) (t : Tier) (l : BitVec 36) (o : MemOp), s.alive = true ∧ ((s.dram.queue.filter fun o => decide (o.tier = t) && decide (o.line = l.toNat)).head? = some o) ∧ o.write = false ∧ mayServe s o = true ∧ s.poisoned t l.toNat = true) ∧
    (∃ (s : State) (t : Tier) (l : BitVec 36) (o : MemOp), s.alive = true ∧ ((s.dram.queue.find? fun o => o.write && decide (o.tier = t) && decide (o.line = l.toNat)) = some o) ∧ mayServe s o = true ∧ o.bad = false ∧ fullWrite o = true) ∧
    (∃ (s : State) (t : Tier) (l : BitVec 36) (o : MemOp), s.alive = true ∧ ((s.dram.queue.find? fun o => o.write && decide (o.tier = t) && decide (o.line = l.toNat)) = some o) ∧ mayServe s o = true ∧ o.bad = false ∧ fullWrite o = false ∧ o.atomic = none ∧ s.poisoned t l.toNat = false) ∧
    (∃ (s : State) (o : MemOp), mayServe s o = false) ∧
    (∃ (a : Nat) (b : Nat), (a ≤ 1) ∧ (b ≤ 1) ∧ (a + b ≠ 0)) ∧
    (∃ (a : Nat) (e : EccErr), (2 ≤ a) ∧ (a ≤ 3) ∧ ((e.sym0 = a ∨ e.sym1 = a))) ∧
    (∃ (e : EccErr), (1 ≤ e.sym0) ∧ (e.sym0 ≤ 4)) ∧
    (∃ (e : EccErr), (5 ≤ e.sym0) ∧ (e.sym0 ≤ 12)) ∧
    (∃ (s : State) (t : Tier) (l : BitVec 36) (e : EccErr) (o : MemOp) (d : Bool), s.alive = true ∧ ((s.dram.queue.filter fun o => decide (o.tier = t) && decide (o.line = l.toNat)).head? = some o) ∧ o.write = false ∧ mayServe s o = true ∧ (decodeRead t (s.poisoned t l.toNat) e = .corrected d)) ∧
    (∃ (s : State) (t : Tier) (l : BitVec 36) (e : EccErr) (o : MemOp), s.alive = true ∧ ((s.dram.queue.filter fun o => decide (o.tier = t) && decide (o.line = l.toNat)).head? = some o) ∧ o.write = false ∧ mayServe s o = true ∧ (decodeRead t (s.poisoned t l.toNat) e = .uncorrectable) ∧ (s.til.overflow = []) ∧ (s.til.bogs.length < 4096) ∧ (liveBogs s t (l.toNat / 16384) < 15)) ∧
    (∃ (s : State) (t : Tier) (l : BitVec 36), s.alive = true ∧ ((s.dram.queue.filter fun o => decide (o.tier = t) && decide (o.line = l.toNat)) = []) ∧ engineReads s t l.toNat = true) :=
  ⟨⟨dr [{ write := false, tier := .near, line := 49152, keyT := 1 }], .near, 49152, { write := false, tier := .near, line := 49152, keyT := 1 }, by decide +kernel⟩,
   ⟨dr [{ write := true, tier := .near, line := 49152, keyT := 1, data := List.replicate 128 7, at_ := 9000000 }, { write := false, tier := .near, line := 49152, keyT := 1, at_ := 9000000 }], .near, 49152, { write := false, tier := .near, line := 49152, keyT := 1, at_ := 9000000 }, { write := true, tier := .near, line := 49152, keyT := 1, data := List.replicate 128 7, at_ := 9000000 }, [], by decide +kernel⟩,
   ⟨{ dr [{ write := false, tier := .near, line := 49152, keyT := 1 }] with dram := { (dr [{ write := false, tier := .near, line := 49152, keyT := 1 }]).dram with poison := [(49152, true)] } }, .near, 49152, { write := false, tier := .near, line := 49152, keyT := 1 }, by decide +kernel⟩,
   ⟨dr [{ write := true, tier := .near, line := 49152, keyT := 1, data := List.replicate 128 7 }], .near, 49152, { write := true, tier := .near, line := 49152, keyT := 1, data := List.replicate 128 7 }, by decide +kernel⟩,
   ⟨dr [{ write := true, tier := .near, line := 49152, keyT := 1, off := 4, data := [7, 7] }], .near, 49152, { write := true, tier := .near, line := 49152, keyT := 1, off := 4, data := [7, 7] }, by decide +kernel⟩,
   ⟨dr [{ write := false, tier := .near, line := 49152, keyT := 1, gate := some 0 }], { write := false, tier := .near, line := 49152, keyT := 1, gate := some 0 }, by decide +kernel⟩,
   ⟨1, 0, by decide +kernel⟩,
   ⟨2, { sym0 := 2 }, by decide +kernel⟩,
   ⟨{ sym0 := 4 }, by decide +kernel⟩,
   ⟨{ sym0 := 12 }, by decide +kernel⟩,
   ⟨dr [{ write := false, tier := .near, line := 49152, keyT := 1 }], .near, 49152, { sym0 := 1 }, { write := false, tier := .near, line := 49152, keyT := 1 }, false, by decide +kernel⟩,
   ⟨dr [{ write := false, tier := .near, line := 49152, keyT := 1 }], .near, 49152, { sym0 := 2 }, { write := false, tier := .near, line := 49152, keyT := 1 }, by decide +kernel⟩,
   ⟨dr [], .near, 49152, by decide +kernel⟩⟩

theorem test_refresh_and_rank_power :
    (∃ (s : State) (t : Tier) (ch : Nat) (bank : Nat), s.alive = true ∧ (ch < channels t) ∧ (bank < refreshBanks t) ∧ refreshable s t ch = true ∧ (banksBusy s t (refreshKeys t ch bank) = false)) ∧
    (∃ (s : State) (t : Tier) (ch : Nat) (bank : Nat), s.alive = true ∧ (ch < channels t) ∧ (bank < refreshBanks t) ∧ refreshable s t ch = true ∧ (banksBusy s t (refreshKeys t ch bank) = true) ∧ ((s.bank ((refreshKeys t ch bank).headD 0)).owed.length < 4)) ∧
    (∃ (s : State) (t : Tier) (ch : Nat) (bank : Nat) (l : List Nat) (r : List Nat), atBoundary s = true ∧ (ch < channels t) ∧ (bank < refreshBanks t) ∧ refreshable s t ch = true ∧ ((s.bank ((refreshKeys t ch bank).headD 0)).owed = l ++ r) ∧ (l ≠ []) ∧ ((∀ b ∈ l, b + bits (s.tier t).cfg 15 8 ≤ s.clk.now)) ∧ ((∀ b ∈ r, s.clk.now < b + bits (s.tier t).cfg 15 8))) ∧
    (∃ (s : State) (t : Tier) (ch : Nat) (rank : Nat), atBoundary s = true ∧ (ch < channels t) ∧ (rank < maxRanks t) ∧ refreshable s t ch = true ∧ (bits (s.tier t).cfg 31 24 ≠ 0) ∧ ((s.rank (rankKey t ch rank)).lastReq + bits (s.tier t).cfg 31 24 ≤ s.clk.now) ∧ (rank < ranksOf s t ch) ∧ (rankBusy s t (rankKey t ch rank) = false)) ∧
    (∃ (s : State) (t : Tier) (ch : Nat) (rank : Nat), s.alive = true ∧ (ch < channels t) ∧ (rank < maxRanks t) ∧ ((s.rank (rankKey t ch rank)).down = true) ∧ (rankBusy s t (rankKey t ch rank) = true)) :=
  ⟨⟨dr [], .near, 0, 3, by decide +kernel⟩,
   ⟨dr [{ write := false, tier := .near, line := 0, keyT := 1 }], .near, 0, 0, by decide +kernel⟩,
   ⟨{ dr [] with dram := { (dr []).dram with banks := [(3, { owed := [900, 1000] })] } }, .near, 0, 3, [900], [1000], by decide +kernel⟩,
   ⟨dr [], .near, 0, 1, by decide +kernel⟩,
   ⟨{ dr [{ write := false, tier := .near, line := 0, keyT := 1 }] with dram := { (dr [{ write := false, tier := .near, line := 0, keyT := 1 }]).dram with ranks := [(0, { down := true })] } }, .near, 0, 0, by decide +kernel⟩⟩

theorem test_tiers_sleep_wake_and_change_rate :
    (∃ (s : State) (fn : Fn), (adminBus s fn)) ∧
    (∃ (s : State) (fn : Fn) (t : Tier), (adminBus s fn) ∧ ((s.tier t).asleep = true)) ∧
    (∃ (s : State) (t : Tier), s.alive = true ∧ ((s.tier t).asleep = true)) ∧
    (∃ (s : State) (t : Tier), s.alive = true ∧ ((s.tier t).waking = true)) ∧
    (∃ (s : State) (fn : Fn), (adminBus s fn) ∧ s.dram.bulk.moving = none ∧ (s.dram.bulk.order ≠ [])) ∧
    (∃ (s : State) (r : Nat), s.alive = true ∧ (s.dram.bulk.moving = some r) ∧ ((∀ o ∈ s.dram.queue, o.tier = .bulk → o.held = true))) ∧
    (∃ (s : State), (s.dram.ceAt = some s.clk.now)) ∧
    (∃ (s : State), atBoundary s = true ∧ (s.clk.now % 65536 = 0) ∧ (s.dram.ceAt ≠ some s.clk.now)) ∧
    (∃ (s : State) (fn : Fn) (t : Tier) (ch : Nat), (adminBus s fn) ∧ (ch < channels t) ∧ ((s.chan (chanKey t ch)).suspect = true)) :=
  ⟨⟨sv, fn0, by decide +kernel⟩,
   ⟨{ dr [] with dram := { (dr []).dram with bulk := { (dr []).dram.bulk with asleep := true } } }, fn0, .bulk, by decide +kernel⟩,
   ⟨{ dr [] with dram := { (dr []).dram with bulk := { (dr []).dram.bulk with asleep := true } } }, .bulk, by decide +kernel⟩,
   ⟨{ dr [] with dram := { (dr []).dram with bulk := { (dr []).dram.bulk with asleep := true, waking := true } } }, .bulk, by decide +kernel⟩,
   ⟨dr [], fn0, by decide +kernel⟩,
   ⟨{ dr [] with dram := { (dr []).dram with bulk := { (dr []).dram.bulk with moving := some 3 } } }, 3, by decide +kernel⟩,
   ⟨{ sv with dram := { sv.dram with ceAt := some 1000 } }, by decide +kernel⟩,
   ⟨{ sv with clk := { sv.clk with now := 65536 } }, by decide +kernel⟩,
   ⟨{ sv with dram := { sv.dram with chans := [(5, { suspect := true })] } }, fn0, .near, 5, by decide +kernel⟩⟩

theorem test_directory_releases_recalls_and_times_out :
    (∃ (s : State) (fn : Fn) (m : MbxHdr) (ep : BitVec 16) (a : Nat), (mbxReady s fn m 2) ∧ s.isAdmin fn = true ∧ (ep.toNat ≤ 0xFFF) ∧ ((s.lookup bindInst (2 * ep.toNat + 1)).getLsbD 31 = false) ∧ (agentOf s (ep.setWidth 12) = some a) ∧ ((∀ w ∈ s.dir.sweeps, w.agent ≠ a))) ∧
    (∃ (s : State) (k : Fin 1024) (w : Sweep), s.alive = true ∧ ((s.dir.sweeps.find? fun w => decide (w.agent = k.val)) = some w)) ∧
    (∃ (s : State) (slot : Nat) (k : Trk) (w : Await), s.alive = true ∧ ((s.dir.trks.find? fun k => decide (k.slot = some slot)) = some k) ∧ k.st = .ga ∧ ((k.waits.filter fun w => decide (w.expiry ≤ s.clk.now)) = [w])) ∧
    (∃ (s : State) (t : Tier) (p : BitVec 22) (c : RecallCause) (slot : Nat) (e : DirEnt), s.alive = true ∧ recallStarts s t p.toNat c = true ∧ (s.dir.recallQ = []) ∧ ((c = .destroyed → entLive s e = false)) ∧ ((s.dir.ents.filter fun (_, e) => decide (e.st ≠ .i) && decide (e.tier = t) && decide (e.line / 16384 = p.toNat)) = [(slot, e)]) ∧ s.ent slot = e ∧ trkAt s e.tier e.line = none ∧ trkFree s e.line = true ∧ (holders s e ≠ [])) ∧
    (∃ (s : State) (t : Tier) (p : BitVec 22) (c : RecallCause), recallStarts s t p.toNat c = false) ∧
    (∃ (s : State) (fn : Fn), hostUp s fn = true ∧ s.takesHost = true ∧ fn.vf = 0 ∧ maySee s fn 0x600208 = true ∧ answers s fn 0x600208 = true) :=
  ⟨⟨svd .s [0, 1] [], fn0, mb 2, 8, 1, by decide +kernel⟩,
   ⟨{ svd .i [] [] with dir := { (svd .i [] []).dir with sweeps := [{ agent := 1, owed := [] }] } }, 1, { agent := 1, owed := [] }, by decide +kernel⟩,
   ⟨{ svd .e [0] [tk .ga [0]] with clk := { locked := true, now := 1100 } }, 24576, tk .ga [0], { agent := 0, expiry := 1100 }, by decide +kernel⟩,
   ⟨{ svd .s [0, 1] [] with insts := [] }, .near, 3, .unmap, 24576, { st := .s, line := 49152, ptrs := [0, 1], keyT := 1 }, by decide +kernel⟩,
   ⟨sv, .near, 3, .unmap, by decide +kernel⟩,
   ⟨sv, fn0, by decide +kernel⟩⟩

theorem test_queues_are_made_rung_and_stopped :
    (∃ (s : State) (fn : Fn) (m : MbxHdr) (tenant : Byte) (queue : Byte) (cls : Byte) (n : Byte) (place : Byte) (inst : Byte) (sqBase : BitVec 64) (cqBase : BitVec 64) (i : Nat), (mbxReady s fn m 24) ∧ createCheck s fn tenant queue cls n place inst sqBase cqBase = none ∧ (i = (if inst = 0xFF then (leastBound s cls.toNat).getD 0 else inst.toNat))) ∧
    (∃ (s : State) (fn : Fn) (m : MbxHdr) (tenant : Byte) (queue : Byte) (k : Nat), (mbxReady s fn m 2) ∧ queueRight s fn tenant queue = none ∧ ((tenant ≠ 0xFF → (s.tenant tenant.toNat).state = .live)) ∧ (k = qNum (queueNamed tenant queue)) ∧ ((s.queue k).state = 0)) ∧
    (∃ (s : State) (fn : Fn) (m : MbxHdr) (tenant : Byte) (queue : Byte) (k : Nat), (mbxReady s fn m 2) ∧ queueRight s fn tenant queue = none ∧ ((tenant ≠ 0xFF → (s.tenant tenant.toNat).state = .live)) ∧ (k = qNum (queueNamed tenant queue)) ∧ (((s.queue k).state = 1 ∨ (s.queue k).state = 2)) ∧ ((s.queue k).cmds = [])) ∧
    (∃ (s : State) (fn : Fn) (m : MbxHdr) (tenant : Byte) (queue : Byte) (k : Nat) (c : Cmd), (mbxReady s fn m 2) ∧ queueRight s fn tenant queue = none ∧ ((tenant ≠ 0xFF → (s.tenant tenant.toNat).state = .live)) ∧ (k = qNum (queueNamed tenant queue)) ∧ ((s.queue k).state = 1) ∧ ((s.queue k).cmds = [c]) ∧ c.phase = .fetched ∧ c.swept = false ∧ c.aborted = false) ∧
    (∃ (s : State) (fn : Fn) (m : MbxHdr) (tenant : Byte) (queue : Byte), (mbxTakes s fn m 2) ∧ queueRight s fn tenant queue = none ∧ ((tenant = 0xFF ∨ (s.tenant tenant.toNat).state = .live ∨ (s.queue (qNum (queueNamed tenant queue))).state = 3))) ∧
    (∃ (s : State) (fn : Fn) (q : QId) (v : Word) (x : Queue) (n : Nat) (t : Nat), (queueSeen s fn q 0x14) ∧ qLive s q = true ∧ (x = s.queue (qNum q)) ∧ x.state = 1 ∧ (n = qSize x) ∧ (t = v.toNat % 65536)) ∧
    (∃ (s : State) (fn : Fn) (q : QId), (queueSeen s fn q 0x14) ∧ ((s.queue (qNum q)).state ≠ 1)) ∧
    (∃ (s : State) (fn : Fn) (q : QId) (v : Word) (x : Queue) (n : Nat) (h : Nat), (queueSeen s fn q 0x1C) ∧ (x = s.queue (qNum q)) ∧ (n = qSize x) ∧ (h = v.toNat % 65536)) ∧
    (∃ (s : State) (fn : Fn) (q : QId) (v : Word) (c : Cmd), (queueSeen s fn q 0x24) ∧ bit v 31 = true ∧ ((s.queue (qNum q)).abPend = none) ∧ (v.toNat % 65536 < qSize (s.queue (qNum q))) ∧ (findCmd s q (v.setWidth 16) = some c) ∧ c.phase = .fetched ∧ c.mig = none ∧ c.swept = false) ∧
    (∃ (s : State) (fn : Fn) (q : QId) (v : Word) (c : Cmd), (queueSeen s fn q 0x24) ∧ bit v 31 = true ∧ ((s.queue (qNum q)).abPend = none) ∧ (v.toNat % 65536 < qSize (s.queue (qNum q))) ∧ (findCmd s q (v.setWidth 16) = some c) ∧ c.swept = true ∧ c.phase = .finished ∧ c.mig = none) ∧
    (∃ (s : State) (fn : Fn) (q : QId) (v : Word), (queueSeen s fn q 0x24) ∧ bit v 31 = true ∧ ((s.queue (qNum q)).abPend = none) ∧ (v.toNat % 65536 < qSize (s.queue (qNum q))) ∧ (findCmd s q (v.setWidth 16) = none)) ∧
    (∃ (s : State) (q : QId), s.alive = true ∧ ((s.queue (qNum q)).state = 3) ∧ ((s.queue (qNum q)).cmds = [])) :=
  ⟨⟨sv, fn0, mb 24, 1, 0, 0, 4, 0, 0xFF, 0x200000, 0x201000, 0, by decide +kernel⟩,
   ⟨sv, fn0, mb 2, 1, 0, 8, by decide +kernel⟩,
   ⟨qd 8 (q1 0 []), fn0, mb 2, 1, 0, 8, by decide +kernel⟩,
   ⟨qd 8 (q1 0 [cm 2 16 0 0 []]), fn0, mb 2, 1, 0, 8, cm 2 16 0 0 [], by decide +kernel⟩,
   ⟨qd 8 (q1 0 []), fn0, mb 2, 1, 0, by decide +kernel⟩,
   ⟨qd 8 (q1 0 []), fn0, (.tenant 1 0), 3, q1 0 [], 16, 3, by decide +kernel⟩,
   ⟨qd 8 { q1 0 [] with state := 3 }, fn0, (.tenant 1 0), by decide +kernel⟩,
   ⟨qd 8 (q1 0 []), fn0, (.tenant 1 0), 0, q1 0 [], 16, 0, by decide +kernel⟩,
   ⟨qd 8 (q1 0 [cm 2 16 0 0 []]), fn0, (.tenant 1 0), 0x80000000, cm 2 16 0 0 [], by decide +kernel⟩,
   ⟨qd 8 { q1 0 [{ cm 2 16 0 0 [] with phase := .finished, swept := true }] with state := 3 }, fn0, (.tenant 1 0), 0x80000000, { cm 2 16 0 0 [] with phase := .finished, swept := true }, by decide +kernel⟩,
   ⟨qd 8 (q1 0 []), fn0, (.tenant 1 0), 0x80000003, by decide +kernel⟩,
   ⟨qd 8 { q1 0 [] with state := 3 }, (.tenant 1 0), by decide +kernel⟩⟩

theorem test_commands_are_fetched_finished_and_committed :
    (∃ (s : State) (q : QId), s.alive = true ∧ (mayFetch (s.queue (qNum q)) = true) ∧ ((s.queue (qNum q)).host = true) ∧ (BitVec.ofNat 16 (s.queue (qNum q)).sqHead ∉ (s.queue (qNum q)).abSet)) ∧
    (∃ (s : State) (t : Fin 128) (k : Fin 8) (x : Queue) (va : Nat) (e : TileEnt), s.alive = true ∧ (x = s.queue (qNum (.tenant t k))) ∧ mayFetch x = true ∧ x.host = false ∧ (va = x.sqBase.toNat + 64 * x.sqHead) ∧ (va % 128 ≤ 64) ∧ (translateGen s t.val va false (genNow s t.val) = .ok e) ∧ (lineFree s e va) ∧ (BitVec.ofNat 16 x.sqHead ∉ x.abSet)) ∧
    (∃ (s : State) (q : QId), s.alive = true ∧ (mayFetch (s.queue (qNum q)) = true) ∧ ((s.queue (qNum q)).host = true)) ∧
    (∃ (s : State) (q : QId) (idx : BitVec 16) (c : Cmd), s.alive = true ∧ (findCmd s q idx = some c) ∧ c.phase = .running ∧ c.ended = true) ∧
    (∃ (s : State) (q : QId) (idx : BitVec 16) (c : Cmd), s.alive = true ∧ (findCmd s q idx = some c) ∧ mayStart s q c = true ∧ (opForQueue q (s.queue (qNum q)) c.desc = false)) ∧
    (∃ (s : State) (q : QId) (x : Queue) (c : Cmd) (r : List Cmd), s.alive = true ∧ (x = s.queue (qNum q)) ∧ (x.cmds = c :: r) ∧ c.phase = .finished ∧ ((c.swept = true → x.endHost = true)) ∧ x.host = true ∧ ((s.host (qHost s q).1).perst = true)) ∧
    (∃ (s : State) (t : Fin 128) (k : Fin 8) (x : Queue) (c : Cmd) (r : List Cmd) (e : TileEnt), s.alive = true ∧ (x = s.queue (qNum (.tenant t k))) ∧ (x.cmds = c :: r) ∧ c.phase = .finished ∧ ((c.swept = true → x.endTiles = true)) ∧ x.host = false ∧ (translateGen s t.val (complAddr x) true (genNow s t.val) = .ok e) ∧ (lineFree s e (complAddr x)) ∧ (complAddr x % 128 ≤ 112)) ∧
    (∃ (s : State) (q : QId) (x : Queue) (c : Cmd) (r : List Cmd) (ok : Bool), s.alive = true ∧ (x = s.queue (qNum q)) ∧ (x.cmds = c :: r) ∧ c.phase = .finished ∧ ((c.swept = true → x.endHost = true)) ∧ x.host = true ∧ x.state = 1 ∧ ((ok = true → (s.host (qHost s q).1).perst = false))) :=
  ⟨⟨qd 8 { q1 0 [] with sqTail := 1, host := true }, (.tenant 1 0), by decide +kernel⟩,
   ⟨qd 8 { q1 0 [] with sqTail := 1 }, 1, 0, { q1 0 [] with sqTail := 1 }, 0x200000, { keyT := 1, phys := 4 }, by decide +kernel⟩,
   ⟨qd 8 { q1 0 [] with sqTail := 1, host := true }, (.tenant 1 0), by decide +kernel⟩,
   ⟨qd 8 (q1 0 [{ cm 2 16 0 0 [] with phase := .running, ended := true }]), (.tenant 1 0), 0, { cm 2 16 0 0 [] with phase := .running, ended := true }, by decide +kernel⟩,
   ⟨qd 8 (q1 0 [cm 9 16 0 0 []]), (.tenant 1 0), 0, cm 9 16 0 0 [], by decide +kernel⟩,
   ⟨qd 8 { q1 0 [{ cm 2 16 0 0 [] with phase := .finished, ended := true }] with host := true }, (.tenant 1 0), { q1 0 [{ cm 2 16 0 0 [] with phase := .finished, ended := true }] with host := true }, { cm 2 16 0 0 [] with phase := .finished, ended := true }, [], by decide +kernel⟩,
   ⟨qd 8 (q1 0 [{ cm 2 16 0 0 [] with phase := .finished, ended := true }]), 1, 0, q1 0 [{ cm 2 16 0 0 [] with phase := .finished, ended := true }], { cm 2 16 0 0 [] with phase := .finished, ended := true }, [], { keyT := 1, phys := 4 }, by decide +kernel⟩,
   ⟨qd 8 { q1 0 [{ cm 2 16 0 0 [] with phase := .finished, ended := true }] with host := true }, (.tenant 1 0), { q1 0 [{ cm 2 16 0 0 [] with phase := .finished, ended := true }] with host := true }, { cm 2 16 0 0 [] with phase := .finished, ended := true }, [], false, by decide +kernel⟩⟩

theorem test_engines_move_bytes :
    (∃ (s : State) (t : Fin 128) (k : Fin 8) (idx : BitVec 16) (c : Cmd) (es : TileEnt) (ed : TileEnt), (takesUp s (.tenant t k) idx c 1 (copyCheck (.tenant t k) c s)) ∧ (engToken s (.tenant t k) c.desc = true) ∧ c.pos = 0 ∧ (c.tiles = []) ∧ (c.list = []) ∧ (0 < c.desc.len) ∧ (c.desc.src % 128 + c.desc.len ≤ 128) ∧ (c.desc.dst % 128 + c.desc.len ≤ 128) ∧ (translateGen s t.val c.desc.src false (genNow s t.val) = .ok es) ∧ (translateGen s t.val c.desc.dst true (genNow s t.val) = .ok ed) ∧ (lineFree s es c.desc.src) ∧ (lineFree s ed c.desc.dst) ∧ (accessTokens s [(es, c.desc.src), (ed, c.desc.dst)] = true)) ∧
    (∃ (s : State) (t : Fin 128) (k : Fin 8) (idx : BitVec 16) (c : Cmd) (ed : TileEnt), (takesUp s (.tenant t k) idx c 2 (fillCheck (.tenant t k) c s)) ∧ (engToken s (.tenant t k) c.desc = true) ∧ c.pos = 0 ∧ (c.tiles = []) ∧ (c.list = []) ∧ (0 < c.desc.len) ∧ (c.desc.dst % 128 + c.desc.len ≤ 128) ∧ (translateGen s t.val c.desc.dst true (genNow s t.val) = .ok ed) ∧ (lineFree s ed c.desc.dst)) ∧
    (∃ (s : State) (t : Fin 128) (k : Fin 8) (idx : BitVec 16) (c : Cmd) (a : Nat) (ea : Nat) (el : TileEnt) (es : TileEnt) (ed : TileEnt), (takesUp s (.tenant t k) idx c 3 (elementsCheck c s)) ∧ (engToken s (.tenant t k) c.desc = true) ∧ c.pos = 0 ∧ (c.tiles = []) ∧ (c.list = []) ∧ descOp c.desc 0x20 4 = 1 ∧ (a = descOp c.desc 0x18 8) ∧ (a % 128 ≤ 112) ∧ (translateGen s t.val a false (genNow s t.val) = .ok el) ∧ (lineFree s el a) ∧ (parseList 1 (bytesAt s el a 16) = [(ea, c.desc.len)]) ∧ (listCheck (.tenant t k) { c with list := [(ea, c.desc.len)] } false s = none) ∧ (ea % 128 + c.desc.len ≤ 128) ∧ (c.desc.dst % 128 + c.desc.len ≤ 128) ∧ ((ea + c.desc.len ≤ c.desc.dst ∨ c.desc.dst + c.desc.len ≤ ea)) ∧ (translateGen s t.val ea false (genNow s t.val) = .ok es) ∧ (translateGen s t.val c.desc.dst true (genNow s t.val) = .ok ed) ∧ (lineFree s es ea) ∧ (lineFree s ed c.desc.dst) ∧ (accessTokens s [(el, a), (es, ea), (ed, c.desc.dst)] = true)) ∧
    (∃ (s : State) (t : Fin 128) (k : Fin 8) (idx : BitVec 16) (c : Cmd) (a : Nat) (ea : Nat) (el : TileEnt) (es : TileEnt) (ed : TileEnt), (takesUp s (.tenant t k) idx c 4 (elementsCheck c s)) ∧ (engToken s (.tenant t k) c.desc = true) ∧ c.pos = 0 ∧ (c.tiles = []) ∧ (c.list = []) ∧ descOp c.desc 0x20 4 = 1 ∧ (a = descOp c.desc 0x18 8) ∧ (a % 128 ≤ 112) ∧ (translateGen s t.val a false (genNow s t.val) = .ok el) ∧ (lineFree s el a) ∧ (parseList 1 (bytesAt s el a 16) = [(ea, c.desc.len)]) ∧ (listCheck (.tenant t k) { c with list := [(ea, c.desc.len)] } true s = none) ∧ (ea % 128 + c.desc.len ≤ 128) ∧ (c.desc.src % 128 + c.desc.len ≤ 128) ∧ ((ea + c.desc.len ≤ c.desc.src ∨ c.desc.src + c.desc.len ≤ ea)) ∧ (translateGen s t.val c.desc.src false (genNow s t.val) = .ok es) ∧ (translateGen s t.val ea true (genNow s t.val) = .ok ed) ∧ (lineFree s es c.desc.src) ∧ (lineFree s ed ea) ∧ (accessTokens s [(el, a), (es, c.desc.src), (ed, ea)] = true)) ∧
    (∃ (s : State) (t : Fin 128) (k : Fin 8) (idx : BitVec 16) (c : Cmd) (es : TileEnt) (w : List Nat), (takesUp s (.tenant t k) idx c 5 (pushCheck (.tenant t k) c s)) ∧ (engToken s (.tenant t k) c.desc = true) ∧ c.mcTag = none ∧ c.pos = 0 ∧ (c.tiles = []) ∧ (0 < c.desc.len) ∧ (c.desc.src % 128 + c.desc.len ≤ 128) ∧ (w = s.mcEntry (descOp c.desc 0x18 1)) ∧ (translateGen s t.val c.desc.src false (genNow s t.val) = .ok es) ∧ (lineFree s es c.desc.src)) ∧
    (∃ (s : State) (a : Fin 8) (idx : BitVec 16) (c : Cmd) (t : Nat) (tile : Nat) (k : Nat) (dst : Tier), (takesUp s (.admin a) idx c 6 (migrateCheck c s)) ∧ c.mig = none ∧ (t = descOp c.desc 0x18 1) ∧ (tile = descOp c.desc 0x1C 4) ∧ (dst = Tier.ofBit (decide (descOp c.desc 0x19 1 = 1))) ∧ (t < 128) ∧ (tile < 2 ^ 27) ∧ ((s.tileShadow t tile).valid = true) ∧ ((s.tileShadow t tile).shared = false) ∧ (s.tileAt t tile = s.tileShadow t tile) ∧ ((s.tileShadow t tile).migrating = false) ∧ (freeMig s = some k) ∧ (dst ≠ (s.tileShadow t tile).tier) ∧ ((match dst with | .near => (s.part (s.tenant t).part).nearUsed < (s.part (s.tenant t).part).nearQuota | .bulk => (s.part (s.tenant t).part).bulkUsed < (s.part (s.tenant t).part).bulkQuota)) ∧ (0 < freeCount s dst)) ∧
    (∃ (s : State) (a : Fin 8) (idx : BitVec 16) (c : Cmd), (takesUp s (.admin a) idx c 0x10 (scrubCheck (.admin a) c s)) ∧ (engToken s (.admin a) c.desc = true) ∧ ((s.host s.cfg.adminPort).perst = true) ∧ scrubPhysical c.desc = true ∧ (c.scrub = {}) ∧ c.pos = 0 ∧ c.desc.len = 128 ∧ (s.use (tileKey (scrubTier c.desc) (c.desc.src / 2 ^ 21)) ≠ .retired) ∧ (lineBusy s (scrubTier c.desc) (c.desc.src / 128) = false) ∧ (tierRuns s (scrubTier c.desc) = true) ∧ (dramToken s (scrubTier c.desc) (c.desc.src / 128) = true) ∧ (s.poisoned (scrubTier c.desc) (c.desc.src / 128) = false)) :=
  ⟨⟨qd 8 (q1 0 [cm 1 16 0 0x200000 []]), 1, 0, 0, cm 1 16 0 0x200000 [], te, { keyT := 1, phys := 4 }, by decide +kernel⟩,
   ⟨qd 8 (q1 0 [cm 2 16 0 0x200000 [1, 2, 3]]), 1, 0, 0, cm 2 16 0 0x200000 [1, 2, 3], { keyT := 1, phys := 4 }, by decide +kernel⟩,
   by refine ⟨writeLine 1 .near 49152 (lineOf ([0, 1, 0, 0, 0, 0, 0, 0, 16] ++ List.replicate 7 0)) (qd 8 (q1 0 [cm 3 16 0 0x200000 [0, 0, 0, 0, 0, 0, 0, 0, 1]])), 1, 0, 0, cm 3 16 0 0x200000 [0, 0, 0, 0, 0, 0, 0, 0, 1], 0, 256, te, te, { keyT := 1, phys := 4 }, ?_, ?_, ?_, ?_, ?_, ?_, ?_, ?_, ?_, ?_, (congrArg (parseList 1) (bytesAt_writeLine _ _)).trans (by decide +kernel), ?_⟩ <;> decide +kernel,
   by refine ⟨writeLine 1 .near 49152 (lineOf ([0, 1, 0, 0, 0, 0, 0, 0, 16] ++ List.replicate 7 0)) (qd 8 (q1 0 [cm 4 16 0x200000 0 [0, 0, 0, 0, 0, 0, 0, 0, 1]])), 1, 0, 0, cm 4 16 0x200000 0 [0, 0, 0, 0, 0, 0, 0, 0, 1], 0, 256, te, { keyT := 1, phys := 4 }, te, ?_, ?_, ?_, ?_, ?_, ?_, ?_, ?_, ?_, ?_, (congrArg (parseList 1) (bytesAt_writeLine _ _)).trans (by decide +kernel), ?_⟩ <;> decide +kernel,
   ⟨mcS (qd 8 (q1 0 [cm 5 16 0 0 [1]])), 1, 0, 0, cm 5 16 0 0 [1], te, (mcS (qd 8 (q1 0 [cm 5 16 0 0 [1]]))).mcEntry 1, by decide +kernel⟩,
   ⟨qd 1024 (q1 0 [{ cm 6 0x200000 0 0 [1, 1, 0, 0, 0, 0, 0, 0] with phase := .running }]), 0, 0, { cm 6 0x200000 0 0 [1, 1, 0, 0, 0, 0, 0, 0] with phase := .running }, 1, 0, 0, .bulk, by decide +kernel⟩,
   ⟨qd 1024 (q1 1 [cm 0x10 128 0 0 [0, 0, 0, 0, 0, 0, 0, 0, 1]]), 0, 0, cm 0x10 128 0 0 [0, 0, 0, 0, 0, 0, 0, 0, 1], by decide +kernel⟩⟩

theorem test_voxel_commands_write_their_results :
    (∃ (s : State) (t : Fin 128) (k : Fin 8) (idx : BitVec 16) (c : Cmd) (i : Instr) (op : Nat) (need : Nat) (chk : Option Status), ((i, op, need, chk) ∈ [(Instr.voxelSample (.tenant t k) idx, 0x20, scratchNeed (c.desc.len / 16), sampleCheck (.tenant t k) c s), (.rulebookBuild (.tenant t k) idx, 0x21, scratchNeed (c.desc.len / descOp c.desc 0x28 1), rulebookCheck (.tenant t k) c s), (.siteLookup (.tenant t k) idx, 0x22, scratchNeed (c.desc.len / descOp c.desc 0x30 1), lookupCheck (.tenant t k) c s)]) ∧ (takesUp s (.tenant t k) idx c op chk) ∧ (2 ^ voxLog c.desc < need)) ∧
    (∃ (s : State) (s1 : State) (s2 : State) (q : QId) (idx : BitVec 16) (c : Cmd) (c1 : Cmd) (c2 : Cmd), (takesUp s q idx c 0x20 (sampleCheck q c s)) ∧ (c.vox = {}) ∧ c.pos = 0 ∧ (scratchNeed (c.desc.len / 16) ≤ 2 ^ voxLog c.desc) ∧ (scratchCleared (tookUp s q c) q { c with phase := .running } s1 c1) ∧ (voxRead q 16 c1 s1 = (.done, c2, s2)) ∧ scratchPoison s2 q c.desc = false) ∧
    (∃ (s : State) (s1 : State) (s2 : State) (q : QId) (idx : BitVec 16) (c : Cmd) (c1 : Cmd) (c2 : Cmd), (takesUp s q idx c 0x21 (rulebookCheck q c s)) ∧ (c.vox = {}) ∧ c.pos = 0 ∧ (scratchNeed (c.desc.len / descOp c.desc 0x28 1) ≤ 2 ^ voxLog c.desc) ∧ (scratchCleared (tookUp s q c) q { c with phase := .running } s1 c1) ∧ (voxRead q (descOp c.desc 0x28 1) c1 s1 = (.done, c2, s2)) ∧ scratchPoison s2 q c.desc = false) ∧
    (∃ (s : State) (s1 : State) (s2 : State) (s3 : State) (q : QId) (idx : BitVec 16) (c : Cmd) (c1 : Cmd) (c2 : Cmd) (c3 : Cmd) (b : List Byte), (takesUp s q idx c 0x22 (lookupCheck q c s)) ∧ (c.vox = {}) ∧ c.pos = 0 ∧ (scratchNeed (c.desc.len / descOp c.desc 0x30 1) ≤ 2 ^ voxLog c.desc) ∧ (4 * descOp c.desc 0x2C 4 ≤ voxOutLen c.desc) ∧ (scratchCleared (tookUp s q c) q { c with phase := .running } s1 c1) ∧ (voxRead q (descOp c.desc 0x30 1) c1 s1 = (.done, c2, s2)) ∧ (readSome q 0 (8 * descOp c.desc 0x2C 4) (descOp c.desc 0x24 8) (8 * descOp c.desc 0x2C 4) [] (leaveTiles c2) s2 = (b, .done, c3, s3)) ∧ scratchPoison s3 q c.desc = false) :=
  ⟨⟨qd 8 (q1 2 [{ cm 0x20 3200 0 4096 (leBytes 8 (8192 + 12)) with phase := .running }]), 1, 0, 0, { cm 0x20 3200 0 4096 (leBytes 8 (8192 + 12)) with phase := .running }, .voxelSample (.tenant 1 0) 0, 0x20, scratchNeed 200, sampleCheck (.tenant 1 0) ({ cm 0x20 3200 0 4096 (leBytes 8 (8192 + 12)) with phase := .running }) (qd 8 (q1 2 [{ cm 0x20 3200 0 4096 (leBytes 8 (8192 + 12)) with phase := .running }])), by decide +kernel⟩,
   by refine ⟨vst vsample, (vcl vsample).2.2.2, (vrd 16 vsample).2.2, (.tenant 1 0), 0, vsample, vclC vsample, (vrd 16 vsample).2.1, ?_, ?_, ?_, ?_, vcl_cleared vsample (by decide +kernel), vrd_done 16 vsample (by decide +kernel), ?_⟩ <;> decide +kernel,
   by refine ⟨vst vrules, (vcl vrules).2.2.2, (vrd 8 vrules).2.2, (.tenant 1 0), 0, vrules, vclC vrules, (vrd 8 vrules).2.1, ?_, ?_, ?_, ?_, vcl_cleared vrules (by decide +kernel), vrd_done 8 vrules (by decide +kernel), ?_⟩ <;> decide +kernel,
   by refine ⟨vst vlook, (vcl vlook).2.2.2, (vrd 8 vlook).2.2, vrd2.2.2.2, (.tenant 1 0), 0, vlook, vclC vlook, (vrd 8 vlook).2.1, vrd2.2.2.1, vrd2.1, ?_, ?_, ?_, ?_, ?_, vcl_cleared vlook (by decide +kernel), vrd_done 8 vlook (by decide +kernel), vrd2_done (by decide +kernel), ?_⟩ <;> decide +kernel⟩

theorem test_launches_start_and_end :
    (∃ (s : State) (q : QId) (idx : BitVec 16) (c : Cmd) (i : Instr) (op : Nat) (chk : Option Status), ((i, op, chk) ∈ [(Instr.launch q idx, 0x30, launchCheck q c s), (.loadFrames q idx, 0x31, loadCheck q c s)]) ∧ (takesUp s q idx c op chk) ∧ c.turn = none) ∧
    (∃ (s : State) (s1 : State) (q : QId) (idx : BitVec 16) (c : Cmd) (b : List Byte) (r : Launch), s.alive = true ∧ (findCmd s q idx = some c) ∧ c.desc.opcode = 0x30 ∧ c.phase = .running ∧ c.ended = false ∧ (c.turn ≠ none) ∧ columnsFree s q c = true ∧ ((∀ k ∈ cmdCols c, (s.col k).state ≠ .halted)) ∧ (engReadAll (.cmd q idx) (qTen q) (descHint c.desc) 256 c.desc.src c.desc.len s = .ok b s1) ∧ (r = { q, idx, tenant := qTen q, part := qPart s (qNum q), first := colFirst c, count := colCount c, args := wordsOf b ++ List.replicate (64 - (wordsOf b).length) 0 }) ∧ ((launchStreams s r).2 = []) ∧ (zeroCounters s r = []) ∧ ((∀ k ∈ regionCols r, cutUnits s r k = []))) ∧
    (∃ (s : State) (col : Fin 64) (w : Word) (r : Launch) (l : List Word), s.alive = true ∧ (launchOn s col.val = some r) ∧ r.first = col.val ∧ (r.toDone = w :: l)) ∧
    (∃ (s : State) (q : QId) (idx : BitVec 16) (r : Launch) (c : Cmd), s.alive = true ∧ (launchOf s q idx = some r) ∧ firing r = false ∧ accessesDone r = true ∧ (findCmd s q idx = some c) ∧ c.phase = .running) ∧
    (∃ (s : State) (q : QId) (idx : BitVec 16) (r : Launch) (b : Nat), atBoundary s = true ∧ (launchOf s q idx = some r) ∧ firing r = true ∧ (r.expiry = some b)) ∧
    (∃ (s : State) (q : QId) (idx : BitVec 16) (r : Launch), atBoundary s = true ∧ (launchOf s q idx = some r) ∧ firing r = true) ∧
    (∃ (s : State) (q : QId) (idx : BitVec 16) (c : Cmd) (r : Launch), (takesUp s q idx c 0x33 (stopCheck q c s)) ∧ ((s.arr.runs.find? fun r => (cmdCols c).all (inRegion r)) = some r) ∧ (launchOf s r.q r.idx = some r) ∧ (r.tenant = qTen q) ∧ firing r = true) ∧
    (∃ (s : State) (q : QId) (idx : BitVec 16) (c : Cmd), (takesUp s q idx c 0x33 (stopCheck q c s)) ∧ ((s.arr.runs.find? fun r => (cmdCols c).all (inRegion r)) = none)) ∧
    (∃ (s : State) (q : QId) (idx : BitVec 16) (c : Cmd), (takesUp s q idx c 0x32 (readbackCheckCmd q c s)) ∧ (c.desc.len < 10400 * colCount c)) ∧
    (∃ (s : State) (t : Fin 128) (k : Fin 8) (idx : BitVec 16) (c : Cmd) (a : Nat) (n : Nat) (e : TileEnt), (takesUp s (.tenant t k) idx c 0x32 (readbackCheckCmd (.tenant t k) c s)) ∧ (10400 * colCount c ≤ c.desc.len) ∧ ((c.pos = 0 → ∀ k ∈ cmdCols c, (s.col k).state ≠ .loading)) ∧ (a = c.desc.dst + c.pos) ∧ (n = 10400 * colCount c - c.pos) ∧ (0 < n) ∧ (a % 128 + n ≤ 128) ∧ (translateGen s t.val a true (sideGen s t.val c 1 a) = .ok e) ∧ (lineFree s e a)) ∧
    (∃ (s : State) (fn : Fn) (m : MbxHdr) (part : Byte), (mbxTakes s fn m 1) ∧ (s.owns fn part.toNat = true ∨ (s.isAdmin fn = true ∧ (s.part part.toNat).valid = true ∧ part.toNat < 16))) :=
  ⟨⟨ar .loaded [cm 0x30 16 0 0 [0, 1]] [] [], (.tenant 1 0), 0, cm 0x30 16 0 0 [0, 1], .launch (.tenant 1 0) 0, 0x30, none, by decide +kernel⟩,
   by refine ⟨ar .loaded [claunch] [] [], accS lread sv, (.tenant 1 0), 0, claunch, accB lread, lrun, ?_, ?_, ?_, ?_, ?_, ?_, ?_, ?_, acc_ok sv (by decide +kernel), rfl, ?_⟩ <;> decide +kernel,
   ⟨ar .running [] [{ ln 0 with toDone := [7] }] [], 0, 7, { ln 0 with toDone := [7] }, [], by decide +kernel⟩,
   ⟨ar .running [{ cm 0x30 16 0 0 [0, 1] with phase := .running, turn := some 1 }] [{ ln 0 with done := some 9 }] [], (.tenant 1 0), 0, { ln 0 with done := some 9 }, { cm 0x30 16 0 0 [0, 1] with phase := .running, turn := some 1 }, by decide +kernel⟩,
   ⟨ar .running [{ cm 0x30 16 0 0 [0, 1] with phase := .running, turn := some 1 }] [{ ln 0 with expiry := some 1000 }] [], (.tenant 1 0), 0, { ln 0 with expiry := some 1000 }, 1000, by decide +kernel⟩,
   ⟨ar .running [{ cm 0x30 16 0 0 [0, 1] with phase := .running, turn := some 1 }] [{ ln 0 with stalls := 4 }] [], (.tenant 1 0), 0, { ln 0 with stalls := 4 }, by decide +kernel⟩,
   ⟨ar .running [{ cm 0x30 16 0 0 [0, 1] with phase := .running, turn := some 1 }, { cm 0x33 0 0 0 [0, 1] with idx := 1 }] [ln 0] [], (.tenant 1 0), 1, { cm 0x33 0 0 0 [0, 1] with idx := 1 }, ln 0, by decide +kernel⟩,
   ⟨ar .loaded [cm 0x33 0 0 0 [0, 1]] [] [], (.tenant 1 0), 0, cm 0x33 0 0 0 [0, 1], by decide +kernel⟩,
   ⟨ar .loaded [cm 0x32 16 0 0 [0, 1]] [] [], (.tenant 1 0), 0, cm 0x32 16 0 0 [0, 1], by decide +kernel⟩,
   ⟨ar .loaded [{ cm 0x32 10400 0 0 [0, 1] with pos := 10368, phase := .running }] [] [], 1, 0, 0, { cm 0x32 10400 0 0 [0, 1] with pos := 10368, phase := .running }, 10368, 32, te, by decide +kernel⟩,
   ⟨sv, fn0, mb 1, 0, by decide +kernel⟩⟩

theorem test_units_fire :
    (∃ (s : State) (col : Fin 64) (cu : Fin 8) (r : Launch) (n : Nat) (cfg : CuCfg) (a : BitVec 1024) (b : BitVec 1024) (c : BitVec 1024) (k : Nat), (n = unitId col.val cu.val) ∧ (unitFull s col.val n r) ∧ (cfg = cuOf s col.val cu.val) ∧ (a = front r n 0) ∧ (b = cfg.constB.getD (front r n 1)) ∧ (c = cfg.constC.getD (front r n 2)) ∧ (k = (front r n 3).toNat % 2 ^ elemBits cfg.fmt)) ∧
    (∃ (s : State) (col : Fin 64) (su : Fin 3) (r : Launch) (n : Nat) (g : Bool), (n = unitId col.val (12 + su.val)) ∧ (unitFull s col.val n r) ∧ (g = (front r n 2).getLsbD 0)) ∧
    (∃ (s : State) (col : Fin 64) (r : Launch) (n : Nat) (cfg : ScCfg) (p0 : Word) (p1 : Word), (n = unitId col.val 15) ∧ (unitFull s col.val n r) ∧ (cfg = scOf s col.val) ∧ (p0 = (front r n cfg.a.val).setWidth 32) ∧ (p1 = (front r n cfg.b.val).setWidth 32)) ∧
    (∃ (s : State) (col : Fin 64) (mu : Fin 4) (st : Fin 4) (r : Launch) (n : Nat) (cfg : MuCfg) (m : MuStream) (a : Int), (n = unitId col.val (8 + mu.val)) ∧ (unitFull s col.val n r) ∧ (launchOf s r.q r.idx = some r) ∧ (cfg = muOf s col.val mu.val st.val) ∧ (m = Tbl.get {} r.streams (streamKey col.val mu.val st.val)) ∧ m.ended = false ∧ (m.issued < m.total) ∧ (m.flight.length < 32) ∧ (a = elemAddr cfg m ((front r n 2).setWidth 32))) ∧
    (∃ (s : State) (col : Fin 64) (mu : Fin 4) (st : Fin 4) (r : Launch) (n : Nat) (m : MuStream) (f : Flight) (fl : List Flight) (e : TileEnt), (n = unitId col.val (8 + mu.val)) ∧ s.alive = true ∧ (launchOn s col.val = some r) ∧ firing r = true ∧ ((s.col col.val).state = .running) ∧ (m = Tbl.get {} r.streams (streamKey col.val mu.val st.val)) ∧ (m.flight = f :: fl) ∧ outRoom s r n f.port = true ∧ (outRoom s r n (3 + st.val) = true) ∧ (f.addr % 128 + (if f.writer = true then f.data.length else f.len) ≤ 128) ∧ (translateGen s r.tenant f.addr f.writer f.gen = .ok e) ∧ (lineFree s e f.addr)) :=
  ⟨⟨ar .running [] [ln 0] [], 0, 0, ln 0, 0, cuOf (ar .running [] [ln 0] []) 0 0, 1, (cuOf (ar .running [] [ln 0] []) 0 0).constB.getD 1, (cuOf (ar .running [] [ln 0] []) 0 0).constC.getD 1, 1, by decide +kernel⟩,
   ⟨ar .running [] [ln 12] [], 0, 0, ln 12, 12, true, by decide +kernel⟩,
   ⟨ar .running [] [ln 15] [], 0, ln 15, 15, scOf (ar .running [] [ln 15] []) 0, 1, 1, by decide +kernel⟩,
   ⟨ar .running [] [{ ln 8 with streams := [(32, { total := 4 })] }] [], 0, 0, 0, { ln 8 with streams := [(32, { total := 4 })] }, 8, muOf (ar .running [] [{ ln 8 with streams := [(32, { total := 4 })] }] []) 0 0 0, { total := 4 }, elemAddr (muOf (ar .running [] [{ ln 8 with streams := [(32, { total := 4 })] }] []) 0 0 0) { total := 4 } 1, by decide +kernel⟩,
   ⟨ar .running [] [{ ln 8 with streams := [(32, { total := 4, issued := 1, flight := [{ addr := 0, len := 2, gen := 0, hint := 0, port := 3 }] })] }] [], 0, 0, 0, { ln 8 with streams := [(32, { total := 4, issued := 1, flight := [{ addr := 0, len := 2, gen := 0, hint := 0, port := 3 }] })] }, 8, { total := 4, issued := 1, flight := [{ addr := 0, len := 2, gen := 0, hint := 0, port := 3 }] }, { addr := 0, len := 2, gen := 0, hint := 0, port := 3 }, [], te, by decide +kernel⟩⟩

theorem test_streams_configure_columns :
    (∃ (s : State) (q : QId) (idx : BitVec 16) (c : Cmd), s.alive = true ∧ (findCmd s q idx = some c) ∧ c.desc.opcode = 0x31 ∧ c.phase = .running ∧ c.ended = false ∧ (c.turn ≠ none) ∧ columnsFree s q c = true ∧ (loaderOf s (.host q idx) = none)) ∧
    (∃ (s : State) (s1 : State) (i : Instr) (l : LoaderId) (x : Loader) (y : Loader) (w : Word), s.alive = true ∧ (i ∈ [Instr.pad l, .select l, .claimDirective l, .frames l, .maps l, .clear l, .endStream l]) ∧ (loaderOf s l = some x) ∧ x.ended = none ∧ x.blk = none ∧ x.leader = false ∧ (nextWords x 1 s = .words [w] y s1) ∧ (w ≠ 0x53D70100)) ∧
    (∃ (s : State) (s1 : State) (l : LoaderId) (x : Loader) (y : Loader) (w : Word), s.alive = true ∧ (loaderOf s l = some x) ∧ x.ended = none ∧ x.blk = none ∧ x.leader = true ∧ (nextWords x 1 s = .words [w] y s1)) ∧
    (∃ (s : State) (s1 : State) (s2 : State) (l : LoaderId) (x : Loader) (y : Loader) (z : Loader) (w : Word) (ws : List Word) (maps : Bool), s.alive = true ∧ (loaderOf s l = some x) ∧ x.ended = none ∧ x.blk = none ∧ x.leader = true ∧ (nextWords x 1 s = .words [w] y s1) ∧ y.claims = true ∧ (w = (if maps = true then 0xA1000001 else 0xA0C00001)) ∧ (nextWords { y with blk := some (maps, 1) } 64 s1 = .words ws z s2) ∧ ws.length = 64 ∧ targetsOk z = true ∧ (z.frame < 40)) ∧
    (∃ (s : State) (col : Nat) (f : Nat), s.alive = true ∧ s.arr.rbEn = true ∧ (s.arr.rbAt ≠ some s.clk.now) ∧ (col = s.arr.rbSlot / 40) ∧ (f = s.arr.rbSlot % 40) ∧ ((s.col col).state ∈ [ColSt.loaded, .running, .halted]) ∧ ((frameAt s col f).length = 64) ∧ (Tbl.get 0 s.arr.checks (frameKey col f) = checkWord (frameAt s col f))) ∧
    (∃ (s : State) (b : Fin 2048) (c : Fin 2048) (col : Nat) (f : Nat), s.alive = true ∧ s.arr.rbEn = true ∧ (s.arr.rbAt ≠ some s.clk.now) ∧ (col = s.arr.rbSlot / 40) ∧ (f = s.arr.rbSlot % 40) ∧ (b ≠ c) ∧ ((s.col col).state ∈ [ColSt.loaded, .running, .halted]) ∧ ((frameAt s col f).length = 64) ∧ (Tbl.get 0 s.arr.checks (frameKey col f) = checkWord (frameAt s col f)) ∧ (zeroWords (mapAt s col f) = false)) ∧
    (∃ (s : State), s.alive = true ∧ ((s.arr.rbEn = false ∨ s.arr.rbAt = some s.clk.now))) ∧
    (∃ (s : State) (fn : Fn), (adminBus s fn)) :=
  ⟨⟨ar .loaded [{ cm 0x31 16 0 0 [0, 1] with phase := .running, turn := some 1 }] [] [], (.tenant 1 0), 0, { cm 0x31 16 0 0 [0, 1] with phase := .running, turn := some 1 }, by decide +kernel⟩,
   by refine ⟨ar .loading [] [] [ld false [0x12345678]], ar .loading [] [] [ld false [0x12345678]], .pad .design, .design, ld false [0x12345678], { ld false [] with read := 1 }, 0x12345678, ?_, ?_, ?_, ?_, ?_, ?_, rfl, ?_⟩ <;> decide +kernel,
   by refine ⟨ar .loading [] [] [ld true [0xA0000000]], ar .loading [] [] [ld true [0xA0000000]], .design, ld true [0xA0000000], { ld true [] with read := 1 }, 0xA0000000, ?_, ?_, ?_, ?_, ?_, rfl⟩ <;> decide +kernel,
   by refine ⟨ar .loading [] [] [{ ld true (0xA1000001 :: List.replicate 64 5) with claims := true, claimed := [0] }], ar .loading [] [] [{ ld true (0xA1000001 :: List.replicate 64 5) with claims := true, claimed := [0] }], ar .loading [] [] [{ ld true (0xA1000001 :: List.replicate 64 5) with claims := true, claimed := [0] }], .design, { ld true (0xA1000001 :: List.replicate 64 5) with claims := true, claimed := [0] }, { ld true (List.replicate 64 5) with claims := true, claimed := [0], read := 1 }, { ld true [] with claims := true, claimed := [0], read := 65, blk := some (true, 1) }, 0xA1000001, List.replicate 64 5, true, ?_, ?_, ?_, ?_, ?_, rfl, ?_, ?_, rfl, ?_⟩ <;> decide +kernel,
   ⟨ar .loaded [] [] [], 0, 0, by decide +kernel⟩,
   ⟨ar .loaded [] [] [], 5, 6, 0, 0, by decide +kernel⟩,
   ⟨{ sv with arr := { sv.arr with rbEn := false } }, by decide +kernel⟩,
   ⟨sv, fn0, by decide +kernel⟩⟩

theorem test_random_source_tamper_and_spdm :
    (∃ (s : State) (again : Bool), s.alive = true ∧ ((again = true → s.trngFail = true))) ∧
    (∃ (s : State), s.alive = true ∧ s.trngFail = false) ∧
    (∃ (s : State), s.alive = true) ∧
    (∃ (s : State) (x : TamperSensor), s.alive = true ∧ ((x = .otp → s.nid.state ≠ .boot))) ∧
    (∃ (s : State) (hp : Fin 4) (c : Instr) (code : Byte) (x : Byte) (b : List Byte), (spdmUp s hp) ∧ ((c, code, b) ∈ [(Instr.getVersion hp, (0x04 : Byte), leBytes 2 0x1200), (.getCapabilities hp, 0x61, [17] ++ leBytes 4 0x16), (.negotiateAlgorithms hp, 0x63, leBytes 4 0x04 ++ leBytes 4 0x80 ++ leBytes 4 0x02), (.getDigests hp, 0x01, [1] ++ sha384 (slotChain s)), (.spdmUnsupportedRequest hp x, 0x7F, [7, 0])])) ∧
    (∃ (s : State) (hp : Fin 4), (spdmUp s hp)) ∧
    (∃ (s : State) (hp : Fin 4) (summary : Byte), (spdmUp s hp) ∧ (s.sec.measured ≠ none) ∧ (summary = 0 ∨ summary = 1 ∨ summary = 0xFF)) ∧
    (∃ (s : State) (hp : Fin 4) (i : Byte) (body : List Byte), (spdmUp s hp) ∧ (s.sec.measured ≠ none) ∧ (i.toNat ≤ 7 ∨ i = 0xFF) ∧ (body = (if i = 0 then [7] else if i = 0xFF then 7 :: [1, 2, 3, 4, 5, 6, 7].flatMap (measBlock s.meas) else 1 :: measBlock s.meas i.toNat))) ∧
    (∃ (s : State) (hp : Fin 4) (c : Instr) (slot : Byte) (x : Byte) (nonce : List Byte) (signed : Bool), (spdmUp s hp) ∧ s.sec.measured = none ∧ (c ∈ [Instr.challenge hp slot x nonce, .getMeasurements hp x signed nonce])) ∧
    (∃ (s : State) (hp : Fin 4) (c : Instr) (slot : Byte) (x : Byte) (o : BitVec 16) (l : BitVec 16) (nonce : List Byte) (signed : Bool), (hostUp s { port := hp } = true) ∧ (s.nid.state = .fatal ∨ s.noImage = true) ∧ (c ∈ [Instr.getVersion hp, .getCapabilities hp, .negotiateAlgorithms hp, .getDigests hp, .getCertificate hp slot o l, .challenge hp slot x nonce, .getMeasurements hp x signed nonce, .spdmUnsupportedRequest hp x])) ∧
    (∃ (s : State) (hp : Fin 4), (hostUp s { port := hp } = true)) :=
  ⟨⟨sv, false, by decide +kernel⟩,
   ⟨hs {}, by decide +kernel⟩,
   ⟨sv, by decide +kernel⟩,
   ⟨sv, .voltage, by decide +kernel⟩,
   ⟨hs {}, 0, .getVersion 0, 4, 0, leBytes 2 0x1200, by decide +kernel⟩,
   ⟨hs {}, 0, by decide +kernel⟩,
   ⟨{ hs {} with sec := { sv.sec with measured := some [] } }, 0, 1, by decide +kernel⟩,
   ⟨{ hs {} with sec := { sv.sec with measured := some [] } }, 0, 0, [7], by decide +kernel⟩,
   ⟨hs {}, 0, .challenge 0 0 1 [], 0, 1, [], true, by decide +kernel⟩,
   ⟨{ sv with nid := { sv.nid with state := .fatal } }, 0, .getVersion 0, 0, 0, 0, 0, [], false, by decide +kernel⟩,
   ⟨sv, 0, by decide +kernel⟩⟩

theorem test_handshakes_authenticate_links :
    (∃ (a : State) (b : State) (h : Hs) (k : Hs) (p : Hello) (q : Hello), (p = ownHello b k) ∧ (q = ownHello a h) ∧ h.chain = b.chain ∧ k.chain = a.chain ∧ (beNat h.random ≠ beNat k.random)) ∧
    (∃ (s : State) (p : Fin 32), (handshaking s p) ∧ ((s.port p).hs.partner = none)) ∧
    (∃ (s : State) (p : Fin 32) (x : Hello) (off : BitVec 16) (bs : List Byte) (h : Hs), (handshaking s p) ∧ ((s.port p).hs.partner = some x) ∧ (bs ≠ []) ∧ (bs.length ≤ 240) ∧ (off.toNat = (s.port p).hs.chain.length) ∧ (h = { (s.port p).hs with chain := (s.port p).hs.chain ++ bs })) ∧
    (∃ (s : State) (p : Fin 32), (handshaking s p) ∧ sigAhead p s = true) ∧
    (∃ (s : State) (p : Fin 32) (h : Hs), (handshaking s p) ∧ ((s.port p).hs.signing = true) ∧ sigAhead p s = false ∧ (h = { (s.port p).hs with signing := false, sentVerify := true, sentFinish := (s.port p).hs.gotVerify })) ∧
    (∃ (s : State) (p : Fin 32) (x : Hello) (k : List Byte) (h : Hs), (handshaking s p) ∧ ((s.port p).hs.partner = some x) ∧ ((s.port p).hs.gotVerify = false) ∧ (h = deriveKeys { (s.port p).hs with gotVerify := true, sentFinish := (s.port p).hs.sentVerify } x) ∧ ((s.port p).hs.leaf = some k)) ∧
    (∃ (s : State) (p : Fin 32) (x : Hello) (q : Params), (handshaking s p) ∧ ((s.port p).hs.partner = some x) ∧ ((s.port p).hs.gotVerify = true) ∧ ((s.port p).hs.sentFinish = true) ∧ (paramsDone (s.port p) = some q) ∧ (needsHandshake (s.port p) q = true)) ∧
    (∃ (s : State) (p : Fin 32) (c : Instr) (sig : List Byte) (mac : List Byte), (handshaking s p) ∧ ((s.port p).hs.partner = none) ∧ (c ∈ [Instr.verify p sig, .finish p mac])) ∧
    (∃ (s : State) (p : Fin 32), (handshaking s p)) ∧
    (∃ (s : State) (p : Fin 32), s.alive = true ∧ ((s.port p).state ≠ .up) ∧ ((s.port p).hs.active = true) ∧ (bit (s.port p).ev 5 = false)) ∧
    (∃ (s : State) (p : Fin 32), s.alive = true ∧ ((s.port p).state = .up) ∧ sepRuns s = true) ∧
    (∃ (s : State) (fn : Fn) (m : MbxHdr) (hash : List Byte), (mbxReady s fn m 50) ∧ hash.length = 48 ∧ s.isAdmin fn = true) :=
  ⟨⟨hs {}, hs {}, { random := [1] }, { random := [2] }, ownHello (hs {}) { random := [2] }, ownHello (hs {}) { random := [1] }, rfl, rfl, by decide +kernel⟩,
   ⟨hs {}, 0, by decide +kernel⟩,
   ⟨hs { partner := some he0 }, 0, he0, 0, [1, 2, 3, 4], { active := true, partner := some he0, chain := [1, 2, 3, 4] }, by decide +kernel⟩,
   ⟨{ hs {} with ports := [(0, { (hs {}).port 0 with hs := { (((hs {}).port 0).hs) with active := true, signing := true } }), (1, { state := .train, hs := { active := true, signing := true } })], sec := { (hs {}).sec with sigQueue := [1, 0] } }, 0, by decide +kernel⟩,
   ⟨hs { signing := true }, 0, { active := true, sentVerify := true }, by decide +kernel⟩,
   by refine ⟨hs { partner := some he0, leaf := some [3] }, 0, he0, [3], deriveKeys { active := true, partner := some he0, leaf := some [3], gotVerify := true } he0, ?_, ?_, ?_, rfl, ?_⟩ <;> decide +kernel,
   ⟨hs { partner := some he0, gotVerify := true, sentFinish := true }, 0, he0, { pr0 with isSealed := 1 }, by decide +kernel⟩,
   ⟨hs {}, 0, .verify 0 [], [], [], by decide +kernel⟩,
   ⟨hs {}, 0, by decide +kernel⟩,
   ⟨hs {}, 0, by decide +kernel⟩,
   ⟨{ hs {} with ports := [(0, { state := .up })] }, 0, by decide +kernel⟩,
   ⟨sv, fn0, mb 50, List.replicate 48 7, by decide +kernel⟩⟩

theorem test_mailbox_serves_images_telemetry_and_log :
    (∃ (s : State) (fn : Fn), hostUp s fn = true ∧ fn.vf = 0 ∧ s.takesHost = true) ∧
    (∃ (s : State) (fn : Fn) (m : MbxHdr) (d : FlashDev), (mbxReady s fn m 17) ∧ s.isAdmin fn = true ∧ (s.boot.flash = some d)) ∧
    (∃ (s : State) (w : ImageWrite) (r : List ImageWrite) (d : FlashDev), s.alive = true ∧ (s.boot.writing = w :: r) ∧ (s.boot.flash = some d)) ∧
    (∃ (s : State) (fn : Fn) (m : MbxHdr), (mbxTakes s fn m 0)) ∧
    (∃ (s : State) (fn : Fn) (m : MbxHdr), (mbxTakes s fn m 5)) :=
  ⟨⟨sv, fn0, by decide +kernel⟩,
   ⟨{ sv with boot := { sv.boot with flash := some fl } }, fn0, mb 17, fl, by decide +kernel⟩,
   ⟨{ sv with boot := { sv.boot with flash := some fl, writing := [{ owed := { port := 0, id := 1, opcode := 0x701, tag := 0 }, addr := 4096, data := [1] }] } }, { owed := { port := 0, id := 1, opcode := 0x701, tag := 0 }, addr := 4096, data := [1] }, [], fl, by decide +kernel⟩,
   ⟨sv, fn0, mb 0, by decide +kernel⟩,
   ⟨sv, fn0, mb 5, by decide +kernel⟩⟩

theorem test_event_rings_and_function_resets :
    (∃ (s : State) (fn : Fn) (v : Word) (h : HostPort), hostUp s fn = true ∧ fn.vf = 0 ∧ s.takesHost = true ∧ (h = s.host fn.port) ∧ (6 ≤ bits v 20 16) ∧ (bits v 20 16 ≤ 16) ∧ bit v 31 = true ∧ h.evOn = false ∧ (h.backlog = [])) ∧
    (∃ (s : State) (fn : Fn) (v : Word) (h : HostPort), hostUp s fn = true ∧ fn.vf = 0 ∧ s.takesHost = true ∧ (h = s.host fn.port) ∧ ((bits v 20 16 < 6 ∨ 16 < bits v 20 16 ∨ (h.evOn = true ∧ bit v 31 = true ∧ bits v 20 16 ≠ bits h.evCfg 20 16)))) ∧
    (∃ (s : State) (fn : Fn) (v : Word) (h : HostPort), hostUp s fn = true ∧ fn.vf = 0 ∧ s.takesHost = true ∧ (h = s.host fn.port) ∧ (6 ≤ bits v 20 16) ∧ (bits v 20 16 ≤ 16) ∧ bit v 31 = false) ∧
    (∃ (s : State) (fn : Fn) (v : Word) (h : HostPort) (n : Nat) (k : Nat), hostUp s fn = true ∧ fn.vf = 0 ∧ s.takesHost = true ∧ (h = s.host fn.port) ∧ n = h.evSize ∧ (k = bits v 15 0)) ∧
    (∃ (s : State) (hp : Fin 4) (c : Instr), (c ∈ [Instr.pfFlr hp, .vfEnableClear hp]) ∧ s.alive = true ∧ (hostUp s { port := hp } = true)) :=
  ⟨⟨sv, fn0, 0x80060000, { retry := false }, by decide +kernel⟩,
   ⟨sv, fn0, 0x80030000, { retry := false }, by decide +kernel⟩,
   ⟨{ sv with hosts := [(0, { retry := false, evCfg := 0x80060000 })] }, fn0, 0x00060000, { retry := false, evCfg := 0x80060000 }, by decide +kernel⟩,
   ⟨{ sv with hosts := [(0, { retry := false, evCfg := 0x80060000 })] }, fn0, 0, { retry := false, evCfg := 0x80060000 }, 64, 0, by decide +kernel⟩,
   ⟨qd 8 (q1 0 []), 0, .pfFlr 0, by decide +kernel⟩⟩

theorem test_power_thermal_and_telemetry :
    (∃ (s : State) (fn : Fn), (adminBus s fn)) ∧
    (∃ (s : State) (fixed : Nat) (avail : Nat) (ds : List Demand) (ws : List Demand), s.alive = true ∧ procWorks s .mnp = true ∧ (ws = ds.filter (fun d => decide (0 < d.demand))) ∧ (avail = s.pwr.effective * 1000 - fixed)) ∧
    (∃ (s : State) (a : BitVec 16) (b : BitVec 16) (hot : BitVec 16) (l : Nat), atBoundary s = true ∧ (s.clk.now % 244 = 0) ∧ (s.pwr.thermAt ≠ some s.clk.now) ∧ (hot = (if a.toInt ≤ b.toInt then b else a)) ∧ (l = (if 400 ≤ hot.toInt then min 7 (s.pwr.level + 1) else if hot.toInt ≤ 388 then s.pwr.level - 1 else s.pwr.level))) ∧
    (∃ (s : State), s.alive = true ∧ telemetryDue s = true) :=
  ⟨⟨sv, fn0, by decide +kernel⟩,
   ⟨{ sv with pwr := { sv.pwr with effective := 100 } }, 50000, 50000, [{ consumer := 1, demand := 20000, fullRate := 30000 }], [{ consumer := 1, demand := 20000, fullRate := 30000 }], by decide +kernel⟩,
   ⟨{ sv with clk := { locked := true, now := 244 } }, 404, 300, 404, 1, by decide +kernel⟩,
   ⟨sv, by decide +kernel⟩⟩

theorem test_smbus_and_monitor_answer :
    (∃ (s : State) (bus2 : Bool) (wr : Bool) (c : Instr) (code : Byte) (b : List Byte) (inFatal : Bool), smbUp bus2 s = true ∧ ((c, code, inFatal, b) ∈ [(Instr.smbState ⟨bus2, wr⟩, (0x00 : Byte), true, [BitVec.ofNat 8 s.nid.state.code]), (.smbTemp ⟨bus2, wr⟩, 0x01, true, leBytes 2 s.pwr.temp.toNat), (.smbPower ⟨bus2, wr⟩, 0x02, false, leBytes 2 s.pwr.watts.toNat), (.smbSerial ⟨bus2, wr⟩, 0x05, true, 8 :: leBytes 8 s.nid.serial.toNat), (.smbFwVersion ⟨bus2, wr⟩, 0x06, true, 4 :: leBytes 4 s.nid.fw.toNat)])) ∧
    (∃ (s : State) (b : List Byte), smbUp false s = true ∧ (b = leBytes 2 s.pwr.bmc)) ∧
    (∃ (s : State) (bus2 : Bool), smbUp bus2 s = true) ∧
    (∃ (s : State) (bus2 : Bool) (b : List Byte), smbUp bus2 s = true ∧ (s.nid.state ≠ .fatal) ∧ (b = leBytes 2 (s.sbd.fifo.headD 0).toNat)) ∧
    (∃ (s : State) (bus2 : Bool), smbUp bus2 s = true) ∧
    (∃ (s : State) (c : Instr) (o : Out) (n : Nat), monUp s = true ∧ ((c, o) ∈ [(Instr.monitorVer, Out.monitor [0x00570016, steppingWord, s.nid.fw, s.nid.serial.setWidth 32, (s.nid.serial >>> 32).setWidth 32]), (.monitorState, .monitor [field 8 s.nid.partitions ||| BitVec.ofNat 32 s.nid.state.code, s.boot.status, s.boot.cause, BitVec.ofNat 32 s.nid.near, BitVec.ofNat 32 s.nid.bulk]), (.monitorHelp, .monitorText "ver, state, rd OFFSET [N], log [N], tel, links, help"), (.monitorBadLine n, .monitorText (if 80 < n then "? long" else "?")), (.monitorLog n, if n = 0 ∨ 64 < n then .monitorText "?" else .monitor (leWords ((s.flt.log.take n).flatMap fltBytes))), (.monitorTel, if (s.wd Proc.mnp.idx).started = true then .monitor (leWords (telemetryBytes s)) else .monitorText "? boot"), (.monitorLinks, if (s.wd Proc.mnp.idx).started = true then .monitor ((List.range 32).map fun k => field 29 (s.port k).state.code ||| field 27 (s.port k).rate.toNat ||| field 25 (s.port k).width.toNat ||| flag 24 (s.port k).lean ||| flag 23 (s.port k).isSealed ||| (s.port k).cause.setWidth 32) else .monitorText "? boot")])) ∧
    (∃ (s : State) (off : Nat), monUp s = true ∧ (off % 4 = 0) ∧ (pairLow s (adminFn s) off = false) ∧ (pairLow s (adminFn s) (off - 4) = false) ∧ ((off < 0x600208 ∨ 0x600214 < off))) ∧
    (∃ (s : State) (off : Nat), monUp s = true ∧ (off % 4 = 0) ∧ (pairLow s (adminFn s) off = true) ∧ (answers s (adminFn s) off = true)) ∧
    (∃ (s : State), monUp s = true ∧ ((∀ i < 4, answers s (adminFn s) (0x600208 + 4 * i) = true))) ∧
    (∃ (s : State) (off : Nat) (n : Nat), monUp s = true ∧ (n = 0 ∨ 64 < n ∨ off % 4 ≠ 0)) :=
  ⟨⟨sv, false, false, .smbState ⟨false, false⟩, 0, [BitVec.ofNat 8 NodeState.ready.code], true, by decide +kernel⟩,
   ⟨sv, leBytes 2 sv.pwr.bmc, by decide +kernel⟩,
   ⟨sv, false, by decide +kernel⟩,
   ⟨{ sv with sbd := { sv.sbd with fifo := [5] } }, false, [5, 0], by decide +kernel⟩,
   ⟨sv, false, by decide +kernel⟩,
   ⟨mn, .monitorVer, .monitor [0x00570016, steppingWord, mn.nid.fw, mn.nid.serial.setWidth 32, (mn.nid.serial >>> 32).setWidth 32], 3, by decide +kernel⟩,
   ⟨mn, 0, by decide +kernel⟩,
   ⟨mn, 0x10000, by decide +kernel⟩,
   ⟨mn, by decide +kernel⟩,
   ⟨mn, 0, 0, by decide +kernel⟩⟩

theorem test_storage_errors_and_watchdogs_are_contained :
    (∃ (s : State) (p : Proc) (ok : Bool) (c : Instr) (x : Wd) (times : List Nat), ((c = .watchdogExpire p ok ∧ atBoundary s = true) ∨ (c = .sramUncorrectable (.procMem p) ∧ ok = true ∧ s.alive = true)) ∧ procStarted s p = true ∧ procRuns s p = true ∧ (x = s.wd p.idx) ∧ (times = s.clk.now :: x.times.filter (fun t => decide (s.clk.now ≤ t + 244141)))) ∧
    (∃ (s : State) (p : Proc), s.alive = true ∧ ((s.wd p.idx).restarting = true)) ∧
    (∃ (s : State) (f : SramFault) (t : Fin 128) (tile : Nat) (e : Fin 64) (q : Fin 8) (k : BitVec 12) (object : Nat), s.alive = true ∧ ((f = .store t tile ∧ object = 0) ∨ (f = .admission t e ∧ object = e.val) ∨ (f = .queueCtx t q ∧ object = q.val ∧ (s.queue (qNum (.tenant t q))).state ≠ 0) ∨ ((f = .streamEntry k ∨ f = .streamRecord k) ∧ object = k.toNat ∧ (s.stream k.toNat).alloc = true ∧ (s.stream k.toNat).tenant = t.val)) ∧ ((s.tenant t).state ≠ .free)) ∧
    (∃ (s : State) (t : Fin 128), s.alive = true ∧ ((s.tenant t).state = .free)) ∧
    (∃ (s : State) (d : BitVec 12) (g : BitVec 8) (f : SramFault) (i : Nat) (k : Nat) (entry : Nat), s.alive = true ∧ ((f, i, k, entry) ∈ [(SramFault.route d, routeInst, d.toNat, d.toNat), (.binding d, bindInst, 2 * d.toNat + 1, d.toNat), (.multicast g, mcInst, g.toNat * 16 + 1, g.toNat)])) ∧
    (∃ (s : State) (sl : Fin 32) (set : Nat) (way : Fin 16) (slot : Nat), s.alive = true ∧ (set < setsPerSlice) ∧ (slot = (sl.val * setsPerSlice + set) * 16 + way.val)) ∧
    (∃ (s : State) (i : Nat), s.alive = true ∧ (i < s.til.bogs.length)) ∧
    (∃ (s : State) (p : Fin 32), s.alive = true ∧ ((s.port p).state = .up)) :=
  ⟨⟨hs {}, .mrp, true, .sramUncorrectable (.procMem .mrp), { started := true }, [1000], by decide +kernel⟩,
   ⟨{ sv with flt := { sv.flt with wd := [(1, { restarting := true })] } }, .fmp, by decide +kernel⟩,
   ⟨sv, .store 1 0, 1, 0, 0, 0, 0, 0, by decide +kernel⟩,
   ⟨sv, 5, by decide +kernel⟩,
   ⟨sv, 7, 1, .route 7, 256, 7, 7, by decide +kernel⟩,
   ⟨svd .s [0, 1] [], 0, 1536, 0, 24576, by decide +kernel⟩,
   ⟨{ sv with til := { sv.til with bogs := [{ tier := .near, line := 5, tenant := 1 }] } }, 0, by decide +kernel⟩,
   ⟨sv, 0, by decide +kernel⟩⟩

end

end Sys2Proof.Machine
end

/-! Register accesses of a wrong size or alignment (R4): what the write and the read of such an access come to in the model, and the
obligation on them. -/

namespace Sys2Proof.Machine

/-! ## The rows that reach the bus -/

theorem exec_registerWrite (fn : Fn) (w : RegWrSet) (s : State) :
    exec (.registerWrite fn w) s = .next (if rings s fn w.toRegWr then ringDoorbell fn s else busWrite fn (sparing s fn w) s) := rfl

theorem exec_registerPairLowRead (fn : Fn) (off size : Nat) (s : State) :
    exec (.registerPairLowRead fn off size) s = .next (busRead fn off size s) := rfl

/-! ## What the write keeps of its operand -/

/-- Sparing the bits that the hardware sets touches the value alone. -/
@[simp] theorem sparing_off (s : State) (fn : Fn) (w : RegWrSet) : (sparing s fn w).off = w.off := by
  unfold sparing; split <;> rfl

@[simp] theorem sparing_size (s : State) (fn : Fn) (w : RegWrSet) : (sparing s fn w).size = w.size := by
  unfold sparing; split <;> rfl

/-- The doorbell is an aligned word, so an access that breaks R4 rings nothing. -/
theorem rings_eq_false_of_misSized {s : State} {fn : Fn} {w : RegWr} (hbad : w.size ≠ 4 ∨ w.off % 4 ≠ 0) : rings s fn w = false := by
  have hbell : ¬ (fn.vf = 0 ∧ w.off = 0xF00004 ∧ w.size = 4) := by
    rintro ⟨-, hoff, hsize⟩
    omega
  simp [rings, hbell]

/-! ## The outcome of an access that breaks R4 -/

/-- In the function's view, and while the node takes host accesses, R4 decides before any register is looked at. -/
theorem busWrite_eq_badWrite {s : State} {fn : Fn} {w : RegWr} (hup : hostUp s fn = true) (htakes : s.takesHost = true)
    (hmay : mayWrite s fn w.off = true) (hbad : w.size ≠ 4 ∨ w.off % 4 ≠ 0) : busWrite fn w s = badWrite fn w.off s := by
  simp [busWrite, hup, htakes, hmay, hbad]

theorem exec_registerWrite_misSized {s : State} {fn : Fn} {w : RegWrSet} (hup : hostUp s fn = true) (htakes : s.takesHost = true)
    (hmay : mayWrite s fn w.off = true) (hbad : w.size ≠ 4 ∨ w.off % 4 ≠ 0) :
    exec (.registerWrite fn w) s = .next (badWrite fn w.off s) := by
  have hbus : busWrite fn (sparing s fn w) s = badWrite fn w.off s := by
    simpa using busWrite_eq_badWrite (w := sparing s fn w) hup htakes (by simpa using hmay) (by simpa using hbad)
  simp [exec_registerWrite, rings_eq_false_of_misSized hbad, hbus]

theorem badWrite_of_noQueue {s : State} {fn : Fn} {off : Nat} (hvf : fn.vf = 0) (hq : queueAt s fn (off / 4 * 4) = none) :
    badWrite fn off s = illegal fn.port (blkOf off) s := by
  simp [badWrite, hq, hvf]

theorem badWrite_of_queue {s : State} {fn : Fn} {off r : Nat} {q : QId} (hq : queueAt s fn (off / 4 * 4) = some (q, r)) :
    badWrite fn off s = qIllegal q s := by
  simp [badWrite, hq]

theorem readPort_misSized {slot : Nat} {fn : Fn} {off size : Nat} {s : State} (hbad : size ≠ 4 ∨ off % 4 ≠ 0) :
    readPort slot fn off size s = (0, s) :=
  if_pos (hbad.imp_right .inl)

theorem busRead_misSized {fn : Fn} {off size : Nat} {s : State} (hup : hostUp s fn = true) (hbad : size ≠ 4 ∨ off % 4 ≠ 0) :
    busRead fn off size s = s.emit (.regRead fn off 0) := by
  simp [busRead, hup, readPort_misSized hbad]

/-- Settles O6: R4 is decided ahead of the register, so a write becomes the flag of its block or of its queue, and a read becomes a 0. -/
theorem misSizedAccessIsDiscarded : Obligations.MisSizedAccessIsDiscarded := by
  refine ⟨?blockWrite, ?queueWrite, ?read⟩
  case blockWrite =>
    intro s fn w k hup htakes hmay hvf hbad hq
    rw [exec_registerWrite_misSized hup htakes hmay hbad, badWrite_of_noQueue hvf hq]
  case queueWrite =>
    intro s fn w k q r hup htakes hmay hbad hq
    rw [exec_registerWrite_misSized hup htakes hmay hbad, badWrite_of_queue hq, qIllegal]
  case read =>
    intro s fn off size hup hbad
    rw [exec_registerPairLowRead, busRead_misSized hup hbad]

end Sys2Proof.Machine

/-! The course packet, the loss of the course clock and the boundary (R28, R30, R31, R192): what each of the three rows leaves, and the
obligation on them. -/

namespace Sys2Proof.Machine

/-! ## The three rows -/

theorem exec_coursePacketSend {s : State} (halive : s.alive = true) :
    exec .coursePacketSend s = .next (coursePacketSend s) :=
  congrArg Host.Outcome.next (if_pos halive)

theorem exec_courseBoundary {s : State} (halive : s.alive = true) (hlocked : s.clk.locked = true) :
    exec .courseBoundary s = .next (boundary s) :=
  congrArg Host.Outcome.next (if_pos (by simp [halive, hlocked]))

/-- The object that the fault entry of a lost course clock names (Table 18.4). -/
def clockLossObject : ClockLoss → BitVec 16
  | .station k => BitVec.ofNat 16 k.val
  | .sysclk => 0

theorem exec_courseClockLoss (c : ClockLoss) (s : State) :
    exec (.courseClockLoss c) s = .next (enterFatal [1] (clockLossObject c) 0 s) := by
  cases c <;> rfl

/-! ## The course packet -/

/-- A packet that is still to be sent leaves in cycle 8,064 or later, with the next counter value and the flip bits (R192). -/
theorem coursePacketSend_due {s : State} (hlocked : s.clk.locked = true) (hunsent : s.clk.packetSent = false) :
    coursePacketSend s =
      { s with
        clk := { s.clk with cycle := max 8064 s.clk.cycle, packetSent := true, flipBits := flipsDue s }
        out := .coursePacket (BitVec.ofNat 48 (s.clk.now + 1)) (flipsDue s) :: s.out } :=
  if_pos (by simp [hlocked, hunsent])

/-- The packet's flip bits: COMMIT is set, and no retired generation would still be held at the boundary (R41 to R43). -/
theorem mem_flipsDue {s : State} {i : Nat} :
    i ∈ flipsDue s ↔ i < 261 ∧ (s.inst i).commit = true ∧
      ((s.inst i).retired = false ∨ inflight s i = 0 ∨ 255 ≤ (s.inst i).age) := by
  simp [flipsDue, or_assoc]

/-! ## The clock across a boundary -/

/-- An operation whose frame leaves out the clock keeps it. -/
theorem Keeps.clk_eq {A : List Area} {s t : State} (hkeeps : Keeps A s t) (hclk : Area.clk ∉ A) : t.clk = s.clk :=
  hkeeps.1 .clk hclk

/-- The clock in cycle 0 of the course that follows. -/
def Clk.nextCourse (c : Clk) : Clk :=
  { c with now := c.now + 1, cycle := 0, packetSent := false, flipBits := [], admits := 0 }

/-- Sending the packet sets only what the boundary sets anew. -/
theorem coursePacketSend_clk_nextCourse (s : State) :
    (coursePacketSend s).clk.nextCourse = s.clk.nextCourse := by
  unfold coursePacketSend; split <;> rfl

theorem restartSlips_clk (s : State) : (restartSlips s).clk = s.clk :=
  (restartSlips_keeps (List.Subset.refl _) (Keeps.refl _ s)).clk_eq (by decide)

/-- Step 1 alone moves the clock on; the withdrawals that go with it leave the clock. -/
theorem stepCount_clk (s : State) : (stepCount s).clk = s.clk.nextCourse := by
  unfold stepCount
  refine Keeps.clk_eq (A := [.insts, .nid, .parts, .tenants, .streams, .reqs, .serialNo, .ports, .xpt, .til, .dram, .dir, .eng,
    .arr, .hosts, .flt, .sbd, .out]) (Keeps.foldl (fun t k => ?tenant) _ (Keeps.foldl (fun t p => ?partition) _ (Keeps.refl _ _)))
    (by decide)
  case tenant => exact Keeps.ite (withdrawTenant_keeps (List.Subset.refl _) (Keeps.refl _ t)) (Keeps.refl _ t)
  case partition => exact Keeps.ite (withdrawPartition_keeps (List.Subset.refl _) (Keeps.refl _ t)) (Keeps.refl _ t)

/-- Steps 2 and 3 keep the clock. -/
theorem toFlips_clk (s : State) : (toFlips s).clk = s.clk.nextCourse :=
  calc (toFlips s).clk
    _ = (stepTimers (stepCount (restartSlips (coursePacketSend s)))).clk :=
      (stepRelease_keeps (List.Subset.refl _) (Keeps.refl _ _)).clk_eq (by decide)
    _ = (stepCount (restartSlips (coursePacketSend s))).clk :=
      (stepTimers_keeps (List.Subset.refl _) (Keeps.refl _ _)).clk_eq (by decide)
    _ = (coursePacketSend s).clk.nextCourse := by rw [stepCount_clk, restartSlips_clk]
    _ = s.clk.nextCourse := coursePacketSend_clk_nextCourse s

/-- Of the steps of Table 2.1 only the first touches the clock. -/
theorem boundary_clk (s : State) : (boundary s).clk = s.clk.nextCourse := by
  have hlater : Keeps [.insts, .nid, .parts, .streams, .reqs, .serialNo, .ports, .xpt, .til, .dram, .dir, .eng, .arr, .hosts, .pwr,
      .flt, .sbd, .out] (toFlips s) (boundary s) :=
    settle_keeps (by decide) (stepBudgets_keeps (by decide) (showAborts_keeps (by decide) (stepRamps_keeps (by decide)
      (stepTokens_keeps (by decide) (pinsTick_keeps (by decide) (stepFlip_keeps (by decide) (Keeps.refl _ _)))))))
  rw [hlater.clk_eq (by decide), toFlips_clk]

/-- The 48-bit counter follows the number of boundaries, and wraps with it (R28). -/
theorem State.course_add_one {s t : State} (hnow : t.clk.now = s.clk.now + 1) : t.course = s.course + 1 := by
  simp [State.course, hnow, BitVec.ofNat_add]

/-- Settles O11: the packet row sends one packet, the clock row is an entry into FATAL by cause 1, and the boundary advances the clock
in its first step alone. -/
theorem courseClockEvents : Obligations.CourseClockEvents := by
  refine ⟨?packet, ?loss, ?boundary⟩
  case packet =>
    intro s halive hlocked hunsent
    have hframe : Keeps [.clk, .out] s (coursePacketSend s) := coursePacketSend_keeps (List.Subset.refl _) (Keeps.refl _ s)
    refine ⟨coursePacketSend s, exec_coursePacketSend halive, hframe.1, ?_⟩
    rw [coursePacketSend_due hlocked hunsent]
    exact ⟨rfl, rfl, fun _ => mem_flipsDue, rfl⟩
  case loss =>
    intro s c halive
    exact ⟨enterFatal [1] (clockLossObject c) 0 s, exec_courseClockLoss c s,
      (enterFatal_keeps (List.Subset.refl _) (Keeps.refl _ s)).1, enterFatal_spec [1] _ 0 s halive⟩
  case boundary =>
    intro s halive hlocked
    have hclk : (boundary s).clk = s.clk.nextCourse := boundary_clk s
    refine ⟨boundary s, exec_courseBoundary halive hlocked, (boundary_keeps (List.Subset.refl _) (Keeps.refl _ s)).1, ?_⟩
    exact ⟨congrArg Clk.now hclk, State.course_add_one (congrArg Clk.now hclk), congrArg Clk.cycle hclk,
      congrArg Clk.packetSent hclk, (congrArg Clk.locked hclk).trans hlocked⟩

end Sys2Proof.Machine

/-! Writes of the generation-managed tables (R37, R44, R73): where table entries and generation words lie, what the bus makes of a write
to one, and the obligation on them. -/

namespace Sys2Proof.Machine

/-! ## The rows that write tables -/

theorem exec_shadowWrite (fn : Fn) (w : RegWr) (s : State) : exec (.shadowWrite fn w) s = .next (busWrite fn w s) := rfl

theorem exec_genctlCommit (fn : Fn) (w : RegWr) (s : State) : exec (.genctlCommit fn w) s = .next (busWrite fn w s) := rfl

/-! ## Where entries and generation words lie (Tables 2.8, 3.3, 4.10, 7.6) -/

/-- The offset of an entry tells the admission lists, XPT's tables and the pin table apart: one case for each table, without the ranges
ruled out before it. -/
theorem tableSlot_place {off i k : Nat} (hslot : tableSlot off = some (i, k)) :
    off % 4 = 0 ∧
    (0x28000 ≤ off ∧ off < 0x38000 ∧ (off - 0x28000) % 0x200 < 0x100 ∧ 128 ≤ i ∧ i < 256 ∨
      0x204000 ≤ off ∧ off < 0x230000 ∧ 256 ≤ i ∧ i < 260 ∨
      0xB00040 ≤ off ∧ off < 0xB00080 ∧ i = 260) := by
  simp only [tableSlot, admInst, routeInst, bindInst, mcInst, streamInst, pinInst, ite_eq_iff, Option.some.injEq, Prod.mk.injEq,
    reduceCtorEq, and_false, false_or, or_false] at hslot
  obtain ⟨haligned, ⟨hadm, hentry, hi, -⟩ | ⟨-, ⟨hroute, hi, -⟩ | ⟨-, ⟨hbind, hi, -⟩ | ⟨-, ⟨hmc, -, hi, -⟩ |
    ⟨-, ⟨hstream, -, hi, -⟩ | ⟨-, hpin, hi, -⟩⟩⟩⟩⟩⟩ := hslot
  all_goals omega

/-- Cited where an offset is the argument: unfolded there, the kernel would count the offset down. -/
theorem tileMapInst_lt {t n : Nat} (ht : t < n) : tileMapInst t < n := ht

/-- The same for GENCTL and GENDRAIN, two words for each instance. -/
theorem genWordAt_place {off i : Nat} {drain : Bool} (hgen : genWordAt off = some (i, drain)) :
    off % 4 = 0 ∧
    (0x28000 ≤ off ∧ off < 0x38000 ∧ 0x100 ≤ (off - 0x28000) % 0x200 ∧ 128 ≤ i ∧ i < 256 ∨
      0x200100 ≤ off ∧ off < 0x200120 ∧ 256 ≤ i ∧ i < 260 ∨
      0x401000 ≤ off ∧ off < 0x401400 ∧ i < 128 ∨
      0xB00020 ≤ off ∧ off < 0xB00028 ∧ i = 260) := by
  simp only [genWordAt, admInst, routeInst, bindInst, mcInst, streamInst, pinInst, ite_eq_iff, Option.some.injEq, Prod.mk.injEq,
    reduceCtorEq, and_false, false_or, or_false] at hgen
  have htenant := @tileMapInst_lt ((off - 0x401000) / 8) 128
  obtain ⟨haligned, ⟨hadm, ⟨hword, hi, -⟩ | ⟨-, hword, hi, -⟩⟩ | ⟨-, ⟨hroute, hi, -⟩ | ⟨-, ⟨hroute, hi, -⟩ | ⟨-, ⟨hbind, hi, -⟩ |
    ⟨-, ⟨hbind, hi, -⟩ | ⟨-, ⟨hmc, hi, -⟩ | ⟨-, ⟨hmc, hi, -⟩ | ⟨-, ⟨hstream, hi, -⟩ | ⟨-, ⟨hstream, hi, -⟩ | ⟨-, ⟨htiles, hi, -⟩ |
    ⟨-, ⟨hpin, hi, -⟩ | ⟨-, hpin, hi, -⟩⟩⟩⟩⟩⟩⟩⟩⟩⟩⟩⟩ := hgen
  all_goals omega

/-- An offset is a table entry or a generation word, never both. -/
theorem genWordAt_of_tableSlot {off i k : Nat} (hslot : tableSlot off = some (i, k)) : genWordAt off = none := by
  refine Option.eq_none_iff_forall_ne_some.mpr fun ⟨j, drain⟩ hgen => ?_
  have hentry := tableSlot_place hslot
  have hword := genWordAt_place hgen
  omega

theorem queueAt_of_outside {s : State} {fn : Fn} {off : Nat} (hvf : fn.vf = 0) (hout : off < 0x701000 ∨ 0x720000 ≤ off) :
    queueAt s fn off = none := by
  have hadmin : ¬ (0x701000 ≤ off ∧ off < 0x701200 ∧ off % 0x40 < 0x34) := by omega
  have htenant : ¬ (0x710000 ≤ off ∧ off < 0x720000 ∧ off % 0x40 < 0x34) := by omega
  simp [queueAt, hvf, hadmin, htenant]

theorem queueAt_of_tableSlot {s : State} {fn : Fn} {off i k : Nat} (hvf : fn.vf = 0) (hslot : tableSlot off = some (i, k)) :
    queueAt s fn off = none := by
  have hentry := tableSlot_place hslot
  exact queueAt_of_outside hvf (by omega)

theorem queueAt_of_genWordAt {s : State} {fn : Fn} {off i : Nat} {drain : Bool} (hvf : fn.vf = 0)
    (hgen : genWordAt off = some (i, drain)) : queueAt s fn off = none := by
  have hword := genWordAt_place hgen
  exact queueAt_of_outside hvf (by omega)

/-! ## Which of them are halves of a pair (R5) -/

/-- Of the table entries only the member masks of the multicast table start a pair. -/
theorem pairLow_of_tableSlot {s : State} {fn : Fn} {off i k : Nat} (hvf : fn.vf = 0) (hslot : tableSlot off = some (i, k))
    (hmc : i ≠ mcInst) : pairLow s fn off = false := by
  have hentry := tableSlot_place hslot
  have hlisted : ¬ (off = 0x10 ∨ off = 0x10000 ∨ off = 0x200010 ∨ off = 0x400028 ∨ off = 0x600200 ∨ off = 0xA00008 ∨ off = 0xF00010) := by
    omega
  simp [pairLow, queueAt_of_tableSlot hvf hslot, hslot, hmc, hlisted]

/-- Away from MBX_EV_BASE and DIR_LK_LINE, a word that starts a pair and may be written is an entry of XPT. -/
theorem not_writablePairLow {s : State} {fn : Fn} {off : Nat} (hvf : fn.vf = 0) (hreg : off ≠ 0xF00010 ∧ off ≠ 0x600200)
    (hxpt : off < 0x204000 ∨ 0x230000 ≤ off) :
    (pairLow s fn off && (decide (off = 0xF00010 ∨ off = 0x600200) || (tableSlot off).isSome)) = false := by
  cases hslot : tableSlot off with
  | none => simp [hreg]
  | some e =>
    have hmc : e.1 ≠ mcInst := by
      have hentry := tableSlot_place (i := e.1) (k := e.2) hslot
      simp only [mcInst]
      omega
    simp [pairLow_of_tableSlot hvf hslot hmc]

theorem pairWritable_of_noLow {s : State} {fn : Fn} {off : Nat} (hvf : fn.vf = 0)
    (hreg : off ≠ 0xF00010 ∧ off ≠ 0x600200 ∧ off ≠ 0xF00014 ∧ off ≠ 0x600204) (hxpt : off < 0x204000 ∨ 0x230004 ≤ off) :
    pairWritable s fn off = none := by
  have hlow := not_writablePairLow (s := s) (off := off) hvf (by omega) (by omega)
  by_cases hfour : 4 ≤ off
  · have hhigh := not_writablePairLow (s := s) (off := off - 4) hvf (by omega) (by omega)
    simp only [pairWritable, hlow, hhigh]
    simp
  · simp only [pairWritable, hlow, hfour]
    simp

theorem pairWritable_of_genWordAt {s : State} {fn : Fn} {off i : Nat} {drain : Bool} (hvf : fn.vf = 0)
    (hgen : genWordAt off = some (i, drain)) : pairWritable s fn off = none := by
  have hword := genWordAt_place hgen
  exact pairWritable_of_noLow hvf (by omega) (by omega)

/-- The entries of an admission list are single words. -/
theorem pairWritable_of_admission {s : State} {fn : Fn} {off i k : Nat} (hvf : fn.vf = 0) (hslot : tableSlot off = some (i, k))
    (hi : i < 256) : pairWritable s fn off = none := by
  have hentry := tableSlot_place hslot
  exact pairWritable_of_noLow hvf (by omega) (by omega)

/-! ## Their blocks -/

theorem blkOf_ptt {off : Nat} (hlo : 0x20000 ≤ off) (hhi : off < 0x100000) : blkOf off = .ptt := by
  simp [blkOf, hhi, show ¬ off < 0x100 by omega, show ¬ off < 0x10000 by omega, show ¬ off < 0x20000 by omega]

theorem blkOf_xpt {off : Nat} (hlo : 0x200000 ≤ off) (hhi : off < 0x300000) : blkOf off = .xpt := by
  simp [blkOf, hhi, show ¬ off < 0x100 by omega, show ¬ off < 0x10000 by omega, show ¬ off < 0x20000 by omega,
    show ¬ off < 0x100000 by omega, show ¬ off < 0x120000 by omega, show ¬ off < 0x200000 by omega]

theorem blkOf_streamEntry {off k : Nat} (hslot : tableSlot off = some (streamInst, k)) : blkOf off = .xpt := by
  have hentry := tableSlot_place hslot
  simp only [streamInst] at hentry
  exact blkOf_xpt (by omega) (by omega)

theorem blkOf_admissionWord {off i : Nat} {drain : Bool} (hgen : genWordAt off = some (i, drain)) (hlo : 128 ≤ i) (hhi : i < 256) :
    blkOf off = .ptt := by
  have hword := genWordAt_place hgen
  exact blkOf_ptt (by omega) (by omega)

/-! ## What a write of an entry or of a generation word does -/

theorem writeSlot_stream (hp : Fin 4) (off k : Nat) (v : Word) (s : State) :
    writeSlot hp off streamInst k v s = illegal hp .xpt s := by
  simp [writeSlot]

theorem writeSlot_notLive {s : State} {i : Nat} (hp : Fin 4) (off k : Nat) (v : Word) (hlo : 128 ≤ i) (hhi : i < 256)
    (hdead : (s.tenant (i - 128)).state ≠ .live) : writeSlot hp off i k v s = illegal hp .ptt s := by
  have hstream : i ≠ streamInst := by
    simp only [streamInst]
    omega
  simp [writeSlot, hstream, hlo, hhi, hdead]

/-- Past the stream table and the admission lists of tenants that are not LIVE, the value alone decides. -/
theorem writeSlot_open {s : State} {i : Nat} (hp : Fin 4) (off k : Nat) (v : Word) (hstream : i ≠ streamInst)
    (hlive : 128 ≤ i ∧ i < 256 → (s.tenant (i - 128)).state = .live) :
    writeSlot hp off i k v s = if slotOk i k v then s.putShadow i k (slotValue i k v) else illegal hp (blkOf off) s := by
  have hopen : ¬ (128 ≤ i ∧ i < 256 ∧ (s.tenant (i - 128)).state ≠ .live) := fun ⟨hlo, hhi, hdead⟩ => hdead (hlive ⟨hlo, hhi⟩)
  cases hok : slotOk i k v <;> simp [writeSlot, hstream, hopen, hok]

/-- The flag of PTT_ is one for all ports. -/
theorem illegal_ptt (hp hq : Fin 4) (s : State) : illegal hp .ptt s = illegal hq .ptt s := rfl

theorem writeGenctl_notLive {s : State} {i : Nat} (hp : Fin 4) (v : Word) (hlo : 128 ≤ i) (hhi : i < 256)
    (hdead : (s.tenant (i - 128)).state ≠ .live) : writeGenctl i v s = illegal hp .ptt s := by
  simp [writeGenctl, hlo, hhi, hdead, illegal_ptt 0 hp]

theorem writeGenctl_open {s : State} {i : Nat} {v : Word} (hcommit : bit v 31 = true)
    (hlive : 128 ≤ i ∧ i < 256 → (s.tenant (i - 128)).state = .live) : writeGenctl i v s = s.setCommit i := by
  have hopen : ¬ (128 ≤ i ∧ i < 256 ∧ (s.tenant (i - 128)).state ≠ .live) := fun ⟨hlo, hhi, hdead⟩ => hdead (hlive ⟨hlo, hhi⟩)
  simp [writeGenctl, hopen, hcommit]

@[simp] theorem State.setCommit_inst_same (s : State) (i : Nat) : (s.setCommit i).inst i = { s.inst i with commit := true } :=
  State.inst_setInst_same ..

theorem State.setCommit_inst_ne {i j : Nat} (s : State) (hne : j ≠ i) : (s.setCommit i).inst j = s.inst j :=
  (State.inst_setInst ..).trans (if_neg hne)

/-! ## The same writes as they reach the node -/

theorem State.isAdmin_vf {s : State} {fn : Fn} (hadmin : s.isAdmin fn = true) : fn.vf = 0 := by
  simp only [State.isAdmin, Bool.and_eq_true, decide_eq_true_eq] at hadmin
  exact hadmin.1

theorem mayWrite_of_isAdmin {s : State} {fn : Fn} (hadmin : s.isAdmin fn = true) (off : Nat) : mayWrite s fn off = true := by
  simp [mayWrite, hadmin]

theorem busWrite_eq_writeReg {s : State} {fn : Fn} {w : RegWr} (hup : hostUp s fn = true) (htakes : s.takesHost = true)
    (hmay : mayWrite s fn w.off = true) (hsize : w.size = 4) (halign : w.off % 4 = 0) :
    busWrite fn w s = writeReg fn w.off w.val s := by
  simp [busWrite, hup, htakes, hmay, hsize, halign]

theorem exec_shadowWrite_entry {s : State} {fn : Fn} {off i k : Nat} (v : Word) (hup : hostUp s fn = true) (htakes : s.takesHost = true)
    (hmay : mayWrite s fn off = true) (hvf : fn.vf = 0) (hslot : tableSlot off = some (i, k)) (hpair : pairWritable s fn off = none) :
    exec (.shadowWrite fn { off, val := v }) s = .next (writeSlot fn.port off i k v s) := by
  have hreg : writeReg fn off v s = writeSlot fn.port off i k v s := by
    simp [writeReg, queueAt_of_tableSlot hvf hslot, hvf, hpair, genWordAt_of_tableSlot hslot, hslot]
  rw [exec_shadowWrite, busWrite_eq_writeReg hup htakes hmay rfl (tableSlot_place hslot).1, hreg]

theorem exec_genctlCommit_word {s : State} {fn : Fn} {off i : Nat} {drain : Bool} (v : Word) (hup : hostUp s fn = true)
    (htakes : s.takesHost = true) (hmay : mayWrite s fn off = true) (hvf : fn.vf = 0) (hgen : genWordAt off = some (i, drain)) :
    exec (.genctlCommit fn { off, val := v }) s =
      .next (if drain then illegal fn.port (blkOf off) s else writeGenctl i v s) := by
  have hreg : writeReg fn off v s = if drain then illegal fn.port (blkOf off) s else writeGenctl i v s := by
    simp [writeReg, queueAt_of_genWordAt hvf hgen, hvf, pairWritable_of_genWordAt hvf hgen, hgen]
  rw [exec_genctlCommit, busWrite_eq_writeReg hup htakes hmay rfl (genWordAt_place hgen).1, hreg]

/-- Settles O10: an aligned write reaches the entry or the generation word its offset names, and there the instance, the state of its
tenant and the value decide. -/
theorem tableWritesGoToTheShadow : Obligations.TableWritesGoToTheShadow := by
  refine ⟨?shadow, ?discarded, ?commit, ?entryNotLive, ?wordNotLive⟩
  case shadow =>
    intro s fn off i k v ⟨hup, htakes, hadmin⟩ hslot hpair hstream hlive hok
    rw [exec_shadowWrite_entry v hup htakes (mayWrite_of_isAdmin hadmin off) (State.isAdmin_vf hadmin) hslot hpair,
      writeSlot_open _ _ _ _ hstream hlive, if_pos hok]
  case discarded =>
    intro s fn off i k v ⟨hup, htakes, hadmin⟩ hslot hpair hcause
    rw [exec_shadowWrite_entry v hup htakes (mayWrite_of_isAdmin hadmin off) (State.isAdmin_vf hadmin) hslot hpair]
    by_cases hstream : i = streamInst
    · subst hstream
      rw [writeSlot_stream, blkOf_streamEntry hslot]
    · obtain ⟨hlive, hbad⟩ := hcause.resolve_left hstream
      rw [writeSlot_open _ _ _ _ hstream hlive, if_neg (by simp [hbad])]
  case commit =>
    intro s fn off i v ⟨hup, htakes, hadmin⟩ hgen hcommit hlive
    refine ⟨s.setCommit i, ?_, (State.setCommit_keeps (List.Subset.refl _) (Keeps.refl _ s)).1, ?_⟩
    · rw [exec_genctlCommit_word v hup htakes (mayWrite_of_isAdmin hadmin off) (State.isAdmin_vf hadmin) hgen,
        if_neg Bool.false_ne_true, writeGenctl_open hcommit hlive]
    · simpa using fun j (hne : j ≠ i) => State.setCommit_inst_ne s hne
  case entryNotLive =>
    intro s fn off t k v hup htakes hmay hvf ht hslot hdead
    rw [exec_shadowWrite_entry v hup htakes hmay hvf hslot (pairWritable_of_admission hvf hslot (by omega)),
      writeSlot_notLive _ _ _ _ (by omega) (by omega) (by simpa using hdead)]
  case wordNotLive =>
    intro s fn off t drain v hup htakes hmay hvf ht hgen hdead
    rw [exec_genctlCommit_word v hup htakes hmay hvf hgen]
    cases drain with
    | true => rw [if_pos rfl, blkOf_admissionWord hgen (by omega) (by omega)]
    | false => rw [if_neg Bool.false_ne_true, writeGenctl_notLive fn.port v (by omega) (by omega) (by simpa using hdead)]

end Sys2Proof.Machine
